-- ==== Sys2Proof/Word.lean ====
section
/-! DEFINITION. The plain word types of the CX9 (R5) and the lane mask of a team (R16). -/

namespace Sys2Proof

/-- A 32-bit word (R5): register contents, instruction words, card words. -/
abbrev Word := BitVec 32

/-- A byte of memory (R5). -/
abbrev Byte := BitVec 8

/-- The lanes of a team, bit `32 * home warp + lane in warp` (R16): 32 mask words of 32 bits. -/
abbrev Mask := BitVec 1024

end Sys2Proof
end

