-- ==== Sys2Proof/Syntax.lean ====
section
/-! DEFINITION. The syntax of Dirax and of the machine's own steps: one constructor of `Instr` for each row of the
opcode table. A row with an encoding carries the fields of its word (R50 to R54); an operation or event carries the
numbers of the records it acts on (p a package of the state, c a logical core, t a team, g a gang, i j l record ids).
Register operands stay the 7-bit codes of the word, because a code means different things by class (R38, R39). -/

namespace Sys2Proof

/-- The clause classes (R32). -/
inductive Cls where
  | lane | unif | mem | sync | flow | sys | card | res
  deriving DecidableEq, Repr

/-- Sub-operations of `iun` (R57, R95). -/
inductive IunOp where
  | not | neg | abs | popc | clz | ctz | brev | sext8 | sext16 | zext8 | zext16 | bswap
  deriving DecidableEq, Repr

/-- Sub-operations of `fun` (R57, R139). -/
inductive FunOp where
  | abs | neg | rcp | rsq | sqrt | exp2 | log2 | floor | ceil | trunc | rint | frac
  deriving DecidableEq, Repr

/-- Sub-operations of `getl` (R57, R101). -/
inductive GetlOp where
  | lid | homeWarp | laneInWarp | teamInBlock | blockIndex | core | quad | die | package
  | teamsPerBlock | lanesPerTeam | blocksInGrid
  deriving DecidableEq, Repr

/-- The formats a `cvt` word, a card or a format word names (R59); F32 is `f32`. -/
inductive Fmt where
  | f32 | bf16 | f16 | e4m3 | e5m2 | e2m3 | e3m2 | e2m1 | s32 | n32 | s8 | n8 | ts8 | e8m0
  deriving DecidableEq, Repr

/-- Combine modes of a compare (R50). -/
inductive CMode where
  | set | and | or
  deriving DecidableEq, Repr

/-- Operations of an atomic (R61). -/
inductive AOp where
  | add | minS | maxS | minN | maxN | and | or | xor | xchg | cas | fadd | fmin | fmax | bfadd2
  deriving DecidableEq, Repr

/-- Modes of `vote` (R103). -/
inductive VoteMode where
  | ballot | all | any | count
  deriving DecidableEq, Repr

/-- Operations of `scan.i` and `tred.i` (R106). -/
inductive ScanIOp where
  | add | minS | maxS | minN | maxN | and | or | xor
  deriving DecidableEq, Repr

/-- Operations of `scan.f` and `tred.f` (R106). -/
inductive ScanFOp where
  | add | min | max
  deriving DecidableEq, Repr

/-- Scopes of R12. -/
inductive Scope where
  | team | core | quad | die | pkg | pod
  deriving DecidableEq, Repr

/-- The three ways of writing a CSR (R318). -/
inductive CsrKind where
  | write | set | clear
  deriving DecidableEq, Repr

/-- Fields of a three-operand format A word (R50): NW, PN, PR, D, A, B. -/
structure FA where
  (nw pn : Bool) (pr : BitVec 3) (d a b : BitVec 7)
  deriving DecidableEq, Repr

/-- Fields of a format A word with one source (R50). -/
structure FU where
  (nw pn : Bool) (pr : BitVec 3) (d a : BitVec 7)
  deriving DecidableEq, Repr

/-- Fields of a format A word with a destination only (R50). -/
structure FD where
  (nw pn : Bool) (pr : BitVec 3) (d : BitVec 7)
  deriving DecidableEq, Repr

/-- Fields of a compare or `vtop` (R50, R98): q is the predicate written. -/
structure FC where
  (nw pn : Bool) (pr : BitVec 3) (mode : CMode) (q : BitVec 3) (a b : BitVec 7)
  deriving DecidableEq, Repr

/-- Fields of `plop` (R99): truth table, predicate written, predicates x and y. -/
structure FP where
  (nw pn : Bool) (pr : BitVec 3) (tbl : BitVec 4) (q x y : BitVec 3)
  deriving DecidableEq, Repr

/-- Fields of a format M load or store (R51). -/
structure FM where
  (sb : BitVec 2) (pn : Bool) (pr : BitVec 3) (d a : BitVec 7) (bp sc sz : BitVec 2)
  deriving DecidableEq, Repr

/-- Fields of a format M vector access, SZ fixed (R51). -/
structure FV where
  (sb : BitVec 2) (pn : Bool) (pr : BitVec 3) (d a : BitVec 7) (bp sc : BitVec 2)
  deriving DecidableEq, Repr

/-- Fields of a format M atomic (R51, R61). -/
structure FT where
  (sb : BitVec 2) (pn : Bool) (pr : BitVec 3) (d a : BitVec 7) (bp : BitVec 2) (aop : AOp)
  deriving DecidableEq, Repr

/-- Fields of `accrd` and `accwr`, SZ and SC fixed (R51). -/
structure FX where
  (sb : BitVec 2) (pn : Bool) (pr : BitVec 3) (d a : BitVec 7) (bp : BitVec 2)
  deriving DecidableEq, Repr

/-- Fields of `str.z`, the zero-length store (R190): its guard bits are PR 7 and PN 1. -/
structure FZ where
  (sb : BitVec 2) (a : BitVec 7) (bp sc : BitVec 2)
  deriving DecidableEq, Repr

/-- Fields of a SYNC word with two operands (R52). -/
structure FS where
  (pn : Bool) (pr : BitVec 3) (a b : BitVec 7)
  deriving DecidableEq, Repr

/-- Fields of `waitph` and `testph` (R52, R201). -/
structure FW where
  (pn : Bool) (pr gpd : BitVec 3) (a b : BitVec 7)
  deriving DecidableEq, Repr

/-- Fields of a SYNC word with a scope (R52). -/
structure FB where
  (pn : Bool) (pr : BitVec 3) (scope : Scope)
  deriving DecidableEq, Repr

/-- Fields of a word with a guard only. -/
structure FN where
  (pn : Bool) (pr : BitVec 3)
  deriving DecidableEq, Repr

/-- Fields of a word with a guard and one operand A. -/
structure FG where
  (pn : Bool) (pr : BitVec 3) (a : BitVec 7)
  deriving DecidableEq, Repr

/-- Fields of a relative FLOW word (R53). -/
structure FR where
  (pn : Bool) (pr : BitVec 3) (off : BitVec 16)
  deriving DecidableEq, Repr

/-- Fields of a CSR word (R54). -/
structure FY where
  (pn : Bool) (pr : BitVec 3) (csr : BitVec 12) (reg : BitVec 7)
  deriving DecidableEq, Repr

/-- Fields of `trap` and `dbrk` (R54, R319). -/
structure FK where
  (pn : Bool) (pr : BitVec 3) (code : BitVec 12)
  deriving DecidableEq, Repr

/-- Fields of a SYS word with one register (R54). -/
structure FQ where
  (pn : Bool) (pr : BitVec 3) (reg : BitVec 7)
  deriving DecidableEq, Repr

/-- A range entry of a context (R144); `zero` holds bits [31:7] at offset 24. -/
structure RangeEntry where
  (base limit pbase : Nat) (v rd wr at_ ex : Bool) (tgt zero : Nat)
  deriving DecidableEq, Repr

/-- An accept window (R179) or a UALink target window (R362). -/
structure Window where
  (v : Bool) (base limit : Nat) (rd wr at_ : Bool)
  deriving DecidableEq, Repr

/-- A pinned handle (R266); `length` counts 4 KiB units. -/
structure Pinned where
  (v : Bool) (pbase length : Nat) (rd wr : Bool)
  deriving DecidableEq, Repr

/-- What a cold start finds outside the machine (R350): the step that fails (0 for none), whether a ready partner gives
the pod's count, that count, and the ports whose partner trained, with their WIRE delays. -/
structure BootFacts where
  (pkg num fail : Nat) (joins : Bool) (count : Nat) (remap : List Nat) (ports : List (Nat × Nat))
  deriving DecidableEq, Repr

/-- A warm start (R351, R363): the tag of its request, and what it finds outside the machine: whether the retained image has the digest of its last verification, how far
voltage (mV) and die temperature (°C) lie from those of the last calibration, whether a check pattern reads back wrong, the steps
that would fail if they were run, and the ports whose partner trained, with their WIRE delays. -/
structure WarmFacts where
  (tag : Nat) (same : Bool) (dv dt : Int) (mismatch : Bool) (bad : List Nat) (ports : List (Nat × Nat))
  deriving DecidableEq, Repr

/-- The pulse of a die root (R306): the die, and the difference it finds for each island of it. -/
structure Pulse where
  (die : Nat) (diffs : List Int)
  deriving DecidableEq, Repr

/-- The restart cycle RS of a RESTART request, and whether it came through the management transport (R365, R374). -/
structure RestartAt where
  (rs : Nat) (mgmt : Bool)
  deriving DecidableEq, Repr

/-- What CTX_CREATE creates (R363): number, privilege, range entries, page-table root and TUBERR ring base. -/
structure CtxSpec where
  (num : Nat) (priv : Bool) (ranges : List RangeEntry) (root ring : Nat)
  deriving DecidableEq, Repr

/-- The settings CONFIG writes (R363); `ringdrop` clears the count of a core (R299, entry 66). -/
inductive ConfigItem where
  | hashm (k : Nat) (x : Word)
  | window (i : Nat) (w : Window)
  | uwindow (stn i : Nat) (w : Window)
  | pin (h : Nat) (p : Pinned)
  | tubage (x : Word)
  | rtimeout (x : Word)
  | budget (watts : Nat)
  | bar2 (base : Nat)
  | ringdrop (core : Nat)
  | timeRoot (num : Nat)
  deriving DecidableEq, Repr

/-- A page migration (R191): the context's page at `va` of `size` bytes, where it lies, where it goes, the new entry `pte` the
service installs at `ptePa` of the page tables, and the entries of the other contexts that map it (package, address, new value). -/
structure MigSpec where
  (ctx va size src dst ptePa pte : Nat) (others : List (Nat × Nat × Nat))
  deriving DecidableEq, Repr

/-- A request a UALink station receives (R362). -/
inductive UalReq where
  | read (pa n : Nat)
  | write (pa : Nat) (data : List Byte)
  | atomic (pa : Nat) (op : AOp) (x cmp : Word)
  deriving DecidableEq, Repr

/-- The instructions, operations and events of the CX9: one constructor for each row of the opcode table. -/
inductive Instr where
  /-- CLAUSE_START (R35). -/
  | clauseStart (p c : Nat)
  /-- TEAM_END (R77). -/
  | teamEnd (t : Nat)
  /-- GANG_END (R77). -/
  | gangEnd (g : Nat)
  /-- MOV (R97). -/
  | mov (w : FU)
  /-- SEL (R97). -/
  | sel (w : FA)
  /-- IADD (R90). -/
  | iadd (w : FA)
  /-- ISUB (R90). -/
  | isub (w : FA)
  /-- IMUL (R90). -/
  | imul (w : FA)
  /-- IMULH_S (R90). -/
  | imulhS (w : FA)
  /-- IMULH_N (R90). -/
  | imulhN (w : FA)
  /-- IMAD (R91). -/
  | imad (w : FA)
  /-- IDIV_S (R93). -/
  | idivS (w : FA)
  /-- IDIV_N (R93). -/
  | idivN (w : FA)
  /-- IREM_S (R93). -/
  | iremS (w : FA)
  /-- IREM_N (R93). -/
  | iremN (w : FA)
  /-- IMIN_S (R90). -/
  | iminS (w : FA)
  /-- IMAX_S (R90). -/
  | imaxS (w : FA)
  /-- IMIN_N (R90). -/
  | iminN (w : FA)
  /-- IMAX_N (R90). -/
  | imaxN (w : FA)
  /-- AND (R94). -/
  | and (w : FA)
  /-- OR (R94). -/
  | or (w : FA)
  /-- XOR (R94). -/
  | xor (w : FA)
  /-- ANDN (R94). -/
  | andn (w : FA)
  /-- SHL (R94). -/
  | shl (w : FA)
  /-- SHR (R94). -/
  | shr (w : FA)
  /-- SAR (R94). -/
  | sar (w : FA)
  /-- ROL (R94). -/
  | rol (w : FA)
  /-- IUN (R95). -/
  | iun (w : FU) (op : IunOp)
  /-- BFX_S (R96). -/
  | bfxS (w : FA)
  /-- BFX_N (R96). -/
  | bfxN (w : FA)
  /-- BFI (R96). -/
  | bfi (w : FA)
  /-- IADD_SAT (R92). -/
  | iaddSat (w : FA)
  /-- ISUB_SAT (R92). -/
  | isubSat (w : FA)
  /-- IDP4 (R91). -/
  | idp4 (w : FA)
  /-- CARDF (R245). -/
  | cardf (w : FG)
  /-- ICMP_EQ (R98). -/
  | icmpEq (w : FC)
  /-- ICMP_NE (R98). -/
  | icmpNe (w : FC)
  /-- ICMP_LT_S (R98). -/
  | icmpLtS (w : FC)
  /-- ICMP_LE_S (R98). -/
  | icmpLeS (w : FC)
  /-- ICMP_LT_N (R98). -/
  | icmpLtN (w : FC)
  /-- ICMP_LE_N (R98). -/
  | icmpLeN (w : FC)
  /-- FCMP_EQ (R138). -/
  | fcmpEq (w : FC)
  /-- FCMP_LT (R138). -/
  | fcmpLt (w : FC)
  /-- FCMP_LE (R138). -/
  | fcmpLe (w : FC)
  /-- FCMP_UN (R138). -/
  | fcmpUn (w : FC)
  /-- PLOP (R99). -/
  | plop (w : FP)
  /-- PTOV (R100). -/
  | ptov (w : FD)
  /-- VTOP (R100). -/
  | vtop (w : FC)
  /-- SHFI (R102). -/
  | shfi (w : FA)
  /-- SHFU (R102). -/
  | shfu (w : FA)
  /-- SHFD (R102). -/
  | shfd (w : FA)
  /-- SHFX (R102). -/
  | shfx (w : FA)
  /-- TSHFI (R105). -/
  | tshfi (w : FA)
  /-- VOTE (R103). -/
  | vote (w : FD) (neg : Bool) (q : BitVec 3) (mode : VoteMode)
  /-- SCAN_I (R107). -/
  | scanI (w : FU) (op : ScanIOp) (excl : Bool)
  /-- SCAN_F (R107). -/
  | scanF (w : FU) (op : ScanFOp) (excl : Bool)
  /-- TRED_I (R107). -/
  | tredI (w : FU) (op : ScanIOp)
  /-- TRED_F (R107). -/
  | tredF (w : FU) (op : ScanFOp)
  /-- GETL (R101). -/
  | getl (w : FD) (op : GetlOp)
  /-- FADD (R136). -/
  | fadd (w : FA)
  /-- FSUB (R136). -/
  | fsub (w : FA)
  /-- FMUL (R136). -/
  | fmul (w : FA)
  /-- FFMA (R136). -/
  | ffma (w : FA)
  /-- FMIN (R137). -/
  | fmin (w : FA)
  /-- FMAX (R137). -/
  | fmax (w : FA)
  /-- FUN (R139). -/
  | funW (w : FU) (op : FunOp)
  /-- CVT (R127). -/
  | cvt (w : FU) (dir sat rtz : Bool) (x : Fmt)
  /-- LDL_N (R165). -/
  | ldlN (w : FM)
  /-- LDL_S (R165). -/
  | ldlS (w : FM)
  /-- STL (R165). -/
  | stl (w : FM)
  /-- LDLV (R165). -/
  | ldlv (w : FV)
  /-- STLV (R165). -/
  | stlv (w : FV)
  /-- LDG_N (R166). -/
  | ldgN (w : FM)
  /-- LDG_S (R166). -/
  | ldgS (w : FM)
  /-- STG (R166). -/
  | stg (w : FM)
  /-- LDGV (R166). -/
  | ldgv (w : FV)
  /-- STGV (R166). -/
  | stgv (w : FV)
  /-- LDR_N (R190). -/
  | ldrN (w : FM)
  /-- LDR_S (R190). -/
  | ldrS (w : FM)
  /-- STR (R190). -/
  | str (w : FM)
  /-- STR_Z (R190). -/
  | strZ (w : FZ)
  /-- ATL (R167). -/
  | atl (w : FT)
  /-- ATLN (R167). -/
  | atln (w : FT)
  /-- ATG (R167). -/
  | atg (w : FT)
  /-- ATGN (R167). -/
  | atgn (w : FT)
  /-- ATR (R190). -/
  | atr (w : FT)
  /-- ATRN (R190). -/
  | atrn (w : FT)
  /-- ACCRD (R168). -/
  | accrd (w : FX)
  /-- ACCWR (R168). -/
  | accwr (w : FX)
  /-- LOAD_DATA_WRITTEN (R48). -/
  | loadDataWritten (l : Nat)
  /-- STAGED_STORE_PERFORMED (R149). -/
  | stagedStorePerformed (i : Nat)
  /-- LS_ATOMIC_PERFORMED (R150). -/
  | lsAtomicPerformed (i : Nat)
  /-- PACKAGE_GLOBAL_ACCESS (R151). -/
  | packageGlobalAccess (i : Nat)
  /-- GATHER_PACKET_ARRIVAL (R152). -/
  | gatherPacketArrival (i : Nat)
  /-- SEGMENT_SERVED (R153). -/
  | segmentServed (p n : Nat)
  /-- PAGE_WALK (R338). -/
  | pageWalk (p q : Nat)
  /-- WALK_LEVEL_READ (R338). -/
  | walkLevelRead (p q : Nat)
  /-- FAULT_REPORT (R312). -/
  | faultReport (i : Nat)
  /-- REFRESH_PHASE_POINT (R160). -/
  | refreshPhasePoint (p k : Nat)
  /-- COMPUTE_BOUND_REFRESH (R160). -/
  | computeBoundRefresh (p n : Nat)
  /-- PARITY_ALERT_REPLAY (R161). -/
  | parityAlertReplay (p n : Nat)
  /-- TUB_OFFER (R172). -/
  | tubOffer (i : Nat)
  /-- TUB_FREE_INSERTION (R174). -/
  | tubFreeInsertion (p : Nat)
  /-- AGE_TRIGGER (R174). -/
  | ageTrigger (p n : Nat)
  /-- ELASTIC_SLOT_SEND (R175). -/
  | elasticSlotSend (p n : Nat)
  /-- INTERMEDIATE_FORWARD (R175). -/
  | intermediateForward (p i : Nat)
  /-- PACKET_TAKEN_IN (R176). -/
  | packetTakenIn (p i : Nat)
  /-- ELEMENT_ISSUE (R176). -/
  | elementIssue (p i j : Nat)
  /-- ELEMENT_PERFORMED (R176). -/
  | elementPerformed (p i j : Nat)
  /-- ACKNOWLEDGEMENT_SEND (R176). -/
  | acknowledgementSend (p i : Nat)
  /-- ACKNOWLEDGEMENT_ARRIVAL (R176). -/
  | acknowledgementArrival (p i : Nat)
  /-- REMOTE_OLD_VALUE_WRITTEN (R176). -/
  | remoteOldValueWritten (p i : Nat)
  /-- TUB_TIMEOUT (R181). -/
  | tubTimeout (p i : Nat)
  /-- TUBERR_RECORD_WRITE (R345). -/
  | tuberrRecordWrite (i : Nat)
  /-- TUBERR_HEAD_ADVANCE (R183). -/
  | tuberrHeadAdvance (i : Nat)
  /-- REMOTE_LOAD_REQUEST (R187). -/
  | remoteLoadRequest (i : Nat)
  /-- REMOTE_LOAD_ACCESS (R187). -/
  | remoteLoadAccess (p i j : Nat)
  /-- REMOTE_LOAD_REPLY (R187). -/
  | remoteLoadReply (p i : Nat)
  /-- REMOTE_LOAD_REPLY_ARRIVAL (R187). -/
  | remoteLoadReplyArrival (p i : Nat)
  /-- REMOTE_LOAD_TIMEOUT (R187). -/
  | remoteLoadTimeout (p i : Nat)
  /-- UALINK_COMPLETION (R188). -/
  | ualinkCompletion (p i j : Nat) (err : Bool) (old : Nat)
  /-- POD_FENCE_DRAIN (R186). -/
  | podFenceDrain (t : Nat)
  /-- TFLUSH_EFFECT (R207). -/
  | tflushEffect (p t : Nat) (key : Word)
  /-- MIGDRAIN_RECEIPT (R192). -/
  | migdrainReceipt (p i : Nat)
  /-- MIGDRAIN_REPLY (R192). -/
  | migdrainReply (i : Nat) (timeout : Bool)
  /-- BARRIER_OBJECT_UPDATE (R194). -/
  | barrierObjectUpdate (i : Nat)
  /-- WAITPH_DEADLINE (R201). -/
  | waitphDeadline (t : Nat)
  /-- BARN_ROUND_COMPLETE (R203). -/
  | barnRoundComplete (t scope : Nat)
  /-- FENCE_COMPLETION (R205). -/
  | fenceCompletion (t : Nat)
  /-- TAG_BOARD_RELEASE (R209). -/
  | tagBoardRelease (g b : Nat)
  /-- BINIT (R199). -/
  | binit (w : FS)
  /-- BARV (R200). -/
  | barv (w : FS)
  /-- BEXP (R199). -/
  | bexp (w : FS)
  /-- WAITPH (R201). -/
  | waitph (w : FW)
  /-- TESTPH (R201). -/
  | testph (w : FW)
  /-- BARN (R202). -/
  | barn (w : FB)
  /-- BCRED (R199). -/
  | bcred (w : FS)
  /-- FENCE (R204). -/
  | fence (w : FB)
  /-- XFENCE (R206). -/
  | xfence (w : FN)
  /-- TFLUSH (R207). -/
  | tflush (w : FG)
  /-- TBENTER (R208). -/
  | tbenter (w : FN)
  /-- TBREL (R208). -/
  | tbrel (w : FN)
  /-- NOP (R76). -/
  | nop (w : FN)
  /-- BRA (R76). -/
  | bra (w : FR)
  /-- BRP (R76). -/
  | brp (w : FR)
  /-- BRQ (R76). -/
  | brq (w : FR)
  /-- BRX (R76). -/
  | brx (w : FG)
  /-- CALL (R76). -/
  | call (w : FG)
  /-- RET (R76). -/
  | ret (w : FN)
  /-- RCV (R76). -/
  | rcv (w : FR)
  /-- JOIN (R73). -/
  | join (w : FN)
  /-- BREAK (R76). -/
  | brk (w : FR) (k : BitVec 5)
  /-- EXIT (R76). -/
  | exit (w : FN)
  /-- WAITC (R76). -/
  | waitc (w : FG)
  /-- LAUNCH (R76). -/
  | launch (w : FG)
  /-- WAITC_RELEASE (R76). -/
  | waitcRelease (t : Nat)
  /-- ADMISSION_COMPLETION (R80). -/
  | admissionCompletion (p : Nat)
  /-- GANG_START (R87). -/
  | gangStart (g : Nat)
  /-- CARD_ACCEPTANCE (R235). -/
  | cardAcceptance (p c q : Nat)
  /-- MM (R241). -/
  | mm (p c i : Nat)
  /-- MZERO (R258). -/
  | mzero (p c i : Nat)
  /-- ALOAD (R258). -/
  | aload (p c i : Nat)
  /-- ADRAIN (R258). -/
  | adrain (p c i : Nat)
  /-- MATRIX_STEP (R254). -/
  | matrixStep (p c n part : Nat)
  /-- RE_EXECUTION (R257). -/
  | reExecution (p c n : Nat)
  /-- ENGINE_CREDIT (R240). -/
  | engineCredit (p c src off bytes : Nat)
  /-- EDGE_RELEASE (R263). -/
  | edgeRelease (p c i j : Nat)
  /-- COPY (R267). -/
  | copy (p c i : Nat)
  /-- FILL (R268). -/
  | fill (p c i : Nat)
  /-- GATHER (R269). -/
  | gather (p c i : Nat)
  /-- HAUL_PIECE_READ (R270). -/
  | haulPieceRead (p c part : Nat)
  /-- HAUL_PIECE_WRITE (R271). -/
  | haulPieceWrite (p c : Nat)
  /-- QUANT (R273). -/
  | quant (p c i : Nat)
  /-- DEQUANT (R273). -/
  | dequant (p c i : Nat)
  /-- GRINDER_GROUP (R275). -/
  | grinderGroup (p c n part : Nat)
  /-- SENDAT (R289). -/
  | sendat (p c i : Nat)
  /-- SENDAT_CHUNK_READ (R289). -/
  | sendatChunkRead (p c i m : Nat)
  /-- SCHEDULED_SLOT_SEND (R289). -/
  | scheduledSlotSend (p c i k : Nat)
  /-- RECVAT (R292). -/
  | recvat (p c i : Nat)
  /-- SLOT_DELIVERY (R293). -/
  | slotDelivery (p i : Nat)
  /-- LANDING_WRITE (R292). -/
  | landingWrite (p c : Nat)
  /-- CRC_REPLAY (R281). -/
  | crcReplay (p n : Nat)
  /-- RINGDEF (R294). -/
  | ringdef (p c i : Nat)
  /-- RINGPUT (R296). -/
  | ringput (p c i : Nat)
  /-- RING_MESSAGE_ARRIVAL (R296). -/
  | ringMessageArrival (p i : Nat)
  /-- RING_CHUNK_WRITE (R296). -/
  | ringChunkWrite (p c i k : Nat)
  /-- RING_ACK_ARRIVAL (R296). -/
  | ringAckArrival (p i : Nat)
  /-- RING_TIMEOUT (R296). -/
  | ringTimeout (p i : Nat)
  /-- QUIET (R297). -/
  | quiet (p c i : Nat)
  /-- QUIET_CHECK (R297). -/
  | quietCheck (p c i : Nat)
  /-- SCHEDULE_FAULT (R302). -/
  | scheduleFault (p kind core slot ctx : Nat)
  /-- HALT_RECEIPT (R302). -/
  | haltReceipt (p b orig kind : Nat)
  /-- HALT_AT_BOUNDARY (R303). -/
  | haltAtBoundary (p : Nat)
  /-- RESTART (R304). -/
  | restart (p : Nat)
  /-- FRAME_BOUNDARY (R285). -/
  | frameBoundary (p : Nat)
  /-- CORRECTION_PULSE (R306). -/
  | correctionPulse (p : Nat) (x : Pulse)
  /-- CSRR (R318). -/
  | csrr (w : FY)
  /-- CSRW (R318). -/
  | csrw (w : FY)
  /-- CSRS (R318). -/
  | csrs (w : FY)
  /-- CSRC (R318). -/
  | csrc (w : FY)
  /-- TRAP (R319). -/
  | trapW (w : FK)
  /-- TRET (R320). -/
  | tret (w : FN)
  /-- KILL (R321). -/
  | kill (w : FQ)
  /-- SHIFT (R328). -/
  | shiftW (w : FQ)
  /-- WDOG (R323). -/
  | wdog (w : FQ)
  /-- DBRK (R319). -/
  | dbrk (w : FK)
  /-- MIGDRAIN (R192). -/
  | migdrain (w : FQ)
  /-- WTCLO_READ (R24). -/
  | wtcloRead (reg : Nat)
  /-- HASHM_HELD_WRITE (R159). -/
  | hashmHeldWrite (p k : Nat) (x : Word)
  /-- HASHM8_APPLY (R159). -/
  | hashm8Apply (p : Nat) (x : Word)
  /-- TUBAGE_WRITE (R189). -/
  | tubageWrite (p : Nat) (x : Word)
  /-- CSR_WRITE (R318). -/
  | csrWrite (t idx : Nat) (kind : CsrKind) (old x : Word)
  /-- TRAP_ENTRY (R310). -/
  | trapEntry (t : Nat)
  /-- GANG_KILL (R322). -/
  | gangKill (g cause : Nat)
  /-- KILL_COMPLETION (R322). -/
  | killCompletion (g : Nat)
  /-- WATCHDOG_EXPIRY (R323). -/
  | watchdogExpiry (g : Nat)
  /-- SWITCH (R329). -/
  | swtch (g : Nat)
  /-- SPILL (R331). -/
  | spill (p c g k : Nat)
  /-- SPILL_COMPLETE (R331). -/
  | spillComplete (g : Nat)
  /-- SPILLED_REPLY_WRITE (R332). -/
  | spilledReplyWrite (l : Nat)
  /-- FILL_COMPLETE (R327). -/
  | fillComplete (g : Nat)
  /-- HOST_WINDOW_ACCESS (R357). -/
  | hostWindowAccess (p i : Nat)
  /-- HOST_COMPLETION_ARRIVAL (R357). -/
  | hostCompletionArrival (p i : Nat) (ok : Bool) (data : List Byte)
  /-- BAR2_HOST_ACCESS (R359). -/
  | bar2HostAccess (p off n : Nat) (write : Bool) (data : List Byte)
  /-- UALINK_TARGET_REQUEST (R362). -/
  | ualinkTargetRequest (p stn : Nat) (r : UalReq)
  /-- LAUNCH_REQUEST (R365). -/
  | launchRequest (p tag ctx desc join njoin : Nat)
  /-- KILL_REQUEST (R374). -/
  | killRequest (p tag gang : Nat)
  /-- FILL_REQUEST (R363). -/
  | fillRequest (p tag gang half : Nat)
  /-- SHIFT_REQUEST (R363). -/
  | shiftRequest (p tag cyc out inc : Nat)
  /-- SCHED_SET (R284). -/
  | schedSet (p tag ctx va boundary : Nat)
  /-- RESTART_REQUEST (R374). -/
  | restartRequest (p tag : Nat) (x : RestartAt)
  /-- CONFIG (R363). -/
  | config (p tag : Nat) (x : ConfigItem)
  /-- MIGRATE (R191). -/
  | migrate (p tag : Nat) (x : MigSpec)
  /-- RESET (R363). -/
  | warmReset (p : Nat) (w : WarmFacts)
  /-- MATRIX_TILE_CHUNK (R258). -/
  | matrixTileChunk (p c k part : Nat)
  /-- RING_MESSAGE_DEPARTURE (R296). -/
  | ringMessageDeparture (p c i : Nat)
  /-- POD_FENCE_TIMEOUT (R186). -/
  | podFenceTimeout (t c : Nat)
  /-- JOIN_TIMEOUT (R364). -/
  | joinTimeout (p join : Nat)
  /-- LINK_TRAINING (R280). -/
  | linkTraining (p n wire : Nat) (up : Bool)
  /-- COLD_START (R350). -/
  | coldStart (b : BootFacts)
  /-- CANARY_WARNING (R349). -/
  | canaryWarning (p island : Nat)
  /-- POWER_MEASUREMENT (R355). -/
  | powerMeasurement (p watts : Nat)
  /-- TIMESTAMP_EXCHANGE (R306). -/
  | timestampExchange (p : Nat) (skew : Int)
  /-- PTP_MESSAGE (R361). -/
  | ptpMessage (p : Nat) (offset : Int)
  /-- ATS_TRANSLATION_RESPONSE (R358). -/
  | atsTranslationResponse (p i : Nat) (found rd wr : Bool) (pa : Nat)
  /-- PRI_PAGE_RESPONSE (R358). -/
  | priPageResponse (p i : Nat) (success : Bool)
  /-- ATS_INVALIDATE_REQUEST (R358). -/
  | atsInvalidateRequest (p base size : Nat)
  /-- SPDM_CERT (R352). -/
  | spdmCert (p slot : Nat)
  /-- SPDM_CHAL (R352). -/
  | spdmChal (p slot nonce : Nat)
  /-- SPDM_MEAS (R352). -/
  | spdmMeas (p index : Nat)
  /-- CTX_CREATE (R363). -/
  | ctxCreate (p tag : Nat) (x : CtxSpec)
  /-- CTX_DESTROY (R363). -/
  | ctxDestroy (p tag ctx : Nat)
  /-- SCHED_CLEAR (R363). -/
  | schedClear (p tag : Nat)
  /-- THROTTLE_CLEAR (R363). -/
  | throttleClear (p tag : Nat)
  /-- NOTIFY (R363). -/
  | notify (p tag kinds : Nat)
  /-- SPDM_NEGOTIATION (R352). -/
  | spdmNegotiation (p version : Nat) (p256 sha256 : Bool)
  /-- SPDM_UNSUPPORTED_REQUEST (R352). -/
  | spdmUnsupportedRequest (p code : Nat)
  /-- SCALE_OUT_TRANSFER (R360). -/
  | scaleOutTransfer (p tag : Nat) (toNet : Bool) (pa n : Nat) (data : List Byte)
  deriving DecidableEq, Repr

end Sys2Proof
end

