-- ==== Sys2Proof/Machine/Codes.lean ====
section
/-! DEFINITION. Which codes are legal in which field: the decode checks of R63 that look at one word alone, each with
the detail code it reports. The checks that look at the place of a word in its clause (details 7, 8, 9, 10, 13 and
the flow stack's 14 and 15) belong to the start of a clause. -/

namespace Sys2Proof

/-- Why a word is no instruction: one name for each detail code of R63, R198 and R317 that a word alone can raise. -/
inductive Reject where
  /-- Detail 3: opcode unassigned or not allowed in the class (R56, R60, R62). -/
  | opcode
  /-- Detail 4: sub-operation, AOP, `cvt`, combine-mode, SZ, SC or K code illegal (R51, R57, R58, R61, R76). -/
  | subop
  /-- Detail 5: operand code illegal in its field (R38, R39, R164, R198). -/
  | operand
  /-- Detail 6: non-zero reserved bit or unused field (R49). -/
  | reserved
  /-- Detail 11: scope code 6 or 7 (R12). -/
  | scope
  /-- Detail 12: register alignment (R51, R61, R76, R317). -/
  | align
  /-- Detail 16: SCOPE 0 in `barn` (R198). -/
  | barnScope
  /-- Detail 19: CSR index unassigned (R317). -/
  | csr
  /-- The class holds no instruction words: a CARD clause (R32) or class 7. -/
  | noWords
  deriving DecidableEq, Repr

/-- The detail code of R63 for a rejected word. -/
def Reject.detail : Reject → Nat
  | .noWords => 1 | .opcode => 3 | .subop => 4 | .operand => 5 | .reserved => 6
  | .scope => 11 | .align => 12 | .barnScope => 16 | .csr => 19

namespace Machine

/-- A source code of a LANE word (R38): everything but 123. -/
def laneSrc (c : BitVec 7) : Bool := c.toNat ≠ 123

/-- A source code of a MEM word (R38, R164): v, g, zr, lid or a literal. -/
def memSrc (c : BitVec 7) : Bool := decide (c.toNat < 123)

/-- A source code of a UNIF word (R39). -/
def unifSrc (c : BitVec 7) : Bool := c.toNat < 112 || (119 < c.toNat && c.toNat ≠ 123)

/-- A register operand of a SYNC, FLOW or SYS word (R39, R198). -/
def regSrc (c : BitVec 7) : Bool := c.toNat < 112 || (119 < c.toNat && c.toNat < 123)

/-- A vector or uniform register as a destination (R38, R39). -/
def regDst (c : BitVec 7) : Bool := decide (c.toNat < 112)

/-- A source of a format A word of the class. -/
def srcA (c : Cls) (x : BitVec 7) : Bool := if c = .unif then unifSrc x else laneSrc x

/-- A destination of a format A word of the class: UNIF words may also push to queues 0 to 3 (R39). -/
def dstA (c : Cls) (x : BitVec 7) : Bool := if c = .unif then decide (x.toNat < 116) else regDst x

/-- The CSR indices that exist (R315). -/
def csrAssigned (x : BitVec 12) : Bool :=
  let n := x.toNat
  n ≤ 0x005 || n = 0x010 || n = 0x011 || (0x020 ≤ n && n ≤ 0x024) || n = 0x030 ||
  (0x100 ≤ n && n ≤ 0x108) || (0x111 ≤ n && n ≤ 0x118) || (0x140 ≤ n && n ≤ 0x17F) ||
  (0x200 ≤ n && n ≤ 0x209) || n = 0x210 || (0x300 ≤ n && n ≤ 0x308) || (0x310 ≤ n && n ≤ 0x312) ||
  (0x400 ≤ n && n ≤ 0x41F)

/-- The two-source words: destination and sources legal (R88). -/
def chkFA (c : Cls) (w : FA) : List (Bool × Reject) :=
  [(dstA c w.d, .operand), (srcA c w.a, .operand), (srcA c w.b, .operand)]

/-- The accumulating words: D is a source as well, so a queue code is illegal in it (R39, R50; DEDUCED, entry 21). -/
def chkAcc (c : Cls) (w : FA) : List (Bool × Reject) :=
  [(regDst w.d, .operand), (srcA c w.a, .operand), (srcA c w.b, .operand)]

/-- One source (R88). -/
def chkFU (c : Cls) (w : FU) : List (Bool × Reject) := [(dstA c w.d, .operand), (srcA c w.a, .operand)]

/-- A compare (R98). -/
def chkFC (c : Cls) (w : FC) : List (Bool × Reject) := [(srcA c w.a, .operand), (srcA c w.b, .operand)]

/-- The shuffles name no latch in A (R102); they are LANE words only (R56). -/
def chkShf (c : Cls) (w : FA) : List (Bool × Reject) :=
  [(c ≠ .unif, .opcode), (regDst w.d, .operand), (memSrc w.a, .operand), (laneSrc w.b, .operand)]

/-- A LANE-only word with one source (R56). -/
def chkLaneFU (c : Cls) (w : FU) : List (Bool × Reject) :=
  [(c ≠ .unif, .opcode), (regDst w.d, .operand), (laneSrc w.a, .operand)]

/-- Loads with a size (R51, R164). -/
def chkLoad (w : FM) : List (Bool × Reject) :=
  [(regDst w.d, .operand), (memSrc w.a, .operand), (w.sz ≠ 3 || w.d.toNat % 2 = 0, .align)]

/-- Stores with a size (R51, R164): the data of a 64-bit form is a register pair. -/
def chkStore (w : FM) : List (Bool × Reject) :=
  [(memSrc w.d, .operand), (w.sz ≠ 3 || regDst w.d, .operand), (memSrc w.a, .operand),
   (w.sz ≠ 3 || w.d.toNat % 2 = 0, .align)]

/-- Vector forms (R51, R164). -/
def chkVec (w : FV) : List (Bool × Reject) :=
  [(regDst w.d, .operand), (memSrc w.a, .operand), (w.d.toNat % 4 = 0, .align)]

/-- Fetching atomics (R61, R164). -/
def chkAt (w : FT) : List (Bool × Reject) :=
  [(regDst w.d, .operand), (memSrc w.a, .operand), (w.aop ≠ .cas || w.d.toNat % 2 = 0, .align)]

/-- Non-fetching atomics (R61, R164). -/
def chkAtn (w : FT) : List (Bool × Reject) :=
  [(w.aop ≠ .cas, .subop), (memSrc w.d, .operand), (memSrc w.a, .operand)]

/-- SYNC words with two operands (R198). -/
def chkFS (w : FS) : List (Bool × Reject) := [(regSrc w.a, .operand), (regSrc w.b, .operand)]

/-- The words that take a register pair (R76): even, 0 to 110. -/
def chkPair (w : FG) : List (Bool × Reject) :=
  [(decide (w.a.toNat ≤ 110), .operand), (w.a.toNat % 2 = 0, .align)]

/-- The checks of R63 on an instruction of the class, apart from those on bits its syntax does not hold. -/
def checks (c : Cls) : Instr → List (Bool × Reject)
  | .mov w => chkFU c w
  | .sel w | .iadd w | .isub w | .imul w | .imulhS w | .imulhN w | .idivS w | .idivN w | .iremS w | .iremN w
  | .iminS w | .imaxS w | .iminN w | .imaxN w | .and w | .or w | .xor w | .andn w | .shl w | .shr w | .sar w
  | .rol w | .bfxS w | .bfxN w | .iaddSat w | .isubSat w | .fadd w | .fsub w | .fmul w | .fmin w | .fmax w =>
    chkFA c w
  | .imad w | .bfi w | .idp4 w | .ffma w => chkAcc c w
  | .iun w _ | .funW w _ => chkFU c w
  | .cvt w dir sat rtz x =>
    (decide (x ≠ .f32), .subop) :: (!dir || (!sat && !rtz), .subop) :: chkFU c w
  | .cardf w => [(c ≠ .unif, .opcode), (laneSrc w.a, .operand)]
  | .icmpEq w | .icmpNe w | .icmpLtS w | .icmpLeS w | .icmpLtN w | .icmpLeN w | .fcmpEq w | .fcmpLt w
  | .fcmpLe w | .fcmpUn w | .vtop w => chkFC c w
  | .plop _ => []
  | .ptov w => [(dstA c w.d, .operand)]
  | .shfi w | .shfu w | .shfd w | .shfx w => chkShf c w
  | .tshfi w => [(c ≠ .unif, .opcode), (regDst w.d, .operand), (laneSrc w.a, .operand), (laneSrc w.b, .operand)]
  | .vote w _ _ _ => [(c ≠ .unif, .opcode), (regDst w.d, .operand)]
  | .scanI w _ _ | .scanF w _ _ => chkLaneFU c w
  | .tredI w _ | .tredF w _ => chkLaneFU c w
  | .getl w op => [(c ≠ .unif || (op ≠ .lid && op ≠ .homeWarp && op ≠ .laneInWarp), .subop), (dstA c w.d, .operand)]
  | .ldlN w | .ldlS w | .ldgN w | .ldgS w | .ldrN w | .ldrS w => chkLoad w
  | .stl w | .stg w => chkStore w
  | .str w => (!(w.pr = 7 && w.pn), .reserved) :: chkStore w
  | .ldlv w | .stlv w | .ldgv w | .stgv w => chkVec w
  | .strZ w => [(memSrc w.a, .operand)]
  | .atl w | .atg w | .atr w => chkAt w
  | .atln w | .atgn w | .atrn w => chkAtn w
  | .accrd w => [(regDst w.d, .operand), (memSrc w.a, .operand)]
  | .accwr w => [(memSrc w.d, .operand), (memSrc w.a, .operand)]
  | .binit w | .barv w | .bexp w | .bcred w => chkFS w
  | .waitph w =>
    [(regSrc w.a, .operand), (w.b.toNat ≤ 110 || w.b.toNat = 120 || w.b.toNat = 122, .operand)]
  | .testph w => [(regSrc w.a, .operand), (regSrc w.b, .operand)]
  | .barn w => [(w.scope ≠ .team, .barnScope)]
  | .tflush w | .brx w | .call w => [(regSrc w.a, .operand)]
  | .brk _ k => [(k ≠ 0, .subop)]
  | .waitc w | .launch w => chkPair w
  | .csrr w => [(regDst w.reg, .operand), (csrAssigned w.csr, .csr)]
  | .csrw w | .csrs w | .csrc w => [(regSrc w.reg, .operand), (csrAssigned w.csr, .csr)]
  | .kill w | .wdog w => [(regSrc w.reg, .operand)]
  | .shiftW w => [(w.reg.toNat ≤ 108 && w.reg.toNat % 2 = 0, .operand)]
  | .migdrain w => [(regDst w.reg, .operand)]
  | _ => []

/-- The reject with the smallest detail among the failing checks (R64). -/
def minBad (l : List (Bool × Reject)) : Option Reject :=
  l.foldr (fun p acc =>
    if p.1 then acc else
      match acc with
      | none => some p.2
      | some r => some (if p.2.detail ≤ r.detail then p.2 else r)) none

end Machine
end Sys2Proof
end

