-- ==== Sys2Proof/WellFormed.lean ====
section
/-! DEFINITION. Well-formed instructions: those whose fields pass every decode check of R63 that looks at the word
alone. Well-formedness depends on the class of the clause, as the codes do (R38, R39, R56). -/

namespace Sys2Proof

/-- The instruction passes every check of R63 in a clause of class `c`. -/
def Instr.wf (c : Cls) (i : Instr) : Bool := (Machine.checks c i).all (·.1)

/-- The class of clause an instruction word belongs to; `none` for an operation or event without a word (R55, R60,
R62). A format A word belongs to LANE and UNIF clauses alike; it is listed under LANE. -/
def Instr.cls : Instr → Option Cls
  | .mov _ | .sel _ | .iadd _ | .isub _ | .imul _ | .imulhS _ | .imulhN _ | .imad _ | .idivS _ | .idivN _ | .iremS _
  | .iremN _ | .iminS _ | .imaxS _ | .iminN _ | .imaxN _ | .and _ | .or _ | .xor _ | .andn _ | .shl _ | .shr _ | .sar _
  | .rol _ | .iun _ _ | .bfxS _ | .bfxN _ | .bfi _ | .iaddSat _ | .isubSat _ | .idp4 _ | .cardf _ | .icmpEq _
  | .icmpNe _ | .icmpLtS _ | .icmpLeS _ | .icmpLtN _ | .icmpLeN _ | .fcmpEq _ | .fcmpLt _ | .fcmpLe _ | .fcmpUn _
  | .plop _ | .ptov _ | .vtop _ | .shfi _ | .shfu _ | .shfd _ | .shfx _ | .tshfi _ | .vote _ _ _ _ | .scanI _ _ _
  | .scanF _ _ _ | .tredI _ _ | .tredF _ _ | .getl _ _ | .fadd _ | .fsub _ | .fmul _ | .ffma _ | .fmin _ | .fmax _
  | .funW _ _ | .cvt _ _ _ _ _ => some .lane
  | .ldlN _ | .ldlS _ | .stl _ | .ldlv _ | .stlv _ | .ldgN _ | .ldgS _ | .stg _ | .ldgv _ | .stgv _ | .ldrN _ | .ldrS _
  | .str _ | .strZ _ | .atl _ | .atln _ | .atg _ | .atgn _ | .atr _ | .atrn _ | .accrd _ | .accwr _ => some .mem
  | .binit _ | .barv _ | .bexp _ | .waitph _ | .testph _ | .barn _ | .bcred _ | .fence _ | .xfence _ | .tflush _
  | .tbenter _ | .tbrel _ => some .sync
  | .nop _ | .bra _ | .brp _ | .brq _ | .brx _ | .call _ | .ret _ | .rcv _ | .join _ | .brk _ _ | .exit _ | .waitc _
  | .launch _ => some .flow
  | .csrr _ | .csrw _ | .csrs _ | .csrc _ | .trapW _ | .tret _ | .kill _ | .shiftW _ | .wdog _ | .dbrk _ | .migdrain _ =>
    some .sys
  | _ => none

/-- The instruction is a word of a clause of class `c`. -/
def Instr.inClass (c : Cls) (i : Instr) : Bool := i.cls = some (if c = .unif then .lane else c)

end Sys2Proof
end

