-- ==== Sys2Proof/Decode.lean ====
section
/-! DEFINITION. The decoder of instruction words (R49 to R62), total on every word of every class, and the encoder
written from the same tables. A word that is no instruction is rejected under the name of its smallest detail (R64). -/

namespace Sys2Proof

/-- Codes of `iun` in B (R57). -/
def IunOp.ofCode (b : BitVec 7) : Option IunOp :=
  match b.toNat with
  | 0 => some .not
  | 1 => some .neg
  | 2 => some .abs
  | 3 => some .popc
  | 4 => some .clz
  | 5 => some .ctz
  | 6 => some .brev
  | 7 => some .sext8
  | 8 => some .sext16
  | 9 => some .zext8
  | 10 => some .zext16
  | 11 => some .bswap
  | _ => none

/-- Codes of `iun` in B (R57). -/
def IunOp.code : IunOp → BitVec 7
  | .not => 0 | .neg => 1 | .abs => 2 | .popc => 3 | .clz => 4 | .ctz => 5
  | .brev => 6 | .sext8 => 7 | .sext16 => 8 | .zext8 => 9 | .zext16 => 10 | .bswap => 11

/-- Codes of `fun` in B (R57). -/
def FunOp.ofCode (b : BitVec 7) : Option FunOp :=
  match b.toNat with
  | 0 => some .abs
  | 1 => some .neg
  | 2 => some .rcp
  | 3 => some .rsq
  | 4 => some .sqrt
  | 5 => some .exp2
  | 6 => some .log2
  | 7 => some .floor
  | 8 => some .ceil
  | 9 => some .trunc
  | 10 => some .rint
  | 11 => some .frac
  | _ => none

/-- Codes of `fun` in B (R57). -/
def FunOp.code : FunOp → BitVec 7
  | .abs => 0 | .neg => 1 | .rcp => 2 | .rsq => 3 | .sqrt => 4 | .exp2 => 5
  | .log2 => 6 | .floor => 7 | .ceil => 8 | .trunc => 9 | .rint => 10 | .frac => 11

/-- Codes of `getl` in B (R57). -/
def GetlOp.ofCode (b : BitVec 7) : Option GetlOp :=
  match b.toNat with
  | 0 => some .lid
  | 1 => some .homeWarp
  | 2 => some .laneInWarp
  | 3 => some .teamInBlock
  | 4 => some .blockIndex
  | 5 => some .core
  | 6 => some .quad
  | 7 => some .die
  | 8 => some .package
  | 9 => some .teamsPerBlock
  | 10 => some .lanesPerTeam
  | 11 => some .blocksInGrid
  | _ => none

/-- Codes of `getl` in B (R57). -/
def GetlOp.code : GetlOp → BitVec 7
  | .lid => 0 | .homeWarp => 1 | .laneInWarp => 2 | .teamInBlock => 3 | .blockIndex => 4 | .core => 5
  | .quad => 6 | .die => 7 | .package => 8 | .teamsPerBlock => 9 | .lanesPerTeam => 10 | .blocksInGrid => 11

/-- Format ids (R59). -/
def Fmt.ofCode (b : BitVec 4) : Option Fmt :=
  match b.toNat with
  | 0 => some .f32
  | 1 => some .bf16
  | 2 => some .f16
  | 3 => some .e4m3
  | 4 => some .e5m2
  | 5 => some .e2m3
  | 6 => some .e3m2
  | 7 => some .e2m1
  | 8 => some .s32
  | 9 => some .n32
  | 10 => some .s8
  | 11 => some .n8
  | 12 => some .ts8
  | 13 => some .e8m0
  | _ => none

/-- Format ids (R59). -/
def Fmt.code : Fmt → BitVec 4
  | .f32 => 0 | .bf16 => 1 | .f16 => 2 | .e4m3 => 3 | .e5m2 => 4 | .e2m3 => 5
  | .e3m2 => 6 | .e2m1 => 7 | .s32 => 8 | .n32 => 9 | .s8 => 10 | .n8 => 11
  | .ts8 => 12 | .e8m0 => 13

/-- Combine modes (R50). -/
def CMode.ofCode (b : BitVec 2) : Option CMode :=
  match b.toNat with
  | 0 => some .set
  | 1 => some .and
  | 2 => some .or
  | _ => none

/-- Combine modes (R50). -/
def CMode.code : CMode → BitVec 2
  | .set => 0 | .and => 1 | .or => 2

/-- AOP codes (R61). -/
def AOp.ofCode (b : BitVec 4) : Option AOp :=
  match b.toNat with
  | 0 => some .add
  | 1 => some .minS
  | 2 => some .maxS
  | 3 => some .minN
  | 4 => some .maxN
  | 5 => some .and
  | 6 => some .or
  | 7 => some .xor
  | 8 => some .xchg
  | 9 => some .cas
  | 10 => some .fadd
  | 11 => some .fmin
  | 12 => some .fmax
  | 13 => some .bfadd2
  | _ => none

/-- AOP codes (R61). -/
def AOp.code : AOp → BitVec 4
  | .add => 0 | .minS => 1 | .maxS => 2 | .minN => 3 | .maxN => 4 | .and => 5
  | .or => 6 | .xor => 7 | .xchg => 8 | .cas => 9 | .fadd => 10 | .fmin => 11
  | .fmax => 12 | .bfadd2 => 13

/-- Modes of `vote` (R103). -/
def VoteMode.ofCode (b : BitVec 7) : Option VoteMode :=
  match b.toNat with
  | 0 => some .ballot
  | 1 => some .all
  | 2 => some .any
  | 3 => some .count
  | _ => none

/-- Modes of `vote` (R103). -/
def VoteMode.code : VoteMode → BitVec 7
  | .ballot => 0 | .all => 1 | .any => 2 | .count => 3

/-- OPN of the integer scans (R106). -/
def ScanIOp.ofCode (b : BitVec 3) : Option ScanIOp :=
  match b.toNat with
  | 0 => some .add
  | 1 => some .minS
  | 2 => some .maxS
  | 3 => some .minN
  | 4 => some .maxN
  | 5 => some .and
  | 6 => some .or
  | 7 => some .xor
  | _ => none

/-- OPN of the integer scans (R106). -/
def ScanIOp.code : ScanIOp → BitVec 3
  | .add => 0 | .minS => 1 | .maxS => 2 | .minN => 3 | .maxN => 4 | .and => 5
  | .or => 6 | .xor => 7

/-- OPN of the floating scans (R106). -/
def ScanFOp.ofCode (b : BitVec 3) : Option ScanFOp :=
  match b.toNat with
  | 0 => some .add
  | 1 => some .min
  | 2 => some .max
  | _ => none

/-- OPN of the floating scans (R106). -/
def ScanFOp.code : ScanFOp → BitVec 3
  | .add => 0 | .min => 1 | .max => 2

/-- Scope codes (R12). -/
def Scope.ofCode (b : BitVec 3) : Option Scope :=
  match b.toNat with
  | 0 => some .team
  | 1 => some .core
  | 2 => some .quad
  | 3 => some .die
  | 4 => some .pkg
  | 5 => some .pod
  | _ => none

/-- Scope codes (R12). -/
def Scope.code : Scope → BitVec 3
  | .team => 0 | .core => 1 | .quad => 2 | .die => 3 | .pkg => 4 | .pod => 5

namespace Machine

/-- Bits `[lo + n - 1 : lo]` of a word (R4). -/
def fld (w : Word) (lo n : Nat) : BitVec n := w.extractLsb' lo n

/-- Bit `k` of a word (R4). -/
def bit (w : Word) (k : Nat) : Bool := w.getLsbD k

/-- The format A fields of a word (R50). -/
def fA (w : Word) : FA := ⟨bit w 25, bit w 24, fld w 21 3, fld w 14 7, fld w 7 7, fld w 0 7⟩
def fU (w : Word) : FU := ⟨bit w 25, bit w 24, fld w 21 3, fld w 14 7, fld w 7 7⟩
def fD (w : Word) : FD := ⟨bit w 25, bit w 24, fld w 21 3, fld w 14 7⟩
/-- A compare: D[2:0] names the predicate, D[4:3] the mode (R50). -/
def fC (w : Word) (m : CMode) : FC := ⟨bit w 25, bit w 24, fld w 21 3, m, fld w 14 3, fld w 7 7, fld w 0 7⟩
/-- `plop` (R99). -/
def fP (w : Word) : FP := ⟨bit w 25, bit w 24, fld w 21 3, fld w 17 4, fld w 14 3, fld w 7 3, fld w 0 3⟩
/-- Format M (R51). -/
def fM (w : Word) : FM := ⟨fld w 24 2, bit w 23, fld w 20 3, fld w 13 7, fld w 6 7, fld w 4 2, fld w 2 2, fld w 0 2⟩
def fV (w : Word) : FV := ⟨fld w 24 2, bit w 23, fld w 20 3, fld w 13 7, fld w 6 7, fld w 4 2, fld w 2 2⟩
def fT (w : Word) (o : AOp) : FT := ⟨fld w 24 2, bit w 23, fld w 20 3, fld w 13 7, fld w 6 7, fld w 4 2, o⟩
def fX (w : Word) : FX := ⟨fld w 24 2, bit w 23, fld w 20 3, fld w 13 7, fld w 6 7, fld w 4 2⟩
def fZ (w : Word) : FZ := ⟨fld w 24 2, fld w 6 7, fld w 4 2, fld w 2 2⟩
/-- Format S (R52). -/
def fS (w : Word) : FS := ⟨bit w 24, fld w 21 3, fld w 7 7, fld w 0 7⟩
def fW (w : Word) : FW := ⟨bit w 24, fld w 21 3, fld w 14 3, fld w 7 7, fld w 0 7⟩
def fB (w : Word) (s : Scope) : FB := ⟨bit w 24, fld w 21 3, s⟩
def fN (w : Word) : FN := ⟨bit w 24, fld w 21 3⟩
def fG (w : Word) : FG := ⟨bit w 24, fld w 21 3, fld w 7 7⟩
/-- Format F, relative form (R53). -/
def fR (w : Word) : FR := ⟨bit w 24, fld w 21 3, fld w 0 16⟩
/-- Format Y (R54). -/
def fY (w : Word) : FY := ⟨bit w 24, fld w 21 3, fld w 9 12, fld w 2 7⟩
def fK (w : Word) : FK := ⟨bit w 24, fld w 21 3, fld w 9 12⟩
def fQ (w : Word) : FQ := ⟨bit w 24, fld w 21 3, fld w 2 7⟩

/-- A parse: the checks on bits the syntax does not hold, and the instruction where its codes name one. -/
abbrev Parse := List (Bool × Reject) × Option Instr

/-- Field `[lo + n - 1 : lo]` must be zero (R49). -/
def zero (w : Word) (lo n : Nat) : Bool × Reject := (fld w lo n = 0, .reserved)

/-- A sub-operation code: `none` is detail 4. -/
def subP {α : Type} (l : List (Bool × Reject)) (x : Option α) (f : α → Instr) : Parse :=
  ((x.isSome, .subop) :: l, x.map f)

/-- A scope code: `none` is detail 11 (R12). -/
def scopeP (w : Word) (l : List (Bool × Reject)) (f : FB → Instr) : Parse :=
  let x := Scope.ofCode (fld w 18 3)
  (l ++ [(x.isSome, .scope)], x.map fun s => f (fB w s))

/-- The parse of a format A word (R55). -/
def parseA (w : Word) : Parse :=
  match (fld w 26 6).toNat with
  | 0 => ([zero w 0 7], some (.mov (fU w)))
  | 1 => ([], some (.sel (fA w)))
  | 2 => ([], some (.iadd (fA w)))
  | 3 => ([], some (.isub (fA w)))
  | 4 => ([], some (.imul (fA w)))
  | 5 => ([], some (.imulhS (fA w)))
  | 6 => ([], some (.imulhN (fA w)))
  | 7 => ([], some (.imad (fA w)))
  | 8 => ([], some (.idivS (fA w)))
  | 9 => ([], some (.idivN (fA w)))
  | 10 => ([], some (.iremS (fA w)))
  | 11 => ([], some (.iremN (fA w)))
  | 12 => ([], some (.iminS (fA w)))
  | 13 => ([], some (.imaxS (fA w)))
  | 14 => ([], some (.iminN (fA w)))
  | 15 => ([], some (.imaxN (fA w)))
  | 16 => ([], some (.and (fA w)))
  | 17 => ([], some (.or (fA w)))
  | 18 => ([], some (.xor (fA w)))
  | 19 => ([], some (.andn (fA w)))
  | 20 => ([], some (.shl (fA w)))
  | 21 => ([], some (.shr (fA w)))
  | 22 => ([], some (.sar (fA w)))
  | 23 => ([], some (.rol (fA w)))
  | 24 => subP [] (IunOp.ofCode (fld w 0 7)) (.iun (fU w))
  | 25 => ([], some (.bfxS (fA w)))
  | 26 => ([], some (.bfxN (fA w)))
  | 27 => ([], some (.bfi (fA w)))
  | 28 => ([], some (.iaddSat (fA w)))
  | 29 => ([], some (.isubSat (fA w)))
  | 30 => ([], some (.idp4 (fA w)))
  | 31 => ([zero w 25 1, zero w 14 7, zero w 0 7], some (.cardf (fG w)))
  | 32 => subP [zero w 19 2] (CMode.ofCode (fld w 17 2)) (fun m => .icmpEq (fC w m))
  | 33 => subP [zero w 19 2] (CMode.ofCode (fld w 17 2)) (fun m => .icmpNe (fC w m))
  | 34 => subP [zero w 19 2] (CMode.ofCode (fld w 17 2)) (fun m => .icmpLtS (fC w m))
  | 35 => subP [zero w 19 2] (CMode.ofCode (fld w 17 2)) (fun m => .icmpLeS (fC w m))
  | 36 => subP [zero w 19 2] (CMode.ofCode (fld w 17 2)) (fun m => .icmpLtN (fC w m))
  | 37 => subP [zero w 19 2] (CMode.ofCode (fld w 17 2)) (fun m => .icmpLeN (fC w m))
  | 38 => subP [zero w 19 2] (CMode.ofCode (fld w 17 2)) (fun m => .fcmpEq (fC w m))
  | 39 => subP [zero w 19 2] (CMode.ofCode (fld w 17 2)) (fun m => .fcmpLt (fC w m))
  | 40 => subP [zero w 19 2] (CMode.ofCode (fld w 17 2)) (fun m => .fcmpLe (fC w m))
  | 41 => subP [zero w 19 2] (CMode.ofCode (fld w 17 2)) (fun m => .fcmpUn (fC w m))
  | 42 => ([zero w 10 4, zero w 3 4], some (.plop (fP w)))
  | 43 => ([zero w 7 7, zero w 0 7], some (.ptov (fD w)))
  | 44 => subP [zero w 19 2] (CMode.ofCode (fld w 17 2)) (fun m => .vtop (fC w m))
  | 45 => ([], some (.shfi (fA w)))
  | 46 => ([], some (.shfu (fA w)))
  | 47 => ([], some (.shfd (fA w)))
  | 48 => ([], some (.shfx (fA w)))
  | 49 => ([], some (.tshfi (fA w)))
  | 50 => subP [zero w 11 3] (VoteMode.ofCode (fld w 0 7)) (.vote (fD w) (bit w 10) (fld w 7 3))
  | 51 => subP [zero w 4 3] (ScanIOp.ofCode (fld w 1 3)) (fun o => .scanI (fU w) o (bit w 0))
  | 52 => subP [zero w 4 3] (ScanFOp.ofCode (fld w 1 3)) (fun o => .scanF (fU w) o (bit w 0))
  | 53 => subP [(!bit w 0, .subop), zero w 4 3] (ScanIOp.ofCode (fld w 1 3)) (.tredI (fU w))
  | 54 => subP [(!bit w 0, .subop), zero w 4 3] (ScanFOp.ofCode (fld w 1 3)) (.tredF (fU w))
  | 55 => subP [zero w 7 7] (GetlOp.ofCode (fld w 0 7)) (.getl (fD w))
  | 56 => ([], some (.fadd (fA w)))
  | 57 => ([], some (.fsub (fA w)))
  | 58 => ([], some (.fmul (fA w)))
  | 59 => ([], some (.ffma (fA w)))
  | 60 => ([], some (.fmin (fA w)))
  | 61 => ([], some (.fmax (fA w)))
  | 62 => subP [] (FunOp.ofCode (fld w 0 7)) (.funW (fU w))
  | 63 => subP [] (Fmt.ofCode (fld w 0 4)) (.cvt (fU w) (bit w 6) (bit w 5) (bit w 4))
  | _ => ([(false, .opcode)], none)

/-- The parse of a MEM word (R60). -/
def parseM (w : Word) : Parse :=
  match (fld w 26 6).toNat with
  | 0 => ([], some (.ldlN (fM w)))
  | 1 => ([], some (.ldlS (fM w)))
  | 2 => ([], some (.stl (fM w)))
  | 3 => ([(fld w 0 2 = 2, .subop)], some (.ldlv (fV w)))
  | 4 => ([(fld w 0 2 = 2, .subop)], some (.stlv (fV w)))
  | 8 => ([], some (.ldgN (fM w)))
  | 9 => ([], some (.ldgS (fM w)))
  | 10 => ([], some (.stg (fM w)))
  | 11 => ([(fld w 0 2 = 2, .subop)], some (.ldgv (fV w)))
  | 12 => ([(fld w 0 2 = 2, .subop)], some (.stgv (fV w)))
  | 16 => ([], some (.ldrN (fM w)))
  | 17 => ([], some (.ldrS (fM w)))
  | 18 => if fld w 20 3 = 7 && bit w 23 then
      ([(fld w 0 2 = 2, .reserved), (fld w 13 7 = 120, .reserved)], some (.strZ (fZ w)))
    else ([], some (.str (fM w)))
  | 24 => subP [] (AOp.ofCode (fld w 0 4)) (fun o => .atl (fT w o))
  | 25 => subP [] (AOp.ofCode (fld w 0 4)) (fun o => .atln (fT w o))
  | 26 => subP [] (AOp.ofCode (fld w 0 4)) (fun o => .atg (fT w o))
  | 27 => subP [] (AOp.ofCode (fld w 0 4)) (fun o => .atgn (fT w o))
  | 28 => subP [] (AOp.ofCode (fld w 0 4)) (fun o => .atr (fT w o))
  | 29 => subP [] (AOp.ofCode (fld w 0 4)) (fun o => .atrn (fT w o))
  | 32 => ([(fld w 0 2 = 2, .subop), (fld w 2 2 = 0, .subop)], some (.accrd (fX w)))
  | 33 => ([(fld w 0 2 = 2, .subop), (fld w 2 2 = 0, .subop)], some (.accwr (fX w)))
  | _ => ([(false, .opcode)], none)

/-- The parse of a SYNC word (R62, R197). -/
def parseS (w : Word) : Parse :=
  match (fld w 26 6).toNat with
  | 0 => ([zero w 25 1, zero w 17 1, zero w 18 3, zero w 14 3], some (.binit (fS w)))
  | 1 => ([zero w 25 1, zero w 17 1, zero w 18 3, zero w 14 3], some (.barv (fS w)))
  | 2 => ([zero w 25 1, zero w 17 1, zero w 18 3, zero w 14 3], some (.bexp (fS w)))
  | 3 => ([zero w 25 1, zero w 17 1, zero w 18 3], some (.waitph (fW w)))
  | 4 => ([zero w 25 1, zero w 17 1, zero w 18 3], some (.testph (fW w)))
  | 5 => scopeP w [zero w 25 1, zero w 17 1, zero w 14 3, zero w 7 7, zero w 0 7] .barn
  | 6 => ([zero w 25 1, zero w 17 1, zero w 18 3, zero w 14 3], some (.bcred (fS w)))
  | 8 => scopeP w [zero w 25 1, zero w 17 1, zero w 14 3, zero w 7 7, zero w 0 7] .fence
  | 9 => ([zero w 25 1, zero w 17 1, zero w 18 3, zero w 14 3, zero w 7 7, zero w 0 7], some (.xfence (fN w)))
  | 10 => ([zero w 25 1, zero w 17 1, zero w 18 3, zero w 14 3, zero w 0 7], some (.tflush (fG w)))
  | 11 => ([zero w 25 1, zero w 17 1, zero w 18 3, zero w 14 3, zero w 7 7, zero w 0 7], some (.tbenter (fN w)))
  | 12 => ([zero w 25 1, zero w 17 1, zero w 18 3, zero w 14 3, zero w 7 7, zero w 0 7], some (.tbrel (fN w)))
  | _ => ([(false, .opcode)], none)

/-- The parse of a FLOW word (R62, R76). -/
def parseF (w : Word) : Parse :=
  match (fld w 26 6).toNat with
  | 0 => ([zero w 25 1, zero w 16 5, zero w 0 16], some (.nop (fN w)))
  | 1 => ([zero w 25 1, zero w 16 5], some (.bra (fR w)))
  | 2 => ([zero w 25 1, zero w 16 5], some (.brp (fR w)))
  | 3 => ([zero w 25 1, zero w 16 5], some (.brq (fR w)))
  | 4 => ([zero w 25 1, zero w 14 7, zero w 0 7], some (.brx (fG w)))
  | 5 => ([zero w 25 1, zero w 14 7, zero w 0 7], some (.call (fG w)))
  | 6 => ([zero w 25 1, zero w 16 5, zero w 0 16], some (.ret (fN w)))
  | 7 => ([zero w 25 1, zero w 16 5], some (.rcv (fR w)))
  | 8 => ([zero w 25 1, zero w 16 5, zero w 0 16], some (.join (fN w)))
  | 9 => ([zero w 25 1], some (.brk (fR w) (fld w 16 5)))
  | 10 => ([zero w 25 1, zero w 16 5, zero w 0 16], some (.exit (fN w)))
  | 11 => ([zero w 25 1, zero w 14 7, zero w 0 7], some (.waitc (fG w)))
  | 12 => ([zero w 25 1, zero w 14 7, zero w 0 7], some (.launch (fG w)))
  | _ => ([(false, .opcode)], none)

/-- The parse of a SYS word (R62, R317). -/
def parseY (w : Word) : Parse :=
  match (fld w 26 6).toNat with
  | 0 => ([zero w 25 1, zero w 0 2], some (.csrr (fY w)))
  | 1 => ([zero w 25 1, zero w 0 2], some (.csrw (fY w)))
  | 2 => ([zero w 25 1, zero w 0 2], some (.csrs (fY w)))
  | 3 => ([zero w 25 1, zero w 0 2], some (.csrc (fY w)))
  | 4 => ([zero w 25 1, zero w 0 2, zero w 2 7], some (.trapW (fK w)))
  | 5 => ([zero w 25 1, zero w 0 2, zero w 2 7, zero w 9 12], some (.tret (fN w)))
  | 6 => ([zero w 25 1, zero w 0 2, zero w 9 12], some (.kill (fQ w)))
  | 7 => ([zero w 25 1, zero w 0 2, zero w 9 12], some (.shiftW (fQ w)))
  | 8 => ([zero w 25 1, zero w 0 2, zero w 9 12], some (.wdog (fQ w)))
  | 9 => ([zero w 25 1, zero w 0 2, zero w 2 7], some (.dbrk (fK w)))
  | 10 => ([zero w 25 1, zero w 0 2, zero w 9 12], some (.migdrain (fQ w)))
  | _ => ([(false, .opcode)], none)

/-- The opcodes a UNIF clause does not have (R56). -/
def laneOnly (op : Nat) : Bool := op = 0x1F || (0x2D ≤ op && op ≤ 0x36)

/-- The parse of a word in a clause of the class (R32): CARD words are never instructions. -/
def parse (c : Cls) (w : Word) : Parse :=
  match c with
  | .lane => parseA w
  | .unif => ((!laneOnly (fld w 26 6).toNat, .opcode) :: (parseA w).1, (parseA w).2)
  | .mem => parseM w
  | .sync => parseS w
  | .flow => parseF w
  | .sys => parseY w
  | .card | .res => ([(false, .noWords)], none)

end Machine

open Machine

/-- The instruction a word holds in a clause of the class, or the smallest detail it fails (R63, R64). -/
def decode (c : Cls) (w : Word) : Except Reject Instr :=
  match minBad (parse c w).1 with
  | some r =>
    match (parse c w).2 with
    | some i => .error ((minBad ((parse c w).1 ++ checks c i)).getD r)
    | none => .error r
  | none =>
    match (parse c w).2 with
    | none => .error .subop
    | some i =>
      match minBad (checks c i) with
      | some r => .error r
      | none => .ok i

namespace Machine

/-- A bit as a field of one bit. -/
def b1 (x : Bool) : BitVec 1 := BitVec.ofBool x

/-- Format A laid out (R50). -/
def eA (op : BitVec 6) (nw pn : Bool) (pr : BitVec 3) (d a b : BitVec 7) : Word :=
  op ++ b1 nw ++ b1 pn ++ pr ++ d ++ a ++ b
def eA3 (op : BitVec 6) (w : FA) : Word := eA op w.nw w.pn w.pr w.d w.a w.b
def eA2 (op : BitVec 6) (w : FU) (b : BitVec 7) : Word := eA op w.nw w.pn w.pr w.d w.a b
def eA1 (op : BitVec 6) (w : FD) (a b : BitVec 7) : Word := eA op w.nw w.pn w.pr w.d a b
def eAC (op : BitVec 6) (w : FC) : Word :=
  eA op w.nw w.pn w.pr ((0 : BitVec 2) ++ w.mode.code ++ w.q) w.a w.b
/-- Format M laid out (R51); `low` is bits [3:0]. -/
def eM (op : BitVec 6) (sb : BitVec 2) (pn : Bool) (pr : BitVec 3) (d a : BitVec 7) (bp : BitVec 2)
    (low : BitVec 4) : Word := op ++ sb ++ b1 pn ++ pr ++ d ++ a ++ bp ++ low
def eM2 (op : BitVec 6) (w : FM) : Word := eM op w.sb w.pn w.pr w.d w.a w.bp (w.sc ++ w.sz)
def eMV (op : BitVec 6) (w : FV) : Word := eM op w.sb w.pn w.pr w.d w.a w.bp (w.sc ++ (2 : BitVec 2))
def eMT (op : BitVec 6) (w : FT) : Word := eM op w.sb w.pn w.pr w.d w.a w.bp w.aop.code
def eMX (op : BitVec 6) (w : FX) : Word := eM op w.sb w.pn w.pr w.d w.a w.bp 2
/-- Format S laid out (R52). -/
def eS (op : BitVec 6) (pn : Bool) (pr scope gpd : BitVec 3) (a b : BitVec 7) : Word :=
  op ++ (0 : BitVec 1) ++ b1 pn ++ pr ++ scope ++ (0 : BitVec 1) ++ gpd ++ a ++ b
/-- Format F laid out (R53), relative and register form. -/
def eF (op : BitVec 6) (pn : Bool) (pr : BitVec 3) (k : BitVec 5) (off : BitVec 16) : Word :=
  op ++ (0 : BitVec 1) ++ b1 pn ++ pr ++ k ++ off
def eFG (op : BitVec 6) (w : FG) : Word :=
  op ++ (0 : BitVec 1) ++ b1 w.pn ++ w.pr ++ (0 : BitVec 7) ++ w.a ++ (0 : BitVec 7)
/-- Format Y laid out (R54). -/
def eY (op : BitVec 6) (pn : Bool) (pr : BitVec 3) (csr : BitVec 12) (reg : BitVec 7) : Word :=
  op ++ (0 : BitVec 1) ++ b1 pn ++ pr ++ csr ++ reg ++ (0 : BitVec 2)

end Machine

/-- The word of an instruction (R50 to R62); `none` for an operation or event, which has no word. -/
def encode : Instr → Option Word
  | .mov w => some (eA2 0 w 0)
  | .sel w => some (eA3 1 w)
  | .iadd w => some (eA3 2 w)
  | .isub w => some (eA3 3 w)
  | .imul w => some (eA3 4 w)
  | .imulhS w => some (eA3 5 w)
  | .imulhN w => some (eA3 6 w)
  | .imad w => some (eA3 7 w)
  | .idivS w => some (eA3 8 w)
  | .idivN w => some (eA3 9 w)
  | .iremS w => some (eA3 10 w)
  | .iremN w => some (eA3 11 w)
  | .iminS w => some (eA3 12 w)
  | .imaxS w => some (eA3 13 w)
  | .iminN w => some (eA3 14 w)
  | .imaxN w => some (eA3 15 w)
  | .and w => some (eA3 16 w)
  | .or w => some (eA3 17 w)
  | .xor w => some (eA3 18 w)
  | .andn w => some (eA3 19 w)
  | .shl w => some (eA3 20 w)
  | .shr w => some (eA3 21 w)
  | .sar w => some (eA3 22 w)
  | .rol w => some (eA3 23 w)
  | .iun w o => some (eA2 24 w o.code)
  | .bfxS w => some (eA3 25 w)
  | .bfxN w => some (eA3 26 w)
  | .bfi w => some (eA3 27 w)
  | .iaddSat w => some (eA3 28 w)
  | .isubSat w => some (eA3 29 w)
  | .idp4 w => some (eA3 30 w)
  | .cardf w => some (eA 31 false w.pn w.pr 0 w.a 0)
  | .icmpEq w => some (eAC 32 w)
  | .icmpNe w => some (eAC 33 w)
  | .icmpLtS w => some (eAC 34 w)
  | .icmpLeS w => some (eAC 35 w)
  | .icmpLtN w => some (eAC 36 w)
  | .icmpLeN w => some (eAC 37 w)
  | .fcmpEq w => some (eAC 38 w)
  | .fcmpLt w => some (eAC 39 w)
  | .fcmpLe w => some (eAC 40 w)
  | .fcmpUn w => some (eAC 41 w)
  | .plop w => some (eA 42 w.nw w.pn w.pr (w.tbl ++ w.q) ((0 : BitVec 4) ++ w.x) ((0 : BitVec 4) ++ w.y))
  | .ptov w => some (eA1 43 w 0 0)
  | .vtop w => some (eAC 44 w)
  | .shfi w => some (eA3 45 w)
  | .shfu w => some (eA3 46 w)
  | .shfd w => some (eA3 47 w)
  | .shfx w => some (eA3 48 w)
  | .tshfi w => some (eA3 49 w)
  | .vote w neg q m => some (eA1 50 w ((0 : BitVec 3) ++ b1 neg ++ q) m.code)
  | .scanI w o x => some (eA2 51 w ((0 : BitVec 3) ++ o.code ++ b1 x))
  | .scanF w o x => some (eA2 52 w ((0 : BitVec 3) ++ o.code ++ b1 x))
  | .tredI w o => some (eA2 53 w ((0 : BitVec 3) ++ o.code ++ (0 : BitVec 1)))
  | .tredF w o => some (eA2 54 w ((0 : BitVec 3) ++ o.code ++ (0 : BitVec 1)))
  | .getl w o => some (eA1 55 w 0 o.code)
  | .fadd w => some (eA3 56 w)
  | .fsub w => some (eA3 57 w)
  | .fmul w => some (eA3 58 w)
  | .ffma w => some (eA3 59 w)
  | .fmin w => some (eA3 60 w)
  | .fmax w => some (eA3 61 w)
  | .funW w o => some (eA2 62 w o.code)
  | .cvt w dir sat rtz x => some (eA2 63 w (b1 dir ++ b1 sat ++ b1 rtz ++ x.code))
  | .ldlN w => some (eM2 0 w)
  | .ldlS w => some (eM2 1 w)
  | .stl w => some (eM2 2 w)
  | .ldlv w => some (eMV 3 w)
  | .stlv w => some (eMV 4 w)
  | .ldgN w => some (eM2 8 w)
  | .ldgS w => some (eM2 9 w)
  | .stg w => some (eM2 10 w)
  | .ldgv w => some (eMV 11 w)
  | .stgv w => some (eMV 12 w)
  | .ldrN w => some (eM2 16 w)
  | .ldrS w => some (eM2 17 w)
  | .str w => some (eM2 18 w)
  | .strZ w => some (eM 18 w.sb true 7 120 w.a w.bp (w.sc ++ (2 : BitVec 2)))
  | .atl w => some (eMT 24 w)
  | .atln w => some (eMT 25 w)
  | .atg w => some (eMT 26 w)
  | .atgn w => some (eMT 27 w)
  | .atr w => some (eMT 28 w)
  | .atrn w => some (eMT 29 w)
  | .accrd w => some (eMX 32 w)
  | .accwr w => some (eMX 33 w)
  | .binit w => some (eS 0 w.pn w.pr 0 0 w.a w.b)
  | .barv w => some (eS 1 w.pn w.pr 0 0 w.a w.b)
  | .bexp w => some (eS 2 w.pn w.pr 0 0 w.a w.b)
  | .waitph w => some (eS 3 w.pn w.pr 0 w.gpd w.a w.b)
  | .testph w => some (eS 4 w.pn w.pr 0 w.gpd w.a w.b)
  | .barn w => some (eS 5 w.pn w.pr w.scope.code 0 0 0)
  | .bcred w => some (eS 6 w.pn w.pr 0 0 w.a w.b)
  | .fence w => some (eS 8 w.pn w.pr w.scope.code 0 0 0)
  | .xfence w => some (eS 9 w.pn w.pr 0 0 0 0)
  | .tflush w => some (eS 10 w.pn w.pr 0 0 w.a 0)
  | .tbenter w => some (eS 11 w.pn w.pr 0 0 0 0)
  | .tbrel w => some (eS 12 w.pn w.pr 0 0 0 0)
  | .nop w => some (eF 0 w.pn w.pr 0 0)
  | .bra w => some (eF 1 w.pn w.pr 0 w.off)
  | .brp w => some (eF 2 w.pn w.pr 0 w.off)
  | .brq w => some (eF 3 w.pn w.pr 0 w.off)
  | .brx w => some (eFG 4 w)
  | .call w => some (eFG 5 w)
  | .ret w => some (eF 6 w.pn w.pr 0 0)
  | .rcv w => some (eF 7 w.pn w.pr 0 w.off)
  | .join w => some (eF 8 w.pn w.pr 0 0)
  | .brk w k => some (eF 9 w.pn w.pr k w.off)
  | .exit w => some (eF 10 w.pn w.pr 0 0)
  | .waitc w => some (eFG 11 w)
  | .launch w => some (eFG 12 w)
  | .csrr w => some (eY 0 w.pn w.pr w.csr w.reg)
  | .csrw w => some (eY 1 w.pn w.pr w.csr w.reg)
  | .csrs w => some (eY 2 w.pn w.pr w.csr w.reg)
  | .csrc w => some (eY 3 w.pn w.pr w.csr w.reg)
  | .trapW w => some (eY 4 w.pn w.pr w.code 0)
  | .tret w => some (eY 5 w.pn w.pr 0 0)
  | .kill w => some (eY 6 w.pn w.pr 0 w.reg)
  | .shiftW w => some (eY 7 w.pn w.pr 0 w.reg)
  | .wdog w => some (eY 8 w.pn w.pr 0 w.reg)
  | .dbrk w => some (eY 9 w.pn w.pr w.code 0)
  | .migdrain w => some (eY 10 w.pn w.pr 0 w.reg)
  | _ => none

/-- The classes whose words the host may name by a bare opcode-table word, tried in this order: the class of a word is
in its clause header (R31, R32), so a bare word can be legal in several classes (DESIGN CHOICE, entry 22). -/
def tableClasses : List Cls := [.flow, .sys, .sync, .mem, .lane, .unif]

/-- The first class of `tableClasses` in which the word is legal. -/
def tableClass (w : Word) : Option Cls :=
  tableClasses.find? fun c => match decode c w with | .ok _ => true | .error _ => false

/-- The instruction the decoder reads from a bare word of `nbits` bits, in the first class that makes it legal. -/
def decodeTableWord (nbits w : Nat) : Option Instr :=
  let x : Word := BitVec.ofNat 32 (w % 2 ^ nbits)
  match tableClass x with
  | some c => (decode c x).toOption
  | none => none

end Sys2Proof
end

