-- ==== Sys2Proof/Machine/Fp.lean ====
section
/-! DEFINITION. Exact values and their rounding (R8, R110, R120, R133): a finite value is a natural number times a power
of two, so every operation is exact until its one rounding. -/

namespace Sys2Proof.Machine

/-- Rounding modes (R130). -/
inductive RMode where
  | rne | rtz | rdn | rup
  deriving DecidableEq, Repr

/-- The mode FRM selects (R130). -/
def rmodeOf (frm : Word) : RMode :=
  match frm.toNat % 4 with
  | 0 => .rne
  | 1 => .rtz
  | 2 => .rdn
  | _ => .rup

/-- A decoded value (R110): `fin neg m e` is ±m·2^e with m > 0. -/
inductive Val where
  | nan (signalling : Bool)
  | inf (neg : Bool)
  | zero (neg : Bool)
  | fin (neg : Bool) (m : Nat) (e : Int)
  deriving DecidableEq, Repr

/-- The flag bits of FFLAGS (R131). -/
def flNV : Nat := 1
def flDZ : Nat := 2
def flOF : Nat := 4
def flUF : Nat := 8
def flNX : Nat := 16

/-- A floating-point layout: fraction bits, exponent bits, bias. -/
structure FLay where
  (mb eb : Nat) (bias : Int)
  deriving DecidableEq, Repr

def layF32 : FLay := ⟨23, 8, 127⟩
def layBF16 : FLay := ⟨7, 8, 127⟩
def layF16 : FLay := ⟨10, 5, 15⟩
def layE4M3 : FLay := ⟨3, 4, 7⟩
def layE5M2 : FLay := ⟨2, 5, 15⟩
def layE2M3 : FLay := ⟨3, 2, 1⟩
def layE3M2 : FLay := ⟨2, 3, 3⟩
def layE2M1 : FLay := ⟨1, 2, 1⟩

/-- The exponent of the subnormal step, 1 − bias − M (R120). -/
def FLay.qmin (f : FLay) : Int := 1 - f.bias - f.mb

/-- The value of a code by the element rule of R112, specials apart. -/
def FLay.elem (f : FLay) (x : Nat) : Val :=
  let neg := (x >>> (f.mb + f.eb)) % 2 = 1
  let e := (x >>> f.mb) % 2 ^ f.eb
  let m := x % 2 ^ f.mb
  if e = 0 then if m = 0 then .zero neg else .fin neg m f.qmin
  else .fin neg (2 ^ f.mb + m) (f.qmin + (e - 1 : Nat))

/-- The value of an IEEE-style code (R110, R111). -/
def FLay.ieee (f : FLay) (x : Nat) : Val :=
  let e := (x >>> f.mb) % 2 ^ f.eb
  let m := x % 2 ^ f.mb
  if e = 2 ^ f.eb - 1 then
    if m = 0 then .inf ((x >>> (f.mb + f.eb)) % 2 = 1) else .nan (m < 2 ^ (f.mb - 1))
  else f.elem x

/-- An F32 word as a value (R110). -/
def f32 (x : Word) : Val := layF32.ieee x.toNat

def canonNaN : Word := 0x7FC00000

/-- The number of bits of a natural number. -/
def bitLen (n : Nat) : Nat := if n = 0 then 0 else n.log2 + 1

/-- The choice between the two neighbours of a value that lies num/den of the way from the one nearer zero to the
other, 0 < num < den: true for the other. `odd` tells whether the last kept bit of the nearer one is 1. -/
abbrev Pick := Bool → Nat → Nat → Bool

/-- The choice of a mode for a value of the sign (R120, R133). -/
def RMode.pick (mode : RMode) (neg : Bool) : Pick := fun odd num den =>
  match mode with
  | .rne => den < 2 * num || (2 * num = den && odd)
  | .rtz => false
  | .rdn => neg
  | .rup => !neg

/-- n / 2^k rounded to an integer by the choice; true when inexact. -/
def shiftRound (up : Pick) (n k : Nat) : Nat × Bool :=
  let q := n >>> k
  let r := n % 2 ^ k
  if r = 0 then (q, false) else (if up (q % 2 = 1) r (2 ^ k) then q + 1 else q, true)

/-- m·2^e rounded to n·2^q with at most M + 1 bits and q at least the subnormal step (R120): n, q, inexact. -/
def FLay.round (f : FLay) (up : Pick) (m : Nat) (e : Int) : Nat × Int × Bool :=
  let q : Int := max ((bitLen m : Int) + e - (f.mb + 1)) f.qmin
  if q ≤ e then (m * 2 ^ (e - q).toNat, q, false)
  else
    let (n, ix) := shiftRound up m (q - e).toNat
    (n, q, ix)

/-- The code without sign of the rounded value n·2^q; an overflow gives a code past the largest finite one. -/
def FLay.pack (f : FLay) (n : Nat) (q : Int) : Nat := (q - f.qmin).toNat * 2 ^ f.mb + n

/-- The F32 word of a sign and a code without sign. -/
def mkF32 (neg : Bool) (mag : Nat) : Word := BitVec.ofNat 32 (mag + if neg then 2 ^ 31 else 0)

def f32Inf (neg : Bool) : Word := mkF32 neg 0x7F800000
def f32Zero (neg : Bool) : Word := mkF32 neg 0

/-- An exact finite value rounded into F32 with the flags and the overflow table of R133. -/
def rndF32 (mode : RMode) (neg : Bool) (m : Nat) (e : Int) : Word × Nat :=
  if m = 0 then (f32Zero neg, 0)
  else
    let (n, q, ix) := layF32.round (mode.pick neg) m e
    let mag := layF32.pack n q
    if 0x7F800000 ≤ mag then
      let toInf : Bool := match mode with
        | .rne => true
        | .rtz => false
        | .rdn => neg
        | .rup => !neg
      (mkF32 neg (if toInf then 0x7F800000 else 0x7F7FFFFF), flOF + flNX)
    else (mkF32 neg mag, if ix then (if mag < 2 ^ 23 then flNX + flUF else flNX) else 0)

/-- Rounding of a value known as (2m + sticky)·2^(e − 1): the sticky bit stands for a part that is not zero. -/
def rndSticky (mode : RMode) (neg : Bool) (m : Nat) (e : Int) (sticky : Bool) : Word × Nat :=
  rndF32 mode neg (2 * m + if sticky then 1 else 0) (e - 1)

/-- NV for a signalling operand (R133). -/
def snan (v : Val) : Nat := if v = .nan true then flNV else 0

def Val.isNaN : Val → Bool
  | .nan _ => true
  | _ => false

def Val.negate : Val → Val
  | .nan s => .nan s
  | .inf n => .inf (!n)
  | .zero n => .zero (!n)
  | .fin n m e => .fin (!n) m e

/-- The sign of a value that is no NaN. -/
def Val.neg : Val → Bool
  | .nan _ => false
  | .inf n => n
  | .zero n => n
  | .fin n _ _ => n

/-- ±m·2^e as an integer at exponent `e0 ≤ e`. -/
def scaleTo (neg : Bool) (m : Nat) (e e0 : Int) : Int :=
  let x : Int := (m * 2 ^ (e - e0).toNat : Nat)
  if neg then -x else x

/-- The sum of two finite values as an integer and its exponent. -/
def sumExact (n1 : Bool) (m1 : Nat) (e1 : Int) (n2 : Bool) (m2 : Nat) (e2 : Int) : Int × Int :=
  let e0 := min e1 e2
  (scaleTo n1 m1 e1 e0 + scaleTo n2 m2 e2 e0, e0)

/-- The zero an exactly cancelling sum gives (R133). -/
def cancelZero (mode : RMode) : Word := f32Zero (mode = .rdn)

/-- The sum of two values that are no NaNs, rounded once (R133, R136). -/
def addVals (mode : RMode) (a b : Val) : Word × Nat :=
  match a, b with
  | .inf x, .inf y => if x = y then (f32Inf x, 0) else (canonNaN, flNV)
  | .inf x, _ => (f32Inf x, 0)
  | _, .inf y => (f32Inf y, 0)
  | .zero x, .zero y => (if x = y then f32Zero x else cancelZero mode, 0)
  | .zero _, .fin n m e => rndF32 mode n m e
  | .fin n m e, .zero _ => rndF32 mode n m e
  | .fin n1 m1 e1, .fin n2 m2 e2 =>
    let (s, e) := sumExact n1 m1 e1 n2 m2 e2
    if s = 0 then (cancelZero mode, 0) else rndF32 mode (s < 0) s.natAbs e
  | _, _ => (canonNaN, 0)

/-- The exact product of two values that are no NaNs; `none` for 0 × ∞ (R133). -/
def mulVals (a b : Val) : Option Val :=
  let n := a.neg != b.neg
  match a, b with
  | .inf _, .zero _ => none
  | .zero _, .inf _ => none
  | .inf _, _ => some (.inf n)
  | _, .inf _ => some (.inf n)
  | .zero _, _ => some (.zero n)
  | _, .zero _ => some (.zero n)
  | .fin _ m1 e1, .fin _ m2 e2 => some (.fin n (m1 * m2) (e1 + e2))
  | _, _ => none

/-- A value rounded into F32. -/
def rndVal (mode : RMode) : Val → Word × Nat
  | .nan s => (canonNaN, if s then flNV else 0)
  | .inf n => (f32Inf n, 0)
  | .zero n => (f32Zero n, 0)
  | .fin n m e => rndF32 mode n m e

/-- `fadd` (R136). -/
def fAdd (mode : RMode) (a b : Word) : Word × Nat :=
  let x := f32 a
  let y := f32 b
  if x.isNaN || y.isNaN then (canonNaN, snan x ||| snan y) else addVals mode x y

/-- `fsub` (R136): the sum with the sign of b inverted. -/
def fSub (mode : RMode) (a b : Word) : Word × Nat :=
  let x := f32 a
  let y := f32 b
  if x.isNaN || y.isNaN then (canonNaN, snan x ||| snan y) else addVals mode x y.negate

/-- `fmul` (R136). -/
def fMul (mode : RMode) (a b : Word) : Word × Nat :=
  let x := f32 a
  let y := f32 b
  if x.isNaN || y.isNaN then (canonNaN, snan x ||| snan y)
  else match mulVals x y with
    | none => (canonNaN, flNV)
    | some p => rndVal mode p

/-- `ffma` (R136): the product is not rounded; 0 × ∞ raises NV whatever dold holds. -/
def fFma (mode : RMode) (a b d : Word) : Word × Nat :=
  let x := f32 a
  let y := f32 b
  let z := f32 d
  let fl := snan x ||| snan y ||| snan z
  if x.isNaN || y.isNaN then (canonNaN, fl)
  else match mulVals x y with
    | none => (canonNaN, flNV)
    | some p => if z.isNaN then (canonNaN, fl) else addVals mode p z

/-- x < y for values that are no NaNs, zeros of both signs equal. -/
def ltVal (a b : Val) : Bool :=
  match a, b with
  | .nan _, _ => false
  | _, .nan _ => false
  | .inf true, .inf true => false
  | .inf true, _ => true
  | _, .inf true => false
  | .inf false, _ => false
  | _, .inf false => true
  | .zero _, .zero _ => false
  | .zero _, .fin n _ _ => !n
  | .fin n _ _, .zero _ => n
  | .fin n1 m1 e1, .fin n2 m2 e2 => (sumExact n1 m1 e1 (!n2) m2 e2).1 < 0

/-- a = b as numbers (R138). -/
def eqVal (a b : Val) : Bool := !a.isNaN && !b.isNaN && !ltVal a b && !ltVal b a

/-- `fmin` and `fmax` (R137): −0 is below +0, a NaN counts as missing. -/
def fMinMax (isMax : Bool) (a b : Word) : Word × Nat :=
  let x := f32 a
  let y := f32 b
  let fl := snan x ||| snan y
  if x.isNaN && y.isNaN then (canonNaN, fl)
  else if x.isNaN then (b, fl)
  else if y.isNaN then (a, fl)
  else
    let less := ltVal x y || (eqVal x y && x.neg && !y.neg)
    let greater := ltVal y x || (eqVal x y && !x.neg && y.neg)
    (if isMax then (if less then b else a) else if greater then b else a, fl)

/-- The compares (R138): t and the flags; `any` is true where any NaN operand raises NV. -/
def fCmp (ord : Val → Val → Bool) (unord anyNV : Bool) (a b : Word) : Bool × Nat :=
  let x := f32 a
  let y := f32 b
  if x.isNaN || y.isNaN then (unord, if anyNV then flNV else snan x ||| snan y) else (ord x y, 0)

/-- ⌊√n⌋ from the bit 2^k downwards. -/
def isqrtFrom (n : Nat) : Nat → Nat → Nat
  | 0, r => if (r + 1) * (r + 1) ≤ n then r + 1 else r
  | k + 1, r => isqrtFrom n k (if (r + 2 ^ (k + 1)) * (r + 2 ^ (k + 1)) ≤ n then r + 2 ^ (k + 1) else r)

/-- ⌊√n⌋. -/
def isqrt (n : Nat) : Nat := isqrtFrom n (bitLen n / 2 + 1) 0

/-- ±1/(m·2^e) (R139). -/
def rcpFin (mode : RMode) (neg : Bool) (m : Nat) (e : Int) : Word × Nat :=
  let k := bitLen m + 40
  rndSticky mode neg (2 ^ k / m) (-(k : Int) - e) (2 ^ k % m ≠ 0)

/-- √(m·2^e) (R139). -/
def sqrtFin (mode : RMode) (m : Nat) (e : Int) : Word × Nat :=
  let m' := if e % 2 = 0 then m else 2 * m
  let e' := if e % 2 = 0 then e else e - 1
  let n := m' * 2 ^ 80
  let r := isqrt n
  rndSticky mode false r (e' / 2 - 40) (r * r ≠ n)

/-- 1/√(m·2^e) (R139). -/
def rsqFin (mode : RMode) (m : Nat) (e : Int) : Word × Nat :=
  let m' := if e % 2 = 0 then m else 2 * m
  let e' := if e % 2 = 0 then e else e - 1
  let k := bitLen m' + 40
  let r := isqrt (2 ^ (2 * k) / m')
  rndSticky mode false r (-(k : Int) - e' / 2) (r * r * m' ≠ 2 ^ (2 * k))

/-- The working precision of exp2 and log2, in bits after the point: far past what any F32 input needs to decide a
rounding (DESIGN CHOICE, entry 23). -/
def transBits : Nat := 320

/-- Σ_{j = 1..k} 2^P / (j·2^j), a sum for ln 2. -/
def ln2Sum : Nat → Nat
  | 0 => 0
  | k + 1 => ln2Sum k + 2 ^ (transBits + 32) / ((k + 1) * 2 ^ (k + 1))

/-- ln 2 · 2^P. -/
def ln2Fix : Nat := ln2Sum (transBits + 40) / 2 ^ 32

/-- Σ y^j / j! from term j on, the term held with P fraction bits. -/
def expSum (y : Nat) : Nat → Nat → Nat → Nat → Nat
  | 0, _, _, acc => acc
  | f + 1, j, t, acc =>
    let t' := t * y / 2 ^ transBits / (j + 1)
    expSum y f (j + 1) t' (acc + t')

/-- 2^(f·2^(−P)) · 2^P for 0 ≤ f < 2^P. -/
def exp2Fix (f : Nat) : Nat :=
  expSum (f * ln2Fix / 2 ^ transBits) 90 0 (2 ^ transBits) (2 ^ transBits)

/-- 2^(±m·2^e) rounded (R139, R140): exact for integers, the true value between two fixed-point neighbours otherwise. -/
def exp2Fin (mode : RMode) (neg : Bool) (m : Nat) (e : Int) : Word × Nat :=
  if (bitLen m : Int) + e > 9 then
    -- magnitude at least 512: far past overflow or below half the smallest subnormal
    if neg then rndF32 mode false 1 (-1000) else rndF32 mode false 1 1000
  else
    let fx : Int := scaleTo neg m (e + transBits) 0
    let k := fx / 2 ^ transBits
    let f := (fx % 2 ^ transBits).toNat
    if f = 0 then rndF32 mode false 1 k
    else rndSticky mode false (exp2Fix f) (k - transBits) true

/-- Σ z^(2j+1)/(2j+1) with P fraction bits, z² = zz. -/
def atanhSum (zz : Nat) : Nat → Nat → Nat → Nat → Nat
  | 0, _, _, acc => acc
  | f + 1, j, p, acc =>
    let p' := p * zz / 2 ^ transBits
    atanhSum zz f (j + 1) p' (acc + p' / (2 * j + 3))

/-- log₂(m·2^e) rounded (R139, R140): exact for powers of two. -/
def log2Fin (mode : RMode) (m : Nat) (e : Int) : Word × Nat :=
  let b := bitLen m - 1
  let k : Int := e + b
  if m = 2 ^ b then
    if k = 0 then (f32Zero false, 0) else rndF32 mode (k < 0) k.natAbs 0
  else
    -- m / 2^b = (1 + z)/(1 − z), z = (m − 2^b)/(m + 2^b)
    let z := (m - 2 ^ b) * 2 ^ transBits / (m + 2 ^ b)
    let a := atanhSum (z * z / 2 ^ transBits) 110 0 z z
    let l := 2 * a * 2 ^ transBits / ln2Fix
    let v : Int := k * 2 ^ transBits + l
    if 0 ≤ v then rndSticky mode false v.natAbs (-transBits) true
    else rndSticky mode true (v.natAbs - 1) (-transBits) true

/-- ±m·2^e rounded to an integer: the integer and whether it differs. -/
def toInteger (mode : RMode) (neg : Bool) (m : Nat) (e : Int) : Nat × Bool :=
  if 0 ≤ e then (m * 2 ^ e.toNat, false) else shiftRound (mode.pick neg) m (-e).toNat

/-- The sub-operations of `fun` that round to an integer (R140): a zero result takes the sign of a. -/
def fInteger (mode : RMode) (flagNX : Bool) (neg : Bool) (m : Nat) (e : Int) : Word × Nat :=
  let (n, ix) := toInteger mode neg m e
  (if n = 0 then f32Zero neg else (rndF32 .rtz neg n 0).1, if ix && flagNX then flNX else 0)

/-- `fun` (R139, R140). -/
def fFun (op : FunOp) (mode : RMode) (a : Word) : Word × Nat :=
  match f32 a with
  | .nan s => (canonNaN, if s && op ≠ .abs && op ≠ .neg then flNV else 0)
  | v =>
    match op, v with
    | .abs, _ => (a &&& 0x7FFFFFFF, 0)
    | .neg, _ => (a ^^^ 0x80000000, 0)
    | .rcp, .zero n => (f32Inf n, flDZ)
    | .rcp, .inf n => (f32Zero n, 0)
    | .rcp, .fin n m e => rcpFin mode n m e
    | .rsq, .zero n => (f32Inf n, flDZ)
    | .rsq, .inf false => (f32Zero false, 0)
    | .rsq, .inf true => (canonNaN, flNV)
    | .rsq, .fin n m e => if n then (canonNaN, flNV) else rsqFin mode m e
    | .sqrt, .zero n => (f32Zero n, 0)
    | .sqrt, .inf false => (f32Inf false, 0)
    | .sqrt, .inf true => (canonNaN, flNV)
    | .sqrt, .fin n m e => if n then (canonNaN, flNV) else sqrtFin mode m e
    | .exp2, .zero _ => (rndF32 mode false 1 0)
    | .exp2, .inf n => (if n then f32Zero false else f32Inf false, 0)
    | .exp2, .fin n m e => exp2Fin mode n m e
    | .log2, .zero _ => (f32Inf true, flDZ)
    | .log2, .inf false => (f32Inf false, 0)
    | .log2, .inf true => (canonNaN, flNV)
    | .log2, .fin n m e => if n then (canonNaN, flNV) else log2Fin mode m e
    | .floor, .fin n m e => fInteger .rdn false n m e
    | .ceil, .fin n m e => fInteger .rup false n m e
    | .trunc, .fin n m e => fInteger .rtz false n m e
    | .rint, .fin n m e => fInteger mode true n m e
    | .frac, .inf _ => (canonNaN, flNV)
    | .frac, .fin n m e =>
      if 0 ≤ e then (f32Zero n, 0)
      else
        let r := m % 2 ^ (-e).toNat
        if r = 0 then (f32Zero n, 0) else (rndF32 .rtz n r e)
    | _, _ => (a, 0)

end Sys2Proof.Machine
end

