-- ==== Sys2Proof/Machine/Formats.lean ====
section
/-! DEFINITION. The number formats bit by bit, their conversions, and MX blocks (R110 to R129). -/

namespace Sys2Proof.Machine

/-- Bits of a format (R59). -/
def fmtBits : Fmt → Nat
  | .f32 => 32 | .bf16 => 16 | .f16 => 16 | .e4m3 => 8 | .e5m2 => 8 | .e2m3 => 6 | .e3m2 => 6 | .e2m1 => 4
  | .s32 => 32 | .n32 => 32 | .s8 => 8 | .n8 => 8 | .ts8 => 8 | .e8m0 => 8

/-- The layout of a floating format (R110 to R112). -/
def fmtLay : Fmt → FLay
  | .bf16 => layBF16 | .f16 => layF16 | .e4m3 => layE4M3 | .e5m2 => layE5M2
  | .e2m3 => layE2M3 | .e3m2 => layE3M2 | .e2m1 => layE2M1 | _ => layF32

/-- emax of an element format (R112, R129). -/
def fmtEmax : Fmt → Int
  | .e4m3 => 8 | .e5m2 => 15 | .e2m3 => 2 | .e3m2 => 4 | .e2m1 => 2 | _ => 0

/-- The code without sign of the largest finite value (R111, R112). -/
def fmtMax : Fmt → Nat
  | .f32 => 0x7F7FFFFF | .bf16 => 0x7F7F | .f16 => 0x7BFF | .e4m3 => 0x7E | .e5m2 => 0x7B | .e2m3 => 0x1F
  | .e3m2 => 0x1F | .e2m1 => 0x7 | _ => 0

/-- A signed integer as a value. -/
def intVal (x : Int) (e : Int) : Val := if x = 0 then .zero false else .fin (x < 0) x.natAbs e

/-- One term of a TS8 code in units of 2⁻⁶ (R115). -/
def ts8Term (s : Bool) (e : Nat) : Int :=
  if e = 7 then 0 else if s then -(2 ^ (6 - e) : Nat) else (2 ^ (6 - e) : Nat)

/-- The value of a TS8 code in units of 2⁻⁶ (R115). -/
def ts8Units (c : Nat) : Int :=
  ts8Term (c / 128 % 2 = 1) (c / 16 % 8) + ts8Term (c / 8 % 2 = 1) (c % 8)

/-- A code of the format as a value (R110 to R115); E8M0 as its power of two. -/
def fmtVal (x : Fmt) (code : Nat) : Val :=
  let c := code % 2 ^ fmtBits x
  match x with
  | .f32 | .bf16 | .f16 => (fmtLay x).ieee c
  | .e4m3 => if c % 128 = 0x7F then .nan false else layE4M3.elem c
  | .e5m2 =>
    if c % 128 = 0x7C then .inf (c ≥ 128) else if 0x7C < c % 128 then .nan false else layE5M2.elem c
  | .e2m3 | .e3m2 | .e2m1 => (fmtLay x).elem c
  | .s32 => intVal (BitVec.ofNat 32 c).toInt 0
  | .n32 => intVal c 0
  | .s8 => intVal (BitVec.ofNat 8 c).toInt 0
  | .n8 => intVal c 0
  | .ts8 => intVal (ts8Units c) (-6)
  | .e8m0 => if c = 255 then .nan false else .fin false 1 ((c : Int) - 127)

/-- The canonical NaN code a conversion writes (R111, R112, R122). -/
def fmtNaN : Fmt → Nat
  | .f32 => 0x7FC00000 | .bf16 => 0x7FC0 | .f16 => 0x7E00 | .e4m3 => 0x7F | .e5m2 => 0x7E | _ => 0

/-- The zero code of a format (R129). -/
def fmtZero : Fmt → Nat
  | .ts8 => 0x77
  | _ => 0

/-- The sign bit of a floating format, as a number to add. -/
def fmtSign (x : Fmt) (neg : Bool) : Nat := if neg then 2 ^ (fmtBits x - 1) else 0

/-- Every value a TS8 code has, in units of 2⁻⁶, without sign and ascending (R115). -/
def ts8Mags : List Nat :=
  [0, 1, 2, 3, 4, 5, 6, 7, 8, 9, 10, 12, 14, 15, 16, 17, 18, 20, 24, 28, 30, 31, 32, 33, 34, 36, 40, 48, 56, 60, 62,
   63, 64, 65, 66, 68, 72, 80, 96, 128]

/-- The canonical code of a TS8 value in units of 2⁻⁶ (R116). -/
def ts8Code (v : Int) : Nat :=
  let a := v.natAbs
  if v = 0 then 0x77
  else if a = 128 then (if v < 0 then 0x88 else 0x00)
  else if a = 2 ^ (bitLen a - 1) then (if v < 0 then 128 else 0) + (7 - bitLen a) * 16 + 7
  else
    match (List.range 256).find? (fun c => c / 16 % 8 < c % 8 && c % 8 < 7 && ts8Units c = v) with
    | some c => c
    | none => 0x77

/-- ±m·2^e rounded to TS8 (R123): code and flags. -/
def ts8Round (up : Pick) (neg : Bool) (m : Nat) (e : Int) : Nat × Nat :=
  -- |x| = num / den in units of 2⁻⁶
  let num := m * 2 ^ (e + 6).toNat
  let den := 2 ^ (-(e + 6)).toNat
  let sgn (a : Nat) : Int := if neg then -(a : Int) else a
  if 128 * den < num then (ts8Code (sgn 128), flOF + flNX)
  else
    let lo := (ts8Mags.filter (fun a => a * den ≤ num)).getLastD 0
    if lo * den = num then (ts8Code (sgn lo), 0)
    else
      let hi := (ts8Mags.find? (fun a => num < a * den)).getD 128
      let r := if up false (num - lo * den) ((hi - lo) * den) then hi else lo
      (ts8Code (sgn r), if num < den then flUF + flNX else flNX)

/-- ±m·2^e rounded to a floating element format (R120, R121; 1.3 as E2M1 follows R120 against R128's table, DESIGN CHOICE, entry 80); `sat` and the direction decide an overflow. -/
def elemRound (x : Fmt) (up : Pick) (satur : Bool) (neg : Bool) (m : Nat) (e : Int) : Nat × Nat :=
  let f := fmtLay x
  let (n, q, ix) := f.round up m e
  let mag := f.pack n q
  if fmtMax x < mag then
    let r := if satur then fmtSign x neg + fmtMax x
      else match x with
        | .e4m3 => 0x7F
        | .e2m3 | .e3m2 | .e2m1 => fmtSign x neg + fmtMax x
        | _ => fmtSign x neg + (2 ^ f.eb - 1) * 2 ^ f.mb
    (r, flOF + flNX)
  else (fmtSign x neg + mag, if ix then (if mag < 2 ^ f.mb then flUF + flNX else flNX) else 0)

/-- An integer clamped to a range: the pattern and NV when clamped (R124). -/
def clampInt (k lo hi : Int) (ix : Bool) (w : Nat) : Nat × Nat :=
  if k < lo then ((BitVec.ofInt w lo).toNat, flNV)
  else if hi < k then ((BitVec.ofInt w hi).toNat, flNV)
  else ((BitVec.ofInt w k).toNat, if ix then flNX else 0)

/-- The range of an integer format (R124). -/
def intRange : Fmt → Int × Int
  | .s32 => (-2147483648, 2147483647)
  | .n32 => (0, 4294967295)
  | .s8 => (-128, 127)
  | _ => (0, 255)

/-- ±m·2^e to E8M0 (R125). -/
def e8m0Round (m : Nat) (e : Int) : Nat × Nat :=
  let c : Int := (bitLen m : Int) - 1 + e + 127
  let pow := m = 2 ^ (bitLen m - 1)
  if c < 0 then (0, flUF + flNX)
  else if 254 < c then (0xFE, if pow then 0 else flNX)
  else (c.toNat, if pow then 0 else flNX)

/-- A value rounded once to a format (R119 to R125): code and flags. `rtz` is the mode, `sat` is SAT. -/
def convTo (x : Fmt) (rtz sat : Bool) (v : Val) : Nat × Nat :=
  let mode : RMode := if rtz then .rtz else .rne
  match x with
  | .f32 => let r := rndVal mode v; (r.1.toNat, r.2)
  | .bf16 | .f16 | .e5m2 =>
    match v with
    | .nan s => (fmtNaN x, if s then flNV else 0)
    | .inf n => (fmtSign x n + (2 ^ (fmtLay x).eb - 1) * 2 ^ (fmtLay x).mb, 0)
    | .zero n => (fmtSign x n, 0)
    | .fin n m e => elemRound x (mode.pick n) (sat || rtz) n m e
  | .e4m3 =>
    match v with
    | .nan s => (0x7F, if s then flNV else 0)
    | .inf n => (if sat then fmtSign x n + fmtMax x else 0x7F, flNV)
    | .zero n => (fmtSign x n, 0)
    | .fin n m e => elemRound x (mode.pick n) (sat || rtz) n m e
  | .e2m3 | .e3m2 | .e2m1 =>
    match v with
    | .nan _ => (0, flNV)
    | .inf n => (fmtSign x n + fmtMax x, flNV)
    | .zero n => (fmtSign x n, 0)
    | .fin n m e => elemRound x (mode.pick n) true n m e
  | .ts8 =>
    match v with
    | .nan _ => (0x77, flNV)
    | .inf n => (ts8Code (if n then -128 else 128), flNV)
    | .zero _ => (0x77, 0)
    | .fin n m e => ts8Round (mode.pick n) n m e
  | .s32 | .n32 | .s8 | .n8 =>
    let (lo, hi) := intRange x
    match v with
    | .nan _ => (0, flNV)
    | .inf n => ((BitVec.ofInt (fmtBits x) (if n then lo else hi)).toNat, flNV)
    | .zero _ => (0, 0)
    | .fin n m e =>
      let (k, ix) := toInteger mode n m e
      clampInt (if n then -(k : Int) else k) lo hi ix (fmtBits x)
  | .e8m0 =>
    match v with
    | .nan s => (0xFF, if s then flNV else 0)
    | .inf _ => (0xFF, flNV)
    | .zero _ => (0, flUF + flNX)
    | .fin _ m e => e8m0Round m e

/-- A code of a format widened to F32 (R126): word and flags. -/
def convFrom (x : Fmt) (a : Word) : Word × Nat :=
  match x, fmtVal x a.toNat with
  | .bf16, .nan s => (canonNaN, if s then flNV else 0)
  | .f16, .nan s => (canonNaN, if s then flNV else 0)
  | _, .nan _ => (canonNaN, 0)
  | .s32, v => rndVal .rne v
  | .n32, v => rndVal .rne v
  | _, v => ((rndVal .rne v).1, 0)

/-- `cvt` (R127): the value written to D and the flags raised. -/
def cvtValue (dir sat rtz : Bool) (x : Fmt) (a : Word) : Word × Nat :=
  if dir then convFrom x a
  else
    let (r, fl) := convTo x rtz sat (f32 a)
    (BitVec.ofNat 32 r, fl)

/-- A value times 2^k. -/
def Val.scale (v : Val) (k : Int) : Val :=
  match v with
  | .fin n m e => .fin n m (e + k)
  | w => w

/-- Element `code` of an MX block with scale code `c` (R118). -/
def mxVal (x : Fmt) (code c : Nat) : Val :=
  if c = 255 then .nan false
  else match x with
    | .s8 => (fmtVal .s8 code).scale ((c : Int) - 127 - 6)
    | _ => (fmtVal x code).scale ((c : Int) - 127)

end Sys2Proof.Machine
end

