-- ==== Sys2Proof/Config.lean ====
section
/-! DEFINITION. What the manual leaves to each part or does not state: constants without a body, so that no proof can
see a value (the free values), and the one unlisted-memory value of the model. -/

namespace Sys2Proof.Config

/-- The byte that memory nothing has written reads as (DESIGN CHOICE, entry 4). -/
def unlistedByte : Byte := 0

/-- The word of the accumulator store that nothing has written (DESIGN CHOICE, entry 4). -/
def unlistedAcc : Word := 0

/-- The bytes an SPDM response carries: certificate chain, signature or measurement (R352 gives no value; entry 11). -/
opaque spdmBytes : Nat → List Byte

/-- The byte of layout the control block of a save image does not state (R331; entry 12). -/
opaque controlBlockByte : Nat → Byte

/-- The MRG field of a TUBERR record for 256 issues or more, which its 8 bits cannot hold (R182; entry 15). -/
opaque mergeField : Nat → BitVec 8

/-- TEPC and TPASS of the TLX record of a kill that no trap raised (R322, R326 state none; entry 16). -/
opaque killField : Nat → BitVec 32

/-- The base of a gang's save images, in units the model takes to 4 KiB of device memory (R331: set by the resident
service; entry 12). -/
opaque imageBase : Nat → Nat

/-- The bytes of allocation units that no team of the gang asked for, in a save image (R331 gives no value; entry 12). -/
opaque paddingByte : Nat → Byte

/-- The contents of a warm start's device memory: nothing a program may rely on (R351; entry 13). -/
opaque warmByte : Nat → Byte

/-- What a pinned access reads where nothing lies behind its address (R266, entry 89). -/
opaque holeByte : Nat → Byte

end Sys2Proof.Config
end

