-- ==== Sys2Proof/Machine/State.lean ====
section
/-! DEFINITION. The state of a pod of CX9 packages as plain data, and the state right after reset. Records are held in
lists and named by numbers; every number is fresh (`nextId`), so a name never means two things. -/

namespace Sys2Proof.Machine

/-- Why the machine stops with a fault. -/
inductive Fault where
  /-- Raised by an instruction word when no clause is under evaluation: a word has an effect only inside the pass of a
  clause (R45). Safe: the hardware never does it. -/
  | noClause
  deriving DecidableEq, Repr

/-- Why the machine gives no meaning. -/
inductive Refusal where
  /-- Raised by an arm of `exec` for an instruction without a meaning yet. Safe: the machine stops. -/
  | notModelled (mnemonic : String)
  deriving DecidableEq, Repr

/-! ## Teams -/

/-- Kinds of stack entries (R70). -/
inductive StKind where
  | region | deferred | call
  deriving DecidableEq, Repr

/-- An entry of the reconvergence stack (R70). -/
structure StEntry where
  (kind : StKind) (pc : Nat) (mask : Mask)
  deriving DecidableEq, Repr

/-- The bank of one trap level (R314). -/
structure Bank where
  (cause epc pass val valh skid save vec : Word) (tlm : Mask)
  deriving DecidableEq, Repr

/-- A trap or fault on its way to a team (R310 to R313). `order` is the place of R313; `level` the trap level it is
tagged with; `x` the first cycle in which it can be taken; `epc` and `pass` what a precise trap banks; `words` the
instruction words the team had committed when the access issued (for TSKID, R312). -/
structure TeamEvent where
  (order cause : Nat) (imp mult : Bool) (tval tvalh : Word) (tlm : Mask)
  (level x : Nat) (epc pass words : Nat) (recorded : Bool)
  deriving DecidableEq, Repr

/-- What a team waits inside (R62, R201 to R206, R192). `c` is the commit cycle of the waiting clause; `late` tells that a fence of
scope pod waits for its drain no longer (R186). -/
inductive Wait where
  | phase (off : Nat) (given : Word) (gpd : Nat) (deadline : Word)
  | until (t : Nat)
  | barn (scope : Scope) (round : Nat)
  | fence (scope : Scope) (c hdr pos : Nat) (late : Bool)
  | xfence (c : Nat)
  | migdrain (reg c : Nat)
  deriving DecidableEq, Repr

/-- Where a team stands and what its launch granted it (R66, R81, R84). -/
structure Place where
  (pkg core slot block tib gang : Nat)
  (warps vregs uregs lsBytes lsBase atiles atBase : Nat)
  (vUnit vUnits uUnit uUnits rows : Nat)
  deriving DecidableEq, Repr

/-- The registers of a team that CSR words name (R315), but for the trap banks. -/
structure TeamCsr where
  (frm fflags trapen rstat rseq mstat hstat qstat fstat qpoint qcyc wpaddr wpctl wphit : Word)
  deriving DecidableEq, Repr

/-- The passes of a clause that a trap left after one of its passes had committed (R47): the trap level, the clause, its
passes, and the reference of each `cardf` word by position (R245). -/
structure Formed where
  (level hdr : Nat) (passes : List (List Nat)) (ref : List (Nat × Word))
  deriving DecidableEq, Repr

/-- The execution context of a team (R16, R18, R86). `vr` holds v0 up, each a word per lane; `pr` p0 to p6 as lane
masks; `formed` the passes of the clauses that traps left; `resume` the pass a return re-runs (R320). -/
structure Team where
  (id : Nat) (pl : Place)
  (pc : Nat) (active live : Mask) (stack : List StEntry)
  (vr : List (List Word)) (ur : List Word) (pr : List Mask) (gp : List Bool) (sb : List Nat)
  (csr : TeamCsr) (shadow : Option Word)
  (tl : Nat) (bank1 bank2 : Bank)
  (formed : List Formed) (resume : Option (Nat × Formed))
  (waits : List Wait) (readyAt ePrev startAt : Nat) (barnCount : List Nat)
  (events : List TeamEvent) (wordsDone : Nat)
  (region : Bool) (rounds : Nat) (stopped ended : Bool)
  deriving DecidableEq, Repr

/-! ## Accesses in flight -/

/-- The memory words by what they do. -/
inductive MemKind where
  | load | store | atomF | atomN
  deriving DecidableEq, Repr

/-- Where one lane of an access stands: waiting for a walk, held by the tag board, on its way, performed with its data
still to land, done, waiting for its fault's report, waiting for the report of a fault its walk found, faulted. -/
inductive LaneSt where
  | walk | held | moving | performed | done | err | unmapped | faulted
  deriving DecidableEq, Repr

/-- One lane of a memory word: its address as issued (LS offset, virtual address or element number), the home it
translates to, its data and compare value, the value it receives (the cause of a fault once it has one), and the cycle
of its next step. -/
structure LaneReq where
  (lane va home data cmp got due : Nat) (st : LaneSt)
  deriving DecidableEq, Repr

/-- One memory word of one pass, from its commit until its last lane is finished. `space`: 0 own LS, 1 global, 2 remote,
3 accumulator. `n` is the access size in bytes; `round` the tag-board round that holds it, with its block; `seq` the team's RSEQ. -/
structure Flight where
  (id team gang ctx pkg core slot : Nat)
  (kind : MemKind) (space n : Nat) (sx : Bool) (aop : AOp) (d sb : Nat)
  (commit level hdr pass pos words seq : Nat)
  (zero : Bool) (round : Option (Nat × Nat)) (lanes : List LaneReq)
  deriving DecidableEq, Repr

/-- Register data on its way: the flight and the lanes that land together (R48). -/
structure Landing where
  (id flight : Nat) (lanes : List Nat)
  deriving DecidableEq, Repr

/-- What a staged entry does at its bank (R149, R150, R194); `frame` is the write of a trap entry (R310). -/
inductive StagedOp where
  | bytes (l : List (Nat × List Byte))
  | frame (off : Nat) (data : List Byte)
  | atomic (flight : Nat)
  | binit (off : Nat) (x : Word)
  | barv (off : Nat)
  | bexp (off : Nat) (x : Word)
  | bcred (off : Nat) (x : Word)
  | acc (l : List (Nat × Word))
  deriving DecidableEq, Repr

/-- Where a word stands whose access may fault later (R312): instruction words of the team up to it, its clause, pass and
position. -/
structure Origin where
  (words hdr pass pos : Nat)
  deriving DecidableEq, Repr

/-- An entry of a core's staging buffer (R149): the team, the commit cycle, the LS base its offsets count from, the trap level and the
place of its word. -/
structure Staged where
  (id team pkg core s base level : Nat) (from_ : Origin) (op : StagedOp)
  deriving DecidableEq, Repr

/-- What a segment serves (R152, R153): bytes to write, bytes to read, a lane atomic, or one of the other agents'
accesses; `trapRec` writes record n of the trap record ring (R326). -/
inductive SegOp where
  | lanes (flight : Nat) (lanes : List Nat)
  | walk (quad : Nat) (pa : Nat)
  | haulRead (core card piece : Nat) (pa n : Nat)
  | haulWrite (core card piece : Nat) (pa : Nat) (data : List Byte)
  | elem (pkt j : Nat)
  | rload (pkt j : Nat)
  | record (pa : Nat) (data : List Byte) (then_ : Nat)
  | host (req pa n : Nat) (write : Bool) (data : List Byte)
  | spill (core gang : Nat) (pa : Nat) (data : List Byte)
  | fill (gang read pa n : Nat)
  | ual (req stn : Nat) (r : UalReq)
  | trapRec (pa n : Nat) (data : List Byte)
  deriving DecidableEq, Repr

/-- A segment waiting at a pseudo-channel: arrival cycle, not before `after`, slots taken, whether a timed card's. -/
structure Seg where
  (arr after slots : Nat) (timed : Bool) (op : SegOp)
  deriving DecidableEq, Repr

/-- A packet on its way to the pseudo-channels (R152): its segments with the addresses they touch. -/
structure Gather where
  (id pkg : Nat) (segs : List (Nat × Seg))
  deriving DecidableEq, Repr

/-- One pseudo-channel (R153, R160): its queue, the cycle its slots are busy until, the refresh in progress (start),
refresh balance, the cycle of the next service, replays counted. -/
structure PChan where
  (pkg n : Nat) (queue : List Seg) (busy refresh bal due : Nat) (replays : Nat)
  deriving DecidableEq, Repr

/-- What a page walk is for: lanes of the flights of a pass, a piece of a haul card, a `launch` word, a pass that race watch holds
(R229), or a TUBERR record. -/
inductive WalkFor where
  | lanes (flights : List Nat)
  | piece (card k : Nat) (dst : Bool)
  | launch (d slot hdr pos words : Nat)
  | hold (core : Nat)
  | record (i : Nat)
  deriving DecidableEq, Repr

/-- A page walk (R147, R338): the team and context it is for, the page, the level read and the table entry once read. -/
structure Walk where
  (id pkg quad core ctx team page : Nat) (level table entry : Nat) (started : Bool) (for_ : WalkFor)
  deriving DecidableEq, Repr

/-! ## Clauses in progress -/

/-- The flow state of a FLOW clause under evaluation (R74, R75). -/
structure FlowSt where
  (active live : Mask) (stack : List StEntry) (pc : Nat)
  deriving DecidableEq, Repr

/-- A precise trap found in a pass (R47): the word's position, cause, values and faulting lanes. -/
structure PTrap where
  (pos cause : Nat) (tval tvalh : Word) (tlm : Mask)
  deriving DecidableEq, Repr

/-- One memory word of a pass, before its commit. -/
structure MemAct where
  (pos nth : Nat) (kind : MemKind) (space n : Nat) (sx : Bool) (aop : AOp) (d sb : Nat) (zero : Bool)
  (lanes : List LaneReq)
  deriving DecidableEq, Repr

/-- What a word of a pass does at the commit of the pass (R45). -/
inductive Act where
  | vreg (d : Nat) (vals : List (Nat × Word))
  | vpred (q : Nat) (vals : List (Nat × Bool))
  | ureg (d : Nat) (x : Word)
  | upred (q : Nat) (x : Bool)
  | fflags (f : Nat)
  | push (pos q : Nat) (x : Word)
  | cardf (pos : Nat) (ref : Option Word)
  | mem (m : MemAct)
  | obj (pos : Nat) (op : StagedOp)
  | lsRead (pos off n : Nat)
  | waitph (off : Nat) (given : Word) (gpd : Nat) (deadline : Word)
  | barn (scope : Scope)
  | fence (scope : Scope) (pos : Nat)
  | xfence
  | tflush (key : Word)
  | tbenter
  | tbrel
  | waitc (t : Nat)
  | launch (d : Nat) (pos : Nat)
  | csr (idx : Nat) (kind : CsrKind) (old x : Word)
  | shadow (x : Word)
  | trap (cause : Nat) (code : Nat)
  | tret (pos : Nat)
  | kill (k : Word)
  | shift (t out inc reg : Nat)
  | wdog (n : Nat)
  | migdrain (reg : Nat) (key : Word)
  deriving DecidableEq, Repr

/-- The evaluation of one pass: the words still to come (the head is the next one), the place of the head (`pos` from 1,
`nth` among the instruction words), the cycles spent before it, and what the words so far have done. -/
structure Cur where
  (pkg core team : Nat) (cls : Cls) (win : Nat)
  (hdr pass first : Nat) (lanes : List Nat)
  (words : List Word) (pos nth off : Nat)
  (latches : List (List Word)) (acts : List Act) (extra : Nat)
  (trap : Option PTrap) (flow : FlowSt) (ref : List (Nat × Word)) (shadow : Option Word) (count : Nat)
  deriving DecidableEq, Repr

/-- The clause in progress on a core: its header and words, the passes still to run, the pass number, the cycles of the
current pass, its evaluation once made (R42 to R44), and the pages whose walk failed while race watch held it, each with the
walk's cause (R229). -/
structure Run where
  (team hdr : Nat) (cls : Cls) (win eng : Nat) (words : List Word)
  (start cost : Nat) (passes formed : List (List Nat)) (pass first last : Nat)
  (ref : List (Nat × Word)) (trap : Option PTrap) (done : Option Cur) (failed : List (Nat × Nat))
  deriving DecidableEq, Repr

/-! ## Cards -/

/-- A range of a footprint (R262): `space` 0 package-local physical, 1 a-tiles, 2 unresolved. -/
structure FRange where
  (space lo hi : Nat) (write : Bool)
  deriving DecidableEq, Repr

/-- A piece of a haul card (R270, R271): number, source and destination, bytes, when its data is ready, the
data, segments outstanding. -/
structure Piece where
  (k : Nat) (src dst : Option Nat) (len : Nat) (index : Bool) (ready : Option Nat) (data : List Byte) (left : Nat)
  deriving DecidableEq, Repr

/-- Bytes of a haul card on their way to the LS of another core: the cycle of the write, the core, the LS address. -/
structure HPend where
  (due core off : Nat) (data : List Byte)
  deriving DecidableEq, Repr

/-- Progress of a haul card (R269 to R271): the next row, the place in it, the next piece number, index bytes issued, pieces
issued, the last read and write cycles, the latest access and the card's end after it, write segments outstanding, index
words read, writes to other cores outstanding, the end of the last walk the card waited for with its side (true: destination), and the
cause and card word of the fault that stops it. -/
structure HaulSt where
  (row off next idx : Nat) (pieces : List Piece) (lastR lastW latest : Option Nat) (end_ open_ : Nat) (index : List Word)
  (todo : List HPend) (hold : Option (Nat × Bool)) (fail : Option (Nat × Nat))
  deriving DecidableEq, Repr

/-- A slot of a `sendat` or a `recvat` (R289, R292): number, cycle, data once read. -/
structure SlotSt where
  (k cyc : Nat) (data : Option (List Byte)) (taken : Bool)
  deriving DecidableEq, Repr

/-- An accepted card (R235, R261): queue, words, the team that completed it with its context, slot and level, acceptance,
start and finishing cycles, the cycle from which it no longer holds its gang's end (R77), edges, footprint, and the
engine's progress. `dead` marks what remains of a receive whose later slots a kill or a halt took away (R305); `delay` holds
the cycles re-execution has added. -/
structure Card where
  (id q team gang ctx slot level : Nat) (from_ : Origin) (words : List Word) (accept : Nat)
  (start fin settled : Option Nat) (edges : List Nat) (foot : List FRange) (stopped dead : Bool)
  (haul : HaulSt) (slots : List SlotSt) (missing : Bool) (count delay : Nat)
  deriving DecidableEq, Repr

/-- A word in a job-card queue, with the team that pushed it (R36). -/
structure QWord where
  (team gang : Nat) (x : Word)
  deriving DecidableEq, Repr

/-- A complete card still in its queue (R235): the cycle its clause ended, the team, the trap level, its completing word,
how many words it has. -/
structure Ready where
  (e team level : Nat) (from_ : Origin) (len : Nat)
  deriving DecidableEq, Repr

/-- A job-card queue (R36, R235): words, complete cards in order, when the last accepted card started. -/
structure Queue where
  (words : List QWord) (ready : List Ready) (lastStart : Nat)
  deriving DecidableEq, Repr

/-- A buddy pool as its free blocks: (first unit, size), canonical ascending (R83). -/
abbrev Pool := List (Nat × Nat)

/-- A receive ring (R294). -/
structure Ring where
  (num ctx base log2 ctl ppkg pcore : Nat) (bar : Word) (count : Nat) (lsBase : Nat) (team : Nat)
  deriving DecidableEq, Repr

/-- A slot in a landing buffer (R292): delivery cycle, where it goes, its bytes, the card and slot number. -/
structure LandSlot where
  (cyc dst card k : Nat) (data : List Byte)
  deriving DecidableEq, Repr

/-- A ring message accepted and not yet written whole (R296). -/
structure RingWrite where
  (ring : Nat) (from_ done : Nat) (data : List Byte) (pkt : Nat) (size : Nat)
  deriving DecidableEq, Repr

/-- A page held in a core's translation buffer (R147). -/
structure TlbEntry where
  (ctx page size pa : Nat) (rd wr at_ : Bool) (tgt : Nat)
  deriving DecidableEq, Repr

/-- One logical core (R18, R21). `free` is the last cycle its datapath is taken; `parked` holds the queued words and complete
cards of gangs that are switched out (R330). -/
structure Core where
  (run : Option Run) (free : Nat) (lastSlot : Option Nat)
  (queues : List Queue) (parked : List (Nat × List Queue)) (cards : List Card) (tlb : List TlbEntry)
  (rowPool vPool uPool lsPool aPool : Pool)
  (seq : Nat) (ringdrop : Word) (rings : List Ring) (landing : List LandSlot) (ringWrites : List RingWrite)
  (switchHold : Nat)
  deriving DecidableEq, Repr

/-! ## Remote traffic -/

/-- A contribution to an element: the flight, its lane and its data. -/
structure Contrib where
  (flight lane : Nat) (x : Word)
  deriving DecidableEq, Repr

/-- An element of a tub (R171): address, data, enables, kind, origin, and the contributions merged into it. -/
structure Elem where
  (va pa : Nat) (data cmp : Word) (be : Nat) (kind : MemKind) (aop : AOp)
  (ctx core slot team lane seq mrg ins : Nat) (parts : List Contrib) (fault : Nat) (old : Word) (done : Bool) (dkey : Nat) (drain evicted : Bool)
  deriving DecidableEq, Repr

/-- A tub (R171): 0 FREE, 1 OPEN, 2 CLOSED. -/
structure Tub where
  (st dkey : Nat) (elems : List Elem)
  deriving DecidableEq, Repr

/-- One lane access of a remote load request (R187); `st` 0 to be issued, 1 issued, 2 performed. -/
structure RLane where
  (lane va pa : Nat) (fault got st : Nat)
  deriving DecidableEq, Repr

/-- What a packet carries; a scheduled slot also names the core, slot and context of the card that sent it (R175, R187, R192, R202, R203, R296, R302). -/
inductive PBody where
  | tub (tub : Nat) (elems : List Elem)
  | ack (of_ : Nat) (elems : List Elem)
  | loadReq (flight n after : Nat) (lanes : List RLane)
  | loadReply (flight n : Nat) (lanes : List RLane)
  | ring (core card dcore ring len : Nat) (data : List Byte) (srcCore : Nat)
  | ringAck (core card : Nat) (ok : Bool)
  | halt (b orig kind : Nat)
  | drain (key origin id : Nat)
  | drainReply (id : Nat)
  | slot (port score core sslot sctx : Nat) (data : List Byte)
  | token (key round from_ : Nat) (release : Bool)
  | stamp (back : Bool)
  deriving DecidableEq, Repr

/-- A packet: number, source and destination package numbers, destination key, slots in all and slots sent, when it
entered its queue, when its last slot left, when it was taken in, the cycles in which its accesses issue there, and the port
it left through (32 · package + port). -/
structure Packet where
  (id src dst dkey slots sent entered : Nat) (body : PBody) (last taken : Nat) (issues : List Nat) (via : Nat)
  deriving DecidableEq, Repr

/-- A Slorid port (R175, R278 to R281). `tubLast` tells that the last elastic slot went to the tub queue. -/
structure Port where
  (delay wire : Nat) (up : Bool) (tubq hdrq halts : List Packet) (tubLast : Bool) (lag lagAt : Nat)
  deriving DecidableEq, Repr

/-- A schedule table in force or awaiting its boundary (R283, R284). -/
structure Sched where
  (flog slkm slkh pmask sid pa from_ : Nat) (maps : List (Nat × List Nat)) (intervals : List (Nat × Nat))
  deriving DecidableEq, Repr

/-- An access to the host window between its departure and its end (R357, R358); or, from core 256 on, an access of the host
through BAR2 (256) or a target request of a UALink peer (257, `ual` with its station) until it has been performed (R359, R362).
`retried` is 2 where the address is not to be translated (R266). Stages: 0 not yet at the hub or its home, 1 translation requested, 2 page requested, 3 in the link, 4 held behind an earlier
request of its core, 5 at its pseudo-channels with `piece` segments to be served. -/
structure HostReq where
  (id flight : Nat) (lanes : List Nat) (card piece core : Nat) (write : Bool) (va n : Nat) (data : List Byte)
  (stage retried : Nat) (timed : Bool) (ual : Option (Nat × UalReq))
  deriving DecidableEq, Repr

/-- An ATS translation held (R356). -/
structure AtsEntry where
  (ctx base size pa : Nat) (rd wr : Bool)
  deriving DecidableEq, Repr

/-- A request waiting at the admitter (R80): source core (256 for the service), arrival, context, descriptor address,
join, tag. -/
structure Admit where
  (arrive core ctx desc join njoin tag : Nat) (svc : Bool) (team : Nat)
  deriving DecidableEq, Repr

/-- A launch descriptor read by the admitter (R78). -/
structure Desc where
  (entry blocks warps teams vregs uregs lsu atiles cmap start flags cls sched param : Nat)
  deriving DecidableEq, Repr

/-- The admission in progress (R80): the request, its completion cycle, the status of an early failure, the words walked,
the descriptor, where its status word lies, the clause starts and the core map. -/
structure Admitting where
  (req : Admit) (done fail len : Nat) (desc : Desc) (statusPa : Option Nat) (starts cmap : List Nat)
  deriving DecidableEq, Repr

/-- A joined launch known to the package, with the package and tag of each member's request (R341, R364). -/
structure Join where
  (num njoin first : Nat) (members : List Nat) (failed : Nat) (tags : List (Nat × Nat))
  deriving DecidableEq, Repr

/-- A drain in progress (R191, R192): its number, the team that waits (0 for the service), the destination key and the packages yet to
reply. -/
structure Drain where
  (id team reg key c : Nat) (left : List Nat) (svcTag : Option Nat) (mig : Option MigSpec)
  deriving DecidableEq, Repr

/-- A drain received and not yet answered (R192), by the number it has at its origin. -/
structure DrainIn where
  (key origin id : Nat) (waiting : List Nat)
  deriving DecidableEq, Repr

/-- A barrier token of a pod round that a package has sent or received (R12, R175, R203): the pod gang, the round, the package it
speaks for, and whether it gathers or releases. -/
structure Token where
  (key round from_ : Nat) (release : Bool)
  deriving DecidableEq, Repr

/-- One package (R13, R14). `slew` holds for each clock island, the 64 quads and the hub, the difference its last pulse found and the
cycle of that pulse (R306); `power` is what it draws, in watts (R355); `nextTag` is the
request that named the table awaiting its boundary (R374). The trap record ring holds 2^recLog records of 32 bytes from `recBase` up; `recNext` counts those
written (R326). -/
structure Pkg where
  (num : Nat) (remap : List Nat) (hashm hashHeld : List Word) (held : List Bool) (tubage rtimeout : Word)
  (schedRun halted : Bool) (haltKind fcnt : Nat) (sched next : Option Sched) (nextTag : Option Nat) (halt : Option (Nat × Nat × Nat))
  (rs : Option Nat) (windows : List Window) (uwindows : List Window) (pinned : List Pinned)
  (budget power : Nat) (throttled : Bool) (bar2 : Nat)
  (tubs : List Tub) (waiting : List Elem) (ports : List Port) (out inn : List Packet) (acked : List Packet)
  (admitQ : List Admit) (admitting : Option Admitting) (joins : List Join)
  (slackM slackH : List (Nat × Nat)) (slew : List (Int × Nat)) (timeRoot : Bool) (ptpOffset refAdj : Int)
  (boot : Nat) (canary : List Nat) (ats : List AtsEntry) (host : List HostReq) (spdm : Bool) (notify : Nat)
  (drains : List Drain) (drainsIn : List DrainIn) (tokens : List Token)
  (recBase recLog recNext : Nat)
  deriving DecidableEq, Repr

/-- A TUBERR record on its way to its ring (R182, R183, R345): the team it is reported to, its index, its home, the cycle of its write
at an LS home, and whether its write has been issued and performed. -/
structure PendRec where
  (id team h pa due : Nat) (issued ls written : Bool) (data : List Byte)
  deriving DecidableEq, Repr

/-- A context of a package (R144, R146, R183, R307). -/
structure Ctx where
  (num pkg : Nat) (priv : Bool) (ranges : List RangeEntry) (root : Nat) (tuberrB tuberrH tuberrT : Word)
  (pend : List PendRec)
  deriving DecidableEq, Repr

/-- The states of a gang on its cores (R327). -/
inductive GState where
  | run | shadow | spill | out | fill
  deriving DecidableEq, Repr

/-- A shift change accepted for a gang (R328, R329), with the request to be answered at the switch (R374). -/
structure Switch where
  (t incoming : Nat) (t' tag : Option Nat)
  deriving DecidableEq, Repr

/-- A core's save image in progress (R331): the unit to read next, cycles, writes outstanding. -/
structure SaveSt where
  (core next : Nat) (readDone : Bool) (left : Nat) (finished : Bool)
  deriving DecidableEq, Repr

/-- One read of the save port, or one write of a fill (R331): a vector or uniform unit of a team, 1 KiB of LS, of an a-tile or of
the control block. -/
inductive Chunk where
  | v (team k : Nat) | u (team k : Nat) | ls (off : Nat) | acc (tile part : Nat) | ctl (k : Nat)
  deriving DecidableEq, Repr

/-- A read of a save image that has left for device memory: its address, where its bytes go, the segments still to be served, the
bytes so far, and the cycle its data is there. -/
structure FillRead where
  (id pa : Nat) (chunk : Chunk) (left : Nat) (data : List Byte) (due : Option Nat)
  deriving DecidableEq, Repr

/-- A core's fill in progress (R327, R331): the reads to come, each with its image address and where its bytes go, and the reads under
way. -/
structure FillSt where
  (core : Nat) (todo : List (Nat × Chunk)) (reads : List FillRead)
  deriving DecidableEq, Repr

/-- A gang (R77 to R86, R316, R322, R327). `fills` holds its fill in progress, `objs` the addresses its barrier objects had as it
was spilled. `ended` 0 running, 1 ended and resources held until the next cycle, 2 gone;
`killAt` the kill cycle.
`rounds` holds (block, tag-board round, cycle in which it was performed), `released` how many rounds of a block are
released (R209). -/
structure Gang where
  (id num ctx pkg : Nat) (desc : Desc) (starts : List Nat) (statusPa : Option Nat)
  (startAt : Nat) (started : Bool) (state : GState) (ended : Nat) (killAt : Option Nat) (killCause : Word)
  (killImp : Bool) (killBank : Option (Nat × Nat)) (killTeam : Nat)
  (wdog : Option Nat) (join : Nat) (rounds : List (Nat × Nat × Nat)) (released : List (Nat × Nat)) (switch : Option Switch) (image : Nat)
  (saves : List SaveSt) (charge : Nat) (quiets : List (Nat × Nat)) (wdogHit : Bool) (tag : Nat)
  (fills : List FillSt) (objs : List Nat)
  deriving DecidableEq, Repr

/-- A trap record (R326), its fields as numbers. -/
structure Record where
  (pkg wtc seq core slot : Nat) (imp : Bool) (cause level ctx : Nat) (tval tvalh tepc tpass : Word)
  deriving DecidableEq, Repr

/-- What the resident service answered: tag and status (R363). -/
structure Response where
  (pkg tag status cyc : Nat) (data : List Byte)
  deriving DecidableEq, Repr

/-- A notification to the resident service (R363): kind and what it concerns. Kinds: 1 gang completion, 2 trap record,
3 watchpoint event, 4 replay (of a pseudo-channel, or of port a − 512), 5 dropped record, 6 discarded card words, 7 corrected error, 8 join failure, 9 voltage raise,
10 host-read error, 11 boot failure or readiness. -/
structure Notice where
  (pkg kind a b cyc : Nat)
  deriving DecidableEq, Repr

/-- A message that left a package for the world outside the pod, with an address or number and bytes. Kinds: 1 host read
request, 2 host write, 3 ATS translation request, 4 PRI page request, 5 ATS invalidation completion, 6 completion of a host
access through BAR2, 7 completion of a UALink target request, 8 SPDM response, 9 network payload, 10 mailbox status word,
11 notification, 12 UALink write or atomic request, 13 UALink read request (the peer's key, the address). `ok` tells a success from an error. -/
structure Outbound where
  (pkg kind a b cyc : Nat) (ok : Bool) (data : List Byte)
  deriving DecidableEq, Repr

/-- An entry of the agenda: a step due in a cycle, the place of the step within the cycle, and the tie order. -/
structure Entry where
  (cyc prio : Nat) (key : List Nat) (ev : Instr)
  deriving DecidableEq, Repr

/-- What the step does next within a cycle: a step of the table, the evaluation of a pass, or its commit. -/
inductive Due where
  | op (i : Instr)
  | eval (pkg core : Nat)
  | commit (pkg core : Nat)
  deriving DecidableEq, Repr

/-- The whole machine. `wtc` counts cycles; `stage` is the place within the cycle; `due` the steps found due and not yet
done; `ev` the pass under evaluation. -/
structure State where
  wtc : Nat
  stage : Nat
  due : List Due
  ev : Option Cur
  agenda : List Entry
  nextId : Nat
  freeCtr : Nat
  mem : List Host.Cell
  acc : List (Nat × Word)
  uce : List Nat
  sbe : List Nat
  pkgs : List Pkg
  ctxs : List Ctx
  gangs : List Gang
  teams : List Team
  cores : List Core
  flights : List Flight
  landings : List Landing
  staged : List Staged
  gathers : List Gather
  walks : List Walk
  pcs : List PChan
  packets : List Packet
  objs : List (Nat × Nat)
  records : List Record
  responses : List Response
  notices : List Notice
  outbound : List Outbound
  deriving DecidableEq, Repr

/-! ## Reset -/

def Bank.reset : Bank := ⟨0, 0, 0, 0, 0, 0, 0, 0, 0⟩
def TeamCsr.reset : TeamCsr := ⟨0, 0, 0, 0, 0, 0, 0, 0, 0, 0, 0, 0, 0, 0⟩
def Queue.reset : Queue := ⟨[], [], 0⟩

/-- The free pools of an empty core (R83). -/
def rowPool0 : Pool := [(0, 128)]
def vPool0 : Pool := [(0, 512), (512, 256)]
def uPool0 : Pool := [(0, 512)]
def lsPool0 : Pool := [(0, 256), (256, 128)]
def aPool0 : Pool := [(0, 128), (128, 64)]

/-- A core at reset: nothing resident, every queue and pool empty of work. -/
def Core.reset : Core :=
  ⟨none, 0, none, [.reset, .reset, .reset, .reset], [], [], [], rowPool0, vPool0, uPool0, lsPool0, aPool0, 0, 0, [], [], [],
    0⟩

/-- A port at reset; where both queues wait before any slot was taken, the tub queue has the first (DESIGN CHOICE, entry 85). -/
def Port.reset : Port := ⟨0, 0, false, [], [], [], false, 0, 0⟩
def Tub.reset : Tub := ⟨0, 0, []⟩
def Window.reset : Window := ⟨false, 0, 0, false, false, false⟩
def Pinned.reset : Pinned := ⟨false, 0, 0, false, false⟩

/-- The hash masks of R159 at reset. -/
def hashm0 : List Word :=
  [0x10800000, 0x21000000, 0x42000000, 0x80000004, 0x00000008, 0x00000010, 0x00000020, 0x04000000, 0x08000002]

/-- The spare-core remap of the model: logical core c on its die's physical core c mod 128 (entry 6). -/
def remap0 : List Nat := (List.range 256).map fun c => c / 128 * 130 + c % 128

/-- A package that has just become ready (R350 step 8), its number given. -/
def Pkg.reset (num : Nat) : Pkg :=
  { num := num, remap := remap0, hashm := hashm0, hashHeld := hashm0, held := List.replicate 9 false, tubage := 512,
    rtimeout := 0x001312D0, schedRun := false, halted := false, haltKind := 0, fcnt := 0, sched := none, next := none, nextTag := none,
    halt := none, rs := none, windows := List.replicate 16 Window.reset, uwindows := List.replicate 32 Window.reset,
    pinned := List.replicate 256 Pinned.reset, budget := 1600, power := 0, throttled := false, bar2 := 0,
    tubs := List.replicate 64 .reset, waiting := [], ports := List.replicate 32 .reset, out := [], inn := [], acked := [],
    admitQ := [], admitting := none, joins := [], slackM := [], slackH := [], slew := List.replicate 65 (0, 0),
    timeRoot := false, ptpOffset := 0, refAdj := 0, boot := 0x80, canary := List.replicate 65 0, ats := [], host := [], spdm := false,
    notify := 0, drains := [], drainsIn := [], tokens := [], recBase := 0x005FFFE00000, recLog := 16, recNext := 0 }

/-- The machine right after reset: one package, ready, its count at 0 (R350), nothing resident and nothing written. -/
def State.reset : State :=
  { wtc := 0, stage := 0, due := [], ev := none, agenda := [], nextId := 1, freeCtr := 0, mem := [], acc := [], uce := [],
    sbe := [], pkgs := [{ Pkg.reset 0 with timeRoot := true }], ctxs := [], gangs := [], teams := [],
    cores := List.replicate 256 Core.reset, flights := [], landings := [], staged := [], gathers := [], walks := [],
    pcs := [],
    packets := [], objs := [], records := [], responses := [], notices := [], outbound := [] }

end Sys2Proof.Machine
end

