-- ==== Sys2Proof/Machine/Ops.lean ====
section
/-! DEFINITION. The named operations over the state: memory, records by number, the agenda, trap records, events that
reach a team, taking a trap (R308 to R313) and killing a gang (R309, R322). -/

namespace Sys2Proof.Machine

/-- The outcome of a step. -/
abbrev Out := Host.Outcome State Fault Refusal

/-! ## Sparse stores in canonical form -/

/-- The byte at an address: what the list holds, or what an unlisted address reads as. -/
def memByte (m : List Host.Cell) (a : Nat) : Byte :=
  match m.find? (fun c => c.1 = a) with
  | some c => c.2
  | none => Config.unlistedByte

/-- The cells of bytes laid from an address up, those that read as unlisted left out. -/
def cellsFrom : Nat → List Byte → List Host.Cell
  | _, [] => []
  | a, b :: bs => if b = Config.unlistedByte then cellsFrom (a + 1) bs else (a, b) :: cellsFrom (a + 1) bs

/-- The memory with the bytes written from an address up. -/
def memPut (m : List Host.Cell) (a : Nat) (bs : List Byte) : List Host.Cell :=
  m.filter (fun c => c.1 < a) ++ (cellsFrom a bs ++ m.filter (fun c => a + bs.length ≤ c.1))

/-- The canonical form: addresses strictly rising, no cell that reads as unlisted. -/
abbrev memWf (m : List Host.Cell) : Prop :=
  m.Pairwise (fun a b => a.1 < b.1) ∧ ∀ c ∈ m, c.2 ≠ Config.unlistedByte

/-- The n bytes from an address up as a little-endian number (R4). -/
def memNat (m : List Host.Cell) (a n : Nat) : Nat :=
  (m.filter (fun c => a ≤ c.1 && c.1 < a + n)).foldl (fun x c => x + c.2.toNat * 2 ^ (8 * (c.1 - a))) 0

/-- The n low bytes of a number, little-endian (R4). -/
def natBytes : Nat → Nat → List Byte
  | 0, _ => []
  | n + 1, x => BitVec.ofNat 8 x :: natBytes n (x / 256)

/-- A byte list as a little-endian number. -/
def bytesNat : List Byte → Nat
  | [] => 0
  | b :: bs => b.toNat + 256 * bytesNat bs

/-- A word of the accumulator store. -/
def accWord (m : List (Nat × Word)) (a : Nat) : Word :=
  match m.find? (fun c => c.1 = a) with
  | some c => c.2
  | none => Config.unlistedAcc

/-- The entries of words laid from an index up, unlisted values left out. -/
def accFrom : Nat → List Word → List (Nat × Word)
  | _, [] => []
  | a, b :: bs => if b = Config.unlistedAcc then accFrom (a + 1) bs else (a, b) :: accFrom (a + 1) bs

/-- The accumulator store with words written from an index up. -/
def accPut (m : List (Nat × Word)) (a : Nat) (bs : List Word) : List (Nat × Word) :=
  m.filter (fun c => c.1 < a) ++ (accFrom a bs ++ m.filter (fun c => a + bs.length ≤ c.1))

/-- The canonical form of the accumulator store. -/
abbrev accWf (m : List (Nat × Word)) : Prop :=
  m.Pairwise (fun a b => a.1 < b.1) ∧ ∀ c ∈ m, c.2 ≠ Config.unlistedAcc

/-- A list with each value kept where it first stands. -/
def distinct {α : Type} [DecidableEq α] : List α → List α
  | [] => []
  | a :: l => a :: (distinct l).filter (· ≠ a)

/-! ## Records by number -/

def State.pkg (s : State) (p : Nat) : Pkg := s.pkgs.getD p (Pkg.reset 0)
def State.modPkg (s : State) (p : Nat) (f : Pkg → Pkg) : State := { s with pkgs := s.pkgs.modify p f }

/-- The place in the list of the package with a number (R14). -/
def State.pkgOf (s : State) (num : Nat) : Option Nat := s.pkgs.findIdx? (·.num = num)

def State.core (s : State) (p c : Nat) : Core := s.cores.getD (256 * p + c) Core.reset
def State.modCore (s : State) (p c : Nat) (f : Core → Core) : State :=
  { s with cores := s.cores.modify (256 * p + c) f }

def State.team? (s : State) (t : Nat) : Option Team := s.teams.find? (·.id = t)
def State.modTeam (s : State) (t : Nat) (f : Team → Team) : State :=
  { s with teams := s.teams.map fun x => if x.id = t then f x else x }

def State.gang? (s : State) (g : Nat) : Option Gang := s.gangs.find? (·.id = g)
def State.modGang (s : State) (g : Nat) (f : Gang → Gang) : State :=
  { s with gangs := s.gangs.map fun x => if x.id = g then f x else x }

/-- The context number of a gang. -/
def State.gangCtx (s : State) (g : Nat) : Nat := match s.gang? g with | some x => x.ctx | none => 0

/-- The clause starts of a gang's image (R34). -/
def State.gangStarts (s : State) (g : Nat) : List Nat := match s.gang? g with | some x => x.starts | none => []

def State.ctx? (s : State) (p n : Nat) : Option Ctx := s.ctxs.find? fun x => x.pkg = p && x.num = n
def State.modCtx (s : State) (p n : Nat) (f : Ctx → Ctx) : State :=
  { s with ctxs := s.ctxs.map fun x => if x.pkg = p && x.num = n then f x else x }

def State.flight? (s : State) (i : Nat) : Option Flight := s.flights.find? (·.id = i)
def State.modFlight (s : State) (i : Nat) (f : Flight → Flight) : State :=
  { s with flights := s.flights.map fun x => if x.id = i then f x else x }

def State.setEv (s : State) (c : Option Cur) : State := { s with ev := c }
def State.setMem (s : State) (m : List Host.Cell) : State := { s with mem := m }

/-- A fresh number. -/
def State.fresh (s : State) : Nat × State := (s.nextId, { s with nextId := s.nextId + 1 })

/-- A fresh index of a free value. -/
def State.freeIndex (s : State) : Nat × State := (s.freeCtr, { s with freeCtr := s.freeCtr + 1 })

/-- A message leaves a package for the world outside the pod. -/
def State.leave (s : State) (p kind a b : Nat) (ok : Bool) (data : List Byte) : State :=
  { s with outbound := s.outbound ++ [⟨p, kind, a, b, s.wtc, ok, data⟩] }

/-- A report to the resident service, passed on where NOTIFY subscribed to its kind (R363). -/
def State.notice (s : State) (p kind a b : Nat) : State :=
  let s : State := { s with notices := s.notices ++ [⟨p, kind, a, b, s.wtc⟩] }
  if (s.pkg p).notify / 2 ^ kind % 2 = 1 then s.leave p 11 kind a true (natBytes 8 b) else s

/-- A report that goes out whether it is subscribed to or not (R364). -/
def State.tell (s : State) (p kind a b : Nat) : State :=
  ({ s with notices := s.notices ++ [⟨p, kind, a, b, s.wtc⟩] } : State).leave p 11 kind a true (natBytes 8 b)

/-- The response to a request (R363). -/
def State.respond (s : State) (p tag status : Nat) (data : List Byte) : State :=
  { s with responses := s.responses ++ [⟨p, tag, status, s.wtc, data⟩] }

/-- A request whose effect was to come later has it, or will not have it: it is answered then (R374). -/
def State.respondTo (s : State) (p : Nat) (tag : Option Nat) (status : Nat) : State :=
  match tag with
  | some t => s.respond p t status []
  | none => s

/-- The start of a package has stopped at a failed step: nothing is done, and the request is answered with status 2 where the
resident service runs, from step 3 on (R350; DESIGN CHOICE, entry 95). -/
def State.request (s : State) (p tag : Nat) (k : Out) : Out :=
  let b := (s.pkg p).boot
  if b = 0x80 then k else .next (if b ≤ 2 then s else s.respond p tag 2 [])

/-! ## The agenda -/

/-- Lexicographic order of keys. -/
def keyLe : List Nat → List Nat → Bool
  | [], _ => true
  | _ :: _, [] => false
  | a :: as, b :: bs => a < b || (a = b && keyLe as bs)

/-- The order of the agenda: cycle, place in the cycle, key. -/
def Entry.le (a b : Entry) : Bool := keyLe (a.cyc :: a.prio :: a.key) (b.cyc :: b.prio :: b.key)

/-- A sorted list with an entry put behind those not above it. -/
def insertEntry (e : Entry) : List Entry → List Entry
  | [] => [e]
  | x :: xs => if x.le e then x :: insertEntry e xs else e :: x :: xs

/-- A step put on the agenda. -/
def State.at (s : State) (cyc prio : Nat) (key : List Nat) (i : Instr) : State :=
  { s with agenda := insertEntry ⟨cyc, prio, key, i⟩ s.agenda }

/-- A step put on the agenda once. -/
def State.once (s : State) (cyc prio : Nat) (key : List Nat) (i : Instr) : State :=
  if s.agenda.any fun e => e.cyc = cyc && e.prio = prio && e.ev = i then s else s.at cyc prio key i

/-- A step that follows at once within the cycle. -/
def State.then (s : State) (i : Instr) : State := { s with due := .op i :: s.due }

/-! Places within a cycle: below `pMid` before clauses start, below `pEnd` between clause starts and pass commits, the
rest after the commits. The order among LS accesses is R157's, among pseudo-channel arrivals R154's. -/

def pBegin : Nat := 10
def pMid : Nat := 100
def pChan : Nat := 110
def pServe : Nat := 120
def pLane : Nat := 130
def pGlobal : Nat := 140
def pEngine : Nat := 150
def pCredit : Nat := 155
def pRemote : Nat := 160
def pHost : Nat := 170
def pRead : Nat := 180
def pLand : Nat := 190
def pFabric : Nat := 200
def pEnd : Nat := 900
def pKill : Nat := 950

/-! ## Addresses (R141, R143) -/

/-- The pod physical address of a package-local one. -/
def State.pod (s : State) (p pa : Nat) : Nat := (s.pkg p).num * 2 ^ 48 + pa

/-- The package-local address of an LS byte of a core (R141). -/
def lsPa (c off : Nat) : Nat := 0x800000000000 + c * 0x200000 + off

def hbmSize : Nat := 0x006000000000

/-- What lies behind a package-local physical address (R141). -/
inductive Home where
  | hbm | ls (core off : Nat) | host | ual (stn : Nat) | nothing
  deriving DecidableEq, Repr

def homeOf (pa : Nat) : Home :=
  if pa < hbmSize then .hbm
  else if 0x800000000000 ≤ pa && pa < 0x800000000000 + 256 * 0x200000 then
    let x := pa - 0x800000000000
    if x % 0x200000 < 0x180000 then .ls (x / 0x200000) (x % 0x200000) else .nothing
  else if 0xA00000000000 ≤ pa && pa < 0xC00000000000 then .host
  else if 0xC00000000000 ≤ pa && pa < 0x1000000000000 then .ual ((pa - 0xC00000000000) / 0x100000000000)
  else .nothing

/-- The bytes of package memory from a package-local address up, as a number. -/
def State.rd (s : State) (p pa n : Nat) : Nat := memNat s.mem (s.pod p pa) n

/-- Package memory with bytes written; a write re-encodes the code words of its bytes (R162). -/
def State.wr (s : State) (p pa : Nat) (bs : List Byte) : State :=
  let a := s.pod p pa
  let out (x : Nat) : Bool := x < a || a + bs.length ≤ x
  { s with mem := memPut s.mem a bs, uce := s.uce.filter out, sbe := s.sbe.filter out }

/-- A read of bytes meets an uncorrectable error (R162). -/
def State.uceAt (s : State) (p pa n : Nat) : Bool := s.uce.any fun x => s.pod p pa ≤ x && x < s.pod p pa + n

/-- Single-bit errors of the bytes read are corrected, counted and reported (R162). -/
def State.correct (s : State) (p pa n : Nat) : State :=
  let hit (x : Nat) : Bool := s.pod p pa ≤ x && x < s.pod p pa + n
  (s.sbe.filter hit).foldl (fun s x => s.notice p 7 (x % 2 ^ 48) 0) { s with sbe := s.sbe.filter fun x => !hit x }

/-- Single-bit errors of accumulator words read are corrected, counted and reported (R162); the error lists hold word i of `acc` as
2^60 + i. -/
def State.correctAcc (s : State) (p a n : Nat) : State :=
  let hit (x : Nat) : Bool := 2 ^ 60 + a ≤ x && x < 2 ^ 60 + a + n
  (s.sbe.filter hit).foldl (fun s x => s.notice p 7 x 0) { s with sbe := s.sbe.filter fun x => !hit x }

/-- Accumulator words written: the code words are new (R162). -/
def State.accWrite (s : State) (a : Nat) (ws : List Word) : State :=
  let out (x : Nat) : Bool := x < 2 ^ 60 + a || 2 ^ 60 + a + ws.length ≤ x
  { s with acc := accPut s.acc a ws, uce := s.uce.filter out, sbe := s.sbe.filter out }

/-- A read of accumulator words meets an uncorrectable error (R162). -/
def State.accBad (s : State) (a n : Nat) : Bool := s.uce.any fun x => 2 ^ 60 + a ≤ x && x < 2 ^ 60 + a + n

/-- The index in `acc` of word e of the a-tile of a core (R18). -/
def accIx (p c tile e : Nat) : Nat := ((256 * p + c) * 192 + tile) * 4096 + e

/-- Torus hops between two quads (R151). -/
def hops (c1 c2 : Nat) : Nat :=
  let d (a b : Nat) : Nat := let x := if a ≤ b then b - a else a - b; min x (8 - x)
  d (c1 / 4 % 8) (c2 / 4 % 8) + d (c1 / 32) (c2 / 32)

/-- Die crossings between two cores (R151). -/
def dieX (c1 c2 : Nat) : Nat := if c1 / 128 = c2 / 128 then 0 else 1

/-- 3h + 12·x_d (R151). -/
def torus (c1 c2 : Nat) : Nat := 3 * hops c1 c2 + 12 * dieX c1 c2

/-! ## Masks -/

def maskBit (m : Mask) (l : Nat) : Bool := m.getLsbD l
def maskOf (ls : List Nat) : Mask := ls.foldl (fun m l => m ||| (1 : Mask) <<< l) 0
def maskLanes (m : Mask) (n : Nat) : List Nat := (List.range n).filter (maskBit m)

/-- Every lane of a team of w warps. -/
def fullMask (w : Nat) : Mask := BitVec.ofNat 1024 (2 ^ (32 * w) - 1)

/-! ## Packets to device memory -/

/-- A packet that arrives at the pseudo-channels in a later cycle; the key is its place in R154. -/
def State.gatherAt (s : State) (p cyc : Nat) (key : List Nat) (segs : List (Nat × Seg)) : State :=
  let (i, s) := s.fresh
  let s : State := { s with gathers := s.gathers ++ [⟨i, p, segs⟩] }
  s.at cyc pChan (key ++ [i]) (.gatherPacketArrival i)

/-! ## Notices and trap records (R326, R363) -/

/-- The 32 bytes of a trap record (R326). -/
def Record.bytes (r : Record) : List Byte :=
  let core := if r.core = 256 then 255 else r.core
  natBytes 8 r.wtc ++ natBytes 4 r.seq ++
    natBytes 4 (core + r.slot * 2 ^ 8 + (if r.imp then 2 ^ 15 else 0) + r.cause * 2 ^ 16 + r.level * 2 ^ 21 + r.ctx % 256 * 2 ^ 24) ++
    natBytes 4 r.tval.toNat ++ natBytes 4 r.tvalh.toNat ++ natBytes 4 r.tepc.toNat ++ natBytes 4 r.tpass.toNat

/-- A record's write leaves the hub for the next place of the package's trap record ring (R154, R326; entry 27). -/
def State.writeRecord (s : State) (r : Record) : State :=
  let x := s.pkg r.pkg
  let pa := x.recBase + 32 * (x.recNext % 2 ^ x.recLog)
  (s.modPkg r.pkg fun y => { y with recNext := y.recNext + 1 }).gatherAt r.pkg (s.wtc + 200) [1, 1]
    [(pa, ⟨0, 0, 1, false, .trapRec pa x.recNext r.bytes⟩)]

/-- A trap record is made and written: the sequence number counts per core; core 256 stands for the hub, which a record shows as
0xFF. -/
def State.record (s : State) (p cyc core slot : Nat) (imp : Bool) (cause level ctx : Nat)
    (tval tvalh tepc tpass : Word) : State :=
  let seq := if core = 256 then
      (s.records.filter (fun r => r.pkg = p && r.core = 256)).length
    else (s.core p core).seq
  let s := if core = 256 then s else s.modCore p core (fun x => { x with seq := x.seq + 1 })
  let r : Record := ⟨p, cyc, seq, core, slot, imp, cause, level, ctx, tval, tvalh, tepc, tpass⟩
  ({ s with records := s.records ++ [r] } : State).writeRecord r

/-! ## Causes (R308) -/

def cIDZ : Nat := 0x01
def cFPE : Nat := 0x02
def cILL : Nat := 0x03
def cREG : Nat := 0x04
def cFDV : Nat := 0x05
def cBMM : Nat := 0x06
def cMMX : Nat := 0x07
def cTRN : Nat := 0x08
def cPRT : Nat := 0x09
def cALN : Nat := 0x0A
def cRFL : Nat := 0x0B
def cSWT : Nat := 0x0C
def cSCH : Nat := 0x0D
def cWDG : Nat := 0x0E
def cUCE : Nat := 0x0F
def cTLX : Nat := 0x10
def cDBG : Nat := 0x11

/-- A switch that waits will not take place: its request is answered (R374; entry 94). -/
def State.dropSwitch (s : State) (g : Nat) : State :=
  match s.gang? g with
  | none => s
  | some x => (s.respondTo x.pkg (x.switch.bind (·.tag)) 2).modGang g fun y => { y with switch := none }

/-! ## Killing a gang (R309, R322) -/

/-- A kill of the gang at cycle k, with what its TLX records hold: the earliest kill stands. `bank` holds what the trap of
team `t` would have banked (R339). -/
def State.requestKill (s : State) (g k : Nat) (cause : Word) (imp : Bool) (bank : Option (Nat × Nat)) (t : Nat) : State :=
  match s.gang? g with
  | none => s
  | some x =>
    if x.ended ≠ 0 || x.killAt.any (· ≤ k) then s
    else (s.modGang g fun y =>
      { y with killAt := some k, killCause := cause, killImp := imp, killBank := bank, killTeam := t }).at k pKill [g]
        (.gangKill g 0)

/-! ## Taking a trap (R310 to R313) -/

def Team.bank (t : Team) (l : Nat) : Bank := if l = 1 then t.bank1 else t.bank2

def Team.setBank (t : Team) (l : Nat) (b : Bank) : Team :=
  if l = 1 then { t with bank1 := b } else { t with bank2 := b }

/-- A frame or store put into a core's staging buffer at cycle c, performed at c + 20 (R149). -/
def State.stageOp (s : State) (team p core c base level : Nat) (o : Origin) (op : StagedOp) : State :=
  let (i, s) := s.fresh
  let ev : Instr := match op with
    | .bytes _ | .frame _ _ | .acc _ => .stagedStorePerformed i
    | .atomic _ => .lsAtomicPerformed i
    | _ => .barrierObjectUpdate i
  let s : State := { s with staged := s.staged ++ [⟨i, team, p, core, c, base, level, o, op⟩] }
  s.at (c + (match op with | .acc _ => 1 | _ => 20)) pLane [core, i] ev

/-- The 132 bytes of a trap frame (R310). -/
def frameBytes (t : Team) : List Byte := natBytes 128 t.active.toNat ++ natBytes 4 t.stack.length

/-- TCAUSE (R314). -/
def tcauseWord (cause : Nat) (imp mult : Bool) : Word :=
  BitVec.ofNat 32 (cause + (if imp then 256 else 0) + if mult then 512 else 0)

/-- The trap that replaces one whose level cannot be entered (R310). -/
def replaceTrap (e : TeamEvent) (cause : Nat) (tval : Word) : TeamEvent :=
  { e with cause := cause, imp := false, mult := false, tval := tval, tvalh := 0, tlm := 0, words := 0 }

/-- The cycle in which the event of a trap was raised, as its record is stamped (R326): the end e of the clause for a precise
trap and for `trap` and `dbrk`; the hit cycle for a watchpoint, whose trap can be taken from the next cycle on (R325). -/
def TeamEvent.stamp (ev : TeamEvent) (e : Nat) : Nat :=
  if ev.order = 1 || ((ev.cause = cSWT || ev.cause = cDBG) && ev.tval.getLsbD 31) then e
  else if ev.cause = cDBG && ev.imp then ev.x - 1
  else ev.x

/-- The team enters the level above `tl` for an event, or its gang is killed (R309, R310). `fuel` counts the levels that
may still be tried; `e` is the cycle of R310, `at_` the record's stamp. -/
def State.enter (fuel : Nat) (s : State) (t : Team) (tl e at_ : Nat) (ev : TeamEvent) : State :=
  let level := tl + 1
  let kill : State :=
    (s.modTeam t.id fun x => { x with stopped := true }).requestKill t.pl.gang (e + 1) (BitVec.ofNat 32 ev.cause) ev.imp
      (some (ev.epc, ev.pass)) t.id
  match fuel with
  | 0 => kill
  | fuel + 1 =>
    if 2 ≤ tl then kill
    else
      let b := t.bank level
      let vec := b.vec.toNat % 65536
      if !b.vec.getLsbD 31 then kill
      else if t.pl.lsBytes < b.save.toNat + 512 then
        s.enter fuel t level e at_ (replaceTrap ev cPRT b.save)
      else if !(s.gangStarts t.pl.gang).contains vec then
        s.enter fuel t level e at_ (replaceTrap ev cILL b.vec)
      else
        let skid := if ev.imp then min (t.wordsDone - ev.words) (2 ^ 32 - 1) else 0
        let b' : Bank := ⟨tcauseWord ev.cause ev.imp ev.mult, BitVec.ofNat 32 ev.epc, BitVec.ofNat 32 ev.pass, ev.tval,
          ev.tvalh, BitVec.ofNat 32 skid, b.save, b.vec, ev.tlm⟩
        let s := s.modTeam t.id fun x =>
          { x.setBank level b' with tl := level, pc := vec, readyAt := max x.readyAt (e + 9), waits := [],
                                    resume := none }
        let s := s.stageOp t.id t.pl.pkg t.pl.core e t.pl.lsBase level ⟨t.wordsDone, t.pc, 0, 0⟩ (.frame b.save.toNat (frameBytes t))
        s.record t.pl.pkg at_ t.pl.core t.pl.slot ev.imp ev.cause
          level (s.gangCtx t.pl.gang) ev.tval ev.tvalh b'.epc b'.pass

/-- The event may be taken at the team's level (R312): imprecise faults wait for their own level. -/
def TeamEvent.takeable (e : TeamEvent) (tl : Nat) : Bool := e.order ≠ 4 || tl ≤ e.level

/-- The event taken first (R313): least order, then first in the list. -/
def firstEvent (tl : Nat) (l : List TeamEvent) : Option TeamEvent :=
  (l.filter (·.takeable tl)).foldl (fun acc e =>
    match acc with
    | none => some e
    | some a => some (if e.order < a.order then e else a)) none

/-- An event reaches a team in cycle x (R312). A further fault of a tag that is already pending sets MULT. -/
def State.postEvent (s : State) (t : Nat) (ev : TeamEvent) : State :=
  match s.team? t with
  | none => s
  | some tm =>
    if tm.ended || tm.stopped then s
    else if ev.order = 4 && tm.events.any (fun e => e.order = 4 && e.level = ev.level) then
      s.modTeam t fun x => { x with events := x.events.map fun e =>
        if e.order = 4 && e.level = ev.level then { e with mult := true } else e }
    else s.modTeam t fun x => { x with events := x.events ++ [ev] }

/-- No clause of the team will follow in this cycle or the next: its gang is switched out, or its lanes have all exited. -/
def State.outOfTurn (s : State) (t : Team) : Bool :=
  t.live = 0 || (match s.gang? t.pl.gang with | some g => g.state ≠ .run | none => false)

/-- An imprecise fault reaches a team (R312, R326, R338): it is recorded when it is held or dropped, and where its team has stopped
or ended. The event keeps the clause, pass and word of its access. -/
def State.fault (s : State) (t level cause : Nat) (tval tvalh : Word) (tlm : Mask) (words hdr pass pos : Nat) : State :=
  match s.team? t with
  | none => s
  | some tm =>
    let note (s : State) : State :=
      s.record tm.pl.pkg s.wtc tm.pl.core tm.pl.slot true cause 0 (s.gangCtx tm.pl.gang) tval tvalh (BitVec.ofNat 32 hdr)
        (BitVec.ofNat 32 (pass + 256 * pos))
    if tm.stopped || tm.ended then note s
    else
      let tag := min level tm.tl
      let pend := tm.events.any (fun e => e.order = 4 && e.level = tag)
      let busy := match (s.core tm.pl.pkg tm.pl.core).run with
        | some r => r.team = t
        | none => false
      let held := pend || tag < tm.tl || busy || s.outOfTurn tm
      let kills := !pend && tag = tm.tl && !s.outOfTurn tm && (2 ≤ tm.tl || !(tm.bank (tm.tl + 1)).vec.getLsbD 31)
      let s := if held && !kills then note s else s
      s.postEvent t ⟨4, cause, true, false, tval, tvalh, tlm, tag, s.wtc, hdr, pass + 256 * pos, words, held⟩

/-- The address words of an address (R308). -/
def addrLo (a : Nat) : Word := BitVec.ofNat 32 a
def addrHi (a : Nat) : Word := BitVec.ofNat 32 (a / 2 ^ 32)

/-! ## Watchpoints (R324, R325) -/

/-- The agents a watchpoint tells apart (R324). -/
inductive Agent where
  | lane (team core words : Nat) | engine (src core : Nat) | remote (pkg : Nat) | spill (core : Nat)
  deriving DecidableEq, Repr

/-- The lowest offset of an access a team's watchpoint hits, if any. -/
def watchHit (t : Team) (off n : Nat) (write : Bool) : Option Nat :=
  let c := t.csr.wpctl.toNat
  let k := c / 16 % 16
  let lo := t.pl.lsBase + t.csr.wpaddr.toNat
  if c % 2 = 1 && 2 ≤ k && k ≤ 12 && (if write then c / 4 % 2 = 1 else c / 2 % 2 = 1) && off < lo + 2 ^ k &&
      lo < off + n then
    some (max off lo - t.pl.lsBase)
  else none

/-- WPHIT after a foreign hit (R324). -/
def wphitAfter (old : Word) (src id now : Nat) (write : Bool) : Word :=
  if old.getLsbD 0 then old ||| 2
  else BitVec.ofNat 32 (1 + src * 4 + (if write then 32 else 0) + id % 256 * 256 + now % 65536 * 65536)

/-- A hit by the team's own lane (R325): DBG, once, with the lowest offset hit. -/
def State.watchEvent (s : State) (t o words : Nat) : State :=
  match s.team? t with
  | none => s
  | some tm =>
    if tm.events.any fun e => e.order = 5 && e.cause = cDBG && e.imp then
      s.modTeam t fun x => { x with events := x.events.map fun e =>
        if e.order = 5 && e.cause = cDBG && e.imp then
          { e with tval := BitVec.ofNat 32 (min o e.tval.toNat), words := min words e.words } else e }
    else s.postEvent t ⟨5, cDBG, true, false, BitVec.ofNat 32 o, 0, 0, tm.tl, s.wtc + 1, 0, 0, words, false⟩

/-- A gang that is OUT holds nothing on its cores (R327). -/
def State.gangOut (s : State) (g : Nat) : Bool := match s.gang? g with | some x => x.state = .out | none => false

/-- An access performed at an LS bank of a core meets the watchpoints of the teams there. -/
def State.watch (s : State) (p c off n : Nat) (write : Bool) (a : Agent) : State :=
  (s.teams.filter fun t =>
    t.pl.pkg = p && t.pl.core = c && !t.ended && t.csr.wpctl.getLsbD 0 && !s.gangOut t.pl.gang).foldl (fun s t =>
    match watchHit t off n write with
    | none => s
    | some o =>
      let own : Option Nat := match a with
        | .lane k _ words => if k = t.id then some words else none
        | _ => none
      match own with
      | some words => s.watchEvent t.id o words
      | none =>
        let (src, id) := match a with
          | .lane _ core _ => (0, core)
          | .engine k core => (k, core)
          | .remote k => (5, k)
          | .spill core => (6, core)
        (s.modTeam t.id fun x => { x with csr := { x.csr with wphit := wphitAfter x.csr.wphit src id s.wtc write } }).notice
          p 3 t.id o) s

/-- A read of package memory by an agent: single-bit errors are corrected (R162), and at an LS it meets the watchpoints (R325). -/
def State.meetRead (s : State) (p pa n : Nat) (a : Agent) : State :=
  let s := s.correct p pa n
  match homeOf pa with
  | .ls c off => s.watch p c off n false a
  | _ => s

/-! ## Barrier objects (R193 to R196) -/

/-- The completion test (R195) on the object at a package-local address, its single-bit errors corrected; an object with an
uncorrectable error completes no phase (R162; DESIGN CHOICE, entry 97). -/
def State.complete (s : State) (p pa : Nat) : State :=
  let s := s.correct p pa 16
  let arr := s.rd p (pa + 4) 2
  let exparr := s.rd p (pa + 6) 2
  let expb := s.rd p (pa + 8) 4
  let bytes := s.rd p (pa + 12) 4
  if arr = exparr && expb ≤ bytes && !s.uceAt p pa 16 then
    let s := s.wr p pa (natBytes 4 (s.rd p pa 4 + 1))
    let s := s.wr p (pa + 4) (natBytes 2 0)
    s.wr p (pa + 12) (natBytes 4 0)
  else s

/-- The object is known to the model (entry 19). -/
def State.knowObj (s : State) (p pa : Nat) : State :=
  let k := (p, pa)
  if s.objs.contains k then s else { s with objs := s.objs ++ [k] }

/-- Bytes written to an LS by an agent other than a lane, an object there being memory like any other (R193). -/
def State.lsPut (s : State) (p c off : Nat) (bs : List Byte) (a : Agent) : State :=
  (s.wr p (lsPa c off) bs).watch p c off bs.length true a

/-- A lane write to LS bytes, and the completion test of every object it touches (R194). -/
def State.lsWrite (s : State) (p c off : Nat) (bs : List Byte) (a : Agent) : State :=
  let pa := lsPa c off
  let s := s.wr p pa bs
  let s := (s.objs.filter fun o => o.1 = p && o.2 < pa + bs.length && pa < o.2 + 16).foldl
    (fun s o => s.complete o.1 o.2) s
  s.watch p c off bs.length true a

/-- A byte credit of an engine, a receive or `bcred` (R194, R199); one that meets an uncorrectable error is lost (entry 97). -/
def State.credit (s : State) (p c off x : Nat) : State :=
  let pa := lsPa c off
  let s := (s.knowObj p pa).correct p pa 16
  if s.uceAt p pa 16 then s
  else
  let s := s.wr p (pa + 12) (natBytes 4 (min (s.rd p (pa + 12) 4 + x) (2 ^ 32 - 1)))
  s.complete p pa

/-- The wait condition (PHASE − g) mod 2³² ∈ [1, 2³¹) (R196). -/
def phasePast (phase given : Word) : Bool :=
  let d := (phase - given).toNat
  1 ≤ d && d < 2 ^ 31

end Sys2Proof.Machine
end

