-- ==== Sys2Proof/Machine/Operands.lean ====
section
/-! DEFINITION. Reading operands within a pass (R38 to R41, R45, R46), and the step from one word of a pass to the next.
A pass reads registers as they stand when it is evaluated, which is its first cycle. -/

namespace Sys2Proof.Machine

/-- A team with nothing in it, for reading a number that names no team. -/
def Team.none : Team :=
  { id := 0, pl := ⟨0, 0, 0, 0, 0, 0, 1, 0, 0, 0, 0, 0, 0, 0, 0, 0, 0, 0⟩, pc := 0, active := 0, live := 0, stack := [],
    vr := [], ur := [], pr := [], gp := [], sb := [0, 0, 0, 0], csr := .reset, shadow := Option.none, tl := 0,
    bank1 := .reset, bank2 := .reset, formed := [], resume := Option.none, waits := [], readyAt := 0, ePrev := 0,
    startAt := 0, barnCount := [], events := [], wordsDone := 0, region := false, rounds := 0, stopped := false,
    ended := true }

/-- The team a pass belongs to. -/
def State.teamOf (s : State) (c : Cur) : Team := (s.team? c.team).getD Team.none

def Team.v (t : Team) (n l : Nat) : Word := (t.vr.getD n []).getD l 0
def Team.g (t : Team) (n : Nat) : Word := t.ur.getD n 0

/-- Lane predicate q of a lane; p7 reads true (R18). -/
def Team.p (t : Team) (q : BitVec 3) (l : Nat) : Bool := q = 7 || maskBit (t.pr.getD q.toNat 0) l

/-- Uniform predicate; gp7 reads true (R18). -/
def Team.up (t : Team) (q : BitVec 3) : Bool := q = 7 || t.gp.getD q.toNat false

/-- The uniform register code n of a window names (R39). -/
def uix (win n : Nat) : Nat := (8 * win + n) % 512

/-- The literal: the word after the one being read (R41). -/
def Cur.literal (c : Cur) : Word := (c.words.drop 1).headD 0

/-- Latch bn (1 to 4) at a place of the pass's lane list (R46). -/
def Cur.latch (c : Cur) (n i : Nat) : Word := (c.latches.getD (n - 1) []).getD i 0

/-- The place of a lane in the pass's lane list. -/
def Cur.place (c : Cur) (l : Nat) : Nat := c.lanes.findIdx (· = l)

/-- A source operand of a LANE or MEM word in a lane (R38). -/
def laneOp (t : Team) (c : Cur) (code : BitVec 7) (l : Nat) : Word :=
  let n := code.toNat
  if n < 112 then t.v n l
  else if n < 120 then t.g (8 * c.win + (n - 112))
  else if n = 120 then 0
  else if n = 121 then BitVec.ofNat 32 l
  else if n = 122 then c.literal
  else if n = 123 then 0
  else c.latch (n - 123) (c.place l)

/-- A source operand of a UNIF, SYNC, FLOW or SYS word (R39). -/
def unifOp (t : Team) (c : Cur) (code : BitVec 7) : Word :=
  let n := code.toNat
  if n < 112 then t.g (uix c.win n)
  else if n = 121 then BitVec.ofNat 32 t.pl.tib
  else if n = 122 then c.literal
  else if 123 < n then c.latch (n - 123) 0
  else 0

/-- A source operand of a format A word in its class. -/
def srcOp (t : Team) (c : Cur) (code : BitVec 7) (l : Nat) : Word :=
  if c.cls = .unif then unifOp t c code else laneOp t c code l

/-- The guard of a format A word: `p[PR]` in LANE clauses, `gp[PR]` in UNIF clauses, negated by PN (R50). -/
def guardA (t : Team) (c : Cur) (pn : Bool) (pr : BitVec 3) (l : Nat) : Bool :=
  (if c.cls = .unif then t.up pr else t.p pr l) != pn

/-- A predicate named by a format A word: lane or uniform (R88). -/
def predA (t : Team) (c : Cur) (q : BitVec 3) (l : Nat) : Bool := if c.cls = .unif then t.up q else t.p q l

/-- The guard of a uniform word (R52 to R54). -/
def guardU (t : Team) (pn : Bool) (pr : BitVec 3) : Bool := t.up pr != pn

/-- Register D at the start of the pass: 0 for a queue destination (R46). -/
def dOld (t : Team) (c : Cur) (d : BitVec 7) (l : Nat) : Word :=
  if d.toNat < 112 then (if c.cls = .unif then t.g (uix c.win d.toNat) else t.v d.toNat l) else 0

/-- A word names code 122 in one of its operand fields (R41). -/
def usesLit (codes : List (BitVec 7)) : Bool := codes.any (·.toNat = 122)

/-- The evaluation moved past an instruction word and its literal, with the cycles they cost (R41, R44). -/
def Cur.past (c : Cur) (lit : Bool) (cost : Nat) : Cur :=
  { c with words := c.words.drop (if lit then 2 else 1), pos := c.pos + (if lit then 2 else 1), nth := c.nth + 1,
           off := c.off + cost + (if lit then 1 else 0), count := c.count + 1 }

/-- The latches shifted, b1 taking a value for each lane of the pass (R46). -/
def Cur.shift (c : Cur) (l : List Word) : Cur := { c with latches := l :: c.latches.take 3 }

/-- Something the word does at commit, behind what the words before it do (R45). -/
def Cur.act (c : Cur) (a : Act) : Cur := { c with acts := c.acts ++ [a] }

/-- A precise trap of this word; the first in word order stands (R47, R134). -/
def Cur.raise (c : Cur) (cause : Nat) (tval tvalh : Word) (tlm : Mask) : Cur :=
  match c.trap with
  | some _ => c
  | none => { c with trap := some ⟨c.pos, cause, tval, tvalh, tlm⟩ }

/-- The mask of lanes a trap marks: none in a UNIF clause (R93, R134). -/
def Cur.tlm (c : Cur) (ls : List Nat) : Mask := if c.cls = .lane || c.cls = .mem then maskOf ls else 0

/-- A word meaning applied to the pass under evaluation. -/
def onCur (s : State) (f : Team → Cur → Cur) : Out :=
  match s.ev with
  | none => .fault .noClause
  | some c => .next (s.setEv (some (f (s.teamOf c) c)))

end Sys2Proof.Machine
end

