-- ==== Sys2Proof/Machine/Translate.lean ====
section
/-! DEFINITION. Address translation (R144 to R147) and the page-table entry (R146). -/

namespace Sys2Proof.Machine

/-- The permissions an access can need (R144, R145). -/
inductive Perm where
  | rd | wr | at_ | ex
  deriving DecidableEq, Repr

/-- A translation: a physical address with its target code, a fault's cause, or a page to walk. -/
inductive Xl where
  | ok (pa tgt : Nat)
  | fault (cause : Nat)
  | walk
  deriving DecidableEq, Repr

def rangeGrants (e : RangeEntry) : Perm → Bool
  | .rd => e.rd
  | .wr => e.wr
  | .at_ => e.at_
  | .ex => e.ex

def TlbEntry.grants (e : TlbEntry) : Perm → Bool
  | .rd => e.rd
  | .wr => e.wr
  | .at_ => e.at_
  | .ex => false

/-- The range entry that covers an address: the lowest-numbered valid one (R145 step 1). -/
def Ctx.range? (x : Ctx) (va : Nat) : Option RangeEntry :=
  x.ranges.find? fun e => e.v && e.base ≤ va && va < e.limit

/-- The context of a team is privileged (R307). -/
def State.priv (s : State) (t : Team) : Bool :=
  match s.ctx? t.pl.pkg (s.gangCtx t.pl.gang) with | some x => x.priv | none => false

/-- Translation of one address for a core (R145). A context that does not exist maps nothing. -/
def State.xlate (s : State) (p core ctx va : Nat) (need : Perm) : Xl :=
  match s.ctx? p ctx with
  | none => .fault cTRN
  | some x =>
    match x.range? va with
    | some e => if rangeGrants e need then .ok ((e.pbase + (va - e.base)) % 2 ^ 56) e.tgt else .fault cPRT
    | none =>
      match (s.core p core).tlb.find? (fun e => e.ctx = ctx && e.page ≤ va && va < e.page + e.size) with
      | some e => if e.grants need then .ok (e.pa + (va - e.page)) e.tgt else .fault cPRT
      | none => .walk

/-- Translation by range entries alone, as clause fetch and the admitter make it (R144, R146). -/
def State.xlateRange (s : State) (p ctx va : Nat) (need : Perm) : Xl :=
  match s.ctx? p ctx with
  | none => .fault cTRN
  | some x =>
    match x.range? va with
    | some e => if rangeGrants e need then .ok ((e.pbase + (va - e.base)) % 2 ^ 56) e.tgt else .fault cPRT
    | none => .fault cTRN

/-- Where a translated access goes (R144, R145). -/
inductive Dest where
  | here (pa : Nat)
  | away (pa : Nat)
  | host (iova : Nat)
  | ual (pa : Nat)
  deriving DecidableEq, Repr

/-- The destination of a translated address: a pod address of the own package is local (R145). A package-local address
in the host window names the I/O address at its offset (entry 31). -/
def State.dest (s : State) (p pa tgt : Nat) : Dest :=
  let loc (x : Nat) : Dest := match homeOf x with
    | .host => .host (x - 0xA00000000000)
    | .ual _ => .ual x
    | _ => .here x
  if tgt = 0 then loc pa
  else if tgt = 1 then (if pa / 2 ^ 48 = (s.pkg p).num then loc (pa % 2 ^ 48) else .away pa)
  else if tgt = 2 then .host pa
  else .ual pa

/-- The package-local address of a read by the admitter or the service (R76, R79): only device memory and LS of the own
package answer. -/
def State.ownRead (s : State) (p : Nat) (x : Xl) : Option Nat :=
  match x with
  | .ok pa tgt =>
    match s.dest p pa tgt with
    | .here a => match homeOf a with | .hbm => some a | .ls _ _ => some a | _ => none
    | _ => none
  | _ => none

/-- An entry of a page table (R146). -/
inductive Pte where
  | bad
  | next (table : Nat)
  | leaf (e : TlbEntry)
  deriving DecidableEq, Repr

/-- The index into the table of a level (R146). -/
def pteIndex (level va : Nat) : Nat :=
  if level = 3 then va / 2 ^ 39 % 131072 else va / 2 ^ (12 + 9 * level) % 512

/-- The page size of a leaf: by level, 64 KiB with C (R146). -/
def leafSize (level : Nat) (c : Bool) : Nat := if c then 65536 else 4096 * 512 ^ level

/-- The meaning of an entry read at a level for an address (R146). -/
def readPte (ctx level va x : Nat) : Pte :=
  let b (k : Nat) : Bool := x / 2 ^ k % 2 = 1
  let pa := x % 2 ^ 56 / 4096 * 4096
  if !b 0 || x / 256 % 16 ≠ 0 || x / 2 ^ 56 ≠ 0 || (b 5 && level ≠ 0) then .bad
  else if b 1 then
    let size := leafSize level (b 5)
    if level = 3 || pa % size ≠ 0 then .bad
    else .leaf ⟨ctx, va / size * size, size, pa, b 2, b 3, b 4, x / 64 % 4⟩
  else if level = 0 then .bad
  else .next pa

/-- A page put into a core's translation buffer, first in first out (R147). A page it already holds is renewed in its old place in that
order (DESIGN CHOICE, entry 100). -/
def State.fillTlb (s : State) (p c : Nat) (e : TlbEntry) : State :=
  s.modCore p c fun x =>
    if x.tlb.any (fun o => o.ctx = e.ctx && o.page = e.page && o.size = e.size) then
      { x with tlb := x.tlb.map fun o => if o.ctx = e.ctx && o.page = e.page && o.size = e.size then e else o }
    else { x with tlb := (if x.tlb.length < 1024 then x.tlb else x.tlb.drop 1) ++ [e] }

end Sys2Proof.Machine
end

