-- ==== Sys2Proof/Machine/Access.lean ====
section
/-! DEFINITION. Memory accesses of lanes between commit and home: performing them (R148 to R157, R165 to R168), landing
data and counting scoreboards (R48), faults (R163), atomics (R167), and the fences' view of them (R204). -/

namespace Sys2Proof.Machine

/-! ## Atomics (R167) -/

def toF (x : Nat) : Word := BitVec.ofNat 32 x

/-- Addition of BF16 halves (R167): the exact sum rounded once to BF16. -/
def bf16Add (a b : Word) : Word :=
  match f32 (a <<< 16), f32 (b <<< 16) with
  | .fin n1 m1 e1, .fin n2 m2 e2 =>
    let (k, e) := sumExact n1 m1 e1 n2 m2 e2
    if k = 0 then 0 else toF (convTo .bf16 false false (.fin (k < 0) k.natAbs e)).1
  | _, _ => (fAdd .rne (a <<< 16) (b <<< 16)).1 >>> 16

/-- What the word at the home receives (R167). `cmp` is the expected value of `cas`. -/
def atomic (op : AOp) (m x cmp : Word) : Word :=
  match op with
  | .add => m + x
  | .minS => if m.toInt ≤ x.toInt then m else x
  | .maxS => if m.toInt ≤ x.toInt then x else m
  | .minN => if m.toNat ≤ x.toNat then m else x
  | .maxN => if m.toNat ≤ x.toNat then x else m
  | .and => m &&& x
  | .or => m ||| x
  | .xor => m ^^^ x
  | .xchg => x
  | .cas => if m = cmp then x else m
  | .fadd => (fAdd .rne m x).1
  | .fmin => (fMinMax false m x).1
  | .fmax => (fMinMax true m x).1
  | .bfadd2 => bf16Add (m &&& 0xFFFF) (x &&& 0xFFFF) ||| (bf16Add (m >>> 16) (x >>> 16) <<< 16)

/-! ## Landing data and scoreboards (R48) -/

/-- The registers a loaded value fills, D first (R165). -/
def landVals (n : Nat) (sx : Bool) (x : Nat) : List Word :=
  if n = 1 then [if sx then (BitVec.ofNat 8 x).signExtend 32 else BitVec.ofNat 32 (x % 256)]
  else if n = 2 then [if sx then (BitVec.ofNat 16 x).signExtend 32 else BitVec.ofNat 32 (x % 65536)]
  else (List.range (n / 4)).map fun k => BitVec.ofNat 32 (x / 2 ^ (32 * k))

/-- Registers d up of a lane written. -/
def setRegs : List (List Word) → Nat → Nat → List Word → List (List Word)
  | v, _, _, [] => v
  | v, d, l, x :: xs => setRegs (v.modify d fun r => r.set l x) (d + 1) l xs

def Team.decSb (t : Team) (k : Nat) : Team := { t with sb := t.sb.modify k (· - 1) }
def Team.incSb (t : Team) (k : Nat) : Team := { t with sb := t.sb.modify k (· + 1) }

/-- The lane needs nothing more. -/
def LaneReq.over (q : LaneReq) : Bool := q.st = .done || q.st = .faulted

/-- The lane's access has been performed at its home, or counts as performed (R338). -/
def LaneReq.atHome (q : LaneReq) : Bool := q.st = .done || q.st = .faulted || q.st = .performed

def Flight.over (f : Flight) : Bool := f.lanes.all (·.over)

/-- A flight whose last lane is finished leaves, and its counter falls by one (R48); stores do not count. -/
def State.settle (s : State) (i : Nat) : State :=
  match s.flight? i with
  | none => s
  | some f =>
    if !f.over then s
    else
      let s : State := { s with flights := s.flights.filter (·.id ≠ i) }
      if f.kind = .store then s else s.modTeam f.team (·.decSb f.sb)

/-- The lanes of a flight, changed. -/
def State.modLanes (s : State) (i : Nat) (g : LaneReq → LaneReq) : State :=
  s.modFlight i fun f => { f with lanes := f.lanes.map g }

/-- Data of some lanes of a flight is written to the registers in a later cycle. -/
def State.landAt (s : State) (i cyc : Nat) (lanes : List Nat) : State :=
  match lanes with
  | [] => s
  | _ =>
    let (l, s) := s.fresh
    let s : State := { s with landings := s.landings ++ [⟨l, i, lanes⟩] }
    s.at cyc pLand [l] (.loadDataWritten l)

/-! ## Performing accesses at their homes -/

/-- The agent a lane's access is to watchpoints. -/
def Flight.agent (f : Flight) : Agent := .lane f.team f.core f.words

/-- A read at a home, with what errors do to it (R162). The read of an atomic meets no watchpoint of its own: an atomic is a write
to them (R324). -/
def State.readLane (s : State) (f : Flight) (q : LaneReq) (n : Nat) : State × LaneReq :=
  if s.uceAt f.pkg q.home n then (s, { q with st := .err, got := cUCE, due := s.wtc })
  else
    let s := if f.kind = .load then s.meetRead f.pkg q.home n f.agent else s.correct f.pkg q.home n
    (s, { q with st := .performed, got := s.rd f.pkg q.home n })

/-- A write at a home. -/
def State.writeLane (s : State) (f : Flight) (home : Nat) (bs : List Byte) : State :=
  match homeOf home with
  | .ls c off => s.lsWrite f.pkg c off bs f.agent
  | _ => s.wr f.pkg home bs

/-- One lane's access performed at its home (R165 to R167). -/
def State.performLane (s : State) (f : Flight) (q : LaneReq) : State × LaneReq :=
  match f.kind with
  | .load => s.readLane f q f.n
  | .store => (s.writeLane f q.home (natBytes f.n q.data), { q with st := .done })
  | .atomF =>
    let (s, q) := s.readLane f q 4
    if q.st = .err then (s, q)
    else (s.writeLane f q.home (natBytes 4 (atomic f.aop (toF q.got) (toF q.data) (toF q.cmp)).toNat), q)
  | .atomN =>
    let (s, q) := s.readLane f q 4
    if q.st = .err then (s, q)
    else (s.writeLane f q.home (natBytes 4 (atomic f.aop (toF q.got) (toF q.data) (toF q.cmp)).toNat),
      { q with st := .done })

/-- The lanes a flight performs together, in ascending team lane index (R150, R152, R153). -/
def performAll (f : Flight) (pick : LaneReq → Bool) : State → List LaneReq → State × List LaneReq
  | s, [] => (s, [])
  | s, q :: qs =>
    let (s, q') := if pick q then s.performLane f q else (s, q)
    let (s, r) := performAll f pick s qs
    (s, q' :: r)

/-- Lanes of a flight performed now: data lands `delay` cycles later, faults are reported at once. -/
def State.performLanes (s : State) (i delay : Nat) (pick : LaneReq → Bool) : State :=
  match s.flight? i with
  | none => s
  | some f =>
    let (s, qs) := performAll f pick s f.lanes
    let s := s.modFlight i fun f => { f with lanes := qs }
    let now := ((f.lanes.zip qs).filter fun z => pick z.1).map (·.2)
    let s := s.landAt i (s.wtc + delay) ((now.filter (·.st = .performed)).map (·.lane))
    let s := if now.any (·.st = .err) then s.at s.wtc pLand [i] (.faultReport i) else s
    s.settle i

/-! ## The HBM4 address hash (R158) -/

/-- Parity of the PA bits a mask selects. -/
def parity (mask : Word) (pa : Nat) : Nat :=
  ((List.range 32).foldl (fun x i => if mask.getLsbD i && pa / 2 ^ (i + 7) % 2 = 1 then x + 1 else x) 0) % 2

/-- The pseudo-channel of an address: stack · 64 + channel · 2 + pseudo-channel. -/
def hashPc (hashm : List Word) (pa : Nat) : Nat :=
  let k (i : Nat) : Nat := parity (hashm.getD i 0) pa
  64 * (k 0 + 2 * k 1 + 4 * k 2) + 2 * (k 3 + 2 * k 4 + 4 * k 5 + 8 * k 6 + 16 * k 7) + k 8

def PChan.none (p n : Nat) : PChan := ⟨p, n, [], 0, 0, 0, 0, 0⟩

def State.pc (s : State) (p n : Nat) : PChan :=
  (s.pcs.find? fun x => x.pkg = p && x.n = n).getD (PChan.none p n)

def State.setPc (s : State) (x : PChan) : State :=
  if s.pcs.any fun y => y.pkg = x.pkg && y.n = x.n then
    { s with pcs := s.pcs.map fun y => if y.pkg = x.pkg && y.n = x.n then x else y }
  else { s with pcs := s.pcs ++ [x] }

/-- The next even cycle at or after one (R153). -/
def even (c : Nat) : Nat := c + c % 2

/-- The pseudo-channel's next service is put on the agenda (R153). -/
def State.kick (s : State) (p n : Nat) : State :=
  let x := s.pc p n
  match x.queue with
  | [] => s.setPc { x with due := 0 }
  | g :: _ =>
    let t := even (max (max s.wtc x.busy) g.after)
    if x.due = t then s else (s.setPc { x with due := t }).at t pServe [p, n] (.segmentServed p n)

/-- A segment arrives at its pseudo-channel controller (R153). -/
def State.enqueue (s : State) (p pa : Nat) (g : Seg) : State :=
  let n := hashPc (s.pkg p).hashm pa
  let x := s.pc p n
  (s.setPc { x with queue := x.queue ++ [{ g with arr := s.wtc }] }).kick p n

/-- The segments of one word's lanes: 64-byte pieces in the order of the lowest lane that needs each (R152). -/
def segsOf (i slots : Nat) : List LaneReq → List (Nat × List Nat) → List (Nat × Seg)
  | [], acc => acc.map fun g => (g.1 * 64, ⟨0, 0, slots, false, .lanes i g.2⟩)
  | q :: qs, acc =>
    let a := q.home / 64
    if acc.any (·.1 = a) then segsOf i slots qs (acc.map fun g => if g.1 = a then (g.1, g.2 ++ [q.lane]) else g)
    else segsOf i slots qs (acc ++ [(a, [q.lane])])

/-! ## Sending a global word's lanes (R151, R153) -/

/-- Lanes of a flight leave the core as of cycle `c`: moving lanes not yet sent get the cycle of their next step, and a
lane to the host window its request. A load at an LS reads behind every write of its cycle (R157). -/
def State.sendLanes (s : State) (i c : Nat) : State :=
  match s.flight? i with
  | none => s
  | some f =>
    let fresh (q : LaneReq) : Bool := q.st = .moving && q.due = 0
    let step (q : LaneReq) : LaneReq :=
      if !fresh q then q
      else match homeOf q.home with
        | .ls c' _ => { q with due := c + 20 + torus f.core c' }
        | .hbm => { q with due := c + 200 }
        | _ => { q with due := c + 64 }
    let s := s.modLanes i step
    let sent := (f.lanes.filter fresh).map step
    let ls := sent.filter fun q => match homeOf q.home with | .ls _ _ => true | _ => false
    let place := if f.kind = .load then pRead else pGlobal
    let s := (distinct (ls.map (·.due))).foldl (fun s d => s.at d place [f.core, i] (.packageGlobalAccess i)) s
    let hbm := sent.filter fun q => homeOf q.home = .hbm
    let s := if hbm.isEmpty then s
      else s.gatherAt f.pkg (c + 200) [0, f.core, 0, i]
        (segsOf i (if f.kind = .atomF || f.kind = .atomN then 2 else 1) hbm [])
    let host := sent.filter fun q => homeOf q.home = .nothing
    host.foldl (fun s q =>
      let (h, s) := s.fresh
      let r : HostReq := ⟨h, i, [q.lane], 0, 0, f.core, f.kind = .store, q.home - 2 ^ 60, f.n,
        natBytes f.n q.data, 0, 0, false, Option.none⟩
      (s.modPkg f.pkg fun x => { x with host := x.host ++ [r] }).at (c + 64) pHost [f.core, h]
        (.hostWindowAccess f.pkg h)) s

/-- The kind needs this permission (R145, R170). -/
def permOf : MemKind → Perm
  | .load => .rd
  | .store => .wr
  | _ => .at_

/-- What a translation makes of a lane of a global word (R145, R166, R167) or of a remote one (R170). `rep` is the cycle
a fault is reported in. -/
def State.placeLane (s : State) (f : Flight) (rep : Nat) (x : Xl) (q : LaneReq) : LaneReq :=
  let bad (c : Nat) : LaneReq := { q with st := .err, got := c, due := rep }
  let go (home : Nat) : LaneReq := { q with st := .moving, home := home, due := 0 }
  match x with
  | .walk => { q with st := .walk }
  | .fault c => bad c
  | .ok pa tgt =>
    match s.dest f.pkg pa tgt with
    | .here a =>
      if f.space = 2 then bad cPRT
      else match homeOf a with
        | .nothing => bad cTRN
        | _ => go a
    | .away a => if f.space = 2 then go a else bad cPRT
    | .host a => if f.space = 2 || f.kind = .atomF || f.kind = .atomN then bad cPRT else go (2 ^ 60 + a)
    | .ual a => if f.space = 2 && tgt = 3 then go (2 ^ 56 + a) else bad cPRT

/-! ## Staged stores seen by the team's own loads (R149, R150) -/

/-- What a staged entry holds for a byte offset: a store's byte, or an atomic (`some none`). -/
def Staged.cover (s : State) (e : Staged) (off : Nat) : Option (Option Byte) :=
  let bytes (l : List (Nat × List Byte)) : Option (Option Byte) :=
    l.foldl (fun acc w => match w.2[off - w.1]? with
      | some b => if w.1 ≤ off then some (some b) else acc
      | none => acc) none
  match e.op with
  | .bytes l => bytes l
  | .frame o bs => bytes [(o, bs)]
  | .atomic i =>
    match s.flight? i with
    | some f => if f.lanes.any (fun q => q.va ≤ off && off < q.va + 4) then some none else none
    | none => none
  | _ => none

/-- The youngest staged entry of a team, older than `id`, that covers a byte. -/
def State.youngest (s : State) (team id off : Nat) : Option (Staged × Option Byte) :=
  s.staged.foldl (fun acc e =>
    if e.team = team && e.id < id then
      match e.cover s off with
      | some b => some (e, b)
      | none => acc
    else acc) none

/-- The latest cycle in which a staged atomic of a team, older than `id`, is performed on some of n bytes (R150); 0 with none. -/
def State.atomicDue (s : State) (team id off n : Nat) : Nat :=
  s.staged.foldl (fun m e =>
    match e.op with
    | .atomic i =>
      let meets := match s.flight? i with | some f => f.lanes.any fun q => q.va < off + n && off < q.va + 4 | none => false
      if e.team = team && e.id < id && meets then max m (e.s + 20) else m
    | _ => m) 0

/-- The n bytes a team's own load sees at a block offset, and the cycle the latest staged atomic on them is performed (R149,
R150). A byte that a younger store covers as well is the store's (DEDUCED, entry 82). -/
def State.ownRead' (s : State) (p c base team id off n : Nat) : Nat × Nat :=
  let l := (List.range n).map fun k =>
    match s.youngest team id (off + k) with
    | some (_, some b) => b
    | _ => memByte s.mem (s.pod p (lsPa c (base + off + k)))
  (bytesNat l, s.atomicDue team id off n)

/-- After an atomic of the team was performed, the loads of the team that wait for its bytes take them (R150); `s0` is the state
before. -/
def State.refill (s s0 : State) (e : Staged) (words : List Nat) : State :=
  { s with flights := s.flights.map fun f =>
      if f.team = e.team && f.space = 0 && f.kind = .load && e.id < f.id then
        { f with lanes := f.lanes.map fun q =>
            if q.st ≠ .performed then q
            else
              let bs := (natBytes f.n q.got).zip (List.range f.n)
              let bs' := bs.map fun z =>
                let off := q.va + z.2
                if words.any (fun w => w ≤ off && off < w + 4) &&
                    (match s0.youngest e.team f.id off with | some (y, none) => y.id = e.id | _ => false) then
                  memByte s.mem (s.pod f.pkg (q.home + z.2))
                else z.1
              { q with got := bytesNat bs' } }
      else f }

/-! ## A pass's memory words at commit -/

/-- The lane's fault is known and waits for its report. -/
def LaneReq.failed (q : LaneReq) : Bool := q.st = .err || q.st = .unmapped

/-- Lanes whose fault is known are reported in their cycle. -/
def State.reportAt (s : State) (i : Nat) : State :=
  match s.flight? i with
  | none => s
  | some f =>
    (distinct ((f.lanes.filter (·.failed)).map (·.due))).foldl (fun s d => s.at d pLand [i] (.faultReport i)) s

/-- Two flights carry words of one pass. -/
def Flight.samePass (f g : Flight) : Bool := f.team = g.team && f.commit = g.commit && f.pass = g.pass

/-- The flights a walk serves. -/
def Walk.flights (w : Walk) : List Nat := match w.for_ with | .lanes fs => fs | _ => []

/-- The walk serves lanes of the flight's pass. -/
def State.walksPass (s : State) (f : Flight) (w : Walk) : Bool :=
  w.flights.any fun j => match s.flight? j with | some g => g.samePass f | none => false

/-- The lowest lane that waits for a walk. -/
def State.walkLane (s : State) (w : Walk) : Nat :=
  ((w.flights.filterMap s.flight?).flatMap fun f =>
    (f.lanes.filter fun q => q.st = .walk && q.va / 4096 * 4096 = w.page).map (·.lane)).foldl min 1024

/-- The walks of a flight's pass stand in lane order (R338). -/
def State.orderWalks (s : State) (f : Flight) : State :=
  let mine := s.walks.filter (s.walksPass f)
  let le (a b : Walk) : Bool := s.walkLane a ≤ s.walkLane b
  { s with walks := s.walks.filter (!s.walksPass f ·) ++
      mine.foldl (fun acc w => acc.filter (le · w) ++ w :: acc.filter (!le · w)) [] }

/-- Page walks for the lanes of a flight that wait for one: one per page of the pass, in lane order (R338). A walk that another
word of the pass has asked for serves this one too. -/
def State.walksFor (s : State) (i : Nat) : State :=
  match s.flight? i with
  | none => s
  | some f =>
    let pages := distinct ((f.lanes.filter (·.st = .walk)).map (·.va / 4096))
    if pages = [] then s else
    State.orderWalks (f := f) <| pages.foldl (fun s pg =>
      let mine (w : Walk) : Bool := w.page = pg * 4096 && s.walksPass f w
      if s.walks.any mine then
        { s with walks := s.walks.map fun w => if mine w then
            { w with for_ := match w.for_ with | .lanes fs => .lanes (fs ++ [i]) | y => y } else w }
      else
        let (w, s) := s.fresh
        let s : State := { s with walks := s.walks ++
          [⟨w, f.pkg, f.core / 4, f.core, f.ctx, f.team, pg * 4096, 3, 0, 0, false, .lanes [i]⟩] }
        s.at (s.wtc + 1) pBegin [0, w] (.pageWalk f.pkg (f.core / 4))) s

/-- How many tag-board rounds of a block are released (R209). -/
def Gang.releasedOf (g : Gang) (b : Nat) : Nat := match g.released.find? (·.1 = b) with | some x => x.2 | none => 0

/-- The round of a flight is held: it has one, and it is not released yet (R208, R209). -/
def State.roundHeld (s : State) (f : Flight) : Bool :=
  match f.round, s.gang? f.gang with
  | some (b, k), some g => g.releasedOf b ≤ k
  | _, _ => false

/-- The gang has been killed by this cycle (R322). -/
def State.gangKilled (s : State) (g : Nat) : Bool :=
  match (s.gang? g).bind (·.killAt) with | some k => decide (k ≤ s.wtc) | none => false

/-- The lanes the tag board holds: stores and atomics to device memory in an open region (R208); those of a killed gang are
discarded (R322). -/
def State.holdTagged (s : State) (i : Nat) : State :=
  match s.flight? i with
  | none => s
  | some f =>
    if s.roundHeld f && f.kind ≠ .load then
      let st : LaneSt := if s.gangKilled f.gang then .done else .held
      s.modLanes i fun q => if q.st = .moving && q.due = 0 && homeOf q.home = .hbm then { q with st := st } else q
    else s

/-- Remote lanes are offered, or requested, 40 cycles after the pass as of cycle `c` (R172, R187). -/
def State.offerAt (s : State) (i c : Nat) : State :=
  match s.flight? i with
  | none => s
  | some f =>
    if f.lanes.any (fun q => q.st = .moving && q.due = 0) then
      let s := s.modLanes i fun q => if q.st = .moving && q.due = 0 then { q with due := c + 40 } else q
      s.at (c + 40) pRemote [0, f.core, f.slot, f.commit, i]
        (if f.kind = .load then .remoteLoadRequest i else .tubOffer i)
    else s

/-- Lanes that have become free to leave, leave as of cycle `c`. -/
def State.launchLanes (s : State) (i c : Nat) : State :=
  match s.flight? i with
  | none => s
  | some f =>
    if f.space = 2 then (s.offerAt i c).reportAt i
    else (((s.holdTagged i).sendLanes i c).reportAt i).settle i

/-- A lane whose fault its walk found waits for the one report of that walk (R147, R338). -/
def LaneReq.byWalk (q : LaneReq) : LaneReq := if q.st = .err then { q with st := .unmapped } else q

/-- The lanes held for a walk of a page, once it has ended, with a page or a fault's cause (R147, R338). -/
def State.walkLanes (s : State) (i page cause : Nat) (x : Option TlbEntry) : State :=
  let rep := s.wtc + 1
  let s := s.modFlight i fun f =>
    { f with lanes := f.lanes.map fun q =>
        if q.st = .walk && q.va / 4096 = page / 4096 then
          match x with
          | none => { q with st := .unmapped, got := cause, due := rep }
          | some e =>
            (s.placeLane f rep (if e.grants (permOf f.kind) then .ok (e.pa + (q.va - e.page)) e.tgt else .fault cPRT) q).byWalk
        else q }
  s.launchLanes i rep

/-- The pass's memory word leaves the core (R45): a flight for it, with its scoreboard, landings and faults. `rseq` is
the team's remote sequence number. A load whose bytes all come from staging still meets an uncorrectable error of the word under them
(R162; DESIGN CHOICE, entry 83). -/
def State.issueMem (s : State) (t : Team) (hdr pass : Nat) (m : MemAct) : State :=
  match m.lanes with
  | [] => s
  | _ =>
    let (i, s) := s.fresh
    let c := s.wtc
    let words := t.wordsDone + m.nth + 1
    let det := match s.gang? t.pl.gang with | some g => g.desc.flags / 2 % 2 = 1 | none => false
    let f : Flight := ⟨i, t.id, t.pl.gang, s.gangCtx t.pl.gang, t.pl.pkg, t.pl.core, t.pl.slot, m.kind, m.space, m.n, m.sx,
      m.aop, m.d, m.sb, c, t.tl, hdr, pass, m.pos, words, t.csr.rseq.toNat, m.zero,
      if det && t.region then some (t.pl.block, t.rounds) else none, m.lanes⟩
    let add (s : State) (f : Flight) : State :=
      let s : State := { s with flights := s.flights ++ [f] }
      if f.kind = .store then s else s.modTeam t.id (·.incSb m.sb)
    if m.space = 0 then
      let base := t.pl.lsBase
      match m.kind with
      | .load =>
        let uce (q : LaneReq) : Bool := s.uceAt t.pl.pkg (lsPa t.pl.core (base + q.va)) m.n
        let rs := m.lanes.map fun q => (q, s.ownRead' t.pl.pkg t.pl.core base t.id i q.va m.n)
        let late := rs.foldl (fun x r => max x r.2.2) 0
        let lanes := rs.map fun r =>
          let q := { r.1 with home := lsPa t.pl.core (base + r.1.va) }
          if uce r.1 then { q with st := .err, got := cUCE, due := c }
          else { q with st := .performed, got := r.2.1 }
        let s := add s { f with lanes := lanes }
        let s := m.lanes.foldl (fun s q =>
          (s.correct t.pl.pkg (lsPa t.pl.core (base + q.va)) m.n).watch t.pl.pkg t.pl.core (base + q.va) m.n false f.agent) s
        (s.landAt i (max (c + 12) (if late = 0 then 0 else late + 4))
          ((lanes.filter (·.st = .performed)).map (·.lane))).reportAt i
      | .store =>
        s.stageOp t.id t.pl.pkg t.pl.core c base t.tl ⟨words, hdr, pass, m.pos⟩ (.bytes (m.lanes.map fun q => (q.va, natBytes m.n q.data)))
      | _ =>
        let s := add s { f with lanes := m.lanes.map fun q =>
          { q with home := lsPa t.pl.core (base + q.va), st := .moving, due := c + 20 } }
        s.stageOp t.id t.pl.pkg t.pl.core c base t.tl ⟨words, hdr, pass, m.pos⟩ (.atomic i)
    else if m.space = 3 then
      let ix (q : LaneReq) : Nat := accIx t.pl.pkg t.pl.core (t.pl.atBase + q.home) q.va
      match m.kind with
      | .load =>
        let lanes := m.lanes.map fun q =>
          if s.uce.contains (2 ^ 60 + ix q) then
            { q with va := q.va + 2 ^ 32 * q.home, st := .err, got := cUCE, due := c }
          else { q with st := .performed, got := (accWord s.acc (ix q)).toNat }
        let s := m.lanes.foldl (fun s q => s.correctAcc t.pl.pkg (ix q) 1) s
        ((add s { f with lanes := lanes }).landAt i (c + 8)
          ((lanes.filter (·.st = .performed)).map (·.lane))).reportAt i
      | _ => s.stageOp t.id t.pl.pkg t.pl.core c 0 t.tl ⟨words, hdr, pass, m.pos⟩ (.acc (m.lanes.map fun q => (ix q, toF q.data)))
    else
      let place (q : LaneReq) : LaneReq :=
        if q.failed then q else s.placeLane f (c + 1) (s.xlate t.pl.pkg t.pl.core f.ctx q.va (permOf m.kind)) q
      ((add s { f with lanes := m.lanes.map place }).launchLanes i c).walksFor i

/-! ## Holds of a pass at its last cycle (R48, R155, R210) -/

/-- The scoreboard has room for every increment of the pass. -/
def sbRoom (t : Team) (l : List MemAct) : Bool :=
  (List.range 4).all fun k =>
    t.sb.getD k 0 + (l.filter fun m => m.kind ≠ .store && m.sb = k && !m.lanes.isEmpty).length ≤ 8191

/-- The word's lanes take request-table entries: global accesses, remote loads and fetching remote atomics (R155,
R190). -/
def takesEntry (space : Nat) (kind : MemKind) : Bool :=
  space = 1 || (space = 2 && (kind = .load || kind = .atomF))

/-- Request-table entries in use on a core (R155): unfinished lanes. A lane to the host window takes none. -/
def State.entries (s : State) (p c : Nat) : Nat :=
  (s.flights.filter fun f => f.pkg = p && f.core = c && takesEntry f.space f.kind).foldl
    (fun n f => n + (f.lanes.filter fun q => !q.over && (f.space = 2 || q.home < 2 ^ 60)).length) 0

/-- The flight is a global store or atomic of an open region, whose lanes to device memory the tag board holds (R208). -/
def Flight.tagged (f : Flight) : Bool := f.space = 1 && f.kind ≠ .load && f.round.isSome

/-- A lane of a tagged word has the entry of a held access: until it is performed, a fetching atomic until its data is written, a
release between included (R155, R210); a lane whose walk is under way is as if held. -/
def LaneReq.quota (q : LaneReq) : Bool :=
  q.st = .walk || ((q.st = .held || q.st = .moving || q.st = .performed) && homeOf q.home = .hbm)

/-- Entries of held accesses of a block on a core (R210). -/
def State.heldEntries (s : State) (gang p c block : Nat) : Nat :=
  (s.flights.filter fun f => f.gang = gang && f.pkg = p && f.core = c && f.tagged &&
      (match f.round with | some r => r.1 = block | none => false)).foldl
    (fun n f => n + (f.lanes.filter (·.quota)).length) 0

/-- Blocks with a team on a core, of every gang there (R210). A block all of whose teams on the core have ended counts until its gang is
gone, as it keeps its place there until then (DESIGN CHOICE, entry 99). -/
def State.blocksOn (s : State) (p c : Nat) : Nat :=
  (distinct ((s.teams.filter fun t => t.pl.pkg = p && t.pl.core = c && !s.gangOut t.pl.gang).map fun t =>
    (t.pl.gang, t.pl.block))).length

end Sys2Proof.Machine
end

