-- ==== Sys2Proof/Machine/Cards.lean ====
section
/-! DEFINITION. Job cards as words: fields, the validity checks made at acceptance (R239, R276, R298), footprints (R244,
R253, R258, R259, R262, R267 to R269, R275, R286), and credits. -/

namespace Sys2Proof.Machine

/-- Word i of a card as a number. -/
def cw (ws : List Word) (i : Nat) : Nat := (ws.getD i 0).toNat

/-- Field [lo + n - 1 : lo] of word i of a card. -/
def cf (ws : List Word) (i lo n : Nat) : Nat := cw ws i / 2 ^ lo % 2 ^ n

/-- Signed or plain fields every header has (R237, R267, R286). -/
def cType (ws : List Word) : Nat := cf ws 0 28 4
def cLen (ws : List Word) : Nat := if cf ws 0 24 4 = 0 then 16 else cf ws 0 24 4
def cTmd (ws : List Word) : Bool := cf ws 0 23 1 = 1
def cTag (ws : List Word) : Nat := cf ws 0 0 16

/-- A check of a card: it holds, or the card has an error of a code in a word. -/
abbrev CChk := Bool × Nat × Nat

/-- The error reported: the least code, in the first word that has it (entry 32). -/
def cardError (l : List CChk) : Option (Nat × Nat) :=
  l.foldl (fun acc k =>
    if k.1 then acc
    else match acc with
      | none => some k.2
      | some a => if k.2.1 < a.1 || (k.2.1 = a.1 && k.2.2 < a.2) then some k.2 else acc) none

/-- Bits of a word that must be zero (code 3). -/
def cz (ws : List Word) (i lo n : Nat) : CChk := (cf ws i lo n = 0, 3, i)

/-- A barrier word: reserved bits, and an object inside the allocation (R240, code 9). The offset is looked at only with V = 1 (DESIGN
CHOICE, entry 101). -/
def cBar (t : Team) (ws : List Word) (i : Nat) : List CChk :=
  [cz ws i 21 10, (cf ws i 31 1 = 0 || (cf ws i 0 21 % 16 = 0 && cf ws i 0 21 + 16 ≤ t.pl.lsBytes), 9, i)]

/-- An own-LS range inside the allocation (code 7). -/
def cLs (t : Team) (off n i : Nat) : CChk := (off + n ≤ t.pl.lsBytes, 7, i)

/-! ## Matrix cards (R237 to R244, R253, R258) -/

/-- The formats an MX scale may stand with (R242). -/
def mxOk (x : Nat) : Bool := x = 3 || x = 4 || x = 5 || x = 6 || x = 7 || x = 10 || x = 12

def fmtOfId (x : Nat) : Fmt :=
  match x with
  | 1 => .bf16 | 2 => .f16 | 3 => .e4m3 | 4 => .e5m2 | 5 => .e2m3 | 6 => .e3m2 | 7 => .e2m1 | 8 => .s32 | 9 => .n32
  | 10 => .s8 | 11 => .n8 | 12 => .ts8 | 13 => .e8m0 | _ => .f32

/-- The k-group of a pair of operand formats; 0 for a pair that is none (R243). -/
def kgOf (a b : Nat) : Nat :=
  let half (x : Nat) : Bool := x = 1 || x = 2
  let f8 (x : Nat) : Bool := 3 ≤ x && x ≤ 6
  let w4 (x : Nat) : Bool := x = 7 || x = 12
  if half a && half b then 32
  else if f8 a && f8 b then 64
  else if a = 10 && b = 10 then 64
  else if (w4 a || a = 3 || a = 4) && (w4 b || b = 3 || b = 4) then 128
  else 0

/-- The fields of an `mm` card. -/
structure MM where
  (cls : Bool) (semi : Nat) (accz : Bool)
  (unf : Bool) (aadr badr mt nt kgs cbase astr bstr : Nat) (bar : Nat)
  (w h c fh fw st pad : Nat)
  (afmt bfmt : Nat) (amx bmx : Bool)

/-- An `mm` card read (R241, R242, R253). -/
def mmOf (ws : List Word) : MM :=
  let f := cLen ws - 1
  { cls := cf ws 0 22 1 = 1, semi := cf ws 0 20 2, accz := cf ws 0 19 1 = 1,
    unf := cf ws 1 31 1 = 1, aadr := cf ws 1 0 21, badr := cf ws 2 0 21, mt := cf ws 3 0 8, nt := cf ws 3 8 8,
    kgs := cf ws 3 16 16, cbase := cf ws 4 0 8, astr := cf ws 5 0 16, bstr := cf ws 5 16 16, bar := cw ws 6,
    w := cf ws 7 0 16, h := cf ws 7 16 16, c := cf ws 8 0 16, fh := cf ws 8 16 4 + 1, fw := cf ws 8 20 4 + 1,
    st := cf ws 8 24 3 + 1, pad := cf ws 8 27 4,
    afmt := cf ws f 0 4, bfmt := cf ws f 4 4, amx := cf ws f 12 1 = 1, bmx := cf ws f 13 1 = 1 }

def MM.kg (m : MM) : Nat := kgOf m.afmt m.bfmt

/-- Bytes of a panel: elements, then scales (R244). -/
def panelBytes (x kg : Nat) (mx : Bool) : Nat := 128 * kg * fmtBits (fmtOfId x) / 8 + if mx then 4 * kg else 0

def MM.pa (m : MM) : Nat := panelBytes m.afmt m.kg m.amx
def MM.pb (m : MM) : Nat := panelBytes m.bfmt m.kg m.bmx

/-- Output size of an unfolded convolution; 0 where the filter does not fit (R253). -/
def MM.ow (m : MM) : Nat := if m.w + 2 * m.pad < m.fw then 0 else (m.w + 2 * m.pad - m.fw) / m.st + 1
def MM.oh (m : MM) : Nat := if m.h + 2 * m.pad < m.fh then 0 else (m.h + 2 * m.pad - m.fh) / m.st + 1

/-- Bytes of the A and B footprints (R244, R253). -/
def MM.aLen (m : MM) : Nat :=
  if m.unf then m.h * m.w * m.c * fmtBits (fmtOfId m.afmt) / 8 else 64 * m.astr * (m.mt - 1) + m.kgs * m.pa
def MM.bLen (m : MM) : Nat := 64 * m.bstr * (m.nt - 1) + m.kgs * m.pb

/-- The pair and its modes are legal (R242, R243, R252, R253). -/
def MM.fmtOk (m : MM) : Bool :=
  m.kg ≠ 0 && (!m.amx || mxOk m.afmt) && (!m.bmx || mxOk m.bfmt) &&
  (m.semi = 0 || (m.afmt = 1 && m.bfmt = 1 && !m.amx && !m.bmx)) &&
  (!m.unf || (!m.amx && (m.afmt = 3 || m.afmt = 4 || m.afmt = 10 || m.afmt = 1 || m.afmt = 2)))

def chkMM (t : Team) (ws : List Word) : List CChk :=
  let m := mmOf ws
  let f := cLen ws - 1
  ([(cLen ws = if m.unf then 10 else 8, 2, 0), cz ws 0 16 3, cz ws 1 21 10, cz ws 2 21 11, cz ws 4 8 24,
   (!m.unf || cf ws 8 31 1 = 0, 3, 8), cz ws f 14 18, cz ws f 8 4, (m.fmtOk, 4, f),
   (m.mt ≠ 0 && m.nt ≠ 0 && m.kgs ≠ 0, 5, 3),
   (!m.unf || (m.w ≠ 0 && m.h ≠ 0), 6, 7),
   (!m.unf || (m.kg ≠ 0 && m.c % m.kg = 0 && 1 ≤ m.ow && 1 ≤ m.oh && m.kgs * m.kg = m.fh * m.fw * m.c &&
     m.oh * m.ow ≤ m.mt * 128), 6, 8),
   (!m.unf || m.astr = 0, 6, 5),
   cLs t m.aadr m.aLen 1, cLs t m.badr m.bLen 2,
   (m.cbase + 4 * m.mt * m.nt ≤ t.pl.atiles, 8, 4),
   (m.aadr % 64 = 0, 10, 1), (m.badr % 64 = 0, 10, 2)] : List CChk) ++ (cBar t ws 6)

/-- The tile cards' header and tile word (R258). -/
def chkTiles (t : Team) (ws : List Word) (i : Nat) : List CChk :=
  [cz ws 0 16 7, (cf ws i 8 8 ≠ 0, 5, i), (cf ws i 0 8 + cf ws i 8 8 ≤ t.pl.atiles, 8, i)]

/-- Bytes an `adrain` writes (R258). -/
def drainBytes (ws : List Word) : Nat := 4096 * cf ws 2 8 8 * fmtBits (fmtOfId (cf ws 2 16 4)) / 8

/-- The checks of a matrix card's words (R239, R242 to R244, R258). Bits 31:21 of the LS offset of `aload` and `adrain` are reserved, as
those of the other offsets of a card are (code 3; DESIGN CHOICE, entry 102). -/
def chkMat (t : Team) (ws : List Word) : List CChk :=
  match cType ws with
  | 1 => chkMM t ws
  | 2 => ([(cLen ws = 3, 2, 0), cz ws 1 16 16] : List CChk) ++ chkTiles t ws 1 ++ cBar t ws 2
  | 3 =>
    ([(cLen ws = 4, 2, 0), cz ws 1 21 11, cz ws 2 16 16, (cf ws 1 0 21 % 64 = 0, 10, 1),
     cLs t (cf ws 1 0 21) (16384 * cf ws 2 8 8) 1] : List CChk) ++ chkTiles t ws 2 ++ cBar t ws 3
  | 4 =>
    let x := cf ws 2 16 4
    ([(cLen ws = 4, 2, 0), cz ws 1 21 11, cz ws 2 22 10, (x ≤ 4 || x = 8, 4, 2), (cf ws 1 0 21 % 64 = 0, 10, 1),
     cLs t (cf ws 1 0 21) (drainBytes ws) 1] : List CChk) ++ chkTiles t ws 2 ++ cBar t ws 3
  | _ => [(false, 1, 0)]

/-! ## Haul cards (R265 to R269) -/

/-- A haul address (R265): its space, and its value there. -/
inductive HAddr where
  | virt (va : Nat) | ls (off : Nat) | pin (h off : Nat) | bad
  deriving DecidableEq, Repr

def hAddr (ws : List Word) (i : Nat) : HAddr :=
  match cf ws (i + 1) 30 2 with
  | 0 => .virt (cf ws (i + 1) 0 24 * 2 ^ 32 + cw ws i)
  | 1 => .ls (cf ws i 0 21)
  | 2 => .pin (cf ws (i + 1) 16 8) (cw ws i)
  | _ => .bad

/-- The zero-marked bits of a haul address, and its space (codes 3, 4). -/
def chkAddr (ws : List Word) (i : Nat) : List CChk :=
  match cf ws (i + 1) 30 2 with
  | 0 => [cz ws (i + 1) 24 6]
  | 1 => [cz ws i 21 11, cz ws (i + 1) 0 30]
  | 2 => [cz ws (i + 1) 24 6, cz ws (i + 1) 0 16]
  | _ => [(false, 4, i + 1)]

/-- The range of a haul operand fits its own LS or its pinned handle (codes 7, 13; R266). -/
def chkRange (s : State) (t : Team) (priv : Bool) (a : HAddr) (n i : Nat) (write : Bool) : List CChk :=
  match a with
  | .ls off => [cLs t off n i]
  | .pin h off =>
    let e := (s.pkg t.pl.pkg).pinned.getD h Pinned.reset
    [(priv && e.v && off + n ≤ 4096 * e.length && (if write then e.wr else e.rd), 13, i + 1)]
  | _ => []

/-- The last row's offset plus its bytes (R267). -/
def rowsSpan (ws : List Word) (s1 s2 s3 : Nat) : Nat :=
  let four := cf ws 0 20 2 = 3
  (cf ws 5 0 16 - 1) * s1 + (if four then 64 * (cf ws 9 24 8 - 1) * s2 + 65536 * (cf ws 9 16 8 - 1) * s3 else 0) +
    cf ws 5 16 16

/-- Source and destination spans of a `copy`. -/
def copySpans (ws : List Word) : Nat × Nat :=
  (rowsSpan ws (cf ws 6 16 16) (cf ws 8 16 16) (cf ws 9 8 8), rowsSpan ws (cf ws 6 0 16) (cf ws 8 0 16) (cf ws 9 0 8))

/-- The destination span of a `fill` (R268). -/
def fillSpan (ws : List Word) : Nat := (cf ws 4 0 16 - 1) * cf ws 5 0 16 + cf ws 4 16 16

/-- The block's team on a core of the quad, which gives its allocation there. -/
def State.blockTeam (s : State) (t : Team) (core : Nat) : Option Team :=
  s.teams.find? fun u => u.pl.gang = t.pl.gang && u.pl.block = t.pl.block && u.pl.core = core

/-- The cores a CV vector names (R267). -/
def cvCores (t : Team) (cv : Nat) : List Nat :=
  ((List.range 4).filter fun q => cv / 2 ^ q % 2 = 1).map fun q => t.pl.core / 4 * 4 + q

/-- The checks on CV (codes 4, 7, 15). -/
def chkCv (s : State) (t : Team) (ws : List Word) (a : HAddr) (i n : Nat) : List CChk :=
  let cores := cvCores t (cf ws 0 16 4)
  if cores.isEmpty then []
  else match a with
    | .ls off => cores.flatMap fun c =>
        match s.blockTeam t c with
        | none => [(false, 15, 0)]
        | some u => [cLs u off n i]
    | _ => [(false, 4, 0)]

def chkHaul (s : State) (t : Team) (priv : Bool) (ws : List Word) : List CChk :=
  match cType ws with
  | 1 =>
    let d := cf ws 0 20 2
    let sp := copySpans ws
    ([cz ws 0 22 1, (d = 1 || d = 3, 4, 0), ((d = 3 && cLen ws = 10) || (d = 1 && cLen ws = 8) || d = 0 || d = 2, 2, 0),
     (cf ws 5 16 16 ≠ 0 && cf ws 5 0 16 ≠ 0, 5, 5), (d ≠ 3 || (cf ws 9 24 8 ≠ 0 && cf ws 9 16 8 ≠ 0), 5, 9)] : List CChk) ++
    chkAddr ws 1 ++ chkAddr ws 3 ++ chkRange s t priv (hAddr ws 1) sp.1 1 false ++
    chkRange s t priv (hAddr ws 3) sp.2 3 true ++ chkCv s t ws (hAddr ws 3) 3 sp.2 ++ cBar t ws 7
  | 2 =>
    ([cz ws 0 20 3, (cLen ws = 7, 2, 0), (cf ws 4 16 16 ≠ 0 && cf ws 4 0 16 ≠ 0, 5, 4), cz ws 5 16 16] : List CChk) ++
    chkAddr ws 1 ++ chkRange s t priv (hAddr ws 1) (fillSpan ws) 1 true ++ chkCv s t ws (hAddr ws 1) 1 (fillSpan ws) ++
    cBar t ws 6
  | 3 =>
    let rb := cf ws 5 16 16
    let n := cf ws 5 0 16
    ([cz ws 0 16 7, (cLen ws = 9, 2, 0), (cf ws 2 30 2 ≠ 1, 4, 2), cz ws 3 21 11, cz ws 4 21 11,
     (rb ≠ 0 && n ≠ 0, 5, 5), (cw ws 7 ≠ 0, 5, 7), (cf ws 4 0 21 % 4 = 0, 10, 4), cLs t (cf ws 3 0 21) (n * rb) 3,
     cLs t (cf ws 4 0 21) (4 * n) 4] : List CChk) ++
    chkAddr ws 1 ++ chkRange s t priv (hAddr ws 1) (cw ws 6 * (cw ws 7 - 1) + rb) 1 false ++ cBar t ws 8
  | _ => [(false, 1, 0)]

/-! ## Grinder cards (R272) -/

/-- Bytes of an MX block's elements (R117) and of its wide values. -/
def mxBlock (x : Nat) : Nat := 4 * fmtBits (fmtOfId x)
def wideBlock (f : Nat) : Nat := if f = 1 then 64 else 128

def chkGrind (t : Team) (ws : List Word) : List CChk :=
  let nb := cf ws 4 0 16
  let f := cf ws 4 16 4
  let x := cf ws 4 20 4
  let rm := cf ws 4 24 2
  let common : List CChk :=
    [cz ws 0 16 7, cz ws 1 21 11, cz ws 2 21 11, cz ws 3 21 11, cz ws 4 26 6, (f ≤ 1, 4, 4), (mxOk x, 4, 4),
     (nb ≠ 0, 5, 4)]
  match cType ws with
  | 1 =>
    common ++ ([(cLen ws = 7, 2, 0), (rm ≤ 2, 4, 4), (cf ws 1 0 21 % 64 = 0, 10, 1), (cf ws 2 0 21 % 64 = 0, 10, 2),
      cLs t (cf ws 1 0 21) (nb * wideBlock f) 1, cLs t (cf ws 2 0 21) (nb * mxBlock x) 2, cLs t (cf ws 3 0 21) nb 3] : List CChk) ++
    cBar t ws 6
  | 2 =>
    common ++ ([(cLen ws = 6, 2, 0), (rm ≤ 1, 4, 4), (cf ws 1 0 21 % 64 = 0, 10, 1), (cf ws 3 0 21 % 64 = 0, 10, 3),
      cLs t (cf ws 1 0 21) (nb * mxBlock x) 1, cLs t (cf ws 2 0 21) nb 2, cLs t (cf ws 3 0 21) (nb * wideBlock f) 3] : List CChk) ++
    cBar t ws 5
  | _ => [(false, 1, 0)]

/-! ## Fabric cards (R286 to R298) -/

/-- A port of a `sendat` or `recvat`: 63, or 0 to 31 with UP (code 4). -/
def chkPort (s : State) (p k i : Nat) : CChk :=
  (k = 63 || (k < 32 && ((s.pkg p).ports.getD k Port.reset).up), 4, i)

/-- The quads a multicast `sendat` names. -/
def quadsOf (ws : List Word) : List Nat :=
  (List.range 64).filter fun q => (if q < 32 then cf ws 5 q 1 else cf ws 6 (q - 32) 1) = 1

/-- The destination cores of a `sendat` on port 63 (R288, R290). -/
def sendCores (ws : List Word) : List Nat :=
  if cLen ws = 7 then (quadsOf ws).map fun q => 4 * q + cf ws 4 16 2 else [cf ws 4 16 8]

/-- A core holds a team of the gang. -/
def State.gangCore (s : State) (gang p c : Nat) : Bool :=
  s.teams.any fun u => u.pl.gang = gang && u.pl.pkg = p && u.pl.core = c

def chkFab (s : State) (t : Team) (ws : List Word) : List CChk :=
  let p := t.pl.pkg
  let bytes (i : Nat) : CChk := (cf ws i 0 21 ≠ 0 && cf ws i 0 21 % 64 = 0, 5, i)
  match cType ws with
  | 1 =>
    let port := cf ws 0 16 6
    [cz ws 0 22 1, (cLen ws = 5 || cLen ws = 7, 2, 0), (cLen ws ≠ 7 || port = 63, 4, 0), chkPort s p port 0,
     (cTmd ws, 4, 0), cz ws 2 21 11, cz ws 3 21 11, cz ws 4 24 8, (cf ws 4 0 16 ≠ 0, 4, 4),
     (port = 63 || cf ws 4 16 8 = 0, 3, 4), (cLen ws ≠ 7 || cf ws 4 18 6 = 0, 3, 4),
     (port ≠ 63 || (sendCores ws).all (s.gangCore t.pl.gang p), 4, if cLen ws = 7 then 5 else 4),
     bytes 3, (cf ws 2 0 21 % 64 = 0, 10, 2), cLs t (cf ws 2 0 21) (cf ws 3 0 21) 2]
  | 2 =>
    let port := cf ws 5 0 6
    ([cz ws 0 16 7, (cLen ws = 6, 2, 0), (cTmd ws, 4, 0), cz ws 2 21 11, cz ws 3 21 11, cz ws 5 6 2,
     (port = 63 || cf ws 5 8 8 = 0, 3, 5), chkPort s p port 5, (cf ws 5 16 16 ≠ 0, 4, 5), bytes 3,
     (cf ws 2 0 21 % 64 = 0, 10, 2), cLs t (cf ws 2 0 21) (cf ws 3 0 21) 2] : List CChk) ++ cBar t ws 4
  | 3 =>
    let n := cf ws 3 0 13
    ([cz ws 0 16 7, (cLen ws = 5, 2, 0), cz ws 1 20 12, cz ws 2 21 11, cz ws 3 13 19, (n ≠ 0 && n ≤ 4096, 5, 3),
     (cf ws 2 0 21 % 64 = 0, 10, 2), cLs t (cf ws 2 0 21) n 2] : List CChk) ++ cBar t ws 4
  | 4 =>
    let log2 := cf ws 2 0 5
    let num := cf ws 2 8 4
    let ctx := s.gangCtx t.pl.gang
    ([cz ws 0 16 7, (cLen ws = 5, 2, 0), cz ws 1 21 11, cz ws 2 5 3, cz ws 2 12 4, cz ws 3 21 11,
     (9 ≤ log2 && log2 ≤ 20, 4, 2), ((s.core p t.pl.core).rings.all fun r => r.num ≠ num || r.ctx = ctx, 4, 2),
     (cf ws 1 0 21 % 64 = 0, 10, 1), cLs t (cf ws 1 0 21) (2 ^ log2) 1,
     (cf ws 3 0 21 % 8 = 0 && cf ws 3 0 21 + 8 ≤ t.pl.lsBytes, 9, 3)] : List CChk) ++ cBar t ws 4
  | 5 => [cz ws 0 16 7, (cLen ws = 3, 2, 0), (cTmd ws, 4, 0)]
  | _ => [(false, 1, 0)]

/-- The error of a card of a queue, if it has one: code and word (R239, R276, R298). -/
def State.cardBad (s : State) (t : Team) (q : Nat) (ws : List Word) : Option (Nat × Nat) :=
  cardError (match q with
    | 0 => chkMat t ws
    | 1 => chkHaul s t (s.priv t) ws
    | 2 => chkGrind t ws
    | _ => chkFab s t ws)

/-- The cause of an error code (R239, R276, R298). -/
def errCause (code : Nat) : Nat :=
  if code = 7 || code = 8 || code = 9 || code = 13 || code = 14 then cPRT
  else if code = 11 || code = 12 then cUCE else cILL

/-! ## Footprints (R262) -/

/-- An own-LS range as a comparison range. -/
def fLs (t : Team) (off n : Nat) (write : Bool) : FRange :=
  let a := lsPa t.pl.core (t.pl.lsBase + off)
  ⟨0, a, a + n, write⟩

/-- Tiles F up of the team as a comparison range. -/
def fTiles (t : Team) (f n : Nat) (write : Bool) : FRange := ⟨1, t.pl.atBase + f, t.pl.atBase + f + n, write⟩

/-- A haul operand's range: own LS and pinned handles physical, a virtual range physical where one package-local range
entry holds it whole, else unresolved. -/
def State.fHaul (s : State) (t : Team) (a : HAddr) (n : Nat) (write : Bool) : FRange :=
  match a with
  | .ls off => fLs t off n write
  | .pin h off => let e := (s.pkg t.pl.pkg).pinned.getD h Pinned.reset; ⟨0, e.pbase + off, e.pbase + off + n, write⟩
  | .virt va =>
    match (s.ctx? t.pl.pkg (s.gangCtx t.pl.gang)).bind (·.range? va) with
    | some e => if e.tgt = 0 && va + n ≤ e.limit then ⟨0, e.pbase + (va - e.base), e.pbase + (va - e.base) + n, write⟩
        else ⟨2, 0, 0, write⟩
    | none => ⟨2, 0, 0, write⟩
  | .bad => ⟨2, 0, 0, write⟩

/-- The footprint of a valid card. -/
def State.footprint (s : State) (t : Team) (q : Nat) (ws : List Word) : List FRange :=
  match q, cType ws with
  | 0, 1 =>
    let m := mmOf ws
    [fLs t m.aadr m.aLen false, fLs t m.badr m.bLen false, fTiles t m.cbase (4 * m.mt * m.nt) true] ++
      if m.accz then [] else [fTiles t m.cbase (4 * m.mt * m.nt) false]
  | 0, 2 => [fTiles t (cf ws 1 0 8) (cf ws 1 8 8) true]
  | 0, 3 => [fLs t (cf ws 1 0 21) (16384 * cf ws 2 8 8) false, fTiles t (cf ws 2 0 8) (cf ws 2 8 8) true]
  | 0, _ => [fTiles t (cf ws 2 0 8) (cf ws 2 8 8) false, fLs t (cf ws 1 0 21) (drainBytes ws) true]
  | 1, 1 =>
    let cv := cvCores t (cf ws 0 16 4)
    s.fHaul t (hAddr ws 1) (copySpans ws).1 false ::
      if cv.isEmpty || cv.contains t.pl.core then [s.fHaul t (hAddr ws 3) (copySpans ws).2 true] else []
  | 1, 2 =>
    let cv := cvCores t (cf ws 0 16 4)
    if cv.isEmpty || cv.contains t.pl.core then [s.fHaul t (hAddr ws 1) (fillSpan ws) true] else []
  | 1, _ =>
    [fLs t (cf ws 4 0 21) (4 * cf ws 5 0 16) false,
     s.fHaul t (hAddr ws 1) (cw ws 6 * (cw ws 7 - 1) + cf ws 5 16 16) false,
     fLs t (cf ws 3 0 21) (cf ws 5 0 16 * cf ws 5 16 16) true]
  | 2, 1 =>
    [fLs t (cf ws 1 0 21) (cf ws 4 0 16 * wideBlock (cf ws 4 16 4)) false,
     fLs t (cf ws 2 0 21) (cf ws 4 0 16 * mxBlock (cf ws 4 20 4)) true, fLs t (cf ws 3 0 21) (cf ws 4 0 16) true]
  | 2, _ =>
    [fLs t (cf ws 1 0 21) (cf ws 4 0 16 * mxBlock (cf ws 4 20 4)) false, fLs t (cf ws 2 0 21) (cf ws 4 0 16) false,
     fLs t (cf ws 3 0 21) (cf ws 4 0 16 * wideBlock (cf ws 4 16 4)) true]
  | _, 1 => [fLs t (cf ws 2 0 21) (cf ws 3 0 21) false]
  | _, 2 => [fLs t (cf ws 2 0 21) (cf ws 3 0 21) true]
  | _, 3 => [fLs t (cf ws 2 0 21) (cf ws 3 0 13) false]
  | _, _ => []

/-- Two ranges overlap (R262): tiles with tiles, physical with physical, unresolved with every other range but tiles of
the same context. -/
def FRange.meets (a b : FRange) (sameCtx : Bool) : Bool :=
  if a.space = 1 || b.space = 1 then a.space = 1 && b.space = 1 && a.lo < b.hi && b.lo < a.hi
  else if a.space = 2 || b.space = 2 then sameCtx
  else a.lo < b.hi && b.lo < a.hi

/-- The barrier word of a card, with the bytes it credits (R240, R241, R258, R267 to R269, R273, R292, R296). -/
def cardCredit (q : Nat) (ws : List Word) : Option (Nat × Nat) :=
  let b (i n : Nat) : Option (Nat × Nat) := if cf ws i 31 1 = 1 then some (cf ws i 0 21, n) else none
  match q, cType ws with
  | 0, 1 => b 6 (65536 * cf ws 3 0 8 * cf ws 3 8 8)
  | 0, 2 => b 2 (16384 * cf ws 1 8 8)
  | 0, 3 => b 3 (16384 * cf ws 2 8 8)
  | 0, 4 => b 3 (drainBytes ws)
  | 1, 1 => b 7 (cf ws 5 16 16 * cf ws 5 0 16 * if cf ws 0 20 2 = 3 then cf ws 9 24 8 * cf ws 9 16 8 else 1)
  | 1, 2 => b 6 (cf ws 4 16 16 * cf ws 4 0 16)
  | 1, 3 => b 8 (cf ws 5 0 16 * cf ws 5 16 16)
  | 2, 1 => b 6 (cf ws 4 0 16 * (mxBlock (cf ws 4 20 4) + 1))
  | 2, 2 => b 5 (cf ws 4 0 16 * wideBlock (cf ws 4 16 4))
  | 3, 2 => b 4 (cf ws 3 0 21)
  | 3, 3 => b 4 (cf ws 3 0 13)
  | _, _ => none

/-! ## Queues and completion (R235, R36) -/

/-- Free room of a job-card queue (R36). -/
def Queue.room (x : Queue) : Nat := 32 - x.words.length

/-- The place in a queue where its incomplete cards begin. -/
def Queue.doneLen (q : Queue) : Nat := q.ready.foldl (fun n r => n + r.len) 0

/-- The words of a gang's incomplete card in a queue: a word joins no card of another gang (R77; DEDUCED, entry 96). -/
def Queue.restOf (x : Queue) (g : Nat) : List QWord := (x.words.drop x.doneLen).filter (·.gang = g)

/-- The words in a queue that belong to incomplete cards of other gangs. -/
def Queue.restBut (x : Queue) (g : Nat) : List QWord := (x.words.drop x.doneLen).filter (·.gang ≠ g)

/-- A queue without a gang's incomplete card. -/
def Queue.dropRest (x : Queue) (g : Nat) : Queue := { x with words := x.words.take x.doneLen ++ x.restBut g }

/-- A pushed word completes the card whose words so far these are, with it the last. -/
def completes (ws : List Word) : Bool := ws.length = cLen ws

/-- The cards that words pushed in order complete, each with the place of its last word: (place, words). -/
def completions : List Word → List (Nat × Word) → List (Nat × List Word)
  | _, [] => []
  | acc, (pos, x) :: r =>
    let ws := acc ++ [x]
    if completes ws then (pos, ws) :: completions [] r else completions ws r

end Sys2Proof.Machine
end

