-- ==== Sys2Proof/Machine/Race.lean ====
section
/-! DEFINITION. Race watch (R228 to R232): lane accesses compared with the footprints of cards. -/

namespace Sys2Proof.Machine

/-- A lane access as race watch compares it (R229): package-local physical bytes, or an a-tile; the commit cycle of its pass, its
lane, and its address as R163 writes one. -/
structure Span where
  (tile : Bool) (lo hi : Nat) (write : Bool) (pass lane : Nat) (va vah : Nat)
  deriving DecidableEq, Repr

/-- The access conflicts with a range of a card (R229). -/
def Span.conflicts (x : Span) (sameCtx : Bool) (r : FRange) : Bool :=
  (x.write || r.write) &&
    (if r.space = 2 then sameCtx
     else if r.space = 1 then x.tile && r.lo < x.hi && x.lo < r.hi
     else !x.tile && r.lo < x.hi && x.lo < r.hi)

/-- The package-local physical form of an I/O address, as a card's range in the host window has it (R141, R262; entry 31); one beyond the
window has none there and stands from 2^60 up. -/
def hostPa (a : Nat) : Nat := if a < 2 ^ 45 then 0xA00000000000 + a else 2 ^ 60 + a

/-- Where race watch compares a translated address: device memory and LS, or the host window for a load or store. -/
def State.physOf (s : State) (p : Nat) (kind : MemKind) (x : Xl) : Option Nat :=
  match x with
  | .ok pa tgt => match s.dest p pa tgt with
    | .host a => if kind = .load || kind = .store then some (hostPa a) else none
    | _ => s.ownRead p x
  | _ => none

/-- One lane of a memory word of a pass; none where it is not compared. -/
def State.laneSpan (s : State) (t : Team) (m : MemAct) (q : LaneReq) : Option Span :=
  let w := m.kind ≠ .load
  if m.space = 0 then
    let a := lsPa t.pl.core (t.pl.lsBase + q.va)
    some ⟨false, a, a + m.n, w, 0, q.lane, q.va, 0⟩
  else if m.space = 3 then
    let x := t.pl.atBase + q.home
    some ⟨true, x, x + 1, w, 0, q.lane, q.va, q.home⟩
  else if m.space = 1 then
    (s.physOf t.pl.pkg m.kind (s.xlate t.pl.pkg t.pl.core (s.gangCtx t.pl.gang) q.va (permOf m.kind))).map fun a =>
      ⟨false, a, a + m.n, w, 0, q.lane, q.va, q.va / 2 ^ 32⟩
  else none

/-- Race watch is on for a team (R228). -/
def State.watching (s : State) (t : Team) : Bool :=
  match s.gang? t.pl.gang with | some g => g.desc.flags / 4 % 2 = 1 | none => false

/-- Cards in flight on the team's core that teams of its gang pushed, until their last access is performed (R229, R230). -/
def State.watched (s : State) (t : Team) : List Card :=
  (s.core t.pl.pkg t.pl.core).cards.filter fun k =>
    k.gang = t.pl.gang && (match k.fin with | some f => decide (s.wtc ≤ k.haul.latest.getD f) | none => true)

/-- The memory-model exception of a pass's words before position `lim`: the first word with a conflicting lane (R230). -/
def State.passRace (s : State) (t : Team) (acts : List Act) (lim : Nat) : Option PTrap :=
  if !s.watching t then none
  else
    let cards := s.watched t
    acts.findSome? fun a =>
      match a with
      | .mem m =>
        if lim ≤ m.pos then none
        else
          let bad := m.lanes.filterMap fun q => (s.laneSpan t m q).bind fun x =>
            if cards.any fun k => k.foot.any (x.conflicts true) then some x else none
          match bad with
          | [] => none
          | x :: _ => some ⟨m.pos, cMMX, BitVec.ofNat 32 x.va, BitVec.ofNat 32 x.vah, maskOf (bad.map (·.lane))⟩
      | _ => none

/-- The team's lane accesses not yet performed at their homes (R231). -/
def State.openSpans (s : State) (t : Team) : List Span :=
  let ls (off n pass lane : Nat) : Span :=
    let a := lsPa t.pl.core (t.pl.lsBase + off)
    ⟨false, a, a + n, true, pass, lane, off, 0⟩
  let staged := (s.staged.filter (·.team = t.id)).flatMap fun e =>
    match e.op with
    | .bytes l => l.map fun b => ls b.1 b.2.length e.s 0
    | .atomic f => (match s.flight? f with
      | some f => f.lanes.map fun q => ls q.va 4 e.s q.lane
      | none => [])
    | .acc l => l.map fun w =>
        let tile := w.1 / 4096 % 192
        ⟨true, tile, tile + 1, true, e.s, 0, w.1 % 4096, tile - t.pl.atBase⟩
    | _ => []
  let global := (s.flights.filter fun f => f.team = t.id && f.space = 1).flatMap fun f =>
    (f.lanes.filter fun q => (q.st = .moving || q.st = .held) && (q.home < 2 ^ 48 || 2 ^ 60 ≤ q.home)).map fun q =>
      let a := if 2 ^ 60 ≤ q.home then hostPa (q.home - 2 ^ 60) else q.home
      ⟨false, a, a + f.n, f.kind ≠ .load, f.commit, q.lane, q.va, q.va / 2 ^ 32⟩
  staged ++ global

/-- The lowest byte in which an access conflicts with a range (R231). -/
def Span.lowest (x : Span) (r : FRange) : Nat := if r.space = 0 then max x.lo r.lo else x.lo

/-- TVAL and TVALH of the exception of R231, where the card conflicts with an access not yet performed. -/
def State.cardRace (s : State) (t : Team) (foot : List FRange) : Option (Word × Word) :=
  let hits := (s.openSpans t).flatMap fun x => (foot.filter (x.conflicts true)).map fun r => (x.lowest r, x)
  match hits with
  | [] => none
  | h :: hs =>
    let best := hs.foldl (fun (a : Nat × Span) b =>
      if b.1 < a.1 || (b.1 = a.1 && (b.2.pass < a.2.pass || (b.2.pass = a.2.pass && b.2.lane < a.2.lane))) then b else a) h
    let own := lsPa t.pl.core t.pl.lsBase
    if best.2.tile then some (BitVec.ofNat 32 best.2.va, BitVec.ofNat 32 best.2.vah)
    else if own ≤ best.1 && best.1 < own + t.pl.lsBytes then some (BitVec.ofNat 32 (best.1 - own), 0)
    else
      let va := best.2.va + (best.1 - best.2.lo)
      some (addrLo va, addrHi va)

end Sys2Proof.Machine
end

