-- ==== Sys2Proof/Machine/Ports.lean ====
section
/-! DEFINITION. Slorid links (R175, R278 to R282): routes, ports, elastic slots, packets on their way, and the two link
events of training and replay. -/

namespace Sys2Proof.Machine

/-! ## Topology (R278) -/

/-- The package number behind port k of package `num`; none for the two ports without a partner. -/
def partnerNum (num k : Nat) : Option Nat :=
  let r := num / 16
  let c := num % 16
  if k < 16 then (if k = c then none else some (16 * r + k))
  else if k < 32 then (if k - 16 = r then none else some (16 * (k - 16) + c)) else none

/-- The port of the partner that faces package `num`. -/
def facing (num k : Nat) : Nat := if k < 16 then num % 16 else 16 + num / 16

def State.port (s : State) (p k : Nat) : Port := (s.pkg p).ports.getD k Port.reset
def State.modPort (s : State) (p k : Nat) (f : Port → Port) : State :=
  s.modPkg p fun x => { x with ports := x.ports.modify k f }

/-- The partner of a port as a package of the state: the link trained and the package in the pod. -/
def State.partner (s : State) (p k : Nat) : Option Nat :=
  if (s.port p k).up then (partnerNum (s.pkg p).num k).bind s.pkgOf else none

/-- Port k of package `num` has a partner: one by its place, in the pod (R278). -/
def State.hasPartner (s : State) (num k : Nat) : Bool := ((partnerNum num k).bind s.pkgOf).isSome

/-- The first port of a packet to a package (R175). -/
def routePort (num dst : Nat) : Nat := if dst % 16 = num % 16 then 16 + dst / 16 else dst % 16

/-- The largest LINKDLY of the pod's ports (R203, R302). -/
def State.dmax (s : State) : Nat :=
  s.pkgs.foldl (fun m x => x.ports.foldl (fun m k => if k.up then max m k.delay else m) m) 0

/-! ## Elastic slots (R282) -/

/-- The table in force on a package in cycle n (R284). -/
def Pkg.schedAt (x : Pkg) (n : Nat) : Option Sched :=
  match x.next with
  | some t => if t.from_ ≤ n then some t else x.sched
  | none => x.sched

/-- The slot of port k in cycle n is scheduled. -/
def Pkg.scheduledSlot (x : Pkg) (k n : Nat) : Bool :=
  match x.schedAt n with
  | none => false
  | some t => t.maps.any fun m => m.1 = k && m.2.contains (n % 2 ^ t.flog)

/-- The first elastic slot of a port from cycle n on: every run of 8 holds one (R284). -/
def Pkg.elasticFrom (x : Pkg) (k : Nat) : Nat → Nat → Nat
  | 0, n => n
  | f + 1, n => if x.scheduledSlot k n then x.elasticFrom k f (n + 1) else n

/-- The port's next elastic slot after this cycle is put on the agenda, where it is not there yet. -/
def State.arm (s : State) (p k : Nat) : State :=
  if s.agenda.any fun e => e.ev = .elasticSlotSend p k then s
  else s.at ((s.pkg p).elasticFrom k 64 (s.wtc + 1)) pFabric [p, k] (.elasticSlotSend p k)

/-- A packet enters a queue of a port (R175, R343). -/
def State.enterPort (s : State) (p k : Nat) (tub : Bool) (x : Packet) : State :=
  let x := { x with entered := s.wtc, sent := 0, via := 32 * p + k }
  (s.modPort p k fun q => if tub then { q with tubq := q.tubq ++ [x] } else { q with hdrq := q.hdrq ++ [x] }).arm p k

/-- The event of a packet's arrival at its destination. -/
def arrivalEvent (p : Nat) (x : Packet) : Instr :=
  match x.body with
  | .tub _ _ | .loadReq _ _ _ _ | .token _ _ _ _ | .stamp _ => .packetTakenIn p x.id
  | .ack _ _ => .acknowledgementArrival p x.id
  | .loadReply _ _ _ => .remoteLoadReplyArrival p x.id
  | .ring _ _ _ _ _ _ _ => .ringMessageArrival p x.id
  | .ringAck _ _ _ => .ringAckArrival p x.id
  | .halt b o k => .haltReceipt p b o k
  | .drain _ _ _ => .migdrainReceipt p x.id
  | .drainReply _ => .migdrainReply x.id false
  | .slot _ _ _ _ _ _ => .slotDelivery p x.id

/-- Lag of a port in cycle n: one slot less every 16 cycles (R281). -/
def Port.lagNow (q : Port) (n : Nat) : Nat := q.lag - (n - q.lagAt) / 16

/-- Cycles by which a slot sent in cycle n comes late: the lag beyond the replay allowance (R281). -/
def Port.lateBy (q : Port) (n : Nat) : Nat := q.lagNow n - (2 * q.wire + 32)

/-- The packet's last slot leaves port k in this cycle: it arrives LINKDLY later (R279). A packet for another package is
forwarded there (R175). -/
def State.depart (s : State) (p k : Nat) (x : Packet) : State :=
  match s.partner p k with
  | none => s
  | some q =>
    let pt := s.port p k
    let at_ := s.wtc + pt.delay + pt.lateBy s.wtc
    let x := { x with last := s.wtc, sent := x.slots }
    let s : State := { s with packets := s.packets ++ [x] }
    if (s.pkg q).num = x.dst then s.at at_ pRemote [1, q, x.id] (arrivalEvent q x)
    else s.at at_ pRemote [1, q, x.id] (.intermediateForward q x.id)

/-- A packet by number. -/
def State.packet? (s : State) (i : Nat) : Option Packet := s.packets.find? (·.id = i)
def State.dropPacket (s : State) (i : Nat) : State := { s with packets := s.packets.filter (·.id ≠ i) }

/-- A headered packet from a package to another of the pod, through the port of its route. A packet with no way is not
sent. -/
def State.sendHeadered (s : State) (p dst slots : Nat) (body : PBody) : State :=
  let k := routePort (s.pkg p).num dst
  match s.partner p k with
  | none => s
  | some _ =>
    let (i, s) := s.fresh
    s.enterPort p k false ⟨i, (s.pkg p).num, dst, 0, slots, 0, 0, body, 0, 0, [], 0⟩

/-- What one elastic slot carries (R175): where both queues wait, the one that did not take the previous elastic slot. -/
inductive SlotPick where
  | halt (x : Packet) (r : List Packet)
  | tub (x : Packet) (r : List Packet)
  | hdr (x : Packet) (r : List Packet)
  | nothing

/-- The pick of a slot. Where both queues wait and neither took the previous elastic slot (a halt had it, or nothing did), the one that
took an elastic slot last stands back (DESIGN CHOICE, entry 85). -/
def Port.pick (q : Port) (n : Nat) : SlotPick :=
  let ready (l : List Packet) : Option (Packet × List Packet) :=
    match l with
    | x :: r => if x.entered < n then some (x, r) else none
    | [] => none
  match ready q.halts, ready q.tubq, ready q.hdrq with
  | some (x, r), _, _ => .halt x r
  | none, some (x, r), some (y, t) => if q.tubLast then .hdr y t else .tub x r
  | none, some (x, r), none => .tub x r
  | none, none, some (y, t) => .hdr y t
  | none, none, none => .nothing

/-- A slot of the head packet is sent: the queue that remains. -/
def afterSlot (x : Packet) (r : List Packet) : List Packet :=
  if x.sent + 1 = x.slots then r else { x with sent := x.sent + 1 } :: r

/-- A halt is broadcast ahead of both queues of every port of a list with a partner (R302). -/
def State.castHalt (s : State) (p : Nat) (ks : List Nat) (b orig kind : Nat) : State :=
  ks.foldl (fun s k =>
    match s.partner p k with
    | none => s
    | some q =>
      let (i, s) := s.fresh
      let x : Packet := ⟨i, (s.pkg p).num, (s.pkg q).num, 0, 1, 0, s.wtc, .halt b orig kind, 0, 0, [], 32 * p + k⟩
      (s.modPort p k fun y => { y with halts := y.halts ++ [x] }).arm p k) s

/-! ## Link events -/

/-- LINK_TRAINING (R278, R280): what training measures on a port, or its loss; a port without a partner stays untrained. -/
def execLinkTraining (p n wire : Nat) (up : Bool) (s : State) : Out :=
  .next (s.modPort p n fun q =>
    if up && s.hasPartner (s.pkg p).num n then { q with wire := wire, delay := 3 * wire + 32, up := true }
    else { q with wire := 0, delay := 0, up := false })

/-- An agenda with some entries moved later. -/
def lateAgenda (f : Entry → Nat) (l : List Entry) : List Entry :=
  l.foldl (fun a e => insertEntry { e with cyc := e.cyc + f e } a) []

/-- The packet whose arrival an entry of the agenda is; a halt's entry has it in its key. -/
def Entry.packet (e : Entry) : Option Nat := match e.ev with
  | .haltReceipt _ _ _ _ => e.key[2]?
  | .packetTakenIn _ i | .acknowledgementArrival _ i | .remoteLoadReplyArrival _ i | .ringMessageArrival _ i
  | .ringAckArrival _ i | .migdrainReceipt _ i | .migdrainReply i _ | .slotDelivery _ i | .intermediateForward _ i => some i
  | _ => none

/-- How much later the entry comes where it is the arrival of a slot that left port n of a package within its last L1 cycles, or
will leave it (R226, R281): the port's lateness now, or as it leaves, in place of the one it had. -/
def State.replayShift (s : State) (p n : Nat) (e : Entry) : Nat :=
  let q := s.port p n
  match e.packet.bind s.packet? with
  | some x => if x.via = 32 * p + n && s.wtc ≤ x.last + q.wire then x.last + q.delay + q.lateBy (max s.wtc x.last) - e.cyc else 0
  | none => 0

/-- CRC_REPLAY (R226, R281, R363): the slot sent L1 cycles ago on port n failed. The lag grows by 2·L1 + 16; where it then exceeds the
allowance, the slots sent since come late and the fault LINK is raised. -/
def execCrcReplay (p n : Nat) (s : State) : Out :=
  let q := s.port p n
  let lag := q.lagNow s.wtc + 2 * q.wire + 16
  let s := (s.modPort p n fun y => { y with lag := lag, lagAt := s.wtc }).notice p 4 (512 + n) lag
  .next (if lag ≤ 2 * q.wire + 32 then s
    else
      let f := s.replayShift p n
      ({ s with agenda := lateAgenda f s.agenda } : State).then (.scheduleFault p 5 256 0 0))

end Sys2Proof.Machine
end

