-- ==== Sys2Proof/Machine/Csr.lean ====
section
/-! DEFINITION. The CSRs of R315: what a read returns as the machine stands, which bits a write changes, and the writes
that take effect elsewhere: the hash masks (R158, R159), TUBAGE (R189) and the watchpoint. -/

namespace Sys2Proof.Machine

/-! ## Reading -/

/-- TEAMINFO (R316). -/
def teamInfo (s : State) (t : Team) : Word :=
  match s.gang? t.pl.gang with
  | none => 0
  | some g =>
    BitVec.ofNat 32 ((if s.priv t then 1 else 0) + g.desc.flags % 4 * 2 + g.desc.flags / 8 % 2 * 8 +
      (if g.desc.flags / 8 % 2 = 1 && 64 ≤ t.pl.slot then 16 else 0) + g.ctx % 256 * 256 + g.num % 65536 * 65536)

/-- LINKDLY of a port that has a partner (R280). -/
def linkDly (x : Port) : Word := BitVec.ofNat 32 (x.delay % 4096 + x.wire % 256 * 4096 + if x.up then 2 ^ 31 else 0)

/-- SCHEDSTAT (R301). -/
def schedStat (x : Pkg) : Word :=
  BitVec.ofNat 32 ((if x.schedRun then 1 else 0) + (if x.halted then 2 else 0) + x.haltKind % 16 * 256 +
    x.fcnt % 65536 * 65536)

/-- A register of a trap bank (R314): field 1 TCAUSE to 8 TVEC. -/
def Bank.get (b : Bank) : Nat → Word
  | 1 => b.cause | 2 => b.epc | 3 => b.pass | 4 => b.val | 5 => b.valh | 6 => b.skid | 7 => b.save | 8 => b.vec
  | _ => 0

/-- A word of a lane mask. -/
def maskWord (m : Mask) (k : Nat) : Word := BitVec.ofNat 32 (m.toNat / 2 ^ (32 * k))

/-- The CSR of a team as the machine stands, the WTC pair apart (R315). -/
def csrRead (s : State) (t : Team) (n : Nat) : Word :=
  let p := s.pkg t.pl.pkg
  let ctx := s.ctx? t.pl.pkg (s.gangCtx t.pl.gang)
  if n = 0x000 then teamInfo s t
  else if n = 0x001 then t.csr.fflags
  else if n = 0x002 then t.csr.trapen
  else if n = 0x003 then t.csr.rstat
  else if n = 0x004 then (match s.gang? t.pl.gang with | some g => BitVec.ofNat 32 (g.desc.flags / 4 % 2) | none => 0)
  else if n = 0x005 then t.csr.frm
  else if n = 0x020 then p.tubage
  else if n = 0x021 then (match ctx with | some x => x.tuberrB | none => 0)
  else if n = 0x022 then (match ctx with | some x => x.tuberrH | none => 0)
  else if n = 0x023 then (match ctx with | some x => x.tuberrT | none => 0)
  else if n = 0x024 then t.csr.rseq
  else if n = 0x030 then p.rtimeout
  else if n = 0x100 then BitVec.ofNat 32 t.tl
  else if 0x101 ≤ n && n ≤ 0x108 then t.bank1.get (n - 0x100)
  else if 0x111 ≤ n && n ≤ 0x118 then t.bank2.get (n - 0x110)
  else if 0x140 ≤ n && n ≤ 0x15F then maskWord t.bank1.tlm (n - 0x140)
  else if 0x160 ≤ n && n ≤ 0x17F then maskWord t.bank2.tlm (n - 0x160)
  else if n = 0x200 then schedStat p
  else if n = 0x201 then t.csr.mstat
  else if n = 0x202 then t.csr.hstat
  else if n = 0x203 then (s.core t.pl.pkg t.pl.core).ringdrop
  else if n = 0x204 then BitVec.ofNat 32 (p.remap.getD t.pl.core 0)
  else if n = 0x205 then BitVec.ofNat 32 t.pl.lsBase
  else if n = 0x206 then t.csr.qstat
  else if n = 0x207 then t.csr.fstat
  else if n = 0x208 then t.csr.qpoint
  else if n = 0x209 then t.csr.qcyc
  else if n = 0x210 then
    (match (s.gang? t.pl.gang).bind (·.wdog) with | some x => BitVec.ofNat 32 (x - s.wtc) | none => 0)
  else if 0x300 ≤ n && n ≤ 0x308 then p.hashm.getD (n - 0x300) 0
  else if n = 0x310 then t.csr.wpaddr
  else if n = 0x311 then t.csr.wpctl
  else if n = 0x312 then t.csr.wphit
  else if 0x400 ≤ n && n ≤ 0x41F then if s.hasPartner p.num (n - 0x400) then linkDly (p.ports.getD (n - 0x400) Port.reset) else 0
  else 0

/-- The CSRs only privileged code may touch: PRW in their maps (R7, R159, R183, R189). That TUBAGE and RTIMEOUT are read by every
team, as R189's prose has it, against their map, is not followed (DESIGN CHOICE, entry 75). -/
def csrPriv (n : Nat) : Bool := n = 0x020 || n = 0x021 || n = 0x030 || (0x300 ≤ n && n ≤ 0x308)

/-! ## Writing (R318) -/

/-- What a write leaves: RW bits take the new value, W1C bits set in b are cleared by `csrw` and `csrs`, others stay.
`cur` is the register now, `old` as at the start of the pass. -/
def csrMix (kind : CsrKind) (cur old b rw w1c : Word) : Word :=
  let new := match kind with | .write => b | .set => old ||| b | .clear => old &&& ~~~ b
  let clr := match kind with | .clear => 0 | _ => b &&& w1c
  (cur &&& ~~~ rw &&& ~~~ clr) ||| (new &&& rw)

/-- A bank after a write of its field (R314); TSKID is read-only. -/
def Bank.put (b : Bank) (k : Nat) (mix : Word → Word → Word) : Bank :=
  match k with
  | 1 => { b with cause := mix b.cause 0x31F }
  | 2 => { b with epc := mix b.epc 0xFFFF }
  | 3 => { b with pass := mix b.pass 0xF3F }
  | 4 => { b with val := mix b.val 0xFFFFFFFF }
  | 5 => { b with valh := mix b.valh 0xFFFFFFFF }
  | 7 => { b with save := mix b.save 0x1FFFC0 }
  | 8 => { b with vec := mix b.vec 0x8000FFFF }
  | _ => b

/-- The team's own registers after a write (R130 to R132, R184, R260, R277, R299, R324). -/
def TeamCsr.put (r : TeamCsr) (n : Nat) (mix : Word → Word → Word → Word) : TeamCsr :=
  if n = 0x001 then { r with fflags := mix r.fflags 0x1F 0 }
  else if n = 0x002 then { r with trapen := mix r.trapen 0x71F 0 }
  else if n = 0x003 then { r with rstat := mix r.rstat 0 7 }
  else if n = 0x005 then { r with frm := mix r.frm 3 0 }
  else if n = 0x201 then { r with mstat := mix r.mstat 0xFF00 0xFF }
  else if n = 0x202 then { r with hstat := mix r.hstat 0 1 }
  else if n = 0x206 then { r with qstat := mix r.qstat 0 0x1F }
  else if n = 0x207 then { r with fstat := mix r.fstat 0 3 }
  else if n = 0x310 then { r with wpaddr := mix r.wpaddr 0x1FFFFF 0 }
  else if n = 0x311 then { r with wpctl := mix r.wpctl 0xF7 0 }
  else if n = 0x312 then { r with wphit := mix r.wphit 0 3 }
  else r

/-- TUBAGE after a write: below 64 stores 64, above 4,096 stores 4,096 (R189). -/
def clampAge (x : Word) : Word := if x.toNat < 64 then 64 else if 4096 < x.toNat then 4096 else x

/-- RTIMEOUT after a write: below 1,024 stores 1,024 (R189). -/
def clampTimeout (x : Word) : Word := if x.toNat < 1024 then 1024 else x

/-- A CSR write at its commit (R318). -/
def State.csrWrite (s : State) (t : Nat) (n : Nat) (kind : CsrKind) (old b : Word) : State :=
  match s.team? t with
  | none => s
  | some tm =>
    let p := tm.pl.pkg
    let ctx := s.gangCtx tm.pl.gang
    let mix (cur rw w1c : Word) : Word := csrMix kind cur old b rw w1c
    if 0x101 ≤ n && n ≤ 0x108 then
      s.modTeam t fun x => { x with bank1 := x.bank1.put (n - 0x100) fun c m => mix c m 0 }
    else if 0x111 ≤ n && n ≤ 0x118 then
      s.modTeam t fun x => { x with bank2 := x.bank2.put (n - 0x110) fun c m => mix c m 0 }
    else if n = 0x020 then s.then (.tubageWrite p (mix (s.pkg p).tubage 0x1FFF 0))
    else if n = 0x021 then s.modCtx p ctx fun x => { x with tuberrB := mix x.tuberrB 0xFFFFFF1F 0 }
    else if n = 0x023 then s.modCtx p ctx fun x => { x with tuberrT := mix x.tuberrT 0xFFFFFFFF 0 }
    else if n = 0x030 then s.modPkg p fun x => { x with rtimeout := clampTimeout (mix x.rtimeout 0xFFFFFFF 0) }
    else if 0x300 ≤ n && n ≤ 0x307 then s.then (.hashmHeldWrite p (n - 0x300) (mix old 0xFFFFFFFF 0))
    else if n = 0x308 then s.then (.hashm8Apply p (mix old 0xFFFFFFFF 0))
    else s.modTeam t fun x => { x with csr := x.csr.put n mix }

/-- CSR_WRITE (R318). -/
def execCsrWrite (t idx : Nat) (kind : CsrKind) (old x : Word) (s : State) : Out := .next (s.csrWrite t idx kind old x)

/-! ## The hash masks (R158, R159) -/

/-- The lowest PA bit a mask selects, if any. -/
def anchorOf (m : Word) : Option Nat := ((List.range 32).find? fun i => m.getLsbD i).map (· + 7)

/-- A set of masks obeys R158. -/
def hashOk (ms : List Word) : Bool :=
  let an := ms.filterMap anchorOf
  ms.length = 9 && an.length = 9 && (distinct an).length = 9 && an.all (· ≤ 36) &&
    (List.range 9).all fun k => (List.range 9).all fun j => k = j || !(ms.getD k 0).getLsbD (an.getD j 0 - 7)

/-- The PA bits of a number that no mask anchors, packed in order (R158). -/
def packBits (an : List Nat) (pa : Nat) : Nat :=
  ((List.range 39).filter fun i => !an.contains i).foldl (fun (x : Nat × Nat) i =>
    (x.1 + pa / 2 ^ i % 2 * 2 ^ x.2, x.2 + 1)) (0, 0) |>.1

/-- The PA with the packed bits in the places no mask anchors, its anchors zero. -/
def unpackBits (an : List Nat) (x : Nat) : Nat :=
  ((List.range 39).filter fun i => !an.contains i).foldl (fun (y : Nat × Nat) i =>
    (y.1 + x / 2 ^ y.2 % 2 * 2 ^ i, y.2 + 1)) (0, 0) |>.1

/-- The PA that a new set of masks gives the home an old set gives an address. -/
def rehash (old new : List Word) (pa : Nat) : Nat :=
  let y := unpackBits (new.filterMap anchorOf) (packBits (old.filterMap anchorOf) pa)
  (List.range 9).foldl (fun a k =>
    if parity (old.getD k 0) pa = parity (new.getD k 0) y then a
    else a + 2 ^ ((anchorOf (new.getD k 0)).getD 0)) y

/-- A pod address of device memory moved with its home; others stay. -/
def State.rehashed (s : State) (p : Nat) (old new : List Word) (a : Nat) : Nat :=
  let base := s.pod p 0
  if base ≤ a && a < base + hbmSize then base + rehash old new (a - base) else a

/-- The masks change: each address afterwards reads the bytes held at its new home (R159). -/
def State.setHash (s : State) (p : Nat) (new : List Word) : State :=
  let old := (s.pkg p).hashm
  let f := s.rehashed p old new
  let s' : State := { s with mem := s.mem.foldl (fun m c => memPut m (f c.1) [c.2]) [], uce := s.uce.map f, sbe := s.sbe.map f }
  s'.modPkg p fun x => { x with hashm := new, hashHeld := new, held := List.replicate 9 false }

/-- HASHM_HELD_WRITE (R159). -/
def execHashmHeldWrite (p k : Nat) (x : Word) (s : State) : Out :=
  .next (s.modPkg p fun y => { y with hashHeld := y.hashHeld.set k x, held := y.held.set k true })

/-- The set a write of HASHM8 would put in force (R159). -/
def Pkg.hashSet (y : Pkg) (x : Word) : List Word :=
  (List.range 9).map fun k => if k = 8 then x else if y.held.getD k false then y.hashHeld.getD k 0 else y.hashm.getD k 0

/-- HASHM8_APPLY (R159): all nine masks together, or none where the set breaks R158; the held values go in either case (DESIGN
CHOICE, entry 81). -/
def execHashm8Apply (p : Nat) (x : Word) (s : State) : Out :=
  let new := (s.pkg p).hashSet x
  .next (if hashOk new then s.setHash p new
    else s.modPkg p fun y => { y with hashHeld := y.hashm, held := List.replicate 9 false })

end Sys2Proof.Machine
end

