-- ==== Sys2Proof/Machine/Storage.lean ====
section
/-! DEFINITION. A core's allocation units in the order of a save image (R83, R84, R331), and the writing of load replies to
the half or to the image (R48, R332). -/

namespace Sys2Proof.Machine

/-- The least power of two at or above a demand; 0 for none (R84). -/
def roundUp (n : Nat) : Nat := if n = 0 then 0 else 2 ^ Nat.log2 (2 * n - 1)

def Chunk.size : Chunk → Nat
  | .u _ _ => 256
  | _ => 1024

/-- Teams sorted by a number of theirs. -/
def sortTeams (f : Team → Nat) (l : List Team) : List Team :=
  l.foldl (fun acc t => acc.filter (fun u => f u ≤ f t) ++ t :: acc.filter (fun u => f t < f u)) []

/-- The teams of a gang on a core, ended or not. -/
def State.gangTeams (s : State) (g p c : Nat) : List Team :=
  s.teams.filter fun t => t.pl.gang = g && t.pl.pkg = p && t.pl.core = c

/-- The reads of a gang's save image on a core, in order (R331). -/
def State.chunks (s : State) (g p c : Nat) : List Chunk :=
  let ts := s.gangTeams g p c
  let v := (sortTeams (·.pl.vUnit) ts).flatMap fun t => (List.range t.pl.vUnits).map (.v t.id)
  let u := (sortTeams (·.pl.uUnit) ts).flatMap fun t => (List.range t.pl.uUnits).map (.u t.id)
  let bases := distinct ((sortTeams (·.pl.lsBase) ts).map fun t => (t.pl.lsBase, roundUp (t.pl.lsBytes / 4096)))
  let ls := bases.flatMap fun b => (List.range (4 * b.2)).map fun k => .ls (b.1 + 1024 * k)
  let acc := (sortTeams (·.pl.atBase) ts).flatMap fun t =>
    (List.range (roundUp t.pl.atiles)).flatMap fun k => (List.range 16).map (.acc (t.pl.atBase + k))
  v ++ u ++ ls ++ acc

/-- The image offset of a read: behind the control block and the reads before it (R331). -/
def chunkOffset (l : List Chunk) (i : Nat) : Nat := 4096 + (l.take i).foldl (fun n c => n + c.size) 0

/-- The unit of a vector register's lane, and its byte within the unit (entry 12): units go warp by warp, eight registers
each. -/
def vUnitOf (t : Team) (d l : Nat) : Nat × Nat := (l / 32 * (t.pl.vregs / 8) + d / 8, d % 8 * 128 + l % 32 * 4)

/-- One KiB of the control block, from its byte 1024·k up: the layout is not stated (entry 12). -/
def controlBytes (k : Nat) : List Byte := (List.range 1024).map fun i => Config.controlBlockByte (1024 * k + i)

/-- The bytes of one read (R331). -/
def State.chunkBytes (s : State) (p c : Nat) : Chunk → List Byte
  | .v t k =>
    let tm := (s.team? t).getD Team.none
    let per := tm.pl.vregs / 8
    if per = 0 || tm.pl.warps * per ≤ k then (List.range 1024).map Config.paddingByte
    else (List.range 8).flatMap fun r => (List.range 32).flatMap fun l =>
      natBytes 4 (tm.v (k % per * 8 + r) (k / per * 32 + l)).toNat
  | .u t k =>
    let tm := (s.team? t).getD Team.none
    if tm.pl.uregs ≤ 64 * k then (List.range 256).map Config.paddingByte
    else (List.range 64).flatMap fun r => natBytes 4 (tm.g (64 * k + r)).toNat
  | .ls off => natBytes 1024 (s.rd p (lsPa c off) 1024)
  | .ctl k => controlBytes k
  | .acc tile part => (List.range 256).flatMap fun e => natBytes 4 (accWord s.acc (accIx p c tile (256 * part + e))).toNat

/-- A gang's save on a core, where one is in progress. -/
def State.saveOf (s : State) (g c : Nat) : Option SaveSt :=
  (s.gang? g).bind fun x => if x.state = .spill then x.saves.find? (·.core = c) else none

def State.modSave (s : State) (g c : Nat) (f : SaveSt → SaveSt) : State :=
  s.modGang g fun x => { x with saves := x.saves.map fun y => if y.core = c then f y else y }

/-- The base of a gang's save image on a core: the service's base, one image a core in order (entry 12). -/
def Gang.imageOf (x : Gang) (c : Nat) : Nat :=
  let i := x.saves.findIdx (·.core = c)
  x.image + 0x400000 * i

/-- The unit of a register that a reply owes has been read by the spill: its image address (R332). -/
def State.imageAddr (s : State) (t : Team) (d l : Nat) : Option Nat :=
  match s.saveOf t.pl.gang t.pl.core, s.gang? t.pl.gang with
  | some y, some x =>
    let l' := s.chunks t.pl.gang t.pl.pkg t.pl.core
    let (k, o) := vUnitOf t d l
    let i := l'.findIdx (· = .v t.id k)
    if i < y.next then some (x.imageOf t.pl.core + chunkOffset l' i + o) else none
  | _, _ => none

/-- A write of the save port or of a spilled reply leaves the core (R331, R332). -/
def State.imageWrite (s : State) (p c g c0 pa : Nat) (bs : List Byte) : State :=
  let segs := (distinct ((List.range bs.length).map fun k => (pa + k) / 64)).map fun a =>
    let lo := max pa (64 * a)
    let hi := min (pa + bs.length) (64 * a + 64)
    (64 * a, (⟨0, 0, 1, false, .spill c g lo ((bs.drop (lo - pa)).take (hi - lo))⟩ : Seg))
  (s.modSave g c fun y => { y with left := y.left + segs.length }).gatherAt p (c0 + 200) [0, c, 2] segs

/-- The words a lane of a flight receives (R165, R180, R190): all ones past the greatest loaded value. -/
def replyWords (f : Flight) (q : LaneReq) : List Word :=
  if 2 ^ 128 ≤ q.got then List.replicate (max 1 (f.n / 4)) (BitVec.allOnes 32)
  else if f.kind = .load then landVals f.n f.sx q.got
  else [toF q.got]

/-- A reply is written: to the registers, or to the image of a unit already read (R332). Replies to a killed gang are
discarded (R322). -/
def State.writeReply (s : State) (f : Flight) (q : LaneReq) : State :=
  match s.team? f.team with
  | none => s
  | some t =>
    let dead := match (s.gang? f.gang).bind (·.killAt) with | some k => decide (k < s.wtc) | none => false
    if dead then s
    else
      let ws := replyWords f q
      match s.imageAddr t f.d q.lane with
      | none => s.modTeam t.id fun x => { x with vr := setRegs x.vr f.d q.lane ws }
      | some _ =>
        (ws.zip (List.range ws.length)).foldl (fun s z =>
          match s.imageAddr t (f.d + z.2) q.lane with
          | some a => s.imageWrite t.pl.pkg t.pl.core t.pl.gang s.wtc a (natBytes 4 z.1.toNat)
          | none => s) s

/-- Some performed lanes of a flight are written and done (R48). -/
def State.writeReplies (s : State) (i : Nat) (pick : LaneReq → Bool) : State :=
  match s.flight? i with
  | none => s
  | some f =>
    let s := (f.lanes.filter pick).foldl (fun s q => s.writeReply f q) s
    (s.modLanes i fun q => if pick q then { q with st := .done } else q).settle i

end Sys2Proof.Machine
end

