-- ==== Sys2Proof/Machine/LaneEvents.lean ====
section
/-! DEFINITION. The steps of lane accesses after their commit: landing data, staged stores and atomics at their banks,
package-global accesses, and the reporting of faults (R48, R149 to R151, R312, R332). -/

namespace Sys2Proof.Machine

def State.landing? (s : State) (l : Nat) : Option Landing := s.landings.find? (·.id = l)

/-- The lanes of a landing that are still to be written. -/
def Landing.pick (x : Landing) (q : LaneReq) : Bool := x.lanes.contains q.lane && q.st = .performed

/-- A landing is written and gone. -/
def State.land (s : State) (l : Nat) : State :=
  match s.landing? l with
  | none => s
  | some x =>
    let s : State := { s with landings := s.landings.filter (·.id ≠ l) }
    s.writeReplies x.flight x.pick

/-- The landing's registers lie in a unit the spill has read (R332). -/
def State.spilledLanding (s : State) (x : Landing) : Bool :=
  match s.flight? x.flight with
  | none => false
  | some f => match s.team? f.team with
    | none => false
    | some t => (f.lanes.filter x.pick).any fun q => (s.imageAddr t f.d q.lane).isSome

/-- LOAD_DATA_WRITTEN (R48). -/
def execLoadDataWritten (l : Nat) (s : State) : Out :=
  match s.landing? l with
  | none => .next s
  | some x => .next (if s.spilledLanding x then s.then (.spilledReplyWrite l) else s.land l)

/-- SPILLED_REPLY_WRITE (R332). -/
def execSpilledReplyWrite (l : Nat) (s : State) : Out := .next (s.land l)

def State.staged? (s : State) (i : Nat) : Option Staged := s.staged.find? (·.id = i)
def State.dropStaged (s : State) (i : Nat) : State := { s with staged := s.staged.filter (·.id ≠ i) }

/-- Bytes of a staged store written in ascending team lane index (R149). -/
def State.putStaged (s : State) (e : Staged) (l : List (Nat × List Byte)) : State :=
  l.foldl (fun (s : State) b => s.lsWrite e.pkg e.core (e.base + b.1) b.2 (.lane e.team e.core e.from_.words)) s

/-- Accumulator words written (R168). -/
def State.putAcc (s : State) (l : List (Nat × Word)) : State :=
  l.foldl (fun (s : State) w => s.accWrite w.1 [w.2]) s

/-- STAGED_STORE_PERFORMED (R149, R168). -/
def execStagedStorePerformed (i : Nat) (s : State) : Out :=
  match s.staged? i with
  | none => .next s
  | some e =>
    .next (match e.op with
      | .bytes l => (s.putStaged e l).dropStaged i
      | .frame off bs => (s.lsPut e.pkg e.core (e.base + off) bs (.lane e.team e.core e.from_.words)).dropStaged i
      | .acc l => (s.putAcc l).dropStaged i
      | _ => s.dropStaged i)

/-- LS_ATOMIC_PERFORMED (R150). -/
def execLsAtomicPerformed (i : Nat) (s : State) : Out :=
  match s.staged? i with
  | none => .next s
  | some e =>
    match e.op with
    | .atomic f =>
      let words := match s.flight? f with | some x => x.lanes.map (·.va) | none => []
      .next (((s.performLanes f 4 (·.st = .moving)).refill s e words).dropStaged i)
    | _ => .next (s.dropStaged i)

/-- PACKAGE_GLOBAL_ACCESS (R151). -/
def execPackageGlobalAccess (i : Nat) (s : State) : Out :=
  let now := s.wtc
  .next (s.performLanes i 20 fun q =>
    q.st = .moving && q.due = now && (match homeOf q.home with | .ls _ _ => true | _ => false))

/-- The faults of one cause in a flight's lanes, reported as one (R312, R338). -/
def State.reportCause (s : State) (f : Flight) (bad : List LaneReq) (cause : Nat) : State :=
  match bad.filter (·.got = cause) with
  | [] => s
  | q :: qs =>
    s.fault f.team f.level cause (addrLo q.va) (addrHi q.va) (maskOf ((q :: qs).map (·.lane))) f.words f.hdr f.pass f.pos

/-- Lanes of a flight with a fault due are done. -/
def State.endFaults (s : State) (i : Nat) (f : LaneReq → Bool) : State :=
  let now := s.wtc
  (s.modLanes i fun q => if f q && q.due ≤ now then { q with st := .faulted } else q).settle i

/-- A fault that the walk of a page found is reported once for every word of the pass it served (R147, R338). -/
def State.reportWalk (s : State) (f : Flight) (page cause : Nat) : State :=
  let hit (q : LaneReq) : Bool := q.st = .unmapped && q.va / 4096 = page && q.got = cause
  let fs := s.flights.filter fun g => g.samePass f && g.lanes.any fun q => hit q && q.due ≤ s.wtc
  let bad := fs.flatMap fun g => g.lanes.filter fun q => hit q && q.due ≤ s.wtc
  match bad with
  | [] => s
  | q :: qs =>
    let low := qs.foldl (fun a b => if b.lane < a.lane then b else a) q
    let s := s.fault f.team f.level cause (addrLo low.va) (addrHi low.va) (maskOf (bad.map (·.lane))) f.words f.hdr f.pass f.pos
    fs.foldl (fun s g => s.endFaults g.id hit) s

/-- FAULT_REPORT (R312, R338): faulted lanes are reported by cause, lowest lane first, and are done; those whose fault a walk found with
every word of their pass. -/
def execFaultReport (i : Nat) (s : State) : Out :=
  match s.flight? i with
  | none => .next s
  | some f =>
    let bad := f.lanes.filter fun q => q.st = .err && q.due ≤ s.wtc
    let s := (distinct (bad.map (·.got))).foldl (fun s c => s.reportCause f bad c) s
    let walked := distinct ((f.lanes.filter fun q => q.st = .unmapped && q.due ≤ s.wtc).map fun q => (q.va / 4096, q.got))
    let s := walked.foldl (fun s z => s.reportWalk f z.1 z.2) s
    .next (s.endFaults i (·.st = .err))

end Sys2Proof.Machine
end

