-- ==== Sys2Proof/Machine/Tubs.lean ====
section
/-! DEFINITION. The source side of remote stores and atomics: elements and tubs (R170 to R177), packets leaving (R175,
R343), statuses becoming known (R176, R180, R181) and TUBERR records (R182, R183, R345). -/

namespace Sys2Proof.Machine

/-! ## Destinations (R170) -/

/-- The destination key of a lane's remote home (R170). A TGT 3 address below every station window goes to station 0 (DESIGN CHOICE,
entry 84). -/
def dkeyOf (home : Nat) : Nat :=
  if home < 2 ^ 56 then home / 2 ^ 48
  else
    let pa := home - 2 ^ 56
    4096 + (pa - 0xC00000000000) / 0x100000000000 % 4 * 1024 + pa / 2 ^ 34 % 1024

/-- The address carried. -/
def carried (home : Nat) : Nat := if home < 2 ^ 56 then home % 2 ^ 48 else (home - 2 ^ 56) % 2 ^ 34

/-- The key names a UALink peer. -/
def isUal (dkey : Nat) : Bool := 4096 ≤ dkey

/-! ## Elements (R171, R177) -/

/-- A zero-length element (R173). -/
def Elem.zl (e : Elem) : Bool := e.kind = .store && e.be = 0

def mkElem (f : Flight) (q : LaneReq) (up : Nat) (x : Word) (be : Nat) : Elem :=
  { va := (q.va + up) / 4 * 4, pa := (carried q.home + up) / 4 * 4, data := x, cmp := toF q.cmp, be := be, kind := f.kind,
    aop := f.aop, ctx := f.ctx, core := f.core, slot := f.slot, team := f.team, lane := q.lane, seq := f.seq, mrg := 0,
    ins := 0, parts := [⟨f.id, q.lane, x⟩], fault := 0, old := 0, done := false, dkey := dkeyOf q.home, drain := false,
    evicted := false }

/-- The elements of one store lane: the bytes written with their enables; a 64-bit store gives its low word first. -/
def storeElems (f : Flight) (q : LaneReq) : List Elem :=
  if f.zero then [mkElem f q 0 0 0]
  else if f.n = 8 then [mkElem f q 0 (toF q.data) 15, mkElem f q 4 (toF (q.data / 2 ^ 32)) 15]
  else
    let o := q.va % 4
    [mkElem f q 0 (toF (q.data * 2 ^ (8 * o))) ((2 ^ f.n - 1) * 2 ^ o % 16)]

/-- The operations whose lanes are not reduced to one element (R177). -/
def splits (op : AOp) : Bool := op = .cas || op = .fadd || op = .bfadd2

/-- The elements of a pass of an atomic, its lanes in ascending order (R177). -/
def atomElems (f : Flight) : List LaneReq → List Elem → List Elem
  | [], acc => acc
  | q :: qs, acc =>
    let e := mkElem f q 0 (toF q.data) 15
    if !splits f.aop && acc.any (fun y => y.dkey = e.dkey && y.pa = e.pa) then
      atomElems f qs (acc.map fun y =>
        if y.dkey = e.dkey && y.pa = e.pa then
          { y with data := atomic f.aop y.data e.data 0, parts := y.parts ++ e.parts }
        else y)
    else atomElems f qs (acc ++ [e])

/-- The old values the contributors of an element receive (R177). -/
def rebuilt (op : AOp) : Word → List Contrib → List Word
  | _, [] => []
  | old, c :: cs => old :: rebuilt op (atomic op old c.x 0) cs

/-! ## TUBERR records (R182) -/

def kindCode : MemKind → Nat
  | .store => 0 | .atomN => 1 | .atomF => 2 | .load => 3

/-- A record's 32 bytes. -/
def tuberrBytes (va : Nat) (data : Word) (be kind aop cause mrg core slot dkey lane seq now : Nat) : List Byte :=
  let m := if mrg < 256 then mrg else (Config.mergeField mrg).toNat
  natBytes 8 (va % 2 ^ 56 / 4 * 4) ++ natBytes 4 data.toNat ++
    natBytes 4 (be + kind * 16 + aop * 256 + cause * 4096 + m * 65536) ++
    natBytes 4 (core % 256 + slot % 128 * 256 + dkey % 8192 * 65536) ++ natBytes 4 lane ++ natBytes 4 seq ++
    natBytes 4 now

/-- A record waits to be written to the ring of its team's context; the records of a killed gang are discarded and
counted (R190). -/
def State.addRecord (s : State) (p team : Nat) (data : List Byte) : State :=
  match s.team? team with
  | none => s.notice p 5 team 0
  | some t =>
    if ((s.gang? t.pl.gang).bind (·.killAt)).isSome then s.notice p 5 team 0
    else
      let (i, s) := s.fresh
      (s.modCtx p (s.gangCtx t.pl.gang) fun x =>
        { x with pend := x.pend ++ [⟨i, team, 0, 0, 0, false, false, false, data⟩] }).at s.wtc pRemote [3, i]
        (.tuberrRecordWrite i)

/-- The context that holds a pending record. -/
def State.recordCtx (s : State) (i : Nat) : Option Ctx := s.ctxs.find? fun x => x.pend.any (·.id = i)

def Ctx.modPend (x : Ctx) (i : Nat) (f : PendRec → PendRec) : Ctx :=
  { x with pend := x.pend.map fun r => if r.id = i then f r else r }

def State.setRstat (s : State) (t : Nat) (bit : Word) : State :=
  s.modTeam t fun x => { x with csr := { x.csr with rstat := x.csr.rstat ||| bit } }

/-- The first record of a context not yet issued is put on the agenda. -/
def State.nextRecord (s : State) (p c : Nat) : State :=
  match s.ctx? p c with
  | none => s
  | some x => match x.pend.find? (!·.issued) with
    | none => s
    | some r => s.then (.tuberrRecordWrite r.id)

/-- A record is discarded (R183, R184). -/
def State.dropRecord (s : State) (x : Ctx) (r : PendRec) : State :=
  (((s.modCtx x.pkg x.num fun y => { y with pend := y.pend.filter (·.id ≠ r.id) }).setRstat r.team 4).notice x.pkg 5
    r.team 1).nextRecord x.pkg x.num

/-- The index a record to be issued takes: those before it are issued and not yet counted in HEAD (R183). -/
def Ctx.nextIndex (x : Ctx) : Nat := (x.tuberrH.toNat + (x.pend.filter (·.issued)).length) % 2 ^ 32

/-- The ring of a context has room for index h: there is one, and h − TAIL is not its size (R183). -/
def Ctx.ringRoom (x : Ctx) (h : Nat) : Bool :=
  let lg := x.tuberrB.toNat % 32
  5 ≤ lg && lg ≤ 20 && (h + 2 ^ 32 - x.tuberrT.toNat) % 2 ^ 32 ≠ 2 ^ lg

/-- The virtual address of record h (R183). -/
def Ctx.recordVa (x : Ctx) (h : Nat) : Nat :=
  x.tuberrB.toNat / 256 * 65536 + 32 * (h % 2 ^ (x.tuberrB.toNat % 32))

/-- A record's write is issued toward a translated address (R345), or discarded. -/
def State.issueRecord (s : State) (x : Ctx) (r : PendRec) (y : Xl) : State :=
  let h := x.nextIndex
  let put (pa : Nat) (ls : Bool) : State :=
    s.modCtx x.pkg x.num fun z => z.modPend r.id fun r => { r with h := h, pa := pa, due := s.wtc + 40, issued := true, ls := ls }
  match s.ownRead x.pkg y with
  | none => s.dropRecord x r
  | some pa =>
    (match homeOf pa with
      | .hbm => (put pa false).gatherAt x.pkg (s.wtc + 200) [6] [(pa, ⟨0, 0, 1, false, .record pa r.data r.id⟩)]
      | _ => (put pa true).at (s.wtc + 40) pRemote [0, homeCore pa, 0, 0, r.id] (.tuberrRecordWrite r.id)).nextRecord x.pkg
      x.num
where
  homeCore (pa : Nat) : Nat := match homeOf pa with | .ls c _ => c | _ => 0

/-- TUBERR_RECORD_WRITE (R345): the write is issued in the order the statuses became known, or performed at an LS home 40 cycles after
its issue. -/
def execTuberrRecordWrite (i : Nat) (s : State) : Out :=
  match s.recordCtx i with
  | none => .next s
  | some x =>
    match x.pend.find? (·.id = i) with
    | none => .next s
    | some r =>
      if r.issued then
        if !r.ls || r.written || s.wtc < r.due then .next s
        else match homeOf r.pa with
          | .ls c off =>
            .next (((s.modCtx x.pkg x.num fun z => z.modPend i fun r => { r with written := true }).lsPut x.pkg c off r.data
              (.engine 4 c)).at (s.wtc + 1) pRemote [0, 0, 0, 0, i] (.tuberrHeadAdvance i))
          | _ => .next s
      else if (x.pend.find? (!·.issued)).any (·.id ≠ i) then .next s
      else if !x.ringRoom x.nextIndex then .next (s.dropRecord x r)
      else
        let core := match s.team? r.team with | some t => t.pl.core | none => 0
        let va := x.recordVa x.nextIndex
        match s.xlate x.pkg core x.num va .wr with
        | .walk =>
          if s.walks.any (fun w => w.for_ = .record i) then .next s
          else
            let (w, s) := s.fresh
            let s : State := { s with walks := s.walks ++
              [⟨w, x.pkg, core / 4, core, x.num, r.team, va / 4096 * 4096, 3, 0, 0, false, .record i⟩] }
            .next (s.at (s.wtc + 1) pBegin [0, w] (.pageWalk x.pkg (core / 4)))
        | y => .next (s.issueRecord x r y)

/-- Records at the front of the ring that are written advance HEAD and set RF (R183, R184). -/
def State.advanceHead (s : State) (p c : Nat) : Nat → State
  | 0 => s
  | n + 1 =>
    match s.ctx? p c with
    | none => s
    | some x =>
      match x.pend.find? (fun r => r.issued && r.h = x.tuberrH.toNat) with
      | none => s
      | some r =>
        if r.written then
          ((s.modCtx p c fun y => { y with tuberrH := y.tuberrH + 1, pend := y.pend.filter (·.id ≠ r.id) }).setRstat r.team
            2).advanceHead p c n
        else s

/-- TUBERR_HEAD_ADVANCE (R183, R345): the cycle after a record's write was performed. -/
def execTuberrHeadAdvance (i : Nat) (s : State) : Out :=
  match s.recordCtx i with
  | none => .next s
  | some x => .next (s.advanceHead x.pkg x.num x.pend.length)

/-! ## Statuses becoming known (R176, R180, R181) -/

/-- The lanes behind an element take its status: a store's lane is done with its last word, an atomic's lane lands later. -/
def State.lanesKnown (s : State) (e : Elem) : State :=
  let due := s.wtc + 40
  (e.parts.zip (rebuilt e.aop e.old e.parts)).foldl (fun s z =>
    let s := s.modLanes z.1.flight fun q =>
      if q.lane ≠ z.1.lane then q
      else if e.kind = .store then
        { q with cmp := q.cmp - 1, st := if q.cmp ≤ 1 then .done else q.st }
      else { q with st := .performed, due := due, got := if e.fault ≠ 0 then 2 ^ 128 else z.2.toNat }
    if e.kind = .store then s.settle z.1.flight else s) s

/-- The statuses of elements of a package become known in this cycle: lanes, then records in insertion order. -/
def State.resolve (s : State) (p : Nat) (es : List Elem) : State :=
  let s := es.foldl (fun s e => s.lanesKnown e) s
  let s := (es.filter (·.fault ≠ 0)).foldl (fun s e =>
    s.addRecord p e.team (tuberrBytes e.va e.data e.be (kindCode e.kind) (if e.kind = .store then 0 else e.aop.code.toNat) e.fault
      e.mrg e.core e.slot e.dkey e.lane e.seq s.wtc)) s
  if es.any (·.kind ≠ .store) then
    let (i, s) := s.fresh
    let x : Packet := ⟨i, p, p, 0, 0, 0, s.wtc, .ack 0 es, 0, 0, [], 0⟩
    (s.modPkg p fun y => { y with acked := y.acked ++ [x] }).at (s.wtc + 40) pLand [0, i] (.remoteOldValueWritten p i)
  else s

/-- REMOTE_OLD_VALUE_WRITTEN (R176): old values reach the lanes, scoreboards fall. -/
def execRemoteOldValueWritten (p i : Nat) (s : State) : Out :=
  match (s.pkg p).acked.find? (·.id = i) with
  | none => .next s
  | some x =>
    let s := s.modPkg p fun y => { y with acked := y.acked.filter (·.id ≠ i) }
    match x.body with
    | .ack _ es =>
      let now := s.wtc
      .next ((distinct (es.flatMap fun e => if e.kind = .store then [] else e.parts.map (·.flight))).foldl (fun s f =>
        match s.flight? f with
        | none => s
        | some y =>
          let pick (q : LaneReq) : Bool := q.st = .performed && q.due = now &&
            es.any fun e => e.parts.any fun c => c.flight = f && c.lane = q.lane
          if y.kind = .atomF then s.writeReplies f pick
          else (s.modLanes f fun q => if pick q then { q with st := .done } else q).settle f) s)
    | _ => .next s

/-! ## Tubs (R171 to R175) -/

/-- The OPEN tub of a key. -/
def Pkg.openTub (x : Pkg) (dkey : Nat) : Option Nat := x.tubs.findIdx? fun t => t.st = 1 && t.dkey = dkey

/-- The insertion cycle of a tub's oldest element. -/
def Tub.first (t : Tub) : Nat := match t.elems with | e :: _ => e.ins | [] => 0

def Tub.counted (t : Tub) : Nat := (t.elems.filter (!·.zl)).length
def Tub.zeros (t : Tub) : Nat := (t.elems.filter (·.zl)).length

def State.modTub (s : State) (p k : Nat) (f : Tub → Tub) : State := s.modPkg p fun x => { x with tubs := x.tubs.modify k f }

/-- A tub becomes FREE, and elements that wait enter (R174). -/
def State.freeTub (s : State) (p k : Nat) : State :=
  let s := s.modTub p k fun _ => Tub.reset
  if (s.pkg p).waiting.isEmpty then s else s.then (.tubFreeInsertion p)

/-- The operations a UALink peer does not have (R188). -/
def unsup (e : Elem) : Bool :=
  e.kind ≠ .store && (e.aop = .fadd || e.aop = .fmin || e.aop = .fmax || e.aop = .bfadd2)

/-- A UALink request as its station sends it: the request it belongs to, its place in it, kind, operation and enables or size,
data and compare value (R188, R362). -/
def ualBytes (i j kind op be : Nat) (x cmp : Word) : List Byte :=
  natBytes 8 i ++ natBytes 4 j ++ [BitVec.ofNat 8 kind, BitVec.ofNat 8 op, BitVec.ofNat 8 be] ++ natBytes 4 x.toNat ++
    natBytes 4 cmp.toNat

/-- The requests of a tub's elements leave through the station in insertion order (R188). -/
def State.sendUal (s : State) (p i dkey : Nat) (es : List Elem) : State :=
  (es.zip (List.range es.length)).foldl (fun s z =>
    if z.1.done then s
    else s.leave p 12 dkey z.1.pa true
      (ualBytes i z.2 (kindCode z.1.kind) (if z.1.kind = .store then 0 else z.1.aop.code.toNat) z.1.be z.1.data z.1.cmp)) s

/-- An OPEN tub closes: its packet enters the queue of its port, is faulted with NOROUTE where the port has no partner
(R175), or goes out through its UALink station, where it holds the tub until its last completion or its timeout (R188). -/
def State.closeTub (s : State) (p k : Nat) : State :=
  let t := (s.pkg p).tubs.getD k Tub.reset
  if t.st ≠ 1 then s
  else
    let (i, s) := s.fresh
    let num := (s.pkg p).num
    let x : Packet := ⟨i, num, t.dkey % 256, t.dkey, 1 + (t.elems.length + 3) / 4, 0, s.wtc, .tub k t.elems, s.wtc, 0, [], 0⟩
    if isUal t.dkey then
      let es := t.elems.map fun e => if unsup e then { e with fault := 4, done := true } else e
      if es.all (·.done) then (s.resolve p es).freeTub p k
      else
        let s := s.modTub p k fun y => { y with st := 2 }
        let s := (s.modPkg p fun y => { y with out := y.out ++ [{ x with body := .tub k es }] }).at
          (s.wtc + (s.pkg p).rtimeout.toNat) pRemote [4, p, i] (.tubTimeout p i)
        (s.sendUal p i t.dkey es).resolve p (es.filter (·.done))
    else
      match s.partner p (routePort num (t.dkey % 256)) with
      | none => (s.resolve p (t.elems.map fun e => { e with fault := 7 })).freeTub p k
      | some _ => (s.modTub p k fun y => { y with st := 2 }).enterPort p (routePort num (t.dkey % 256)) true x

/-- The operations that combine in a tub (R173). -/
def combines (op : AOp) : Bool := !splits op

/-- What an offered element does to the youngest element of its word and team (R173): merged, combined, or not. -/
def Elem.meet (y e : Elem) : Option Elem :=
  let both (d : Word) (be : Nat) : Elem :=
    { y with data := d, be := be, mrg := y.mrg + 1, lane := min y.lane e.lane, parts := y.parts ++ e.parts }
  if y.kind = .store && e.kind = .store && y.be ≠ 0 && e.be ≠ 0 then
    let m := toF ((List.range 4).foldl (fun m b => if e.be / 2 ^ b % 2 = 1 then m + 255 * 2 ^ (8 * b) else m) 0)
    some (both ((y.data &&& ~~~m) ||| (e.data &&& m)) (y.be ||| e.be))
  else if y.kind = .atomN && e.kind = .atomN && y.aop = e.aop && combines e.aop then
    some (both (atomic e.aop y.data e.data 0) y.be)
  else none

/-- The last element of a list that satisfies a test, replaced. -/
def replaceLast (f : Elem → Bool) (g : Elem → Elem) : List Elem → List Elem
  | [] => []
  | e :: es => if f e && !es.any f then g e :: es else e :: replaceLast f g es

/-- An element enters an OPEN tub in this cycle (R173); the tub closes as it fills or drains (R174, R186). -/
def State.intoTub (s : State) (p k : Nat) (e : Elem) : State :=
  let e := { e with ins := s.wtc }
  let same (y : Elem) : Bool := y.pa = e.pa && y.team = e.team
  let t := (s.pkg p).tubs.getD k Tub.reset
  let es := match (t.elems.filter same).getLast?.bind (·.meet e) with
    | some y => replaceLast same (fun _ => y) t.elems
    | none => t.elems ++ [e]
  let s := s.modTub p k fun y => { y with elems := es }
  if ({ t with elems := es } : Tub).counted = 32 || e.drain then s.closeTub p k else s

/-- The tub eviction closes: the OPEN one with the oldest element, then the lowest number (R174). -/
def Pkg.victim (x : Pkg) : Option Nat :=
  (((List.range x.tubs.length).zip x.tubs).filter (·.2.st = 1)).foldl (fun acc z =>
    match acc with
    | none => some z
    | some a => if z.2.first < a.2.first then some z else acc) none |>.map (·.1)

/-- The lowest-numbered FREE tub. -/
def Pkg.freeSlot (x : Pkg) : Option Nat := x.tubs.findIdx? (·.st = 0)

/-- A FREE tub opens with an element (R173). -/
def State.openTubAt (s : State) (p k : Nat) (e : Elem) : State :=
  let s := s.modTub p k fun _ => ⟨1, e.dkey, []⟩
  (s.at (s.wtc + (s.pkg p).tubage.toNat) pRemote [2, p, k] (.ageTrigger p k)).intoTub p k e

/-- An element is offered to the tubs: it enters one, or finds none FREE, evicts a tub, and waits unless that tub is FREE at once
(R173 to R175). The answer tells whether it entered. -/
def State.offer (s : State) (p : Nat) (e : Elem) : State × Bool :=
  let s := match (s.pkg p).openTub e.dkey with
    | some k => if e.zl && ((s.pkg p).tubs.getD k Tub.reset).zeros = 8 then s.closeTub p k else s
    | none => s
  match (s.pkg p).openTub e.dkey with
  | some k => (s.intoTub p k e, true)
  | none =>
    match (s.pkg p).freeSlot with
    | some k => (s.openTubAt p k e, true)
    | none =>
      if e.evicted then (s, false)
      else match (s.pkg p).victim with
        | some j =>
          let s := s.closeTub p j
          match (s.pkg p).freeSlot with
          | some k => (s.openTubAt p k e, true)
          | none => (s, false)
        | none => (s, false)

/-- Elements offered in order; those behind one that waits wait too (R174). -/
def State.offerAll (p : Nat) : List Elem → State → State
  | [], s => s
  | e :: es, s =>
    if !(s.pkg p).waiting.isEmpty then s.modPkg p fun x => { x with waiting := x.waiting ++ e :: es }
    else match s.offer p e with
      | (s, true) => State.offerAll p es s
      | (s, false) => s.modPkg p fun x => { x with waiting := x.waiting ++ { e with evicted := true } :: es }

/-- TUB_OFFER (R172): the elements of the lanes of a pass that reach the interface in this cycle. -/
def execTubOffer (i : Nat) (s : State) : Out :=
  match s.flight? i with
  | none => .next s
  | some f =>
    let now := s.wtc
    let mine (q : LaneReq) : Bool := q.st = .moving && q.due = now
    let es := if f.kind = .store then (f.lanes.filter mine).flatMap (storeElems f) else atomElems f (f.lanes.filter mine) []
    let s := if f.kind = .store then
        s.modLanes i fun q => if mine q then { q with cmp := if f.n = 8 && !f.zero then 2 else 1 } else q
      else s
    .next (State.offerAll f.pkg es s)

/-- Waiting elements enter in order while they can (R174). -/
def State.enterWaiting (p : Nat) : Nat → State → State
  | 0, s => s
  | n + 1, s =>
    match (s.pkg p).waiting with
    | [] => s
    | e :: es =>
      match s.offer p e with
      | (s, true) => State.enterWaiting p n (s.modPkg p fun x => { x with waiting := es })
      | (s, false) => s.modPkg p fun x => { x with waiting := { e with evicted := true } :: es }

/-- TUB_FREE_INSERTION (R174): a tub is FREE, and waiting elements enter. -/
def execTubFreeInsertion (p : Nat) (s : State) : Out :=
  .next (State.enterWaiting p (s.pkg p).waiting.length s)

/-- AGE_TRIGGER (R174, R189): the limit in force since the oldest element has passed. -/
def execAgeTrigger (p n : Nat) (s : State) : Out :=
  let t := (s.pkg p).tubs.getD n Tub.reset
  .next (if t.st = 1 && t.first + (s.pkg p).tubage.toNat ≤ s.wtc then s.closeTub p n else s)

/-- Every OPEN tub that satisfies a test closes, in ascending number. -/
def State.closeWhere (s : State) (p : Nat) (f : Tub → Bool) : State :=
  (((List.range 64).zip (s.pkg p).tubs).filter fun z => z.2.st = 1 && f z.2).foldl (fun s z => s.closeTub p z.1) s

/-- TFLUSH_EFFECT (R207). -/
def execTflushEffect (p t : Nat) (key : Word) (s : State) : Out :=
  let k := key.toNat
  .next (if k < 2 ^ 13 then s.closeWhere p (·.dkey = k)
    else if k = 2 ^ 31 then s.closeWhere p fun x => x.elems.any (·.team = t)
    else s)

/-- POD_FENCE_DRAIN (R186): the team's tubs close, and its waiting elements close theirs as they enter. -/
def execPodFenceDrain (t : Nat) (s : State) : Out :=
  match s.team? t with
  | none => .next s
  | some tm =>
    let p := tm.pl.pkg
    let s := s.closeWhere p fun x => x.elems.any (·.team = t)
    .next (s.modPkg p fun x => { x with waiting := x.waiting.map fun e => if e.team = t then { e with drain := true } else e })

/-- TUBAGE_WRITE (R189): OPEN tubs close at their oldest insertion plus the new limit, or at once. -/
def execTubageWrite (p : Nat) (x : Word) (s : State) : Out :=
  let s := s.modPkg p fun y => { y with tubage := clampAge x }
  .next ((((List.range 64).zip (s.pkg p).tubs).filter (·.2.st = 1)).foldl (fun s z =>
    s.at (max s.wtc (z.2.first + (s.pkg p).tubage.toNat)) pRemote [2, p, z.1] (.ageTrigger p z.1)) s)

/-! ## Packets leaving (R175, R343) -/

/-- The last slot of a packet leaves: a tub becomes FREE and its timeout begins (R171, R181). -/
def State.lastSlot (s : State) (p k : Nat) (x : Packet) : State :=
  let s := s.depart p k x
  match x.body with
  | .tub t _ =>
    ((s.modPkg p fun y => { y with out := y.out ++ [{ x with last := s.wtc, sent := x.slots }] }).at
      (s.wtc + (s.pkg p).rtimeout.toNat) pRemote [4, p, x.id] (.tubTimeout p x.id)).freeTub p t
  | _ => s

/-- One slot of a packet leaves. -/
def State.sendSlot (s : State) (p k : Nat) (x : Packet) : State :=
  if x.sent + 1 = x.slots then s.lastSlot p k x else s

/-- ELASTIC_SLOT_SEND (R175, R282): one elastic slot of a port. -/
def execElasticSlotSend (p n : Nat) (s : State) : Out :=
  let q := s.port p n
  let s := match q.pick s.wtc with
    | .nothing => s
    | .halt x r => (s.modPort p n fun y => { y with halts := r }).depart p n x
    | .tub x r => (s.modPort p n fun y => { y with tubq := afterSlot x r, tubLast := true }).sendSlot p n x
    | .hdr x r => (s.modPort p n fun y => { y with hdrq := afterSlot x r, tubLast := false }).sendSlot p n x
  let q := s.port p n
  .next (if q.halts.isEmpty && q.tubq.isEmpty && q.hdrq.isEmpty then s else s.arm p n)

end Sys2Proof.Machine
end

