-- ==== Sys2Proof/Machine/Remote.lean ====
section
/-! DEFINITION. The destination side of remote accesses and their answers (R176, R179, R180, R187, R344), forwarding (R175),
UALink completions (R188) and drains for page migration (R192). -/

namespace Sys2Proof.Machine

/-! ## Accept windows (R179) -/

/-- The permission a remote access needs. -/
def remoteGrant (w : Window) : MemKind → Bool
  | .load => w.rd
  | .store => w.wr
  | _ => w.at_

/-- The fault of an access at a destination before it is performed (R179, R180): WIN, NXA or none. -/
def State.accessFault (s : State) (p pa n : Nat) (k : MemKind) : Nat :=
  if !((s.pkg p).windows.any fun w => w.v && w.base ≤ pa && pa + n ≤ w.limit && remoteGrant w k) then 1
  else match homeOf pa with
    | .hbm => 0
    | .ls _ _ => 0
    | _ => 2

/-- The place is timed as device memory (R344). -/
def isHbm (pa : Nat) : Bool := homeOf pa = .hbm

/-! ## Packets taken in -/

def State.inn? (s : State) (p i : Nat) : Option Packet := (s.pkg p).inn.find? (·.id = i)

def State.modInn (s : State) (p i : Nat) (f : Packet → Packet) : State :=
  s.modPkg p fun x => { x with inn := x.inn.map fun y => if y.id = i then f y else y }

def State.dropInn (s : State) (p i : Nat) : State := s.modPkg p fun x => { x with inn := x.inn.filter (·.id ≠ i) }

/-- The tub packet is still on its way to its destination. -/
def State.underWay (s : State) (i : Nat) : Bool :=
  s.packets.any (·.id = i) || s.pkgs.any fun x => x.ports.any fun k => k.tubq.any (·.id = i)

/-- The packet holds elements of a tub. -/
def Packet.isTub (x : Packet) : Bool := match x.body with | .tub _ _ => true | _ => false

def Packet.elems (x : Packet) : List Elem :=
  match x.body with | .tub _ es => es | .ack _ es => es | _ => []

def Packet.rlanes (x : Packet) : List RLane :=
  match x.body with | .loadReq _ _ _ ls => ls | .loadReply _ _ ls => ls | _ => []

/-- The addresses of a packet's accesses, in the order in which they issue. -/
def Packet.places (x : Packet) : List Nat := x.elems.map (·.pa) ++ x.rlanes.map (·.pa)

/-- Two addresses of a package lie at one home (R156): the LS of one core, or one pseudo-channel. -/
def State.oneHome (s : State) (p a b : Nat) : Bool :=
  match homeOf a, homeOf b with
  | .ls c _, .ls d _ => c = d
  | .hbm, .hbm => hashPc (s.pkg p).hashm a = hashPc (s.pkg p).hashm b
  | _, _ => false

/-- The packets of a packet's source and key that were taken in before it and still have accesses to perform. -/
def State.ahead (s : State) (p : Nat) (x : Packet) : List Packet :=
  (s.pkg p).inn.filter fun y => y.src = x.src && y.dkey = x.dkey && y.taken ≠ 0 && y.id ≠ x.id

/-- The cycle after which a packet may issue its accesses: its arrival (R176); a load request also follows every element of the
packets that left its source for its key before it (R187). -/
def State.issueBase (s : State) (p : Nat) (x : Packet) (a : Nat) : Nat :=
  if x.isTub then a else (((s.ahead p x).filter (·.isTub)).flatMap (·.issues)).foldl max a

/-- The cycles in which a packet's accesses issue: one after the other, and none before an access of an earlier packet to its home, so
that accesses of one source and key are performed in order at every home (R176, R214; DEDUCED, entry 33). -/
def State.issueCycles (s : State) (p : Nat) (x : Packet) (b : Nat) : List Nat :=
  let old := (s.ahead p x).flatMap fun y => y.places.zip y.issues
  (x.places.zip (List.range x.places.length)).map fun z =>
    ((old.filter fun o => s.oneHome p z.1 o.1).map (·.2)).foldl max (b + 1 + z.2)

/-- A packet taken in gets the cycles in which its accesses issue. -/
def State.beginIssue (s : State) (p : Nat) (x : Packet) : State :=
  let l := s.issueCycles p x (s.issueBase p x s.wtc)
  let now := s.wtc
  let s := s.modInn p x.id fun y => { y with taken := now, issues := l, entered := 0 }
  (l.zip (List.range l.length)).foldl (fun (s : State) z =>
    s.at z.1 pRemote [1, 0, now] (if x.isTub then .elementIssue p x.id z.2 else .remoteLoadAccess p x.id z.2)) s

/-- The tub packet a load request waits for (R187). -/
def Packet.after (x : Packet) : Nat := match x.body with | .loadReq _ _ a _ => a | _ => 0

/-- A packet's last slot has arrived: its accesses begin to issue, and load requests that waited for it follow (R176, R187). -/
def State.takeIn (s : State) (p : Nat) (x : Packet) : State :=
  let s := s.modPkg p fun y => { y with inn := y.inn ++ [{ x with taken := 0 }] }
  if x.after ≠ 0 && s.underWay x.after then s
  else
    let s := s.beginIssue p x
    ((s.pkg p).inn.filter fun y => y.after = x.id && y.taken = 0).foldl (fun s y => s.beginIssue p y) s

/-! ## Elements at their destination -/

/-- Element j of a packet, changed. -/
def State.modElem (s : State) (p i j : Nat) (f : Elem → Elem) : State :=
  s.modInn p i fun y => match y.body with
    | .tub t es => { y with body := .tub t (es.modify j f) }
    | _ => y

/-- ELEMENT_ISSUE (R176, R179): the window check, and the access on its way to its home. A device-memory access that meets an
uncorrectable error takes no slot (R344). -/
def execElementIssue (p i j : Nat) (s : State) : Out :=
  match s.inn? p i with
  | none => .next s
  | some x =>
    match x.elems[j]? with
    | none => .next s
    | some e =>
      let c := s.accessFault p e.pa 4 e.kind
      if c ≠ 0 then
        .next ((s.modElem p i j fun e => { e with fault := c }).at (s.wtc + if isHbm e.pa then 200 else 40) pRemote [1, 0]
          (.elementPerformed p i j))
      else if isHbm e.pa then
        .next (s.gatherAt p (s.wtc + 200) [4]
          [(e.pa, ⟨0, 0, if e.kind = .store then 1 else 2, false, .elem i j⟩)])
      else .next (s.at (s.wtc + 40) pRemote [1, 0] (.elementPerformed p i j))

/-- The bytes of a word an enabled store writes: (offset, bytes) runs, byte by byte. -/
def enabledBytes (x : Word) (be : Nat) : List (Nat × Byte) :=
  ((List.range 4).zip (natBytes 4 x.toNat)).filter fun z => be / 2 ^ z.1 % 2 = 1

/-- Bytes written at a home by an agent that is no lane. -/
def State.homeWrite (s : State) (p pa : Nat) (bs : List Byte) (a : Agent) : State :=
  match homeOf pa with
  | .ls c off => s.lsPut p c off bs a
  | _ => s.wr p pa bs

/-- A write at a destination home by a lane of a remote package. -/
def State.remoteWrite (s : State) (p src pa : Nat) (bs : List Byte) : State :=
  match homeOf pa with
  | .ls c off => s.lsWrite p c off bs (.remote src)
  | _ => s.wr p pa bs

/-- A run of enabled bytes, as one write where they stand together. -/
def runs : List (Nat × Byte) → List (Nat × List Byte)
  | [] => []
  | (o, b) :: r =>
    match runs r with
    | (o', bs) :: t => if o' = o + 1 then (o, b :: bs) :: t else (o, [b]) :: (o', bs) :: t
    | [] => [(o, [b])]

/-- An element performed at its home: old value and fault (R176, R180). -/
def State.performElem (s : State) (p src : Nat) (e : Elem) : State × Word × Nat :=
  match e.kind with
  | .store => ((runs (enabledBytes e.data e.be)).foldl (fun s r => s.remoteWrite p src (e.pa + r.1) r.2) s, 0, 0)
  | _ =>
    if s.uceAt p e.pa 4 then (s, 0, 3)
    else
      let s := s.correct p e.pa 4
      let m := toF (s.rd p e.pa 4)
      (s.remoteWrite p src e.pa (natBytes 4 (atomic e.aop m e.data e.cmp).toNat), m, 0)

/-- ELEMENT_PERFORMED (R176): the element changes its home, or counts as performed. The acknowledgement follows the last
one. -/
def execElementPerformed (p i j : Nat) (s : State) : Out :=
  match s.inn? p i with
  | none => .next s
  | some x =>
    match x.elems[j]? with
    | none => .next s
    | some e =>
      let (s, m, c) := if e.fault ≠ 0 then (s, 0, e.fault) else s.performElem p x.src e
      let s := s.modElem p i j fun e => { e with done := true, old := m, fault := c }
      let all := match s.inn? p i with | some y => y.elems.all (·.done) | none => false
      .next (if all then s.then (.acknowledgementSend p i) else s)

/-- Slots of an acknowledgement: one, and one for 16 old values (R176). -/
def ackSlots (es : List Elem) : Nat := 1 + ((es.filter (·.kind = .atomF)).length + 15) / 16

/-- ACKNOWLEDGEMENT_SEND (R176, R344): it enters its queue as the last element is performed. -/
def execAcknowledgementSend (p i : Nat) (s : State) : Out :=
  match s.inn? p i with
  | none => .next s
  | some x => .next ((s.dropInn p i).sendHeadered p x.src (ackSlots x.elems) (.ack i x.elems))

/-! ## Drains (R192) -/

/-- The tub packets of a package to a key not yet acknowledged or timed out. -/
def Pkg.openPackets (x : Pkg) (key : Nat) : List Nat :=
  ((x.ports.flatMap (·.tubq)) ++ x.out.filter fun y => match y.body with | .tub _ _ => true | _ => false).filter
    (·.dkey = key) |>.map (·.id)

/-- A drain's status is known: the waiting team's register is written and its wait ends. A migration goes on: its drain stays,
answered by all, until MIGRATE takes it. -/
def State.endDrain (s : State) (p : Nat) (d : Drain) (status : Word) : State :=
  let s := s.modPkg p fun x => { x with drains := x.drains.filter (·.id ≠ d.id) }
  let s := s.modTeam d.team fun t =>
    if t.waits.contains (.migdrain d.reg d.c) then
      { t with waits := t.waits.filter (· ≠ .migdrain d.reg d.c), ur := t.ur.set d.reg status }
    else t
  match d.mig, d.svcTag with
  | some m, some tag =>
    (s.modPkg p fun x => { x with drains := { d with left := [] } :: x.drains }).then (.migrate p tag m)
  | _, _ => s

/-- A package has answered a drain. -/
def State.drainAnswer (s : State) (origin id num : Nat) : State :=
  match (s.pkg origin).drains.find? (·.id = id) with
  | none => s
  | some d =>
    let left := d.left.filter (· ≠ num)
    if left.isEmpty then s.endDrain origin d 0
    else s.modPkg origin fun x => { x with drains := x.drains.map fun y => if y.id = id then { y with left := left } else y }

/-- The drains of a package whose packets are all answered reply (R192). -/
def State.answerDrains (s : State) (p : Nat) : State :=
  ((s.pkg p).drainsIn.filter fun d => d.waiting.all fun i => !((s.pkg p).openPackets d.key).contains i).foldl (fun s d =>
    let s := s.modPkg p fun x => { x with drainsIn := x.drainsIn.filter (· ≠ d) }
    match s.pkgOf d.origin with
    | none => s
    | some o => if o = p then s.drainAnswer o d.id d.origin else s.sendHeadered p d.origin 1 (.drainReply d.id)) s

/-- MIGDRAIN_RECEIPT (R192): the OPEN tub closes; the package that began the drain also passes it on. -/
def execMigdrainReceipt (p i : Nat) (s : State) : Out :=
  match s.packet? i with
  | none => .next s
  | some x =>
    match x.body with
    | .drain key origin id =>
      let s := s.dropPacket i
      let num := (s.pkg p).num
      let s := if origin = num then
          ((s.pkgs.map (·.num)).filter (· ≠ num)).foldl (fun s n => s.sendHeadered p n 1 (.drain key origin id)) s
        else s
      let s := s.closeWhere p (·.dkey = key)
      let s := s.modPkg p fun y => { y with drainsIn := y.drainsIn ++ [⟨key, origin, id, (s.pkg p).openPackets key⟩] }
      .next (s.answerDrains p)
    | _ => .next s

/-- MIGDRAIN_REPLY (R192): a package's answer, or the timeout of the drain of a number; one that has ended is answered no more. -/
def execMigdrainReply (i : Nat) (timeout : Bool) (s : State) : Out :=
  if timeout then
    match (s.pkgs.zip (List.range s.pkgs.length)).find? fun z => z.1.drains.any (·.id = i) with
    | none => .next s
    | some z => match z.1.drains.find? (·.id = i) with
      | none => .next s
      | some d => .next (s.endDrain z.2 d 1)
  else
    match s.packet? i with
    | none => .next s
    | some x =>
      match x.body, s.pkgOf x.dst with
      | .drainReply id, some o => .next ((s.dropPacket i).drainAnswer o id x.src)
      | _, _ => .next (s.dropPacket i)

/-- A drain begins (R192) under a fresh number: the package's own interface takes it 40 cycles after the commit; it times out RTIMEOUT
after the commit. `d` names the team or the service's request. -/
def State.beginDrain (s : State) (p : Nat) (d : Drain) : State :=
  let (i, s) := s.fresh
  let (k, s) := s.fresh
  let num := (s.pkg p).num
  let x : Packet := ⟨i, num, num, 0, 0, 0, 0, .drain d.key num k, 0, 0, [], 0⟩
  let d := { d with id := k, left := s.pkgs.map (·.num) }
  let s : State := { s with packets := s.packets ++ [x] }
  ((s.modPkg p fun y => { y with drains := y.drains ++ [d] }).at (d.c + 40) pRemote [1, p, i] (.migdrainReceipt p i)).at
    (d.c + (s.pkg p).rtimeout.toNat) pRemote [4, p, k] (.migdrainReply k true)

/-! ## Statuses at the source -/

/-- ACKNOWLEDGEMENT_ARRIVAL (R176): every element of the packet counts as acknowledged; a late one is discarded (R181). -/
def execAcknowledgementArrival (p i : Nat) (s : State) : Out :=
  match s.packet? i with
  | none => .next s
  | some x =>
    let s := s.dropPacket i
    match x.body with
    | .ack of_ es =>
      if (s.pkg p).out.any (·.id = of_) then
        let s := s.modPkg p fun y => { y with out := y.out.filter (·.id ≠ of_) }
        .next ((s.resolve p es).answerDrains p)
      else .next s
    | _ => .next s

/-- TUB_TIMEOUT (R181, R188): elements without an acknowledgement or completion take TMO, and the tub of a UALink peer is FREE. -/
def execTubTimeout (p i : Nat) (s : State) : Out :=
  match (s.pkg p).out.find? (·.id = i) with
  | none => .next s
  | some x =>
    let s := s.modPkg p fun y => { y with out := y.out.filter (·.id ≠ i) }
    match x.body with
    | .tub t es =>
      let s := s.resolve p ((es.filter (!·.done)).map fun e => { e with fault := 6 })
      .next ((if isUal x.dkey then s.freeTub p t else s).answerDrains p)
    | _ => .next s

/-! ## Remote loads (R187) -/

/-- The bytes a load requests, as enables (R182). -/
def loadBe (va n : Nat) : Nat := if 4 ≤ n then 15 else (2 ^ n - 1) * 2 ^ (va % 4) % 16

/-- The statuses of lane accesses become known: data lands `delay` cycles later; faults are recorded. -/
def State.loadsKnown (s : State) (p flight dkey delay : Nat) (ls : List RLane) : State :=
  match s.flight? flight with
  | none => s
  | some f =>
    let s := s.modLanes flight fun q =>
      match ls.find? (·.lane = q.lane) with
      | none => q
      | some r => { q with st := .performed, got := if r.fault ≠ 0 then 2 ^ 128 else r.got }
    let s := s.landAt flight (s.wtc + delay) (ls.map (·.lane))
    (ls.filter (·.fault ≠ 0)).foldl (fun s r =>
      s.addRecord p f.team (tuberrBytes r.va 0 (loadBe r.va f.n) 3 0 r.fault 0 f.core f.slot dkey r.lane f.seq s.wtc)) s

/-- The last packet to a key that waits on a port: a load request follows it. -/
def State.lastTub (s : State) (p k dkey : Nat) : Nat :=
  match (((s.port p k).tubq.filter (·.dkey = dkey)).getLast?) with | some x => x.id | none => 0

/-- One request: to a peer, to a package, or faulted with NOROUTE. -/
def State.requestLoads (s : State) (p : Nat) (f : Flight) (dkey : Nat) (ls : List RLane) : State :=
  let s := s.closeWhere p (·.dkey = dkey)
  let (i, s) := s.fresh
  let num := (s.pkg p).num
  let k := routePort num (dkey % 256)
  let x : Packet := ⟨i, num, dkey % 256, dkey, 1 + (ls.length + 7) / 8, 0, s.wtc, .loadReq f.id f.n (s.lastTub p k dkey) ls,
    0, 0, [], 0⟩
  let keep (s : State) : State :=
    (s.modPkg p fun y => { y with out := y.out ++ [x] }).at (s.wtc - 40 + (s.pkg p).rtimeout.toNat) pRemote [4, p, i]
      (.remoteLoadTimeout p i)
  if isUal dkey then
    (ls.zip (List.range ls.length)).foldl (fun s z => s.leave p 13 dkey z.1.pa true (ualBytes i z.2 3 0 f.n 0 0)) (keep s)
  else match s.partner p k with
    | none => s.loadsKnown p f.id dkey 40 (ls.map fun r => { r with fault := 7 })
    | some _ => (keep s).enterPort p k false x

/-- REMOTE_LOAD_REQUEST (R187): one request for each destination of the lanes that reach the interface. -/
def execRemoteLoadRequest (i : Nat) (s : State) : Out :=
  match s.flight? i with
  | none => .next s
  | some f =>
    let mine := f.lanes.filter fun q => q.st = .moving && q.due = s.wtc
    .next ((distinct (mine.map fun q => dkeyOf q.home)).foldl (fun s d =>
      s.requestLoads f.pkg f d ((mine.filter fun q => dkeyOf q.home = d).map fun q =>
        ⟨q.lane, q.va, carried q.home, 0, 0, 0⟩)) s)

/-- The access size of a load request. -/
def Packet.loadSize (x : Packet) : Nat :=
  match x.body with | .loadReq _ n _ _ => n | .loadReply _ n _ => n | _ => 0

def State.modRLane (s : State) (p i j : Nat) (f : RLane → RLane) : State :=
  s.modInn p i fun y => match y.body with
    | .loadReq a n k ls => { y with body := .loadReq a n k (ls.modify j f) }
    | _ => y

/-- REMOTE_LOAD_ACCESS (R187): a lane access is issued, and then performed, behind every write of its cycle (R157); the reply is
ready after the last. -/
def execRemoteLoadAccess (p i j : Nat) (s : State) : Out :=
  match s.inn? p i with
  | none => .next s
  | some x =>
    match x.rlanes[j]? with
    | none => .next s
    | some r =>
      let n := x.loadSize
      if r.st = 0 then
        let c := s.accessFault p r.pa n .load
        let s := s.modRLane p i j fun r => { r with st := 1, fault := c }
        if c = 0 && isHbm r.pa then
          .next (s.gatherAt p (s.wtc + 200) [4] [(r.pa, ⟨0, 0, 1, false, .rload i j⟩)])
        else .next (s.at (s.wtc + if isHbm r.pa then 200 else 40) pRead [1, 0] (.remoteLoadAccess p i j))
      else if r.st = 1 then
        let bad := r.fault = 0 && s.uceAt p r.pa n
        let c := if bad then 3 else r.fault
        let s := if c = 0 then s.correct p r.pa n else s
        let s := match homeOf r.pa with
          | .ls k off => if c = 0 then s.watch p k off n false (.remote x.src) else s
          | _ => s
        let got := if c = 0 then s.rd p r.pa n else 0
        let ready := s.wtc + if isHbm r.pa then 320 else 20
        let s := (s.modRLane p i j fun r => { r with st := 2, fault := c, got := got }).modInn p i fun y =>
          { y with entered := max y.entered ready }
        match s.inn? p i with
        | none => .next s
        | some y => .next (if y.rlanes.all (·.st = 2) then s.at y.entered pRemote [1, 0] (.remoteLoadReply p i) else s)
      else .next s

/-- Slots of a reply: a header and 64 bytes each (R187). -/
def replySlots (n lanes : Nat) : Nat := 1 + (lanes * (if n = 8 then 8 else 4) + 63) / 64

/-- A reply to a request goes back; it carries the request's number as its key. -/
def State.sendReply (s : State) (p : Nat) (x : Packet) (ls : List RLane) : State :=
  let f := match x.body with | .loadReq f _ _ _ => f | _ => 0
  let k := routePort (s.pkg p).num x.src
  match s.partner p k with
  | none => s
  | some _ =>
    let (i, s) := s.fresh
    s.enterPort p k false ⟨i, (s.pkg p).num, x.src, x.id, replySlots x.loadSize ls.length, 0, 0,
      .loadReply f x.loadSize ls, 0, 0, [], 0⟩

/-- REMOTE_LOAD_REPLY (R187): the reply enters the headered queue as it is ready. -/
def execRemoteLoadReply (p i : Nat) (s : State) : Out :=
  match s.inn? p i with
  | none => .next s
  | some x => .next ((s.dropInn p i).sendReply p x x.rlanes)

/-- REMOTE_LOAD_REPLY_ARRIVAL (R187): data is written 40 cycles on; a later reply is discarded. -/
def execRemoteLoadReplyArrival (p i : Nat) (s : State) : Out :=
  match s.packet? i with
  | none => .next s
  | some x =>
    let s := s.dropPacket i
    match (s.pkg p).out.find? (·.id = x.dkey) with
    | none => .next s
    | some y =>
      let s := s.modPkg p fun z => { z with out := z.out.filter (·.id ≠ y.id) }
      match x.body with
      | .loadReply f _ ls => .next (s.loadsKnown p f y.dkey 40 ls)
      | _ => .next s

/-- REMOTE_LOAD_TIMEOUT (R187): the lanes still waiting read all ones, and TO is set. -/
def execRemoteLoadTimeout (p i : Nat) (s : State) : Out :=
  match (s.pkg p).out.find? (·.id = i) with
  | none => .next s
  | some y =>
    let s := s.modPkg p fun z => { z with out := z.out.filter (·.id ≠ i) }
    match y.body with
    | .loadReq f _ _ ls =>
      let team := match s.flight? f with | some x => x.team | none => 0
      .next ((s.setRstat team 1).loadsKnown p f y.dkey 0 ((ls.filter (·.st ≠ 2)).map fun r => { r with fault := 6 }))
    | _ => .next s

/-! ## Forwarding (R175) -/

/-- The answer of an intermediate package without an onward port: every access faulted with NOROUTE. -/
def State.refusePacket (s : State) (p : Nat) (x : Packet) : State :=
  match x.body with
  | .tub _ es =>
    s.sendHeadered p x.src (ackSlots es) (.ack x.id (es.map fun e => { e with fault := 7, done := true }))
  | .loadReq _ _ _ ls => s.sendReply p x (ls.map fun r => { r with fault := 7, st := 2 })
  | .ring core card _ _ _ _ _ => s.sendHeadered p x.src 1 (.ringAck core card false)
  | _ => s

/-- INTERMEDIATE_FORWARD (R175): through port 16 + row after 24 cycles; with no partner the packet is discarded in the
cycle after, with its answer. -/
def execIntermediateForward (p i : Nat) (s : State) : Out :=
  match s.packet? i with
  | none => .next s
  | some x =>
    let k := routePort (s.pkg p).num x.dst
    match s.partner p k with
    | some q =>
      let pt := s.port p k
      let s : State := { s with packets := s.packets.map fun y => if y.id = i then { y with last := s.wtc + 24, via := 32 * p + k } else y }
      .next (s.at (s.wtc + 24 + pt.delay + pt.lateBy (s.wtc + 24)) pRemote [1, q, x.id]
        (if (s.pkg q).num = x.dst then arrivalEvent q x else .intermediateForward q x.id))
    | none =>
      if x.taken = s.wtc then .next s
      else if x.taken = 0 then
        .next (({ s with packets := s.packets.map fun y => if y.id = i then { y with taken := s.wtc } else y } : State).at
          (s.wtc + 1) pRemote [1, p, i] (.intermediateForward p i))
      else .next ((s.dropPacket i).refusePacket p x)

/-! ## UALink completions (R188) -/

/-- UALINK_COMPLETION (R188): the peer's answer to element or lane access j of a request sent through a station; with the last
one the tub is FREE. -/
def execUalinkCompletion (p i j : Nat) (err : Bool) (old : Nat) (s : State) : Out :=
  match (s.pkg p).out.find? (·.id = i) with
  | none => .next s
  | some x =>
    if !isUal x.dkey then .next s
    else
      let set (s : State) (b : PBody) (done : Bool) : State := s.modPkg p fun z =>
        { z with out := (z.out.map fun y => if y.id = i then { y with body := b } else y).filter fun y =>
            !(done && y.id = i) }
      match x.body with
      | .tub t es =>
        match es[j]? with
        | none => .next s
        | some e =>
          if e.done then .next s
          else
            let e' : Elem := { e with done := true, old := toF old, fault := if err then 5 else 0 }
            let es' := es.set j e'
            let s := (set s (.tub t es') (es'.all (·.done))).resolve p [e']
            .next ((if es'.all (·.done) then s.freeTub p t else s).answerDrains p)
      | .loadReq f n a ls =>
        match ls[j]? with
        | none => .next s
        | some r =>
          if r.st = 2 then .next s
          else
            let r' : RLane := { r with st := 2, got := old, fault := if err then 5 else 0 }
            let ls' := ls.set j r'
            .next ((set s (.loadReq f n a ls') (ls'.all (·.st = 2))).loadsKnown p f x.dkey 40 [r'])
      | _ => .next s

end Sys2Proof.Machine
end

