-- ==== Sys2Proof/Machine/Sched.lean ====
section
/-! DEFINITION. The pod schedule: tables (R283, R284), schedule faults and halts (R300 to R304, R373), frame boundaries
(R285), and the steps that keep Wiltan time (R27, R306, R361). Also what discards cards and queued words. -/

namespace Sys2Proof.Machine

/-! ## Discarding cards and queued words (R77, R303, R322) -/

/-- Cards of a core leave; those that waited for them wait no longer. -/
def State.dropCards (s : State) (p c : Nat) (f : Card → Bool) : State :=
  s.modCore p c fun x =>
    let gone := (x.cards.filter f).map (·.id)
    { x with cards := (x.cards.filter (!f ·)).map fun k => { k with edges := k.edges.filter (!gone.contains ·) } }

/-- Complete cards in a queue that satisfy a test leave it; the test sees the words. -/
def dropReady (f : Ready → List Word → Bool) : List Ready → List QWord → List Ready × List QWord
  | [], ws => ([], ws)
  | r :: rs, ws =>
    let mine := ws.take r.len
    let (rs', ws') := dropReady f rs (ws.drop r.len)
    if f r (mine.map (·.x)) then (rs', ws') else (r :: rs', mine ++ ws')

/-- A queue without the complete cards that satisfy a test. -/
def Queue.without (q : Queue) (f : Ready → List Word → Bool) : Queue :=
  let (r, w) := dropReady f q.ready q.words
  { q with ready := r, words := w }

/-- Complete cards of a core's queues leave. -/
def State.dropQueued (s : State) (p c : Nat) (f : Ready → List Word → Bool) : State :=
  s.modCore p c fun x => { x with queues := x.queues.map (·.without f) }

/-- Complete cards leave the queues of gangs that are switched out of a core. -/
def State.dropParked (s : State) (p c : Nat) (f : Ready → List Word → Bool) : State :=
  s.modCore p c fun x => { x with parked := x.parked.map fun y => (y.1, y.2.map (·.without f)) }

/-- What a core holds of queue k: the queue, and what is parked of it. -/
def Core.held (x : Core) (k : Nat) : List Queue :=
  x.queues.getD k Queue.reset :: x.parked.map fun y => y.2.getD k Queue.reset

/-- The words a gang pushed to incomplete cards leave, with a notification for each queue that held some, of a gang that is switched
out too (R77, R322, R330). -/
def State.dropIncomplete (s : State) (p c g : Nat) : State :=
  (List.range 4).foldl (fun s k =>
    if ((s.core p c).held k).any (fun q => !(q.restOf g).isEmpty) then
      (s.modCore p c fun x =>
        { x with queues := x.queues.modify k (·.dropRest g),
                 parked := x.parked.map fun y => (y.1, y.2.modify k (·.dropRest g)) }).notice p 6 g k
    else s) s

/-! ## Tables (R283, R284) -/

/-- The bytes of a slot map as the offsets of its set bits. -/
def mapBits (m : List Host.Cell) (a n : Nat) : List Nat :=
  (List.range n).filter fun i => (memByte m (a + i / 8)).getLsbD (i % 8)

/-- Every run of 8 cyclically consecutive bits of a map holds a 0 (R284). -/
def mapElastic (l : List Nat) (n : Nat) : Bool :=
  l.all fun i => (List.range 8).any fun k => !l.contains ((i + k) % n)

/-- Intervals lie in the frame, apart and in order (R284). -/
def intervalsOk (n : Nat) : Nat → List (Nat × Nat) → Bool
  | _, [] => true
  | lo, (a, len) :: r => lo ≤ a && a + len ≤ n && intervalsOk n (a + len) r

/-- The bytes of a table whose header stands at an address of a copy: 64, then a map for each port and an interval list (R283). -/
def tableLen (m : List Host.Cell) (a : Nat) : Nat :=
  let flog := memNat m a 4
  let ports := (List.range 32).filter fun k => memNat m (a + 16) 4 / 2 ^ k % 2 = 1
  if flog < 10 || 16 < flog || 256 < memNat m (a + 4) 4 then 64
  else 64 + ports.length * (2 ^ flog / 8) + 8 * memNat m (a + 4) 4

/-- The table that a copy holds at an address, if it is valid (R283, R284); `pa` is the package-local address it was read from and
`from_` the boundary it takes effect at. -/
def State.readTable (s : State) (p : Nat) (m : List Host.Cell) (a pa from_ : Nat) : Option Sched :=
  let w (o : Nat) : Nat := memNat m (a + o) 4
  let flog := w 0
  let ncb := w 4
  if flog < 10 || 16 < flog || 256 < ncb || w 20 = 0 || (memNat m (a + 24) 40 ≠ 0) then none
  else
    let n := 2 ^ flog
    let ports := (List.range 32).filter fun k => w 16 / 2 ^ k % 2 = 1
    let maps := (ports.zip (List.range ports.length)).map fun z => (z.1, mapBits m (a + 64 + z.2 * (n / 8)) n)
    let base := a + 64 + ports.length * (n / 8)
    let raw := (List.range ncb).map fun i => memNat m (base + 8 * i) 8
    let ivs := raw.map fun x => (x % 65536, x / 2 ^ 32 % 65536 + 1)
    if (ports.all fun k => (s.partner p k).isSome) && (maps.all fun m => mapElastic m.2 n) && intervalsOk n 0 ivs &&
        raw.all (fun x => x / 65536 % 65536 = 0 && x / 2 ^ 48 = 0) then
      some ⟨flog, w 8, w 12, w 16, w 20, pa, from_, maps, ivs⟩
    else none

/-- The first frame boundary at or after a cycle. -/
def frameAt (flog n : Nat) : Nat := (n + 2 ^ flog - 1) / 2 ^ flog * 2 ^ flog

/-! ## Halts (R301 to R303) -/

/-- A package learns of a halt: the earliest boundary stands, then the lowest origin (R302). -/
def State.adoptHalt (s : State) (p b orig kind : Nat) : State :=
  let x := s.pkg p
  if (x.schedAt s.wtc).isNone then s
  else
    let keep := match x.halt with
      | none => false
      | some (b0, o0, _) => b0 < b || (b0 = b && o0 ≤ orig)
    if keep then s
    else (s.modPkg p fun y => { y with halt := some (b, orig, kind), haltKind := kind }).at (max b s.wtc) pBegin [p]
      (.haltAtBoundary p)

/-- SCHEDULE_FAULT (R300 to R302, R373): one record, the count, and under a schedule the halt boundary and its broadcast. -/
def execScheduleFault (p kind core slot ctx : Nat) (s : State) : Out :=
  let num := (s.pkg p).num
  let s := s.record p s.wtc core slot false cSCH 0 ctx (BitVec.ofNat 32 (kind + 256 * num)) 0 0 0
  let s := s.modPkg p fun x => { x with fcnt := min (x.fcnt + 1) 65535 }
  .next (match (s.pkg p).schedAt s.wtc with
    | none => s
    | some t =>
      let b := frameAt t.flog (s.wtc + 96 + 2 * s.dmax)
      (s.adoptHalt p b num kind).castHalt p (List.range 32) b num kind)

/-- HALT_RECEIPT (R302): row partners of the origin pass it on through their column ports. -/
def execHaltReceipt (p b orig kind : Nat) (s : State) : Out :=
  let num := (s.pkg p).num
  let s : State := { s with packets := s.packets.filter fun x => !(x.dst = num && x.body = PBody.halt b orig kind) }
  let s := s.adoptHalt p b orig kind
  .next (if num / 16 = orig / 16 && num ≠ orig then s.castHalt p ((List.range 16).map (16 + ·)) b orig kind else s)

/-- The gang's launch is timed (R78). -/
def Gang.timed (g : Gang) : Bool := g.desc.flags % 2 = 1

/-- The teams of timed gangs on a package. -/
def State.timedTeams (s : State) (p : Nat) : List Team :=
  s.teams.filter fun t => t.pl.pkg = p && !t.ended && (match s.gang? t.pl.gang with | some g => g.timed | none => false)

/-- A started `sendat` or `recvat`, not yet ended. -/
def Card.slotted (k : Card) : Bool := k.q = 3 && k.start.isSome && !k.dead && (cType k.words = 1 || cType k.words = 2)

/-- What a card's slots from a cycle on become when they are neither sent nor landed (R303, R322): the card without them,
and for a receive what remains, as number 0, to meet their deliveries (R305). A receive that loses a slot credits nothing. -/
def stopSlots (from_ : Nat) (halt : Bool) (k : Card) : List Card :=
  if !k.slotted then [k]
  else
    let late := k.slots.filter (from_ ≤ ·.cyc)
    let k' : Card := { k with slots := k.slots.filter (·.cyc < from_), missing := k.missing || !late.isEmpty }
    if cType k.words = 1 || late.isEmpty then [k']
    else [k', { k with id := 0, slots := late, dead := true, stopped := halt, fin := some from_, settled := some from_, edges := [],
                       foot := [] }]

/-- A wait that a halt abandons (R303). -/
def Wait.haltable : Wait → Bool
  | .phase _ _ _ _ => true
  | .until _ => true
  | .barn _ _ => true
  | _ => false

/-- HALT_AT_BOUNDARY (R303): timed work of the package stops, and its timed teams take SCH. -/
def execHaltAtBoundary (p : Nat) (s : State) : Out :=
  match (s.pkg p).halt with
  | none => .next s
  | some (b, orig, kind) =>
    if s.wtc < b || (s.pkg p).halted then .next s
    else
      let now := s.wtc
      let s := s.modPkg p fun x => { x with halted := true, rs := none }
      let s := (List.range 256).foldl (fun s c =>
        if (s.core p c).cards.isEmpty && (s.core p c).queues.all (·.words.isEmpty) && (s.core p c).parked.isEmpty then s
        else
          let s := (s.dropCards p c fun k => k.start.isNone && cTmd k.words).dropQueued p c fun _ ws => cTmd ws
          let s := s.dropParked p c fun _ ws => cTmd ws
          s.modCore p c fun x => { x with cards := x.cards.flatMap (stopSlots now true) }) s
      .next ((s.timedTeams p).foldl (fun s t =>
        (s.modTeam t.id fun x => { x with waits := x.waits.filter (!·.haltable) }).postEvent t.id
          ⟨2, cSCH, false, false, BitVec.ofNat 32 (kind + 256 * orig), 0, 0, t.tl, now, 0, 0, 0, false⟩) s)

/-- RESTART (R304): from RS the timed teams run again. -/
def execRestart (p : Nat) (s : State) : Out :=
  .next (if (s.pkg p).rs = some s.wtc then s.modPkg p fun x => { x with rs := none } else s)

/-- TVALH of a team's SCH trap: with the trap while it has still to be taken, else in the bank of the highest level it entered
(R303). -/
def Team.setRs (t : Team) (h : Word) : Team :=
  let sch (l : Nat) : Bool := l ≤ t.tl && (t.bank l).cause.toNat % 32 = cSCH
  if t.events.any (·.order = 2) then
    { t with events := t.events.map fun e => if e.order = 2 then { e with tvalh := h } else e }
  else if sch 2 then t.setBank 2 { t.bank2 with valh := h }
  else if sch 1 then t.setBank 1 { t.bank1 with valh := h }
  else t

/-- RS is known: HALTED is cleared, and TVALH of the teams that took SCH receives it; the
islands are aligned again (R303, R304). -/
def State.setRestart (s : State) (p rs : Nat) : State :=
  let h : Word := BitVec.ofNat 32 rs
  let s := s.modPkg p fun x => { x with rs := some rs, halted := false, halt := none, slew := x.slew.map fun _ => (0, s.wtc) }
  let s := (s.timedTeams p).foldl (fun s t => s.modTeam t.id (·.setRs h)) s
  s.at rs pBegin [p] (.restart p)

/-! ## Frame boundaries (R160, R285) -/

/-- The start of the first compute-bound interval from a cycle on. -/
def Sched.nextInterval (t : Sched) (n : Nat) : Option Nat :=
  let f := n / 2 ^ t.flog * 2 ^ t.flog
  let here := (t.intervals.map fun i => f + i.1).filter (n ≤ ·)
  let next := t.intervals.map fun i => f + 2 ^ t.flog + i.1
  (here ++ next).head?

/-- The end of the compute-bound interval a cycle lies in. -/
def Sched.intervalEnd (t : Sched) (n : Nat) : Option Nat :=
  let o := n % 2 ^ t.flog
  (t.intervals.find? fun i => i.1 ≤ o && o < i.1 + i.2).map fun i => n - o + i.1 + i.2

/-- FRAME_BOUNDARY (R284, R285, R374): a table takes effect, which answers its request, or goes on; the accounts return to zero. -/
def execFrameBoundary (p : Nat) (s : State) : Out :=
  let x := s.pkg p
  let fresh := match x.next with | some t => decide (t.from_ ≤ s.wtc) | none => false
  let s := if fresh then (s.respondTo p x.nextTag 0).modPkg p fun y => { y with nextTag := none } else s
  let s := s.modPkg p fun y =>
    { y with sched := y.schedAt s.wtc, next := if fresh then none else y.next, slackM := [], slackH := [],
             schedRun := (y.schedAt s.wtc).isSome }
  match (s.pkg p).sched with
  | none => .next s
  | some t =>
    if s.wtc % 2 ^ t.flog ≠ 0 then .next s
    else
      let s := s.once (s.wtc + 2 ^ t.flog) 1 [p] (.frameBoundary p)
      .next (if !fresh then s
        else match t.nextInterval s.wtc with
          | none => s
          | some n => (List.range 512).foldl (fun s k => s.at n pMid [p, k] (.computeBoundRefresh p k)) s)

/-- An amount charged to an account for the current frame: the new sum (R285). -/
def charge (l : List (Nat × Nat)) (k n : Nat) : List (Nat × Nat) × Nat :=
  let old := match l.find? (·.1 = k) with | some x => x.2 | none => 0
  (l.filter (·.1 ≠ k) ++ [(k, old + n)], old + n)

/-! ## Time (R27, R306, R361) -/

/-- What is left in cycle n of the difference an island slews away, one count in 256 cycles (R306). -/
def slewLeft (x : Int × Nat) (n : Nat) : Int := x.1.sign * (x.1.natAbs - (n - x.2) / 256 : Nat)

/-- The clock islands of a die: its 32 quads, and the hub with die 0 (R27; entry 77). -/
def islandsOf (die : Nat) : List Nat := (List.range 32).map (32 * die + ·) ++ if die = 0 then [64] else []

/-- Island readings taken in cycle n lie within the bound of R27 in the package. -/
def Pkg.inSkew (x : Pkg) (n : Nat) : Bool :=
  let d := x.slew.map (slewLeft · n)
  d.all fun a => d.all fun b => a - b ≤ 2

/-- CORRECTION_PULSE (R306): the pulse of a die root finds a difference for each island of the die, which the island then slews
away; an island with none given still has what is left of its last one. Differences beyond the bound of R27 raise SKEW. -/
def execCorrectionPulse (p : Nat) (x : Pulse) (s : State) : Out :=
  let found := (islandsOf x.die).zip (List.range 33)
  let t := s.modPkg p fun q => { q with slew := found.foldl (fun l z =>
    l.modify z.1 fun y => (x.diffs.getD z.2 (slewLeft y s.wtc), s.wtc)) q.slew }
  .next (if (t.pkg p).inSkew s.wtc then t else t.then (.scheduleFault p 13 256 0 0))

/-- Every package but the time root sends the root a timestamp (R306). -/
def State.sendStamps (s : State) : State :=
  match s.pkgs.find? (·.timeRoot) with
  | none => s
  | some r => (List.range s.pkgs.length).foldl (fun s p =>
      if (s.pkg p).num = r.num then s else s.sendHeadered p r.num 1 (.stamp false)) s

/-- TIMESTAMP_EXCHANGE (R306): the skew measured against the time root, in cycles; beyond the bound of R27 it is a fault of
kind SKEW. -/
def execTimestampExchange (p : Nat) (skew : Int) (s : State) : Out :=
  let s := s.modPkg p fun x => { x with refAdj := x.refAdj + skew }
  .next (if 8 < skew.natAbs then s.then (.scheduleFault p 13 256 0 0) else s)

/-- PTP_MESSAGE (R306, R361): the time root records the offset, and steers its reference only while no schedule is in
force. -/
def execPtpMessage (p : Nat) (offset : Int) (s : State) : Out :=
  .next (s.modPkg p fun x =>
    if !x.timeRoot then x
    else if (x.schedAt s.wtc).isSome then { x with ptpOffset := offset }
    else { x with ptpOffset := offset, refAdj := x.refAdj - offset })

end Sys2Proof.Machine
end

