-- ==== Sys2Proof/Machine/Flags.lean ====
section
/-! DEFINITION. The shared forms of format A words: what a word writes, its latch, its flags and its traps (R45, R46, R50,
R88, R98, R134). -/

namespace Sys2Proof.Machine

/-- The write of a result: registers of the guarded lanes, the uniform register, or the queue (R38, R39, R45). -/
def writeD (c : Cur) (nw : Bool) (d : BitVec 7) (vals : List (Nat × Word)) : Cur :=
  if nw then c
  else if c.cls = .unif then
    match vals with
    | [] => c
    | (_, x) :: _ =>
      if d.toNat < 112 then c.act (.ureg (uix c.win d.toNat) x) else c.act (.push c.pos (d.toNat - 112) x)
  else c.act (.vreg d.toNat vals)

/-- FPE when raised flags meet TRAPEN[4:0], else the flags for FFLAGS (R134). -/
def flagTrap (t : Team) (c : Cur) (fls : List (Nat × Nat)) : Cur :=
  let en := t.csr.trapen.toNat % 32
  let raised := fls.foldl (fun a f => a ||| f.2) 0
  if raised &&& en ≠ 0 then
    c.raise cFPE (BitVec.ofNat 32 (raised + 256 * (raised &&& en))) 0
      (c.tlm ((fls.filter fun f => f.2 &&& en ≠ 0).map (·.1)))
  else if raised = 0 then c
  else c.act (.fflags raised)

/-- A word that computes a value and flags in each guarded lane: flags or trap, write of D, latch (R46, R50, R88, R134).
`cost` excludes the literal word. -/
def aluWord (nw pn : Bool) (pr : BitVec 3) (d : BitVec 7) (lit : Bool) (cost : Nat)
    (f : Team → Cur → Nat → Word × Nat) (t : Team) (c : Cur) : Cur :=
  let res : List (Nat × Option (Word × Nat)) :=
    c.lanes.map fun l => (l, if guardA t c pn pr l then some (f t c l) else none)
  let vals := res.filterMap fun r => r.2.map fun v => (r.1, v.1)
  let fls := res.filterMap fun r => r.2.map fun v => (r.1, v.2)
  let latch := res.map fun r => match r.2 with | some v => v.1 | none => dOld t c d r.1
  ((writeD (flagTrap t c fls) nw d vals).shift latch).past lit cost

/-- A truth value combined with the predicate's old value (R98). -/
def combine (mode : CMode) (old x : Bool) : Bool := match mode with | .set => x | .and => old && x | .or => old || x

/-- The write of a predicate: of the guarded lanes, or uniform; p7 and gp7 are never written (R18, R45, R98). -/
def writeP (c : Cur) (nw : Bool) (q : BitVec 3) (vals : List (Nat × Bool)) : Cur :=
  if nw || q = 7 then c
  else if c.cls = .unif then (match vals with | [] => c | (_, x) :: _ => c.act (.upred q.toNat x))
  else c.act (.vpred q.toNat vals)

/-- A word that computes a truth value and flags and combines it into a predicate (R98, R138). -/
def predWord (nw pn : Bool) (pr : BitVec 3) (mode : CMode) (q : BitVec 3) (lit : Bool)
    (f : Team → Cur → Nat → Bool × Nat) (t : Team) (c : Cur) : Cur :=
  let res : List (Nat × Option (Bool × Nat)) :=
    c.lanes.map fun l => (l, if guardA t c pn pr l then some (f t c l) else none)
  let vals := res.filterMap fun r => r.2.map fun v => (r.1, combine mode (predA t c q r.1) v.1)
  let fls := res.filterMap fun r => r.2.map fun v => (r.1, v.2)
  let latch := res.map fun r =>
    if (match r.2 with | some v => combine mode (predA t c q r.1) v.1 | none => predA t c q r.1) then (1 : Word) else 0
  ((writeP (flagTrap t c fls) nw q vals).shift latch).past lit 1

/-- The forms with two sources. -/
def bin (w : FA) (cost : Nat) (f : Word → Word → Word) : Team → Cur → Cur :=
  aluWord w.nw w.pn w.pr w.d (usesLit [w.a, w.b]) cost fun t c l => (f (srcOp t c w.a l) (srcOp t c w.b l), 0)

/-- The accumulating forms: D is a source as well. -/
def acc3 (w : FA) (f : Word → Word → Word → Word) : Team → Cur → Cur :=
  aluWord w.nw w.pn w.pr w.d (usesLit [w.a, w.b]) 1 fun t c l =>
    (f (srcOp t c w.a l) (srcOp t c w.b l) (dOld t c w.d l), 0)

/-- The forms with one source. -/
def un (w : FU) (cost : Nat) (f : Word → Word) : Team → Cur → Cur :=
  aluWord w.nw w.pn w.pr w.d (usesLit [w.a]) cost fun t c l => (f (srcOp t c w.a l), 0)

/-- Two sources with flags, under FRM. -/
def fbin (w : FA) (f : RMode → Word → Word → Word × Nat) : Team → Cur → Cur :=
  aluWord w.nw w.pn w.pr w.d (usesLit [w.a, w.b]) 1 fun t c l =>
    f (rmodeOf t.csr.frm) (srcOp t c w.a l) (srcOp t c w.b l)

/-- The compares. -/
def cmp (w : FC) (f : Word → Word → Bool × Nat) : Team → Cur → Cur :=
  predWord w.nw w.pn w.pr w.mode w.q (usesLit [w.a, w.b]) fun t c l => f (srcOp t c w.a l) (srcOp t c w.b l)

end Sys2Proof.Machine
end

