-- ==== Sys2Proof/Machine/FlowWords.lean ====
section
/-! DEFINITION. FLOW words (R69 to R76): branches, the reconvergence stack, `waitc` and `launch`. Each meaning is a
function on the pass under evaluation; the clause commits the flow state it leaves. The stack is a list, its top first. -/

namespace Sys2Proof.Machine

/-! ## The reconvergence stack -/

/-- The entries above the innermost C entry (R71). -/
def aboveCall (st : List StEntry) : List StEntry := st.takeWhile (·.kind ≠ .call)

/-- The lanes that may park: those of some R entry above the innermost C entry (R71). -/
def regionMask (st : List StEntry) : Mask :=
  (aboveCall st).foldl (fun m e => if e.kind = .region then m ||| e.mask else m) 0

/-- R71 holds for the lanes of a mask. -/
def mayPark (st : List StEntry) (m : Mask) : Bool := m &&& ~~~ regionMask st = 0

/-- `resume` (R72): entries are taken from the top until lanes are active; the popped D and C entries leave, an R entry
stays for its join. With nothing left the team ends: no lane of it is live any more (R77). -/
def resume (f : FlowSt) : List StEntry → FlowSt
  | [] => { f with stack := [], live := 0 }
  | e :: st =>
    if e.mask = 0 then resume f st
    else { f with active := e.mask, pc := e.pc, stack := if e.kind = .region then e :: st else st }

/-- R72 applied where the active mask is empty. -/
def FlowSt.resumed (f : FlowSt) : FlowSt := if f.active = 0 then resume f f.stack else f

/-- Lanes leave the mask of an entry; an entry left empty is discarded (R76). -/
def StEntry.less (m : Mask) (e : StEntry) : Option StEntry :=
  if e.mask &&& ~~~ m = 0 then none else some { e with mask := e.mask &&& ~~~ m }

/-- Lanes leave the k innermost R entries above the innermost C entry (`break`, `ret`). -/
def leaveRegions (m : Mask) : Nat → List StEntry → List StEntry
  | _, [] => []
  | 0, st => st
  | k + 1, e :: st =>
    match e.kind with
    | .call => e :: st
    | .deferred => e :: leaveRegions m (k + 1) st
    | .region =>
      match e.less m with
      | none => leaveRegions m k st
      | some e' => e' :: leaveRegions m k st

/-- Lanes leave every entry (`exit`). -/
def leaveAll (m : Mask) (st : List StEntry) : List StEntry := st.filterMap (·.less m)

/-! ## The pass -/

/-- The clause that follows (R75). -/
def Cur.nextPc (c : Cur) : Nat := c.hdr + c.pos + c.words.length

/-- A clause address is legal as a target (R34). -/
def State.isStart (s : State) (t : Team) (x : Nat) : Bool := (s.gangStarts t.pl.gang).contains x

/-- The word index a relative word names (R75). -/
def relTarget (c : Cur) (off : BitVec 16) : Int := (c.hdr + c.pos : Nat) + off.toInt

/-- A relative target as a clause start, where it is one. -/
def State.relStart (s : State) (t : Team) (c : Cur) (off : BitVec 16) : Option Nat :=
  let x := relTarget c off
  if 0 ≤ x && s.isStart t x.toNat then some x.toNat else none

/-- ILL with a detail (R63). -/
def Cur.ill (c : Cur) (detail : Nat) : Cur := c.raise cILL (BitVec.ofNat 32 detail) 0 0

def Cur.setFlow (c : Cur) (f : FlowSt) : Cur := { c with flow := f }

/-- A guarded FLOW word of one cycle (R75). -/
def flowWord (pn : Bool) (pr : BitVec 3) (lit : Bool) (f : Team → Cur → Cur) (t : Team) (c : Cur) : Cur :=
  (if guardU t pn pr then f t c else c).past lit 1

/-- An entry pushed, or detail 15 where the stack is full (R70). -/
def Cur.pushed (c : Cur) (e : StEntry) (f : FlowSt) : Cur :=
  if 64 ≤ c.flow.stack.length then c.ill 15 else c.setFlow { f with stack := e :: f.stack }

/-! ## The words -/

/-- `nop` (R76). -/
def execNop (w : FN) (s : State) : Out := onCur s (flowWord w.pn w.pr false fun _ c => c)

/-- `bra` (R76). -/
def execBra (w : FR) (s : State) : Out :=
  onCur s (flowWord w.pn w.pr false fun t c =>
    match s.relStart t c w.off with
    | none => c.ill 10
    | some x => c.setFlow { c.flow with pc := x })

/-- `brx` (R76). -/
def execBrx (w : FG) (s : State) : Out :=
  onCur s (flowWord w.pn w.pr (usesLit [w.a]) fun t c =>
    let x := (unifOp t c w.a).toNat
    if s.isStart t x then c.setFlow { c.flow with pc := x } else c.ill 10)

/-- The active lanes that take a `brp` or `brq` (R76). -/
def takers (t : Team) (c : Cur) (pn : Bool) (pr : BitVec 3) : Mask :=
  let p : Mask := if pr = 7 then ~~~ 0 else t.pr.getD pr.toNat 0
  c.flow.active &&& (if pn then ~~~ p else p)

/-- `brp` (R76): divergence defers the lanes that fall through. -/
def execBrp (w : FR) (s : State) : Out :=
  onCur s fun t c =>
    let tk := takers t c w.pn w.pr
    let f := c.flow.active &&& ~~~ tk
    (if tk = 0 then c.setFlow { c.flow with pc := c.nextPc }
     else match s.relStart t c w.off with
      | none => c.ill 10
      | some x =>
        if f = 0 then c.setFlow { c.flow with pc := x }
        else if !mayPark c.flow.stack f then c.ill 14
        else c.pushed ⟨.deferred, c.nextPc, f⟩ { c.flow with active := tk, pc := x }).past false 1

/-- `brq` (R76): the lanes that fail park. -/
def execBrq (w : FR) (s : State) : Out :=
  onCur s fun t c =>
    let tk := takers t c w.pn w.pr
    let f := c.flow.active &&& ~~~ tk
    (if tk = 0 then
       if !mayPark c.flow.stack f then c.ill 14 else c.setFlow ({ c.flow with active := 0 } : FlowSt).resumed
     else match s.relStart t c w.off with
      | none => c.ill 10
      | some x => if !mayPark c.flow.stack f then c.ill 14 else c.setFlow { c.flow with active := tk, pc := x }).past false 1

/-- `call` (R76). -/
def execCall (w : FG) (s : State) : Out :=
  onCur s (flowWord w.pn w.pr (usesLit [w.a]) fun t c =>
    let x := (unifOp t c w.a).toNat
    if s.isStart t x then c.pushed ⟨.call, c.nextPc, c.flow.active⟩ { c.flow with pc := x } else c.ill 10)

/-- `ret` (R76): the lanes wait in the C entry. -/
def execRet (w : FN) (s : State) : Out :=
  onCur s (flowWord w.pn w.pr false fun _ c =>
    if c.flow.stack.any (·.kind = .call) then
      let st := leaveRegions c.flow.active c.flow.stack.length c.flow.stack
      c.setFlow ({ c.flow with active := 0, stack := st } : FlowSt).resumed
    else c.ill 14)

/-- `rcv` (R76). -/
def execRcv (w : FR) (s : State) : Out :=
  onCur s (flowWord w.pn w.pr false fun t c =>
    match s.relStart t c w.off with
    | none => c.ill 10
    | some x => c.pushed ⟨.region, x, c.flow.active⟩ c.flow)

/-- `join` (R73, R76): merge where the top is this clause's region, else park and resume the top entry. -/
def execJoin (w : FN) (s : State) : Out :=
  onCur s (flowWord w.pn w.pr false fun _ c =>
    match c.flow.stack with
    | [] => c.ill 14
    | e :: st =>
      match e.kind with
      | .call => c.ill 14
      | .deferred =>
        if mayPark c.flow.stack c.flow.active then c.setFlow { c.flow with active := e.mask, pc := e.pc, stack := st }
        else c.ill 14
      | .region =>
        if e.pc = c.hdr then c.setFlow { c.flow with active := e.mask, pc := c.nextPc, stack := st }
        else if mayPark c.flow.stack c.flow.active then c.setFlow { c.flow with active := e.mask, pc := e.pc }
        else c.ill 14)

/-- `break` (R76): the active lanes leave the K innermost regions. -/
def execBrk (w : FR) (k : BitVec 5) (s : State) : Out :=
  onCur s (flowWord w.pn w.pr false fun t c =>
    match s.relStart t c w.off with
    | none => c.ill 10
    | some x =>
      if ((aboveCall c.flow.stack).filter (·.kind = .region)).length < k.toNat then c.ill 14
      else c.setFlow { c.flow with pc := x, stack := leaveRegions c.flow.active k.toNat c.flow.stack })

/-- `exit` (R76). -/
def execExit (w : FN) (s : State) : Out :=
  onCur s (flowWord w.pn w.pr false fun _ c =>
    let f := c.flow
    let g : FlowSt := { f with active := 0, live := f.live &&& ~~~ f.active, stack := leaveAll f.active f.stack }
    c.setFlow g.resumed)

/-- The register pair a word names (R76). -/
def pairOp (t : Team) (c : Cur) (a : BitVec 7) : Nat :=
  (t.g (uix c.win (a.toNat + 1))).toNat * 2 ^ 32 + (t.g (uix c.win a.toNat)).toNat

/-- `waitc` (R76): the wait is imposed at the commit. -/
def execWaitc (w : FG) (s : State) : Out :=
  onCur s (flowWord w.pn w.pr false fun t c => c.act (.waitc (pairOp t c w.a)))

/-- `launch` (R76): a misaligned descriptor traps ALN; the request is made at the commit. -/
def execLaunch (w : FG) (s : State) : Out :=
  onCur s (flowWord w.pn w.pr false fun t c =>
    let x := pairOp t c w.a
    let d := x % 2 ^ 56
    if 2 ^ 56 ≤ x || d % 64 ≠ 0 then c.raise cALN (addrLo d) (addrHi d) 0 else c.act (.launch d c.pos))

end Sys2Proof.Machine
end

