-- ==== Sys2Proof/Machine/SyncWords.lean ====
section
/-! DEFINITION. SYNC words (R193 to R208). A word checks its object and its operands in the pass; object updates, waits
and flushes are made at the commit of the pass. -/

namespace Sys2Proof.Machine

/-- A guarded SYNC word of one cycle (R197). -/
def syncWord (pn : Bool) (pr : BitVec 3) (lit : Bool) (f : Team → Cur → Cur) (t : Team) (c : Cur) : Cur :=
  (if guardU t pn pr then f t c else c).past lit 1

/-- The object a word names, or its trap: ALN before PRT (R193). -/
def onObject (t : Team) (c : Cur) (o : Nat) (f : Cur → Cur) : Cur :=
  if o % 16 ≠ 0 then c.raise cALN (BitVec.ofNat 32 o) 0 0
  else if t.pl.lsBytes < o + 16 then c.raise cPRT (BitVec.ofNat 32 o) 0 0
  else f c

/-- The LS offset of the object at block offset o, on the team's core. -/
def objOff (t : Team) (o : Nat) : Nat := t.pl.lsBase + o

/-- `binit` (R199). -/
def execBinit (w : FS) (s : State) : Out :=
  onCur s (syncWord w.pn w.pr (usesLit [w.a, w.b]) fun t c =>
    let o := (unifOp t c w.a).toNat
    onObject t c o fun c => c.act (.obj c.pos (.binit (objOff t o) (unifOp t c w.b))))

/-- `bexp` (R199). -/
def execBexp (w : FS) (s : State) : Out :=
  onCur s (syncWord w.pn w.pr (usesLit [w.a, w.b]) fun t c =>
    let o := (unifOp t c w.a).toNat
    onObject t c o fun c => c.act (.obj c.pos (.bexp (objOff t o) (unifOp t c w.b))))

/-- `bcred` (R199). -/
def execBcred (w : FS) (s : State) : Out :=
  onCur s (syncWord w.pn w.pr (usesLit [w.a, w.b]) fun t c =>
    let o := (unifOp t c w.a).toNat
    onObject t c o fun c => c.act (.obj c.pos (.bcred (objOff t o) (unifOp t c w.b))))

/-- n bytes of the block's LS at offset o, read at the bank by a word of the pass (R162, R201): where the read meets an uncorrectable
error, the word does nothing more. -/
def Cur.reads (c : Cur) (s : State) (t : Team) (o n : Nat) (f : Cur → Cur) : Cur :=
  let c := c.act (.lsRead c.pos o n)
  if s.uceAt t.pl.pkg (lsPa t.pl.core (objOff t o)) n then c else f c

/-- A `binit` of the team to the object is still staged (R200). -/
def State.initStaged (s : State) (t : Team) (off : Nat) : Bool :=
  s.staged.any fun e => e.team = t.id && (match e.op with | .binit o _ => o = off | _ => false)

/-- The expectation `barv` compares with (R200): the youngest staged `binit` of the team to the object, else the bank. -/
def State.expected (s : State) (t : Team) (off : Nat) : Nat :=
  s.staged.foldl (fun acc e =>
    match e.op with
    | .binit o x => if e.team = t.id && o = off then x.toNat % 65536 else acc
    | _ => acc) (s.rd t.pl.pkg (lsPa t.pl.core off + 6) 2)

/-- `barv` (R200): a count that is 0 or disagrees with the expectation traps BMM. EXPARR is read at the bank where no staged `binit`
gives it; with an uncorrectable error there nothing is compared and nothing arrives (entry 97). -/
def execBarv (w : FS) (s : State) : Out :=
  onCur s (syncWord w.pn w.pr (usesLit [w.a, w.b]) fun t c =>
    let o := (unifOp t c w.a).toNat
    onObject t c o fun c =>
      let x := unifOp t c w.b
      let compare (c : Cur) : Cur :=
        if x.toNat ≠ s.expected t (objOff t o) then c.raise cBMM (BitVec.ofNat 32 o) x 0
        else c.act (.obj c.pos (.barv (objOff t o)))
      if x = 0 then c.raise cBMM (BitVec.ofNat 32 o) x 0
      else if s.initStaged t (objOff t o) then compare c
      else c.reads s t (o + 6) 2 compare)

/-- The phase of the object at an LS offset, as the bank holds it. A wait keeps the offset in the block's allocation, which a fill
may move (R331). -/
def State.phase (s : State) (p core off : Nat) : Word := BitVec.ofNat 32 (s.rd p (lsPa core off) 4)

/-- `waitph` (R201): the wait is imposed at the commit; a read with an uncorrectable error imposes none (entry 97). -/
def execWaitph (w : FW) (s : State) : Out :=
  onCur s (syncWord w.pn w.pr (usesLit [w.a, w.b]) fun t c =>
    let o := (unifOp t c w.a).toNat
    onObject t c o fun c =>
      let given := unifOp t c w.b
      let dead : Word := if w.b.toNat ≤ 110 then t.g (uix c.win (w.b.toNat + 1)) else 0
      c.reads s t o 16 fun c =>
      if phasePast (s.phase t.pl.pkg t.pl.core (objOff t o)) given then c.act (.upred w.gpd.toNat true)
      else c.act (.waitph o given w.gpd.toNat dead))

/-- `testph` (R201): the bank in the cycle of the pass; a read with an uncorrectable error writes no predicate (entry 97). -/
def execTestph (w : FW) (s : State) : Out :=
  onCur s (syncWord w.pn w.pr (usesLit [w.a, w.b]) fun t c =>
    let o := (unifOp t c w.a).toNat
    onObject t c o fun c =>
      c.reads s t o 16 fun c => c.act (.upred w.gpd.toNat (phasePast (s.phase t.pl.pkg t.pl.core (objOff t o)) (unifOp t c w.b))))

/-- `barn` (R202). -/
def execBarn (w : FB) (s : State) : Out :=
  onCur s (syncWord w.pn w.pr false fun _ c => c.act (.barn w.scope))

/-- `fence` (R204). -/
def execFence (w : FB) (s : State) : Out :=
  onCur s (syncWord w.pn w.pr false fun _ c => c.act (.fence w.scope c.pos))

/-- `xfence` (R206). -/
def execXfence (w : FN) (s : State) : Out :=
  onCur s (syncWord w.pn w.pr false fun _ c => c.act .xfence)

/-- `tflush` (R207). -/
def execTflush (w : FG) (s : State) : Out :=
  onCur s (syncWord w.pn w.pr (usesLit [w.a]) fun t c => c.act (.tflush (unifOp t c w.a)))

/-- `tbenter` (R208). -/
def execTbenter (w : FN) (s : State) : Out :=
  onCur s (syncWord w.pn w.pr false fun _ c => c.act .tbenter)

/-- `tbrel` (R208). -/
def execTbrel (w : FN) (s : State) : Out :=
  onCur s (syncWord w.pn w.pr false fun _ c => c.act .tbrel)

end Sys2Proof.Machine
end

