-- ==== Sys2Proof/Machine/SyncEvents.lean ====
section
/-! DEFINITION. Waits and their ends: barrier objects (R194 to R201), barrier networks (R202, R203), fences (R186, R204 to
R206, R346), and the tag board (R208, R209). -/

namespace Sys2Proof.Machine

/-! ## Barrier objects -/

/-- The update is a read of its object too, every one but `binit`. -/
def StagedOp.readsObject : StagedOp → Option Nat
  | .barv off => some off
  | .bexp off _ => some off
  | .bcred off _ => some off
  | _ => none

/-- The staged update would read an object with an uncorrectable error: its offset (R162). -/
def State.lostUpdate (s : State) (e : Staged) : Option Nat :=
  e.op.readsObject.bind fun off => if s.uceAt e.pkg (lsPa e.core off) 16 then some off else none

/-- The object a staged update reads is corrected (R162). -/
def State.meetUpdate (s : State) (e : Staged) : State :=
  match e.op.readsObject with
  | some off => s.correct e.pkg (lsPa e.core off) 16
  | none => s

/-- BARRIER_OBJECT_UPDATE (R162, R194, R195, R199, R200): a staged update at the object's bank; one that meets an uncorrectable error is
lost, with UCE for its team (entry 97). -/
def execBarrierObjectUpdate (i : Nat) (s : State) : Out :=
  match s.staged? i with
  | none => .next s
  | some e =>
    let s := s.dropStaged i
    let at_ (off : Nat) : Nat := lsPa e.core off
    let seen (s : State) (off : Nat) : State :=
      (s.knowObj e.pkg (at_ off)).watch e.pkg e.core off 16 true (.lane e.team e.core e.from_.words)
    .next (match s.lostUpdate e with
    | some off =>
      let base := match s.team? e.team with | some t => t.pl.lsBase | none => 0
      s.fault e.team e.level cUCE (BitVec.ofNat 32 (off - base)) 0 0 e.from_.words e.from_.hdr e.from_.pass e.from_.pos
    | none =>
    let s := s.meetUpdate e
    match e.op with
      | .binit off x =>
        seen (s.wr e.pkg (at_ off) (natBytes 4 0 ++ natBytes 2 0 ++ natBytes 2 x.toNat ++ natBytes 4 0 ++ natBytes 4 0)) off
      | .barv off =>
        (seen (s.wr e.pkg (at_ off + 4) (natBytes 2 (s.rd e.pkg (at_ off + 4) 2 + 1))) off).complete e.pkg (at_ off)
      | .bexp off x => (seen (s.wr e.pkg (at_ off + 8) (natBytes 4 x.toNat)) off).complete e.pkg (at_ off)
      | .bcred off x => (seen s off).credit e.pkg e.core off x.toNat
      | _ => s)

/-- ENGINE_CREDIT (R194, R240): bytes credited to an object by an engine or a scheduled receive. -/
def execEngineCredit (p c src off bytes : Nat) (s : State) : Out :=
  .next ((s.watch p c off 16 true (.engine src c)).credit p c off bytes)

/-- A wait of a team ends. -/
def State.endWait (s : State) (t : Nat) (w : Wait) : State :=
  s.modTeam t fun x => { x with waits := x.waits.filter (· ≠ w) }

def Team.setUp (t : Team) (q : Nat) (b : Bool) : Team := if q = 7 then t else { t with gp := t.gp.set q b }

/-- The object of a wait stands at its bank: its gang is not OUT, nor its half still being filled (R327, R331). -/
def State.objectHere (s : State) (t : Team) : Bool :=
  match s.gang? t.pl.gang with | some g => g.state ≠ .out && g.state ≠ .fill | none => true

/-- The waits for a phase whose condition holds now end, their predicates true (R196, R201). -/
def State.wakePhases (s : State) : State :=
  (s.teams.filter s.objectHere).foldl (fun s t =>
    t.waits.foldl (fun s w =>
      match w with
      | .phase off given gpd _ =>
        if phasePast (s.phase t.pl.pkg t.pl.core (objOff t off)) given then (s.endWait t.id w).modTeam t.id (·.setUp gpd true) else s
      | _ => s) s) s

/-- The deadline of a wait has come (R201). -/
def deadlinePast (now : Nat) (d : Word) : Bool := d ≠ 0 && decide ((BitVec.ofNat 32 now - d).toNat < 2 ^ 31)

/-- The first cycle from `c` on in which a deadline has come (R201). -/
def deadlineCycle (c : Nat) (d : Word) : Nat :=
  if deadlinePast c d then c else c + (d - BitVec.ofNat 32 c).toNat

/-- WAITPH_DEADLINE (R201): the wait ends with its predicate false, and with TRAPEN.WTO the team takes SWT. -/
def execWaitphDeadline (t : Nat) (s : State) : Out :=
  match s.team? t with
  | none => .next s
  | some tm =>
    .next (tm.waits.foldl (fun s w =>
      match w with
      | .phase off _ gpd d =>
        if deadlinePast s.wtc d then
          let s := (s.endWait t w).modTeam t (·.setUp gpd false)
          if tm.csr.trapen.getLsbD 10 then
            s.postEvent t ⟨5, cSWT, false, false, BitVec.ofNat 32 off, 0, 0, tm.tl, s.wtc, 0, 0, 0, false⟩
          else s
        else s
      | _ => s) s)

/-! ## Barrier networks (R202, R203) -/

/-- The gangs of a gang's pod gang: those joined with it, else itself (R341). -/
def State.podGang (s : State) (g : Nat) : List Gang :=
  match s.gang? g with
  | none => []
  | some x => if x.join = 0 then [x] else s.gangs.filter (·.join = x.join)

/-- Every member of a gang's join is known to have been admitted or to have failed (R341, R364). -/
def State.joinWhole (s : State) (g : Nat) : Bool :=
  match s.gang? g with
  | none => true
  | some x =>
    if x.join = 0 then true
    else
      let js := s.pkgs.flatMap fun p => p.joins.filter (·.num = x.join)
      match js with
      | [] => true
      | j :: _ => j.njoin ≤ js.foldl (fun n y => n + y.members.length + y.failed) 0

/-- Two places lie in one unit at a scope (R12). -/
def sameUnit (sc : Scope) (a b : Place) : Bool :=
  match sc with
  | .pod => true
  | .pkg => a.pkg = b.pkg
  | .die => a.pkg = b.pkg && a.core / 128 = b.core / 128
  | .quad => a.pkg = b.pkg && a.core / 4 = b.core / 4
  | _ => a.pkg = b.pkg && a.core = b.core

/-- The participants of a team's rounds at a scope (R202, R341). -/
def State.participants (s : State) (t : Team) (sc : Scope) : List Team :=
  let gs := if sc = .pod then (s.podGang t.pl.gang).map (·.id) else [t.pl.gang]
  s.teams.filter fun u => gs.contains u.pl.gang && sameUnit sc t.pl u.pl

/-- Round k of a scope is complete for a team's unit (R202). -/
def State.roundComplete (s : State) (t : Team) (sc : Scope) (k : Nat) : Bool :=
  (sc ≠ .pod || s.joinWhole t.pl.gang) &&
    (s.participants t sc).all fun u => u.ended || k ≤ u.barnCount.getD (sc.code.toNat) 0

/-- The cycles from the last arrival of a round to its completion, for a pod round the bound (R203, R342). -/
def State.roundDelay (s : State) (sc : Scope) : Nat :=
  match sc with
  | .core | .team => 4
  | .quad => 16
  | .die => 48
  | .pkg => 96
  | .pod => 96 + 2 * (2 * s.dmax + 56)

/-- The event that ends a team's wait for a round. Its number holds the scope's code and the round. -/
def roundEvent (t : Nat) (sc : Scope) (k : Nat) : Instr := .barnRoundComplete t (sc.code.toNat + 8 * k)

/-! ### The pod network: tokens in elastic slots (R12, R175, R203; entry 10) -/

/-- The number a pod gang's rounds go under: its first gang. -/
def State.podKey (s : State) (g : Nat) : Nat := match s.podGang g with | x :: _ => x.id | [] => g

/-- The packages with teams of a pod gang that have not ended. -/
def State.podPkgs (s : State) (g : Nat) : List Nat :=
  let gs := (s.podGang g).map (·.id)
  distinct ((s.teams.filter fun t => gs.contains t.pl.gang && !t.ended).map (·.pl.pkg))

/-- The package that gathers a pod gang's rounds: the one of the least number. -/
def State.podRoot (s : State) (g : Nat) : Nat :=
  let ps := (s.podGang g).map (·.pkg)
  ps.foldl (fun a p => if (s.pkg p).num < (s.pkg a).num then p else a) (ps.headD 0)

/-- A package keeps a token, in place of those of earlier rounds. -/
def State.keepToken (s : State) (p : Nat) (x : Token) : State :=
  s.modPkg p fun y => { y with tokens := (y.tokens.filter fun z =>
    !(z.key = x.key && z.from_ = x.from_ && z.release = x.release)) ++ [x] }

/-- The teams of a pod gang on a package that wait for round k. -/
def State.podWaiters (s : State) (g p k : Nat) : List Nat :=
  let gs := (s.podGang g).map (·.id)
  (s.teams.filter fun t => gs.contains t.pl.gang && t.pl.pkg = p && t.waits.contains (.barn .pod k)).map (·.id)

/-- A round's release is known on a package: under a schedule its teams are ready 96 cycles on; with none, at the cycle of R342
alone. -/
def State.podRelease (s : State) (g p k : Nat) : State :=
  if s.pkgs.all fun x => (x.schedAt s.wtc).isNone then s
  else (s.podWaiters g p k).foldl (fun s t => s.at (s.wtc + 96) pBegin [t] (roundEvent t .pod k)) s

/-- The root has the tokens of a round of every package: it releases. -/
def State.podGathered (s : State) (g k : Nat) : State :=
  let r := s.podRoot g
  let key := s.podKey g
  let num := (s.pkg r).num
  let have_ (from_ : Nat) (release : Bool) : Bool := (s.pkg r).tokens.any fun z => z.key = key && k ≤ z.round && z.from_ = from_ &&
    z.release = release
  if !s.joinWhole g || have_ num true || !(s.podPkgs g).all fun p => have_ (s.pkg p).num false then s
  else
    let s := s.keepToken r ⟨key, k, num, true⟩
    let s := ((s.podPkgs g).filter (· ≠ r)).foldl (fun s p => s.sendHeadered r (s.pkg p).num 1 (.token key k num true)) s
    s.podRelease g r k

/-- The rounds of a pod gang that are complete on a package and for which it has sent no token yet. -/
def State.podArrived (s : State) (g p : Nat) : List Nat :=
  let gs := (s.podGang g).map (·.id)
  let ts := s.teams.filter fun t => gs.contains t.pl.gang && t.pl.pkg = p
  let num := (s.pkg p).num
  let key := s.podKey g
  (distinct (ts.flatMap fun t => t.waits.filterMap fun w => match w with | .barn .pod k => some k | _ => none)).filter fun k =>
    (ts.all fun t => t.ended || k ≤ t.barnCount.getD (Scope.pod.code.toNat) 0) &&
      !((s.pkg p).tokens.any fun z => z.key = key && k ≤ z.round && z.from_ = num && !z.release)

/-- Each package whose teams have all arrived in a round sends its token to the root. -/
def State.podTokens (s : State) (g : Nat) : State :=
  let r := s.podRoot g
  let key := s.podKey g
  let rounds := (s.podPkgs g).flatMap fun p => (s.podArrived g p).map fun k => (p, k)
  let s := rounds.foldl (fun s z =>
    let num := (s.pkg z.1).num
    let s := s.keepToken z.1 ⟨key, z.2, num, false⟩
    if z.1 = r then s else s.sendHeadered z.1 (s.pkg r).num 1 (.token key z.2 num false)) s
  (distinct (rounds.map (·.2))).foldl (fun s k => s.podGathered g k) s

/-- A token has arrived at a package. -/
def State.tokenIn (s : State) (p key k from_ : Nat) (release : Bool) : State :=
  let s := s.keepToken p ⟨key, k, from_, release⟩
  if release then s.podRelease key p k else s.podGathered key k

/-- PACKET_TAKEN_IN (R176, R203, R306): a packet's last slot has arrived at its destination. -/
def execPacketTakenIn (p i : Nat) (s : State) : Out :=
  match s.packet? i with
  | none => .next s
  | some x =>
    let s := s.dropPacket i
    .next (match x.body with
      | .token key k from_ release => s.tokenIn p key k from_ release
      | .stamp false => s.sendHeadered p x.src 1 (.stamp true)
      | .stamp true => s.then (.timestampExchange p 0)
      | _ => s.takeIn p x)

/-- A commit or an end may complete rounds (R202, R203): their teams are ready L cycles on, and the pod network's tokens leave. -/
def State.checkRounds (s : State) (g : Nat) : State :=
  let gs := (s.podGang g).map (·.id)
  let waits := (s.teams.filter fun t => gs.contains t.pl.gang).flatMap fun t => t.waits.filterMap fun w =>
    match w with
    | .barn sc k => if s.roundComplete t sc k then some (t.id, sc, k) else none
    | _ => none
  let s := waits.foldl (fun s w =>
    let ev := roundEvent w.1 w.2.1 w.2.2
    if s.agenda.any (·.ev = ev) then s else s.at (s.wtc + s.roundDelay w.2.1) pBegin [w.1] ev) s
  s.podTokens g

/-- BARN_ROUND_COMPLETE (R203): a team's wait for a round ends; the number is 8 · round + scope code. -/
def execBarnRoundComplete (t scope : Nat) (s : State) : Out :=
  .next (s.modTeam t fun x => { x with waits := x.waits.filter fun w =>
    match w with
    | .barn sc k => sc.code.toNat + 8 * k ≠ scope
    | _ => true })

/-! ## Fences (R186, R204 to R206) -/

/-- A remote store or atomic of the team, of a pass before cycle `c`, has not entered a tub before cycle `n`, or its fault has not
reached the team before `n` (R37, R338; that an element which enters its tub in cycle `n` still holds a
clause of that cycle is a DESIGN CHOICE, entry 76). -/
def State.untubbed (s : State) (t : Team) (c n : Nat) : Bool :=
  (s.flights.any fun f => f.team = t.id && f.space = 2 && f.kind ≠ .load && f.commit < c &&
    f.lanes.any fun q => q.st = .walk || (q.st = .moving && (q.due = 0 || n ≤ q.due)) ||
      ((q.st = .err || q.st = .unmapped) && n ≤ q.due)) ||
  (s.pkg t.pl.pkg).waiting.any fun e => e.team = t.id

/-- A lane is a load, store or atomic of LS or device memory, or, for a fence, a store not yet issued to its link (R204, R206). -/
def awaited (f : Flight) (fence : Bool) (q : LaneReq) : Bool := q.home < 2 ^ 60 || (fence && f.kind = .store)

/-- The team's accesses of passes before `c` that a fence of scope core to pkg, or `xfence`, waits for are performed (R204, R206). -/
def State.homesDone (s : State) (t : Team) (c : Nat) (fence : Bool) : Bool :=
  (s.staged.all fun e => e.team ≠ t.id || c ≤ e.s || (match e.op with | .acc _ | .frame _ _ => true | _ => false)) &&
  s.flights.all fun f => f.team ≠ t.id || 1 < f.space || c ≤ f.commit || (f.kind = .load && !fence) ||
    f.lanes.all fun q => q.atHome || !awaited f fence q

/-- The team's remote loads of passes before `c`, or its remote stores and atomics, are answered (R186, R187, R204). -/
def State.remoteAnswered (s : State) (t : Team) (c : Nat) (loads : Bool) : Bool :=
  s.flights.all fun f => f.team ≠ t.id || f.space ≠ 2 || (f.kind = .load) != loads || c ≤ f.commit || f.lanes.all (·.atHome)

/-- The drain of a fence that committed in cycle `c` is complete: elements acknowledged, their records settled (R186). -/
def State.drainDone (s : State) (t : Team) (c : Nat) : Bool :=
  s.remoteAnswered t c false && s.ctxs.all fun x => x.pend.all (·.team ≠ t.id)

/-- The accesses a wait names have reached their state. -/
def State.fenceDone (s : State) (t : Team) : Wait → Bool
  | .fence sc c _ _ late =>
    match sc with
    | .team => !s.untubbed t c (s.wtc + 1)
    | .pod => s.homesDone t c true && s.remoteAnswered t c true && (late || s.drainDone t c)
    | _ => s.homesDone t c true
  | .xfence c => s.homesDone t c false
  | _ => false

/-- A fence of scope pod ends in this cycle: RFL where a fault was recorded and TRAPEN.RF is set (R186, R346). -/
def State.fenceEnds (s : State) (t : Team) (w : Wait) : State :=
  let s := s.endWait t.id w
  match w with
  | .fence .pod _ hdr pos _ =>
    if t.csr.rstat.getLsbD 1 && t.csr.trapen.getLsbD 9 then
      let h := match s.ctx? t.pl.pkg (s.gangCtx t.pl.gang) with | some x => x.tuberrH | none => 0
      s.postEvent t.id ⟨1, cRFL, false, false, h, 0, 0, t.tl, s.wtc + 1, hdr, 1 + 256 * pos, 0, false⟩
    else s
  | _ => s

/-- FENCE_COMPLETION (R205, R206): the waits whose accesses have all reached their state end. -/
def execFenceCompletion (t : Nat) (s : State) : Out :=
  match s.team? t with
  | none => .next s
  | some tm => .next ((tm.waits.filter (s.fenceDone tm)).foldl (fun s w => s.fenceEnds ((s.team? t).getD tm) w) s)

/-- The wait with its drain given up (R186). -/
def Wait.drainOver : Wait → Wait
  | .fence sc c hdr pos _ => .fence sc c hdr pos true
  | w => w

/-- A fence of scope pod that committed in cycle `c` waits for its drain. -/
def Wait.drains (c : Nat) : Wait → Bool
  | .fence .pod c' _ _ late => c' = c && !late
  | _ => false

/-- POD_FENCE_TIMEOUT (R186, R204): the drain of the fence that committed in cycle c, where it is still open, is given up with TO set;
what else the fence waits for holds it on (DEDUCED, entry 98). -/
def execPodFenceTimeout (t c : Nat) (s : State) : Out :=
  match s.team? t with
  | none => .next s
  | some tm =>
    .next (if s.drainDone tm c || !tm.waits.any (·.drains c) then s
      else (s.setRstat t 1).modTeam t fun x => { x with waits := x.waits.map fun w => if w.drains c then w.drainOver else w })

/-! ## The tag board (R208, R209) -/

/-- The teams of a block. -/
def State.blockTeams (s : State) (g b : Nat) : List Team := s.teams.filter fun t => t.pl.gang = g && t.pl.block = b

/-- Every team of a block has closed its round k, or has ended (R209). -/
def State.roundClosed (s : State) (g b k : Nat) : Bool := (s.blockTeams g b).all fun t => k < t.rounds || t.ended

/-- A lane of a tagged word is a held access not yet performed, or may become one once its walk ends (R208). -/
def LaneReq.unperformed (q : LaneReq) : Bool :=
  q.st = .walk || ((q.st = .held || q.st = .moving) && homeOf q.home = .hbm)

/-- A block's round k has been released and its held accesses performed, or the block ended without reaching it (R209). -/
def State.roundPerformed (s : State) (g : Gang) (b k : Nat) : Bool :=
  ((k < g.releasedOf b) && s.flights.all fun f =>
    f.gang ≠ g.id || f.round ≠ some (b, k) || !f.tagged || f.lanes.all (!·.unperformed)) ||
  (s.blockTeams g.id b).all fun t => t.ended && t.rounds ≤ k

/-- N of R209: how far apart two blocks lie. -/
def State.blockGap (s : State) (g a b : Nat) : Nat :=
  match s.blockTeams g a, s.blockTeams g b with
  | x :: _, y :: _ => if x.pl.core / 4 = y.pl.core / 4 then 0 else if x.pl.core / 128 = y.pl.core / 128 then 16 else 40
  | _, _ => 0

/-- The rounds a gang's teams have come to. -/
def State.roundsOf (s : State) (g : Nat) : Nat :=
  (s.teams.filter (·.pl.gang = g)).foldl (fun n t => max n t.rounds) 0

/-- Rounds performed by now are noted with the cycle (R209). -/
def State.noteRounds (s : State) (g : Gang) : State :=
  let todo := (List.range g.desc.blocks).flatMap fun b => (List.range (s.roundsOf g.id + 1)).filterMap fun k =>
    if !(g.rounds.any fun r => r.1 = b && r.2.1 = k) && s.roundPerformed g b k then some (b, k, s.wtc) else none
  s.modGang g.id fun x => { x with rounds := x.rounds ++ todo }

/-- The blocks whose next round is released in the next cycle (R209). -/
def State.releasable (s : State) (g : Gang) : List Nat :=
  (List.range g.desc.blocks).filter fun b =>
    let k := g.releasedOf b
    k < s.roundsOf g.id && s.roundClosed g.id b k && (s.blockTeams g.id b).any (k < ·.rounds) &&
      (b = 0 || g.rounds.any fun r => r.1 = b - 1 && r.2.1 = k && r.2.2 + s.blockGap g.id (b - 1) b ≤ s.wtc)

/-- The tag board looks at every gang under DET at the end of a cycle. -/
def State.tagBoard (s : State) : State :=
  (s.gangs.filter fun g => g.desc.flags / 2 % 2 = 1 && g.ended = 0).foldl (fun s g =>
    let s := s.noteRounds g
    match s.gang? g.id with
    | none => s
    | some g => (s.releasable g).foldl (fun s b =>
        if s.agenda.any (·.ev = .tagBoardRelease g.id b) then s
        else s.at (s.wtc + 1) pBegin [g.id, b] (.tagBoardRelease g.id b)) s) s

/-- Passes in the order a core sends them at a release: team in block, then commit (R209). -/
def passOrder (s : State) (l : List Flight) : List (Nat × Nat) :=
  let tib (f : Flight) : Nat := match s.team? f.team with | some t => t.pl.tib | none => 0
  distinct ((l.foldl (fun acc f =>
    let le (x : Flight) : Bool := keyLe [tib x, x.commit, x.id] [tib f, f.commit, f.id]
    acc.filter le ++ f :: acc.filter (!le ·)) []).map fun f => (f.team, f.commit))

/-- TAG_BOARD_RELEASE (R209): each core of the block sends its held passes, one pass a cycle. -/
def execTagBoardRelease (g b : Nat) (s : State) : Out :=
  match s.gang? g with
  | none => .next s
  | some x =>
    let k := x.releasedOf b
    let s := s.modGang g fun y => { y with released := y.released.filter (·.1 ≠ b) ++ [(b, k + 1)] }
    let held := s.flights.filter fun f => f.gang = g && f.round = some (b, k) && f.lanes.any (·.st = .held)
    .next ((distinct (held.map fun f => (f.pkg, f.core))).foldl (fun s pc =>
      let mine := held.filter fun f => (f.pkg, f.core) = pc
      let order := passOrder s mine
      mine.foldl (fun s f =>
        let s := s.modLanes f.id fun q => if q.st = .held then { q with st := .moving, due := 0 } else q
        s.sendLanes f.id (s.wtc + order.findIdx (· = (f.team, f.commit)))) s) s)

end Sys2Proof.Machine
end

