-- ==== Sys2Proof/Machine/Accept.lean ====
section
/-! DEFINITION. The assay unit (R261 to R264): acceptance of a card (R235, R239), edges, the start of a card on its engine
(R236, R264), its end, its credit (R240) and its errors (R239, R276, R298). -/

namespace Sys2Proof.Machine

/-! ## Cards by number -/

def State.card? (s : State) (p c i : Nat) : Option Card := (s.core p c).cards.find? (·.id = i)
def State.modCard (s : State) (p c i : Nat) (f : Card → Card) : State :=
  s.modCore p c fun x => { x with cards := x.cards.map fun k => if k.id = i then f k else k }

/-- In flight in a cycle: not finished before it (R261). -/
def Card.inFlight (k : Card) (n : Nat) : Bool := !k.dead && (match k.fin with | some f => decide (n ≤ f) | none => true)

/-- The card runs on its engine: it has started and has not finished before cycle n. -/
def Card.running (k : Card) (n : Nat) : Bool := k.start.isSome && k.inFlight n

/-- The engine is not free of the card: it runs, or, a matrix card that stopped, has a write of an earlier step to make (R236). -/
def Card.engaged (k : Card) (n : Nat) : Bool :=
  k.running n || (k.q = 0 && k.start.isSome && k.stopped && !k.dead && k.settled.any (n ≤ ·))

/-! ## Errors (R239, R276, R298) -/

/-- The ERR field of a queue's status register takes a code (R239, R277, R299). -/
def TeamCsr.setErr (r : TeamCsr) (q code : Nat) : TeamCsr :=
  let put (x : Word) : Word := (x &&& 0xFFF0FFFF) ||| BitVec.ofNat 32 (code % 16 * 65536)
  match q with
  | 0 => { r with mstat := put r.mstat }
  | 1 => { r with hstat := put r.hstat }
  | 2 => { r with qstat := put r.qstat }
  | _ => { r with fstat := put r.fstat }

/-- The fault of a card with an error: code, first offending word, cause (R239). -/
def State.cardFault (s : State) (team level q tag : Nat) (o : Origin) (code word cause : Nat) : State :=
  (s.modTeam team fun t => { t with csr := t.csr.setErr q code }).fault team level cause
    (BitVec.ofNat 32 ((if cause = cILL then 17 else 0) + code * 256 + tag * 65536)) (BitVec.ofNat 32 (word % 16 + q * 16)) 0
    o.words o.hdr o.pass o.pos

/-- A running card stops with an error of a card word in this cycle, that of the access that failed (R239, R261, R276): it finishes in
it and credits nothing. `last` is the cycle of the last write still to be made for it. -/
def State.stopCardAt (s : State) (p c : Nat) (k : Card) (last code word cause : Nat) : State :=
  let now := s.wtc
  (s.modCard p c k.id fun x =>
    { x with fin := some now, settled := some last, stopped := true,
             haul := { x.haul with latest := some (max last (x.haul.latest.getD last)) } }).cardFault k.team k.level k.q
    (cTag k.words) k.from_ code word cause

def State.stopCard (s : State) (p c : Nat) (k : Card) (code word cause : Nat) : State :=
  s.stopCardAt p c k s.wtc code word cause

/-! ## Acceptance (R235, R239, R261, R263) -/

/-- The cycle in which the head card of a queue may be accepted; none while a card of the queue waits to start. -/
def State.acceptAt (s : State) (p c q : Nat) : Option Nat :=
  let x := s.core p c
  let y := x.queues.getD q Queue.reset
  match y.ready with
  | [] => none
  | r :: _ =>
    if x.cards.any fun k => k.q = q && k.start.isNone && !k.dead then none else some (max (r.e + 2) (y.lastStart + 1))

/-- Two footprints conflict (R263): some ranges overlap and one of the two is a write. -/
def footsMeet (a b : List FRange) (sameCtx : Bool) : Bool :=
  a.any fun x => b.any fun y => (x.write || y.write) && x.meets y sameCtx

def HaulSt.reset : HaulSt := ⟨0, 0, 0, 0, [], none, none, none, 0, 0, [], [], none, none⟩

/-- CARD_ACCEPTANCE (R235, R239, R261, R263): the head card of a queue leaves it; it is rejected with a fault, or enters the
assay unit with its edges. -/
def execCardAcceptance (p c q : Nat) (s : State) : Out :=
  let x := s.core p c
  let y := x.queues.getD q Queue.reset
  match s.acceptAt p c q, y.ready with
  | some a, r :: rs =>
    if s.wtc < a then .next s
    else
      let now := s.wtc
      let ws := (y.words.take r.len).map (·.x)
      let s := s.modCore p c fun x => { x with queues := x.queues.modify q fun y =>
        { y with words := y.words.drop r.len, ready := rs } }
      match s.team? r.team with
      | none => .next s
      | some t =>
        match s.cardBad t q ws with
        | some (code, w) =>
          .next ((s.modCore p c fun x => { x with queues := x.queues.modify q fun y => { y with lastStart := now } }).cardFault
            t.id r.level q (cTag ws) r.from_ code w (errCause code))
        | none =>
          let (i, s) := s.fresh
          let ctx := s.gangCtx t.pl.gang
          let foot := s.footprint t q ws
          let edges := (x.cards.filter fun k => k.inFlight now && footsMeet k.foot foot (k.ctx = ctx)).map (·.id)
          let k : Card :=
            { id := i, q := q, team := t.id, gang := t.pl.gang, ctx := ctx, slot := t.pl.slot, level := r.level,
              from_ := r.from_, words := ws, accept := now, start := Option.none, fin := Option.none,
              settled := Option.none, edges := edges, foot := foot, stopped := false, dead := false, haul := HaulSt.reset,
              slots := [], missing := false, count := 0, delay := 0 }
          .next (s.modCore p c fun x => { x with cards := x.cards ++ [k] })
  | _, _ => .next s

/-! ## Edges (R263) -/

/-- The edge of card i to card j is released in this cycle: j has finished before it, or is gone. -/
def State.edgeOver (s : State) (p c j : Nat) : Bool :=
  match s.card? p c j with
  | none => true
  | some k => !k.inFlight s.wtc

/-- EDGE_RELEASE (R263): in the cycle after the earlier card's finishing cycle. -/
def execEdgeRelease (p c i j : Nat) (s : State) : Out :=
  .next (if s.edgeOver p c j then s.modCard p c i fun k => { k with edges := k.edges.filter (· ≠ j) } else s)

/-- The first edge of a core to release. -/
def State.dueEdge (s : State) (p c : Nat) : Option (Nat × Nat) :=
  (s.core p c).cards.findSome? fun k => (k.edges.find? fun j => s.edgeOver p c j).map fun j => (k.id, j)

/-! ## Start (R236, R264, R355) -/

/-- A waiting card may start in this cycle: two cycles after acceptance, its engine free, its edges released; under
throttling, in an even cycle. -/
def State.mayStart (s : State) (p c : Nat) (k : Card) : Bool :=
  k.start.isNone && !k.dead && k.accept + 2 ≤ s.wtc && k.edges.isEmpty && !((s.pkg p).throttled && s.wtc % 2 = 1) &&
    ((s.core p c).cards.all fun j => j.q ≠ k.q || !j.engaged s.wtc)

/-- The card starts: its queue may accept the next one. -/
def State.startCard (s : State) (p c : Nat) (k : Card) : State :=
  let now := s.wtc
  (s.modCard p c k.id fun x => { x with start := some now }).modCore p c fun x =>
    { x with queues := x.queues.modify k.q fun y => { y with lastStart := now } }

/-! ## End and credit (R240, R261) -/

/-- The source of an engine's accesses as WPHIT names it (R324). -/
def srcOf (q : Nat) : Nat := q + 1

/-- The base of the block's LS on the core, as a card's offsets count. -/
def State.cardBase (s : State) (k : Card) : Nat := match s.team? k.team with | some t => t.pl.lsBase | none => 0

/-- A card finishes at f; its bytes are credited two cycles later, after those of an engine earlier on the wheel (R22, R194, R240). -/
def State.finishCard (s : State) (p c : Nat) (k : Card) (f : Nat) : State :=
  match cardCredit k.q k.words with
  | some (off, n) =>
    (s.modCard p c k.id fun x => { x with fin := some f, settled := some (f + 2) }).at (f + 2) pCredit [c, srcOf k.q]
      (.engineCredit p c (srcOf k.q) (s.cardBase k + off) n)
  | none => s.modCard p c k.id fun x => { x with fin := some f, settled := some f }

/-- The slots of a receive that a kill or a halt ended are forgotten behind their cycle (R305). -/
def Card.forget (k : Card) (now : Nat) : Card := if k.dead then { k with slots := k.slots.filter (now < ·.cyc) } else k

/-- Nothing is left to do with a card by the end of a cycle. -/
def Card.over (k : Card) (now : Nat) : Bool :=
  k.fin.any (· ≤ now) && k.settled.any (· ≤ now) && k.slots.all (fun x => x.taken && x.cyc ≤ now) && k.haul.todo.isEmpty &&
    k.haul.open_ = 0

/-- Cards with nothing more to do leave the core at the end of a cycle. -/
def State.sweepCards (s : State) : State :=
  let now := s.wtc
  { s with cores := s.cores.map fun x =>
    if x.cards.isEmpty then x else { x with cards := (x.cards.map (·.forget now)).filter (!·.over now) } }

end Sys2Proof.Machine
end

