-- ==== Sys2Proof/Machine/Matrix.lean ====
section
/-! DEFINITION. The matrix engine (R246 to R258): the arithmetic of `mm` in classical and recombined order, its reads and
writes step by step, re-execution, and the tile cards. -/

namespace Sys2Proof.Machine

/-! ## Exact values (R246 to R249) -/

/-- A decoded operand: a number in units of 2⁻³⁰⁰, an infinity, or a NaN. -/
inductive MV where
  | num (x : Int)
  | inf (neg : Bool)
  | nan
  deriving DecidableEq, Repr

/-- Every operand, carrier value and F32 number is a whole count of 2⁻³⁰⁰. -/
def mvUnit : Int := 300

def mvOf : Val → MV
  | .zero _ => .num 0
  | .fin n m e => let x : Int := m * 2 ^ (e + mvUnit).toNat; .num (if n then -x else x)
  | .inf n => .inf n
  | .nan _ => .nan

def MV.finite : MV → Bool
  | .num _ => true
  | _ => false

def MV.negate : MV → MV
  | .num x => .num (-x)
  | .inf n => .inf (!n)
  | .nan => .nan

/-- A sum of terms: a NaN among them, a NaN made, infinities of each sign, and the finite rest in units of 2⁻⁶⁰⁰. -/
structure MSum where
  (nan made pos neg : Bool) (sum : Int)
  deriving DecidableEq, Repr

def MSum.zero : MSum := ⟨false, false, false, false, 0⟩

def MSum.add (a b : MSum) : MSum := ⟨a.nan || b.nan, a.made || b.made, a.pos || b.pos, a.neg || b.neg, a.sum + b.sum⟩
def MSum.minus (a : MSum) : MSum := ⟨a.nan, a.made, a.neg, a.pos, -a.sum⟩

/-- The product of two operands as a term (R249). -/
def mvMul (a b : MV) : MSum :=
  let isInf (n : Bool) : MSum := ⟨false, false, !n, n, 0⟩
  let odd : MSum := ⟨true, true, false, false, 0⟩
  match a, b with
  | .nan, _ => ⟨true, false, false, false, 0⟩
  | _, .nan => ⟨true, false, false, false, 0⟩
  | .num x, .num y => ⟨false, false, false, false, x * y⟩
  | .inf n, .num y => if y = 0 then odd else isInf (n != decide (y < 0))
  | .num x, .inf n => if x = 0 then odd else isInf (n != decide (x < 0))
  | .inf n, .inf k => isInf (n != k)

/-- The exact sum of products along k. -/
def mvDot (a b : List MV) : MSum := (a.zip b).foldl (fun s z => s.add (mvMul z.1 z.2)) MSum.zero

/-- The step result of an element (R249): the word, NV and OF. NV tells of a product 0·∞ or of infinities of both signs, a NaN operand
among the terms or not (DESIGN CHOICE, entry 103). -/
def mvFinish (c : Word) (t : MSum) : Word × Bool × Bool :=
  let cm : MSum := match mvOf (f32 c) with
    | .num x => ⟨false, false, false, false, x * 2 ^ mvUnit.toNat⟩
    | .inf n => ⟨false, false, !n, n, 0⟩
    | .nan => ⟨true, false, false, false, 0⟩
  let s := cm.add t
  let made := s.made || (s.pos && s.neg)
  if s.nan || (s.pos && s.neg) then (canonNaN, made, false)
  else if s.pos then (f32Inf false, made, false)
  else if s.neg then (f32Inf true, made, false)
  else if s.sum = 0 then (0, made, false)
  else
    let r := rndF32 .rne (s.sum < 0) s.sum.natAbs (-(2 * mvUnit))
    (r.1, made, r.2 / flOF % 2 = 1)

/-! ## Carriers (R248) -/

/-- The carrier of an operand of format id `x`, scaled or not; `other` tells that the other operand is scaled. -/
def carrierOf (x : Nat) (mx other : Bool) : FLay :=
  if x = 1 then ⟨10, 9, 255⟩
  else if x = 2 then ⟨13, 7, 63⟩
  else if mx || (x = 10 && other) then ⟨7, 9, 255⟩
  else ⟨7, 6, 31⟩

/-- An exact sum rounded into a carrier. -/
def toCarrier (f : FLay) (x : Int) : Int :=
  let (n, q, _) := f.round (RMode.rne.pick (x < 0)) x.natAbs (-mvUnit)
  let y : Int := n * 2 ^ (q + mvUnit).toNat
  if x < 0 then -y else y

/-- A pre-addition of terms (R247): the carrier value, and whether it made a NaN. -/
def preAdd (f : FLay) (l : List MV) : MV × Bool :=
  let nan := l.contains MV.nan
  let pos := l.contains (MV.inf false)
  let neg := l.contains (MV.inf true)
  if nan || (pos && neg) then (.nan, pos && neg)
  else if pos then (.inf false, false)
  else if neg then (.inf true, false)
  else (.num (toCarrier f (l.foldl (fun s v => match v with | .num x => s + x | _ => s) 0)), false)

/-! ## Blocks (R246, R247) -/

/-- A block or a panel: rows of operands along k. -/
abbrev MBlock := List (List MV)

/-- The element-wise pre-addition of blocks, each with its sign. -/
def preBlock (f : FLay) (l : List (Bool × MBlock)) : MBlock × Bool :=
  match l with
  | [] => ([], false)
  | (_, b0) :: _ =>
    let rows := (List.range b0.length).map fun r => (List.range (b0.headD []).length).map fun k =>
      preAdd f (l.map fun z => let v := (z.2.getD r []).getD k (.num 0); if z.1 then v.negate else v)
    (rows.map (·.map (·.1)), rows.any (·.any (·.2)))

/-- The product of a block of rows and a block of columns. -/
def blockMul (a b : MBlock) : List (List MSum) := a.map fun r => b.map fun c => mvDot r c

/-- Element-wise sums of products, each with its sign. -/
def addBlocks : List (Bool × List (List MSum)) → List (List MSum)
  | [] => []
  | [(n, b)] => if n then b.map (·.map (·.minus)) else b
  | (n, b) :: l =>
    ((if n then b.map (·.map (·.minus)) else b).zip (addBlocks l)).map fun z => (z.1.zip z.2).map fun y => y.1.add y.2

def blockOf (x : MBlock) (lowRows lowK : Bool) (h : Nat) : MBlock :=
  (if lowRows then x.take 64 else x.drop 64).map fun r => if lowK then r.take h else r.drop h

/-- The four blocks of sums C11, C12, C21, C22 of a step, and whether a pre-addition made a NaN. `a` holds the 128 rows of A,
`b` the 128 columns of B. -/
def stepSums (classical : Bool) (fa fb : FLay) (kg : Nat) (a b : MBlock) : List (List (List MSum)) × Bool :=
  let h := kg / 2
  let p := true
  let m := false
  if classical then
    ([blockMul (a.take 64) (b.take 64), blockMul (a.take 64) (b.drop 64), blockMul (a.drop 64) (b.take 64),
      blockMul (a.drop 64) (b.drop 64)], false)
  else
    let a11 := blockOf a true true h
    let a12 := blockOf a true false h
    let a21 := blockOf a false true h
    let a22 := blockOf a false false h
    let b11 := blockOf b true true h
    let b12 := blockOf b false true h
    let b21 := blockOf b true false h
    let b22 := blockOf b false false h
    let (s1, n1) := preBlock fa [(m, a21), (m, a22)]
    let (s2, n2) := preBlock fa [(m, a21), (m, a22), (p, a11)]
    let (s3, n3) := preBlock fa [(m, a11), (p, a21)]
    let (s4, n4) := preBlock fa [(m, a12), (p, a21), (p, a22), (m, a11)]
    let (t1, n5) := preBlock fb [(m, b12), (p, b11)]
    let (t2, n6) := preBlock fb [(m, b22), (p, b12), (m, b11)]
    let (t3, n7) := preBlock fb [(m, b22), (p, b12)]
    let (t4, n8) := preBlock fb [(m, b22), (p, b12), (m, b11), (p, b21)]
    let m1 := blockMul a11 b11
    let m2 := blockMul a12 b21
    let m3 := blockMul s4 b22
    let m4 := blockMul a22 t4
    let m5 := blockMul s1 t1
    let m6 := blockMul s2 t2
    let m7 := blockMul s3 t3
    ([addBlocks [(m, m1), (m, m2)], addBlocks [(m, m1), (m, m6), (m, m5), (m, m3)],
      addBlocks [(m, m1), (m, m6), (m, m7), (p, m4)], addBlocks [(m, m1), (m, m6), (m, m7), (m, m5)]],
      n1 || n2 || n3 || n4 || n5 || n6 || n7 || n8)

/-! ## Reading a panel (R244, R117) -/

/-- Little-endian bytes cut into rows of n bytes. -/
def chunksOf (n : Nat) : Nat → List Byte → List (List Byte)
  | 0, _ => []
  | k + 1, bs => bs.take n :: chunksOf n k (bs.drop n)

/-- Element codes of a packed row: n codes of w bits. -/
def codesOf (w n : Nat) (bs : List Byte) : List Nat :=
  let x := bytesNat bs
  (List.range n).map fun k => x / 2 ^ (w * k) % 2 ^ w

/-- The element codes of a panel with the scale code of each: rows of (code, scale). -/
def panelCodes (x kg : Nat) (mx : Bool) (bs : List Byte) : List (List (Nat × Nat)) :=
  let w := fmtBits (fmtOfId x)
  let rb := kg * w / 8
  let rows := chunksOf rb 128 bs
  let sc := chunksOf (kg / 32) 128 (bs.drop (128 * rb))
  (rows.zip (if mx then sc else rows)).map fun z =>
    let s := z.2
    ((List.range kg).zip (codesOf w kg z.1)).map fun y => (y.2, if mx then (s.getD (y.1 / 32) 0).toNat else 0)

def panelVals (x kg : Nat) (mx : Bool) (bs : List Byte) : MBlock :=
  (panelCodes x kg mx bs).map (·.map fun z =>
    mvOf (if mx then mxVal (fmtOfId x) z.1 z.2 else fmtVal (fmtOfId x) z.1))

/-! ## The result of a step (R249, R252) -/

/-- Integer arithmetic applies: both operands are unscaled S8 (R243). -/
def MM.integer (m : MM) : Bool := m.afmt = 10 && m.bfmt = 10 && !m.amx && !m.bmx

def MM.classical (m : MM) : Bool := m.cls || m.semi ≠ 0 || m.afmt = 12 || m.bfmt = 12

/-- The identity of ACCZ (R252). -/
def MM.identity (m : MM) : Word := if m.semi = 1 then 0x7F800000 else if m.semi = 2 then 0xFF800000 else 0

/-- One element in a semiring mode (R252), its operands widened BF16. -/
def semiStep (semi : Nat) (c : Word) (a b : List Word) : Word :=
  match semi with
  | 1 => (a.zip b).foldl (fun c z => (fMinMax false c (fAdd .rne z.1 z.2).1).1) c
  | 2 => (a.zip b).foldl (fun c z => (fMinMax true c (fMul .rne z.1 z.2).1).1) c
  | _ =>
    let t (x : Word) : Bool := x.toNat % 2 ^ 31 ≠ 0
    if t c || (a.zip b).any fun z => t z.1 && t z.2 then 0x3F800000 else 0

/-- A block of 64 rows by 64 columns of a tile's new words from the old ones. -/
def semiBlock (semi : Nat) (old : List Word) (a b : List (List Word)) : List Word :=
  (old.zip (a.flatMap fun r => b.map fun c => (r, c))).map fun z => semiStep semi z.1 z.2.1 z.2.2

/-- What a step makes of its four tiles, given as words, from its panels: the new words, and RNF, NV and OF. -/
def MM.step (m : MM) (old : List (List Word)) (pa pb : List Byte) : List (List Word) × Nat :=
  if m.semi ≠ 0 then
    let wide (bs : List Byte) : List (List Word) :=
      (panelCodes 1 m.kg false bs).map (·.map fun z => BitVec.ofNat 32 (z.1 * 65536))
    let a := wide pa
    let b := wide pb
    ([semiBlock m.semi (old.getD 0 []) (a.take 64) (b.take 64), semiBlock m.semi (old.getD 1 []) (a.take 64) (b.drop 64),
      semiBlock m.semi (old.getD 2 []) (a.drop 64) (b.take 64), semiBlock m.semi (old.getD 3 []) (a.drop 64) (b.drop 64)], 0)
  else if m.integer then
    let ints (bs : List Byte) : List (List Int) := (panelCodes 10 m.kg false bs).map (·.map fun z => (BitVec.ofNat 8 z.1).toInt)
    let a := ints pa
    let b := ints pb
    let dot (x y : List Int) : Int := (x.zip y).foldl (fun s z => s + z.1 * z.2) 0
    let blk (o : List Word) (x y : List (List Int)) : List Word :=
      (o.zip (x.flatMap fun r => y.map fun c => dot r c)).map fun z => z.1 + BitVec.ofInt 32 z.2
    ([blk (old.getD 0 []) (a.take 64) (b.take 64), blk (old.getD 1 []) (a.take 64) (b.drop 64),
      blk (old.getD 2 []) (a.drop 64) (b.take 64), blk (old.getD 3 []) (a.drop 64) (b.drop 64)], 0)
  else
    let a := panelVals m.afmt m.kg m.amx pa
    let b := panelVals m.bfmt m.kg m.bmx pb
    let (sums, made) := stepSums m.classical (carrierOf m.afmt m.amx m.bmx) (carrierOf m.bfmt m.bmx m.amx) m.kg a b
    let res := (old.zip sums).map fun z => (z.1.zip (z.2.flatMap id)).map fun y => mvFinish y.1 y.2
    let odd := !m.classical && (a.any (·.any (!·.finite)) || b.any (·.any (!·.finite)))
    let nv := made || res.any (·.any (·.2.1))
    let ov := res.any (·.any (·.2.2))
    (res.map (·.map (·.1)), (if odd then 1 else 0) + (if nv then 2 else 0) + if ov then 4 else 0)

/-! ## Tiles in the store -/

/-- n words of a sorted store from an index up. -/
def fillAcc : List (Nat × Word) → Nat → Nat → List Word
  | _, _, 0 => []
  | [], a, n + 1 => Config.unlistedAcc :: fillAcc [] (a + 1) n
  | (k, x) :: r, a, n + 1 => if k = a then x :: fillAcc r (a + 1) n else Config.unlistedAcc :: fillAcc ((k, x) :: r) (a + 1) n

def State.accRead (s : State) (a n : Nat) : List Word := fillAcc (s.acc.filter fun z => a ≤ z.1 && z.1 < a + n) a n

/-- The first a-tile of a card's team. -/
def State.tileBase (s : State) (k : Card) : Nat := match s.team? k.team with | some t => t.pl.atBase | none => 0

/-! ## The steps of `mm` in time (R254, R255) -/

def up7 (n : Nat) : Nat := (512 * n + 6) / 7

/-- Origin and write cycle of step n, counted from S (R254). -/
def MM.times (m : MM) (n : Nat) : Nat × Nat :=
  if m.classical then
    let q := up7 m.kgs * (n / m.kgs)
    (q + up7 (n % m.kgs), 40 + q + up7 (n % m.kgs + 1))
  else (64 * n, 40 + 64 * (n + 1))

/-- One read of a step: LS bytes from an offset, or bytes formed by unfolding from a byte of the panel. -/
inductive MRead where
  | ls (off n : Nat)
  | unf (from_ n : Nat)
  deriving DecidableEq, Repr

def cutKilo (f : Nat → Nat → MRead) (base len : Nat) : List MRead :=
  (List.range ((len + 1023) / 1024)).map fun k => f (base + 1024 * k) (min 1024 (len - 1024 * k))

/-- The reads of one operand's panel in step n: its elements, then its scales. -/
def MM.panel (m : MM) (n adr str x row p : Nat) (mx : Bool) : List MRead :=
  let base := adr + 64 * str * row + n % m.kgs * p
  let el := 128 * m.kg * fmtBits (fmtOfId x) / 8
  cutKilo .ls base el ++ if mx then cutKilo .ls (base + el) (4 * m.kg) else []

/-- The reads of A in step n. -/
def MM.readsA (m : MM) (n : Nat) : List MRead :=
  if m.unf then cutKilo .unf 0 (128 * m.kg * fmtBits (fmtOfId m.afmt) / 8)
  else m.panel n m.aadr m.astr m.afmt (n / m.kgs / m.nt) m.pa m.amx

/-- The reads of step n, in order (R255). -/
def MM.reads (m : MM) (n : Nat) : List MRead :=
  m.readsA n ++ m.panel n m.badr m.bstr m.bfmt (n / m.kgs % m.nt) m.pb m.bmx

/-- Where element (row, column) of an unfolded A lies in the tensor, as an element number (R253). -/
def MM.unfold (m : MM) (row col : Nat) : Option Nat :=
  if m.oh * m.ow ≤ row then none
  else
    let c := col % m.c
    let f := col / m.c
    let y := row / m.ow * m.st + f / m.fw
    let x := row % m.ow * m.st + f % m.fw
    if y < m.pad || x < m.pad || m.h + m.pad ≤ y || m.w + m.pad ≤ x then none
    else some (((y - m.pad) * m.w + (x - m.pad)) * m.c + c)

/-- The LS ranges a read needs: (byte of the read, offset, bytes). -/
def MM.ranges (m : MM) (n : Nat) : MRead → List (Nat × Nat)
  | .ls off len => [(off, len)]
  | .unf a len =>
    let w := fmtBits (fmtOfId m.afmt) / 8
    (List.range (len / w)).filterMap fun k =>
      let e := a / w + k
      (m.unfold (128 * (n / m.kgs / m.nt) + e / m.kg) (m.kg * (n % m.kgs) + e % m.kg)).map fun x => (m.aadr + w * x, w)

/-- The bytes a read delivers. -/
def MM.bytes (m : MM) (s : State) (p base n : Nat) : MRead → List Byte
  | .ls off len => natBytes len (s.rd p (base + off) len)
  | .unf a len =>
    let w := fmtBits (fmtOfId m.afmt) / 8
    (List.range (len / w)).flatMap fun k =>
      let e := a / w + k
      match m.unfold (128 * (n / m.kgs / m.nt) + e / m.kg) (m.kg * (n % m.kgs) + e % m.kg) with
      | some x => natBytes w (s.rd p (base + m.aadr + w * x) w)
      | none => List.replicate w 0

/-- The matrix card on a core's engine; a stopped one is until the writes of its earlier steps are done. -/
def State.matrixCard (s : State) (p c : Nat) : Option Card :=
  (s.core p c).cards.find? fun k => k.q = 0 && k.engaged s.wtc

/-- The step of a core's matrix card that an entry of the agenda belongs to. -/
def matrixEntry (p c : Nat) (e : Entry) : Option Nat :=
  match e.ev with
  | .matrixStep a b n _ => if a = p && b = c then some n else none
  | .matrixTileChunk a b n _ => if a = p && b = c then some n else none
  | _ => none

/-- What a card that stops in step n still had to do from that step on is taken back. -/
def State.dropMatrix (s : State) (p c n : Nat) : State :=
  { s with agenda := s.agenda.filter fun e => (matrixEntry p c e).all (· < n) }

/-- The card stops in step n: what earlier steps have read they still write, and the engine is free after the last of those writes
(R236, R239; entry 90). Of a card that has stopped already the step is lost and nothing more is reported. -/
def State.stopMatrix (s : State) (p c : Nat) (k : Card) (n code word : Nat) : State :=
  let s := s.dropMatrix p c n
  let last := s.agenda.foldl (fun m e => if (matrixEntry p c e).isSome then max m e.cyc else m) s.wtc
  if k.stopped then s else s.stopCardAt p c k last code word cUCE

/-- An engine's read of LS ranges: errors, corrections and watchpoints (R162, R324). -/
def State.engineRead (s : State) (p c src base : Nat) (l : List (Nat × Nat)) : State × Bool :=
  if l.any fun r => s.uceAt p (lsPa c (base + r.1)) r.2 then (s, true)
  else (l.foldl (fun (s : State) r =>
    (s.correct p (lsPa c (base + r.1)) r.2).watch p c (base + r.1) r.2 false (.engine src c)) s, false)

/-- The operand bytes of step n read so far. -/
def Card.buffer (k : Card) (n : Nat) : List Byte := match k.haul.pieces.find? (·.k = n) with | some x => x.data | none => []

def Card.addBuffer (k : Card) (n : Nat) (bs : List Byte) : Card :=
  let x : Piece := ⟨n, none, none, 0, false, none, k.buffer n ++ bs, 0⟩
  { k with haul := { k.haul with pieces := k.haul.pieces.filter (·.k ≠ n) ++ [x] } }

def Card.dropBuffer (k : Card) (n : Nat) : Card :=
  { k with haul := { k.haul with pieces := k.haul.pieces.filter (·.k ≠ n) } }

/-- A read of step n; its successor and, with the first, the next step's origin follow. -/
def State.mmRead (s : State) (p c : Nat) (k : Card) (n part : Nat) (r : MRead) : State :=
  let m := mmOf k.words
  let base := s.cardBase k
  let (s, bad) := s.engineRead p c 1 base (m.ranges n r)
  if bad then s.stopMatrix p c k n 11 (if part < (m.readsA n).length then 1 else 2)
  else
    let s := s.modCard p c k.id (·.addBuffer n (m.bytes s p (lsPa c base) n r))
    let s0 := k.start.getD 0 + k.delay
    let s := if part + 1 < (m.reads n).length then s.at (s.wtc + 2) pRead [c] (.matrixStep p c n (part + 1))
      else s.at (s0 + (m.times n).2) pEngine [c] (.matrixStep p c n (part + 1))
    if part = 0 && n + 1 < m.mt * m.nt * m.kgs then
      s.at (even (s0 + (m.times (n + 1)).1)) pRead [c] (.matrixStep p c (n + 1) 0)
    else s

/-- The write of step n (R249, R255). -/
def State.mmWrite (s : State) (p c : Nat) (k : Card) (n : Nat) : State :=
  let m := mmOf k.words
  let tile := s.tileBase k + m.cbase + 4 * (n / m.kgs)
  let first := m.accz && n % m.kgs = 0
  let at_ (q : Nat) : Nat := accIx p c (tile + q) 0
  if !first && s.accBad (at_ 0) 16384 then s.stopMatrix p c k n 11 4
  else
    let s := if first then s else s.correctAcc p (at_ 0) 16384
    let old := (List.range 4).map fun q => if first then List.replicate 4096 m.identity else s.accRead (at_ q) 4096
    let buf := k.buffer n
    let la := if m.unf then 128 * m.kg * fmtBits (fmtOfId m.afmt) / 8 else m.pa
    let (new, fl) := m.step old (buf.take la) (buf.drop la)
    let s := ((List.range 4).zip new).foldl (fun (s : State) z => s.accWrite (at_ z.1) z.2) s
    let s := s.modTeam k.team fun t => { t with csr := { t.csr with mstat := t.csr.mstat ||| BitVec.ofNat 32 fl } }
    let s := s.modCard p c k.id (·.dropBuffer n)
    if n + 1 = m.mt * m.nt * m.kgs && !k.stopped then s.finishCard p c k s.wtc else s

/-- MATRIX_STEP (R254, R255): a read of step n of the running `mm` card, or, behind its reads, its write. -/
def execMatrixStep (p c n part : Nat) (s : State) : Out :=
  match s.matrixCard p c with
  | none => .next s
  | some k =>
    if cType k.words ≠ 1 then .next s
    else match ((mmOf k.words).reads n)[part]? with
      | some r => .next (s.mmRead p c k n part r)
      | none => .next (s.mmWrite p c k n)

/-- `mm` (R241): the card starts. -/
def execMm (p c i : Nat) (s : State) : Out :=
  match s.card? p c i with
  | none => .next s
  | some k =>
    if k.q = 0 && cType k.words = 1 && s.mayStart p c k then
      .next ((s.startCard p c k).at (even s.wtc) pRead [c] (.matrixStep p c 0 0))
    else .next s

/-! ## Re-execution (R257, R285) -/

/-- A step's origin or write, which a re-execution moves. -/
def moves (m : MM) (p c : Nat) : Instr → Bool
  | .matrixStep a b n part => a = p && b = c && (part = 0 || (m.reads n).length ≤ part)
  | _ => false

/-- RE_EXECUTION (R257): the residue check of step n of the running card fails; a second failure stops the card. -/
def execReExecution (p c n : Nat) (s : State) : Out :=
  match s.matrixCard p c with
  | none => .next s
  | some k =>
    if cType k.words ≠ 1 then .next s
    else if k.stopped then .next s
    else if k.count = n + 1 then .next (s.stopMatrix p c k n 12 0)
    else
      let m := mmOf k.words
      let s : State := { s with agenda := lateAgenda (fun e => if moves m p c e.ev then 72 else 0) s.agenda }
      let s := s.modCard p c k.id fun x => { x with count := n + 1, delay := x.delay + 72 }
      let s := s.modTeam k.team fun t =>
        let r := t.csr.mstat.toNat / 256 % 256
        { t with csr := { t.csr with mstat := if r = 255 then t.csr.mstat else t.csr.mstat + 256 } }
      if !cTmd k.words then .next s
      else
        let (l, sum) := charge (s.pkg p).slackM c 72
        let s := s.modPkg p fun x => { x with slackM := l }
        match (s.pkg p).schedAt s.wtc with
        | some t => .next (if t.slkm < sum then s.then (.scheduleFault p 6 c k.slot k.ctx) else s)
        | none => .next s

/-! ## The tile cards (R258) -/

/-- A tile card of the running engine starts with its first chunk in cycle `at_`. -/
def State.startTiles (s : State) (p c i ty part : Nat) (at_ : Nat) : State :=
  match s.card? p c i with
  | none => s
  | some k =>
    if k.q = 0 && cType k.words = ty && s.mayStart p c k then
      (s.startCard p c k).at at_ (if part = 0 then pRead else pEngine) [c] (.matrixTileChunk p c 0 part)
    else s

/-- `mzero` (R258). -/
def execMzero (p c i : Nat) (s : State) : Out := .next (s.startTiles p c i 2 1 s.wtc)

/-- `aload` (R258). -/
def execAload (p c i : Nat) (s : State) : Out := .next (s.startTiles p c i 3 0 (even s.wtc))

/-- `adrain` (R258). -/
def execAdrain (p c i : Nat) (s : State) : Out := .next (s.startTiles p c i 4 1 (even s.wtc))

/-- The next chunk of a tile card, or its end with this one. -/
def State.nextTile (s : State) (p c : Nat) (k : Card) (i total part gap : Nat) : State :=
  if i + 1 < total then s.at (s.wtc + gap) pEngine [c] (.matrixTileChunk p c (i + 1) part) else s.finishCard p c k s.wtc

/-- Words converted and packed by `adrain`, with the flags (R119 to R124, R258). -/
def drainWords (x : Nat) (sat rtz : Bool) (ws : List Word) : List Byte × Nat :=
  if x = 0 then (ws.flatMap fun w => natBytes 4 w.toNat, 0)
  else
    let f := fmtOfId x
    let rs := ws.map fun w => convTo f rtz sat (f32 w)
    (rs.flatMap fun r => natBytes (fmtBits f / 8) r.1, rs.foldl (fun a r => a ||| r.2) 0)

/-- MATRIX_TILE_CHUNK (R258): chunk i of the running tile card: part 0 reads the source of `aload`, part 1 writes. -/
def execMatrixTileChunk (p c i part : Nat) (s : State) : Out :=
  match s.matrixCard p c with
  | none => .next s
  | some k =>
    let ws := k.words
    let base := s.cardBase k
    let tiles := s.tileBase k
    match cType ws with
    | 2 =>
      let s := s.accWrite (accIx p c (tiles + cf ws 1 0 8 + i) 0) (List.replicate 4096 0)
      .next (s.nextTile p c k i (cf ws 1 8 8) 1 1)
    | 3 =>
      let total := 16 * cf ws 2 8 8
      if part = 0 then
        let off := cf ws 1 0 21 + 1024 * i
        let (s, bad) := s.engineRead p c 1 base [(off, 1024)]
        if bad then .next (s.stopMatrix p c k i 11 1)
        else
          let s := s.modCard p c k.id (·.addBuffer i (natBytes 1024 (s.rd p (lsPa c (base + off)) 1024)))
          let s := s.at (s.wtc + 2) pEngine [c] (.matrixTileChunk p c i 1)
          .next (if i + 1 < total then s.at (s.wtc + 2) pRead [c] (.matrixTileChunk p c (i + 1) 0) else s)
      else
        let bs := chunksOf 4 256 (k.buffer i)
        let s := s.accWrite (accIx p c (tiles + cf ws 2 0 8 + i / 16) (256 * (i % 16)))
          (bs.map fun b => BitVec.ofNat 32 (bytesNat b))
        let s := s.modCard p c k.id (·.dropBuffer i)
        .next (if i + 1 = total then s.finishCard p c k s.wtc else s)
    | 4 =>
      let x := cf ws 2 16 4
      let per := 1024 * 8 / fmtBits (fmtOfId x)
      let a := accIx p c (tiles + cf ws 2 0 8) (per * i)
      if s.accBad a per then .next (s.stopMatrix p c k i 11 2)
      else
        let s := s.correctAcc p a per
        let (bs, fl) := drainWords x (cf ws 2 20 1 = 1) (cf ws 2 21 1 = 1) (s.accRead a per)
        let s := s.lsPut p c (base + cf ws 1 0 21 + 1024 * i) bs (.engine 1 c)
        let s := s.modTeam k.team fun t => { t with csr := { t.csr with mstat := t.csr.mstat ||| BitVec.ofNat 32 (fl * 8) } }
        .next (s.nextTile p c k i (drainBytes ws / 1024) 1 2)
    | _ => .next s

end Sys2Proof.Machine
end

