-- ==== Sys2Proof/Machine/Launch.lean ====
section
/-! DEFINITION. Launch: the pools (R83 to R85), the descriptor and its checks (R78, R79), the admitter (R80, R81, R353,
R354), joined launches (R341, R364), the start of a gang (R86, R87), and the ends of teams and gangs (R77). -/

namespace Sys2Proof.Machine

/-! ## Pools (R83 to R85) -/

/-- A free block cut to a part of the pool: whole where it lies inside, the part where that lies inside the block. -/
def within (b r : Nat × Nat) : Option (Nat × Nat) :=
  if r.1 ≤ b.1 && b.1 + b.2 ≤ r.1 + r.2 then some b
  else if b.1 ≤ r.1 && r.1 + r.2 ≤ b.1 + b.2 then some r
  else none

/-- Of two candidates for a demand of n: a block of exactly that size before a larger one, then the lower address. -/
def betterFit (n : Nat) (x y : Nat × Nat) : Bool :=
  if x.2 = n then y.2 ≠ n || x.1 < y.1 else y.2 ≠ n && x.1 < y.1

/-- The block a demand of n (a power of two) is taken from, within the parts of the pool allowed (R84, R85). -/
def bestFit (p parts : Pool) (n : Nat) : Option Nat :=
  ((p.flatMap fun b => parts.filterMap (within b)).filter (n ≤ ·.2)).foldl (fun acc x =>
    match acc with
    | none => some x
    | some y => some (if betterFit n x y then x else y)) none |>.map (·.1)

/-- What a block leaves when n units at `a` are cut from it by halving (R83). -/
def splitBlock (a n : Nat) : Nat → Nat × Nat → Pool
  | 0, _ => []
  | fuel + 1, (f, z) =>
    if z ≤ n then []
    else
      let h := z / 2
      if a < f + h then splitBlock a n fuel (f, h) ++ [(f + h, h)] else (f, h) :: splitBlock a n fuel (f + h, h)

/-- The pool without n units at `a`. -/
def carve (p : Pool) (a n : Nat) : Pool :=
  p.flatMap fun b => if b.1 ≤ a && a < b.1 + b.2 then splitBlock a n 10 b else [b]

/-- A block put into a pool in address order. -/
def putBlock (b : Nat × Nat) : Pool → Pool
  | [] => [b]
  | x :: r => if x.1 < b.1 then x :: putBlock b r else b :: x :: r

/-- Units returned to a pool, merged with their free buddies (R83). -/
def freeBlock : Nat → Pool → Nat → Nat → Pool
  | 0, p, a, n => putBlock (a, n) p
  | fuel + 1, p, a, n =>
    if n = 0 then p
    else
      let buddy := if a / n % 2 = 0 then a + n else a - n
      if p.contains (buddy, n) then freeBlock fuel (p.filter (· ≠ (buddy, n))) (min a buddy) (2 * n)
      else putBlock (a, n) p

/-- The five pools of a core: warp rows, vector units, uniform units, LS, accumulators. -/
structure Pools where
  (row v u ls a : Pool)
  deriving DecidableEq, Repr

def Core.pools (x : Core) : Pools := ⟨x.rowPool, x.vPool, x.uPool, x.lsPool, x.aPool⟩
def Core.setPools (x : Core) (q : Pools) : Core :=
  { x with rowPool := q.row, vPool := q.v, uPool := q.u, lsPool := q.ls, aPool := q.a }

/-- The whole of every pool, and its halves (R83). -/
def wholePools : Pools := ⟨rowPool0, vPool0, uPool0, lsPool0, aPool0⟩
def halfA : Pools := ⟨[(0, 64)], [(0, 256), (256, 128)], [(0, 256)], [(0, 128), (128, 64)], [(0, 64), (64, 32)]⟩
def halfB : Pools :=
  ⟨[(64, 64)], [(384, 128), (512, 256)], [(256, 256)], [(192, 64), (256, 128)], [(96, 32), (128, 64)]⟩

/-- A demand allocated (R84): its first unit and the pool left; a demand of 0 takes nothing. -/
def take (p parts : Pool) (n : Nat) : Option (Nat × Pool) :=
  if n = 0 then some (0, p)
  else (bestFit p parts (roundUp n)).map fun a => (a, carve p a (roundUp n))

/-! ## The descriptor (R78) -/

/-- A descriptor read, where its fields are in range (R79, FAIL_DESC). An untimed launch's SCHED is not looked at (DESIGN CHOICE,
entry 79). -/
def parseDesc (rd : Nat → Nat → Nat) : Option Desc :=
  let w12 := rd 12 4
  let w16 := rd 16 4
  let w20 := rd 20 4
  let w40 := rd 40 4
  let d : Desc :=
    { entry := rd 0 8, blocks := rd 8 4, warps := w12 % 32 + 1, teams := w12 / 256 % 16 + 1, vregs := w16 % 128,
      uregs := w16 / 65536 % 1024, lsu := w20 % 512, atiles := w20 / 65536 % 256, cmap := rd 24 8, start := rd 32 8,
      flags := w40 % 16, cls := w40 / 256 % 8, sched := rd 48 8, param := rd 56 8 }
  let clear (w m : Nat) : Bool := w &&& (2 ^ 32 - 1 - m) = 0
  if d.entry < 2 ^ 56 && 1 ≤ d.blocks && clear w12 0xF1F && clear w16 0x3FF007F && clear w20 0xFF01FF && clear w40 0x70F &&
      8 ≤ d.vregs && d.vregs ≤ 112 && d.vregs % 8 = 0 && 64 ≤ d.uregs && d.uregs ≤ 512 && d.uregs % 64 = 0 &&
      d.lsu ≤ 384 && d.atiles ≤ 192 && d.cmap < 2 ^ 56 && d.cmap % 2 = 0 && d.sched < 2 ^ 56 && d.param < 2 ^ 56 &&
      (d.flags % 2 = 0 || (d.sched ≠ 0 && d.start ≠ 0)) then some d
  else none

/-! ## Reading as the admitter does (R79, R144 to R146) -/

/-- A page found by reading the tables at once, as the admitter does. -/
def State.walkNow (s : State) (p ctx va : Nat) : Nat → Nat → Option TlbEntry
  | 0, _ => none
  | level + 1, table =>
    let pa := table + 8 * pteIndex level va
    if s.uceAt p pa 8 then none
    else match readPte ctx level va (s.rd p pa 8) with
    | .bad => none
    | .next t => s.walkNow p ctx va level t
    | .leaf e => some e

/-- Translation by the admitter and the resident service. -/
def State.hubXlate (s : State) (p ctx va : Nat) (need : Perm) : Xl :=
  match s.ctx? p ctx with
  | none => .fault cTRN
  | some x =>
    match x.range? va with
    | some _ => s.xlateRange p ctx va need
    | none =>
      match s.walkNow p ctx va 4 x.root with
      | none => .fault cTRN
      | some e => if e.grants need then .ok (e.pa + (va - e.page)) e.tgt else .fault cPRT

/-- n bytes of package memory as the admitter reads them; none where they have an uncorrectable error (R162; DESIGN CHOICE, entry 97). -/
def State.hubRead (s : State) (p pa n : Nat) : Option Nat := if s.uceAt p pa n then none else some (s.rd p pa n)

/-- Where entry i of a core map stands (R81). -/
def State.mapAddr (s : State) (p ctx cmap i : Nat) : Option Nat := s.ownRead p (s.hubXlate p ctx (cmap + 2 * i) .rd)

/-- Entry i of a core map (R81). -/
def State.mapEntry (s : State) (p ctx cmap i : Nat) : Option Nat := (s.mapAddr p ctx cmap i).bind fun pa => s.hubRead p pa 2

/-- The core map of a grid of n teams, where every entry can be read. -/
def State.readMap (s : State) (p ctx cmap n : Nat) : Option (List Nat) :=
  (List.range n).foldr (fun i acc => match s.mapEntry p ctx cmap i, acc with
    | some x, some l => some (x :: l)
    | _, _ => none) (some [])

/-- A core map obeys R81: a core in every entry, each block within one quad. -/
def mapOk (tpb : Nat) (l : List Nat) : Bool :=
  ((List.range l.length).zip l).all fun z => z.2 < 256 && z.2 / 4 = l.getD (z.1 / tpb * tpb) 0 / 4

/-- Where word i of an image stands, if it can be read and executed (R79, R146). -/
def State.imageAt (s : State) (p ctx entry i : Nat) : Option Nat :=
  let va := entry + 4 * i
  match s.ownRead p (s.xlateRange p ctx va .rd), s.ownRead p (s.xlateRange p ctx va .ex) with
  | some pa, some _ => some pa
  | _, _ => none

/-- Word i of an image (R79). -/
def State.imageWord (s : State) (p ctx entry i : Nat) : Option Nat := (s.imageAt p ctx entry i).bind fun pa => s.hubRead p pa 4

/-- The end of an image walk (R34, R79): clause starts and length, the failing word, or no terminator. -/
inductive Walked where
  | image (starts : List Nat) (len : Nat)
  | xlat (i : Nat)
  | endless
  deriving DecidableEq, Repr

/-- The walk of an image (R34): `left` words of the clause at hand are still to come. -/
def State.walkImage (s : State) (p ctx entry : Nat) : Nat → Nat → Nat → List Nat → Walked
  | 0, _, _, _ => .endless
  | fuel + 1, i, left, starts =>
    match s.imageWord p ctx entry i with
    | none => .xlat i
    | some w =>
      if 0 < left then s.walkImage p ctx entry fuel (i + 1) (left - 1) starts
      else if w / 2 ^ 25 = 7 then .image (i :: starts).reverse (i + 1)
      else s.walkImage p ctx entry fuel (i + 1) (w / 2 ^ 28) (i :: starts)

/-! ## Status (R79) -/

def stADMITTED : Nat := 0x01
def stCOMPLETED : Nat := 0x02
def stKILLED : Nat := 0x03
def stRES : Nat := 0x10
def stLATE : Nat := 0x11
def stDESC : Nat := 0x12
def stCMAP : Nat := 0x13
def stPOWER : Nat := 0x14
def stXLAT : Nat := 0x15
def stIMAGE : Nat := 0x16
def stJOIN : Nat := 0x17

/-- STATUS of a descriptor written by the device: to watchpoints an element of the own package (R325; DESIGN CHOICE, entry 97). -/
def State.writeStatus (s : State) (p : Nat) (pa : Option Nat) (x : Nat) : State :=
  match pa with
  | none => s
  | some a => s.homeWrite p a (natBytes 4 x) (.remote (s.pkg p).num)

/-! ## Admission (R79, R80) -/

/-- An admission as it begins: the checks of R79 up to the walk of the image, and the completion cycle (R80). -/
def State.examine (s : State) (p : Nat) (r : Admit) : Admitting :=
  let none_ : Desc := ⟨0, 0, 0, 0, 0, 0, 0, 0, 0, 0, 0, 0, 0, 0⟩
  let fail (d : Desc) (st w : Nat) : Admitting := ⟨r, s.wtc + 2048 + (w + 7) / 8, st, w, d, some (r.desc + 44), [], []⟩
  match (if s.uceAt p r.desc 64 then none else parseDesc fun o n => s.rd p (r.desc + o) n) with
  | none => fail { none_ with flags := s.rd p (r.desc + 40) 4 % 16 } stDESC 0
  | some d =>
    let inForce := match (s.pkg p).schedAt s.wtc, s.ownRead p (s.hubXlate p r.ctx d.sched .rd) with
      | some t, some pa => decide (t.pa = pa)
      | _, _ => false
    if d.flags % 2 = 1 && !inForce then fail d stDESC 0
    else
      match s.readMap p r.ctx d.cmap (d.blocks * d.teams) with
      | none => fail d stXLAT 0
      | some m =>
        if !mapOk d.teams m then fail d stCMAP 0
        else match s.walkImage p r.ctx d.entry 65536 0 0 [] with
          | .xlat i => fail d stXLAT i
          | .endless => fail d stIMAGE 65536
          | .image starts n => { fail d 0 n with starts := starts, cmap := m }

/-- The request taken first (R80): earliest arrival, `launch` words before the service's, ascending core. -/
def admitLe (a b : Admit) : Bool :=
  keyLe [a.arrive, if a.svc then 1 else 0, a.core] [b.arrive, if b.svc then 1 else 0, b.core]

/-- A request enters the admitter's queue. -/
def State.submit (s : State) (p : Nat) (r : Admit) : State :=
  s.modPkg p fun x => { x with admitQ := x.admitQ.filter (admitLe · r) ++ r :: x.admitQ.filter (!admitLe · r) }

/-- The reads of an examination: its descriptor, and where that is sound its core map and the words of its image. Single-bit errors are
corrected (R162), and to the watchpoints of an LS the reads are those of an element of the own package (R325; DESIGN CHOICE,
entry 97). -/
def State.meetExamined (s : State) (p : Nat) (r : Admit) (a : Admitting) : State :=
  let d := a.desc
  let map := if a.fail = stDESC then [] else (List.range (d.blocks * d.teams)).filterMap (s.mapAddr p r.ctx d.cmap)
  let image := (List.range a.len).filterMap (s.imageAt p r.ctx d.entry)
  let reads : List (Nat × Nat) := (r.desc, 64) :: (map.map fun pa => (pa, 2)) ++ image.map fun pa => (pa, 4)
  reads.foldl (fun s z => s.meetRead p z.1 z.2 (.remote (s.pkg p).num)) s

/-- At the end of a cycle, an idle admitter takes its next request (R80). -/
def State.beginAdmission (s : State) (p : Nat) : State :=
  match (s.pkg p).admitting, (s.pkg p).admitQ with
  | none, r :: rest =>
    if s.wtc < r.arrive then s
    else
      let a := s.examine p r
      ((s.meetExamined p r a).modPkg p fun x => { x with admitQ := rest, admitting := some a }).at a.done pBegin [p] (.admissionCompletion p)
  | _, _ => s

def State.beginAdmissions (s : State) : State :=
  (List.range s.pkgs.length).foldl (fun (s : State) p => s.beginAdmission p) s

/-! ## Placing a gang (R84, R85) -/

/-- Where the teams of a gang go on one core: the pools left, the LS of the blocks so far, the places. -/
structure Placing where
  (pools : Pools) (ls : List (Nat × Nat)) (places : List Place)

/-- One team placed (R84): block b, team t of it, on core c. -/
def placeTeam (d : Desc) (p g c : Nat) (parts : Pools) (x : Placing) (bt : Nat × Nat) : Option Placing := do
  let v := d.warps * d.vregs / 8
  let (row, rowP) ← take x.pools.row parts.row d.warps
  let (vu, vP) ← take x.pools.v parts.v v
  let (uu, uP) ← take x.pools.u parts.u (d.uregs / 64)
  let (l, lsP) ← match x.ls.find? (·.1 = bt.1) with
    | some y => some (y.2, x.pools.ls)
    | none => take x.pools.ls parts.ls d.lsu
  let (a, aP) ← take x.pools.a parts.a d.atiles
  let pl : Place :=
    { pkg := p, core := c, slot := row, block := bt.1, tib := bt.2, gang := g, warps := d.warps, vregs := d.vregs,
      uregs := d.uregs, lsBytes := 4096 * d.lsu, lsBase := 4096 * l, atiles := d.atiles, atBase := a, vUnit := vu,
      vUnits := roundUp v, uUnit := uu, uUnits := roundUp (d.uregs / 64), rows := roundUp d.warps }
  pure ⟨⟨rowP, vP, uP, lsP, aP⟩, x.ls.filter (·.1 ≠ bt.1) ++ [(bt.1, l)], x.places ++ [pl]⟩

/-- The gang's teams on one core, within parts of its pools. -/
def placeCore (d : Desc) (p g c : Nat) (start : Pools) (parts : Pools) (l : List (Nat × Nat)) : Option Placing :=
  l.foldl (fun acc bt => acc.bind fun x => placeTeam d p g c parts x bt) (some ⟨start, [], []⟩)

/-- The gang placed on every core of its map, or not at all (R84, R85). -/
def State.placeGang (s : State) (p g : Nat) (d : Desc) (cmap : List Nat) : Option (List (Nat × Placing)) :=
  let all := (List.range cmap.length).zip cmap
  (distinct cmap).foldr (fun c acc =>
    let mine := (all.filter (·.2 = c)).map fun z => (z.1 / d.teams, z.1 % d.teams)
    let start := (s.core p c).pools
    let fit := if d.flags / 8 % 2 = 1 then
        (match placeCore d p g c start halfA mine with
          | some x => some x
          | none => placeCore d p g c start halfB mine)
      else placeCore d p g c start wholePools mine
    match fit, acc with
    | some x, some l => some ((c, x) :: l)
    | _, _ => none) (some [])

/-- A team as its gang starts it (R86). -/
def Team.start (id : Nat) (pl : Place) (param at_ : Nat) : Team :=
  let m := fullMask pl.warps
  { id := id, pl := pl, pc := 0, active := m, live := m, stack := [],
    vr := List.replicate pl.vregs (List.replicate (32 * pl.warps) 0),
    ur := addrLo param :: addrHi param :: List.replicate (pl.uregs - 2) 0, pr := List.replicate 7 0,
    gp := List.replicate 7 false, sb := [0, 0, 0, 0], csr := .reset, shadow := Option.none, tl := 0, bank1 := .reset,
    bank2 := .reset, formed := [], resume := Option.none, waits := [], readyAt := 0, ePrev := at_ - 1, startAt := at_,
    barnCount := List.replicate 6 0, events := [], wordsDone := 0, region := false, rounds := 0, stopped := false,
    ended := false }

/-- A class's charge for one core, in tenths of a watt (R353). -/
def classCharge (c : Nat) : Nat := [10, 15, 20, 25, 30, 35, 45, 55].getD c 0

/-- The charges of a package: fixed, and of every gang that holds resources (R353, R354). -/
def State.charges (s : State) (p : Nat) : Nat :=
  4800 + ((s.gangs.filter (·.pkg = p)).map (·.charge)).foldl (· + ·) 0

/-- The least gang number not in use on a package (R316). -/
def State.gangNumber (s : State) (p : Nat) : Nat :=
  let used := (s.gangs.filter (·.pkg = p)).map (·.num)
  ((List.range (used.length + 1)).find? (!used.contains ·)).getD 0

/-- The gang and its teams become resident (R80, R84, R87). -/
def State.admitGang (s : State) (p : Nat) (a : Admitting) (pls : List (Nat × Placing)) (g charge : Nat) : State :=
  let d := a.desc
  let at_ := if d.flags % 2 = 1 then d.start else max d.start (s.wtc + 1)
  let gang : Gang :=
    { id := g, num := s.gangNumber p, ctx := a.req.ctx, pkg := p, desc := d, starts := a.starts,
      statusPa := a.statusPa, startAt := at_, started := false, state := .run, ended := 0, killAt := none, killCause := 0,
      killImp := false, killBank := none, killTeam := 0, wdog := none, join := a.req.join, rounds := [],
      released := [], switch := none, image := 0, saves := [], charge := charge, quiets := [], wdogHit := false,
      tag := a.req.tag, fills := [], objs := [] }
  let s : State := { s with gangs := s.gangs ++ [gang] }
  let s := pls.foldl (fun (s : State) z =>
    let s := s.modCore p z.1 (·.setPools z.2.pools)
    z.2.places.foldl (fun (s : State) pl =>
      let (i, s) := s.fresh
      let s : State := { s with teams := s.teams ++ [Team.start i pl d.param at_] }
      s) s) s
  (s.writeStatus p a.statusPa stADMITTED).at at_ pBegin [g] (.gangStart g)

/-! ## Joined launches (R341, R364) -/

/-- The join record of a number, with the package that keeps it. -/
def State.join? (s : State) (num : Nat) : Option (Nat × Join) :=
  ((List.range s.pkgs.length).zip s.pkgs).findSome? fun z => (z.2.joins.find? (·.num = num)).map fun j => (z.1, j)

def State.modJoin (s : State) (num : Nat) (f : Join → Join) : State :=
  { s with pkgs := s.pkgs.map fun x => { x with joins := x.joins.map fun j => if j.num = num then f j else j } }

/-- The rounds of a join's members are looked at again, and its requesters told of a failure (R364). -/
def State.joinFailed (s : State) (num n : Nat) : State :=
  let s := s.modJoin num fun j => { j with failed := j.failed + n }
  match s.join? num with
  | none => s
  | some (_, j) =>
    let s := j.tags.foldl (fun (s : State) z => s.tell z.1 8 num z.2) s
    j.members.foldl (fun s g => s.checkRounds g) s

/-- The limit of a join in force at its first completion (R364). -/
def State.joinSeen (s : State) (num : Nat) : State :=
  match s.join? num with
  | some (p, j) =>
    if j.first ≠ 0 then s
    else
      let now := s.wtc
      (s.modJoin num fun j => { j with first := now }).at (s.wtc + (s.pkg p).rtimeout.toNat + 1) pBegin [num]
        (.joinTimeout p num)
  | none => s

/-- The join of a request has timed out (R364). -/
def State.joinLate (s : State) (num : Nat) : Bool :=
  match s.join? num with
  | some (p, j) => j.first ≠ 0 && j.first + (s.pkg p).rtimeout.toNat < s.wtc
  | none => false

/-- JOIN_TIMEOUT (R364): members not admitted count as ended. -/
def execJoinTimeout (p join : Nat) (s : State) : Out :=
  match (s.pkg p).joins.find? (·.num = join) with
  | none => .next s
  | some j =>
    let n := j.njoin - (j.members.length + j.failed)
    .next (if n = 0 then s else s.joinFailed join n)

/-! ## Completion -/

/-- A request fails: nothing is held (R79). -/
def State.admitFail (s : State) (p : Nat) (a : Admitting) (st : Nat) : State :=
  let s := s.writeStatus p a.statusPa st
  let s := if a.req.join ≠ 0 && st ≠ stJOIN then s.joinFailed a.req.join 1 else s
  if a.desc.flags % 2 = 1 then s.then (.scheduleFault p 11 256 0 a.req.ctx) else s

/-- ADMISSION_COMPLETION (R79, R80, R354): the checks made at completion, in their order, and the decision. -/
def execAdmissionCompletion (p : Nat) (s : State) : Out :=
  match (s.pkg p).admitting with
  | none => .next s
  | some a =>
    if a.done ≠ s.wtc then .next s
    else
      let s := (s.modPkg p fun x => { x with admitting := none }).joinSeen a.req.join
      let cores := distinct a.cmap
      let charge := cores.length * classCharge a.desc.cls
      .next (if a.fail ≠ 0 then s.admitFail p a a.fail
        else if a.req.join ≠ 0 && s.joinLate a.req.join then s.admitFail p a stJOIN
        else if a.desc.flags % 2 = 1 && a.desc.start < s.wtc then s.admitFail p a stLATE
        else if (s.pkg p).budget * 10 < s.charges p + charge then s.admitFail p a stPOWER
        else
          let (g, s') := s.fresh
          match s.placeGang p g a.desc a.cmap with
          | none => s.admitFail p a stRES
          | some pls =>
            let s := s'.admitGang p a pls g charge
            if a.req.join = 0 then s else s.modJoin a.req.join fun j => { j with members := j.members ++ [g] })

/-- GANG_START (R86, R87): the gang's teams take part in the rotation. -/
def execGangStart (g : Nat) (s : State) : Out := .next (s.modGang g fun x => { x with started := true })

/-- WAITC_RELEASE (R76): the waits whose cycle has come end. -/
def execWaitcRelease (t : Nat) (s : State) : Out :=
  let now := s.wtc
  .next (s.modTeam t fun x => { x with waits := x.waits.filter fun w => match w with | .until n => now < n | _ => true })

/-! ## Ends (R77) -/

/-- The team meets the condition of R77. -/
def State.teamDone (s : State) (t : Team) : Bool :=
  !t.ended && !t.stopped && t.live = 0 && t.sb.all (· = 0) &&
    (match s.gang? t.pl.gang with | some g => g.started | none => false) &&
    (match (s.core t.pl.pkg t.pl.core).run with | some r => r.team ≠ t.id | none => true)

/-- Faults of the team that are held or dropped without a record have theirs, stamped with the cycle they were reported in (R312,
R326). -/
def State.dropEvents (s : State) (t : Team) : State :=
  (t.events.filter fun e => e.order = 4 && !e.recorded).foldl (fun (s : State) e =>
    s.record t.pl.pkg e.x t.pl.core t.pl.slot true e.cause 0 (s.gangCtx t.pl.gang) e.tval e.tvalh (BitVec.ofNat 32 e.epc)
      (BitVec.ofNat 32 e.pass)) s

/-- The cores that hold teams of a gang. -/
def State.gangCores (s : State) (g : Nat) : List (Nat × Nat) :=
  distinct ((s.teams.filter (·.pl.gang = g)).map fun t => (t.pl.pkg, t.pl.core))

/-- TEAM_END (R77, R202, R208): the team counts as arrived in every round; with the gang's last team, the words of cards
that no team completed leave their queues. -/
def execTeamEnd (t : Nat) (s : State) : Out :=
  match s.team? t with
  | none => .next s
  | some tm =>
    if !s.teamDone tm then .next s
    else
      let s := (s.dropEvents tm).modTeam t fun x =>
        { x with ended := true, events := [], region := false, rounds := x.rounds + if x.region then 1 else 0 }
      let s := s.checkRounds tm.pl.gang
      .next (if s.teams.all fun u => u.pl.gang ≠ tm.pl.gang || u.ended then
          (s.gangCores tm.pl.gang).foldl (fun (s : State) c => s.dropIncomplete c.1 c.2 tm.pl.gang) s
        else s)

/-- A card no longer holds its gang's end by the end of a cycle: it has finished and credited (R77). -/
def Card.isSettled (k : Card) (now : Nat) : Bool := k.dead || (k.fin.any (· ≤ now) && k.settled.any (· ≤ now))

/-- Nothing of a gang is under way: cards, accesses, staged updates, tub elements, records (R77, R322). -/
def State.gangIdle (s : State) (g : Gang) : Bool :=
  let mine (t : Nat) : Bool := match s.team? t with | some x => x.pl.gang = g.id | none => false
  (s.gangCores g.id).all (fun c => (s.core c.1 c.2).cards.all fun k => k.gang ≠ g.id || k.isSettled s.wtc) &&
  s.flights.all (·.gang ≠ g.id) && s.staged.all (fun e => !mine e.team) &&
  s.ctxs.all (fun x => x.pend.all fun r => !mine r.team)

/-- A complete card of the gang waits in a queue, or among the queued words of a gang that is switched out (R77, R330). -/
def State.gangQueued (s : State) (g : Gang) : Bool :=
  (s.gangCores g.id).any fun c => (List.range 4).any fun k => ((s.core c.1 c.2).held k).any fun q => q.ready.any fun r =>
    match s.team? r.team with | some x => x.pl.gang = g.id | none => false

/-- The gang meets the conditions of R77. -/
def State.gangDone (s : State) (g : Gang) : Bool :=
  g.ended = 0 && g.started && g.killAt.isNone && s.teams.all (fun t => t.pl.gang ≠ g.id || t.ended) && s.gangIdle g &&
    !s.gangQueued g

/-- What a gang holds on its cores returns to the pools (R83). -/
def State.freePools (s : State) (g : Nat) : State :=
  (s.gangCores g).foldl (fun (s : State) c =>
    let ts := s.gangTeams g c.1 c.2
    let ls := distinct (ts.map fun t => (t.pl.lsBase / 4096, roundUp (t.pl.lsBytes / 4096)))
    s.modCore c.1 c.2 fun x =>
      let q := ts.foldl (fun (q : Pools) t =>
        { q with row := freeBlock 10 q.row t.pl.slot t.pl.rows, v := freeBlock 10 q.v t.pl.vUnit t.pl.vUnits,
                 u := freeBlock 10 q.u t.pl.uUnit t.pl.uUnits,
                 a := freeBlock 10 q.a t.pl.atBase (roundUp t.pl.atiles) }) x.pools
      let q : Pools := { q with ls := ls.foldl (fun l b => freeBlock 10 l b.1 b.2) q.ls }
      x.setPools q) s

/-- The barrier objects in the LS of a gang, by package and address. -/
def State.gangObjs (s : State) (g : Nat) : List (Nat × Nat) :=
  s.objs.filter fun o => s.teams.any fun t => t.pl.gang = g && t.pl.pkg = o.1 && lsPa t.pl.core t.pl.lsBase ≤ o.2 &&
    o.2 < lsPa t.pl.core (t.pl.lsBase + t.pl.lsBytes)

/-- A gang leaves its LS, and its barrier objects with it. -/
def State.dropObjs (s : State) (g : Nat) : State :=
  let l := s.gangObjs g
  { s with objs := s.objs.filter (!l.contains ·) }

/-- The resources of a gang return to their pools (R77, R83), unless it is OUT and holds none (R327), and the gang and its
teams are gone. -/
def State.returnResources (s : State) (g : Gang) : State :=
  let s := if g.state = .out then s else (s.dropObjs g.id).freePools g.id
  let gid := g.id
  { s with gangs := s.gangs.filter (·.id ≠ gid), teams := s.teams.filter (·.pl.gang ≠ gid),
           cores := s.cores.map fun x => { x with parked := x.parked.filter (·.1 ≠ gid) } }

/-- GANG_END (R77): the gang ends; in the cycle after, its resources return and COMPLETED is written. -/
def execGangEnd (g : Nat) (s : State) : Out :=
  match s.gang? g with
  | none => .next s
  | some x =>
    if x.ended = 1 then
      .next ((((s.dropSwitch g).returnResources x).writeStatus x.pkg x.statusPa stCOMPLETED).notice x.pkg 1 x.tag stCOMPLETED)
    else if s.gangDone x then .next ((s.modGang g fun y => { y with ended := 1 }).at (s.wtc + 1) 5 [g] (.gangEnd g))
    else .next s

/-! ## Requests (R76, R80, R365) -/

/-- The cause of a descriptor address that no request can be made of (R76). -/
def State.launchCause (s : State) (p : Nat) (x : Xl) : Nat :=
  match x with
  | .fault k => k
  | .walk => cTRN
  | .ok pa tgt => match s.dest p pa tgt with | .here _ => cTRN | _ => cPRT

/-- A `launch` word's descriptor address, translated in its pass's commit cycle or after its walk (R76): a request as of
cycle `c`, or a fault of the team reported in cycle `rep`. -/
def State.launchWord (s : State) (t : Team) (d hdr pos words c rep : Nat) (x : Xl) : State :=
  let bad (cause : Nat) : State :=
    let (i, s) := s.fresh
    let f : Flight := ⟨i, t.id, t.pl.gang, s.gangCtx t.pl.gang, t.pl.pkg, t.pl.core, t.pl.slot, .store, 1, 4, false, .add, 0, 0,
      s.wtc, t.tl, hdr, 1, pos, words, 0, false, none, [⟨1024, d, 0, 0, 0, cause, rep, .err⟩]⟩
    ({ s with flights := s.flights ++ [f] } : State).at rep pLand [i] (.faultReport i)
  match s.ownRead t.pl.pkg x with
  | some a => s.submit t.pl.pkg ⟨c, t.pl.core, s.gangCtx t.pl.gang, a, 0, 0, 0, false, t.id⟩
  | none => bad (s.launchCause t.pl.pkg x)

/-- The same where the team's gang has ended while the walk was under way: the request is made, or the fault recorded (R76,
R326). -/
def State.launchLate (s : State) (w : Walk) (d slot hdr pos : Nat) (x : Xl) : State :=
  match s.ownRead w.pkg x with
  | some a => s.submit w.pkg ⟨s.wtc + 1, w.core, w.ctx, a, 0, 0, 0, false, w.team⟩
  | none => s.record w.pkg (s.wtc + 1) w.core slot true (s.launchCause w.pkg x) 0 w.ctx (addrLo d) (addrHi d)
      (BitVec.ofNat 32 hdr) (BitVec.ofNat 32 (1 + 256 * pos))

/-- LAUNCH_REQUEST (R363 to R365): the request reaches the admitter; one of a join that has failed is told so. -/
def execLaunchRequest (p tag ctx desc join njoin : Nat) (s : State) : Out :=
  s.request p tag <|
  match s.ctx? p ctx, s.ownRead p (s.hubXlate p ctx desc .rd) with
  | some _, some pa =>
    if desc % 64 ≠ 0 || (join ≠ 0 && njoin = 0) then .next (s.respond p tag 1 [])
    else
      match s.join? join with
      | some (_, j) =>
        if join ≠ 0 && j.njoin ≠ njoin then .next (s.respond p tag 1 [])
        else
          let s := if join = 0 then s else s.modJoin join fun j => { j with tags := j.tags ++ [(p, tag)] }
          let s := if join ≠ 0 && j.failed ≠ 0 then s.tell p 8 join tag else s
          .next ((s.submit p ⟨s.wtc, 256, ctx, pa, join, njoin, tag, true, 0⟩).respond p tag 0 [])
      | none =>
        let s := if join = 0 then s
          else s.modPkg p fun x => { x with joins := x.joins ++ [⟨join, njoin, 0, [], 0, [(p, tag)]⟩] }
        .next ((s.submit p ⟨s.wtc, 256, ctx, pa, join, njoin, tag, true, 0⟩).respond p tag 0 [])
  | _, _ => .next (s.respond p tag 1 [])

end Sys2Proof.Machine
end

