-- ==== Sys2Proof/Machine/Trap.lean ====
section
/-! DEFINITION. Trap entry (R310 to R313), the watchdog's expiry (R323, R333), and the killing of a gang from its kill cycle
to the return of its resources (R309, R322, R339, R374). -/

namespace Sys2Proof.Machine

/-! ## Trap entry -/

/-- The team stands between clauses of a gang that runs, with lanes left to run. -/
def State.betweenClauses (s : State) (t : Team) : Bool :=
  !t.ended && !t.stopped && t.live ≠ 0 &&
    (match s.gang? t.pl.gang with | some g => g.started && g.state = .run | none => false) &&
    (match (s.core t.pl.pkg t.pl.core).run with | some r => r.team ≠ t.id | none => true)

/-- A wait that a halt leaves alone (R303). -/
def Team.fenced (t : Team) : Bool := t.waits.any (!·.haltable)

/-- The event the team enters next, of those that can be taken by cycle `n` (R312, R313). SCH waits for a fence to end. -/
def State.nextTrap (s : State) (t : Team) (n : Nat) : Option TeamEvent :=
  if s.betweenClauses t then firstEvent t.tl (t.events.filter fun e => e.x ≤ n && !(e.order = 2 && t.fenced)) else none

/-- The passes kept for the return from the trap just entered (R47): those of the clause the trap left, where it was
precise. -/
def Team.keepFormed (t : Team) (precise : Bool) : Team :=
  let kept := t.formed.filter fun f => f.level ≠ 0 && f.level ≠ t.tl
  { t with formed := kept ++ if precise then (t.formed.filter (·.level = 0)).map fun f => { f with level := t.tl } else [] }

/-- The faults a team goes on holding as it enters a trap have their records (R326). -/
def State.noteHeld (s : State) (t : Nat) : State :=
  match s.team? t with
  | none => s
  | some tm => (s.dropEvents tm).modTeam t fun x =>
      { x with events := x.events.map fun e => if e.order = 4 then { e with recorded := true } else e }

/-- TRAP_ENTRY (R310 to R313): the first event is taken, at the later of the end of the team's previous clause and the
cycle before the one in which it can be taken. -/
def execTrapEntry (t : Nat) (s : State) : Out :=
  match s.team? t with
  | none => .next s
  | some tm =>
    match s.nextTrap tm (s.wtc + 1) with
    | none => .next s
    | some ev =>
      let e := max (max tm.ePrev (ev.x - 1)) (s.wtc - 1)
      let ev' := if ev.order = 1 then ev else { ev with epc := tm.pc, pass := 0 }
      let s := s.modTeam t fun x => { x with events := x.events.erase ev }
      .next (((s.enter 3 tm tm.tl e (ev.stamp e) ev').modTeam t fun x => x.keepFormed (ev.order = 1)).noteHeld t)

/-! ## The watchdog -/

/-- WATCHDOG_EXPIRY (R323, R333). -/
def execWatchdogExpiry (g : Nat) (s : State) : Out :=
  match s.gang? g with
  | none => .next s
  | some x =>
    if x.wdog ≠ some s.wtc then .next s
    else
      let s := s.modGang g fun y => { y with wdog := none }
      let now := s.wtc
      .next (match x.state with
        | .run | .shadow => (s.teams.filter fun t => t.pl.gang = g && !t.ended).foldl (fun (s : State) t =>
            s.postEvent t.id ⟨3, cWDG, false, false, 0, 0, 0, t.tl, now, 0, 0, 0, false⟩) s
        | .spill => s.modGang g fun y => { y with wdogHit := true }
        | _ => s.requestKill g now (BitVec.ofNat 32 cWDG) false none 0)

/-! ## Killing a gang -/

/-- TEPC and TPASS of a TLX record: what the trap would have banked (R339), else free (entry 16). -/
def State.killFields (s : State) (x : Gang) : Word × Word × State :=
  match x.killBank with
  | some (e, p) => (BitVec.ofNat 32 e, BitVec.ofNat 32 p, s)
  | none =>
    let (i, s) := s.freeIndex
    let (j, s) := s.freeIndex
    (Config.killField i, Config.killField j, s)

/-- One TLX record for each core of the gang, stamped K (R322): the slot of the team whose trap or word killed, else the
lowest of the gang's on the core. -/
def State.killRecords (s : State) (x : Gang) : State :=
  (s.gangCores x.id).foldl (fun (s : State) c =>
    let ts := s.gangTeams x.id c.1 c.2
    let slot := match ts.find? (·.id = x.killTeam) with
      | some t => t.pl.slot
      | none => ts.foldl (fun m t => min m t.pl.slot) 127
    let (epc, pass, s) := s.killFields x
    s.record c.1 s.wtc c.2 slot x.killImp cTLX 3 x.ctx x.killCause 0 epc pass) s

/-- What a core loses with a gang at K: the clause in progress, cards not started, words of incomplete cards, slots due
after K, and rings (R294, R322). -/
def State.killOnCore (s : State) (x : Gang) (p c : Nat) : State :=
  let mine (t : Nat) : Bool := match s.team? t with | some u => u.pl.gang = x.id | none => false
  let now := s.wtc
  let s := (s.dropCards p c fun k => k.gang = x.id && k.start.isNone).dropQueued p c fun r _ => mine r.team
  let s := (s.dropParked p c fun r _ => mine r.team).dropIncomplete p c x.id
  s.modCore p c fun y =>
    let cards := y.cards.flatMap fun k => if k.gang = x.id then stopSlots (now + 1) false k else [k]
    let rings := y.rings.filter fun r => !mine r.team
    match y.run with
    | some r => if mine r.team then { y with cards := cards, rings := rings, run := none, free := now }
        else { y with cards := cards, rings := rings }
    | none => { y with cards := cards, rings := rings }

/-- The gang is killed in this cycle (R322). -/
def State.killNow (s : State) (x : Gang) : State :=
  let s := ((s.teams.filter (·.pl.gang = x.id)).foldl (fun s t => s.dropEvents t) s).killRecords x
  let s := (s.gangCores x.id).foldl (fun (s : State) c => s.killOnCore x c.1 c.2) s
  let g := x.id
  let s : State := { s with teams := s.teams.map fun t =>
    if t.pl.gang = g then { t with stopped := true, ended := true, waits := [], events := [] } else t }
  let s := (s.flights.filter (·.gang = g)).foldl (fun (s : State) f =>
    (s.modLanes f.id fun q => if q.st = .held then { q with st := .done } else q).settle f.id) s
  ((s.dropSwitch g).modGang g fun y => { y with wdog := none, fills := [] }).checkRounds g

/-- GANG_KILL (R322): at the kill cycle that stands, or at once where none does. -/
def execGangKill (g cause : Nat) (s : State) : Out :=
  match s.gang? g with
  | none => .next s
  | some x =>
    if x.ended ≠ 0 then .next s
    else match x.killAt with
      | some k => .next (if k = s.wtc then s.killNow x else s)
      | none =>
        let now := s.wtc
        .next ((s.modGang g fun y => { y with killAt := some now, killCause := BitVec.ofNat 32 cause }).killNow
          { x with killAt := some now, killCause := BitVec.ofNat 32 cause })

/-- The killed gang's cards have finished and credited and its accesses are performed, as the cycle begins (R322). -/
def State.killDone (s : State) (x : Gang) : Bool :=
  x.ended = 0 && x.killAt.any (· < s.wtc) && ({ s with wtc := s.wtc - 1 } : State).gangIdle x

/-- KILL_COMPLETION (R322): the resources return, and STATUS becomes KILLED. -/
def execKillCompletion (g : Nat) (s : State) : Out :=
  match s.gang? g with
  | none => .next s
  | some x =>
    .next (if s.killDone x then
        ((s.returnResources x).writeStatus x.pkg x.statusPa stKILLED).notice x.pkg 1 x.tag stKILLED
      else s)

/-- The gang of a number on a package. -/
def State.gangOf (s : State) (p num : Nat) : Option Gang := s.gangs.find? fun x => x.pkg = p && x.num = num && x.ended = 0

/-- KILL_REQUEST (R363, R374). -/
def execKillRequest (p tag gang : Nat) (s : State) : Out :=
  s.request p tag <|
  match s.gangOf p gang with
  | none => .next (s.respond p tag 1 [])
  | some x => .next ((s.requestKill x.id s.wtc 0 false none 0).respond p tag 0 [])

end Sys2Proof.Machine
end

