-- ==== Sys2Proof/Machine/Shift.lean ====
section
/-! DEFINITION. Shift change (R327 to R333): requests, the switch, the spill of the outgoing gang and the fill of a saved
one. -/

namespace Sys2Proof.Machine

/-- The cycle a 32-bit field names in a card accepted in cycle c (R287). -/
def namedCycle (x : Word) (c : Nat) : Nat := ((c : Int) + (x - BitVec.ofNat 32 c).toInt).toNat

/-! ## Requests (R328) -/

/-- The launch carries SHIFTOK (R78, R85). -/
def Gang.shiftOk (g : Gang) : Bool := g.desc.flags / 8 % 2 = 1

/-- The half of its cores a gang occupies: true for half B (R83). -/
def State.inHalfB (s : State) (g : Nat) : Bool := s.teams.any fun t => t.pl.gang = g && 64 ≤ t.pl.slot

/-- Two gangs occupy opposite halves of the same cores. -/
def State.opposite (s : State) (g h : Nat) : Bool :=
  let a := s.gangCores g
  let b := s.gangCores h
  a.all b.contains && b.all a.contains && s.inHalfB g != s.inHalfB h

/-- A request to switch `out` for `inc` at cycle T, of a `shift` word or of the resident service (with its tag): its status, and the
state with the request accepted, in place of an earlier one (R328, R329). -/
def State.requestShift (s : State) (p t out inc : Nat) (tag : Option Nat) : Nat × State :=
  match s.gangOf p out, s.gangOf p inc with
  | some o, some i =>
    if o.state ≠ .run || i.state ≠ .shadow || !o.shiftOk || !i.shiftOk then (2, s)
    else if !s.opposite o.id i.id then (3, s)
    else if t < s.wtc + 2048 then (4, s)
    else
      let at_ := if o.timed then none else some t
      let iid := i.id
      let s := (s.dropSwitch o.id).modGang o.id fun x => { x with switch := some ⟨t, iid, at_, tag⟩ }
      (0, if o.timed then s else s.at t pBegin [o.id] (.swtch o.id))
  | _, _ => (1, s)

/-- SHIFT_REQUEST (R363, R374): the same request by the resident service; a refusal answers status 1 where there is no such gang,
else 2, and one that is accepted is answered at the switch. -/
def execShiftRequest (p tag cyc out inc : Nat) (s : State) : Out :=
  s.request p tag <|
  let (st, s) := s.requestShift p cyc out inc (some tag)
  .next (if st = 0 then s else s.respond p tag (min st 2) [])

/-- A core of a gang had a successful quiet card at QC: where every core has, QC is a quiet point, and a switch that waits
for one gets its cycle (R297, R329). -/
def State.quietPoint (s : State) (g c qc : Nat) : State :=
  let s := s.modGang g fun x => { x with quiets := x.quiets ++ [(c, qc)] }
  match s.gang? g with
  | none => s
  | some x =>
    if !(s.gangCores g).all fun k => x.quiets.contains (k.2, qc) then s
    else match x.switch with
      | some ⟨t, i, none, tag⟩ =>
        if t ≤ qc then
          (s.modGang g fun x => { x with switch := some ⟨t, i, some (qc + 1), tag⟩ }).at (qc + 1) pBegin [g] (.swtch g)
        else s
      | _ => s

/-! ## The switch (R329, R330) -/

/-- A gang's words in a queue, and its complete cards. -/
def Queue.ofGang (q : Queue) (team : Nat → Bool) (g : Nat) (mine : Bool) : Queue :=
  let (r, w) := dropReady (fun r _ => team r.team != mine) q.ready (q.words.take q.doneLen)
  { q with words := w ++ (q.words.drop q.doneLen).filter (fun x => (x.gang = g) = mine), ready := r }

/-- Two queues as one: complete cards first, then the words of incomplete ones. -/
def Queue.join (a b : Queue) : Queue :=
  { a with words := a.words.take a.doneLen ++ b.words.take b.doneLen ++ a.words.drop a.doneLen ++ b.words.drop b.doneLen,
           ready := a.ready ++ b.ready }

/-- The switch on one core from cycle `at_` on: O's queued words leave, I's return, I's teams are ready 96 cycles on, and
O's spill follows. -/
def State.coreSwitch (s : State) (p c o i at_ : Nat) : State :=
  let mine (t : Nat) : Bool := match s.team? t with | some u => u.pl.gang = o | none => false
  let s := s.modCore p c fun x =>
    let back := match x.parked.find? (·.1 = i) with | some y => y.2 | none => []
    let qs := (List.range 4).map fun k =>
      ((x.queues.getD k Queue.reset).ofGang mine o false).join (back.getD k Queue.reset)
    { x with queues := qs, parked := x.parked.filter (·.1 ≠ i) ++ [(o, x.queues.map fun q => q.ofGang mine o true)] }
  let s : State := { s with teams := s.teams.map fun t =>
    if t.pl.gang = i && t.pl.pkg = p && t.pl.core = c then { t with readyAt := max t.readyAt (at_ + 96) } else t }
  s.at (at_ + 96) (pLand + 5) [c, o] (.spill p c o 0)

/-- A core still runs a clause of a gang. -/
def State.runsGang (s : State) (p c g : Nat) : Bool :=
  match (s.core p c).run with
  | some r => (match s.team? r.team with | some t => t.pl.gang = g | none => false)
  | none => false

/-- SWITCH (R329, R374): at T′ the gangs change places, and the request is answered; a core whose clause of O is lengthened past T′ − 1 follows as it ends. -/
def execSwtch (g : Nat) (s : State) : Out :=
  match s.gang? g with
  | none => .next s
  | some o =>
    match o.switch with
    | some ⟨_, i, some t, tag⟩ =>
      if t ≠ s.wtc || o.state ≠ .run || o.killAt.isSome then .next s
      else match s.gang? i with
        | none => .next (s.dropSwitch g)
        | some y =>
          if y.state ≠ .shadow || y.killAt.isSome then .next (s.dropSwitch g)
          else
            let cores := s.gangCores g
            let s := (s.respondTo o.pkg tag 0).modGang g fun x =>
              { x with state := .spill, switch := some ⟨t, i, some t, none⟩, image := Config.imageBase x.num % 2 ^ 25 * 4096,
                       saves := cores.map fun c => ⟨c.2, 0, false, 0, false⟩ }
            let s := s.modGang i fun x => { x with state := .run }
            .next (cores.foldl (fun (s : State) c =>
              if s.runsGang c.1 c.2 g then s.modCore c.1 c.2 fun x => { x with switchHold := g }
              else s.coreSwitch c.1 c.2 g i s.wtc) s)
    | _ => .next s

/-- A clause that held back its core's switch has ended in this cycle (R329). -/
def State.lateSwitch (s : State) (p c : Nat) : State :=
  let g := (s.core p c).switchHold
  if g = 0 then s
  else
    let s := s.modCore p c fun x => { x with switchHold := 0 }
    match (s.gang? g).bind (·.switch) with
    | some ⟨_, i, _, _⟩ => s.coreSwitch p c g i (s.wtc + 1)
    | none => s

/-! ## The spill (R331) -/

/-- A card of a gang is in flight on a core (R261). -/
def State.cardsInFlight (s : State) (p c g : Nat) : Bool :=
  (s.core p c).cards.any fun k => k.gang = g && !k.dead && (match k.fin with | some f => decide (s.wtc ≤ f) | none => true)

/-- A reply is owed to a team of the gang on the core: it has not been written or ended. -/
def State.repliesOwed (s : State) (p c g : Nat) : Bool :=
  s.flights.any fun f => f.gang = g && f.pkg = p && f.core = c && f.kind ≠ .store

/-- The save port reads a chunk: single-bit errors are corrected (R162), and an LS read meets the watchpoints (R325). -/
def State.readChunk (s : State) (p c : Nat) : Chunk → State
  | .ls off => (s.correct p (lsPa c off) 1024).watch p c off 1024 false (.spill c)
  | .acc tile part => s.correctAcc p (accIx p c tile (256 * part)) 256
  | _ => s

/-- SPILL (R331): the save port reads chunk k, or waits for its condition, and the chunk's write leaves 8 cycles on. The control
block's reads come ahead of the replies of their cycle, so the first follows the last reply by a cycle. -/
def execSpill (p c g k : Nat) (s : State) : Out :=
  match s.gang? g with
  | none => .next s
  | some x =>
    if x.state ≠ .spill || x.killAt.isSome then .next s
    else
      let l := s.chunks g p c
      let again (s : State) (k : Nat) : State :=
        s.at (s.wtc + 1) (if k < l.length then pLand + 5 else pLand - 5) [c, g] (.spill p c g k)
      if k = 0 && s.cardsInFlight p c g then .next (again s 0)
      else if k < l.length then
        let bs := match l[k]? with | some z => s.chunkBytes p c z | none => []
        let s := match l[k]? with | some z => s.readChunk p c z | none => s
        let s := s.imageWrite p c g (s.wtc + 8) (x.imageOf c + chunkOffset l k) bs
        .next (again (s.modSave g c fun y => { y with next := k + 1 }) (k + 1))
      else if k = l.length && s.repliesOwed p c g then .next (again s k)
      else
        let j := k - l.length
        let s := s.imageWrite p c g (s.wtc + 8) (x.imageOf c + 1024 * j) (controlBytes j)
        .next (if j < 3 then again s (k + 1) else s.modSave g c fun y => { y with readDone := true })

/-- A write of a save image has been performed (R331). -/
def State.saveWritten (s : State) (c g : Nat) : State :=
  let s := s.modSave g c fun y => { y with left := y.left - 1, finished := y.readDone && y.left ≤ 1 }
  match s.gang? g with
  | some x => if x.state = .spill && x.saves.all (·.finished) then s.then (.spillComplete g) else s
  | none => s

/-- SPILL_COMPLETE (R331, R333): the gang is OUT and its half free, or it is killed for a watchdog that expired. -/
def execSpillComplete (g : Nat) (s : State) : Out :=
  match s.gang? g with
  | none => .next s
  | some x =>
    if x.state ≠ .spill || x.killAt.isSome || !x.saves.all (·.finished) then .next s
    else if x.wdogHit then .next (s.requestKill g s.wtc (BitVec.ofNat 32 cWDG) false none 0)
    else
      let l := (s.gangObjs g).map (·.2)
      .next (((s.dropObjs g).freePools g).modGang g fun y => { y with state := .out, switch := none, objs := l })

/-! ## The fill (R327, R331) -/

/-- Little-endian words of a byte list. -/
def wordsFrom : Nat → List Byte → List Word
  | 0, _ => []
  | n + 1, bs => BitVec.ofNat 32 (bytesNat (bs.take 4)) :: wordsFrom n (bs.drop 4)

/-- The registers of a unit restored from the bytes of its read. -/
def Team.restore (t : Team) (ch : Chunk) (bs : List Byte) : Team :=
  match ch with
  | .v _ k =>
    let per := t.pl.vregs / 8
    if per = 0 || t.pl.warps * per ≤ k then t
    else
      let ws := wordsFrom 256 bs
      { t with vr := (List.range 256).foldl (fun v j =>
          setRegs v (k % per * 8 + j / 32) (k / per * 32 + j % 32) [ws.getD j 0]) t.vr }
  | .u _ k => { t with ur := ((List.range 64).zip (wordsFrom 64 bs)).foldl (fun (u : List Word) z => u.set (64 * k + z.1) z.2) t.ur }
  | _ => t

/-- The bytes of one read of an image put back; LS writes meet the watchpoints (R325). The control block's state has never left the
teams' records. -/
def State.putChunk (s : State) (p c : Nat) (ch : Chunk) (bs : List Byte) : State :=
  match ch with
  | .v t _ => s.modTeam t fun x => x.restore ch bs
  | .u t _ => s.modTeam t fun x => x.restore ch bs
  | .ls off => s.lsPut p c off bs (.spill c)
  | .acc tile part => s.accWrite (accIx p c tile (256 * part)) (wordsFrom 256 bs)
  | .ctl _ => s

/-- A team at the place found for it. -/
def Placing.move (x : Placing) (t : Team) : Team :=
  match x.places.find? (fun y => t.pl.gang = y.gang && t.pl.block = y.block && t.pl.tib = y.tib) with
  | some y => { t with pl := y }
  | none => t

/-- Where a read of the image goes: an LS or accumulator unit moves with the team that held it. -/
def Placing.chunk (x : Placing) (old : List Team) : Chunk → Chunk
  | .ls off =>
    match old.find? (fun t => t.pl.lsBase ≤ off && off < t.pl.lsBase + 4096 * roundUp (t.pl.lsBytes / 4096)) with
    | some t => .ls (off - t.pl.lsBase + (x.move t).pl.lsBase)
    | none => .ls off
  | .acc tile part =>
    match old.find? (fun t => t.pl.atBase ≤ tile && tile < t.pl.atBase + roundUp t.pl.atiles) with
    | some t => .acc (tile - t.pl.atBase + (x.move t).pl.atBase) part
    | none => .acc tile part
  | ch => ch

/-- The reads a fill of one core makes: the units in spill order, then the control block (R331). -/
def State.fillPlan (s : State) (x : Gang) (p c : Nat) (pl : Placing) : FillSt :=
  let old := s.gangTeams x.id p c
  let l := s.chunks x.id p c
  ⟨c, ((List.range l.length).zip l).map (fun z => (x.imageOf c + chunkOffset l z.1, pl.chunk old z.2)) ++
    (List.range 4).map fun k => (x.imageOf c + 1024 * k, .ctl k), []⟩

/-- The gang's teams on one core take their places in a half (R84, R331), and its barrier objects with them. -/
def State.fillCore (s : State) (x : Gang) (p c : Nat) (pl : Placing) : State :=
  let old := s.gangTeams x.id p c
  let s := s.modCore p c (·.setPools pl.pools)
  let s : State := { s with teams := s.teams.map pl.move }
  old.foldl (fun (s : State) t =>
    (x.objs.filter fun o => lsPa c t.pl.lsBase ≤ o && o < lsPa c (t.pl.lsBase + t.pl.lsBytes)).foldl
      (fun (s : State) o => s.knowObj p (o - lsPa c t.pl.lsBase + lsPa c (pl.move t).pl.lsBase)) s) s

/-- The places of a gang on its cores within a half, where they fit. -/
def State.fillPlaces (s : State) (x : Gang) (parts : Pools) : Option (List (Nat × Placing)) :=
  (s.gangCores x.id).foldr (fun c acc =>
    let ts := sortTeams (fun t => t.pl.block * x.desc.teams + t.pl.tib) (s.gangTeams x.id c.1 c.2)
    match placeCore x.desc x.pkg x.id c.2 (s.core c.1 c.2).pools parts (ts.map fun t => (t.pl.block, t.pl.tib)), acc with
    | some y, some l => some ((c.2, y) :: l)
    | _, _ => none) (some [])

/-- FILL_REQUEST (R327, R363): the fill of an OUT gang into half A (0) or B begins. -/
def execFillRequest (p tag gang half : Nat) (s : State) : Out :=
  s.request p tag <|
  match s.gangOf p gang with
  | none => .next (s.respond p tag 1 [])
  | some x =>
    if x.state ≠ .out || x.killAt.isSome then .next (s.respond p tag 2 [])
    else match s.fillPlaces x (if half = 0 then halfA else halfB) with
      | none => .next (s.respond p tag 3 [])
      | some l =>
        let plans := l.map fun z => s.fillPlan x p z.1 z.2
        let s := l.foldl (fun (s : State) z => s.fillCore x p z.1 z.2) s
        .next (((s.modGang x.id fun y => { y with state := .fill, fills := plans, objs := [] }).at (s.wtc + 1) (pLand + 5)
          [x.id] (.fillComplete x.id)).respond p tag 0 [])

/-- The segments of n bytes of an image from an address up, one of each 64-byte block. -/
def fillSegs (g i pa n : Nat) : List (Nat × Seg) :=
  (distinct ((List.range n).map fun k => (pa + k) / 64)).map fun a =>
    let lo := max pa (64 * a)
    (64 * a, ⟨0, 0, 1, false, .fill g i lo (min (pa + n) (64 * a + 64) - lo)⟩)

/-- The next read of a core's image leaves for device memory (R153, R154). -/
def State.fillAsk (s : State) (p g : Nat) (f : FillSt) : FillSt × State :=
  match f.todo with
  | [] => (f, s)
  | z :: l =>
    let (i, s) := s.fresh
    let segs := fillSegs g i z.1 z.2.size
    (⟨f.core, l, f.reads ++ [⟨i, z.1, z.2, segs.length, List.replicate z.2.size 0, none⟩]⟩,
      s.gatherAt p (s.wtc + 200) [0, f.core, 2] segs)

/-- The oldest read of a core's image under way is put back, once its data is there. -/
def State.fillPut (s : State) (p : Nat) (f : FillSt) : FillSt × State :=
  match f.reads with
  | [] => (f, s)
  | r :: l => if r.due.any (· ≤ s.wtc) then ({ f with reads := l }, s.putChunk p f.core r.chunk r.data) else (f, s)

/-- One cycle of a fill, core by core: a read is put back and a read leaves. -/
def State.fillStep (s : State) (p g : Nat) : List FillSt → List FillSt × State
  | [] => ([], s)
  | f :: l =>
    let (f, s) := s.fillPut p f
    let (f, s) := s.fillAsk p g f
    let (l, s) := s.fillStep p g l
    (f :: l, s)

/-- A segment of a fill's read is served in this cycle: its bytes are there 320 cycles on (R153, R162). -/
def State.fillServed (s : State) (p g i pa n : Nat) : State :=
  let now := s.wtc
  let bs := natBytes n (s.rd p pa n)
  let read (r : FillRead) : FillRead :=
    if r.id = i then { r with data := r.data.take (pa - r.pa) ++ bs ++ r.data.drop (pa - r.pa + n), left := r.left - 1,
                              due := if r.left ≤ 1 then some (now + 320) else none }
    else r
  (s.correct p pa n).modGang g fun y => { y with fills := y.fills.map fun f => { f with reads := f.reads.map read } }

/-- FILL_COMPLETE (R327, R331, R333): in each cycle each core of a gang in FILL sends one read of its image and puts back one whose data
is there; with the last the gang is SHADOW. -/
def execFillComplete (g : Nat) (s : State) : Out :=
  match s.gang? g with
  | none => .next s
  | some x =>
    if x.state ≠ .fill || x.killAt.isSome then .next s
    else
      let (l, s) := s.fillStep x.pkg g x.fills
      .next (if l.all (fun f => f.todo.isEmpty && f.reads.isEmpty) then s.modGang g fun y => { y with state := .shadow, fills := [] }
        else (s.modGang g fun y => { y with fills := l }).at (s.wtc + 1) (pLand + 5) [g] (.fillComplete g))

end Sys2Proof.Machine
end

