-- ==== Sys2Proof/Machine/Fabric.lean ====
section
/-! DEFINITION. The fabric interface (R286 to R299, R305): `sendat`, `recvat`, the landing buffer, and `quiet`. -/

namespace Sys2Proof.Machine

/-- The first phase-3 cycle at or after one (R22, R287). -/
def fabAt (n : Nat) : Nat := n + (11 - n % 8) % 8

/-- The last phase-3 cycle at or before one. -/
def fabBefore (n : Nat) : Nat := n - (n + 5) % 8

/-- A schedule fault of a card: its core, its team's slot, its context (R373). -/
def State.cardSch (s : State) (p c kind : Nat) (k : Card) : State := s.then (.scheduleFault p kind c k.slot k.ctx)

/-- RINGDROP counts a discarded landing or message, and saturates (R299). -/
def Core.countDrop (x : Core) : Core := { x with ringdrop := if x.ringdrop = BitVec.allOnes 32 then x.ringdrop else x.ringdrop + 1 }

/-- A landing or message is discarded on a core: counted in RINGDROP, and reported (R299, R305). -/
def State.dropLanding (s : State) (p c : Nat) : State := (s.modCore p c (·.countDrop)).notice p 5 c 2

/-! ## `sendat` (R288 to R290) -/

/-- The read cycles of the chunks (R289): each no later than 8 cycles before its first slot, or late from S on; with them,
whether one is late. -/
def chunkReads (start : Nat) : List Nat → List Nat → List Nat × Bool
  | [], _ => ([], false)
  | t :: ts, held =>
    let back := ((List.range (held.length + 1)).map fun j => fabBefore (t - 8) - 8 * j).find? (!held.contains ·)
    let fwd := ((List.range (held.length + 1)).map fun j => fabAt start + 8 * j).find? (!held.contains ·)
    let b := back.getD 0
    let late := b < start || t < 8
    let x := if late then fwd.getD (fabAt start) else b
    let (r, l) := chunkReads start ts (x :: held)
    (x :: r, late || l)

/-- SENDAT (R288, R289): the card starts: the cycles of its reads and slots are fixed. -/
def execSendat (p c i : Nat) (s : State) : Out :=
  match s.card? p c i with
  | none => .next s
  | some k =>
    if !(k.q = 3 && cType k.words = 1 && s.mayStart p c k) then .next s
    else
      let ws := k.words
      let now := s.wtc
      let t0 := namedCycle (ws.getD 1 0) k.accept
      let step := cf ws 4 0 16
      let n := cf ws 3 0 21 / 64
      let (rs, late) := chunkReads now ((List.range ((n + 15) / 16)).map fun m => t0 + 16 * m * step) []
      let slots : List SlotSt := ((List.range n).map fun j => ⟨j, t0 + j * step, Option.none, false⟩)
      let left := slots.filter (now ≤ ·.cyc)
      let f := rs.foldl max now
      let s := (s.startCard p c k).modCard p c i fun x =>
        { x with slots := left, fin := some f, settled := some f }
      let s := ((List.range rs.length).zip rs).foldl (fun (s : State) z =>
        s.at z.2 pRead [c, c, z.1] (.sendatChunkRead p c i z.1)) s
      let s := match left with
        | x :: _ => s.at x.cyc pFabric [1, c] (.scheduledSlotSend p c i x.k)
        | [] => s
      .next (if late then s.cardSch p c 1 k else s)

/-- The bytes of chunk m of a `sendat` or a `ringput`: LS offset and length. -/
def Card.chunkRange (k : Card) (m : Nat) : Nat × Nat :=
  let total := if cType k.words = 3 then cf k.words 3 0 13 else cf k.words 3 0 21
  (cf k.words 2 0 21 + 1024 * m, min 1024 (total - 1024 * m))

/-- SENDAT_CHUNK_READ (R289, R296): a phase-3 read for a send; a slot due sooner than 8 cycles after it stays empty. -/
def execSendatChunkRead (p c i m : Nat) (s : State) : Out :=
  match s.card? p c i with
  | none => .next s
  | some k =>
    if k.stopped then .next s
    else
      let base := s.cardBase k
      let (off, n) := k.chunkRange m
      let (s, bad) := s.engineRead p c 4 base [(off, n)]
      if bad then .next ((s.stopCard p c k 11 2 cUCE).modCard p c i fun x => { x with slots := [] })
      else
        let bs := natBytes n (s.rd p (lsPa c (base + off)) n)
        let now := s.wtc
        let fill (y : SlotSt) : SlotSt :=
          if cType k.words = 3 then (if y.k = m then { y with data := some bs } else y)
          else if y.k / 16 = m && now + 8 ≤ y.cyc then { y with data := some ((bs.drop (64 * (y.k % 16))).take 64) }
          else y
        .next (s.modCard p c i fun x => { x with slots := x.slots.map fill })

/-- Another card of the package claims the port's slot in this cycle (R289). -/
def State.claimed (s : State) (p i port : Nat) : Bool :=
  (List.range 256).any fun c => (s.core p c).cards.any fun k =>
    k.id ≠ i && k.q = 3 && cType k.words = 1 && cf k.words 0 16 6 = port && k.slots.any (·.cyc = s.wtc)

/-- A slot's payload leaves: on a link to the partner, or on the torus to each destination core (R279, R290). -/
def State.sendSlotData (s : State) (p c : Nat) (k : Card) (bs : List Byte) : State :=
  let ws := k.words
  let port := cf ws 0 16 6
  let num := (s.pkg p).num
  if port = 63 then
    (sendCores ws).foldl (fun (s : State) d =>
      let (i, s) := s.fresh
      let x : Packet := ⟨i, num, num, 0, 1, 1, s.wtc, .slot 63 c d k.slot k.ctx bs, s.wtc, 0, [], 8192⟩
      ({ s with packets := s.packets ++ [x] } : State).at (s.wtc + 24 + torus c d) pFabric [0, 63, i] (.slotDelivery p i)) s
  else match s.partner p port with
    | none => s
    | some q =>
      let (i, s) := s.fresh
      let x : Packet := ⟨i, num, (s.pkg q).num, 0, 1, 1, s.wtc, .slot (facing num port) c 0 k.slot k.ctx bs, s.wtc, 0, [],
        32 * p + port⟩
      let pt := s.port p port
      ({ s with packets := s.packets ++ [x] } : State).at (s.wtc + pt.delay + pt.lateBy s.wtc) pFabric [0, facing num port, i]
        (.slotDelivery q i)

/-- SCHEDULED_SLOT_SEND (R289): slot k of the card is due: it is sent, sent empty, or collides. A slot on the torus (port 63) is in no
port's schedule and collides with none (DESIGN CHOICE, entry 105). -/
def execScheduledSlotSend (p c i k : Nat) (s : State) : Out :=
  match s.card? p c i with
  | none => .next s
  | some y =>
    match y.slots.find? (·.k = k) with
    | none => .next s
    | some x =>
      let now := s.wtc
      let port := cf y.words 0 16 6
      let s := s.modCard p c i fun z => { z with slots := (z.slots.filter fun u => !(u.taken && u.cyc < now)).map fun u =>
        if u.k = k then { u with taken := true } else u }
      let s := match y.slots.find? (k < ·.k) with
        | some u => s.at u.cyc pFabric [1, c] (.scheduledSlotSend p c i u.k)
        | none => s
      if x.taken then .next s
      else if port ≠ 63 && (!(s.pkg p).scheduledSlot port now || s.claimed p i port) then .next (s.cardSch p c 9 y)
      else match x.data with
        | some bs => .next (s.sendSlotData p c y bs)
        | none => .next s

/-! ## `recvat` and the landing buffer (R291 to R293) -/

/-- The receive's next expected slot is looked at in its cycle, after the deliveries of that cycle. -/
def State.expectNext (s : State) (p c : Nat) (k : Card) (slots : List SlotSt) : State :=
  match slots with
  | x :: _ => s.at x.cyc (pFabric + 5) [c] (.recvat p c k.id)
  | [] => s

/-- RECVAT (R291 to R293): the card starts; later, the slots it expected and did not receive are missing. -/
def execRecvat (p c i : Nat) (s : State) : Out :=
  match s.card? p c i with
  | none => .next s
  | some k =>
    let now := s.wtc
    if k.q ≠ 3 || cType k.words ≠ 2 then .next s
    else if k.start.isSome then
      let gone := k.slots.filter (·.cyc ≤ now)
      let left := k.slots.filter (now < ·.cyc)
      let s := (s.modCard p c i fun x => { x with slots := left, missing := x.missing || !gone.isEmpty }).expectNext p c k left
      .next (if gone.isEmpty then s else s.cardSch p c 8 k)
    else if !s.mayStart p c k then .next s
    else
      let ws := k.words
      let a0 := namedCycle (ws.getD 1 0) k.accept
      let slots : List SlotSt := (List.range (cf ws 3 0 21 / 64)).map fun j => ⟨j, a0 + j * cf ws 5 16 16, Option.none, false⟩
      let left := slots.filter (now ≤ ·.cyc)
      let s := ((s.startCard p c k).modCard p c i fun x => { x with slots := left, missing := decide (a0 < now) }).expectNext p
        c k left
      .next (if a0 < now then s.cardSch p c 1 k else s)

/-- The receive matches a slot of a port for a core in this cycle (R293). -/
def Card.expects (k : Card) (now c port score core : Nat) : Bool :=
  k.q = 3 && cType k.words = 2 && k.start.isSome && cf k.words 5 0 6 = port &&
    (port ≠ 63 || (c = core && cf k.words 5 8 8 = score)) && k.slots.any (·.cyc = now)

/-- The receives of a package that match a slot, the earliest accepted first, then the lowest core. -/
def State.receivers (s : State) (p port score core : Nat) (dead : Bool) : List (Nat × Card) :=
  ((List.range 256).flatMap fun c =>
    ((s.core p c).cards.filter fun k => k.dead = dead && k.expects s.wtc c port score core).map fun k => (c, k)).foldl
    (fun acc z => acc.filter (fun y => y.2.accept ≤ z.2.accept) ++ z :: acc.filter (fun y => z.2.accept < y.2.accept)) []

/-- The first receive takes a slot into the landing buffer of its core, where there is room (R292). -/
def State.landSlot (s : State) (p c : Nat) (k : Card) (bs : List Byte) : State :=
  let now := s.wtc
  match k.slots.find? (·.cyc = now) with
  | none => s
  | some x =>
    let full := 128 ≤ (s.core p c).landing.length
    let s := s.modCard p c k.id fun y => { y with slots := y.slots.filter (·.k ≠ x.k), missing := y.missing || full }
    if full then (s.dropLanding p c).cardSch p c 15 k
    else
      let dst := s.cardBase k + cf k.words 2 0 21 + 64 * x.k
      (s.modCore p c fun y => { y with landing := y.landing ++ [⟨now, dst, k.id, x.k, bs⟩] }).once (fabAt (now + 4)) pEngine
        [c, c, 3] (.landingWrite p c)

/-- SLOT_DELIVERY (R293, R305): a scheduled slot is landed, discarded for a receive that a kill or a halt ended, or an
orphan, whose record names the card that sent it (R373; entry 87). -/
def execSlotDelivery (p i : Nat) (s : State) : Out :=
  match s.packet? i with
  | none => .next s
  | some y =>
    let s := s.dropPacket i
    match y.body with
    | .slot port score core sslot sctx bs =>
      match s.receivers p port score core false, s.receivers p port score core true with
      | (c, k) :: _, _ => .next (s.landSlot p c k bs)
      | [], (c, k) :: _ =>
        let now := s.wtc
        let less (z : Card) : Card := if z = k then { z with slots := z.slots.filter (·.cyc ≠ now) } else z
        let s := s.modCore p c fun x => { x with cards := x.cards.map less }
        .next (if k.stopped then s else (s.dropLanding p c).cardSch p c 14 k)
      | [], [] => .next (s.then (.scheduleFault p 7 score sslot sctx))
    | _ => .next s

/-- LANDING_WRITE (R292): in a phase-3 cycle up to 16 slots delivered four cycles before are written in delivery order. -/
def execLandingWrite (p c : Nat) (s : State) : Out :=
  let now := s.wtc
  let ready := ((s.core p c).landing.takeWhile (·.cyc + 4 ≤ now)).take 16
  let s := ready.foldl (fun (s : State) x => s.lsPut p c x.dst x.data (.engine 4 c)) s
  let s := s.modCore p c fun y => { y with landing := y.landing.drop ready.length }
  .next (match (s.core p c).landing with
    | x :: _ => s.once (fabAt (max (now + 1) (x.cyc + 4))) pEngine [c, c, 3] (.landingWrite p c)
    | [] => s)

/-- A receive with nothing to expect and nothing in the landing buffer has ended with this cycle (R286, R292, R293). -/
def Card.received (k : Card) (landing : List LandSlot) : Bool :=
  k.q = 3 && cType k.words = 2 && k.start.isSome && k.fin.isNone && !k.dead && k.slots.isEmpty && landing.all (·.card ≠ k.id)

/-- The receives of a core that have ended finish; one that missed nothing credits (R292, R293). -/
def State.endReceives (s : State) (p c : Nat) : State :=
  let x := s.core p c
  (x.cards.filter (·.received x.landing)).foldl (fun (s : State) k =>
    let now := s.wtc
    if k.missing then s.modCard p c k.id fun y => { y with fin := some now, settled := some now }
    else s.finishCard p c k now) s

/-! ## `quiet` (R297) -/

/-- QUIET (R297): the card starts, and waits for its cycle. -/
def execQuiet (p c i : Nat) (s : State) : Out :=
  match s.card? p c i with
  | none => .next s
  | some k =>
    if !(k.q = 3 && cType k.words = 5 && s.mayStart p c k) then .next s
    else
      let now := s.wtc
      let qc := namedCycle (k.words.getD 1 0) k.accept
      let f := max qc now
      let s := (s.startCard p c k).modCard p c i fun x => { x with fin := some f, settled := some f }
      .next (if qc < now then s.cardSch p c 1 k else s.at qc (pFabric + 20) [c] (.quietCheck p c i))

/-- No slot of a `sendat` or a `recvat` is outstanding with the card (R297). -/
def Card.slotsOver (k : Card) : Bool :=
  k.dead || k.q ≠ 3 || (cType k.words ≠ 1 && cType k.words ≠ 2) || k.slots.all (·.taken)

/-- No other card of the gang on the core is in flight or waiting, and no slot is outstanding (R297). -/
def State.quietCore (s : State) (p c : Nat) (k : Card) : Bool :=
  let x := s.core p c
  let mine (t : Nat) : Bool := match s.team? t with | some u => u.pl.gang = k.gang | none => false
  (x.cards.all fun y => y.id = k.id || y.gang ≠ k.gang || (!y.inFlight s.wtc && y.slotsOver)) &&
    x.queues.all (fun q => q.ready.all fun r => !mine r.team) &&
    x.landing.all fun l => x.cards.all fun y => y.id ≠ l.card || y.gang ≠ k.gang

/-- QUIET_CHECK (R297): the quiet point is noted, or the card raises NOTQUIET. -/
def execQuietCheck (p c i : Nat) (s : State) : Out :=
  match s.card? p c i with
  | none => .next s
  | some k =>
    if !s.quietCore p c k then .next (s.cardSch p c 10 k)
    else
      let now := s.wtc
      let g := k.gang
      let qid := k.words.getD 2 0
      let s : State := { s with teams := s.teams.map fun t =>
        if t.pl.gang = g && t.pl.pkg = p && t.pl.core = c then
          { t with csr := { t.csr with qpoint := qid, qcyc := BitVec.ofNat 32 now } }
        else t }
      .next (s.quietPoint g c now)

end Sys2Proof.Machine
end

