-- ==== Sys2Proof/Machine/FpWords.lean ====
section
/-! DEFINITION. Floating-point words and `cvt` (R127, R130 to R140). -/

namespace Sys2Proof.Machine

/-- `fcmp.eq` (R138). -/
def execFcmpEq (w : FC) (s : State) : Out := onCur s (cmp w (fCmp eqVal false false))

/-- `fcmp.lt` (R138). -/
def execFcmpLt (w : FC) (s : State) : Out := onCur s (cmp w (fCmp ltVal false true))

/-- `fcmp.le` (R138). -/
def execFcmpLe (w : FC) (s : State) : Out := onCur s (cmp w (fCmp (fun x y => !ltVal y x) false true))

/-- `fcmp.un` (R138). -/
def execFcmpUn (w : FC) (s : State) : Out := onCur s (cmp w (fCmp (fun _ _ => false) true false))

/-- `fadd` (R136). -/
def execFadd (w : FA) (s : State) : Out := onCur s (fbin w fAdd)

/-- `fsub` (R136). -/
def execFsub (w : FA) (s : State) : Out := onCur s (fbin w fSub)

/-- `fmul` (R136). -/
def execFmul (w : FA) (s : State) : Out := onCur s (fbin w fMul)

/-- `ffma` (R136). -/
def execFfma (w : FA) (s : State) : Out :=
  onCur s (aluWord w.nw w.pn w.pr w.d (usesLit [w.a, w.b]) 1 fun t c l =>
    fFma (rmodeOf t.csr.frm) (srcOp t c w.a l) (srcOp t c w.b l) (dOld t c w.d l))

/-- `fmin` (R137). -/
def execFmin (w : FA) (s : State) : Out := onCur s (fbin w fun _ => fMinMax false)

/-- `fmax` (R137). -/
def execFmax (w : FA) (s : State) : Out := onCur s (fbin w fun _ => fMinMax true)

/-- `fun` (R139, R140). -/
def execFun (w : FU) (op : FunOp) (s : State) : Out :=
  onCur s (aluWord w.nw w.pn w.pr w.d (usesLit [w.a]) 6 fun t c l => fFun op (rmodeOf t.csr.frm) (srcOp t c w.a l))

/-- `cvt` (R127). -/
def execCvt (w : FU) (dir sat rtz : Bool) (x : Fmt) (s : State) : Out :=
  onCur s (aluWord w.nw w.pn w.pr w.d (usesLit [w.a]) 1 fun t c l => cvtValue dir sat rtz x (srcOp t c w.a l))

end Sys2Proof.Machine
end

