-- ==== Sys2Proof/Machine/Grinder.lean ====
section
/-! DEFINITION. The grinder (R129, R272 to R277): `quant`, `dequant` and their groups. -/

namespace Sys2Proof.Machine

/-! ## One block (R117, R118, R129, R274) -/

/-- m·2^e exceeds n·2^d. -/
def exceeds (m : Nat) (e : Int) (n : Nat) (d : Int) : Bool :=
  if d ≤ e then n < m * 2 ^ (e - d).toNat else n * 2 ^ (d - e).toNat < m

/-- floor(log2) of a finite non-zero value. -/
def valLog : Val → Option Int
  | .fin _ m e => some ((bitLen m : Int) - 1 + e)
  | _ => none

/-- The 24 hash bits of an element (R274). -/
def grindHash (seed : Word) (n : Nat) : Nat :=
  let z : Word := (seed + BitVec.ofNat 32 n) * 0x9E3779B9
  (z ^^^ (z >>> 16)).toNat / 256

/-- How an element's neighbour is chosen: RNE, RTZ, or by the hash (R129, R274). -/
def grindPick (rm : Nat) (seed : Word) (n : Nat) : Pick :=
  match rm with
  | 0 => RMode.rne.pick false
  | 1 => RMode.rtz.pick false
  | _ => fun _ r d => grindHash seed n * d < r * 2 ^ 24

/-- One scaled input as an element: code and flags (R120, R123, R124, R129; entry 34). -/
def quantElem (x : Fmt) (rm : Nat) (up : Pick) (v : Val) : Nat × Nat :=
  match v with
  | .fin neg m e =>
    match x with
    | .ts8 => ts8Round up neg m e
    | .s8 =>
      let e := e + 6
      let (k, ix) := if 0 ≤ e then (m * 2 ^ e.toNat, false) else shiftRound up m (-e).toNat
      let clip := 127 < k || (rm = 2 && exceeds m e 127 0)
      let a := if clip then 127 else k
      ((BitVec.ofInt 8 (if neg then -(a : Int) else a)).toNat, if clip then flNV else if ix then flNX else 0)
    | _ =>
      let big := match fmtVal x (fmtMax x) with | .fin _ n d => exceeds m e n d | _ => false
      if rm = 2 && big then (fmtSign x neg + fmtMax x, flOF + flNX)
      else
        let (c, fl) := elemRound x up true neg m e
        (if c % 2 ^ (fmtBits x - 1) = 0 then 0 else c, fl)
  | _ => (fmtZero x, 0)

/-- Codes packed into a block (R117). -/
def packCodes (w : Nat) (l : List Nat) : List Byte :=
  natBytes (w * l.length / 8) (l.foldr (fun c acc => c % 2 ^ w + acc * 2 ^ w) 0)

/-- Block b quantised: element bytes, scale, flags (R129). -/
def quantBlock (x : Fmt) (rm : Nat) (seed : Word) (b : Nat) (l : List Val) : List Byte × Nat × Nat :=
  let zeros := packCodes (fmtBits x) (List.replicate l.length (fmtZero x))
  if l.any fun v => match v with | .nan _ => true | .inf _ => true | _ => false then (zeros, 255, flNV)
  else
    match (l.filterMap valLog).max? with
    | none => (zeros, 0, 0)
    | some top =>
      let s := max (-127) (min 127 (top - fmtEmax x))
      let rs := ((List.range l.length).zip l).map fun z =>
        quantElem x rm (grindPick rm seed (32 * b + z.1)) (z.2.scale (-s))
      (packCodes (fmtBits x) (rs.map (·.1)), (s + 127).toNat, rs.foldl (fun a r => a ||| r.2) 0)

/-- One wide value of a `dequant` (R273): bytes and flags. -/
def dequantElem (bf rtz : Bool) (v : Val) : List Byte × Nat :=
  if bf then
    let (c, fl) := convTo .bf16 rtz false v
    (natBytes 2 c, fl)
  else
    let (w, fl) := rndVal (if rtz then .rtz else .rne) v
    (natBytes 4 w.toNat, fl)

/-! ## Groups (R275) -/

/-- The first phase-7 cycle at or after one (R22). -/
def grindAt (n : Nat) : Nat := n + (15 - n % 8) % 8

/-- Blocks of a group, and the blocks group n holds: first block and how many. -/
def Card.groupOf (k : Card) (n : Nat) : Nat × Nat :=
  let per := if cf k.words 4 16 4 = 1 then 8 else 4
  (per * n, min per (cf k.words 4 0 16 - per * n))

/-- The groups of a card. -/
def Card.groups (k : Card) : Nat :=
  let per := if cf k.words 4 16 4 = 1 then 8 else 4
  (cf k.words 4 0 16 + per - 1) / per

/-- The ranges group n reads, in the block's LS (R272, R275). -/
def Card.groupReads (k : Card) (n : Nat) : List (Nat × Nat) :=
  let ws := k.words
  let (b, m) := k.groupOf n
  if cType ws = 1 then
    let w := wideBlock (cf ws 4 16 4)
    [(cf ws 1 0 21 + b * w, m * w)]
  else
    let z := mxBlock (cf ws 4 20 4)
    [(cf ws 1 0 21 + b * z, m * z), (cf ws 2 0 21 + b, m)]

/-- What group n writes of the bytes it read: ranges with their bytes, and flags. -/
def Card.groupWrites (k : Card) (n : Nat) (bs : List Byte) : List (Nat × List Byte) × Nat :=
  let ws := k.words
  let (b, m) := k.groupOf n
  let x := fmtOfId (cf ws 4 20 4)
  let bf := cf ws 4 16 4 = 1
  let rm := cf ws 4 24 2
  let wide := wideBlock (cf ws 4 16 4)
  let z := mxBlock (cf ws 4 20 4)
  if cType ws = 1 then
    let rs := (List.range m).map fun i =>
      let vals := (codesOf (if bf then 16 else 32) 32 ((bs.drop (i * wide)).take wide)).map fun c =>
        f32 (if bf then BitVec.ofNat 32 (c * 65536) else BitVec.ofNat 32 c)
      quantBlock x rm (ws.getD 5 0) (b + i) vals
    ([(cf ws 2 0 21 + b * z, rs.flatMap (·.1)), (cf ws 3 0 21 + b, rs.map fun r => BitVec.ofNat 8 r.2.1)],
      rs.foldl (fun a r => a ||| r.2.2) 0)
  else
    let scales := bs.drop (m * z)
    let rs := (List.range m).flatMap fun i =>
      (codesOf (fmtBits x) 32 ((bs.drop (i * z)).take z)).map fun c =>
        dequantElem bf (rm = 1) (mxVal x c (scales.getD i 0).toNat)
    ([(cf ws 3 0 21 + b * wide, rs.flatMap (·.1))], rs.foldl (fun a r => a ||| r.2) 0)

/-- The grinder card that runs on a core. -/
def State.grindCard (s : State) (p c : Nat) : Option Card :=
  (s.core p c).cards.find? fun k => k.q = 2 && k.running s.wtc && !k.stopped

/-- The running card stops at a card word; its groups to come are taken back (R276). -/
def State.stopGrind (s : State) (p c : Nat) (k : Card) (word : Nat) : State :=
  ({ s with agenda := s.agenda.filter fun e => match e.ev with
    | .grinderGroup a b _ _ => !(a = p && b = c)
    | _ => true } : State).stopCard p c k 11 word cUCE

/-- GRINDER_GROUP (R275): group n is read (part 0), and written eight cycles later (part 1). -/
def execGrinderGroup (p c n part : Nat) (s : State) : Out :=
  match s.grindCard p c with
  | none => .next s
  | some k =>
    let base := s.cardBase k
    if part = 0 then
      let (s, bad) := s.engineRead p c 3 base (k.groupReads n)
      if bad then
        let first := match k.groupReads n with
          | r :: _ => s.uceAt p (lsPa c (base + r.1)) r.2
          | [] => true
        .next (s.stopGrind p c k (if first then 1 else 2))
      else
        let bs := (k.groupReads n).flatMap fun r => natBytes r.2 (s.rd p (lsPa c (base + r.1)) r.2)
        let s := (s.modCard p c k.id (·.addBuffer n bs)).at (s.wtc + 8) pEngine [c] (.grinderGroup p c n 1)
        .next (if n + 1 < k.groups then s.at (s.wtc + 8) pRead [c] (.grinderGroup p c (n + 1) 0) else s)
    else
      let (ws, fl) := k.groupWrites n (k.buffer n)
      let s := ws.foldl (fun (s : State) w => s.lsPut p c (base + w.1) w.2 (.engine 3 c)) s
      let s := s.modTeam k.team fun t => { t with csr := { t.csr with qstat := t.csr.qstat ||| BitVec.ofNat 32 fl } }
      let s := s.modCard p c k.id (·.dropBuffer n)
      .next (if n + 1 = k.groups then s.finishCard p c k s.wtc else s)

/-- A grinder card of a type starts with the first phase-7 cycle from this one (R264, R275). -/
def State.startGrind (s : State) (p c i ty : Nat) : State :=
  match s.card? p c i with
  | none => s
  | some k =>
    if k.q = 2 && cType k.words = ty && s.mayStart p c k then
      (s.startCard p c k).at (grindAt s.wtc) pRead [c] (.grinderGroup p c 0 0)
    else s

/-- `quant` (R273). -/
def execQuant (p c i : Nat) (s : State) : Out := .next (s.startGrind p c i 1)

/-- `dequant` (R273). -/
def execDequant (p c i : Nat) (s : State) : Out := .next (s.startGrind p c i 2)

end Sys2Proof.Machine
end

