-- ==== Sys2Proof/Machine/Haul.lean ====
section
/-! DEFINITION. The haul engine (R265 to R271, R276): pieces in stream order, their reads and writes, walks, and errors. -/

namespace Sys2Proof.Machine

/-! ## Stream order (R267 to R270) -/

/-- The first haul-phase cycle at or after one: wheel phases 1 and 5 (R22). -/
def haulAt (n : Nat) : Nat := n + (5 - n % 4) % 4

/-- An address a number of bytes further on; virtual ones wrap (R142). -/
def HAddr.plus (a : HAddr) (n : Nat) : HAddr :=
  match a with
  | .virt va => .virt ((va + n) % 2 ^ 56)
  | .ls off => .ls (off + n)
  | .pin h off => .pin h (off + n)
  | .bad => .bad

/-- The address as a number, as cuts at 512-byte boundaries see it. -/
def HAddr.num : HAddr → Nat
  | .virt va => va
  | .ls off => off
  | .pin _ off => off
  | .bad => 0

/-- A piece before it issues: source if it reads, destination if it writes, bytes, and the pattern or zeros it writes where
it reads nothing. -/
structure PieceSpec where
  (src dst : Option HAddr) (len : Nat) (fill : List Byte)

/-- The rows of a card (R267 to R269). -/
def Card.rows (k : Card) : Nat :=
  match cType k.words with
  | 1 => cf k.words 5 0 16 * if cf k.words 0 20 2 = 3 then cf k.words 9 24 8 * cf k.words 9 16 8 else 1
  | 2 => cf k.words 4 0 16
  | _ => cf k.words 5 0 16

/-- Bytes of a row. -/
def Card.rowBytes (k : Card) : Nat := if cType k.words = 2 then cf k.words 4 16 16 else cf k.words 5 16 16

/-- Offset of row j from its first row: strides of the three dimensions (R267). -/
def rowOffset (ws : List Word) (j s1 s2 s3 : Nat) : Nat :=
  let c1 := cf ws 5 0 16
  if cf ws 0 20 2 = 3 then j % c1 * s1 + 64 * (j / c1 % cf ws 9 24 8) * s2 + 65536 * (j / c1 / cf ws 9 24 8) * s3
  else j * s1

/-- The source of row j; none for a row that reads nothing (R267 to R269). -/
def Card.rowSrc (k : Card) (j : Nat) : Option HAddr :=
  let ws := k.words
  match cType ws with
  | 1 => some ((hAddr ws 1).plus (rowOffset ws j (cf ws 6 16 16) (cf ws 8 16 16) (cf ws 9 8 8)))
  | 2 => none
  | _ =>
    let x := (k.haul.index.getD j 0).toNat
    if x < cw ws 7 then some ((hAddr ws 1).plus (x * cw ws 6)) else none

/-- The destination of row j. -/
def Card.rowDst (k : Card) (j : Nat) : HAddr :=
  let ws := k.words
  match cType ws with
  | 1 => (hAddr ws 3).plus (rowOffset ws j (cf ws 6 0 16) (cf ws 8 0 16) (cf ws 9 0 8))
  | 2 => (hAddr ws 1).plus (j * cf ws 5 0 16)
  | _ => .ls (cf ws 3 0 21 + j * cf ws 5 16 16)

/-- The bytes a `fill` writes from an address up: byte a mod 4 of VALUE (R268). -/
def fillBytes (v : Word) (a n : Nat) : List Byte := (List.range n).map fun i => BitVec.ofNat 8 (v.toNat / 256 ^ ((a + i) % 4))

/-- The next piece of a card in stream order, and the progress after it (R270). -/
def Card.nextPiece (k : Card) : Option (PieceSpec × HaulSt) :=
  let h := k.haul
  let ws := k.words
  let total := 4 * cf ws 5 0 16
  if cType ws = 3 && h.idx < total then
    let off := cf ws 4 0 21 + h.idx
    let n := min (total - h.idx) (512 - off % 512)
    some (⟨some (.ls off), none, n, []⟩, { h with idx := h.idx + n })
  else if k.rows ≤ h.row then none
  else
    let src := (k.rowSrc h.row).map (·.plus h.off)
    let dst := (k.rowDst h.row).plus h.off
    let at_ := match src with | some a => a.num | none => dst.num
    let n := min (k.rowBytes - h.off) (512 - at_ % 512)
    let bs := match src with
      | some _ => []
      | none => if cType ws = 2 then fillBytes (ws.getD 3 0) dst.num n else List.replicate n 0
    some (⟨src, some dst, n, bs⟩,
      if h.off + n < k.rowBytes then { h with off := h.off + n } else { h with row := h.row + 1, off := 0 })

/-! ## Progress -/

/-- The haul card that runs on a core. -/
def State.haulCard (s : State) (p c : Nat) : Option Card :=
  (s.core p c).cards.find? fun k => k.q = 1 && k.running s.wtc && !k.stopped

def State.modHaul (s : State) (p c i : Nat) (f : HaulSt → HaulSt) : State := s.modCard p c i fun k => { k with haul := f k.haul }

def State.modPiece (s : State) (p c i n : Nat) (f : Piece → Piece) : State :=
  s.modHaul p c i fun h => { h with pieces := h.pieces.map fun x => if x.k = n then f x else x }

/-- The engine looks for its next write and its next read in the next haul-phase cycle at or after `n`. -/
def State.haulNext (s : State) (p c n : Nat) : State :=
  (s.once (haulAt n) pEngine [c, c, 0] (.haulPieceWrite p c)).once (haulAt n) pEngine [c, c, 1] (.haulPieceRead p c 0)

/-- An access performed in this cycle with a return delay: the last one gives the card's end (R261, R271). -/
def HaulSt.access (h : HaulSt) (now delay : Nat) : HaulSt :=
  { h with latest := some now, end_ := if h.latest = some now then max h.end_ (now + delay) else now + delay }

/-- Nothing of the card is left to do. -/
def Card.haulOver (k : Card) : Bool :=
  k.nextPiece.isNone && k.haul.pieces.isEmpty && k.haul.todo.isEmpty && k.haul.open_ = 0

/-- The card's end, once its last access is performed (R271). -/
def State.haulEnd (s : State) (p c i : Nat) : State :=
  match s.card? p c i with
  | none => s
  | some k => if k.fin.isNone && k.haulOver then s.finishCard p c k k.haul.end_ else s

/-- The pieces a stopped card has not read or written are taken back (R276). A write it has begun, a segment on its way or one to another
core's LS, is still performed (DESIGN CHOICE, entry 90). -/
def State.dropHaul (s : State) (p c i : Nat) : State :=
  ({ s with agenda := s.agenda.filter fun e => match e.ev with
      | .haulPieceRead a b _ => !(a = p && b = c)
      | _ => true } : State).modHaul p c i fun h => { h with pieces := [] }

/-- The card word of the operand a piece reads or writes: the low word of its address, or the index list's (R267 to R269). -/
def Card.haulWord (k : Card) (dst index : Bool) : Nat :=
  if index then 4 else if dst && cType k.words ≠ 2 then 3 else 1

/-- The code of a fault met at a word: an uncorrectable error is code 11, a translation or permission fault code 14 (R276). -/
def faultCode (cause : Nat) : Nat := if cause = cUCE then 11 else 14

/-- The running card stops with a fault met at a card word (R276). -/
def State.stopHaul (s : State) (p c : Nat) (k : Card) (word cause : Nat) : State :=
  (s.dropHaul p c k.id).stopCard p c k (faultCode cause) word cause

/-- A timed card needs a walk: a schedule fault, and the card stops without a credit (R25, R265). -/
def State.walkFault (s : State) (p c : Nat) (k : Card) : State :=
  let now := s.wtc
  ((s.dropHaul p c k.id).modCard p c k.id fun x =>
    { x with fin := some now, settled := some now, stopped := true }).then (.scheduleFault p 2 c k.slot k.ctx)

/-! ## Operands (R265, R266) -/

/-- Where a part of a piece lies: at a physical address, in the host window (`raw`: not to be translated), behind a walk, or a
fault. -/
inductive HPlace where
  | phys (pa : Nat) | host (iova : Nat) (raw : Bool) | walk (page : Nat) | fault (cause : Nat)
  deriving DecidableEq, Repr

/-- The place of a translated address (R141, R265). -/
def State.haulDest (s : State) (p pa tgt : Nat) : HPlace :=
  match s.dest p pa tgt with
  | .here a => match homeOf a with
    | .nothing => .fault cTRN
    | _ => .phys a
  | .host a => .host a false
  | _ => .fault cPRT

/-- The place of a pinned address: package-local, never translated and never a fault (R266, entry 89). -/
def pinPlace (pa : Nat) : HPlace :=
  match homeOf pa with
  | .host => .host (pa - 0xA00000000000) true
  | _ => .phys pa

/-- The place of a haul address of a card. -/
def State.haulPlace (s : State) (p c : Nat) (k : Card) (need : Perm) (a : HAddr) : HPlace :=
  match a with
  | .ls off => .phys (lsPa c (s.cardBase k + off))
  | .pin h off => pinPlace (((s.pkg p).pinned.getD h Pinned.reset).pbase + off)
  | .virt va => match s.xlate p c k.ctx va need with
    | .ok pa tgt => s.haulDest p pa tgt
    | .fault x => .fault x
    | .walk => .walk (va / 4096 * 4096)
  | .bad => .fault cTRN

/-- A piece cut where it meets a page: addresses with their lengths. -/
def pageParts : Nat → HAddr → Nat → List (HAddr × Nat)
  | 0, _, _ => []
  | f + 1, a, n =>
    if n = 0 then []
    else match a with
      | .virt va => let m := min n (4096 - va % 4096); (a, m) :: pageParts f (a.plus m) (n - m)
      | _ => [(a, n)]

/-- Walks of a piece are requested, one a page, unless they are under way (R265, R338). -/
def State.pieceWalks (s : State) (p c : Nat) (k : Card) (n : Nat) (dst : Bool) (pages : List Nat) : State :=
  if s.walks.any fun w => w.for_ = .piece k.id n dst then s
  else (distinct pages).foldl (fun (s : State) pg =>
    let (w, s) := s.fresh
    let s : State := { s with walks := s.walks ++
      [⟨w, p, c / 4, c, k.ctx, k.team, pg, 3, 0, 0, false, .piece k.id n dst⟩] }
    s.at s.wtc pEngine [c, c, 2] (.pageWalk p (c / 4))) s

/-- A walk of a piece has ended: the piece issues in the first haul-phase cycle after, or its card stops in the next cycle
(R265, R338). -/
def State.pieceWalked (s : State) (p c i page : Nat) (dst : Bool) (bad : Option Nat) : State :=
  match s.card? p c i with
  | none => s
  | some k =>
    let cause := match bad with
      | some x => some x
      | none => match s.haulPlace p c k (if dst then .wr else .rd) (.virt page) with
        | .fault x => some x
        | _ => none
    let now := s.wtc
    let s := s.modHaul p c i fun h =>
      { h with hold := some (now, dst), fail := h.fail <|> cause.map fun x => (x, k.haulWord dst false) }
    if cause.isSome then s.once (now + 1) pEngine [c, c, 1] (.haulPieceRead p c 0) else s

/-! ## Access segments (R152, R271) -/

/-- The 64-byte segments of a range: address and bytes of each. -/
def segRange (pa n : Nat) : List (Nat × Nat) :=
  (List.range ((pa + n + 63) / 64 - pa / 64)).map fun i =>
    let lo := max pa (64 * (pa / 64 + i))
    (lo, min (pa + n) (64 * (pa / 64 + i) + 64) - lo)

/-- An access of a piece to the host window leaves (R357). -/
def State.haulHost (s : State) (p c : Nat) (k : Card) (n iova len : Nat) (raw write : Bool) (bs : List Byte) : State :=
  let (h, s) := s.fresh
  let r : HostReq := ⟨h, 0, [], k.id, n, c, write, iova, len, if write then bs else [], 0, if raw then 2 else 0, cTmd k.words,
    Option.none⟩
  (s.modPkg p fun x => { x with host := x.host ++ [r] }).at (s.wtc + 64) pHost [c, h] (.hostWindowAccess p h)

/-- The delay of an access from a core to the LS of another; none to its own (R271). -/
def lsDelay (c c' : Nat) : Nat := if c = c' then 0 else 20 + torus c c'

/-- Piece n's read issues at its place (R271). -/
def State.readPiece (s : State) (p c : Nat) (k : Card) (n len : Nat) (x : HPlace) : State :=
  match x with
  | .phys pa =>
    let s := s.modPiece p c k.id n fun y => { y with src := some pa }
    match homeOf pa with
    | .ls c' _ => s.at (s.wtc + lsDelay c c') pRead [c', c] (.haulPieceRead p c (n + 1))
    | _ =>
      let segs := segRange pa len
      (s.modPiece p c k.id n fun y => { y with left := segs.length, data := List.replicate len 0 }).gatherAt p
        (s.wtc + 200) [0, c, 1] (segs.map fun g => (g.1, ⟨0, 0, 1, cTmd k.words, .haulRead c k.id n g.1 g.2⟩))
  | .host iova raw => (s.modPiece p c k.id n fun y => { y with src := some 0 }).haulHost p c k n iova len raw false []
  | _ => s

/-- A piece's data has come, whole, to be ready in cycle d (R271). -/
def State.pieceReady (s : State) (p c i n : Nat) (d : Nat) (bs : List Byte) : State :=
  s.modPiece p c i n fun y => { y with ready := some d, data := bs }

/-- The bytes a segment reads: device memory's, or none that are stated (R266, entry 89). -/
def State.pieceBytes (s : State) (p pa len : Nat) : List Byte :=
  if homeOf pa = .hbm then natBytes len (s.rd p pa len) else (List.range len).map fun i => Config.holeByte (pa + i)

/-- A segment of a piece is read at device memory in this cycle (R162, R271, R276). -/
def State.haulSegRead (s : State) (p c i n pa len : Nat) : State :=
  match s.card? p c i with
  | none => s
  | some k =>
    match k.haul.pieces.find? (·.k = n) with
    | none => s
    | some x =>
      if k.stopped then s
      else if s.uceAt p pa len then s.stopHaul p c k (k.haulWord false false) cUCE
      else
        let s := s.correct p pa len
        let o := pa - x.src.getD pa
        let bs := x.data.take o ++ s.pieceBytes p pa len ++ x.data.drop (o + len)
        let now := s.wtc
        let s := s.modHaul p c i (·.access now 200)
        s.modPiece p c i n fun y => { y with data := bs, left := y.left - 1,
                                             ready := if y.left ≤ 1 then some (now + 320) else none }

/-- A segment of a piece is written at device memory, or a host write is over, in this cycle. -/
def State.haulSegWritten (s : State) (p c i : Nat) (pa : Nat) (bs : List Byte) : State :=
  let now := s.wtc
  ((if homeOf pa = .hbm then s.wr p pa bs else s).modHaul p c i fun h => { h.access now 200 with open_ := h.open_ - 1 }).haulEnd p c i

/-- The read of a piece at an LS, in this cycle; an index piece's words are known with it (R269, R271). -/
def State.readLs (s : State) (p c : Nat) (k : Card) (x : Piece) : State :=
  let pa := x.src.getD 0
  match homeOf pa with
  | .ls c' off =>
    if s.uceAt p pa x.len then s.stopHaul p c k (k.haulWord false x.index) cUCE
    else
      let s := (s.correct p pa x.len).watch p c' off x.len false (.engine 2 c)
      let bs := natBytes x.len (s.rd p pa x.len)
      let now := s.wtc
      let s := s.modHaul p c k.id (·.access now (lsDelay c c'))
      if x.index then
        let ws := (List.range (x.len / 4)).map fun i => BitVec.ofNat 32 (bytesNat ((bs.drop (4 * i)).take 4))
        let s := s.modHaul p c k.id fun h =>
          { h with index := h.index ++ ws, pieces := h.pieces.filter (·.k ≠ x.k) }
        if ws.any fun w => cw k.words 7 ≤ w.toNat then
          s.modTeam k.team fun t => { t with csr := { t.csr with hstat := t.csr.hstat ||| 1 } }
        else s
      else s.pieceReady p c k.id x.k (now + if c = c' then 0 else 20) bs
  | _ => s

/-! ## The engine's cycles (R270, R271) -/

/-- The next piece issues in this cycle: its number and source are known, and its read leaves. -/
def State.issuePiece (s : State) (p c : Nat) (k : Card) (y : PieceSpec) (h : HaulSt) : State :=
  let n := k.haul.next
  let now := s.wtc
  let put (s : State) (ready : Option Nat) : State := s.modHaul p c k.id fun _ =>
    { h with next := n + 1, lastR := some now,
             pieces := h.pieces ++ [⟨n, none, y.dst.map (·.num), y.len, y.dst.isNone, ready, y.fill, 0⟩] }
  match y.src with
  | none => (put s (some (now - 8))).then (.haulPieceWrite p c)
  | some a =>
    match s.haulPlace p c k .rd a with
    | .fault x => s.stopHaul p c k (k.haulWord false y.dst.isNone) x
    | .walk page => if cTmd k.words then s.walkFault p c k else s.pieceWalks p c k n false [page]
    | x => (put s none).readPiece p c k n y.len x

/-- The card's next piece may issue in this cycle (R270). -/
def Card.mayIssue (k : Card) (s : State) : Bool :=
  let h := k.haul
  h.lastR ≠ some s.wtc && h.hold ≠ some (s.wtc, false) &&
    !(s.walks.any fun w => w.for_ = .piece k.id h.next false) && h.pieces.all fun x => x.k + 16 ≠ h.next

/-- HAUL_PIECE_READ (R270): in a haul-phase cycle the next piece issues (part 0), or piece part − 1 is read at its LS. -/
def execHaulPieceRead (p c part : Nat) (s : State) : Out :=
  match s.haulCard p c with
  | none => .next s
  | some k =>
    if part = 0 then
      match k.haul.fail with
      | some x => .next (s.stopHaul p c k x.2 x.1)
      | none =>
        if s.wtc ≠ haulAt s.wtc then .next s
        else match k.nextPiece with
          | none => .next s
          | some (y, h) =>
            let s := s.haulNext p c (s.wtc + 1)
            .next (if k.mayIssue s then s.issuePiece p c k y h else s)
    else match k.haul.pieces.find? (·.k + 1 = part) with
      | none => .next s
      | some x => .next (s.readLs p c k x)

/-- The cores a card writes an own-LS destination on, with the block's base on each (R267). -/
def State.haulCores (s : State) (c : Nat) (k : Card) : List (Nat × Nat) :=
  match s.team? k.team with
  | none => []
  | some t =>
    let cv := if cType k.words = 3 then [] else cvCores t (cf k.words 0 16 4)
    if cv.isEmpty then [(c, t.pl.lsBase)]
    else cv.filterMap fun x => (s.blockTeam t x).map fun u => (x, u.pl.lsBase)

/-- Bytes written to an LS byte of a core, at once on the own core, else later (R271). -/
def State.haulLs (s : State) (p c i c' off : Nat) (bs : List Byte) : State :=
  let now := s.wtc
  if c = c' then (s.lsPut p c off bs (.engine 2 c)).modHaul p c i (·.access now 0)
  else
    let due := now + lsDelay c c'
    (s.modHaul p c i fun h => { h with todo := h.todo ++ [⟨due, c', off, bs⟩] }).at due pEngine [c', c] (.haulPieceWrite p c)

/-- A part of a piece is written, from this cycle on (R271). -/
def State.writePart (s : State) (p c : Nat) (k : Card) (n : Nat) (x : HPlace) (bs : List Byte) : State :=
  match x with
  | .phys pa =>
    match homeOf pa with
    | .ls c' off => s.haulLs p c k.id c' off bs
    | _ =>
      let segs := segRange pa bs.length
      (s.modHaul p c k.id fun h => { h with open_ := h.open_ + segs.length }).gatherAt p (s.wtc + 200) [0, c, 1]
        (segs.map fun g =>
          (g.1, ⟨0, 0, 1, cTmd k.words, .haulWrite c k.id n g.1 ((bs.drop (g.1 - pa)).take g.2)⟩))
  | .host iova raw =>
    (s.modHaul p c k.id fun h => { h with open_ := h.open_ + 1 }).haulHost p c k n iova bs.length raw true bs
  | _ => s

/-- A piece is written from this cycle on, once every part of its destination is known (R265, R271). -/
def State.writePiece (s : State) (p c : Nat) (k : Card) (x : Piece) : State :=
  let now := s.wtc
  let wrote (s : State) : State :=
    (s.modHaul p c k.id fun h => { h with lastW := some now, pieces := h.pieces.filter (·.k ≠ x.k) }).haulEnd p c k.id
  let base := if cType k.words = 1 then hAddr k.words 3 else if cType k.words = 2 then hAddr k.words 1 else .ls 0
  let d := x.dst.getD 0
  match base with
  | .ls _ => wrote ((s.haulCores c k).foldl (fun (s : State) y => s.haulLs p c k.id y.1 (y.2 + d) x.data) s)
  | _ =>
    let at_ : HAddr := match base with | .pin h _ => .pin h d | _ => .virt d
    let parts := (pageParts 3 at_ x.len).map fun y => (s.haulPlace p c k .wr y.1, y.2)
    match parts.findSome? fun y => match y.1 with | .fault z => some z | _ => none with
    | some z => s.stopHaul p c k (k.haulWord true false) z
    | none =>
      match parts.filterMap fun y => match y.1 with | .walk pg => some pg | _ => none with
      | [] => wrote (parts.foldl (fun (z : State × List Byte) y =>
          (z.1.writePart p c k x.k y.1 (z.2.take y.2), z.2.drop y.2)) (s, x.data)).1
      | pgs => if cTmd k.words then s.walkFault p c k else s.pieceWalks p c k x.k true pgs

/-- A write to another core that is due in this cycle: its card and itself. -/
def State.dueTodo (s : State) (p c : Nat) : Option (Nat × HPend) :=
  (s.core p c).cards.findSome? fun k => (k.haul.todo.find? (·.due ≤ s.wtc)).map fun y => (k.id, y)

/-- The writes to other cores that are due in this cycle are performed. -/
def State.doTodos (p c : Nat) : Nat → State → State
  | 0, s => s
  | f + 1, s =>
    match s.dueTodo p c with
    | none => s
    | some (i, y) =>
      let now := s.wtc
      let s := s.lsPut p y.core y.off y.data (.engine 2 c)
      State.doTodos p c f ((s.modHaul p c i fun h =>
        { h.access now (lsDelay c y.core) with todo := h.todo.erase y }).haulEnd p c i)

/-- HAUL_PIECE_WRITE (R271): writes to other cores' LS are performed, and in a haul-phase cycle the next piece's write
begins. -/
def execHaulPieceWrite (p c : Nat) (s : State) : Out :=
  let s := State.doTodos p c 64 s
  match s.haulCard p c with
  | none => .next s
  | some k =>
    if s.wtc ≠ haulAt s.wtc then .next s
    else
      let s := s.haulNext p c (s.wtc + 1)
      match k.haul.pieces.find? (!·.index) with
      | none => .next s
      | some x =>
        .next (if x.ready.any (· + 8 ≤ s.wtc) && k.haul.lastW ≠ some s.wtc && k.haul.hold ≠ some (s.wtc, true) &&
            !(s.walks.any fun w => w.for_ = .piece k.id x.k true) then s.writePiece p c k x
          else s)

/-! ## The cards (R264, R267 to R269) -/

/-- A haul card of a type starts; its first piece issues in the first haul-phase cycle from this one. -/
def State.startHaul (s : State) (p c i ty : Nat) : State :=
  match s.card? p c i with
  | none => s
  | some k =>
    if k.q = 1 && cType k.words = ty && s.mayStart p c k then (s.startCard p c k).haulNext p c s.wtc else s

/-- `copy` (R267). -/
def execCopy (p c i : Nat) (s : State) : Out := .next (s.startHaul p c i 1)

/-- `fill` (R268). -/
def execFill (p c i : Nat) (s : State) : Out := .next (s.startHaul p c i 2)

/-- `gather` (R269). -/
def execGather (p c i : Nat) (s : State) : Out := .next (s.startHaul p c i 3)

end Sys2Proof.Machine
end

