-- ==== Sys2Proof/Machine/Host.lean ====
section
/-! DEFINITION. The host link (R356 to R359) and the stations as targets of UALink peers (R362): accesses to the host window,
ATS and PRI, host accesses through BAR2, and target requests. -/

namespace Sys2Proof.Machine

/-! ## Requests to the host window (R357, R358) -/

def State.hostReq? (s : State) (p i : Nat) : Option HostReq := (s.pkg p).host.find? (·.id = i)
def State.modHost (s : State) (p i : Nat) (f : HostReq → HostReq) : State :=
  s.modPkg p fun x => { x with host := x.host.map fun r => if r.id = i then f r else r }

/-- A request has ended; a held request of its core follows. -/
def State.dropHost (s : State) (p i : Nat) : State := s.modPkg p fun x => { x with host := x.host.filter (·.id ≠ i) }

/-- A request of the core that left it earlier has not entered the link yet (R357). -/
def State.hostHeld (s : State) (p : Nat) (r : HostReq) : Bool :=
  ((s.pkg p).host.takeWhile (·.id ≠ r.id)).any fun y => y.core = r.core && y.stage ≠ 3

/-- The next held request of a core tries again. -/
def State.nextHost (s : State) (p core : Nat) : State :=
  match (s.pkg p).host.find? fun y => y.core = core && y.stage ≠ 3 with
  | some y => if y.stage = 4 then s.then (.hostWindowAccess p y.id) else s
  | none => s

/-- The request ends with a fault of its lane, or stops its haul card (R357, R358). -/
def State.hostFault (s : State) (p : Nat) (r : HostReq) (cause : Nat) : State :=
  let s := s.dropHost p r.id
  let s := if r.card = 0 then
      let now := s.wtc
      (s.modLanes r.flight fun q =>
        if r.lanes.contains q.lane then { q with st := .err, got := cause, due := now } else q).at now pLand [r.flight]
        (.faultReport r.flight)
    else match s.card? p r.core r.card with
      | some k => if k.stopped || k.fin.isSome then s else s.stopHaul p r.core k (k.haulWord r.write false) cause
      | none => s
  s.nextHost p r.core

/-- The memory requests of an access at its translated address: at most 256 bytes each (R357, R358). -/
def State.leaveHost (s : State) (p kind pa : Nat) (r : HostReq) : State :=
  (List.range ((r.n + 255) / 256)).foldl (fun (s : State) j =>
    s.leave p kind (pa + 256 * j) r.id true (if r.write then (r.data.drop (256 * j)).take 256 else [])) s

/-- The request enters the link at its translated address: a write is over, a read waits for its completion (R357). -/
def State.enterLink (s : State) (p pa : Nat) (r : HostReq) : State :=
  let now := s.wtc
  if r.write then
    let s := (s.leaveHost p 2 pa r).dropHost p r.id
    let s := if r.card = 0 then
        (s.modLanes r.flight fun q => if r.lanes.contains q.lane then { q with st := .done } else q).settle r.flight
      else (s.modHaul p r.core r.card fun h => { h.access now 64 with open_ := h.open_ - 1 }).haulEnd p r.core r.card
    s.nextHost p r.core
  else ((s.leaveHost p 1 pa r).modHost p r.id fun y => { y with stage := 3, data := [] }).nextHost p r.core

/-- The ATS entry that covers an address. -/
def Pkg.atsOf (x : Pkg) (va : Nat) : Option AtsEntry := x.ats.find? fun e => e.base ≤ va && va < e.base + e.size

def AtsEntry.grants (e : AtsEntry) (write : Bool) : Bool := if write then e.wr else e.rd

/-- A request enters the link in its core's order, at its translated address (R357). -/
def State.hostOrderly (s : State) (p pa : Nat) (r : HostReq) : State :=
  if s.hostHeld p r then s.modHost p r.id fun y => { y with stage := 4 } else s.enterLink p pa r

/-- A timed card needs a translation: a page walk for R25, and the card stops (R358). -/
def State.hostWalkFault (s : State) (p : Nat) (r : HostReq) : State :=
  let s := s.dropHost p r.id
  match s.card? p r.core r.card with
  | some k => (s.walkFault p r.core k).nextHost p r.core
  | none => s.nextHost p r.core

/-- A request at the transaction layer is translated, and enters the link in its core's order (R357, R358); a pinned one is not
translated (R266). -/
def State.hostTry (s : State) (p : Nat) (r : HostReq) : State :=
  if r.retried = 2 then s.hostOrderly p r.va r
  else match (s.pkg p).atsOf r.va with
  | none =>
    if r.timed then s.hostWalkFault p r
    else (s.modHost p r.id fun y => { y with stage := 1 }).leave p 3 r.va r.id true []
  | some e =>
    if e.grants r.write then s.hostOrderly p (e.pa + (r.va - e.base)) r
    else if r.retried = 0 then (s.modHost p r.id fun y => { y with stage := 2 }).leave p 4 r.va r.id true []
    else s.hostFault p r cPRT

/-- A host access to LS is performed (R359). -/
def State.hostLs (s : State) (p : Nat) (r : HostReq) : State :=
  let s := s.dropHost p r.id
  match homeOf r.va with
  | .ls c off =>
    let agent : Agent := .remote 0
    if r.write then s.lsPut p c off r.data agent
    else if s.uceAt p r.va r.n then (s.leave p 6 r.va r.n false []).notice p 10 r.va 0
    else
      let s := (s.correct p r.va r.n).watch p c off r.n false agent
      s.leave p 6 r.va r.n true (natBytes r.n (s.rd p r.va r.n))
  | _ => s

/-- A request of a UALink peer performed at its home, and completed (R362). -/
def State.ualServe (s : State) (p stn : Nat) (r : UalReq) : State :=
  match r with
  | .read pa n =>
    if s.uceAt p pa n then s.leave p 7 pa stn false []
    else
      let s := s.correct p pa n
      let s := match homeOf pa with | .ls c off => s.watch p c off n false (.remote stn) | _ => s
      s.leave p 7 pa stn true (natBytes n (s.rd p pa n))
  | .write pa bs => (s.homeWrite p pa bs (.remote stn)).leave p 7 pa stn true []
  | .atomic pa op x cmp =>
    if s.uceAt p pa 4 then s.leave p 7 pa stn false []
    else
      let s := s.correct p pa 4
      let m := toF (s.rd p pa 4)
      (s.homeWrite p pa (natBytes 4 (atomic op m x cmp).toNat) (.remote stn)).leave p 7 pa stn true (natBytes 4 m.toNat)

/-! ## Order of host accesses and target requests (R359, R362) -/

def ualPa : UalReq → Nat
  | .read pa _ => pa
  | .write pa _ => pa
  | .atomic pa _ _ _ => pa

def ualSize : UalReq → Nat
  | .read _ n => n
  | .write _ bs => bs.length
  | .atomic _ _ _ _ => 4

/-- The part of a request in one segment. -/
def ualPart (r : UalReq) (g : Nat × Nat) : UalReq :=
  match r with
  | .read _ _ => .read g.1 g.2
  | .write pa bs => .write g.1 ((bs.drop (g.1 - pa)).take g.2)
  | .atomic pa op x cmp => .atomic pa op x cmp

/-- A target request that meets an uncorrectable error: it takes no slot (R176, R344). -/
def State.ualBad (s : State) (p : Nat) : UalReq → Bool
  | .write _ _ => false
  | r => s.uceAt p (ualPa r) (ualSize r)

/-- An earlier access that is performed before r: a posted write before any host access (PCIe ordering, R359), any request
before a later one of its station (R362). -/
def HostReq.before (y r : HostReq) : Bool :=
  y.core = r.core && (if r.core = 256 then y.write else y.ual.map (·.1) = r.ual.map (·.1))

/-- The pseudo-channels of a range. -/
def State.chansOf (s : State) (p pa n : Nat) : List Nat :=
  distinct ((segRange pa n).map fun g => hashPc (s.pkg p).hashm g.1)

/-- Two accesses queue at one pseudo-channel, where they keep their order. -/
def State.oneChannel (s : State) (p : Nat) (y r : HostReq) : Bool :=
  y.stage = 5 && homeOf r.va = .hbm && s.chansOf p y.va y.n = s.chansOf p r.va r.n && (s.chansOf p r.va r.n).length = 1

/-- The access may go to its home: those before it are performed, or stand before it at its pseudo-channel (entry 86). -/
def State.hostOrdered (s : State) (p : Nat) (r : HostReq) : Bool :=
  ((s.pkg p).host.takeWhile (·.id ≠ r.id)).all fun y => !y.before r || s.oneChannel p y r

/-- A host access or target request comes to its home in cycle `c`: to the pseudo-channels in the order of R154, to an LS in the
order of R157, a read behind the writes. -/
def State.hubAt (s : State) (p c : Nat) (r : HostReq) : State :=
  let z : Nat × List Nat :=
    if homeOf r.va = .hbm then (pChan, if r.core = 256 then [1, 0] else [5])
    else match r.ual with
      | some (_, .read _ _) => (pRead, [1, 0])
      | some _ => (pRemote, [1, 0])
      | none => (if r.write then pHost else pRead, [256, r.id])
  s.at c z.1 z.2 (.hostWindowAccess p r.id)

/-- One segment of an access has been served. -/
def State.hostPart (s : State) (p i : Nat) : State :=
  match s.hostReq? p i with
  | none => s
  | some r => if r.piece ≤ 1 then s.dropHost p i else s.modHost p i fun y => { y with piece := y.piece - 1 }

/-- A host access or target request at its home (R359, R362): it is performed at an LS, or queues at its pseudo-channels. -/
def State.hubAccess (s : State) (p : Nat) (r : HostReq) : State :=
  let segs := segRange r.va r.n
  if homeOf r.va = .hbm && !segs.isEmpty && !r.ual.any fun u => s.ualBad p u.2 then
    (s.modHost p r.id fun y => { y with stage := 5, piece := segs.length }).gatherAt p s.wtc
      (if r.core = 256 then [1, 0] else [5]) (segs.map fun g =>
        (g.1, match r.ual with
          | some (stn, u) => ⟨0, 0, match u with | .atomic _ _ _ _ => 2 | _ => 1, false, .ual r.id stn (ualPart u g)⟩
          | none => ⟨0, 0, 1, false, .host r.id g.1 g.2 r.write ((r.data.drop (g.1 - r.va)).take g.2)⟩))
  else match r.ual with
    | some (stn, u) => (s.dropHost p r.id).ualServe p stn u
    | none => s.hostLs p r

/-- HOST_WINDOW_ACCESS (R357): an access reaches the hub's transaction layer, or moves on behind an earlier one. A read ends
with its timeout counted from its commit (R166). A host access or target request comes to its home (R359, R362). -/
def execHostWindowAccess (p i : Nat) (s : State) : Out :=
  match s.hostReq? p i with
  | none => .next s
  | some r =>
    if 256 ≤ r.core then .next (if s.hostOrdered p r then s.hubAccess p r else s.hubAt p (s.wtc + 1) r)
    else if r.stage = 0 then
      let s := if r.write then s
        else s.at (s.wtc - 64 + (s.pkg p).rtimeout.toNat) pRemote [4, p, i] (.hostCompletionArrival p i false [])
      .next (s.hostTry p r)
    else if r.stage = 4 then .next (s.hostTry p r)
    else .next s

/-- HOST_COMPLETION_ARRIVAL (R166, R357): bytes of a read's completions; with the last, data follows 64 cycles later. Without
one in time the lane reads all ones and TO is set, and a haul card stops. -/
def execHostCompletionArrival (p i : Nat) (ok : Bool) (data : List Byte) (s : State) : Out :=
  match s.hostReq? p i with
  | none => .next s
  | some r =>
    if r.write then .next s
    else if !ok then
      if r.card ≠ 0 then .next (s.hostFault p r cTRN)
      else
        let team := match s.flight? r.flight with | some f => f.team | none => 0
        let s := (s.dropHost p i).setRstat team 1
        let s := s.modLanes r.flight fun q => if r.lanes.contains q.lane then { q with st := .performed, got := 2 ^ 128 } else q
        .next ((s.landAt r.flight s.wtc r.lanes).nextHost p r.core)
    else if r.stage ≠ 3 then .next s
    else
      let bs := r.data ++ data
      if bs.length < r.n then .next (s.modHost p i fun y => { y with data := bs })
      else
        let s := s.dropHost p i
        let at_ := s.wtc + 64
        let x := bytesNat (bs.take r.n)
        if r.card = 0 then
          let s := s.modLanes r.flight fun q => if r.lanes.contains q.lane then { q with st := .performed, got := x } else q
          .next (s.landAt r.flight at_ r.lanes)
        else
          let now := s.wtc
          .next ((s.modHaul p r.core r.card (·.access now 64)).pieceReady p r.core r.card r.piece at_ (bs.take r.n))

/-- ATS_TRANSLATION_RESPONSE (R358): what the host found for request i. -/
def execAtsTranslationResponse (p i : Nat) (found rd wr : Bool) (pa : Nat) (s : State) : Out :=
  match s.hostReq? p i with
  | none => .next s
  | some r =>
    if r.stage ≠ 1 then .next s
    else
      let e : AtsEntry := ⟨0, r.va / 4096 * 4096, 4096, pa / 4096 * 4096, rd, wr⟩
      let s := if !found then s
        else s.modPkg p fun x =>
          { x with ats := (if x.ats.length < 4096 then x.ats else x.ats.drop 1).filter (·.base ≠ e.base) ++ [e] }
      .next (if found && e.grants r.write then s.hostTry p r
        else if r.retried = 0 then (s.modHost p i fun y => { y with stage := 2 }).leave p 4 r.va i true []
        else s.hostFault p r (if found then cPRT else cTRN))

/-- PRI_PAGE_RESPONSE (R358): on success the translation is requested once more; for a timed card that request is a walk fault. -/
def execPriPageResponse (p i : Nat) (success : Bool) (s : State) : Out :=
  match s.hostReq? p i with
  | none => .next s
  | some r =>
    if r.stage ≠ 2 then .next s
    else if success && r.timed then .next (s.hostWalkFault p r)
    else if success then
      let s := s.modPkg p fun x => { x with ats := x.ats.filter fun e => !(e.base ≤ r.va && r.va < e.base + e.size) }
      .next ((s.modHost p i fun y => { y with stage := 1, retried := 1 }).leave p 3 r.va i true [])
    else .next (s.hostFault p r (if ((s.pkg p).atsOf r.va).isSome then cPRT else cTRN))

/-- ATS_INVALIDATE_REQUEST (R358): translations go; a request uses its translation in the cycle it enters the link, so none
that used one is still to enter. -/
def execAtsInvalidateRequest (p base size : Nat) (s : State) : Out :=
  .next ((s.modPkg p fun x => { x with ats := x.ats.filter fun e => e.base + e.size ≤ base || base + size ≤ e.base }).leave p 5
    base size true [])

/-! ## Host accesses through BAR2 (R359) -/

/-- An access or request on its way to its home joins the list of those of the hub, to come there in cycle `c`. -/
def State.hubEnter (s : State) (p c core pa n : Nat) (write : Bool) (bs : List Byte) (u : Option (Nat × UalReq)) : State :=
  let (i, s) := s.fresh
  let r : HostReq := ⟨i, 0, [], 0, 0, core, write, pa, n, bs, 0, 0, false, u⟩
  (s.modPkg p fun x => { x with host := x.host ++ [r] }).hubAt p c r

/-- BAR2_HOST_ACCESS (R356, R359): an access through the aperture enters the hub. -/
def execBar2HostAccess (p off n : Nat) (write : Bool) (data : List Byte) (s : State) : Out :=
  let pa := (s.pkg p).bar2 + off % 2 ^ 32
  let bs := data.take n
  match homeOf pa with
  | .hbm => .next (s.hubEnter p (s.wtc + 200) 256 pa n write bs none)
  | .ls _ _ => .next (s.hubEnter p (s.wtc + 20) 256 pa n write bs none)
  | _ => .next (if write then s else s.leave p 6 pa n false [])

/-- A host access served at device memory; an uncorrectable error aborts the read and is reported (R162, R359). -/
def State.hostServe (s : State) (p pa n : Nat) (write : Bool) (bs : List Byte) : State :=
  if write then s.wr p pa bs
  else if s.uceAt p pa n then (s.leave p 6 pa n false []).notice p 10 pa 0
  else
    let s := s.correct p pa n
    s.leave p 6 pa n true (natBytes n (s.rd p pa n))

/-! ## UALink target requests (R362) -/

/-- The permission a target request needs of a window. -/
def ualGranted (r : UalReq) (w : Window) : Bool :=
  match r with
  | .read _ _ => w.rd
  | .write _ _ => w.wr
  | .atomic _ _ _ _ => w.at_

/-- The station accepts a request: its size, and one of the station's eight windows (R362). -/
def State.ualAccepts (s : State) (p stn : Nat) (r : UalReq) : Bool :=
  4 ≤ (ualSize r) && (ualSize r) ≤ 256 &&
    (((s.pkg p).uwindows.drop (8 * stn)).take 8).any fun w =>
      w.v && w.base ≤ (ualPa r) && (ualPa r) + (ualSize r) ≤ w.limit && ualGranted r w

/-- UALINK_TARGET_REQUEST (R176, R362): an accepted request goes to its home as the first element of a packet does; any other is
completed with an error. -/
def execUalinkTargetRequest (p stn : Nat) (r : UalReq) (s : State) : Out :=
  if !s.ualAccepts p stn r then .next (s.leave p 7 (ualPa r) stn false [])
  else match homeOf (ualPa r) with
    | .hbm => .next (s.hubEnter p (s.wtc + 201) 257 (ualPa r) (ualSize r) false [] (some (stn, r)))
    | .ls _ _ => .next (s.hubEnter p (s.wtc + 41) 257 (ualPa r) (ualSize r) false [] (some (stn, r)))
    | _ => .next (s.leave p 7 (ualPa r) stn false [])

end Sys2Proof.Machine
end

