-- ==== Sys2Proof/Machine/Hbm.lean ====
section
/-! DEFINITION. Device memory: packets at the pseudo-channels and the service of segments (R152 to R154), refresh and replay
(R160, R161), and page walks (R147, R338). -/

namespace Sys2Proof.Machine

/-! ## Refresh windows (R160) -/

/-- A refresh occupies this many cycles of its pseudo-channel. -/
def refreshLen : Nat := 448

/-- The cycle is a phase point of pseudo-channel k of each stack. -/
def phasePoint (k n : Nat) : Bool := n % 4875 = 76 * k

/-- A phase point of the pseudo-channel starts a refresh as things stand: no schedule runs, or no credit is left. -/
def State.refreshDue (s : State) (x : PChan) : Bool := ((s.pkg x.pkg).schedAt s.wtc).isNone || x.bal = 0

/-- The queue's slots, first come first served, from a cycle on, were there no refresh. -/
def fifoSlots : Nat → List Seg → List (Seg × Nat)
  | _, [] => []
  | c, g :: gs => let t := even (max c (max g.arr g.after)); (g, t) :: fifoSlots (t + 2 * g.slots) gs

/-- A timed segment that would have been served in a slot of the forced refresh under way (R160). -/
def PChan.delaysTimed (x : PChan) : Bool :=
  (fifoSlots x.refresh x.queue).any fun z => z.1.timed && z.2 < x.refresh + refreshLen

/-- The forced refresh of a pseudo-channel raises REFRESH, once, when it has started and delays a timed segment. -/
def State.checkRefresh (s : State) (p n : Nat) : State :=
  let x := s.pc p n
  if x.refresh ≠ 0 && x.refresh ≤ s.wtc && s.wtc < x.refresh + refreshLen && x.delaysTimed then
    (s.setPc { x with refresh := 0 }).then (.scheduleFault p 3 256 0 0)
  else s

/-- The even cycle at which the refresh of a phase point n starts. -/
def refreshStart (n : Nat) : Nat := even n

/-- A remote element or load that meets an uncorrectable error takes no slot: it counts as performed as it would have come to its
pseudo-channel (R180, R187, R344). -/
def State.noSlot (s : State) (p : Nat) : SegOp → Option Instr
  | .elem i j => (s.inn? p i).bind fun x => (x.elems[j]?).bind fun e =>
      if e.kind ≠ .store && s.uceAt p e.pa 4 then some (.elementPerformed p i j) else none
  | .rload i j => (s.inn? p i).bind fun x => (x.rlanes[j]?).bind fun r =>
      if s.uceAt p r.pa x.loadSize then some (.remoteLoadAccess p i j) else none
  | _ => none

/-- GATHER_PACKET_ARRIVAL (R152 to R154): the segments of a packet join the queues of their pseudo-channels. -/
def execGatherPacketArrival (i : Nat) (s : State) : Out :=
  match s.gathers.find? (·.id = i) with
  | none => .next s
  | some g =>
    let s : State := { s with gathers := s.gathers.filter (·.id ≠ i) }
    .next (g.segs.foldl (fun (s : State) z =>
      match s.noSlot g.pkg z.2.op with
      | some i => s.then i
      | none =>
      let s := s.enqueue g.pkg z.1 z.2
      if z.2.timed then s.checkRefresh g.pkg (hashPc (s.pkg g.pkg).hashm z.1) else s) s)

/-! ## Serving a segment (R153) -/

/-- A record's write has been performed (R345). -/
def State.recordWritten (s : State) (p pa : Nat) (bs : List Byte) (i : Nat) : State :=
  let s := s.wr p pa bs
  match s.recordCtx i with
  | none => s
  | some x => (s.modCtx x.pkg x.num fun z => z.modPend i fun r => { r with written := true }).at (s.wtc + 1) pRemote
      [0, 0, 0, 0, i] (.tuberrHeadAdvance i)

/-- A table entry is read for the walk in progress (R146, R338); it is available 320 cycles later. 2^64 stands for an
uncorrectable error. -/
def State.walkRead (s : State) (p q pa : Nat) : State :=
  let x := if hbmSize ≤ pa then 0 else if s.uceAt p pa 8 then 2 ^ 64 else s.rd p pa 8
  let s := if hbmSize ≤ pa then s else s.correct p pa 8
  let s : State := { s with walks := s.walks.map fun w =>
    if w.pkg = p && w.quad = q && w.started then { w with entry := x } else w }
  s.at (s.wtc + 320) pBegin [1, q] (.walkLevelRead p q)

/-- What a segment does at its home. -/
def State.serve (s : State) (p : Nat) : SegOp → State
  | .lanes f ls => s.performLanes f 320 fun q => ls.contains q.lane && q.st = .moving
  | .walk q pa => s.walkRead p q pa
  | .haulRead c i n pa len => s.haulSegRead p c i n pa len
  | .haulWrite c i _ pa bs => s.haulSegWritten p c i pa bs
  | .elem i j => s.then (.elementPerformed p i j)
  | .rload i j => s.then (.remoteLoadAccess p i j)
  | .record pa bs i => s.recordWritten p pa bs i
  | .host i pa n w bs => (s.hostServe p pa n w bs).hostPart p i
  | .spill c g pa bs => (s.wr p pa bs).saveWritten c g
  | .fill g i pa n => s.fillServed p g i pa n
  | .trapRec pa n bs => (s.wr p pa bs).notice p 2 pa n
  | .ual i stn r => (s.ualServe p stn r).hostPart p i

/-- The second slot of a two-slot segment would be the first of a refresh (R160). -/
def State.meetsRefresh (s : State) (x : PChan) (g : Seg) : Bool :=
  g.slots = 2 && (phasePoint (x.n % 64) (s.wtc + 1) || phasePoint (x.n % 64) (s.wtc + 2)) && s.refreshDue x

/-- SEGMENT_SERVED (R153): the first segment of the queue is performed at its home. -/
def execSegmentServed (p n : Nat) (s : State) : Out :=
  let x := s.pc p n
  match x.queue with
  | [] => .next s
  | g :: gs =>
    if x.due ≠ s.wtc || s.wtc < x.busy || s.wtc < g.after then .next s
    else if s.meetsRefresh x g then .next (s.setPc { x with due := 0 })
    else
      let s := (s.setPc { x with queue := gs, busy := s.wtc + 2 * g.slots, due := 0 }).kick p n
      .next (s.serve p g.op)

/-! ## Refresh (R160) -/

/-- The next look at a compute-bound refresh of a pseudo-channel, in place of any that waits. -/
def State.boundAt (s : State) (p n c : Nat) : State :=
  let s : State := { s with agenda := s.agenda.filter fun e => e.ev ≠ .computeBoundRefresh p n }
  s.at c pMid [p, n] (.computeBoundRefresh p n)

/-- COMPUTE_BOUND_REFRESH (R160): in a compute-bound interval a refresh that can end within it starts, back to back with
the last, while the balance is below 8. -/
def execComputeBoundRefresh (p n : Nat) (s : State) : Out :=
  match (s.pkg p).schedAt s.wtc with
  | none => .next s
  | some t =>
    let x := s.pc p n
    let start := max (even s.wtc) x.busy
    let later (s : State) : State := match t.nextInterval (s.wtc + 1) with
      | some c => s.boundAt p n c
      | none => s
    match t.intervalEnd s.wtc with
    | none => .next (later s)
    | some e =>
      if x.bal < 8 && start + refreshLen ≤ e then
        if start = s.wtc then
          .next (((s.setPc { x with busy := start + refreshLen, bal := x.bal + 1 }).kick p n).boundAt p n (start + refreshLen))
        else .next (s.boundAt p n start)
      else .next (later s)

/-- The phase point of one pseudo-channel: a credit is spent, or a refresh starts. -/
def State.refreshOne (s : State) (p n : Nat) : State :=
  let x := s.pc p n
  if s.refreshDue x then
    let start := refreshStart s.wtc
    let forced := ((s.pkg p).schedAt s.wtc).isSome
    ((s.setPc { x with busy := max x.busy (start + refreshLen), refresh := if forced then start else 0 }).kick p n).checkRefresh
      p n
  else
    let s := s.setPc { x with bal := x.bal - 1 }
    match (s.pkg p).schedAt s.wtc with
    | some t => if (t.intervalEnd s.wtc).isSome && !(s.agenda.any fun e => e.ev = .computeBoundRefresh p n && e.cyc ≤ s.wtc + 448)
        then s.boundAt p n s.wtc else s
    | none => s

/-- REFRESH_PHASE_POINT (R160): pseudo-channel k of every stack. A refresh of an odd phase point starts one cycle later, when
what it delays is looked at. -/
def execRefreshPhasePoint (p k : Nat) (s : State) : Out :=
  let each (f : State → Nat → State) : State := (List.range 8).foldl (fun (s : State) st => f s (64 * st + k)) s
  if phasePoint k s.wtc then
    let s := each fun s n => s.refreshOne p n
    .next (if s.wtc % 2 = 1 then s.at (s.wtc + 1) (pMid + 1) [p, k] (.refreshPhasePoint p k) else s)
  else .next (each fun s n => s.checkRefresh p n)

/-! ## Replay (R161) -/

/-- The slots of a pseudo-channel as refreshes leave them: the cycle it is busy until, its balance, and the next phase point not
yet looked at. -/
structure SlotSim where
  (busy bal next : Nat)
  deriving DecidableEq, Repr

/-- The first phase point of pseudo-channel k of a stack from a cycle on (R160). -/
def nextPhase (k n : Nat) : Nat := n + (76 * k + 4875 - n % 4875) % 4875

/-- The start of the next compute-bound refresh from a cycle on: the first interval it fits into (R160). -/
def boundStart (t : Sched) : Nat → Nat → Option Nat
  | 0, _ => none
  | f + 1, c =>
    match (t.intervalEnd c).bind fun e => if even c + refreshLen ≤ e then some (even c) else none with
    | some x => some x
    | none => (t.nextInterval (c + 1)).bind (boundStart t f)

/-- The first slot at or after an even cycle that no refresh takes, phase points and compute-bound refreshes taken as they come. -/
def SlotSim.free (k : Nat) (t : Option Sched) : Nat → SlotSim → Nat → Nat × SlotSim
  | 0, x, c => (c, x)
  | f + 1, x, c =>
    let n := nextPhase k x.next
    let b := if x.bal < 8 then t.bind fun t => boundStart t 8 x.busy else none
    if n ≤ c && b.all (n ≤ ·) then
      if t.isNone || x.bal = 0 then
        let e := max x.busy (even n + refreshLen)
        SlotSim.free k t f { x with busy := e, next := n + 1 } (max c e)
      else SlotSim.free k t f { x with bal := x.bal - 1, next := n + 1 } c
    else match b with
      | some b =>
        if b ≤ c then SlotSim.free k t f { x with busy := b + refreshLen, bal := x.bal + 1 } (max c (b + refreshLen)) else (c, x)
      | none => (c, x)

/-- The slot of a segment of n slots from an even cycle on: a two-slot one whose second slot would be the first of a refresh waits for
the refresh to pass (R160). -/
def SlotSim.slot (k : Nat) (t : Option Sched) (n : Nat) : Nat → SlotSim → Nat → Nat × SlotSim
  | 0, x, c => (c, x)
  | f + 1, x, c =>
    let (c, x) := x.free k t 256 c
    let p := nextPhase k x.next
    if n = 2 && p ≤ c + 2 && (t.isNone || x.bal = 0) then
      let e := max x.busy (even p + refreshLen)
      SlotSim.slot k t n f { x with busy := e, next := p + 1 } (max c e)
    else (c, x)

/-- The queue with each segment moved to 128 cycles after the slot it had (R161). -/
def moved (k : Nat) (t : Option Sched) : SlotSim → List Seg → List Seg
  | _, [] => []
  | x, g :: gs =>
    let (c, x) := x.slot k t g.slots 8 (even (max x.busy (max g.arr g.after)))
    { g with after := c + 128 } :: moved k t { x with busy := c + 2 * g.slots } gs

/-- PARITY_ALERT_REPLAY (R161, R285): commands are reissued; the replay is counted, reported and charged. -/
def execParityAlertReplay (p n : Nat) (s : State) : Out :=
  let x := s.pc p n
  let q := moved (n % 64) ((s.pkg p).schedAt s.wtc) ⟨max s.wtc x.busy, x.bal, s.wtc + 1⟩ x.queue
  let x : PChan := { x with queue := q, replays := x.replays + 1 }
  let s := ((s.setPc x).notice p 4 n x.replays).kick p n
  match (s.pkg p).schedAt s.wtc with
  | none => .next s
  | some t =>
    let (l, sum) := charge (s.pkg p).slackH n 128
    let s := s.modPkg p fun y => { y with slackH := l }
    .next (if t.slkh < sum then s.then (.scheduleFault p 4 256 0 0) else s)

/-! ## Page walks (R147, R338) -/

/-- The read of the entry of the current level leaves the walker. -/
def State.levelRead (s : State) (w : Walk) : State :=
  let pa := w.table + 8 * pteIndex w.level w.page
  s.gatherAt w.pkg (s.wtc + 200) [2, w.quad] [(pa / 64 * 64, ⟨0, 0, 1, false, .walk w.quad pa⟩)]

/-- What a page or a failure gives to what waited for it; a request held for a walk leaves as if its pass had committed in the
next cycle (R147). -/
def State.walkDone (s : State) (w : Walk) (cause : Nat) (e : Option TlbEntry) : State :=
  let xl (va : Nat) (need : Perm) : Xl := match e with
    | none => .fault cause
    | some y => if y.grants need then .ok (y.pa + (va - y.page)) y.tgt else .fault cPRT
  match w.for_ with
  | .lanes fs => fs.foldl (fun s f => s.walkLanes f w.page cause e) s
  | .piece card _ dst => s.pieceWalked w.pkg w.core card w.page dst (if e.isNone then some cause else none)
  | .launch d slot hdr pos words => match s.team? w.team with
    | none => s.launchLate w d slot hdr pos (xl d .rd)
    | some t => s.launchWord t d hdr pos words (s.wtc + 1) (s.wtc + 1) (xl d .rd)
  | .hold c => if e.isSome then s else s.modCore w.pkg c fun x =>
      { x with run := x.run.map fun r => { r with failed := (w.page / 4096, cause) :: r.failed } }
  | .record i => match s.recordCtx i with
    | none => s
    | some x => match x.pend.find? (·.id = i) with
      | none => s
      | some r => s.issueRecord x r (xl (x.recordVa x.nextIndex) .wr)

/-- A walk ends; the walker takes its next in the cycle after (R338): the entry of key [0] says so until then. -/
def State.walkEnd (s : State) (w : Walk) (cause : Nat) (e : Option TlbEntry) : State :=
  let s : State := { s with walks := s.walks.filter (·.id ≠ w.id) }
  let s := s.at (s.wtc + 1) pBegin [0] (.pageWalk w.pkg w.quad)
  let s := match e with | some y => s.fillTlb w.pkg w.core y | none => s
  s.walkDone w cause e

/-- The walker of a quad has ended a walk in this cycle. -/
def State.walkerClosing (s : State) (p q : Nat) : Bool :=
  s.agenda.any fun e => e.cyc = s.wtc + 1 && e.key = [0] && e.ev = .pageWalk p q

/-- PAGE_WALK (R147, R338): an idle walker takes the first waiting walk of its quad. -/
def execPageWalk (p q : Nat) (s : State) : Out :=
  let mine := s.walks.filter fun w => w.pkg = p && w.quad = q
  if mine.any (·.started) || s.walkerClosing p q then .next s
  else match mine with
    | [] => .next s
    | w :: _ => match s.ctx? p w.ctx with
      | none => .next (s.walkEnd w cTRN none)
      | some x =>
        let w : Walk := { w with started := true, level := 3, table := x.root }
        let s : State := { s with walks := s.walks.map fun y => if y.id = w.id then w else y }
        .next (s.levelRead w)

/-- WALK_LEVEL_READ (R146, R338): the entry of a level is available; the next level starts, or the walk ends. -/
def execWalkLevelRead (p q : Nat) (s : State) : Out :=
  match s.walks.find? fun w => w.pkg = p && w.quad = q && w.started with
  | none => .next s
  | some w =>
    if w.entry = 2 ^ 64 then .next (s.walkEnd w cUCE none)
    else match readPte w.ctx w.level w.page w.entry with
      | .bad => .next (s.walkEnd w cTRN none)
      | .leaf e => .next (s.walkEnd w 0 (some e))
      | .next t =>
        let w : Walk := { w with level := w.level - 1, table := t }
        let s : State := { s with walks := s.walks.map fun y => if y.id = w.id then w else y }
        .next (s.levelRead w)

end Sys2Proof.Machine
end

