-- ==== Sys2Proof/Machine/IntWords.lean ====
section
/-! DEFINITION. Integer and logic words (R88 to R97): each meaning evaluates one word of the pass in `ev`. -/

namespace Sys2Proof.Machine

/-! ## The value functions -/

/-- The high half of a signed product (R90). -/
def mulhS (a b : Word) : Word := BitVec.ofInt 32 (a.toInt * b.toInt / 2 ^ 32)

/-- The high half of a natural product (R90). -/
def mulhN (a b : Word) : Word := BitVec.ofNat 32 (a.toNat * b.toNat / 2 ^ 32)

def minS (a b : Word) : Word := if a.toInt ≤ b.toInt then a else b
def maxS (a b : Word) : Word := if a.toInt ≤ b.toInt then b else a
def minN (a b : Word) : Word := if a.toNat ≤ b.toNat then a else b
def maxN (a b : Word) : Word := if a.toNat ≤ b.toNat then b else a

/-- Clamping to 32-bit signed range (R92). -/
def sat32 (x : Int) : Word := BitVec.ofInt 32 (max (min x (2 ^ 31 - 1)) (-(2 ^ 31)))

/-- The four-way signed byte dot product (R91). -/
def dot4 (a b : Word) : Int :=
  let f (k : Nat) : Int := ((a.extractLsb' (8 * k) 8).toInt) * ((b.extractLsb' (8 * k) 8).toInt)
  f 0 + f 1 + f 2 + f 3

/-- Quotient and remainder by a divisor that may be zero (R93). -/
def divS (a b : Word) : Word := if b = 0 then 0xFFFFFFFF else BitVec.ofInt 32 (a.toInt.tdiv b.toInt)
def remS (a b : Word) : Word :=
  if b = 0 then a else BitVec.ofInt 32 (a.toInt - a.toInt.tdiv b.toInt * b.toInt)
def divN (a b : Word) : Word := if b = 0 then 0xFFFFFFFF else BitVec.ofNat 32 (a.toNat / b.toNat)
def remN (a b : Word) : Word := if b = 0 then a else BitVec.ofNat 32 (a.toNat % b.toNat)

/-- Shifts by b[5:0] (R94). -/
def shl (a b : Word) : Word := a <<< (b.toNat % 64)
def shr (a b : Word) : Word := a >>> (b.toNat % 64)
def sar (a b : Word) : Word := a.sshiftRight (b.toNat % 64)
def rol (a b : Word) : Word := a.rotateLeft (b.toNat % 32)

/-- The unary operations (R95). -/
def iunVal (op : IunOp) (a : Word) : Word :=
  match op with
  | .not => ~~~a
  | .neg => -a
  | .abs => if a.msb then -a else a
  | .popc => BitVec.ofNat 32 ((List.range 32).filter (a.getLsbD ·)).length
  | .clz => BitVec.ofNat 32 (((List.range 32).reverse.takeWhile (fun k => !a.getLsbD k)).length)
  | .ctz => BitVec.ofNat 32 (((List.range 32).takeWhile (fun k => !a.getLsbD k)).length)
  | .brev => a.reverse
  | .sext8 => (a.extractLsb' 0 8).signExtend 32
  | .sext16 => (a.extractLsb' 0 16).signExtend 32
  | .zext8 => a &&& 0xFF
  | .zext16 => a &&& 0xFFFF
  | .bswap => a.extractLsb' 0 8 ++ a.extractLsb' 8 8 ++ a.extractLsb' 16 8 ++ a.extractLsb' 24 8

/-- The place and width of a bit field (R96). -/
def bfPos (b : Word) : Nat := b.toNat % 32
def bfWidth (b : Word) : Nat := min (b.toNat / 256 % 64) (32 - bfPos b)

def bfxN (a b : Word) : Word := BitVec.ofNat 32 (a.toNat / 2 ^ bfPos b % 2 ^ bfWidth b)
def bfxS (a b : Word) : Word :=
  if bfWidth b = 0 then 0 else (BitVec.ofNat (bfWidth b) (a.toNat / 2 ^ bfPos b)).signExtend 32
def bfi (a b d : Word) : Word :=
  let m : Word := BitVec.ofNat 32 ((2 ^ bfWidth b - 1) * 2 ^ bfPos b)
  (d &&& ~~~m) ||| ((a <<< bfPos b) &&& m)

/-- The division words trap when a guarded lane's divisor is zero and TRAPEN.IDZ is set (R93). -/
def divWord (w : FA) (f : Word → Word → Word) (t : Team) (c : Cur) : Cur :=
  let z := c.lanes.filter fun l => guardA t c w.pn w.pr l && srcOp t c w.b l = 0
  let c := if !z.isEmpty && t.csr.trapen.getLsbD 8 then c.raise cIDZ 0 0 (c.tlm z) else c
  bin w 16 f t c

/-! ## The meanings -/

/-- `mov` (R97). -/
def execMov (w : FU) (s : State) : Out := onCur s (un w 1 fun a => a)

/-- `sel` (R97): no guard; PR names the selecting predicate. -/
def execSel (w : FA) (s : State) : Out :=
  onCur s (aluWord w.nw false 7 w.d (usesLit [w.a, w.b]) 1 fun t c l =>
    (if guardA t c w.pn w.pr l then srcOp t c w.a l else srcOp t c w.b l, 0))

/-- `iadd` (R90). -/
def execIadd (w : FA) (s : State) : Out := onCur s (bin w 1 (· + ·))

/-- `isub` (R90). -/
def execIsub (w : FA) (s : State) : Out := onCur s (bin w 1 (· - ·))

/-- `imul` (R90). -/
def execImul (w : FA) (s : State) : Out := onCur s (bin w 1 (· * ·))

/-- `imulh.s` (R90). -/
def execImulhS (w : FA) (s : State) : Out := onCur s (bin w 1 mulhS)

/-- `imulh.n` (R90). -/
def execImulhN (w : FA) (s : State) : Out := onCur s (bin w 1 mulhN)

/-- `imad` (R91). -/
def execImad (w : FA) (s : State) : Out := onCur s (acc3 w fun a b d => a * b + d)

/-- `idiv.s` (R93). -/
def execIdivS (w : FA) (s : State) : Out := onCur s (divWord w divS)

/-- `idiv.n` (R93). -/
def execIdivN (w : FA) (s : State) : Out := onCur s (divWord w divN)

/-- `irem.s` (R93). -/
def execIremS (w : FA) (s : State) : Out := onCur s (divWord w remS)

/-- `irem.n` (R93). -/
def execIremN (w : FA) (s : State) : Out := onCur s (divWord w remN)

/-- `imin.s` (R90). -/
def execIminS (w : FA) (s : State) : Out := onCur s (bin w 1 minS)

/-- `imax.s` (R90). -/
def execImaxS (w : FA) (s : State) : Out := onCur s (bin w 1 maxS)

/-- `imin.n` (R90). -/
def execIminN (w : FA) (s : State) : Out := onCur s (bin w 1 minN)

/-- `imax.n` (R90). -/
def execImaxN (w : FA) (s : State) : Out := onCur s (bin w 1 maxN)

/-- `and` (R94). -/
def execAnd (w : FA) (s : State) : Out := onCur s (bin w 1 (· &&& ·))

/-- `or` (R94). -/
def execOr (w : FA) (s : State) : Out := onCur s (bin w 1 (· ||| ·))

/-- `xor` (R94). -/
def execXor (w : FA) (s : State) : Out := onCur s (bin w 1 (· ^^^ ·))

/-- `andn` (R94). -/
def execAndn (w : FA) (s : State) : Out := onCur s (bin w 1 (fun a b => a &&& ~~~b))

/-- `shl` (R94). -/
def execShl (w : FA) (s : State) : Out := onCur s (bin w 1 shl)

/-- `shr` (R94). -/
def execShr (w : FA) (s : State) : Out := onCur s (bin w 1 shr)

/-- `sar` (R94). -/
def execSar (w : FA) (s : State) : Out := onCur s (bin w 1 sar)

/-- `rol` (R94). -/
def execRol (w : FA) (s : State) : Out := onCur s (bin w 1 rol)

/-- `iun` (R95). -/
def execIun (w : FU) (op : IunOp) (s : State) : Out := onCur s (un w 1 (iunVal op))

/-- `bfx.s` (R96). -/
def execBfxS (w : FA) (s : State) : Out := onCur s (bin w 1 bfxS)

/-- `bfx.n` (R96). -/
def execBfxN (w : FA) (s : State) : Out := onCur s (bin w 1 bfxN)

/-- `bfi` (R96). -/
def execBfi (w : FA) (s : State) : Out := onCur s (acc3 w bfi)

/-- `iadd.sat` (R92). -/
def execIaddSat (w : FA) (s : State) : Out := onCur s (bin w 1 fun a b => sat32 (a.toInt + b.toInt))

/-- `isub.sat` (R92). -/
def execIsubSat (w : FA) (s : State) : Out := onCur s (bin w 1 fun a b => sat32 (a.toInt - b.toInt))

/-- `idp4` (R91). -/
def execIdp4 (w : FA) (s : State) : Out := onCur s (acc3 w fun a b d => d + BitVec.ofInt 32 (dot4 a b))

/-- `cardf` (R245): the format word the participating lanes agree on. The reference is the first participant's value
of the first pass that has one; a lane that differs traps FDV. The push waits for the last pass. -/
def execCardf (w : FG) (s : State) : Out :=
  onCur s fun t c =>
    let part := c.lanes.filter (guardA t c w.pn w.pr)
    let old := (c.ref.find? (·.1 = c.pos)).map (·.2)
    let ref := old <|> part.head?.map fun l => laneOp t c w.a l
    let c' := match ref with
      | none => c
      | some r =>
        match part.filter fun l => laneOp t c w.a l ≠ r with
        | [] => if old.isSome then c else { c with ref := c.ref ++ [(c.pos, r)] }
        | l :: z => c.raise cFDV r (laneOp t c w.a l) (maskOf (l :: z))
    ((c'.act (.cardf c.pos ref)).shift (c.lanes.map fun _ => ref.getD 0)).past (usesLit [w.a]) 1

end Sys2Proof.Machine
end

