-- ==== Sys2Proof/Machine/PredWords.lean ====
section
/-! DEFINITION. Compares, predicates, `getl` and the cross-lane words (R98 to R109). -/

namespace Sys2Proof.Machine

/-- `icmp.eq` (R98). -/
def execIcmpEq (w : FC) (s : State) : Out := onCur s (cmp w fun a b => (decide (a = b), 0))

/-- `icmp.ne` (R98). -/
def execIcmpNe (w : FC) (s : State) : Out := onCur s (cmp w fun a b => (decide (a ≠ b), 0))

/-- `icmp.lt.s` (R98). -/
def execIcmpLtS (w : FC) (s : State) : Out := onCur s (cmp w fun a b => (decide (a.toInt < b.toInt), 0))

/-- `icmp.le.s` (R98). -/
def execIcmpLeS (w : FC) (s : State) : Out := onCur s (cmp w fun a b => (decide (a.toInt ≤ b.toInt), 0))

/-- `icmp.lt.n` (R98). -/
def execIcmpLtN (w : FC) (s : State) : Out := onCur s (cmp w fun a b => (decide (a.toNat < b.toNat), 0))

/-- `icmp.le.n` (R98). -/
def execIcmpLeN (w : FC) (s : State) : Out := onCur s (cmp w fun a b => (decide (a.toNat ≤ b.toNat), 0))

/-- `plop` (R99): TBL[2x + y]. -/
def execPlop (w : FP) (s : State) : Out :=
  onCur s (predWord w.nw w.pn w.pr .set w.q false fun t c l =>
    (w.tbl.getLsbD (2 * (predA t c w.x l).toNat + (predA t c w.y l).toNat), 0))

/-- The predicates as a number, bit 7 for p7 (R100). -/
def predBits (f : BitVec 3 → Bool) : Word :=
  ((List.range 8).foldl (fun x k => x + if f (BitVec.ofNat 3 k) then 2 ^ k else 0) 0 : Nat)

/-- `ptov` (R100). -/
def execPtov (w : FD) (s : State) : Out :=
  onCur s (aluWord w.nw w.pn w.pr w.d false 1 fun t c l => (predBits fun q => predA t c q l, 0))

/-- `vtop` (R100). -/
def execVtop (w : FC) (s : State) : Out := onCur s (cmp w fun a b => (decide (a &&& b ≠ 0), 0))

/-- The value of A in lane k, read across lanes (R102). -/
def crossA (t : Team) (c : Cur) (code : BitVec 7) (k : Nat) : Word := laneOp t c code k

/-- A shuffle: lane 32w + j reads lane 32w + s for s from 0 to 31, else itself (R102). -/
def shuffle (w : FA) (src : Nat → Nat → Option Nat) : Team → Cur → Cur :=
  aluWord w.nw w.pn w.pr w.d (usesLit [w.a, w.b]) 2 fun t c l =>
    match src (l % 32) (laneOp t c w.b l).toNat with
    | some p => if p < 32 then (crossA t c w.a (l / 32 * 32 + p), 0) else (crossA t c w.a l, 0)
    | none => (crossA t c w.a l, 0)

/-- `shfi` (R102). -/
def execShfi (w : FA) (s : State) : Out := onCur s (shuffle w fun _ n => some n)

/-- `shfu` (R102). -/
def execShfu (w : FA) (s : State) : Out := onCur s (shuffle w fun j n => if n ≤ j then some (j - n) else none)

/-- `shfd` (R102). -/
def execShfd (w : FA) (s : State) : Out := onCur s (shuffle w fun j n => some (j + n))

/-- `shfx` (R102). -/
def execShfx (w : FA) (s : State) : Out := onCur s (shuffle w fun j n => some (j ^^^ n))

/-- `tshfi` (R105): any lane of the team. -/
def execTshfi (w : FA) (s : State) : Out :=
  onCur s (aluWord w.nw w.pn w.pr w.d (usesLit [w.a, w.b]) 40 fun t c l =>
    let n := (laneOp t c w.b l).toNat
    (crossA t c w.a (if n < 32 * t.pl.warps then n else l), 0))

/-- `vote` (R103): over the guarded lanes of the pass, which share one home warp. -/
def execVote (w : FD) (neg : Bool) (q : BitVec 3) (mode : VoteMode) (s : State) : Out :=
  onCur s fun t c =>
    let part := c.lanes.filter (guardA t c w.pn w.pr)
    let yes := part.filter fun l => t.p q l != neg
    let d : Word := match mode with
      | .ballot => ((yes.foldl (fun m l => m + 2 ^ (l % 32)) 0 : Nat) : Word)
      | .all => if yes.length = part.length then 1 else 0
      | .any => if yes.isEmpty then 0 else 1
      | .count => (yes.length : Word)
    aluWord w.nw w.pn w.pr w.d false 2 (fun _ _ _ => (d, 0)) t c

/-- The integer operations of scans and reductions and their identities (R106). -/
def scanI (op : ScanIOp) (a b : Word) : Word :=
  match op with
  | .add => a + b
  | .minS => if a.toInt ≤ b.toInt then a else b
  | .maxS => if a.toInt ≤ b.toInt then b else a
  | .minN => if a.toNat ≤ b.toNat then a else b
  | .maxN => if a.toNat ≤ b.toNat then b else a
  | .and => a &&& b
  | .or => a ||| b
  | .xor => a ^^^ b

def scanIId : ScanIOp → Word
  | .add => 0 | .minS => 0x7FFFFFFF | .maxS => 0x80000000 | .minN => 0xFFFFFFFF | .maxN => 0 | .and => 0xFFFFFFFF
  | .or => 0 | .xor => 0

/-- The floating operations under FRM (R106): value and flags. -/
def scanF (op : ScanFOp) (mode : RMode) (a b : Word) : Word × Nat :=
  match op with
  | .add => fAdd mode a b
  | .min => fMinMax false a b
  | .max => fMinMax true a b

def scanFId : ScanFOp → Word
  | .add => 0x80000000 | .min => 0x7F800000 | .max => 0xFF800000

/-- The running results of a scan (R107): the inclusive value of each participant and the flags of the step that made
it; `exclusive` performs no step for the last one. -/
def scanRun (op : Word → Word → Word × Nat) : Option Word → List (Nat × Word) → List (Nat × Word × Nat)
  | _, [] => []
  | none, (l, x) :: r => (l, x, 0) :: scanRun op (some x) r
  | some a, (l, x) :: r => (l, (op a x).1, (op a x).2) :: scanRun op (some (op a x).1) r

/-- The exclusive results: each participant takes the inclusive value of the one before, with that step's flags. -/
def shiftRun (ident : Word) : List (Nat × Word × Nat) → List (Nat × Word × Nat)
  | [] => []
  | (l, x, f) :: r => (l, ident, 0) :: go (x, f) r
where
  go : Word × Nat → List (Nat × Word × Nat) → List (Nat × Word × Nat)
    | _, [] => []
    | p, (l, x, f) :: r => (l, p.1, p.2) :: go (x, f) r

/-- One level of the reduction tree over positions, absent ones passing their neighbour through (R107). -/
def treeLevel (op : Word → Word → Word × Nat) : List (Option Word) → List (Option Word) × Nat
  | a :: b :: r =>
    let (l, f) := treeLevel op r
    match a, b with
    | some x, some y => (some (op x y).1 :: l, (op x y).2 ||| f)
    | some x, none => (some x :: l, f)
    | none, y => (y :: l, f)
  | l => (l, 0)

/-- `n` levels of the tree: the value at its root and the flags of every step. -/
def treeRun (op : Word → Word → Word × Nat) : Nat → List (Option Word) → Option Word × Nat
  | 0, l => (l.headD none, 0)
  | n + 1, l =>
    let (l', f) := treeLevel op l
    let (r, f') := treeRun op n l'
    (r, f ||| f')

/-- A team-wide word (R104 to R108): the participants with their inputs give each participant a result; flags and
traps are the word's, so a trap marks every participant. -/
def teamWord (w : FU) (run : RMode → List (Nat × Word) → List (Nat × Word × Nat)) (t : Team) (c : Cur) : Cur :=
  let part := c.lanes.filter (guardA t c w.pn w.pr)
  let res := run (rmodeOf t.csr.frm) (part.map fun l => (l, laneOp t c w.a l))
  let raised := res.foldl (fun x r => x ||| r.2.2) 0
  let en := t.csr.trapen.toNat % 32
  let c' := if raised &&& en ≠ 0 then
      c.raise cFPE (BitVec.ofNat 32 (raised + 256 * (raised &&& en))) 0 (maskOf part)
    else if raised = 0 then c else c.act (.fflags raised)
  let c' := writeD c' w.nw w.d (res.map fun r => (r.1, r.2.1))
  let latch := c.lanes.map fun l => match res.find? (·.1 = l) with | some r => r.2.1 | none => dOld t c w.d l
  (c'.shift latch).past (usesLit [w.a]) 40

/-- The reduction: every participant takes the root of the tree over the 1,024 positions (R107). -/
def reduce (op : Word → Word → Word × Nat) (part : List (Nat × Word)) : List (Nat × Word × Nat) :=
  let leaves := (List.range 1024).map fun j => (part.find? (·.1 = j)).map (·.2)
  let (r, f) := treeRun op 10 leaves
  part.map fun p => (p.1, r.getD 0, f)

/-- The results of a floating word, every NaN as 0x7FC0_0000 (R108). -/
def oneNaN (l : List (Nat × Word × Nat)) : List (Nat × Word × Nat) :=
  l.map fun r => if (f32 r.2.1).isNaN then (r.1, canonNaN, r.2.2) else r

/-- `scan.i` (R106, R107). -/
def execScanI (w : FU) (op : ScanIOp) (excl : Bool) (s : State) : Out :=
  onCur s (teamWord w fun _ part =>
    let r := scanRun (fun a b => (scanI op a b, 0)) none part
    if excl then shiftRun (scanIId op) r else r)

/-- `scan.f` (R106 to R108). -/
def execScanF (w : FU) (op : ScanFOp) (excl : Bool) (s : State) : Out :=
  onCur s (teamWord w fun mode part =>
    let r := scanRun (scanF op mode) none part
    oneNaN (if excl then shiftRun (scanFId op) r else r))

/-- `tred.i` (R106, R107). -/
def execTredI (w : FU) (op : ScanIOp) (s : State) : Out :=
  onCur s (teamWord w fun _ part => reduce (fun a b => (scanI op a b, 0)) part)

/-- `tred.f` (R106 to R108). -/
def execTredF (w : FU) (op : ScanFOp) (s : State) : Out :=
  onCur s (teamWord w fun mode part => oneNaN (reduce (scanF op mode) part))

/-- The values of `getl` (R101). -/
def getlVal (s : State) (t : Team) (op : GetlOp) (l : Nat) : Nat :=
  let d := (s.gang? t.pl.gang).map (·.desc)
  match op with
  | .lid => l
  | .homeWarp => l / 32
  | .laneInWarp => l % 32
  | .teamInBlock => t.pl.tib
  | .blockIndex => t.pl.block
  | .core => t.pl.core
  | .quad => t.pl.core / 4
  | .die => t.pl.core / 128
  | .package => (s.pkg t.pl.pkg).num
  | .teamsPerBlock => (d.map (·.teams)).getD 1
  | .lanesPerTeam => 32 * t.pl.warps
  | .blocksInGrid => (d.map (·.blocks)).getD 1

/-- `getl` (R101). -/
def execGetl (w : FD) (op : GetlOp) (s : State) : Out :=
  onCur s (aluWord w.nw w.pn w.pr w.d false 1 fun t _ l => (BitVec.ofNat 32 (getlVal s t op l), 0))

end Sys2Proof.Machine
end

