-- ==== Sys2Proof/Machine/Dry.lean ====
section
/-! DEFINITION. A LANE or UNIF pass evaluated without its commit. The checks at clause start read the pushes of a clause
from it (R26, R36, R64, R231). -/

namespace Sys2Proof.Machine

/-- What a word of a LANE or UNIF clause does to the pass in `ev`; any other instruction leaves the pass. -/
def aluWordExec : Instr → State → Out
  | .mov w, s => execMov w s
  | .sel w, s => execSel w s
  | .iadd w, s => execIadd w s
  | .isub w, s => execIsub w s
  | .imul w, s => execImul w s
  | .imulhS w, s => execImulhS w s
  | .imulhN w, s => execImulhN w s
  | .imad w, s => execImad w s
  | .idivS w, s => execIdivS w s
  | .idivN w, s => execIdivN w s
  | .iremS w, s => execIremS w s
  | .iremN w, s => execIremN w s
  | .iminS w, s => execIminS w s
  | .imaxS w, s => execImaxS w s
  | .iminN w, s => execIminN w s
  | .imaxN w, s => execImaxN w s
  | .and w, s => execAnd w s
  | .or w, s => execOr w s
  | .xor w, s => execXor w s
  | .andn w, s => execAndn w s
  | .shl w, s => execShl w s
  | .shr w, s => execShr w s
  | .sar w, s => execSar w s
  | .rol w, s => execRol w s
  | .iun w o, s => execIun w o s
  | .bfxS w, s => execBfxS w s
  | .bfxN w, s => execBfxN w s
  | .bfi w, s => execBfi w s
  | .iaddSat w, s => execIaddSat w s
  | .isubSat w, s => execIsubSat w s
  | .idp4 w, s => execIdp4 w s
  | .cardf w, s => execCardf w s
  | .icmpEq w, s => execIcmpEq w s
  | .icmpNe w, s => execIcmpNe w s
  | .icmpLtS w, s => execIcmpLtS w s
  | .icmpLeS w, s => execIcmpLeS w s
  | .icmpLtN w, s => execIcmpLtN w s
  | .icmpLeN w, s => execIcmpLeN w s
  | .fcmpEq w, s => execFcmpEq w s
  | .fcmpLt w, s => execFcmpLt w s
  | .fcmpLe w, s => execFcmpLe w s
  | .fcmpUn w, s => execFcmpUn w s
  | .plop w, s => execPlop w s
  | .ptov w, s => execPtov w s
  | .vtop w, s => execVtop w s
  | .shfi w, s => execShfi w s
  | .shfu w, s => execShfu w s
  | .shfd w, s => execShfd w s
  | .shfx w, s => execShfx w s
  | .tshfi w, s => execTshfi w s
  | .vote w n q m, s => execVote w n q m s
  | .scanI w o e, s => execScanI w o e s
  | .scanF w o e, s => execScanF w o e s
  | .tredI w o, s => execTredI w o s
  | .tredF w o, s => execTredF w o s
  | .getl w o, s => execGetl w o s
  | .fadd w, s => execFadd w s
  | .fsub w, s => execFsub w s
  | .fmul w, s => execFmul w s
  | .ffma w, s => execFfma w s
  | .fmin w, s => execFmin w s
  | .fmax w, s => execFmax w s
  | .funW w o, s => execFun w o s
  | .cvt w d sa r x, s => execCvt w d sa r x s
  | _, s => .next s

/-- The pass in `c` after its next word, where it has one that decodes. -/
def dryWord (s : State) (c : Cur) : Option Cur :=
  match c.words with
  | [] => none
  | w :: _ =>
    match decode c.cls w with
    | .error _ => none
    | .ok i =>
      match aluWordExec i (s.setEv (some c)) with
      | .next s' => s'.ev
      | _ => none

/-- The pass in `c` after all its words. -/
def dryPass (s : State) : Nat → Cur → Cur
  | 0, c => c
  | n + 1, c => match dryWord s c with | some c' => dryPass s n c' | none => c

/-- The queue pushes of a UNIF pass in word order: position, queue, value (R36). -/
def dryPushes (s : State) : Nat → Cur → List (Nat × Nat × Word)
  | 0, _ => []
  | n + 1, c =>
    match dryWord s c with
    | none => []
    | some c' =>
      ((c'.acts.drop c.acts.length).filterMap fun a => match a with | .push pos q x => some (pos, q, x) | _ => none) ++
        dryPushes s n c'

end Sys2Proof.Machine
end

