-- ==== Sys2Proof/Machine/SysWords.lean ====
section
/-! DEFINITION. SYS words (R24, R192, R317 to R323, R328): reads are made in the pass, everything else at its commit. -/

namespace Sys2Proof.Machine

/-- A guarded SYS word of one cycle (R317). -/
def sysWord (pn : Bool) (pr : BitVec 3) (lit : Bool) (f : Team → Cur → Cur) (t : Team) (c : Cur) : Cur :=
  (if guardU t pn pr then f t c else c).past lit 1

/-- A read of WTCLO into a register: the cycle in which the word issues, with the high half captured (R24). -/
def readWtclo (reg : Nat) (c : Cur) : Cur :=
  let now := c.first + c.off
  let hi : Word := BitVec.ofNat 32 (now / 2 ^ 32)
  { (c.act (.ureg (uix c.win reg) (BitVec.ofNat 32 now))).act (.shadow hi) with shadow := some hi }

/-- WTCLO_READ (R24). -/
def execWtcloRead (reg : Nat) (s : State) : Out := onCur s fun _ c => readWtclo reg c

/-- WTCHI (R24): the pass's capture, else the team's shadow, else the count as it stands. -/
def wtcHi (t : Team) (c : Cur) : Word :=
  (c.shadow <|> t.shadow).getD (BitVec.ofNat 32 ((c.first + c.off) / 2 ^ 32))

/-- A CSR as a word of the pass reads it (R24, R318). -/
def csrValue (s : State) (t : Team) (c : Cur) (n : Nat) : Word :=
  if n = 0x010 then BitVec.ofNat 32 (c.first + c.off) else if n = 0x011 then wtcHi t c else csrRead s t n

/-- The PRT of a word outside privileged code: TVAL holds its CSR field (R308, R318). -/
def Cur.prv (c : Cur) (csr : Nat) : Cur := c.raise cPRT (BitVec.ofNat 32 csr) 0 0

/-- `csrr` (R318). -/
def execCsrr (w : FY) (s : State) : Out :=
  onCur s (sysWord w.pn w.pr false fun t c =>
    let n := w.csr.toNat
    if csrPriv n && !s.priv t then c.prv n
    else if n = 0x010 then readWtclo w.reg.toNat c
    else c.act (.ureg (uix c.win w.reg.toNat) (csrValue s t c n)))

/-- The write of a CSR by a word (R318). -/
def csrStore (s : State) (kind : CsrKind) (w : FY) : Team → Cur → Cur :=
  sysWord w.pn w.pr (usesLit [w.reg]) fun t c =>
    let n := w.csr.toNat
    if csrPriv n && !s.priv t then c.prv n
    else c.act (.csr n kind (csrValue s t c n) (unifOp t c w.reg))

/-- `csrw` (R318). -/
def execCsrw (w : FY) (s : State) : Out := onCur s (csrStore s .write w)

/-- `csrs` (R318). -/
def execCsrs (w : FY) (s : State) : Out := onCur s (csrStore s .set w)

/-- `csrc` (R318). -/
def execCsrc (w : FY) (s : State) : Out := onCur s (csrStore s .clear w)

/-- `trap` (R319). -/
def execTrapW (w : FK) (s : State) : Out :=
  onCur s (sysWord w.pn w.pr false fun _ c => c.act (.trap cSWT w.code.toNat))

/-- `dbrk` (R319). -/
def execDbrk (w : FK) (s : State) : Out :=
  onCur s (sysWord w.pn w.pr false fun _ c => c.act (.trap cDBG w.code.toNat))

/-- `tret` (R320): level 0 traps; the frame is read, and with it the rest is checked, at the commit (entry 38). -/
def execTret (w : FN) (s : State) : Out :=
  onCur s (sysWord w.pn w.pr false fun t c => if t.tl = 0 then c.ill 18 else c.act (.tret c.pos))

/-- `kill` (R321). -/
def execKill (w : FQ) (s : State) : Out :=
  onCur s (sysWord w.pn w.pr (usesLit [w.reg]) fun t c =>
    let k := unifOp t c w.reg
    if k.getLsbD 31 && !s.priv t then c.prv 0 else c.act (.kill k))

/-- Register n of the window, as SYS words name it. -/
def sysReg (t : Team) (c : Cur) (n : Nat) : Nat := (t.g (uix c.win n)).toNat

/-- `shift` (R328). -/
def execShiftW (w : FQ) (s : State) : Out :=
  onCur s (sysWord w.pn w.pr false fun t c =>
    let r := w.reg.toNat
    if !s.priv t then c.prv 0
    else c.act (.shift (sysReg t c (r + 1) * 2 ^ 32 + sysReg t c r) (sysReg t c (r + 2) % 65536)
      (sysReg t c (r + 3) % 65536) (uix c.win (r + 3))))

/-- `wdog` (R323). -/
def execWdog (w : FQ) (s : State) : Out :=
  onCur s (sysWord w.pn w.pr (usesLit [w.reg]) fun t c => c.act (.wdog (unifOp t c w.reg).toNat))

/-- `migdrain` (R192). -/
def execMigdrain (w : FQ) (s : State) : Out :=
  onCur s (sysWord w.pn w.pr false fun t c =>
    if !s.priv t then c.prv 0 else c.act (.migdrain (uix c.win w.reg.toNat) (t.g (uix c.win w.reg.toNat))))

end Sys2Proof.Machine
end

