-- ==== Sys2Proof/Machine/Check.lean ====
section
/-! DEFINITION. The checks made when a clause issues, before its first pass (R40, R41, R43, R46, R53, R63, R64, R74, R317),
and the cost of its words (R44, R55). -/

namespace Sys2Proof.Machine

/-! ## The header (R31) -/

/-- A clause header's fields. -/
structure Hdr where
  (cnt cls win eng wsb : Nat) (wqs wst : Bool) (stall : Nat)
  deriving DecidableEq, Repr

def hdrOf (x : Nat) : Hdr :=
  ⟨x / 2 ^ 28 % 16, x / 2 ^ 25 % 8, x / 2 ^ 19 % 64, x / 2 ^ 16 % 8, x / 2 ^ 12 % 16, x / 2 ^ 11 % 2 = 1, x / 2 ^ 10 % 2 = 1,
    x % 1024⟩

def clsOf : Nat → Cls
  | 0 => .lane | 1 => .unif | 2 => .mem | 3 => .sync | 4 => .flow | 5 => .sys | 6 => .card | _ => .res

/-- The detail a header raises, if any: class 7, else ENG or WIN (R32, R63). -/
def hdrBad (h : Hdr) : Option Nat :=
  if h.cls = 7 then some 1
  else if (if h.cls = 6 then 4 ≤ h.eng || h.win ≠ 0 else h.eng ≠ 0) then some 2
  else none

/-! ## What a word names -/

/-- An operand of a word: a code of the class, v n, or uniform register n of the window. -/
inductive Use where
  | code (c : BitVec 7)
  | vreg (n : Nat)
  | ureg (n : Nat)
  deriving DecidableEq, Repr

/-- v n to v (n + k - 1). -/
def vregs (d : BitVec 7) (k : Nat) : List Use := (List.range k).map fun i => .vreg (d.toNat + i)

/-- Register n of the window and the k - 1 after it. -/
def uregs (d : BitVec 7) (k : Nat) : List Use := (List.range k).map fun i => .ureg (d.toNat + i)

/-- The base pair: the low register of a local word, both of a global or remote one (R40). -/
def baseUse (bp : BitVec 2) (both : Bool) : List Use :=
  .code (BitVec.ofNat 7 (112 + 2 * bp.toNat)) :: if both then [.code (BitVec.ofNat 7 (113 + 2 * bp.toNat))] else []

/-- Registers of a 64-bit access or fewer. -/
def szRegs (sz : BitVec 2) : Nat := if sz = 3 then 2 else 1

def useLoad (w : FM) (both : Bool) : List Use := vregs w.d (szRegs w.sz) ++ .code w.a :: baseUse w.bp both
def useStore (w : FM) (both : Bool) : List Use :=
  (if w.sz = 3 then vregs w.d 2 else [.code w.d]) ++ .code w.a :: baseUse w.bp both
def useVec (w : FV) (both : Bool) : List Use := vregs w.d 4 ++ .code w.a :: baseUse w.bp both
def useAt (w : FT) (both : Bool) : List Use :=
  vregs w.d (if w.aop = .cas then 2 else 1) ++ .code w.a :: baseUse w.bp both
def useAtn (w : FT) (both : Bool) : List Use := .code w.d :: .code w.a :: baseUse w.bp both

/-- The operands a word names: destination, sources, base (R40). -/
def uses : Instr → List Use
  | .mov w | .iun w _ | .funW w _ | .cvt w _ _ _ _ | .scanI w _ _ | .scanF w _ _ | .tredI w _ | .tredF w _ =>
    [.code w.d, .code w.a]
  | .sel w | .iadd w | .isub w | .imul w | .imulhS w | .imulhN w | .imad w | .idivS w | .idivN w | .iremS w | .iremN w
  | .iminS w | .imaxS w | .iminN w | .imaxN w | .and w | .or w | .xor w | .andn w | .shl w | .shr w | .sar w
  | .rol w | .bfxS w | .bfxN w | .bfi w | .iaddSat w | .isubSat w | .idp4 w | .shfi w | .shfu w | .shfd w | .shfx w
  | .tshfi w | .fadd w | .fsub w | .fmul w | .ffma w | .fmin w | .fmax w => [.code w.d, .code w.a, .code w.b]
  | .icmpEq w | .icmpNe w | .icmpLtS w | .icmpLeS w | .icmpLtN w | .icmpLeN w | .fcmpEq w | .fcmpLt w | .fcmpLe w
  | .fcmpUn w | .vtop w => [.code w.a, .code w.b]
  | .cardf w | .tflush w | .brx w | .call w => [.code w.a]
  | .ptov w | .vote w _ _ _ | .getl w _ => [.code w.d]
  | .ldlN w | .ldlS w => useLoad w false
  | .ldgN w | .ldgS w | .ldrN w | .ldrS w => useLoad w true
  | .stl w => useStore w false
  | .stg w | .str w => useStore w true
  | .ldlv w | .stlv w => useVec w false
  | .ldgv w | .stgv w => useVec w true
  | .strZ w => .code w.a :: baseUse w.bp true
  | .atl w => useAt w false
  | .atg w | .atr w => useAt w true
  | .atln w => useAtn w false
  | .atgn w | .atrn w => useAtn w true
  | .accrd w | .accwr w => [.code w.d, .code w.a] ++ baseUse w.bp false
  | .binit w | .barv w | .bexp w | .bcred w => [.code w.a, .code w.b]
  | .testph w => [.code w.a, .code w.b]
  | .waitph w => .code w.a :: if w.b.toNat ≤ 110 then uregs w.b 2 else [.code w.b]
  | .waitc w | .launch w => uregs w.a 2
  | .csrr w | .csrw w | .csrs w | .csrc w => [.code w.reg]
  | .kill w | .wdog w | .migdrain w => [.code w.reg]
  | .shiftW w => uregs w.reg 4
  | _ => []

/-- A code of the word is 122 (R41). -/
def hasLit (i : Instr) : Bool := (uses i).any fun u => match u with | .code c => c.toNat = 122 | _ => false

/-- The farthest latch the word names, 0 for none (R46). -/
def latchUse (i : Instr) : Nat :=
  (uses i).foldl (fun m u => match u with | .code c => max m (c.toNat - 123) | _ => m) 0

/-- A register the word names that its team does not have: TVAL of REG (R40, R308). -/
def regBad (t : Team) (cls : Cls) (win : Nat) (i : Instr) : Option Word :=
  let g (n : Nat) : Option Word := if t.pl.uregs ≤ n then some (BitVec.ofNat 32 (n + 512)) else none
  let v (n : Nat) : Option Word := if t.pl.vregs ≤ n then some (BitVec.ofNat 32 n) else none
  (uses i).findSome? fun u =>
    match u with
    | .vreg n => v n
    | .ureg n => g (uix win n)
    | .code c =>
      if cls = .lane || cls = .mem then
        (if c.toNat < 112 then v c.toNat else if c.toNat < 120 then g (8 * win + (c.toNat - 112)) else none)
      else if c.toNat < 112 then g (uix win c.toNat)
      else none

/-! ## Places in the clause -/

/-- Words that see every lane of the team (R43). -/
def teamWide : Instr → Bool
  | .tshfi _ | .scanI _ _ _ | .scanF _ _ _ | .tredI _ _ | .tredF _ _ => true
  | _ => false

/-- Words that make the sweep uncompacted (R42). -/
def crossLane : Instr → Bool
  | .shfi _ | .shfu _ | .shfd _ | .shfx _ | .vote _ _ _ _ => true
  | _ => false

/-- Words that must be the last of their clause (R53, R317). -/
def mustBeLast : Instr → Bool
  | .bra _ | .brp _ | .brq _ | .brx _ | .call _ | .ret _ | .join _ | .brk _ _ | .exit _ => true
  | .trapW _ | .tret _ | .kill _ | .shiftW _ | .dbrk _ => true
  | _ => false

/-- The cost of a word in a pass, its literal apart (R55). -/
def costOf : Instr → Nat
  | .idivS _ | .idivN _ | .iremS _ | .iremN _ => 16
  | .shfi _ | .shfu _ | .shfd _ | .shfx _ | .vote _ _ _ _ => 2
  | .tshfi _ | .scanI _ _ _ | .scanF _ _ _ | .tredI _ _ | .tredF _ _ => 40
  | .funW _ _ => 6
  | _ => 1

/-- An instruction word of a clause: its position, its place among the instruction words, what it is. -/
structure Placed where
  (pos nth : Nat) (i : Instr)
  deriving DecidableEq, Repr

/-- The words of a clause that decode, in order; a word that does not ends the list. -/
def placed (cls : Cls) : Nat → Nat → List Word → List Placed
  | _, _, [] => []
  | pos, nth, [w] =>
    match decode cls w with
    | .ok i => [⟨pos, nth, i⟩]
    | .error _ => []
  | pos, nth, w :: x :: r =>
    match decode cls w with
    | .ok i => ⟨pos, nth, i⟩ :: if hasLit i then placed cls (pos + 2) (nth + 1) r else placed cls (pos + 1) (nth + 1) (x :: r)
    | .error _ => []

/-- S of R44: the cost of a pass. -/
def passCost (l : List Placed) : Nat := l.foldl (fun n p => n + costOf p.i + if hasLit p.i then 1 else 0) 0

/-! ## The checks in word order (R64) -/

/-- The details of a word alone and of its place: the least, if any. `rest` holds the words after it. -/
def wordDetail (cls : Cls) (nth : Nat) (w : Word) (rest : List Word) : Option Nat :=
  let own := match decode cls w with | .ok _ => none | .error r => some r.detail
  let place := match (parse cls w).2 with
    | none => none
    | some i =>
      let last := (if hasLit i then rest.drop 1 else rest).isEmpty
      if hasLit i && rest.isEmpty then some 7
      else if (mustBeLast i && !last) || (teamWide i && (nth ≠ 0 || !last)) || nth < latchUse i then some 8
      else none
  match own, place with
  | some a, some b => some (min a b)
  | some a, none => some a
  | none, b => b

/-- The first failure among the words of a clause: position, cause, TVAL. FLOW words and `tret` are evaluated on the
stack the words before them leave (R74). -/
def scanWords (s : State) (t : Team) : Nat → Cur → Option (Nat × Nat × Word)
  | 0, _ => none
  | n + 1, c =>
    match c.words with
    | [] => none
    | w :: rest =>
      match wordDetail c.cls c.nth w rest with
      | some d => some (c.pos, cILL, BitVec.ofNat 32 d)
      | none =>
        match decode c.cls w with
        | .error _ => none
        | .ok i =>
          let dyn (o : Out) : Cur := match o with
            | .next s' => (match s'.ev with | some c' => c' | none => c)
            | _ => c
          let at_ := s.setEv (some c)
          let c' := match i with
            | .nop w => dyn (execNop w at_)
            | .bra w => dyn (execBra w at_)
            | .brp w => dyn (execBrp w at_)
            | .brq w => dyn (execBrq w at_)
            | .brx w => dyn (execBrx w at_)
            | .call w => dyn (execCall w at_)
            | .ret w => dyn (execRet w at_)
            | .rcv w => dyn (execRcv w at_)
            | .join w => dyn (execJoin w at_)
            | .brk w k => dyn (execBrk w k at_)
            | .exit w => dyn (execExit w at_)
            | .tret w => dyn (execTret w at_)
            | _ => c.past (hasLit i) 1
          match c'.trap, regBad t c.cls c.win i with
          | some p, _ => some (c.pos, p.cause, p.tval)
          | none, some v => some (c.pos, cREG, v)
          | none, none => scanWords s t n c'

end Sys2Proof.Machine
end

