-- ==== Sys2Proof/Machine/MemWords.lean ====
section
/-! DEFINITION. Memory words (R163 to R168, R190): each meaning forms the addresses of its guarded lanes, makes the
precise checks and adds the word's request to the pass in `ev`; the request leaves at the commit (R45). -/

namespace Sys2Proof.Machine

/-- The access size of SZ (R51). -/
def szBytes (sz : BitVec 2) : Nat := 2 ^ sz.toNat

/-- gl of base pair bp (R163). -/
def baseLo (t : Team) (c : Cur) (bp : BitVec 2) : Word := t.g (8 * c.win + 2 * bp.toNat)

/-- gh of base pair bp (R163). -/
def baseHi (t : Team) (c : Cur) (bp : BitVec 2) : Word := t.g (8 * c.win + 2 * bp.toNat + 1)

/-- The lanes of the pass whose guard is true (R51). -/
def guarded (t : Team) (c : Cur) (pn : Bool) (pr : BitVec 3) : List Nat := c.lanes.filter fun l => t.p pr l != pn

/-- The local address of a lane (R163). -/
def localAddr (t : Team) (c : Cur) (bp : BitVec 2) (sc : Nat) (a : BitVec 7) (l : Nat) : Int :=
  (baseLo t c bp).toNat + (laneOp t c a l).toInt * 2 ^ sc

/-- The global address of a lane (R163). -/
def globalAddr (t : Team) (c : Cur) (bp : BitVec 2) (sc : Nat) (a : BitVec 7) (l : Nat) : Nat :=
  ((((baseHi t c bp).toNat % 2 ^ 24 * 2 ^ 32 + (baseLo t c bp).toNat : Nat) + (laneOp t c a l).toInt * 2 ^ sc) %
    (2 ^ 56 : Int)).toNat

/-- The greatest number of distinct words requested from one bank (R148). -/
def conflict (bank : Nat → Nat) (ws : List Nat) : Nat :=
  let d := distinct ws
  (List.range 32).foldl (fun m b => max m (d.filter (bank · = b)).length) 1

/-- The LS bank of a word (R148). -/
def lsBank (w : Nat) : Nat := (w % 32) ^^^ (w / 32 % 32)

/-- The words an access of n bytes touches. -/
def wordsOf (off n : Nat) : List Nat := (List.range (max 1 (n / 4))).map (off / 4 + ·)

/-- The lengthening of the pass by a word of conflict degree d (R44, R148). -/
def Cur.lengthen (c : Cur) (d : Nat) : Cur := { c with extra := c.extra + (d - 1) }

/-- Store data of a lane: one register for up to 32 bits, consecutive registers beyond (R165). -/
def storeData (t : Team) (c : Cur) (n : Nat) (d : BitVec 7) (l : Nat) : Nat :=
  if n ≤ 4 then (laneOp t c d l).toNat % 2 ^ (8 * n)
  else (List.range (n / 4)).foldl (fun x k => x + (t.v (d.toNat + k) l).toNat * 2 ^ (32 * k)) 0

/-- What a memory word does, apart from where it goes: kind, space, size, extension, operation, scale, and its fields. -/
structure MForm where
  (kind : MemKind) (space n : Nat) (sx : Bool) (aop : AOp) (sc : Nat) (sb : BitVec 2) (pn : Bool) (pr : BitVec 3)
  (d a : BitVec 7) (bp : BitVec 2)

/-- The codes that may name the literal: A, and D where it is data of one register (R41, R164). -/
def MForm.lit (w : MForm) : Bool :=
  usesLit (if w.kind = .store || w.kind = .atomN then [w.a, w.d] else [w.a])

/-- One lane's request: address, data and compare value. -/
def MForm.req (w : MForm) (t : Team) (c : Cur) (va : Nat) (home l : Nat) : LaneReq :=
  { lane := l, va := va, home := home,
    data := match w.kind with
      | .load => 0
      | .store => storeData t c w.n w.d l
      | _ => (laneOp t c w.d l).toNat
    cmp := if w.aop = .cas && (w.kind = .atomF || w.kind = .atomN) then (t.v (w.d.toNat + 1) l).toNat else 0,
    got := 0, due := 0, st := .moving }

/-- The request of the word joins the pass. -/
def MForm.add (w : MForm) (c : Cur) (zero : Bool) (lanes : List LaneReq) : Cur :=
  c.act (.mem ⟨c.pos, c.nth, w.kind, w.space, w.n, w.sx, w.aop, w.d.toNat, w.sb.toNat, zero, lanes⟩)

/-- The address words of a local address that fails a check, as a signed 64-bit number (R163, R308). -/
def offLo (a : Int) : Word := BitVec.ofInt 32 a
def offHi (a : Int) : Word := BitVec.ofInt 32 (a / 2 ^ 32)

/-- A local word (R163, R165): ALN before PRT, then the conflicts of its banks; a word that traps adds none (entry 30). -/
def MForm.local (w : MForm) (t : Team) (c : Cur) : Cur :=
  let ls := guarded t c w.pn w.pr
  let addr := localAddr t c w.bp w.sc w.a
  let aln := ls.filter fun l => addr l % w.n ≠ 0
  let prt := ls.filter fun l => addr l < 0 || (t.pl.lsBytes : Int) < addr l + w.n
  let c' := match aln, prt with
    | l :: _, _ => c.raise cALN (offLo (addr l)) (offHi (addr l)) (maskOf aln)
    | [], l :: _ => c.raise cPRT (offLo (addr l)) (offHi (addr l)) (maskOf prt)
    | [], [] =>
      (w.add c false (ls.map fun l => w.req t c (addr l).toNat 0 l)).lengthen
        (conflict lsBank (ls.flatMap fun l => wordsOf (addr l).toNat w.n))
  c'.past w.lit 1

/-- A global or remote word (R163, R166, R190): the alignment checks; translation is made at the commit. Where gh[31:24] is not 0
the manual forms no address, and TVAL and TVALH hold the one its low 56 bits would form (DESIGN CHOICE, entry 74). -/
def MForm.global (w : MForm) (zero : Bool) (t : Team) (c : Cur) : Cur :=
  let ls := if zero then c.lanes else guarded t c w.pn w.pr
  let addr := globalAddr t c w.bp w.sc w.a
  let aln := ls.filter fun l => 2 ^ 24 ≤ (baseHi t c w.bp).toNat || addr l % w.n ≠ 0
  let c' := match aln with
    | l :: _ => c.raise cALN (addrLo (addr l)) (addrHi (addr l)) (maskOf aln)
    | [] => w.add c zero (ls.map fun l => w.req t c (addr l) 0 l)
  c'.past w.lit 1

/-- An accumulator word (R168): tile and element inside the allocation, else PRT. -/
def MForm.acc (w : MForm) (t : Team) (c : Cur) : Cur :=
  let ls := guarded t c w.pn w.pr
  let tile := (baseLo t c w.bp).toNat
  let e (l : Nat) : Nat := (laneOp t c w.a l).toNat
  let prt := ls.filter fun l => t.pl.atiles ≤ tile || 4096 ≤ e l
  let c' := match prt with
    | l :: _ => c.raise cPRT (BitVec.ofNat 32 (e l)) (BitVec.ofNat 32 tile) (maskOf prt)
    | [] =>
      (w.add c false (ls.map fun l => w.req t c (e l) tile l)).lengthen (conflict (· % 32) (ls.map e))
  c'.past w.lit 1

/-- The forms with a size. -/
def formM (k : MemKind) (space : Nat) (sx : Bool) (w : FM) : MForm :=
  ⟨k, space, szBytes w.sz, sx, .add, w.sc.toNat, w.sb, w.pn, w.pr, w.d, w.a, w.bp⟩

/-- The vector forms, 16 bytes a lane. -/
def formV (k : MemKind) (space : Nat) (w : FV) : MForm :=
  ⟨k, space, 16, false, .add, w.sc.toNat, w.sb, w.pn, w.pr, w.d, w.a, w.bp⟩

/-- The atomics: a scale of 4 and 32 bits (R163, R167). -/
def formT (k : MemKind) (space : Nat) (w : FT) : MForm :=
  ⟨k, space, 4, false, w.aop, 2, w.sb, w.pn, w.pr, w.d, w.a, w.bp⟩

/-- The accumulator forms. -/
def formX (k : MemKind) (w : FX) : MForm := ⟨k, 3, 4, false, .add, 0, w.sb, w.pn, w.pr, w.d, w.a, w.bp⟩

/-- `ldl.n` (R165). -/
def execLdlN (w : FM) (s : State) : Out := onCur s (formM .load 0 false w).local

/-- `ldl.s` (R165). -/
def execLdlS (w : FM) (s : State) : Out := onCur s (formM .load 0 true w).local

/-- `stl` (R165). -/
def execStl (w : FM) (s : State) : Out := onCur s (formM .store 0 false w).local

/-- `ldlv` (R165). -/
def execLdlv (w : FV) (s : State) : Out := onCur s (formV .load 0 w).local

/-- `stlv` (R165). -/
def execStlv (w : FV) (s : State) : Out := onCur s (formV .store 0 w).local

/-- `ldg.n` (R166). -/
def execLdgN (w : FM) (s : State) : Out := onCur s ((formM .load 1 false w).global false)

/-- `ldg.s` (R166). -/
def execLdgS (w : FM) (s : State) : Out := onCur s ((formM .load 1 true w).global false)

/-- `stg` (R166). -/
def execStg (w : FM) (s : State) : Out := onCur s ((formM .store 1 false w).global false)

/-- `ldgv` (R166). -/
def execLdgv (w : FV) (s : State) : Out := onCur s ((formV .load 1 w).global false)

/-- `stgv` (R166). -/
def execStgv (w : FV) (s : State) : Out := onCur s ((formV .store 1 w).global false)

/-- `ldr.n` (R190). -/
def execLdrN (w : FM) (s : State) : Out := onCur s ((formM .load 2 false w).global false)

/-- `ldr.s` (R190). -/
def execLdrS (w : FM) (s : State) : Out := onCur s ((formM .load 2 true w).global false)

/-- `str` (R190). -/
def execStr (w : FM) (s : State) : Out := onCur s ((formM .store 2 false w).global false)

/-- `str.z`, the zero-length store (R190): every lane of the pass. -/
def execStrZ (w : FZ) (s : State) : Out :=
  onCur s ((⟨.store, 2, 4, false, .add, w.sc.toNat, w.sb, false, 7, 120, w.a, w.bp⟩ : MForm).global true)

/-- `atl` (R167). -/
def execAtl (w : FT) (s : State) : Out := onCur s (formT .atomF 0 w).local

/-- `atln` (R167). -/
def execAtln (w : FT) (s : State) : Out := onCur s (formT .atomN 0 w).local

/-- `atg` (R167). -/
def execAtg (w : FT) (s : State) : Out := onCur s ((formT .atomF 1 w).global false)

/-- `atgn` (R167). -/
def execAtgn (w : FT) (s : State) : Out := onCur s ((formT .atomN 1 w).global false)

/-- `atr` (R190). -/
def execAtr (w : FT) (s : State) : Out := onCur s ((formT .atomF 2 w).global false)

/-- `atrn` (R190). -/
def execAtrn (w : FT) (s : State) : Out := onCur s ((formT .atomN 2 w).global false)

/-- `accrd` (R168). -/
def execAccrd (w : FX) (s : State) : Out := onCur s (formX .load w).acc

/-- `accwr` (R168). -/
def execAccwr (w : FX) (s : State) : Out := onCur s (formX .store w).acc

end Sys2Proof.Machine
end

