-- ==== Sys2Proof/Machine/Issue.lean ====
section
/-! DEFINITION. Issue: the rotation and the start of a clause (R35 to R37, R66 to R68, R87), its passes (R42 to R44, R47),
their holds (R48, R155, R210, R229) and their commits (R45). -/

namespace Sys2Proof.Machine

/-! ## Fetch -/

/-- Word i of a team's image as clause fetch reads it (R144). -/
def State.fetch (s : State) (t : Team) (i : Nat) : Word :=
  match s.gang? t.pl.gang with
  | none => 0
  | some g =>
    match s.ownRead t.pl.pkg (s.xlateRange t.pl.pkg g.ctx (g.desc.entry + 4 * i) .ex) with
    | some pa => BitVec.ofNat 32 (s.rd t.pl.pkg pa 4)
    | none => 0

/-- The words of the clause at a team's program counter. -/
def State.clauseWords (s : State) (t : Team) (h : Hdr) : List Word :=
  (List.range h.cnt).map fun i => s.fetch t (t.pc + 1 + i)

/-! ## Passes (R42) -/

/-- The place of a lane among the active lanes at its position, counting through the home warps. -/
def laneRank (m : Mask) (l : Nat) : Nat := ((List.range (l / 32)).filter fun w => maskBit m (32 * w + l % 32)).length

/-- A compacted sweep. -/
def compacted (m : Mask) (warps : Nat) : List (List Nat) :=
  let ls := maskLanes m (32 * warps)
  (List.range (ls.foldl (fun n l => max n (laneRank m l + 1)) 0)).map fun k => ls.filter (laneRank m · = k)

/-- An uncompacted sweep: the home warps with an active lane. -/
def byWarp (m : Mask) (warps : Nat) : List (List Nat) :=
  ((List.range warps).map fun w => ((List.range 32).map (32 * w + ·)).filter (maskBit m)).filter (· ≠ [])

/-- The passes of a clause with words, as formed at its start. -/
def passesOf (t : Team) (cls : Cls) (l : List Placed) : List (List Nat) :=
  if cls = .lane || cls = .mem then
    if l.any fun p => teamWide p.i then [maskLanes t.active (32 * t.pl.warps)]
    else if l.any fun p => crossLane p.i then byWarp t.active t.pl.warps
    else compacted t.active t.pl.warps
  else [[0]]

/-- The evaluation of a pass before its first word. -/
def curOf (t : Team) (r : Run) (lanes : List Nat) : Cur :=
  { pkg := t.pl.pkg, core := t.pl.core, team := t.id, cls := r.cls, win := r.win, hdr := r.hdr, pass := r.pass,
    first := r.first, lanes := lanes, words := r.words, pos := 1, nth := 0, off := 0, latches := [], acts := [], extra := 0,
    trap := Option.none, flow := ⟨t.active, t.live, t.stack, r.hdr + 1 + r.words.length⟩, ref := r.ref, shadow := Option.none,
    count := 0 }

/-! ## Pushes known at the start of a clause (R36, R245) -/

/-- The references of `cardf` words after every pass. -/
def dryRefs (s : State) (t : Team) (r : Run) : List (List Nat) → List (Nat × Word)
  | [] => r.ref
  | p :: ps => dryRefs s t { r with ref := (dryPass s 16 (curOf t r p)).ref } ps

/-- The queue pushes of a clause in word order: position, queue, value. -/
def State.pushesOf (s : State) (t : Team) (r : Run) : List (Nat × Nat × Word) :=
  match r.cls with
  | .card => ((List.range r.words.length).zip r.words).map fun z => (z.1 + 1, r.eng, z.2)
  | .unif => dryPushes s 16 (curOf t r [0])
  | .lane => (dryRefs s t r r.passes).map fun z => (z.1, 0, z.2)
  | _ => []

/-- The pushes the room check counts: every `cardf` word counts one, whether or not a lane takes part (R36, R245). A header that
names no queue (R32) waits for no room: its clause traps at issue. -/
def State.roomPushes (s : State) (t : Team) (r : Run) : List (Nat × Nat × Word) :=
  if r.cls = .lane then
    (placed r.cls 1 0 r.words).filterMap fun x => match x.i with | .cardf _ => some (x.pos, 0, 0) | _ => none
  else (s.pushesOf t r).filter (·.2.1 < 4)

/-- The first push beyond its queue's room, counting the pushes before it (R36). -/
def firstWithoutRoom (room : List Nat) : List (Nat × Nat × Word) → Option Nat
  | [] => none
  | (pos, q, _) :: l => if room.getD q 0 = 0 then some pos else firstWithoutRoom (room.modify q (· - 1)) l

def Core.rooms (x : Core) : List Nat := x.queues.map (·.room)

/-- The cards a gang's pushes complete, in word order: position, queue, words (R235). -/
def Core.completed (x : Core) (g : Nat) (l : List (Nat × Nat × Word)) : List (Nat × Nat × List Word) :=
  let all := (List.range 4).flatMap fun q =>
    (completions (((x.queues.getD q Queue.reset).restOf g).map (·.x)) ((l.filter (·.2.1 = q)).map fun z => (z.1, z.2.2))).map fun z =>
      (z.1, q, z.2)
  all.foldl (fun acc z => acc.filter (·.1 ≤ z.1) ++ z :: acc.filter (z.1 < ·.1)) []

/-! ## The clause as it starts -/

/-- The run a team's next clause would be in cycle n: its passes from the one a return resumes (R47, R320); none are left where the
handler named one above those formed, and the clause ends in its header cycle (DESIGN CHOICE, entry 78). -/
def State.runOf (s : State) (t : Team) (n : Nat) : Run :=
  let h := hdrOf (s.fetch t t.pc).toNat
  let ws := s.clauseWords t h
  let cls := clsOf h.cls
  let pl := placed cls 1 0 ws
  let cost := if cls = .card then ws.length else passCost pl
  let fresh := if ws = [] then [] else passesOf t cls pl
  let r : Run :=
    { team := t.id, hdr := t.pc, cls := cls, win := h.win, eng := h.eng, words := ws, start := n, cost := cost,
      passes := fresh, formed := fresh, pass := 1, first := n + 1, last := 0, ref := [], trap := Option.none,
      done := Option.none, failed := [] }
  match t.resume with
  | some (k, f) =>
    if f.hdr = t.pc then { r with passes := f.passes.drop (k - 1), formed := f.passes, pass := k, ref := f.ref } else r
  | none => r

/-- The gang of a team is timed. -/
def State.timedTeam (s : State) (t : Team) : Bool := match s.gang? t.pl.gang with | some g => g.timed | none => false

/-- The fault a clause raises at its issue (R64): position, cause, TVAL. Where a clause has both a word without room (detail 9) and a
word that completes a TMD card (detail 13), detail 9 is reported, whichever word comes first (DEDUCED, entry 29). -/
def State.issueFault (s : State) (t : Team) (r : Run) : Option (Nat × Nat × Word) :=
  let x := (s.fetch t t.pc).toNat
  let h := hdrOf x
  let core := s.core t.pl.pkg t.pl.core
  match hdrBad h with
  | some d => some (0, cILL, BitVec.ofNat 32 d)
  | none =>
    match (if r.cls = .card then Option.none else scanWords s t 16 (curOf t r (maskLanes t.active (32 * t.pl.warps)))) with
    | some f => some f
    | none =>
      let l := s.pushesOf t r
      match (if h.wqs then Option.none else firstWithoutRoom core.rooms (s.roomPushes t r)) with
      | some pos => some (pos, cILL, 9)
      | none =>
        match (if s.timedTeam t then Option.none else (core.completed t.pl.gang l).find? fun z => cTmd z.2.2) with
        | some z => some (z.1, cILL, 13)
        | none => none

/-- The memory-model exception of a clause that completes a card (R231), looked for once the accesses of the clause's first cycle are
performed (DEDUCED, entry 106). -/
def State.completionRace (s : State) (t : Team) (r : Run) : Option PTrap :=
  if !s.watching t then none
  else ((s.core t.pl.pkg t.pl.core).completed t.pl.gang (s.pushesOf t r)).findSome? fun z =>
    if (s.cardBad t z.2.1 z.2.2).isSome then none
    else (s.cardRace t (s.footprint t z.2.1 z.2.2)).map fun v => ⟨z.1, cMMX, v.1, v.2, 0⟩

/-! ## The duration computed at the start (R329) -/

/-- What a local or accumulator word does to a pass; any other word is passed over. -/
def localWordExec (s : State) (c : Cur) (i : Instr) : Cur :=
  let at_ := s.setEv (some c)
  let out (o : Out) : Cur := match o with
    | .next s' => s'.ev.getD c
    | _ => c
  match i with
  | .ldlN w => out (execLdlN w at_)
  | .ldlS w => out (execLdlS w at_)
  | .stl w => out (execStl w at_)
  | .ldlv w => out (execLdlv w at_)
  | .stlv w => out (execStlv w at_)
  | .atl w => out (execAtl w at_)
  | .atln w => out (execAtln w at_)
  | .accrd w => out (execAccrd w at_)
  | .accwr w => out (execAccwr w at_)
  | _ => c.past (hasLit i) 1

/-- The bank conflicts of a pass (R148). -/
def dryExtra (s : State) (c : Cur) (l : List Placed) : Nat := (l.foldl (fun c p => localWordExec s c p.i) c).extra

/-- The cycle in which a clause would end, its bank conflicts included. -/
def State.endsAt (s : State) (t : Team) (r : Run) : Nat :=
  let extra := if r.cls = .mem then r.passes.foldl (fun n p => n + dryExtra s (curOf t r p) (placed .mem 1 0 r.words)) 0 else 0
  r.start + r.passes.length * r.cost + extra

/-- No quiet card of the team's gang on its core that may be the gang's quiet point, at or after both cycle `t0` of the request
and cycle `n`, comes before cycle `e`: a clause that ends in `e` would end after that point (R329; entry 88). -/
def State.quietClear (s : State) (t : Team) (t0 n e : Nat) : Bool :=
  (s.core t.pl.pkg t.pl.core).cards.all fun k =>
    k.gang ≠ t.pl.gang || k.q ≠ 3 || cType k.words ≠ 5 || k.dead ||
      (let qc := namedCycle (k.words.getD 1 0) k.accept
       qc < max t0 n || e ≤ qc)

/-! ## Readiness and the rotation (R35, R66, R67, R87) -/

/-- Every hold of R35 but the rotation is off for a team in cycle n. -/
def State.ready (s : State) (t : Team) (n : Nat) : Bool :=
  s.betweenClauses t && t.waits.isEmpty && t.readyAt ≤ n && (s.nextTrap t n).isNone &&
  (let p := s.pkg t.pl.pkg
   let h := hdrOf (s.fetch t t.pc).toNat
   t.ePrev + 1 + h.stall ≤ n &&
   ((List.range 4).all fun k => h.wsb / 2 ^ k % 2 = 0 || t.sb.getD k 0 = 0) &&
   (!h.wst || !s.untubbed t n n) &&
   !(s.timedTeam t && (p.halted || p.rs.isSome)) && !(p.throttled && n % 2 = 1) &&
   (!h.wqs || (firstWithoutRoom (s.core t.pl.pkg t.pl.core).rooms (s.roomPushes t (s.runOf t n))).isNone) &&
   (match (s.gang? t.pl.gang).bind (·.switch) with
    | some ⟨_, _, some t', _⟩ => s.endsAt t (s.runOf t n) < t'
    | some ⟨t0, _, none, _⟩ => s.quietClear t t0 n (s.endsAt t (s.runOf t n))
    | none => true))

/-- The teams of a core in rotation order: from the slot after the one that ran last. -/
def State.rotation (s : State) (p c : Nat) : List Team :=
  let l := sortTeams (·.pl.slot) (s.teams.filter fun t => t.pl.pkg = p && t.pl.core = c && !t.ended)
  match (s.core p c).lastSlot with
  | none => l
  | some k => l.filter (k < ·.pl.slot) ++ l.filter (·.pl.slot ≤ k)

/-- A team of a timed gang stands before its first clause, at exactly START + STALL (R87). -/
def State.firstTimed (s : State) (t : Team) (n : Nat) : Bool :=
  s.timedTeam t && t.ePrev + 1 = t.startAt && n = t.startAt + (hdrOf (s.fetch t t.pc).toNat).stall &&
    s.teams.all fun u => u.pl.gang ≠ t.pl.gang || u.pl.core ≠ t.pl.core || u.ended || t.pl.slot ≤ u.pl.slot

/-- The team whose clause starts on a core in this cycle. -/
def State.nextTeam (s : State) (p c : Nat) : Option Team :=
  let x := s.core p c
  if x.run.isSome || s.wtc ≤ x.free then none
  else
    let l := (s.rotation p c).filter (s.ready · s.wtc)
    match l.find? (s.firstTimed · s.wtc) with
    | some t => some t
    | none => l.head?

/-- A clause ends in this cycle (R44). -/
def State.endClause (s : State) (p c t pc : Nat) : State :=
  let now := s.wtc
  ((s.modCore p c fun x => { x with run := none, free := now }).modTeam t fun x => { x with pc := pc, ePrev := now }).lateSwitch
    p c

/-- A precise trap on its way (R47, R312): taken between this clause and the next. -/
def preciseEvent (t : Team) (now hdr pass pos cause : Nat) (tval tvalh : Word) (tlm : Mask) : TeamEvent :=
  ⟨1, cause, false, false, tval, tvalh, tlm, t.tl, now + 1, hdr, pass + 256 * pos, 0, false⟩

/-- The package-local addresses a clause's header and words are fetched from, with their virtual addresses (R144). -/
def State.fetchAddrs (s : State) (t : Team) : List (Nat × Nat) :=
  match s.gang? t.pl.gang with
  | none => []
  | some g => (List.range ((hdrOf (s.fetch t t.pc).toNat).cnt + 1)).filterMap fun i =>
      let va := g.desc.entry + 4 * (t.pc + i)
      (s.ownRead t.pl.pkg (s.xlateRange t.pl.pkg g.ctx va .ex)).map fun pa => (va, pa)

/-- The fetch of a clause as a read of memory (R162, R325): to watchpoints it is no lane of the team's (DESIGN CHOICE, entry 97). -/
def State.meetFetch (s : State) (t : Team) : State :=
  (s.fetchAddrs t).foldl (fun s a => s.meetRead t.pl.pkg a.2 4 (.lane 0 t.pl.core 0)) s

/-- A team's clause starts (R35, R44, R64): it is refused with its trap, is over with its header, or runs. One whose fetch meets an
uncorrectable error does not run, and its team has a fault UCE (R162; DESIGN CHOICE, entry 97). -/
def State.startClause (s : State) (t : Team) : State :=
  let n := s.wtc
  let p := t.pl.pkg
  let c := t.pl.core
  let slot := t.pl.slot
  let r := s.runOf t n
  let fault := s.issueFault t r
  let bad := (s.fetchAddrs t).find? fun a => s.uceAt p a.2 4
  let s := (s.meetFetch t).modCore p c fun x => { x with lastSlot := some slot }
  match bad with
  | some a => (s.endClause p c t.id t.pc).fault t.id t.tl cUCE (addrLo a.1) (addrHi a.1) 0 t.wordsDone t.pc 1 0
  | none =>
  let s := s.modTeam t.id fun x => { x with resume := none }
  match fault with
  | some (pos, cause, tval) =>
    (s.endClause p c t.id t.pc).postEvent t.id (preciseEvent t n t.pc 1 pos cause tval 0 0)
  | none =>
    if r.passes.isEmpty then s.endClause p c t.id (t.pc + 1 + r.words.length)
    else s.modCore p c fun x => { x with run := some r, free := n }

/-- CLAUSE_START (R35): the rotation gives a ready team its turn. -/
def execClauseStart (p c : Nat) (s : State) : Out :=
  match s.nextTeam p c with
  | none => .next s
  | some t => .next (s.startClause t)

/-! ## A pass evaluated -/

/-- The pass of a core's clause that begins in this cycle comes under evaluation. -/
def State.beginPass (s : State) (p c : Nat) : State :=
  match (s.core p c).run with
  | none => s
  | some r =>
    match s.team? r.team with
    | none => s
    | some t =>
      let x := curOf t r (r.passes.headD [])
      let race := if r.first = r.start + 1 then s.completionRace t r else r.trap
      (s.modCore p c fun y => { y with run := some { r with trap := race } }).setEv (some (if r.cls = .card then
        { x with words := [], acts := ((List.range r.words.length).zip r.words).map fun z => .push (z.1 + 1) r.eng z.2 }
      else x))

/-- The word the pass stands at is no instruction of its class: it raises the detail of R63 as any illegal word does. -/
def State.rejectWord (s : State) (c : Cur) (r : Reject) : State :=
  s.setEv (some ((c.ill r.detail).past false 1))

/-- Of two traps of a pass, the one of the earlier word. -/
def firstTrap (a b : Option PTrap) : Option PTrap :=
  match a, b with
  | some x, some y => if x.pos < y.pos then some x else some y
  | some x, none => some x
  | none, y => y

/-- The evaluation is over: the pass's last cycle is known (R44, R148). -/
def State.finishPass (s : State) (c : Cur) : State :=
  (s.modCore c.pkg c.core fun x =>
    match x.run with
    | some r =>
      let tr := firstTrap r.trap c.trap
      let last := r.first + r.cost - 1 + c.extra
      { x with run := some { r with trap := none, last := last, done := some { c with trap := tr } } }
    | none => x).setEv none

/-! ## Holds (R48, R155, R210, R229) -/

/-- The memory words of a pass. -/
def memActs (l : List Act) : List MemAct := l.filterMap fun a => match a with | .mem m => some m | _ => none

/-- A lane of a pass takes an entry of the request table. -/
def State.laneEntry (s : State) (t : Team) (m : MemAct) (q : LaneReq) : Bool :=
  takesEntry m.space m.kind &&
    (m.space = 2 ||
      match s.xlate t.pl.pkg t.pl.core (s.gangCtx t.pl.gang) q.va (permOf m.kind) with
      | .walk => true
      | .fault _ => false
      | .ok pa tgt => match s.dest t.pl.pkg pa tgt with | .here _ => true | _ => false)

/-- A lane of a pass would be held by the tag board. -/
def State.laneTagged (s : State) (t : Team) (m : MemAct) (q : LaneReq) : Bool :=
  m.space = 1 && m.kind ≠ .load &&
    match s.xlate t.pl.pkg t.pl.core (s.gangCtx t.pl.gang) q.va (permOf m.kind) with
    | .walk => true
    | .fault _ => false
    | .ok pa tgt => match s.dest t.pl.pkg pa tgt with | .here a => homeOf a = .hbm | _ => false

/-- The gang runs under DET (R78). -/
def State.det (s : State) (t : Team) : Bool :=
  match s.gang? t.pl.gang with | some g => g.desc.flags / 2 % 2 = 1 | none => false

/-- The request table and the block's quota have room for a pass (R155, R210). -/
def State.tableRoom (s : State) (t : Team) (l : List MemAct) : Bool :=
  let n := l.foldl (fun n m => n + (m.lanes.filter (s.laneEntry t m)).length) 0
  let h := l.foldl (fun n m => n + (m.lanes.filter (s.laneTagged t m)).length) 0
  (n = 0 || s.entries t.pl.pkg t.pl.core + n ≤ 4096) &&
    (!(s.det t && t.region) || h = 0 ||
      s.heldEntries t.pl.gang t.pl.pkg t.pl.core t.pl.block + h ≤ 2048 / s.blocksOn t.pl.pkg t.pl.core)

/-- The pages of a pass that race watch has walked before it commits, in lane order (R229, R338). -/
def State.watchPages (s : State) (t : Team) (r : Run) (l : List MemAct) : List Nat :=
  if !s.watching t then []
  else
    let lanes := (l.filter (·.space = 1)).flatMap fun m => m.lanes.filter fun q =>
      s.xlate t.pl.pkg t.pl.core (s.gangCtx t.pl.gang) q.va (permOf m.kind) = .walk && !(r.failed.any (·.1 = q.va / 4096))
    distinct ((lanes.foldl (fun acc q => acc.filter (·.lane ≤ q.lane) ++ q :: acc.filter (q.lane < ·.lane)) []).map (·.va / 4096))

/-- The walks a held pass waits for are put in their quad's queue. -/
def State.walkPages (s : State) (t : Team) (pages : List Nat) : State :=
  pages.foldl (fun (s : State) pg =>
    if s.walks.any fun w => w.for_ = .hold t.pl.core && w.pkg = t.pl.pkg && w.page = pg * 4096 then s
    else
      let (w, s) := s.fresh
      let s : State := { s with walks := s.walks ++
        [⟨w, t.pl.pkg, t.pl.core / 4, t.pl.core, s.gangCtx t.pl.gang, t.id, pg * 4096, 3, 0, 0, false, .hold t.pl.core⟩] }
      s.at (s.wtc + 1) pBegin [0, w] (.pageWalk t.pl.pkg (t.pl.core / 4))) s

/-! ## Commit (R45) -/

/-- The place of the word at a position among the instruction words of its clause. -/
def nthAt (r : Run) (pos : Nat) : Nat := match (placed r.cls 1 0 r.words).find? (·.pos = pos) with | some x => x.nth | none => 0

/-- A queue with a word pushed: the word that brings its gang's card to the LEN completes it (R235), and the card stands behind those
complete before it; between a halt and the restart (`stop`) a timed card is discarded as it completes (R303). -/
def Queue.pushed (y : Queue) (stop : Bool) (w : QWord) (now level : Nat) (o : Origin) : Queue :=
  let card := y.restOf w.gang ++ [w]
  let ws := card.map (·.x)
  if stop && completes ws && cTmd ws then y.dropRest w.gang
  else if completes ws then
    { y with words := y.words.take y.doneLen ++ card ++ y.restBut w.gang,
             ready := y.ready ++ [⟨now, w.team, level, o, ws.length⟩] }
  else { y with words := y.words ++ [w] }

/-- A word pushed to a queue at its commit (R235). -/
def State.pushWord (s : State) (t : Team) (r : Run) (pass pos q : Nat) (x : Word) : State :=
  let now := s.wtc
  let words := t.wordsDone + if r.cls = .card then 0 else nthAt r pos + 1
  let stop := (s.pkg t.pl.pkg).halted || (s.pkg t.pl.pkg).rs.isSome
  let put (y : Queue) : Queue := y.pushed stop ⟨t.id, t.pl.gang, x⟩ now t.tl ⟨words, r.hdr, pass, pos⟩
  s.modCore t.pl.pkg t.pl.core fun k => { k with queues := k.queues.modify q put }

/-- The frame `tret` reads (R320): mask and depth, the team's staged stores forwarded. -/
def State.frameAt (s : State) (t : Team) : Mask × Nat :=
  let o := (t.bank t.tl).save.toNat
  let rd (off n : Nat) : Nat := (s.ownRead' t.pl.pkg t.pl.core t.pl.lsBase t.id s.nextId off n).1
  (BitVec.ofNat 1024 (rd o 128), rd (o + 128) 4)

/-- A word of the pass reads n bytes of the block's LS at a bank: errors are corrected and watchpoints met, or the team has a fault
UCE (R162, R325). -/
def State.wordRead (s : State) (t : Team) (o : Origin) (off n : Nat) : State :=
  let pa := lsPa t.pl.core (t.pl.lsBase + off)
  if s.uceAt t.pl.pkg pa n then s.fault t.id t.tl cUCE (BitVec.ofNat 32 off) 0 0 o.words o.hdr o.pass o.pos
  else s.meetRead t.pl.pkg pa n (.lane t.id t.pl.core o.words)

/-- The frame `tret` would read has an uncorrectable error (R162): no return takes place (DESIGN CHOICE, entry 97). -/
def State.frameBad (s : State) (t : Team) : Bool :=
  s.uceAt t.pl.pkg (lsPa t.pl.core (t.pl.lsBase + (t.bank t.tl).save.toNat)) 132

/-- The team returns from its trap level (R320). -/
def State.returnTrap (s : State) (t : Team) : State :=
  let (mask, depth) := s.frameAt t
  let b := t.bank t.tl
  let epc := b.epc.toNat % 65536
  let k := b.pass.toNat % 64
  let f := ({ active := mask &&& t.live, live := t.live, stack := t.stack.drop (t.stack.length - depth), pc := epc } :
    FlowSt).resumed
  let back := t.formed.find? fun f => f.level = t.tl && f.hdr = epc
  s.modTeam t.id fun x =>
    { x with tl := t.tl - 1, pc := f.pc, active := f.active, live := f.live, stack := f.stack,
             resume := (match back with | some y => if k ≠ 0 && f.pc = epc then some (k, y) else none | none => none),
             formed := x.formed.filter (·.level ≠ t.tl) }

/-- A wait added to a team. -/
def Team.wait (t : Team) (w : Wait) : Team := { t with waits := t.waits ++ [w] }

/-- What one word of a pass does at the commit (R45); CSR writes are steps of their own. -/
def State.applyAct (t : Team) (c : Cur) (r : Run) (lastPass : Bool) (s : State) (a : Act) : State :=
  let now := s.wtc
  let p := t.pl.pkg
  let words (pos : Nat) : Nat := t.wordsDone + nthAt r pos + 1
  match a with
  | .vreg d vals => s.modTeam t.id fun x => { x with vr := vals.foldl (fun v z => setRegs v d z.1 [z.2]) x.vr }
  | .vpred q vals => s.modTeam t.id fun x => { x with pr := x.pr.modify q fun (m : Mask) => vals.foldl (fun m z =>
      if z.2 then m ||| maskOf [z.1] else m &&& ~~~ maskOf [z.1]) m }
  | .ureg d x => s.modTeam t.id fun y => { y with ur := y.ur.set d x }
  | .upred q x => s.modTeam t.id (·.setUp q x)
  | .fflags f => s.modTeam t.id fun x => { x with csr := { x.csr with fflags := x.csr.fflags ||| BitVec.ofNat 32 f } }
  | .push pos q x => s.pushWord t r c.pass pos q x
  | .cardf pos ref => match ref with
      | some x => if lastPass then s.pushWord t r c.pass pos 0 x else s
      | none => s
  | .mem m =>
    let lanes := m.lanes.map fun q =>
      match (if m.space = 1 then r.failed.find? (·.1 = q.va / 4096) else none) with
      | some z => { q with st := .unmapped, got := z.2, due := now + 1 }
      | none => q
    s.issueMem t c.hdr c.pass { m with lanes := lanes }
  | .obj pos op => s.stageOp t.id p t.pl.core now 0 t.tl ⟨words pos, c.hdr, c.pass, pos⟩ op
  | .lsRead pos off n => s.wordRead t ⟨words pos, c.hdr, c.pass, pos⟩ off n
  | .waitph off given gpd d =>
    let s := s.modTeam t.id (·.wait (.phase off given gpd d))
    if d = 0 then s else s.at (deadlineCycle (now + 1) d) pBegin [t.id] (.waitphDeadline t.id)
  | .barn sc =>
    let k := sc.code.toNat
    let n := ((s.team? t.id).getD t).barnCount.getD k 0 + 1
    ((s.modTeam t.id fun x => { x with barnCount := x.barnCount.set k n }).modTeam t.id (·.wait (.barn sc n))).checkRounds
      t.pl.gang
  | .fence sc pos =>
    let s := s.modTeam t.id (·.wait (.fence sc now c.hdr pos false))
    if sc ≠ .pod then s
    else (s.at (now + 40) pRemote [0, t.pl.core, t.pl.slot, now, 0] (.podFenceDrain t.id)).at
      (now + (s.pkg p).rtimeout.toNat) pRemote [4, p, t.id] (.podFenceTimeout t.id now)
  | .xfence => s.modTeam t.id (·.wait (.xfence now))
  | .tflush key =>
    let (i, s) := s.fresh
    s.at (now + 40) pRemote [0, t.pl.core, t.pl.slot, now, i] (.tflushEffect p t.id key)
  | .tbenter => if s.det t then s.modTeam t.id fun x => { x with region := true } else s
  | .tbrel => if s.det t then s.modTeam t.id fun x =>
      { x with region := false, rounds := x.rounds + if x.region then 1 else 0 } else s
  | .waitc n =>
    if now < n then (s.modTeam t.id (·.wait (.until n))).at n pBegin [t.id] (.waitcRelease t.id)
    else if s.timedTeam t then s.then (.scheduleFault p 1 t.pl.core t.pl.slot (s.gangCtx t.pl.gang))
    else s
  | .launch d pos =>
    let ctx := s.gangCtx t.pl.gang
    match s.xlate p t.pl.core ctx d .rd with
    | .walk =>
      let (w, s) := s.fresh
      let s : State := { s with walks := s.walks ++ [⟨w, p, t.pl.core / 4, t.pl.core, ctx, t.id, d / 4096 * 4096, 3, 0, 0,
        false, .launch d t.pl.slot c.hdr pos (words pos)⟩] }
      s.at (now + 1) pBegin [0, w] (.pageWalk p (t.pl.core / 4))
    | x => s.launchWord t d c.hdr pos (words pos) now (now + 1) x
  | .csr _ _ _ _ => s
  | .shadow x => s.modTeam t.id fun y => { y with shadow := some x }
  | .trap cause code =>
    s.postEvent t.id ⟨5, cause, false, false, BitVec.ofNat 32 (0x80000000 + code), 0, 0, t.tl, now + 1, 0, 0, 0, false⟩
  | .tret pos =>
    let s' := s.wordRead t ⟨words pos, c.hdr, c.pass, pos⟩ (t.bank t.tl).save.toNat 132
    if s.frameBad t then s' else s'.returnTrap t
  | .kill k =>
    if k.getLsbD 31 then
      match s.gangOf p (k.toNat % 65536) with
      | some g => s.requestKill g.id now 0 false none t.id
      | none => s
    else s.requestKill t.pl.gang now (BitVec.ofNat 32 (k.toNat % 2 ^ 24 * 256)) false none t.id
  | .shift n out inc reg =>
    let (st, s) := s.requestShift p n out inc none
    s.modTeam t.id fun y => { y with ur := y.ur.set reg (BitVec.ofNat 32 st) }
  | .wdog n =>
    if n = 0 then s.modGang t.pl.gang fun x => { x with wdog := none }
    else (s.modGang t.pl.gang fun x => { x with wdog := some (now + n) }).at (now + n) pBegin [t.pl.gang]
      (.watchdogExpiry t.pl.gang)
  | .migdrain reg key =>
    if 2 ^ 13 ≤ key.toNat then s.modTeam t.id fun y => { y with ur := y.ur.set reg 2 }
    else (s.modTeam t.id (·.wait (.migdrain reg now))).beginDrain p ⟨0, t.id, reg, key.toNat, now, [], none, none⟩

/-- `tret` in a pass whose frame holds a depth beyond the stack: ILL 14; else one whose return address starts no clause: ILL 10
(R320, in its order; entry 38). -/
def State.tretTrap (s : State) (t : Team) (acts : List Act) : Option PTrap :=
  acts.findSome? fun a => match a with
    | .tret pos =>
      if s.frameBad t then none
      else if t.stack.length < (s.frameAt t).2 then some ⟨pos, cILL, 14, 0, 0⟩
      else if !s.isStart t ((t.bank t.tl).epc.toNat % 65536) then some ⟨pos, cILL, 10, 0, 0⟩
      else none
    | _ => none

/-- The CSR writes of a pass as steps, in word order. -/
def csrSteps (t : Nat) (acts : List Act) : List Due :=
  acts.filterMap fun a => match a with | .csr n k old x => some (.op (.csrWrite t n k old x)) | _ => none

/-- The effects of a pass that does not trap, and the next pass or the end of the clause. -/
def State.commitEffects (s : State) (t : Team) (r : Run) (c : Cur) : State :=
  let lastPass := r.passes.length ≤ 1
  let now := s.wtc
  let s := if lastPass then
      s.endClause c.pkg c.core t.id (if r.cls = .flow then c.flow.pc else r.hdr + 1 + r.words.length)
    else s.modCore c.pkg c.core fun x =>
      { x with run := some { r with passes := r.passes.drop 1, pass := r.pass + 1, first := now + 1, last := 0, done := none,
                                    ref := c.ref, failed := [] } }
  let s := if r.cls = .flow then
      s.modTeam t.id fun x => { x with active := c.flow.active, live := c.flow.live, stack := c.flow.stack }
    else s
  let s := c.acts.foldl (State.applyAct t c r lastPass) s
  let remote := (memActs c.acts).any fun m => m.space = 2 && !m.lanes.isEmpty
  let s := s.modTeam t.id fun x =>
    { x with wordsDone := x.wordsDone + c.count, csr := { x.csr with rseq := x.csr.rseq + if remote then 1 else 0 } }
  { s with due := csrSteps t.id c.acts ++ s.due }

/-- A pass that traps commits nothing; its clause is over (R47). The exception of a completed card, which marks no lane, names pass 1
(R231, R245). -/
def State.trapPass (s : State) (t : Team) (r : Run) (tr : PTrap) : State :=
  let pass := if tr.cause = cMMX && tr.tlm = 0 then 1 else r.pass
  let keep : List Formed := if 1 < r.pass then [⟨0, r.hdr, r.formed, r.ref⟩] else []
  ((s.endClause t.pl.pkg t.pl.core t.id r.hdr).modTeam t.id fun x =>
    { x with formed := x.formed.filter (·.level ≠ 0) ++ keep }).postEvent t.id
    (preciseEvent t s.wtc r.hdr pass tr.pos tr.cause tr.tval tr.tvalh tr.tlm)

/-- The pass of a core's clause that stands in its last cycle commits, traps, or is held for one more cycle (R45, R47, R48,
R155, R210, R229, R230). -/
def State.commitPass (s : State) (p c : Nat) : State :=
  match (s.core p c).run with
  | none => s
  | some r =>
    match r.done, s.team? r.team with
    | some x, some t =>
      let hold (s : State) : State := s.modCore p c fun y => { y with run := some { r with last := s.wtc + 1 } }
      let lim := match x.trap with | some tr => tr.pos | none => 1024
      let before := (memActs x.acts).filter (·.pos < lim)
      match s.watchPages t r before with
      | pg :: pgs => hold (s.walkPages t (pg :: pgs))
      | [] =>
        match firstTrap (s.passRace t x.acts lim) (x.trap <|> s.tretTrap t x.acts) with
        | some tr => s.trapPass t r tr
        | none =>
          if sbRoom t before && s.tableRoom t before then s.commitEffects t r x else hold s
    | _, _ => s

end Sys2Proof.Machine
end

