-- ==== Sys2Proof/Machine/Ring.lean ====
section
/-! DEFINITION. Receive rings (R294 to R296): `ringdef`, `ringput`, messages on their way, their writing and their
acknowledgement. -/

namespace Sys2Proof.Machine

/-! ## `ringdef` (R294) -/

/-- RINGDEF (R294): HEAD and TAIL are cleared and the ring is live, in place of an earlier one of its number. -/
def execRingdef (p c i : Nat) (s : State) : Out :=
  match s.card? p c i with
  | none => .next s
  | some k =>
    if !(k.q = 3 && cType k.words = 4 && s.mayStart p c k) then .next s
    else
      let ws := k.words
      let base := s.cardBase k
      let num := cf ws 2 8 4
      let r : Ring := ⟨num, k.ctx, base + cf ws 1 0 21, cf ws 2 0 5, base + cf ws 3 0 21, cf ws 2 16 8, cf ws 2 24 8,
        ws.getD 4 0, 0, base, k.team⟩
      let s := (s.startCard p c k).lsPut p c r.ctl (natBytes 8 0) (.engine 4 c)
      let s := s.modCore p c fun x => { x with rings := x.rings.filter (·.num ≠ num) ++ [r] }
      .next (s.finishCard p c k s.wtc)

/-! ## `ringput` at its source (R296) -/

/-- RINGPUT (R296): the card starts; its reads take the phase-3 cycles from this one. -/
def execRingput (p c i : Nat) (s : State) : Out :=
  match s.card? p c i with
  | none => .next s
  | some k =>
    if !(k.q = 3 && cType k.words = 3 && s.mayStart p c k) then .next s
    else
      let n := (cf k.words 3 0 13 + 1023) / 1024
      let at_ (m : Nat) : Nat := fabAt s.wtc + 8 * m
      let f := at_ (n - 1)
      let slots : List SlotSt := (List.range n).map fun m => ⟨m, at_ m, Option.none, false⟩
      let s := (s.startCard p c k).modCard p c i fun x => { x with slots := slots, fin := some f }
      let s := (List.range n).foldl (fun (s : State) m => s.at (at_ m) pRead [c, c, m] (.sendatChunkRead p c i m)) s
      .next (s.at (f + 40) pRemote [0, c, k.slot, s.wtc, i] (.ringMessageDeparture p c i))

/-- The outcome of a message is known at its source: status bits of the team, and the credit now (R296). -/
def State.ringOver (s : State) (p c : Nat) (k : Card) (bits : Word) : State :=
  let now := s.wtc
  let s := s.modTeam k.team fun t => { t with csr := { t.csr with fstat := t.csr.fstat ||| bits } }
  let s := s.modCard p c k.id fun x => { x with count := 2, settled := some now }
  match cardCredit 3 k.words with
  | some (off, n) => s.then (.engineCredit p c 4 (s.cardBase k + off) n)
  | none => s

/-- RING_MESSAGE_DEPARTURE (R296): the message leaves; a route without a partner refuses it at once (R175). -/
def execRingMessageDeparture (p c i : Nat) (s : State) : Out :=
  match s.card? p c i with
  | none => .next s
  | some k =>
    if k.stopped || k.count ≠ 0 then .next s
    else
      let ws := k.words
      let num := (s.pkg p).num
      let dst := cf ws 1 0 8
      let dcore := cf ws 1 8 8
      let len := cf ws 3 0 13
      let body : PBody := .ring c i dcore (cf ws 1 16 4) len (k.slots.flatMap fun x => x.data.getD []) c
      let s := s.modCard p c i fun x => { x with slots := [], count := 1 }
      let timed (s : State) : State := s.at (s.wtc + (s.pkg p).rtimeout.toNat) pRemote [4, p, i] (.ringTimeout p i)
      if dst = num then
        let (j, s) := s.fresh
        let x : Packet := ⟨j, num, num, 0, 1, 1, s.wtc, body, s.wtc, 0, [], 8192⟩
        .next (timed (({ s with packets := s.packets ++ [x] } : State).at (s.wtc + 20 + torus c dcore) pRemote [1, p, j]
          (.ringMessageArrival p j)))
      else match s.partner p (routePort num dst) with
        | none =>
          let (j, s) := s.fresh
          let x : Packet := ⟨j, num, num, 0, 1, 1, s.wtc, .ringAck c i false, s.wtc, 0, [], 8192⟩
          .next (({ s with packets := s.packets ++ [x] } : State).then (.ringAckArrival p j))
        | some _ => .next (timed (s.sendHeadered p dst (1 + (len + 63) / 64) body))

/-! ## Messages at their destination (R295, R296) -/

/-- The bytes of a message in its ring: header, payload, and padding of zeros (R295; the zeros are a DESIGN CHOICE, entry 104). -/
def messageBytes (len src core count : Nat) (bs : List Byte) : List Byte :=
  let l := natBytes 2 len ++ natBytes 1 src ++ natBytes 1 core ++ natBytes 4 count ++ bs
  l ++ List.replicate ((8 - l.length % 8) % 8) 0

/-- The acknowledgement of a message goes back to its source (R296). -/
def State.ackRing (s : State) (p : Nat) (x : Packet) (core card dcore : Nat) (ok : Bool) : State :=
  let num := (s.pkg p).num
  if x.src = num then
    let (j, s) := s.fresh
    let y : Packet := ⟨j, num, num, 0, 1, 1, s.wtc, .ringAck core card ok, s.wtc, 0, [], 8192⟩
    ({ s with packets := s.packets ++ [y] } : State).at (s.wtc + 20 + torus core dcore) pRemote [1, p, j] (.ringAckArrival p j)
  else s.sendHeadered p x.src 1 (.ringAck core card ok)

/-- The live ring of a number on a core. -/
def State.ring? (s : State) (p c n : Nat) : Option Ring := (s.core p c).rings.find? (·.num = n)

/-- HEAD of a ring. -/
def State.ringHead (s : State) (p c : Nat) (r : Ring) : Nat := s.rd p (lsPa c r.ctl) 4

/-- The ring takes a message of a size from a source (R296); one whose counts have an uncorrectable error takes none (entry 97). -/
def State.ringTakes (s : State) (p c : Nat) (r : Ring) (src core size : Nat) : Bool :=
  r.ppkg = src && r.pcore = core && !s.uceAt p (lsPa c r.ctl) 8 &&
    size + (s.ringHead p c r + 2 ^ 32 - s.rd p (lsPa c (r.ctl + 4)) 4) % 2 ^ 32 ≤ 2 ^ r.log2

/-- A ring takes a message: its record follows those under way, chunk by chunk from the fabric phase 40 cycles on (R287, R296). -/
def State.takeMessage (s : State) (p i core : Nat) (r : Ring) (size : Nat) (bs : List Byte) : State :=
  let ahead := ((s.core p core).ringWrites.filter (·.ring = r.num)).foldl (fun n w => n + w.size) 0
  let w : RingWrite := ⟨r.num, s.ringHead p core r + ahead, 0, bs, i, size⟩
  let grow (y : Ring) : Ring := if y.num = r.num then { y with count := (y.count + 1) % 2 ^ 32 } else y
  let s := s.modCore p core fun y => { y with ringWrites := y.ringWrites ++ [w], rings := y.rings.map grow }
  s.at (fabAt (s.wtc + 40)) pEngine [core, core, 2] (.ringChunkWrite p core i 0)

/-- RING_MESSAGE_ARRIVAL (R296, R305): the message is accepted, to be written, or refused; either is acknowledged. -/
def execRingMessageArrival (p i : Nat) (s : State) : Out :=
  match s.packet? i with
  | none => .next s
  | some x =>
    let s := s.dropPacket i
    match x.body with
    | .ring core card dcore ring len bs srcCore =>
      let size := (8 + len + 7) / 8 * 8
      match s.ring? p dcore ring with
      | none => .next ((s.dropLanding p dcore).ackRing p x core card dcore false)
      | some r =>
        let s := s.meetRead p (lsPa dcore r.ctl) 8 (.engine 4 x.src)
        .next (if s.ringTakes p dcore r x.src srcCore size then
            (s.takeMessage p i dcore r size (messageBytes len x.src srcCore r.count bs)).ackRing p x core card dcore true
          else (s.modCore p dcore (·.countDrop)).ackRing p x core card dcore false)
    | _ => .next s

/-- Bytes written into a ring from a count on, wrapping at its end (R295). -/
def State.ringPut (s : State) (p c : Nat) (r : Ring) (from_ : Nat) (bs : List Byte) (src : Nat) : State :=
  let o := from_ % 2 ^ r.log2
  let n := min bs.length (2 ^ r.log2 - o)
  let s := s.lsPut p c (r.base + o) (bs.take n) (.engine 4 src)
  if n < bs.length then s.lsPut p c r.base (bs.drop n) (.engine 4 src) else s

/-- RING_CHUNK_WRITE (R287, R296): chunk k of the message, in a phase-3 cycle the landing buffer leaves free; behind the
last chunk HEAD advances, and the object is credited a cycle later. -/
def execRingChunkWrite (p c i k : Nat) (s : State) : Out :=
  match (s.core p c).ringWrites with
  | [] => .next s
  | w :: ws =>
    let now := s.wtc
    if w.pkt ≠ i then
      .next (if ws.any (·.pkt = i) then s.at (fabAt (now + 1)) pEngine [c, c, 2] (.ringChunkWrite p c i k) else s)
    else
      let gone (s : State) : State := s.modCore p c fun y => { y with ringWrites := y.ringWrites.filter (·.pkt ≠ i) }
      let src := (w.data.getD 2 0).toNat
      match s.ring? p c w.ring with
      | none => .next ((gone s).dropLanding p c)
      | some r =>
        if w.data.length ≤ 1024 * k then
          let s := (gone s).lsPut p c r.ctl (natBytes 4 (s.ringHead p c r + w.size)) (.engine 4 src)
          .next (if r.bar.getLsbD 31 then
              s.at (now + 1) pCredit [c, 4] (.engineCredit p c 4 (r.lsBase + r.bar.toNat % 2 ^ 21) w.size)
            else s)
        else if (s.core p c).landing.any (·.cyc + 4 ≤ now) then
          .next (s.at (fabAt (now + 1)) pEngine [c, c, 2] (.ringChunkWrite p c i k))
        else
          let s := s.ringPut p c r (w.from_ + 1024 * k) ((w.data.drop (1024 * k)).take 1024) src
          let next := if w.data.length ≤ 1024 * (k + 1) then now + 1 else fabAt (now + 1)
          .next (s.at next pEngine [c, c, 2] (.ringChunkWrite p c i (k + 1)))

/-! ## Outcomes at the source (R296) -/

/-- The core that holds a card of a package. -/
def State.cardCore (s : State) (p i : Nat) : Option (Nat × Card) :=
  (List.range 256).findSome? fun c => (s.card? p c i).map fun k => (c, k)

/-- RING_ACK_ARRIVAL (R296): 40 cycles behind the acknowledgement the source credits, and notes a refusal. -/
def execRingAckArrival (p i : Nat) (s : State) : Out :=
  match s.packet? i with
  | none => .next s
  | some x =>
    match x.body with
    | .ringAck c card ok =>
      if x.taken = 0 then
        let now := s.wtc
        .next (({ s with packets := s.packets.map fun y => if y.id = i then { y with taken := now } else y } : State).at
          (now + 40) pRemote [1, p, i] (.ringAckArrival p i))
      else
        let s := s.dropPacket i
        match s.card? p c card with
        | none => .next s
        | some k => .next (if k.count = 1 then s.ringOver p c k (if ok then 0 else 1) else s)
    | _ => .next s

/-- RING_TIMEOUT (R296): no acknowledgement within RTIMEOUT. -/
def execRingTimeout (p i : Nat) (s : State) : Out :=
  match s.cardCore p i with
  | none => .next s
  | some (c, k) =>
    let acked := s.packets.any fun x => x.taken ≠ 0 && match x.body with | .ringAck d n _ => d = c && n = i | _ => false
    .next (if k.count = 1 && !acked then s.ringOver p c k 2 else s)

end Sys2Proof.Machine
end

