-- ==== Sys2Proof/Machine/Service.lean ====
section
/-! DEFINITION. The device in its surroundings: the resident service's requests (R363, R374), page migration (R191), start-up
(R350, R351), identity (R352), power (R349, R355) and scale-out transfers (R360). -/

namespace Sys2Proof.Machine

/-- A gang is resident on a package. -/
def State.anyGang (s : State) (p : Nat) : Bool := s.gangs.any (·.pkg = p)

/-- A timed gang is resident on a package. -/
def State.anyTimed (s : State) (p : Nat) : Bool := s.gangs.any fun g => g.pkg = p && g.timed

/-! ## Contexts (R144, R363) -/

/-- A range entry obeys R144: its zero field is zero, and a valid one is well placed. -/
def rangeOk (e : RangeEntry) : Bool :=
  e.zero = 0 && (!e.v || (e.base % 4096 = 0 && e.limit % 4096 = 0 && e.pbase % 4096 = 0 && e.base < e.limit && e.limit < 2 ^ 56 &&
    e.pbase < 2 ^ 56 && e.tgt < 4))

/-- CTX_CREATE (R144, R183, R307, R363). -/
def execCtxCreate (p tag : Nat) (x : CtxSpec) (s : State) : Out :=
  s.request p tag <|
  if (s.ctx? p x.num).isSome || 256 ≤ x.num || 64 < x.ranges.length || !x.ranges.all rangeOk then .next (s.respond p tag 1 [])
  else
    let c : Ctx := ⟨x.num, p, x.priv, x.ranges, x.root, BitVec.ofNat 32 x.ring &&& 0xFFFFFF1F, 0, 0, []⟩
    .next (({ s with ctxs := s.ctxs ++ [c] } : State).respond p tag 0 [])

/-- CTX_DESTROY (R363): one that holds no gang; its pages leave the buffers. -/
def execCtxDestroy (p tag ctx : Nat) (s : State) : Out :=
  s.request p tag <|
  if (s.ctx? p ctx).isNone then .next (s.respond p tag 1 [])
  else if s.gangs.any fun g => g.pkg = p && g.ctx = ctx then .next (s.respond p tag 2 [])
  else
    let s : State := { s with ctxs := s.ctxs.filter fun x => !(x.pkg = p && x.num = ctx) }
    let s := (List.range 256).foldl (fun (s : State) c => s.modCore p c fun x =>
      { x with tlb := x.tlb.filter (·.ctx ≠ ctx), rings := x.rings.filter (·.ctx ≠ ctx) }) s
    .next (s.respond p tag 0 [])

/-! ## The schedule (R284, R304) -/

/-- The page of a context that holds an address, as the resident service reads it: cells named by virtual address (R284). -/
def State.pageCells (s : State) (p ctx a : Nat) : Option (List Host.Cell) :=
  let va := a / 4096 * 4096
  (s.ownRead p (s.hubXlate p ctx va .rd)).map fun pa =>
    let lo := s.pod p pa
    (s.mem.filter fun c => lo ≤ c.1 && c.1 < lo + 4096).map fun c => (c.1 - lo + va, c.2)

/-- The pages of a context from an address on that n bytes reach into, where all can be read. -/
def State.spanCells (s : State) (p ctx a n : Nat) : Option (List Host.Cell) :=
  (List.range ((a % 4096 + n + 4095) / 4096)).foldr (fun i acc => match s.pageCells p ctx (a + 4096 * i), acc with
    | some x, some l => some (x ++ l)
    | _, _ => none) (some [])

/-- A table's bytes read through a context's translation, page by page (R284). -/
def State.tableCells (s : State) (p ctx va : Nat) : Option (List Host.Cell) :=
  (s.spanCells p ctx va 64).bind fun m => s.spanCells p ctx va (tableLen m va)

/-- SCHED_SET (R284): a valid table is held and takes effect at the boundary the request names, where the request is answered
(R374); one that it replaces answers that it was not permitted (entry 94). -/
def execSchedSet (p tag ctx va boundary : Nat) (s : State) : Out :=
  s.request p tag <|
  let no : Out := .next (s.respond p tag 1 [])
  match s.ownRead p (s.hubXlate p ctx va .rd), s.tableCells p ctx va with
  | some pa, some m =>
    match s.readTable p m va pa boundary with
    | none => no
    | some t =>
      if va % 64 ≠ 0 || boundary % 2 ^ t.flog ≠ 0 || boundary < s.wtc + 65536 then no
      else
        let old := if ((s.pkg p).schedAt s.wtc) = (s.pkg p).next then none else (s.pkg p).nextTag
        .next (((s.respondTo p old 2).modPkg p fun x =>
          { x with sched := x.schedAt s.wtc, next := some t, nextTag := some tag }).once boundary 1 [p] (.frameBoundary p))
  | _, _ => no

/-- SCHED_CLEAR (R284): only while no timed gang is resident. -/
def execSchedClear (p tag : Nat) (s : State) : Out :=
  s.request p tag <|
  if s.anyTimed p then .next (s.respond p tag 2 [])
  else .next (((s.respondTo p (s.pkg p).nextTag 2).modPkg p fun x =>
    { x with sched := none, next := none, nextTag := none, schedRun := false, halt := none }).respond p tag 0 [])

/-- The delay of a request through the mailbox, or through the management transport (R365). -/
def requestDelay (mgmt : Bool) : Nat := if mgmt then 1024 else 256

/-- RESTART (R304, R374): RS, where it is a frame boundary of every package's table and not too early for the request's way. -/
def execRestartRequest (p tag : Nat) (x : RestartAt) (s : State) : Out :=
  let common := s.pkgs.all fun q => match q.schedAt s.wtc with
    | some t => x.rs % 2 ^ t.flog = 0
    | none => true
  s.request p tag <|
  if !common || x.rs < s.wtc + requestDelay x.mgmt then .next (s.respond p tag 1 [])
  else if !(s.pkg p).halted then .next (s.respond p tag 2 [])
  else .next ((s.setRestart p x.rs).respond p tag 0 [])

/-! ## Settings (R363) -/

/-- An accept window or target window is well placed (R179, R362). -/
def windowOk (w : Window) : Bool := w.base % 4096 = 0 && w.limit % 4096 = 0 && w.limit ≤ 2 ^ 48

/-- What a CONFIG item does, or the status it is refused with. -/
def State.configure (s : State) (p : Nat) (x : ConfigItem) : State × Nat :=
  match x with
  | .hashm k m =>
    if 8 < k then (s, 1)
    else if k < 8 then (s.then (.hashmHeldWrite p k m), 0)
    else if s.anyGang p then (s, 2)
    else (s.then (.hashm8Apply p m), if hashOk ((s.pkg p).hashSet m) then 0 else 1)
  | .window i w =>
    if 16 ≤ i || !windowOk w then (s, 1)
    else if s.anyGang p then (s, 2)
    else (s.modPkg p fun x => { x with windows := x.windows.set i w }, 0)
  | .uwindow stn i w =>
    if 4 ≤ stn || 8 ≤ i || !windowOk w then (s, 1)
    else (s.modPkg p fun x => { x with uwindows := x.uwindows.set (8 * stn + i) w }, 0)
  | .pin h e =>
    if 256 ≤ h || e.pbase % 4096 ≠ 0 || e.length = 0 || 2 ^ 24 < e.length then (s, 1)
    else (s.modPkg p fun x => { x with pinned := x.pinned.set h e }, 0)
  | .tubage m => (s.then (.tubageWrite p (m &&& 0x1FFF)), 0)
  | .rtimeout m => (s.modPkg p fun x => { x with rtimeout := clampTimeout (m &&& 0xFFFFFFF) }, 0)
  | .budget w => if w < 800 || 1600 < w then (s, 1) else (s.modPkg p fun x => { x with budget := w }, 0)
  | .ringdrop c => if 256 ≤ c then (s, 1) else (s.modCore p c fun x => { x with ringdrop := 0 }, 0)
  | .timeRoot n => if (s.pkgOf n).isNone then (s, 1)
    else ({ s with pkgs := s.pkgs.map fun x => { x with timeRoot := x.num = n } }, 0)
  | .bar2 b => if b % 2 ^ 32 ≠ 0 || 2 ^ 48 ≤ b then (s, 1) else (s.modPkg p fun x => { x with bar2 := b }, 0)

/-- CONFIG (R363). -/
def execConfig (p tag : Nat) (x : ConfigItem) (s : State) : Out :=
  s.request p tag <|
  let (t, st) := s.configure p x
  .next (t.respond p tag st [])

/-- THROTTLE_CLEAR (R355). -/
def execThrottleClear (p tag : Nat) (s : State) : Out :=
  s.request p tag <| .next ((s.modPkg p fun x => { x with throttled := false }).respond p tag 0 [])

/-- NOTIFY (R363): the kinds subscribed to, one bit each. -/
def execNotify (p tag kinds : Nat) (s : State) : Out :=
  s.request p tag <| .next ((s.modPkg p fun x => { x with notify := kinds }).respond p tag 0 [])

/-! ## Page migration (R191) -/

/-- A mapping of package q to n bytes reaches into a range of the memory of package p (R145). -/
def State.mapsInto (s : State) (q tgt pa n p src size : Nat) : Bool :=
  match (if tgt = 0 then some (s.pod q pa) else if tgt = 1 then some pa else none) with
  | some a => decide (a < s.pod p src + size ∧ s.pod p src < a + n)
  | none => false

/-- Pages that reach into a range of the memory of a package leave the buffers of every package. -/
def State.flushTlb (s : State) (p src size : Nat) : State :=
  { s with cores := ((List.range s.cores.length).zip s.cores).map fun z =>
      { z.2 with tlb := z.2.tlb.filter fun e => !s.mapsInto (z.1 / 256) e.tgt e.pa e.size p src size } }

/-- A range entry of some context maps part of a range of the memory of a package. -/
def State.rangeMaps (s : State) (p src size : Nat) : Bool :=
  s.ctxs.any fun x => x.ranges.any fun e => e.v && s.mapsInto x.pkg e.tgt e.pbase (e.limit - e.base) p src size

/-- Page-table entries written, each as package, address and value; a walk that has read one of them holds the new value, as the
service's invalidation leaves it (R147; entry 91). -/
def State.setPtes (s : State) (l : List (Nat × Nat × Nat)) : State :=
  l.foldl (fun (s : State) z =>
    let s := s.wr z.1 z.2.1 (natBytes 8 z.2.2)
    { s with walks := s.walks.map fun w =>
        if w.pkg = z.1 && w.started && w.table + 8 * pteIndex w.level w.page = z.2.1 then { w with entry := z.2.2 % 2 ^ 64 } else w }) s

/-- A page-table entry that maps nothing and grants nothing: V, RD, WR and AT cleared (R146). -/
def pteCleared (x : Nat) : Nat := x / 64 * 64 + x % 64 / 32 * 32 + x % 4 / 2 * 2

/-- The page-table entries that map the page of a migration, with their new values. -/
def migEntries (m : MigSpec) (p : Nat) : List (Nat × Nat × Nat) := (p, m.ptePa, m.pte) :: m.others

/-- A migration is well formed: whole pages of device memory of the package that was asked, and page-table entries of the pod's packages
(DESIGN CHOICE, entry 91). -/
def State.migOk (s : State) (p : Nat) (m : MigSpec) : Bool :=
  m.src % 4096 = 0 && m.dst % 4096 = 0 && m.size % 4096 = 0 && m.src + m.size ≤ hbmSize && m.dst + m.size ≤ hbmSize &&
    (migEntries m p).all fun z => z.1 < s.pkgs.length && z.2.1 % 8 = 0 && z.2.1 + 8 ≤ hbmSize

/-- The drain of a migration that every package has answered. -/
def Pkg.drained (x : Pkg) (tag : Nat) (m : MigSpec) : Option Drain :=
  x.drains.find? fun d => d.svcTag = some tag && d.mig = some m && d.left.isEmpty

/-- MIGRATE (R191): the page's entries are cleared in every context that maps it, their pages leave the buffers, and the drain
begins; when it has ended, the page is copied, the new mappings stand and the buffers lose what was filled meanwhile (R147). A page
that a range entry maps is not moved (entry 91). -/
def execMigrate (p tag : Nat) (m : MigSpec) (s : State) : Out :=
  match (s.pkg p).drained tag m with
  | some d =>
    let s := s.modPkg p fun x => { x with drains := x.drains.filter (·.id ≠ d.id) }
    let s := s.wr p m.dst (natBytes m.size (s.rd p m.src m.size))
    .next (((s.setPtes (migEntries m p)).flushTlb p m.src m.size).respond p tag 0 [])
  | none =>
    s.request p tag <|
    if !s.migOk p m then .next (s.respond p tag 1 [])
    else if s.rangeMaps p m.src m.size then .next (s.respond p tag 2 [])
    else
      let s := s.setPtes ((migEntries m p).map fun z => (z.1, z.2.1, pteCleared (s.rd z.1 z.2.1 8)))
      let s := s.flushTlb p m.src m.size
      .next (s.beginDrain p ⟨0, 0, 0, dkeyOf (s.pod p m.src), s.wtc, [], some tag, some m⟩)

/-! ## Start-up (R350, R351) -/

/-- Everything of a package leaves the records of the machine; its cores are as at reset. -/
def State.clearPkg (s : State) (p : Nat) : State :=
  let num := (s.pkg p).num
  let fl := (s.flights.filter (·.pkg = p)).map (·.id)
  { s with
    ctxs := s.ctxs.filter (·.pkg ≠ p), gangs := s.gangs.filter (·.pkg ≠ p), teams := s.teams.filter (·.pl.pkg ≠ p),
    cores := s.cores.take (256 * p) ++ List.replicate 256 Core.reset ++ s.cores.drop (256 * p + 256),
    flights := s.flights.filter (·.pkg ≠ p), landings := s.landings.filter fun l => !fl.contains l.flight,
    staged := s.staged.filter (·.pkg ≠ p), gathers := s.gathers.filter (·.pkg ≠ p), walks := s.walks.filter (·.pkg ≠ p),
    pcs := s.pcs.filter (·.pkg ≠ p), packets := s.packets.filter fun x => x.src ≠ num, objs := s.objs.filter (·.1 ≠ p) }

/-- The pod physical addresses of a package. -/
def ofPkg (num a : Nat) : Bool := a / 2 ^ 48 = num

/-- Another package of the state is ready (R350 step 8). -/
def State.podRuns (s : State) (p : Nat) : Bool := (s.pkgs.zip (List.range s.pkgs.length)).any fun z => z.2 ≠ p && z.1.boot = 0x80

/-- The count a package starts with at step 8 (R350): the running pod's, or one given from outside, or 0. The packages of the state are
one pod and have one count: a package that becomes ready while another is has that count, whether or not it is said to join (DESIGN
CHOICE, entry 77). -/
def State.startCount (s : State) (p count : Nat) : State :=
  if s.podRuns p then s
  else { s with wtc := count, agenda := [], due := [], ev := none, stage := 0 }

/-- The trained ports of package `num`: those with a partner among the ports that trained (R278, R280, R350 step 6). -/
def State.trainedPorts (s : State) (num : Nat) (l : List (Nat × Nat)) : List Port :=
  (List.range 32).map fun k => match l.find? (·.1 = k) with
    | some w => if s.hasPartner num k then { Port.reset with delay := 3 * w.2 + 32, wire := w.2, up := true } else Port.reset
    | none => Port.reset

/-- The step a start stops at, of those it runs: 0 for none. -/
def failedStep (runs bad : List Nat) : Nat := (runs.find? bad.contains).getD 0

/-- The steps a warm start runs (R351): 1 and 4 under their conditions, the full training of 5 on a mismatch, 2, 6 and 7. -/
def warmSteps (w : WarmFacts) : List Nat :=
  (if w.same then [] else [1]) ++ [2] ++ (if w.dv.natAbs ≤ 10 && w.dt.natAbs ≤ 5 then [] else [4]) ++
    (if w.mismatch then [5] else []) ++ [6, 7]

/-- A start that stopped reports its code in the mailbox status word; one that ended reads 0x80 (R350). -/
def State.bootWord (s : State) (p code : Nat) : State :=
  ((s.modPkg p fun x => { x with boot := code }).leave p 10 code 0 true []).notice p 11 code 0

/-- RESET (R351): every gang ends KILLED, and the package starts again with its power and fuses kept. Nothing a program may rely on is
left in its memory. A step that fails stops the start (entry 95). -/
def execWarmReset (p : Nat) (w : WarmFacts) (s : State) : Out :=
  let s := (s.gangs.filter (·.pkg = p)).foldl (fun (s : State) g =>
    (s.writeStatus p g.statusPa stKILLED).notice p 1 g.tag stKILLED) s
  let s := s.clearPkg p
  let x := s.pkg p
  let num := x.num
  let mem := s.mem.foldl (fun m c => if ofPkg num c.1 then memPut m c.1 [Config.warmByte c.1] else m) s.mem
  let s : State := { s with mem := mem }
  let s := s.modPkg p fun x => { Pkg.reset num with
    remap := x.remap, timeRoot := x.timeRoot, notify := x.notify }
  let code := failedStep (warmSteps w) w.bad
  if code ≠ 0 then .next ((s.bootWord p code).respondTo p (if code ≤ 2 then none else some w.tag) 3)
  else
    let s := s.modPkg p fun x => { x with ports := s.trainedPorts num w.ports }
    .next (((s.startCount p 0).bootWord p 0x80).respond p w.tag 0 [])

/-- COLD_START (R350): the steps in order; a failed one stops the start with its code. A package that finds no ready partner, and no
other ready in the pod, is the pod's time root. -/
def execColdStart (b : BootFacts) (s : State) : Out :=
  let p := min b.pkg s.pkgs.length
  let s : State := if p < s.pkgs.length then s
    else { s with pkgs := s.pkgs ++ [Pkg.reset b.num], cores := s.cores ++ List.replicate 256 Core.reset }
  let s := s.clearPkg p
  let num := b.num
  let out (a : Nat) : Bool := !ofPkg num a
  let s : State := { s with mem := s.mem.filter fun c => out c.1, uce := s.uce.filter out, sbe := s.sbe.filter out,
                            acc := s.acc.filter fun c => c.1 / accIx 1 0 0 0 ≠ p }
  if b.fail ≠ 0 then
    .next ((s.modPkg p fun _ => Pkg.reset num).bootWord p (min b.fail 7))
  else
    let s := s.modPkg p fun _ => { Pkg.reset num with remap := b.remap, timeRoot := !b.joins && !s.podRuns p }
    let s := s.modPkg p fun x => { x with ports := s.trainedPorts num b.ports }
    let s := s.startCount p (if b.joins then b.count else 0)
    .next (s.bootWord p 0x80)

/-! ## Margin and power (R349, R355) -/

/-- CANARY_WARNING (R349): the island's voltage rises by 5 mV; at the limit it is a fault of kind POWER, and the arbiter
throttles. -/
def execCanaryWarning (p island : Nat) (s : State) : Out :=
  let v := (s.pkg p).canary.getD island 50
  if v < 50 then .next ((s.modPkg p fun x => { x with canary := x.canary.set island (v + 5) }).notice p 9 island (v + 5))
  else .next ((s.modPkg p fun x => { x with throttled := true }).then (.scheduleFault p 12 256 0 0))

/-- POWER_MEASUREMENT (R355): what a package draws is known; the arbiter looks every 1,024 cycles, and more than 5 % above the budget
raises POWER, and the package throttles. -/
def execPowerMeasurement (p watts : Nat) (s : State) : Out :=
  let s := s.modPkg p fun x => { x with power := watts }
  if s.wtc % 1024 = 0 && (s.pkg p).budget * 105 < watts * 100 then
    .next ((s.modPkg p fun x => { x with throttled := true }).then (.scheduleFault p 12 256 0 0))
  else .next s

/-! ## Identity (R352) -/

/-- An SPDM answer of a kind leaves: its bytes are not stated (entry 11). -/
def State.spdmAnswer (s : State) (p kind a : Nat) : State :=
  let (i, s) := s.freeIndex
  s.leave p 8 kind a true (Config.spdmBytes i)

/-- The SPDM error UnsupportedRequest. -/
def State.spdmError (s : State) (p kind : Nat) : State := s.leave p 8 kind 0 false []

/-- SPDM_NEGOTIATION (R352): version 1.2 with ECDSA on P-256 and SHA-256 only. -/
def execSpdmNegotiation (p version : Nat) (p256 sha256 : Bool) (s : State) : Out :=
  if version = 0x12 && p256 && sha256 then .next ((s.modPkg p fun x => { x with spdm := true }).spdmAnswer p 0 version)
  else .next (s.spdmError p 0)

/-- SPDM_CERT (R352): slot 0 holds the chain. -/
def execSpdmCert (p slot : Nat) (s : State) : Out :=
  .next (if (s.pkg p).spdm && slot = 0 then s.spdmAnswer p 1 slot else s.spdmError p 1)

/-- SPDM_CHAL (R352). -/
def execSpdmChal (p slot nonce : Nat) (s : State) : Out :=
  .next (if (s.pkg p).spdm && slot = 0 then s.spdmAnswer p 2 nonce else s.spdmError p 2)

/-- SPDM_MEAS (R352): the measurement blocks 1 to 4, signed. -/
def execSpdmMeas (p index : Nat) (s : State) : Out :=
  .next (if (s.pkg p).spdm && 1 ≤ index && index ≤ 4 then s.spdmAnswer p 3 index else s.spdmError p 3)

/-- SPDM_UNSUPPORTED_REQUEST (R352). -/
def execSpdmUnsupportedRequest (p code : Nat) (s : State) : Out := .next (s.spdmError p code)

/-! ## Scale-out transfers (R360) -/

/-- Package memory behind a range: device memory or the LS of one core. -/
def ownRange (pa n : Nat) : Bool :=
  match homeOf pa with
  | .hbm => decide (pa + n ≤ hbmSize)
  | .ls _ off => decide (off + n ≤ 0x180000)
  | _ => false

/-- SCALE_OUT_TRANSFER (R360): the resident service moves bytes between package memory and the network. -/
def execScaleOutTransfer (p tag : Nat) (toNet : Bool) (pa n : Nat) (data : List Byte) (s : State) : Out :=
  s.request p tag <|
  if !ownRange pa n then .next (s.respond p tag 1 [])
  else if toNet then
    if s.uceAt p pa n then .next ((s.notice p 10 pa 0).respond p tag 3 [])
    else
      let s := s.correct p pa n
      .next ((s.leave p 9 tag pa true (natBytes n (s.rd p pa n))).respond p tag 0 [])
  else .next ((s.wr p pa (data.take n)).respond p tag 0 [])

end Sys2Proof.Machine
end

