-- ==== Sys2Proof/Machine/Cycle.lean ====
section
/-! DEFINITION. The order of steps within a cycle, what comes due at each place of it, and the end of a cycle. Also the
placing of one word for evaluation, which stands for the loading of a program. -/

namespace Sys2Proof.Machine

/-! ## What comes due as a cycle begins

Each of these conditions is ended by the step it makes due. -/

/-- A core with a clause, a card, a queued card or a slot to land has something to do. -/
def Core.busy (x : Core) : Bool :=
  x.run.isSome || !x.cards.isEmpty || !x.landing.isEmpty || x.queues.any fun q => !q.ready.isEmpty

/-- The cores with something to do, ascending, as package and core. -/
def State.busyCores (s : State) : List (Nat × Nat) :=
  (((List.range s.cores.length).zip s.cores).filter (·.2.busy)).map fun z => (z.1 / 256, z.1 % 256)

/-- The cores with a team that has not ended, ascending. -/
def State.teamCores (s : State) : List (Nat × Nat) :=
  let at_ := (s.teams.filter (!·.ended)).map fun t => 256 * t.pl.pkg + t.pl.core
  ((List.range s.cores.length).filter at_.contains).map fun i => (i / 256, i % 256)

/-- The step that starts a card on its engine (R264). -/
def startEvent (p c : Nat) (k : Card) : Option Instr :=
  let ty := cType k.words
  if k.q = 0 then
    if ty = 1 then some (.mm p c k.id) else if ty = 2 then some (.mzero p c k.id)
    else if ty = 3 then some (.aload p c k.id) else if ty = 4 then some (.adrain p c k.id) else none
  else if k.q = 1 then
    if ty = 1 then some (.copy p c k.id) else if ty = 2 then some (.fill p c k.id)
    else if ty = 3 then some (.gather p c k.id) else none
  else if k.q = 2 then
    if ty = 1 then some (.quant p c k.id) else if ty = 2 then some (.dequant p c k.id) else none
  else
    if ty = 1 then some (.sendat p c k.id) else if ty = 2 then some (.recvat p c k.id)
    else if ty = 3 then some (.ringput p c k.id) else if ty = 4 then some (.ringdef p c k.id)
    else if ty = 5 then some (.quiet p c k.id) else none

/-- The first card of a core that may start now. -/
def State.startable (s : State) (p c : Nat) : Option Instr :=
  (s.core p c).cards.findSome? fun k => if s.mayStart p c k then startEvent p c k else none

/-- The first queue of a core whose head card is accepted now. -/
def State.acceptable (s : State) (p c : Nat) : Option Instr :=
  ((List.range 4).find? fun q => match s.acceptAt p c q with | some a => decide (a ≤ s.wtc) | none => false).map
    (.cardAcceptance p c)

/-- A team that enters a trap by cycle n. -/
def State.trapTeam (s : State) (n : Nat) : Option Instr :=
  (s.teams.find? fun t => (s.nextTrap t n).isSome).map fun t => .trapEntry t.id

/-- The next step due as the cycle begins, if any. -/
def State.beginStep (s : State) : Option Instr :=
  ((s.teams.find? s.teamDone).map fun t => .teamEnd t.id)
  <|> ((s.gangs.find? s.killDone).map fun g => .killCompletion g.id)
  <|> s.trapTeam s.wtc
  <|> (s.busyCores.findSome? fun z => (s.dueEdge z.1 z.2).map fun e => .edgeRelease z.1 z.2 e.1 e.2)
  <|> (s.busyCores.findSome? fun z => s.acceptable z.1 z.2)
  <|> (s.busyCores.findSome? fun z => s.startable z.1 z.2)

/-! ## The agenda within a cycle -/

/-- The first entry of the agenda, where it is due in this cycle or was before, at a place below a limit. -/
def State.nextEntry (s : State) (limit : Nat) : Option (Instr × State) :=
  match s.agenda with
  | e :: rest =>
    if e.cyc < s.wtc || (e.cyc = s.wtc && e.prio < limit) then some (e.ev, { s with agenda := rest }) else none
  | [] => none

/-- A step put in front of those due. -/
def State.push (s : State) (i : Instr) : State := { s with due := .op i :: s.due }

def State.goTo (s : State) (n : Nat) : State := { s with stage := n }

/-- The agenda below a limit, one entry at a time; then the next place of the cycle. -/
def State.drain (s : State) (limit next : Nat) : State :=
  match s.nextEntry limit with
  | some (i, t) => t.push i
  | none => s.goTo next

/-! ## The places of a cycle -/

/-- The pseudo-channel whose refresh phase point this cycle is, as a step for each package (R160). -/
def State.phasePoints (s : State) : List Due :=
  let r := s.wtc % 4875
  if r % 76 = 0 && r / 76 < 64 then (List.range s.pkgs.length).map fun p => .op (.refreshPhasePoint p (r / 76)) else []

/-- The correction pulses of both dies of every package, every 2^16 cycles (R306), and the power measurements, every 1,024 (R355). -/
def State.periodic (s : State) : List Due :=
  let each (f : Nat → List Instr) : List Due := (List.range s.pkgs.length).flatMap fun p => (f p).map .op
  if s.wtc = 0 || s.wtc % 1024 ≠ 0 then []
  else each (fun p => [.powerMeasurement p (s.pkg p).power]) ++
    if s.wtc % 65536 = 0 then each fun p => [.correctionPulse p ⟨0, []⟩, .correctionPulse p ⟨1, []⟩] else []

/-- The timestamps of R306 leave every 2^16 cycles. -/
def State.stampTime (s : State) : State := if s.wtc ≠ 0 && s.wtc % 65536 = 0 then s.sendStamps else s

/-- The passes that begin in this cycle, of SYNC clauses or of the others (R44). -/
def State.evals (s : State) (sync : Bool) : List Due :=
  (s.busyCores.filter fun z => match (s.core z.1 z.2).run with
    | some r => r.first = s.wtc && r.done.isNone && (r.cls = .sync) = sync
    | none => false).map fun z => .eval z.1 z.2

/-- The cores on which a clause starts in this cycle. -/
def State.starts (s : State) : List Due :=
  (s.teamCores.filter fun z => (s.nextTeam z.1 z.2).isSome).map fun z => .op (.clauseStart z.1 z.2)

/-- The passes that stand in their last cycle. -/
def State.commits (s : State) : List Due :=
  (s.busyCores.filter fun z => match (s.core z.1 z.2).run with
    | some r => r.last = s.wtc && r.done.isSome
    | none => false).map fun z => .commit z.1 z.2

/-- The teams one of whose fences ends in this cycle. -/
def State.fenceEnders (s : State) : List Due :=
  (s.teams.filter fun t => t.waits.any (s.fenceDone t)).map fun t => .op (.fenceCompletion t.id)

/-- The gangs that end with this cycle. -/
def State.gangEnders (s : State) : List Due := (s.gangs.filter s.gangDone).map fun g => .op (.gangEnd g.id)

/-- The machine does its next piece of a cycle when nothing is due: at places 0 to 8 it finds what comes due there, at 9 the
cycle ends. One count serves every island and package: readings of one cycle never differ (R27; DESIGN CHOICE, entry 77). -/
def State.advance (s : State) : State :=
  match s.stage with
  | 0 =>
    match s.nextEntry pMid with
    | some (i, t) => t.push i
    | none => match s.beginStep with
      | some i => s.push i
      | none => s.goTo 1
  | 1 =>
    let s := s.stampTime
    { s with due := s.periodic ++ s.phasePoints ++ s.evals false ++ s.starts, stage := 2 }
  | 2 => s.drain pEnd 3
  | 3 => { s with due := s.evals true, stage := 4 }
  | 4 => { s with due := s.commits, stage := 5 }
  | 5 =>
    let s := s.wakePhases.tagBoard
    { s with due := s.fenceEnders, stage := 6 }
  | 6 => match s.trapTeam (s.wtc + 1) with
    | some i => s.push i
    | none => s.goTo 7
  | 7 => s.drain 1000 8
  | 8 =>
    let s := s.busyCores.foldl (fun (s : State) z => s.endReceives z.1 z.2) s
    { s with due := s.gangEnders, stage := 9 }
  | _ =>
    let s := s.beginAdmissions.sweepCards
    { s with wtc := s.wtc + 1, stage := 0 }

/-! ## One word placed for evaluation -/

/-- A team of one warp on core 0 of package 0, with every register, 4 KiB of LS and an a-tile, between two of its clauses. -/
def loaderTeam (t g at_ : Nat) : Team :=
  Team.start t ⟨0, 0, 0, 0, 0, g, 1, 112, 512, 4096, 0, 1, 0, 0, 16, 0, 8, 1⟩ 0 at_

/-- Its gang: one block of one team, started, untimed. -/
def loaderGang (g at_ : Nat) : Gang :=
  { id := g, num := 0, ctx := 0, pkg := 0, desc := ⟨0, 1, 1, 1, 112, 512, 1, 1, 0, 0, 0, 0, 0, 0⟩, starts := [0],
    statusPa := none, startAt := at_, started := true, state := .run, ended := 0, killAt := none, killCause := 0,
    killImp := false, killBank := none, killTeam := 0, wdog := none, join := 0, rounds := [], released := [], switch := none,
    image := 0, saves := [], charge := 0, quiets := [], wdogHit := false, tag := 0, fills := [], objs := [] }

/-- Its clause: a header of the class and the word with a literal behind it, in its first pass. -/
def loaderRun (t : Nat) (cls : Cls) (ws : List Word) (at_ : Nat) : Run :=
  { team := t, hdr := 0, cls := cls, win := 0, eng := 0, words := ws, start := at_, cost := 1, passes := [List.range 32],
    formed := [List.range 32], pass := 1, first := at_, last := at_, ref := [], trap := none, done := none, failed := [] }

/-- The state with a privileged one-warp team on core 0 whose pass under evaluation stands at the word; a word that no class
makes legal stands in a FLOW clause. -/
def State.place (s : State) (w : Word) : State :=
  let t := s.nextId
  let g := s.nextId + 1
  let cls := (tableClass w).getD .flow
  let tm := loaderTeam t g s.wtc
  let r := loaderRun t cls [w, 0] s.wtc
  let s : State := { s with nextId := s.nextId + 2, teams := s.teams ++ [tm], gangs := s.gangs ++ [loaderGang g s.wtc],
                            ctxs := s.ctxs ++ [⟨0, 0, true, [], 0, 0, 0, 0, []⟩], ev := some (curOf tm r (List.range 32)) }
  s.modCore 0 0 fun x => { x with run := some r }

end Sys2Proof.Machine
end

