-- ==== Sys2Proof/Machine/Dispatch.lean ====
section
/-! DEFINITION. One arm per instruction: each calls its own meaning. -/

namespace Sys2Proof.Machine

/-- What an instruction, operation or event does to the machine. -/
def exec (i : Instr) (s : State) : Host.Outcome State Fault Refusal :=
  match i with
  | .clauseStart p c => Sys2Proof.Machine.execClauseStart p c s
  | .teamEnd t => Sys2Proof.Machine.execTeamEnd t s
  | .gangEnd g => Sys2Proof.Machine.execGangEnd g s
  | .mov w => Sys2Proof.Machine.execMov w s
  | .sel w => Sys2Proof.Machine.execSel w s
  | .iadd w => Sys2Proof.Machine.execIadd w s
  | .isub w => Sys2Proof.Machine.execIsub w s
  | .imul w => Sys2Proof.Machine.execImul w s
  | .imulhS w => Sys2Proof.Machine.execImulhS w s
  | .imulhN w => Sys2Proof.Machine.execImulhN w s
  | .imad w => Sys2Proof.Machine.execImad w s
  | .idivS w => Sys2Proof.Machine.execIdivS w s
  | .idivN w => Sys2Proof.Machine.execIdivN w s
  | .iremS w => Sys2Proof.Machine.execIremS w s
  | .iremN w => Sys2Proof.Machine.execIremN w s
  | .iminS w => Sys2Proof.Machine.execIminS w s
  | .imaxS w => Sys2Proof.Machine.execImaxS w s
  | .iminN w => Sys2Proof.Machine.execIminN w s
  | .imaxN w => Sys2Proof.Machine.execImaxN w s
  | .and w => Sys2Proof.Machine.execAnd w s
  | .or w => Sys2Proof.Machine.execOr w s
  | .xor w => Sys2Proof.Machine.execXor w s
  | .andn w => Sys2Proof.Machine.execAndn w s
  | .shl w => Sys2Proof.Machine.execShl w s
  | .shr w => Sys2Proof.Machine.execShr w s
  | .sar w => Sys2Proof.Machine.execSar w s
  | .rol w => Sys2Proof.Machine.execRol w s
  | .iun w op => Sys2Proof.Machine.execIun w op s
  | .bfxS w => Sys2Proof.Machine.execBfxS w s
  | .bfxN w => Sys2Proof.Machine.execBfxN w s
  | .bfi w => Sys2Proof.Machine.execBfi w s
  | .iaddSat w => Sys2Proof.Machine.execIaddSat w s
  | .isubSat w => Sys2Proof.Machine.execIsubSat w s
  | .idp4 w => Sys2Proof.Machine.execIdp4 w s
  | .cardf w => Sys2Proof.Machine.execCardf w s
  | .icmpEq w => Sys2Proof.Machine.execIcmpEq w s
  | .icmpNe w => Sys2Proof.Machine.execIcmpNe w s
  | .icmpLtS w => Sys2Proof.Machine.execIcmpLtS w s
  | .icmpLeS w => Sys2Proof.Machine.execIcmpLeS w s
  | .icmpLtN w => Sys2Proof.Machine.execIcmpLtN w s
  | .icmpLeN w => Sys2Proof.Machine.execIcmpLeN w s
  | .fcmpEq w => Sys2Proof.Machine.execFcmpEq w s
  | .fcmpLt w => Sys2Proof.Machine.execFcmpLt w s
  | .fcmpLe w => Sys2Proof.Machine.execFcmpLe w s
  | .fcmpUn w => Sys2Proof.Machine.execFcmpUn w s
  | .plop w => Sys2Proof.Machine.execPlop w s
  | .ptov w => Sys2Proof.Machine.execPtov w s
  | .vtop w => Sys2Proof.Machine.execVtop w s
  | .shfi w => Sys2Proof.Machine.execShfi w s
  | .shfu w => Sys2Proof.Machine.execShfu w s
  | .shfd w => Sys2Proof.Machine.execShfd w s
  | .shfx w => Sys2Proof.Machine.execShfx w s
  | .tshfi w => Sys2Proof.Machine.execTshfi w s
  | .vote w neg q mode => Sys2Proof.Machine.execVote w neg q mode s
  | .scanI w op excl => Sys2Proof.Machine.execScanI w op excl s
  | .scanF w op excl => Sys2Proof.Machine.execScanF w op excl s
  | .tredI w op => Sys2Proof.Machine.execTredI w op s
  | .tredF w op => Sys2Proof.Machine.execTredF w op s
  | .getl w op => Sys2Proof.Machine.execGetl w op s
  | .fadd w => Sys2Proof.Machine.execFadd w s
  | .fsub w => Sys2Proof.Machine.execFsub w s
  | .fmul w => Sys2Proof.Machine.execFmul w s
  | .ffma w => Sys2Proof.Machine.execFfma w s
  | .fmin w => Sys2Proof.Machine.execFmin w s
  | .fmax w => Sys2Proof.Machine.execFmax w s
  | .funW w op => Sys2Proof.Machine.execFun w op s
  | .cvt w dir sat rtz x => Sys2Proof.Machine.execCvt w dir sat rtz x s
  | .ldlN w => Sys2Proof.Machine.execLdlN w s
  | .ldlS w => Sys2Proof.Machine.execLdlS w s
  | .stl w => Sys2Proof.Machine.execStl w s
  | .ldlv w => Sys2Proof.Machine.execLdlv w s
  | .stlv w => Sys2Proof.Machine.execStlv w s
  | .ldgN w => Sys2Proof.Machine.execLdgN w s
  | .ldgS w => Sys2Proof.Machine.execLdgS w s
  | .stg w => Sys2Proof.Machine.execStg w s
  | .ldgv w => Sys2Proof.Machine.execLdgv w s
  | .stgv w => Sys2Proof.Machine.execStgv w s
  | .ldrN w => Sys2Proof.Machine.execLdrN w s
  | .ldrS w => Sys2Proof.Machine.execLdrS w s
  | .str w => Sys2Proof.Machine.execStr w s
  | .strZ w => Sys2Proof.Machine.execStrZ w s
  | .atl w => Sys2Proof.Machine.execAtl w s
  | .atln w => Sys2Proof.Machine.execAtln w s
  | .atg w => Sys2Proof.Machine.execAtg w s
  | .atgn w => Sys2Proof.Machine.execAtgn w s
  | .atr w => Sys2Proof.Machine.execAtr w s
  | .atrn w => Sys2Proof.Machine.execAtrn w s
  | .accrd w => Sys2Proof.Machine.execAccrd w s
  | .accwr w => Sys2Proof.Machine.execAccwr w s
  | .loadDataWritten l => Sys2Proof.Machine.execLoadDataWritten l s
  | .stagedStorePerformed r => Sys2Proof.Machine.execStagedStorePerformed r s
  | .lsAtomicPerformed r => Sys2Proof.Machine.execLsAtomicPerformed r s
  | .packageGlobalAccess r => Sys2Proof.Machine.execPackageGlobalAccess r s
  | .gatherPacketArrival r => Sys2Proof.Machine.execGatherPacketArrival r s
  | .segmentServed p n => Sys2Proof.Machine.execSegmentServed p n s
  | .pageWalk p q => Sys2Proof.Machine.execPageWalk p q s
  | .walkLevelRead p q => Sys2Proof.Machine.execWalkLevelRead p q s
  | .faultReport r => Sys2Proof.Machine.execFaultReport r s
  | .refreshPhasePoint p k => Sys2Proof.Machine.execRefreshPhasePoint p k s
  | .computeBoundRefresh p n => Sys2Proof.Machine.execComputeBoundRefresh p n s
  | .parityAlertReplay p n => Sys2Proof.Machine.execParityAlertReplay p n s
  | .tubOffer r => Sys2Proof.Machine.execTubOffer r s
  | .tubFreeInsertion p => Sys2Proof.Machine.execTubFreeInsertion p s
  | .ageTrigger p n => Sys2Proof.Machine.execAgeTrigger p n s
  | .elasticSlotSend p n => Sys2Proof.Machine.execElasticSlotSend p n s
  | .intermediateForward p r => Sys2Proof.Machine.execIntermediateForward p r s
  | .packetTakenIn p r => Sys2Proof.Machine.execPacketTakenIn p r s
  | .elementIssue p r j => Sys2Proof.Machine.execElementIssue p r j s
  | .elementPerformed p r j => Sys2Proof.Machine.execElementPerformed p r j s
  | .acknowledgementSend p r => Sys2Proof.Machine.execAcknowledgementSend p r s
  | .acknowledgementArrival p r => Sys2Proof.Machine.execAcknowledgementArrival p r s
  | .remoteOldValueWritten p r => Sys2Proof.Machine.execRemoteOldValueWritten p r s
  | .tubTimeout p r => Sys2Proof.Machine.execTubTimeout p r s
  | .tuberrRecordWrite r => Sys2Proof.Machine.execTuberrRecordWrite r s
  | .tuberrHeadAdvance r => Sys2Proof.Machine.execTuberrHeadAdvance r s
  | .remoteLoadRequest r => Sys2Proof.Machine.execRemoteLoadRequest r s
  | .remoteLoadAccess p r j => Sys2Proof.Machine.execRemoteLoadAccess p r j s
  | .remoteLoadReply p r => Sys2Proof.Machine.execRemoteLoadReply p r s
  | .remoteLoadReplyArrival p r => Sys2Proof.Machine.execRemoteLoadReplyArrival p r s
  | .remoteLoadTimeout p r => Sys2Proof.Machine.execRemoteLoadTimeout p r s
  | .ualinkCompletion p r j err old => Sys2Proof.Machine.execUalinkCompletion p r j err old s
  | .podFenceDrain t => Sys2Proof.Machine.execPodFenceDrain t s
  | .tflushEffect p t key => Sys2Proof.Machine.execTflushEffect p t key s
  | .migdrainReceipt p r => Sys2Proof.Machine.execMigdrainReceipt p r s
  | .migdrainReply r timeout => Sys2Proof.Machine.execMigdrainReply r timeout s
  | .barrierObjectUpdate r => Sys2Proof.Machine.execBarrierObjectUpdate r s
  | .waitphDeadline t => Sys2Proof.Machine.execWaitphDeadline t s
  | .barnRoundComplete t scope => Sys2Proof.Machine.execBarnRoundComplete t scope s
  | .fenceCompletion t => Sys2Proof.Machine.execFenceCompletion t s
  | .tagBoardRelease g b => Sys2Proof.Machine.execTagBoardRelease g b s
  | .binit w => Sys2Proof.Machine.execBinit w s
  | .barv w => Sys2Proof.Machine.execBarv w s
  | .bexp w => Sys2Proof.Machine.execBexp w s
  | .waitph w => Sys2Proof.Machine.execWaitph w s
  | .testph w => Sys2Proof.Machine.execTestph w s
  | .barn w => Sys2Proof.Machine.execBarn w s
  | .bcred w => Sys2Proof.Machine.execBcred w s
  | .fence w => Sys2Proof.Machine.execFence w s
  | .xfence w => Sys2Proof.Machine.execXfence w s
  | .tflush w => Sys2Proof.Machine.execTflush w s
  | .tbenter w => Sys2Proof.Machine.execTbenter w s
  | .tbrel w => Sys2Proof.Machine.execTbrel w s
  | .nop w => Sys2Proof.Machine.execNop w s
  | .bra w => Sys2Proof.Machine.execBra w s
  | .brp w => Sys2Proof.Machine.execBrp w s
  | .brq w => Sys2Proof.Machine.execBrq w s
  | .brx w => Sys2Proof.Machine.execBrx w s
  | .call w => Sys2Proof.Machine.execCall w s
  | .ret w => Sys2Proof.Machine.execRet w s
  | .rcv w => Sys2Proof.Machine.execRcv w s
  | .join w => Sys2Proof.Machine.execJoin w s
  | .brk w k => Sys2Proof.Machine.execBrk w k s
  | .exit w => Sys2Proof.Machine.execExit w s
  | .waitc w => Sys2Proof.Machine.execWaitc w s
  | .launch w => Sys2Proof.Machine.execLaunch w s
  | .waitcRelease t => Sys2Proof.Machine.execWaitcRelease t s
  | .admissionCompletion p => Sys2Proof.Machine.execAdmissionCompletion p s
  | .gangStart g => Sys2Proof.Machine.execGangStart g s
  | .cardAcceptance p c q => Sys2Proof.Machine.execCardAcceptance p c q s
  | .mm p c r => Sys2Proof.Machine.execMm p c r s
  | .mzero p c r => Sys2Proof.Machine.execMzero p c r s
  | .aload p c r => Sys2Proof.Machine.execAload p c r s
  | .adrain p c r => Sys2Proof.Machine.execAdrain p c r s
  | .matrixStep p c n part => Sys2Proof.Machine.execMatrixStep p c n part s
  | .reExecution p c n => Sys2Proof.Machine.execReExecution p c n s
  | .engineCredit p c src off bytes => Sys2Proof.Machine.execEngineCredit p c src off bytes s
  | .edgeRelease p c r j => Sys2Proof.Machine.execEdgeRelease p c r j s
  | .copy p c r => Sys2Proof.Machine.execCopy p c r s
  | .fill p c r => Sys2Proof.Machine.execFill p c r s
  | .gather p c r => Sys2Proof.Machine.execGather p c r s
  | .haulPieceRead p c part => Sys2Proof.Machine.execHaulPieceRead p c part s
  | .haulPieceWrite p c => Sys2Proof.Machine.execHaulPieceWrite p c s
  | .quant p c r => Sys2Proof.Machine.execQuant p c r s
  | .dequant p c r => Sys2Proof.Machine.execDequant p c r s
  | .grinderGroup p c n part => Sys2Proof.Machine.execGrinderGroup p c n part s
  | .sendat p c r => Sys2Proof.Machine.execSendat p c r s
  | .sendatChunkRead p c r m => Sys2Proof.Machine.execSendatChunkRead p c r m s
  | .scheduledSlotSend p c r k => Sys2Proof.Machine.execScheduledSlotSend p c r k s
  | .recvat p c r => Sys2Proof.Machine.execRecvat p c r s
  | .slotDelivery p r => Sys2Proof.Machine.execSlotDelivery p r s
  | .landingWrite p c => Sys2Proof.Machine.execLandingWrite p c s
  | .crcReplay p n => Sys2Proof.Machine.execCrcReplay p n s
  | .ringdef p c r => Sys2Proof.Machine.execRingdef p c r s
  | .ringput p c r => Sys2Proof.Machine.execRingput p c r s
  | .ringMessageArrival p r => Sys2Proof.Machine.execRingMessageArrival p r s
  | .ringChunkWrite p c r k => Sys2Proof.Machine.execRingChunkWrite p c r k s
  | .ringAckArrival p r => Sys2Proof.Machine.execRingAckArrival p r s
  | .ringTimeout p r => Sys2Proof.Machine.execRingTimeout p r s
  | .quiet p c r => Sys2Proof.Machine.execQuiet p c r s
  | .quietCheck p c r => Sys2Proof.Machine.execQuietCheck p c r s
  | .scheduleFault p kind core slot ctx => Sys2Proof.Machine.execScheduleFault p kind core slot ctx s
  | .haltReceipt p b orig kind => Sys2Proof.Machine.execHaltReceipt p b orig kind s
  | .haltAtBoundary p => Sys2Proof.Machine.execHaltAtBoundary p s
  | .restart p => Sys2Proof.Machine.execRestart p s
  | .frameBoundary p => Sys2Proof.Machine.execFrameBoundary p s
  | .correctionPulse p x => Sys2Proof.Machine.execCorrectionPulse p x s
  | .timestampExchange p skew => Sys2Proof.Machine.execTimestampExchange p skew s
  | .ptpMessage p offset => Sys2Proof.Machine.execPtpMessage p offset s
  | .csrr w => Sys2Proof.Machine.execCsrr w s
  | .csrw w => Sys2Proof.Machine.execCsrw w s
  | .csrs w => Sys2Proof.Machine.execCsrs w s
  | .csrc w => Sys2Proof.Machine.execCsrc w s
  | .trapW w => Sys2Proof.Machine.execTrapW w s
  | .tret w => Sys2Proof.Machine.execTret w s
  | .kill w => Sys2Proof.Machine.execKill w s
  | .shiftW w => Sys2Proof.Machine.execShiftW w s
  | .wdog w => Sys2Proof.Machine.execWdog w s
  | .dbrk w => Sys2Proof.Machine.execDbrk w s
  | .migdrain w => Sys2Proof.Machine.execMigdrain w s
  | .wtcloRead reg => Sys2Proof.Machine.execWtcloRead reg s
  | .hashmHeldWrite p k x => Sys2Proof.Machine.execHashmHeldWrite p k x s
  | .hashm8Apply p x => Sys2Proof.Machine.execHashm8Apply p x s
  | .tubageWrite p x => Sys2Proof.Machine.execTubageWrite p x s
  | .csrWrite t idx kind old x => Sys2Proof.Machine.execCsrWrite t idx kind old x s
  | .trapEntry t => Sys2Proof.Machine.execTrapEntry t s
  | .gangKill g cause => Sys2Proof.Machine.execGangKill g cause s
  | .killCompletion g => Sys2Proof.Machine.execKillCompletion g s
  | .watchdogExpiry g => Sys2Proof.Machine.execWatchdogExpiry g s
  | .swtch g => Sys2Proof.Machine.execSwtch g s
  | .spill p c g k => Sys2Proof.Machine.execSpill p c g k s
  | .spillComplete g => Sys2Proof.Machine.execSpillComplete g s
  | .spilledReplyWrite l => Sys2Proof.Machine.execSpilledReplyWrite l s
  | .fillComplete g => Sys2Proof.Machine.execFillComplete g s
  | .coldStart b => Sys2Proof.Machine.execColdStart b s
  | .canaryWarning p island => Sys2Proof.Machine.execCanaryWarning p island s
  | .powerMeasurement p watts => Sys2Proof.Machine.execPowerMeasurement p watts s
  | .spdmCert p slot => Sys2Proof.Machine.execSpdmCert p slot s
  | .spdmChal p slot nonce => Sys2Proof.Machine.execSpdmChal p slot nonce s
  | .spdmMeas p index => Sys2Proof.Machine.execSpdmMeas p index s
  | .hostWindowAccess p r => Sys2Proof.Machine.execHostWindowAccess p r s
  | .hostCompletionArrival p r ok data => Sys2Proof.Machine.execHostCompletionArrival p r ok data s
  | .atsTranslationResponse p r found rd wr pa => Sys2Proof.Machine.execAtsTranslationResponse p r found rd wr pa s
  | .priPageResponse p r success => Sys2Proof.Machine.execPriPageResponse p r success s
  | .atsInvalidateRequest p base size => Sys2Proof.Machine.execAtsInvalidateRequest p base size s
  | .bar2HostAccess p off n write data => Sys2Proof.Machine.execBar2HostAccess p off n write data s
  | .ualinkTargetRequest p stn r => Sys2Proof.Machine.execUalinkTargetRequest p stn r s
  | .ctxCreate p tag x => Sys2Proof.Machine.execCtxCreate p tag x s
  | .ctxDestroy p tag ctx => Sys2Proof.Machine.execCtxDestroy p tag ctx s
  | .launchRequest p tag ctx desc join njoin => Sys2Proof.Machine.execLaunchRequest p tag ctx desc join njoin s
  | .killRequest p tag gang => Sys2Proof.Machine.execKillRequest p tag gang s
  | .fillRequest p tag gang half => Sys2Proof.Machine.execFillRequest p tag gang half s
  | .shiftRequest p tag cyc out inc => Sys2Proof.Machine.execShiftRequest p tag cyc out inc s
  | .schedSet p tag ctx va boundary => Sys2Proof.Machine.execSchedSet p tag ctx va boundary s
  | .schedClear p tag => Sys2Proof.Machine.execSchedClear p tag s
  | .restartRequest p tag x => Sys2Proof.Machine.execRestartRequest p tag x s
  | .config p tag x => Sys2Proof.Machine.execConfig p tag x s
  | .migrate p tag x => Sys2Proof.Machine.execMigrate p tag x s
  | .throttleClear p tag => Sys2Proof.Machine.execThrottleClear p tag s
  | .warmReset p w => Sys2Proof.Machine.execWarmReset p w s
  | .notify p tag kinds => Sys2Proof.Machine.execNotify p tag kinds s
  | .matrixTileChunk p c k part => Sys2Proof.Machine.execMatrixTileChunk p c k part s
  | .ringMessageDeparture p c r => Sys2Proof.Machine.execRingMessageDeparture p c r s
  | .linkTraining p n wire up => Sys2Proof.Machine.execLinkTraining p n wire up s
  | .podFenceTimeout t c => Sys2Proof.Machine.execPodFenceTimeout t c s
  | .joinTimeout p join => Sys2Proof.Machine.execJoinTimeout p join s
  | .spdmNegotiation p version p256 sha256 => Sys2Proof.Machine.execSpdmNegotiation p version p256 sha256 s
  | .spdmUnsupportedRequest p code => Sys2Proof.Machine.execSpdmUnsupportedRequest p code s
  | .scaleOutTransfer p tag toNet pa n data => Sys2Proof.Machine.execScaleOutTransfer p tag toNet pa n data s

end Sys2Proof.Machine
end

