-- ==== Sys2Proof/Machine/Step.lean ====
section
/-! DEFINITION. One step of the machine, and the placing of an instruction where the next step fetches it. -/

namespace Sys2Proof.Machine

/-- One step. A pass under evaluation does its next word, a word that is none raising ILL (R63, R64); else the next thing due within the cycle is done; else the machine
finds what comes due next (R23, R24, R45). -/
def step (s : State) : Host.Outcome State Fault Refusal :=
  match s.ev with
  | some c =>
    match c.words with
    | [] => .next (s.finishPass c)
    | w :: _ =>
      match decode c.cls w with
      | .ok i => exec i s
      | .error r => .next (s.rejectWord c r)
  | none =>
    match s.due with
    | .op i :: rest => exec i { s with due := rest }
    | .eval p c :: rest => .next (({ s with due := rest } : State).beginPass p c)
    | .commit p c :: rest => .next (({ s with due := rest } : State).commitPass p c)
    | [] => .next s.advance

/-- The state whose next step runs the instruction of a word (entry 1). -/
def State.withFetchWord (s : State) (nbits w : Nat) : State := s.place (BitVec.ofNat 32 (w % 2 ^ nbits))

end Sys2Proof.Machine
end

