-- ==== Sys2Proof/Safety.lean ====
section
/-! DEFINITION. What counts as a safe state and a safe run, and the terms in which the statements about words are made. -/

namespace Sys2Proof

/-- The two sparse stores stand in their canonical form. -/
def Safe (s : Machine.State) : Prop := Machine.memWf s.mem ∧ Machine.accWf s.acc

/-- The machine reaches a state from another in some number of steps, none of which is a fault or a refusal. -/
inductive Reaches : Machine.State → Machine.State → Prop where
  | refl (s : Machine.State) : Reaches s s
  | tail (s t u : Machine.State) : Reaches s t → Machine.step t = .next u → Reaches s u

namespace Machine

/-- The pass behind an instruction word: what the word adds to the commit (R45), and the words and cycles it takes with its
literal (R41, R44). -/
def afterWord (c : Cur) (new : List Act) (lit : Bool) (cost : Nat) : Cur :=
  { c with acts := c.acts ++ new, words := c.words.drop (if lit then 2 else 1), pos := c.pos + (if lit then 2 else 1),
           nth := c.nth + 1, off := c.off + cost + (if lit then 1 else 0), count := c.count + 1 }

/-- The write of destination D (R38, R39, R45): registers of lanes, a uniform register, or a queue. -/
def writesOf (c : Cur) (nw : Bool) (d : BitVec 7) (vals : List (Nat × Word)) : List Act :=
  if nw then []
  else if c.cls = .unif then
    (vals.take 1).map fun v =>
      if d.toNat < 112 then .ureg ((8 * c.win + d.toNat) % 512) v.2 else .push c.pos (d.toNat - 112) v.2
  else [.vreg d.toNat vals]

/-- The pass behind a word that computes a value in each guarded lane (R45, R46, R50, R88): the guarded lanes' results go
to D, and every lane's latch b1 takes its result, or D as it was where the guard is false. -/
def withValues (t : Team) (c : Cur) (nw pn : Bool) (pr : BitVec 3) (d : BitVec 7) (lit : Bool) (cost : Nat) (f : Nat → Word) :
    Cur :=
  afterWord (c.shift (c.lanes.map fun l => if guardA t c pn pr l then f l else dOld t c d l))
    (writesOf c nw d ((c.lanes.filter (guardA t c pn pr)).map fun l => (l, f l))) lit cost

/-- The write of predicate q (R18, R98): nothing where NW is set or q is 7. -/
def truthsOf (c : Cur) (nw : Bool) (q : BitVec 3) (vals : List (Nat × Bool)) : List Act :=
  if nw || q = 7 then [] else if c.cls = .unif then (vals.take 1).map fun v => .upred q.toNat v.2 else [.vpred q.toNat vals]

/-- The pass behind a word that computes a truth value in each guarded lane (R46, R98): it is combined into the predicate,
and b1 takes the predicate as 1 or 0. -/
def withTruths (t : Team) (c : Cur) (nw pn : Bool) (pr : BitVec 3) (mode : CMode) (q : BitVec 3) (lit : Bool)
    (f : Nat → Bool) : Cur :=
  afterWord
    (c.shift (c.lanes.map fun l =>
      if (if guardA t c pn pr l then combine mode (predA t c q l) (f l) else predA t c q l) then 1 else 0))
    (truthsOf c nw q ((c.lanes.filter (guardA t c pn pr)).map fun l => (l, combine mode (predA t c q l) (f l)))) lit 1

/-- The flags a word raises over its guarded lanes (R134). -/
def raisedBy (c : Cur) (on : Nat → Bool) (f : Nat → Nat) : Nat :=
  ((c.lanes.filter on).map f).foldl (· ||| ·) 0

/-- What raised flags do to the commit: they go to FFLAGS (R134). -/
def flagActs (fl : Nat) : List Act := if fl = 0 then [] else [.fflags fl]

/-- The trap a pass stands with once a word raises one: the first in word order (R47). -/
def trapOf (c : Cur) (x : PTrap) : Option PTrap := match c.trap with | some y => some y | none => some x

end Machine

end Sys2Proof
end

