-- ==== Sys2Proof/Certificates/Slice0/Obligations.lean ====
section
/-! DEFINITION. The statements for the provers. Each says for every state and all operands what an instruction, an operation or
an event of the machine does; the rules it formalises stand in its docstring. An entry is one of notes/assumptions. -/

open Sys2Proof Sys2Proof.Machine

/-! ## Encoding and the step -/

/-- Words written out in the listings of the spec's programs, with the class of their clause and the instruction named
there. -/
def listedWords : List (Cls × Word × Instr) :=
  [(.sys, 0x10E01800, .trapW ⟨false, 7, 12⟩), (.sys, 0x00E40214, .csrr ⟨false, 7, 0x201, 5⟩),
   (.flow, 0x0420FFED, .bra ⟨false, 1, BitVec.ofInt 16 (-19)⟩), (.flow, 0x28E00000, .exit ⟨false, 7⟩),
   (.flow, 0x05400009, .bra ⟨true, 2, 9⟩), (.flow, 0x2CE00700, .waitc ⟨false, 7, 14⟩),
   (.unif, 0x00E13D00, .mov ⟨false, false, 7, 4, 122⟩), (.unif, 0xDCE28008, .getl ⟨false, false, 7, 10⟩ .package),
   (.sync, 0x00E002F8, .binit ⟨false, 7, 5, 120⟩), (.sync, 0x08E002FA, .bexp ⟨false, 7, 5, 122⟩),
   (.sync, 0x0CE1C2F8, .waitph ⟨false, 7, 7, 5, 120⟩), (.sync, 0x25E00000, .xfence ⟨true, 7⟩),
   (.sync, 0x20F00000, .fence ⟨false, 7, .pkg⟩), (.sys, 0x04E20FE8, .csrw ⟨false, 7, 0x107, 122⟩),
   (.sys, 0x08E005E8, .csrs ⟨false, 7, 0x002, 122⟩), (.sys, 0x14E00000, .tret ⟨false, 7⟩),
   (.mem, 0x087F3E5A, .stl ⟨0, false, 7, 121, 121, 1, 2, 2⟩), (.mem, 0x0170C16A, .ldlN ⟨1, false, 7, 6, 5, 2, 2, 2⟩),
   (.mem, 0x3071_0312, .stgv ⟨0, false, 7, 8, 12, 1, 0⟩), (.mem, 0x28707E4A, .stg ⟨0, false, 7, 3, 121, 0, 2, 2⟩),
   (.lane, 0x80E043F1, .icmpEq ⟨false, false, 7, .set, 1, 7, 113⟩), (.lane, 0xE0210304, .fadd ⟨false, false, 1, 4, 6, 4⟩),
   (.lane, 0x08E07CFA, .iadd ⟨false, false, 7, 1, 121, 122⟩), (.lane, 0x20E0FEFC, .idivS ⟨false, false, 7, 3, 125, 124⟩)]

/-- Each word of the list decodes to the instruction its listing names. -/
def Obligations.DecodeSpecWords : Prop :=
  ∀ e ∈ listedWords, decode e.1 e.2.1 = .ok e.2.2

/-- Decode and encode agree: every well-formed instruction of a class has a word, and the decoder reads the instruction back
from it with every field at every value. -/
def Obligations.EncodeDecode : Prop :=
  ∀ (c : Cls) (i : Instr), i.inClass c = true → i.wf c = true → ∃ w, encode i = some w ∧ decode c w = .ok i

/-- Every word the decoder accepts is the word of exactly the instruction it names, which is a well-formed instruction of
the class: no bit of a word is ignored (R49, R63). -/
def Obligations.DecodeEncode : Prop :=
  ∀ (c : Cls) (w : Word) (i : Instr), decode c w = .ok i → i.inClass c = true ∧ i.wf c = true ∧ encode i = some w

/-- A step runs the decoded instruction: the word the pass stands at decodes to i, and the step is exec of i; a step of the
table found due is exec of it with the rest of the list kept.
withFetchWord is the model's loader, entry 1. -/
def Obligations.StepRunsInstruction : Prop :=
  (∀ (s : State) (c : Cur) (w : Word) (ws : List Word) (i : Instr), s.ev = some c → c.words = w :: ws →
    decode c.cls w = .ok i → step s = exec i s) ∧
  (∀ (s : State) (i : Instr) (l : List Due), s.ev = none → s.due = .op i :: l → step s = exec i { s with due := l }) ∧
  (∀ (s : State) (w : Word), ∃ c, (s.withFetchWord 32 w.toNat).ev = some c ∧ c.words.head? = some w)

/-- What a word adds to a pass and what it keeps (R45, R47): the pass it belongs to, the effects of the words before it, and
a trap raised before it. -/
structure Grows (c d : Cur) : Prop where
  place : d.pkg = c.pkg ∧ d.core = c.core ∧ d.team = c.team ∧ d.cls = c.cls ∧ d.win = c.win
  pass : d.hdr = c.hdr ∧ d.pass = c.pass ∧ d.first = c.first ∧ d.lanes = c.lanes
  acts : c.acts <+: d.acts
  trap : c.trap ≠ none → d.trap = c.trap

/-- R45: an instruction word changes nothing of the machine but the pass under evaluation: no register, no predicate, no
memory, no CSR. Where no pass is under evaluation it stops with `noClause`. -/
def Obligations.WordFrame : Prop :=
  ∀ (i : Instr), (i.cls ≠ none ∨ ∃ reg, i = .wtcloRead reg) → ∀ (s : State),
    (s.ev = none → exec i s = .fault .noClause) ∧
    (∀ c, s.ev = some c → ∃ d, Grows c d ∧ exec i s = .next (s.setEv (some d)))

/-! ## Reset and memory -/

/-- What the spec states for reset: the count at 0, the masks of R159, TUBAGE 512, RTIMEOUT 1,250,000, no schedule in force, the
budget of 1,600 W, the status word of step 8, nothing resident, and every queue empty. -/
def Obligations.ResetState : Prop :=
  let s := State.reset
  let p := s.pkg 0
  s.wtc = 0 ∧ s.teams = [] ∧ s.gangs = [] ∧ s.records = [] ∧
  p.hashm = [0x10800000, 0x21000000, 0x42000000, 0x80000004, 0x00000008, 0x00000010, 0x00000020, 0x04000000, 0x08000002] ∧
  p.tubage = 512 ∧ p.rtimeout = 1250000 ∧ p.schedRun = false ∧ p.halted = false ∧ p.budget = 1600 ∧ p.boot = 0x80 ∧
  s.cores.length = 256 ∧ ∀ c ∈ s.cores, c.run = none ∧ c.cards = [] ∧ c.rings = [] ∧ c.ringdrop = 0 ∧
    ∀ q ∈ c.queues, q.words = []

/-- The state after reset keeps its sparse stores in canonical form. -/
def Obligations.ResetSafe : Prop := Safe State.reset

/-- An invariant every step keeps: memory and accumulators stay in canonical form, addresses strictly rising and nothing
listed that an unlisted address would read as. -/
def Obligations.StepKeepsSafe : Prop := ∀ (s t : State), Safe s → step s = .next t → Safe t

/-- R4, R162: a write of bytes is what a read gives there afterwards, every other byte reads as before, the code words of the
bytes are good again, and a wider read is its bytes in little-endian order. -/
def Obligations.MemoryReadWrite : Prop :=
  ∀ (s : State) (p pa : Nat) (bs : List Byte), memWf s.mem →
    let t := s.wr p pa bs
    let a := s.pod p pa
    (∀ k (h : k < bs.length), memByte t.mem (a + k) = bs[k]) ∧
    (∀ x, (x < a ∨ a + bs.length ≤ x) → memByte t.mem x = memByte s.mem x) ∧
    (∀ x, a ≤ x → x < a + bs.length → x ∉ t.uce) ∧
    (∀ q y n, t.rd q y n = ((List.range n).map fun k => (memByte t.mem (t.pod q y + k)).toNat * 2 ^ (8 * k)).sum) ∧
    memWf t.mem ∧ t = { s with mem := t.mem, uce := t.uce, sbe := t.sbe }

/-! ## The commit of a pass -/

/-- R18, R45, R134: the register writes of a pass. Each effect changes the one register or predicate of the committing team
that it names, and nothing else of the machine: a lane of a vector register, a lane of a predicate, a uniform register, a
uniform predicate (gp7 is never written), FFLAGS. -/
def Obligations.RegisterCommit : Prop :=
  ∀ (s : State) (t y : Team) (c : Cur) (r : Run) (last : Bool), s.team? t.id = some y →
    let f (a : Act) : State := State.applyAct t c r last s a
    let only (u : State) (z : Team) : Prop :=
      u.team? t.id = some z ∧ (∀ i, i ≠ t.id → u.team? i = s.team? i) ∧ u = { s with teams := u.teams }
    (∀ d l x, d < y.vr.length → l < (y.vr.getD d []).length → ∃ z, only (f (.vreg d [(l, x)])) z ∧ z = { y with vr := z.vr } ∧
      ∀ n k, z.v n k = if n = d ∧ k = l then x else y.v n k) ∧
    (∀ q l b, q < y.pr.length → l < 1024 → ∃ z, only (f (.vpred q [(l, b)])) z ∧ z = { y with pr := z.pr } ∧
      ∀ n k, maskBit (z.pr.getD n 0) k = if n = q ∧ k = l then b else maskBit (y.pr.getD n 0) k) ∧
    (∀ d x, d < y.ur.length → ∃ z, only (f (.ureg d x)) z ∧ z = { y with ur := z.ur } ∧
      ∀ n, z.g n = if n = d then x else y.g n) ∧
    (∀ q b, q < 7 → q < y.gp.length → ∃ z, only (f (.upred q b)) z ∧ z = { y with gp := z.gp } ∧
      ∀ n, z.gp.getD n false = if n = q then b else y.gp.getD n false) ∧
    (∀ b, only (f (.upred 7 b)) y) ∧
    (∀ fl, only (f (.fflags fl)) { y with csr := { y.csr with fflags := y.csr.fflags ||| BitVec.ofNat 32 fl } })

/-! ## Integer and logic words -/

/-- Words with two sources of one cycle, with the value each gives by R90, R92 and R94. -/
def intBinary : List ((FA → Instr) × (Word → Word → Word)) :=
  [(.iadd, fun a b => BitVec.ofNat 32 (a.toNat + b.toNat)),
   (.isub, fun a b => BitVec.ofInt 32 (a.toInt - b.toInt)),
   (.imul, fun a b => BitVec.ofNat 32 (a.toNat * b.toNat)),
   (.imulhS, fun a b => BitVec.ofInt 32 (a.toInt * b.toInt / 2 ^ 32)),
   (.imulhN, fun a b => BitVec.ofNat 32 (a.toNat * b.toNat / 2 ^ 32)),
   (.iminS, fun a b => if a.toInt ≤ b.toInt then a else b),
   (.imaxS, fun a b => if a.toInt ≤ b.toInt then b else a),
   (.iminN, fun a b => if a.toNat ≤ b.toNat then a else b),
   (.imaxN, fun a b => if a.toNat ≤ b.toNat then b else a),
   (.and, fun a b => a &&& b),
   (.or, fun a b => a ||| b),
   (.xor, fun a b => a ^^^ b),
   (.andn, fun a b => a &&& ~~~b),
   (.shl, fun a b => BitVec.ofNat 32 (a.toNat * 2 ^ (b.toNat % 64))),
   (.shr, fun a b => BitVec.ofNat 32 (a.toNat / 2 ^ (b.toNat % 64))),
   (.sar, fun a b => BitVec.ofInt 32 (a.toInt / 2 ^ (b.toNat % 64))),
   (.rol, fun a b => BitVec.ofNat 32 (a.toNat * 2 ^ (b.toNat % 32) + a.toNat / 2 ^ (32 - b.toNat % 32))),
   (.iaddSat, fun a b => BitVec.ofInt 32 (max (min (a.toInt + b.toInt) (2 ^ 31 - 1)) (-(2 ^ 31)))),
   (.isubSat, fun a b => BitVec.ofInt 32 (max (min (a.toInt - b.toInt) (2 ^ 31 - 1)) (-(2 ^ 31))))]

/-- R90, R92, R94: every word of the table completes; each guarded lane's result is the rule's, as are the write and the
latch (R45, R46). -/
def Obligations.IntBinaryWords : Prop :=
  ∀ e ∈ intBinary, ∀ (w : FA) (s : State) (c : Cur), s.ev = some c →
    exec (e.1 w) s = .next (s.setEv (some (withValues (s.teamOf c) c w.nw w.pn w.pr w.d (usesLit [w.a, w.b]) 1 fun l =>
      e.2 (srcOp (s.teamOf c) c w.a l) (srcOp (s.teamOf c) c w.b l))))

/-- Position and width of the field that b describes (R96). -/
def fieldPos (b : Word) : Nat := b.toNat % 32
def fieldWidth (b : Word) : Nat := min (b.toNat / 2 ^ 8 % 2 ^ 6) (32 - fieldPos b)

/-- Words that accumulate into D or work on a bit field, with the value of a, b and D as it stood (R91, R96). -/
def intTernary : List ((FA → Instr) × (Word → Word → Word → Word)) :=
  [(.imad, fun a b d => BitVec.ofNat 32 (a.toNat * b.toNat + d.toNat)),
   (.idp4, fun a b d => BitVec.ofInt 32 (d.toInt +
      ((List.range 4).map fun k => (a.extractLsb' (8 * k) 8).toInt * (b.extractLsb' (8 * k) 8).toInt).sum)),
   (.bfxN, fun a b _ => BitVec.ofNat 32 (a.toNat / 2 ^ fieldPos b % 2 ^ fieldWidth b)),
   (.bfxS, fun a b _ => if fieldWidth b = 0 then 0 else
      let x := a.toNat / 2 ^ fieldPos b % 2 ^ fieldWidth b
      BitVec.ofInt 32 (if 2 ^ (fieldWidth b - 1) ≤ x then (x : Int) - 2 ^ fieldWidth b else x)),
   (.bfi, fun a b d => BitVec.ofNat 32
      (d.toNat % 2 ^ fieldPos b + a.toNat % 2 ^ fieldWidth b * 2 ^ fieldPos b +
        d.toNat / 2 ^ (fieldPos b + fieldWidth b) * 2 ^ (fieldPos b + fieldWidth b)))]

/-- R91, R96: the accumulating words and the bit-field words complete with the rule's value. -/
def Obligations.IntTernaryWords : Prop :=
  ∀ e ∈ intTernary, ∀ (w : FA) (s : State) (c : Cur), s.ev = some c →
    exec (e.1 w) s = .next (s.setEv (some (withValues (s.teamOf c) c w.nw w.pn w.pr w.d (usesLit [w.a, w.b]) 1 fun l =>
      e.2 (srcOp (s.teamOf c) c w.a l) (srcOp (s.teamOf c) c w.b l) (dOld (s.teamOf c) c w.d l))))

/-- The division words with quotient or remainder by R93, the divisor not zero. -/
def intDivision : List ((FA → Instr) × (Word → Word) × (Word → Word → Word)) :=
  [(.idivS, fun _ => 0xFFFFFFFF, fun a b => BitVec.ofInt 32 (a.toInt.tdiv b.toInt)),
   (.idivN, fun _ => 0xFFFFFFFF, fun a b => BitVec.ofNat 32 (a.toNat / b.toNat)),
   (.iremS, fun a => a, fun a b => BitVec.ofInt 32 (a.toInt - a.toInt.tdiv b.toInt * b.toInt)),
   (.iremN, fun a => a, fun a b => BitVec.ofNat 32 (a.toNat % b.toNat))]

/-- R93: a division word completes with the rule's quotient or remainder; a zero divisor in a guarded lane with TRAPEN.IDZ
set raises IDZ, precise, with TLM the lanes with a zero divisor (none in a UNIF clause), unless an earlier word of the pass
trapped. -/
def Obligations.DivisionWords : Prop :=
  ∀ e ∈ intDivision, ∀ (w : FA) (s : State) (c : Cur), s.ev = some c →
    let t := s.teamOf c
    let z := c.lanes.filter fun l => guardA t c w.pn w.pr l && srcOp t c w.b l = 0
    let after (c : Cur) : Cur := withValues t c w.nw w.pn w.pr w.d (usesLit [w.a, w.b]) 16 fun l =>
      if srcOp t c w.b l = 0 then e.2.1 (srcOp t c w.a l) else e.2.2 (srcOp t c w.a l) (srcOp t c w.b l)
    (z = [] ∨ t.csr.trapen.getLsbD 8 = false → exec (e.1 w) s = .next (s.setEv (some (after c)))) ∧
    (z ≠ [] → t.csr.trapen.getLsbD 8 = true → exec (e.1 w) s = .next (s.setEv (some (after
      { c with trap := trapOf c ⟨c.pos, 0x01, 0, 0, if c.cls = .lane || c.cls = .mem then maskOf z else 0⟩ }))))

/-- What the unary operations give (R95). -/
def unaryGives (op : IunOp) (a d : Word) : Prop :=
  match op with
  | .not => ∀ k < 32, d.getLsbD k = !a.getLsbD k
  | .neg => d = BitVec.ofInt 32 (-a.toInt)
  | .abs => d = BitVec.ofNat 32 a.toInt.natAbs
  | .popc => d.toNat = (List.range 32).countP (a.getLsbD ·)
  | .clz => d.toNat ≤ 32 ∧ (∀ k, 32 - d.toNat ≤ k → k < 32 → a.getLsbD k = false) ∧
      (d.toNat < 32 → a.getLsbD (31 - d.toNat) = true)
  | .ctz => d.toNat ≤ 32 ∧ (∀ k < d.toNat, a.getLsbD k = false) ∧ (d.toNat < 32 → a.getLsbD d.toNat = true)
  | .brev => ∀ k < 32, d.getLsbD k = a.getLsbD (31 - k)
  | .sext8 => d = BitVec.ofInt 32 (a.extractLsb' 0 8).toInt
  | .sext16 => d = BitVec.ofInt 32 (a.extractLsb' 0 16).toInt
  | .zext8 => d.toNat = a.toNat % 2 ^ 8
  | .zext16 => d.toNat = a.toNat % 2 ^ 16
  | .bswap => ∀ k < 4, d.extractLsb' (8 * k) 8 = a.extractLsb' (8 * (3 - k)) 8

/-- R95, R97: `iun` completes with the value its sub-operation gives; `mov` copies; `sel` writes every lane of the pass and
takes its predicate as the choice. -/
def Obligations.UnaryAndMoveWords : Prop :=
  (∀ (w : FU) (op : IunOp) (s : State) (c : Cur), s.ev = some c → ∃ f : Word → Word, (∀ a, unaryGives op a (f a)) ∧
    exec (.iun w op) s = .next (s.setEv (some (withValues (s.teamOf c) c w.nw w.pn w.pr w.d (usesLit [w.a]) 1 fun l =>
      f (srcOp (s.teamOf c) c w.a l))))) ∧
  (∀ (w : FU) (s : State) (c : Cur), s.ev = some c →
    exec (.mov w) s = .next (s.setEv (some (withValues (s.teamOf c) c w.nw w.pn w.pr w.d (usesLit [w.a]) 1 fun l =>
      srcOp (s.teamOf c) c w.a l)))) ∧
  (∀ (w : FA) (s : State) (c : Cur), s.ev = some c →
    exec (.sel w) s = .next (s.setEv (some (withValues (s.teamOf c) c w.nw false 7 w.d (usesLit [w.a, w.b]) 1 fun l =>
      if guardA (s.teamOf c) c w.pn w.pr l then srcOp (s.teamOf c) c w.a l else srcOp (s.teamOf c) c w.b l))))

/-! ## Compares, predicates and cross-lane words -/

/-- The integer compares and `vtop`, with the truth value each gives (R98, R100). -/
def intCompares : List ((FC → Instr) × (Word → Word → Bool)) :=
  [(.icmpEq, fun a b => a.toNat = b.toNat), (.icmpNe, fun a b => a.toNat ≠ b.toNat),
   (.icmpLtS, fun a b => a.toInt < b.toInt), (.icmpLeS, fun a b => a.toInt ≤ b.toInt),
   (.icmpLtN, fun a b => a.toNat < b.toNat), (.icmpLeN, fun a b => a.toNat ≤ b.toNat),
   (.vtop, fun a b => (List.range 32).any fun k => a.getLsbD k && b.getLsbD k)]

/-- R98 to R100: compares and `vtop` combine their truth value into the predicate; `plop` sets a predicate from its table;
`ptov` gives the eight predicates as bits, bit 7 set. -/
def Obligations.PredicateWords : Prop :=
  (∀ e ∈ intCompares, ∀ (w : FC) (s : State) (c : Cur), s.ev = some c →
    exec (e.1 w) s = .next (s.setEv (some (withTruths (s.teamOf c) c w.nw w.pn w.pr w.mode w.q (usesLit [w.a, w.b]) fun l =>
      e.2 (srcOp (s.teamOf c) c w.a l) (srcOp (s.teamOf c) c w.b l))))) ∧
  (∀ (w : FP) (s : State) (c : Cur), s.ev = some c →
    exec (.plop w) s = .next (s.setEv (some (withTruths (s.teamOf c) c w.nw w.pn w.pr .set w.q false fun l =>
      w.tbl.getLsbD ((if predA (s.teamOf c) c w.x l then 2 else 0) + if predA (s.teamOf c) c w.y l then 1 else 0))))) ∧
  (∀ (w : FD) (s : State) (c : Cur), s.ev = some c → ∃ f : Nat → Word,
    (∀ l k, k < 32 → (f l).getLsbD k = (decide (k < 8) && predA (s.teamOf c) c (BitVec.ofNat 3 k) l)) ∧
    exec (.ptov w) s = .next (s.setEv (some (withValues (s.teamOf c) c w.nw w.pn w.pr w.d false 1 f))))

/-- The lane of the home warp that lane j reads with operand n, if it is one (R102). -/
def shuffles : List ((FA → Instr) × (Nat → Nat → Option Nat)) :=
  [(.shfi, fun _ n => if n < 32 then some n else none), (.shfu, fun j n => if n ≤ j then some (j - n) else none),
   (.shfd, fun j n => if j + n < 32 then some (j + n) else none),
   (.shfx, fun j n => if j ^^^ n < 32 then some (j ^^^ n) else none)]

/-- R102, R105: a shuffle gives each guarded lane the value of A in the lane it names within its home warp, else its own;
`tshfi` the value in any lane of the team. -/
def Obligations.ShuffleWords : Prop :=
  (∀ e ∈ shuffles, ∀ (w : FA) (s : State) (c : Cur), s.ev = some c →
    exec (e.1 w) s = .next (s.setEv (some (withValues (s.teamOf c) c w.nw w.pn w.pr w.d (usesLit [w.a, w.b]) 2 fun l =>
      laneOp (s.teamOf c) c w.a (match e.2 (l % 32) (laneOp (s.teamOf c) c w.b l).toNat with
        | some j => l / 32 * 32 + j
        | none => l))))) ∧
  (∀ (w : FA) (s : State) (c : Cur), s.ev = some c →
    exec (.tshfi w) s = .next (s.setEv (some (withValues (s.teamOf c) c w.nw w.pn w.pr w.d (usesLit [w.a, w.b]) 40 fun l =>
      let n := (laneOp (s.teamOf c) c w.b l).toNat
      laneOp (s.teamOf c) c w.a (if n < 32 * (s.teamOf c).pl.warps then n else l)))))

/-- R101, R103: `vote` gives every guarded lane the same word: the ballot of the lanes whose predicate holds, all, any, or
their number; `getl` gives what the lane, the team or the launch is. -/
def Obligations.VoteAndGetlWords : Prop :=
  (∀ (w : FD) (neg : Bool) (q : BitVec 3) (mode : VoteMode) (s : State) (c : Cur), s.ev = some c →
    let t := s.teamOf c
    let part := c.lanes.filter (guardA t c w.pn w.pr)
    let yes := part.filter fun l => t.p q l != neg
    exec (.vote w neg q mode) s = .next (s.setEv (some (withValues t c w.nw w.pn w.pr w.d false 2 fun _ =>
      match mode with
      | .ballot => BitVec.ofNat 32 ((yes.map fun l => 2 ^ (l % 32)).sum)
      | .all => if yes = part then 1 else 0
      | .any => if yes = [] then 0 else 1
      | .count => BitVec.ofNat 32 yes.length)))) ∧
  (∀ (w : FD) (op : GetlOp) (s : State) (c : Cur), s.ev = some c →
    let t := s.teamOf c
    let g := (s.gang? t.pl.gang).map (·.desc)
    exec (.getl w op) s = .next (s.setEv (some (withValues t c w.nw w.pn w.pr w.d false 1 fun l => BitVec.ofNat 32
      (match op with
       | .lid => l | .homeWarp => l / 32 | .laneInWarp => l % 32 | .teamInBlock => t.pl.tib | .blockIndex => t.pl.block
       | .core => t.pl.core | .quad => t.pl.core / 4 | .die => t.pl.core / 128 | .package => (s.pkg t.pl.pkg).num
       | .teamsPerBlock => (g.map (·.teams)).getD 1 | .lanesPerTeam => 32 * t.pl.warps
       | .blocksInGrid => (g.map (·.blocks)).getD 1)))))

/-! ## Scans, reductions and `cardf` -/

/-- The operation and identity of an integer scan (R106). -/
def scanOp : ScanIOp → (Word → Word → Word) × Word
  | .add => (fun a b => a + b, 0)
  | .minS => (fun a b => if a.toInt ≤ b.toInt then a else b, 0x7FFFFFFF)
  | .maxS => (fun a b => if a.toInt ≤ b.toInt then b else a, 0x80000000)
  | .minN => (fun a b => if a.toNat ≤ b.toNat then a else b, 0xFFFFFFFF)
  | .maxN => (fun a b => if a.toNat ≤ b.toNat then b else a, 0)
  | .and => (fun a b => a &&& b, 0xFFFFFFFF)
  | .or => (fun a b => a ||| b, 0)
  | .xor => (fun a b => a ^^^ b, 0)

/-- The result of participant k of a scan: the inputs up to it, or before it in the exclusive form, folded from the first
on; the identity where there is none (R107). -/
def scanResult (op : Word → Word → Word) (ident : Word) (excl : Bool) (xs : List Word) (k : Nat) : Word :=
  match xs.take (if excl then k else k + 1) with
  | [] => ident
  | x :: r => r.foldl op x

/-- The pass behind a team-wide word whose participants get the results `ys` (R104, R107). -/
def teamWide (t : Team) (c : Cur) (w : FU) (new : List Act) (ys : List Word) : Cur :=
  let res := (c.lanes.filter (guardA t c w.pn w.pr)).zip ys
  afterWord (c.shift (c.lanes.map fun l => match res.find? (·.1 = l) with | some r => r.2 | none => dOld t c w.d l))
    (new ++ writesOf c w.nw w.d res) (usesLit [w.a]) 40

/-- R107: an integer scan gives the running results, an integer reduction gives every participant the whole one. -/
def Obligations.IntScanWords : Prop :=
  ∀ (w : FU) (op : ScanIOp) (s : State) (c : Cur), s.ev = some c →
    let t := s.teamOf c
    let xs := (c.lanes.filter (guardA t c w.pn w.pr)).map (laneOp t c w.a)
    (∀ excl, exec (.scanI w op excl) s = .next (s.setEv (some (teamWide t c w [] ((List.range xs.length).map
      (scanResult (scanOp op).1 (scanOp op).2 excl xs)))))) ∧
    ((c.lanes.filter (guardA t c w.pn w.pr)).Pairwise (· < ·) → (∀ l ∈ c.lanes, l < 1024) →
      exec (.tredI w op) s = .next (s.setEv (some (teamWide t c w [] (xs.map fun _ =>
        match xs with | [] => 0 | x :: r => r.foldl (scanOp op).1 x)))))

/-- The operation of a floating scan under FRM, and its identity (R106). -/
def scanFOp (mode : RMode) : ScanFOp → (Word → Word → Word) × Word
  | .add => (fun a b => (fAdd mode a b).1, 0x80000000)
  | .min => (fun a b => (fMinMax false a b).1, 0x7F800000)
  | .max => (fun a b => (fMinMax true a b).1, 0xFF800000)

/-- The value at a node of the reduction tree over the lane positions: of two present children their sum under the operation,
of one present child its value (R107). -/
def treeNode (op : Word → Word → Word) (leaf : Nat → Option Word) : Nat → Nat → Option Word
  | 0, j => leaf j
  | n + 1, j =>
    match treeNode op leaf n (2 * j), treeNode op leaf n (2 * j + 1) with
    | some x, some y => some (op x y)
    | some x, none => some x
    | none, y => y

/-- The flags of every step below a node of that tree. -/
def treeFlags (op : Word → Word → Word) (fl : Word → Word → Nat) (leaf : Nat → Option Word) : Nat → Nat → Nat
  | 0, _ => 0
  | n + 1, j =>
    treeFlags op fl leaf n (2 * j) ||| treeFlags op fl leaf n (2 * j + 1) |||
      match treeNode op leaf n (2 * j), treeNode op leaf n (2 * j + 1) with
      | some x, some y => fl x y
      | _, _ => 0

/-- The flags of a step of a floating scan. -/
def scanFFlags (mode : RMode) : ScanFOp → Word → Word → Nat
  | .add => fun a b => (fAdd mode a b).2
  | .min => fun a b => (fMinMax false a b).2
  | .max => fun a b => (fMinMax true a b).2

/-- The flags of the steps 2 to n of a scan over the inputs (R107). -/
def scanSteps (op : Word → Word → Word) (fl : Word → Word → Nat) (ident : Word) (xs : List Word) (n : Nat) : Nat :=
  ((List.range n).map fun k =>
    if k = 0 then 0 else fl (scanResult op ident false xs (k - 1)) (xs.getD k 0)).foldl (· ||| ·) 0

/-- A NaN result as R108 delivers it. -/
def asResult (x : Word) : Word := if (f32 x).isNaN then 0x7FC00000 else x

/-- R107, R108: a floating scan gives the running results, each step rounded once under FRM; a reduction gives every
participant the value at the root of the balanced tree over the 1,024 lane positions; every NaN result is 0x7FC00000. The flags
of the steps performed go to FFLAGS, an exclusive scan performing one step fewer; where TRAPEN enables one of them the word
raises FPE, TLM marking every participant. -/
def Obligations.FloatScanWords : Prop :=
  ∀ (w : FU) (op : ScanFOp) (s : State) (c : Cur), s.ev = some c →
    let t := s.teamOf c
    let mode := rmodeOf t.csr.frm
    let o := scanFOp mode op
    let fl := scanFFlags mode op
    let part := c.lanes.filter (guardA t c w.pn w.pr)
    let xs := part.map (laneOp t c w.a)
    let en := t.csr.trapen.toNat % 32
    let leaf (j : Nat) : Option Word := if j ∈ part then some (laneOp t c w.a j) else none
    let does (raised : Nat) (ys : List Word) : Cur :=
      if raised &&& en = 0 then teamWide t c w (flagActs raised) ys
      else teamWide t { c with trap := trapOf c ⟨c.pos, 0x02, BitVec.ofNat 32 (raised + 2 ^ 8 * (raised &&& en)), 0, maskOf part⟩ }
        w [] ys
    (∀ excl, exec (.scanF w op excl) s = .next (s.setEv (some (does
      (scanSteps o.1 fl o.2 xs (if excl then xs.length - 1 else xs.length))
      ((List.range xs.length).map fun k => asResult (scanResult o.1 o.2 excl xs k)))))) ∧
    exec (.tredF w op) s = .next (s.setEv (some (does (treeFlags o.1 fl leaf 10 0)
      (xs.map fun _ => asResult ((treeNode o.1 leaf 10 0).getD 0)))))

/-- R245: `cardf` takes as its reference the value of the lowest participant of the first pass that has one. Where every
participant agrees the word completes: the reference is kept, offered for the push at the last commit, and b1 holds it in
every lane. A participant that differs raises FDV with the reference, the first differing value and the lanes that differ. -/
def Obligations.CardfWord : Prop :=
  ∀ (w : FG) (s : State) (c : Cur), s.ev = some c →
    let t := s.teamOf c
    let part := c.lanes.filter (guardA t c w.pn w.pr)
    let x := laneOp t c w.a
    let old := (c.ref.find? (·.1 = c.pos)).map (·.2)
    let after (c : Cur) (ref : Option Word) : Cur :=
      afterWord (c.shift (c.lanes.map fun _ => ref.getD 0)) [.cardf c.pos ref] (usesLit [w.a]) 1
    (part = [] → exec (.cardf w) s = .next (s.setEv (some (after c old)))) ∧
    (∀ r, old = some r → (∀ l ∈ part, x l = r) → exec (.cardf w) s = .next (s.setEv (some (after c (some r))))) ∧
    (∀ l ls, old = none → part = l :: ls → (∀ k ∈ ls, x k = x l) →
      exec (.cardf w) s = .next (s.setEv (some (after { c with ref := c.ref ++ [(c.pos, x l)] } (some (x l)))))) ∧
    (∀ r l ls, (old = some r ∨ old = none ∧ part.head?.map x = some r) → part.filter (x · ≠ r) = l :: ls →
      exec (.cardf w) s = .next (s.setEv (some (after
        { c with trap := trapOf c ⟨c.pos, 0x05, r, x l, maskOf (l :: ls)⟩ } (some r)))))

/-! ## Floating-point words -/

/-- A word of the class with its fields: NW, PN, PR, D, whether it takes a literal, its cycles, and the value and flags of a
lane (R133, R135). -/
structure FloatForm where
  (instr : Instr) (nw pn : Bool) (pr : BitVec 3) (d : BitVec 7) (lit : Bool) (cost : Nat)
  (gives : Team → Cur → Nat → Word × Nat)

/-- The words of R136, R137, R139 and R127 with the rounding mode they use (R130). -/
def floatForms : List (FA → FloatForm) :=
  [(fun w => ⟨.fadd w, w.nw, w.pn, w.pr, w.d, usesLit [w.a, w.b], 1, fun t c l =>
      fAdd (rmodeOf t.csr.frm) (srcOp t c w.a l) (srcOp t c w.b l)⟩),
   (fun w => ⟨.fsub w, w.nw, w.pn, w.pr, w.d, usesLit [w.a, w.b], 1, fun t c l =>
      fSub (rmodeOf t.csr.frm) (srcOp t c w.a l) (srcOp t c w.b l)⟩),
   (fun w => ⟨.fmul w, w.nw, w.pn, w.pr, w.d, usesLit [w.a, w.b], 1, fun t c l =>
      fMul (rmodeOf t.csr.frm) (srcOp t c w.a l) (srcOp t c w.b l)⟩),
   (fun w => ⟨.ffma w, w.nw, w.pn, w.pr, w.d, usesLit [w.a, w.b], 1, fun t c l =>
      fFma (rmodeOf t.csr.frm) (srcOp t c w.a l) (srcOp t c w.b l) (dOld t c w.d l)⟩),
   (fun w => ⟨.fmin w, w.nw, w.pn, w.pr, w.d, usesLit [w.a, w.b], 1, fun t c l =>
      fMinMax false (srcOp t c w.a l) (srcOp t c w.b l)⟩),
   (fun w => ⟨.fmax w, w.nw, w.pn, w.pr, w.d, usesLit [w.a, w.b], 1, fun t c l =>
      fMinMax true (srcOp t c w.a l) (srcOp t c w.b l)⟩)]

/-- The one-source words: `fun` under FRM, `cvt` with its own rounding (R127, R139). -/
def floatUnary (w : FU) (op : FunOp) (dir sat rtz : Bool) (x : Fmt) : List FloatForm :=
  [⟨.funW w op, w.nw, w.pn, w.pr, w.d, usesLit [w.a], 6, fun t c l => fFun op (rmodeOf t.csr.frm) (srcOp t c w.a l)⟩,
   ⟨.cvt w dir sat rtz x, w.nw, w.pn, w.pr, w.d, usesLit [w.a], 1, fun t c l => cvtValue dir sat rtz x (srcOp t c w.a l)⟩]

/-- What a floating-point word does: with none of its raised flags enabled it completes, its flags going to FFLAGS; with
one enabled it raises FPE with TVAL and TLM as R134 lays them out. -/
def floatDoes (f : FloatForm) (s : State) (c : Cur) : Prop :=
  let t := s.teamOf c
  let fl := raisedBy c (guardA t c f.pn f.pr) fun l => (f.gives t c l).2
  let en := t.csr.trapen.toNat % 32
  let after (c : Cur) : Cur := withValues t c f.nw f.pn f.pr f.d f.lit f.cost fun l => (f.gives t c l).1
  (fl &&& en = 0 → exec f.instr s = .next (s.setEv (some (after { c with acts := c.acts ++ flagActs fl })))) ∧
  (fl &&& en ≠ 0 → exec f.instr s = .next (s.setEv (some (after
    { c with trap := trapOf c ⟨c.pos, 0x02, BitVec.ofNat 32 (fl + 2 ^ 8 * (fl &&& en)), 0,
        if c.cls = .lane ∨ c.cls = .mem then
          maskOf ((c.lanes.filter (guardA t c f.pn f.pr)).filter fun l => (f.gives t c l).2 &&& en ≠ 0) else 0⟩ }))))

/-- A magnitude y rounded to the integer n under a mode, `neg` the sign of the number whose magnitude it is (R120, R133). -/
def roundsTo (mode : RMode) (neg : Prop) (y : ℝ) (n : Nat) : Prop :=
  let down := (n : ℝ) ≤ y ∧ y < n + 1
  let up := y ≤ n ∧ (n : ℝ) < y + 1
  match mode with
  | .rne => |(n : ℝ) - y| ≤ 1 / 2 ∧ (|(n : ℝ) - y| = 1 / 2 → n % 2 = 0)
  | .rtz => down
  | .rdn => (neg → up) ∧ (¬ neg → down)
  | .rup => (neg → down) ∧ (¬ neg → up)

/-- The real x rounded to n·2^q with M fraction bits and an exponent range bounded below only, by the step 2^qmin of the
subnormals (R120). -/
def roundedAt (mode : RMode) (M : Nat) (qmin : Int) (x : ℝ) (n : Nat) (q : Int) : Prop :=
  qmin ≤ q ∧ |x| < (2 : ℝ) ^ (q + M + 1) ∧ (q = qmin ∨ (2 : ℝ) ^ (q + M) ≤ |x|) ∧ roundsTo mode (x < 0) (|x| / (2 : ℝ) ^ q) n

/-- The code stands for the real x: M fraction bits, E exponent bits with their bias, the sign above them (R110 to R112). -/
def codeIs (M E : Nat) (bias : Int) (code : Nat) (x : ℝ) : Prop :=
  let e := code / 2 ^ M % 2 ^ E
  let m := code % 2 ^ M
  x = (if code / 2 ^ (M + E) % 2 = 1 then -1 else 1) *
    (if e = 0 then (m : ℝ) * (2 : ℝ) ^ (1 - bias - M) else ((2 ^ M + m : Nat) : ℝ) * (2 : ℝ) ^ ((e : Int) - bias - M))

/-- The F32 word is finite and stands for the real x (R110). -/
def f32Is (w : Word) (x : ℝ) : Prop := w.toNat / 2 ^ 23 % 256 ≠ 255 ∧ codeIs 23 8 127 w.toNat x

/-- R133: a word and flags that are the real x, not zero, rounded once into F32 under a mode: the rounded value with the sign
of x, NX where it differs from x, UF where it is then below 2^−126; past the largest finite value OF, NX and the table's
result. -/
def roundedF32 (mode : RMode) (x : ℝ) (r : Word × Nat) : Prop :=
  ∃ (n : Nat) (q : Int), roundedAt mode 23 (-149) x n q ∧
    ((n : ℝ) * (2 : ℝ) ^ q < (2 : ℝ) ^ (128 : Int) →
      f32Is r.1 ((if x < 0 then -1 else 1) * ((n : ℝ) * (2 : ℝ) ^ q)) ∧ (r.1.getLsbD 31 = true ↔ x < 0) ∧
      ((n : ℝ) * (2 : ℝ) ^ q = |x| → r.2 = 0) ∧
      ((n : ℝ) * (2 : ℝ) ^ q ≠ |x| → ((n : ℝ) * (2 : ℝ) ^ q < (2 : ℝ) ^ (-126 : Int) → r.2 = 8 + 16) ∧
        ((2 : ℝ) ^ (-126 : Int) ≤ (n : ℝ) * (2 : ℝ) ^ q → r.2 = 16))) ∧
    ((2 : ℝ) ^ (128 : Int) ≤ (n : ℝ) * (2 : ℝ) ^ q → r.2 = 4 + 16 ∧
      (0 < x → r.1 = if mode = .rtz ∨ mode = .rdn then 0x7F7FFFFF else 0x7F800000) ∧
      (x < 0 → r.1 = if mode = .rtz ∨ mode = .rup then 0xFF7FFFFF else 0xFF800000))

/-- The zero of a sign. -/
def zeroWord (neg : Bool) : Word := if neg then 0x80000000 else 0

/-- R133: the sum of p and q, whose signs are sp and sq, rounded once; an exactly zero sum of terms of opposite sign is +0, and
−0 under RDN. -/
def roundedSum (mode : RMode) (p q : ℝ) (sp sq : Bool) (r : Word × Nat) : Prop :=
  (p + q ≠ 0 → roundedF32 mode (p + q) r) ∧
  (p + q = 0 → r = (zeroWord (if sp = sq then sp else decide (mode = .rdn)), 0))

/-- R120, R133, R136: on finite operands the arithmetic words give the exact real result rounded once. -/
def arithmeticRounds : Prop :=
  ∀ (mode : RMode) (a b d : Word) (x y z : ℝ), f32Is a x → f32Is b y → f32Is d z →
    let sa := a.getLsbD 31
    let sb := b.getLsbD 31
    roundedSum mode x y sa sb (fAdd mode a b) ∧ roundedSum mode x (-y) sa (!sb) (fSub mode a b) ∧
    (x * y ≠ 0 → roundedF32 mode (x * y) (fMul mode a b)) ∧ (x * y = 0 → fMul mode a b = (zeroWord (sa != sb), 0)) ∧
    roundedSum mode (x * y) z (sa != sb) (d.getLsbD 31) (fFma mode a b d)

/-- R139, R140: the algebraic sub-operations of `fun` give the exact value rounded once, those that round to an integer that
integer, and `exp2` and `log2` their exact cases. That their other results are the true values rounded once rests on the
precision of entry 23 and is not stated. -/
def functionsRound : Prop :=
  ∀ (mode : RMode) (a : Word) (x : ℝ), f32Is a x → x ≠ 0 →
    let toInt (op : FunOp) (m : RMode) (nx : Bool) : Prop := ∃ n : Nat, roundsTo m (x < 0) |x| n ∧
      f32Is (fFun op mode a).1 ((if x < 0 then -1 else 1) * n) ∧ (fFun op mode a).1.getLsbD 31 = a.getLsbD 31 ∧
      ((fFun op mode a).2 ≠ 0 ↔ nx = true ∧ (n : ℝ) ≠ |x|) ∧ ((fFun op mode a).2 = 0 ∨ (fFun op mode a).2 = 16)
    roundedF32 mode (1 / x) (fFun .rcp mode a) ∧
    (0 < x → roundedF32 mode (1 / Real.sqrt x) (fFun .rsq mode a) ∧ roundedF32 mode (Real.sqrt x) (fFun .sqrt mode a)) ∧
    (x < 0 → ∀ op ∈ [FunOp.rsq, .sqrt, .log2], fFun op mode a = (0x7FC00000, 1)) ∧
    toInt .floor .rdn false ∧ toInt .ceil .rup false ∧ toInt .trunc .rtz false ∧ toInt .rint mode true ∧
    (∀ n : Nat, (n : ℝ) ≤ |x| → |x| < n + 1 → f32Is (fFun .frac mode a).1 ((if x < 0 then -1 else 1) * (|x| - n)) ∧
      (fFun .frac mode a).1.getLsbD 31 = a.getLsbD 31 ∧ (fFun .frac mode a).2 = 0) ∧
    (∀ k : Int, x = k → -149 ≤ k → k ≤ 127 → f32Is (fFun .exp2 mode a).1 ((2 : ℝ) ^ k) ∧ (fFun .exp2 mode a).2 = 0) ∧
    (∀ k : Int, x = (2 : ℝ) ^ k → f32Is (fFun .log2 mode a).1 k ∧ (fFun .log2 mode a).2 = 0)

/-- The narrow floating formats with M, E, bias and the largest finite code (R111, R112). -/
def narrowFloats : List (Fmt × Nat × Nat × Int × Nat) :=
  [(.bf16, 7, 8, 127, 0x7F7F), (.f16, 10, 5, 15, 0x7BFF), (.e4m3, 3, 4, 7, 0x7E), (.e5m2, 2, 5, 15, 0x7B),
   (.e2m3, 3, 2, 1, 0x1F), (.e3m2, 2, 3, 3, 0x1F), (.e2m1, 1, 2, 1, 0x07)]

/-- R119 to R121, R126: `cvt` between F32 and a narrow floating format. A finite value that is not zero is rounded once under
the word's own mode; one past the largest finite value gives the table's result; widening is exact. 1.3 as E2M1 follows R120
(entry 80). -/
def conversionsRound : Prop :=
  ∀ e ∈ narrowFloats, ∀ (sat rtz : Bool) (a : Word) (x top : ℝ),
    let (f, M, E, bias, big) := e
    let sign := 2 ^ (M + E)
    let r := cvtValue false sat rtz f a
    codeIs M E bias big top →
    (f32Is a x → x ≠ 0 → ∃ (n : Nat) (q : Int),
      roundedAt (if rtz then .rtz else .rne) M (1 - bias - M) x n q ∧
      ((n : ℝ) * (2 : ℝ) ^ q ≤ top →
        codeIs M E bias r.1.toNat ((if x < 0 then -1 else 1) * ((n : ℝ) * (2 : ℝ) ^ q)) ∧
        r.1.toNat < 2 * sign ∧ r.1.toNat % sign ≤ big ∧ (sign ≤ r.1.toNat ↔ x < 0) ∧
        ((n : ℝ) * (2 : ℝ) ^ q = |x| → r.2 = 0) ∧
        ((n : ℝ) * (2 : ℝ) ^ q ≠ |x| → ((n : ℝ) * (2 : ℝ) ^ q < (2 : ℝ) ^ (1 - bias) → r.2 = 8 + 16) ∧
          ((2 : ℝ) ^ (1 - bias) ≤ (n : ℝ) * (2 : ℝ) ^ q → r.2 = 16))) ∧
      (top < (n : ℝ) * (2 : ℝ) ^ q → r.2 = 4 + 16 ∧ r.1.toNat =
        if f = .e4m3 ∧ sat = false ∧ rtz = false then 0x7F
        else (if x < 0 then sign else 0) +
          (if f ∈ [.bf16, .f16, .e5m2] ∧ sat = false ∧ rtz = false then (2 ^ E - 1) * 2 ^ M else big))) ∧
    (a.toNat % sign ≤ big → codeIs M E bias (a.toNat % (2 * sign)) x →
      f32Is (cvtValue true sat rtz f a).1 x ∧ (cvtValue true sat rtz f a).2 = 0 ∧
      ((cvtValue true sat rtz f a).1.getLsbD 31 = true ↔ sign ≤ a.toNat % (2 * sign)))

/-- The integer formats with their bits and range (R113, R124). -/
def integerFormats : List (Fmt × Nat × Int × Int) :=
  [(.s32, 32, -(2 ^ 31), 2 ^ 31 - 1), (.n32, 32, 0, 2 ^ 32 - 1), (.s8, 8, -128, 127), (.n8, 8, 0, 255)]

/-- R124: `cvt` to an integer format gives the value rounded to an integer, NX where it differs, or the limit of the range it
falls outside of, NV. -/
def integersRound : Prop :=
  ∀ e ∈ integerFormats, ∀ (sat rtz : Bool) (a : Word) (x : ℝ), f32Is a x → x ≠ 0 →
      let r := cvtValue false sat rtz e.1 a
      ∃ (n : Nat) (k : Int), roundsTo (if rtz then .rtz else .rne) (x < 0) |x| n ∧
        k = (if a.getLsbD 31 then -(n : Int) else n) ∧
        (e.2.2.1 ≤ k → k ≤ e.2.2.2 → (r.1.toNat : Int) = k % 2 ^ e.2.1 ∧ ((n : ℝ) = |x| → r.2 = 0) ∧ ((n : ℝ) ≠ |x| → r.2 = 16)) ∧
        (k < e.2.2.1 → (r.1.toNat : Int) = e.2.2.1 % 2 ^ e.2.1 ∧ r.2 = 1) ∧
        (e.2.2.2 < k → (r.1.toNat : Int) = e.2.2.2 % 2 ^ e.2.1 ∧ r.2 = 1)

/-- The kinds of special input (R110): a NaN, and one that is signalling. -/
def nanWord (a : Word) : Prop := a.toNat / 2 ^ 23 % 256 = 255 ∧ a.toNat % 2 ^ 23 ≠ 0
def signalling (a : Word) : Bool := !a.getLsbD 22

/-- The rows of R140 for inputs that are no number: what each sub-operation gives for +0, −0, +∞ and −∞, with its flags. -/
def specialFunctions : List (FunOp × List (Word × Nat)) :=
  let pz : Word := 0
  let nz : Word := 0x80000000
  let pi : Word := 0x7F800000
  let ni : Word := 0xFF800000
  let nan : Word := 0x7FC00000
  [(.abs, [(pz, 0), (pz, 0), (pi, 0), (pi, 0)]), (.neg, [(nz, 0), (pz, 0), (ni, 0), (pi, 0)]),
   (.rcp, [(pi, 2), (ni, 2), (pz, 0), (nz, 0)]), (.rsq, [(pi, 2), (ni, 2), (pz, 0), (nan, 1)]),
   (.sqrt, [(pz, 0), (nz, 0), (pi, 0), (nan, 1)]), (.exp2, [(0x3F800000, 0), (0x3F800000, 0), (pi, 0), (pz, 0)]),
   (.log2, [(ni, 2), (ni, 2), (pi, 0), (nan, 1)]), (.frac, [(pz, 0), (nz, 0), (nan, 1), (nan, 1)])] ++
  [FunOp.floor, .ceil, .trunc, .rint].map fun op => (op, [(pz, 0), (nz, 0), (pi, 0), (ni, 0)])

/-- R140: the special inputs of `fun`. `abs` and `neg` change bit 31 alone and raise nothing; any NaN gives the canonical one, NV for
a signalling one but in these two; the other specials are the table's. `exp2` of 128 and more overflows. -/
def functionsSpecial : Prop :=
  ∀ (op : FunOp) (mode : RMode) (a : Word),
    (nanWord a → fFun op mode a = (0x7FC00000, if signalling a = true ∧ op ≠ .abs ∧ op ≠ .neg then 1 else 0)) ∧
    (¬ nanWord a → fFun .abs mode a = (a &&& 0x7FFFFFFF, 0) ∧ fFun .neg mode a = (a ^^^ 0x80000000, 0)) ∧
    (∀ e ∈ specialFunctions, ∀ p ∈ [0x00000000, 0x80000000, 0x7F800000, 0xFF800000].zip e.2, fFun e.1 mode p.1 = p.2) ∧
    ∀ x : ℝ, f32Is a x → 128 ≤ x → fFun .exp2 mode a = (if mode = .rtz ∨ mode = .rdn then 0x7F7FFFFF else 0x7F800000, 20)

/-- The columns of R122: for each format the codes of +0 and −0 with their flags, those of +∞ and −∞ without and with SAT, and the
code of a NaN with the flags of a quiet one. -/
def specialConversions : List (Fmt × (Nat × Nat × Nat) × (Nat × Nat × Nat) × (Nat × Nat × Nat) × Nat × Nat) :=
  [(.bf16, (0, 0x8000, 0), (0x7F80, 0xFF80, 0), (0x7F80, 0xFF80, 0), 0x7FC0, 0),
   (.f16, (0, 0x8000, 0), (0x7C00, 0xFC00, 0), (0x7C00, 0xFC00, 0), 0x7E00, 0),
   (.e5m2, (0, 0x80, 0), (0x7C, 0xFC, 0), (0x7C, 0xFC, 0), 0x7E, 0),
   (.e4m3, (0, 0x80, 0), (0x7F, 0x7F, 1), (0x7E, 0xFE, 1), 0x7F, 0),
   (.e2m3, (0, 0x20, 0), (0x1F, 0x3F, 1), (0x1F, 0x3F, 1), 0, 1),
   (.e3m2, (0, 0x20, 0), (0x1F, 0x3F, 1), (0x1F, 0x3F, 1), 0, 1),
   (.e2m1, (0, 0x8, 0), (0x7, 0xF, 1), (0x7, 0xF, 1), 0, 1),
   (.ts8, (0x77, 0x77, 0), (0x00, 0x88, 1), (0x00, 0x88, 1), 0x77, 1),
   (.s32, (0, 0, 0), (0x7FFFFFFF, 0x80000000, 1), (0x7FFFFFFF, 0x80000000, 1), 0, 1),
   (.n32, (0, 0, 0), (0xFFFFFFFF, 0, 1), (0xFFFFFFFF, 0, 1), 0, 1),
   (.s8, (0, 0, 0), (0x7F, 0x80, 1), (0x7F, 0x80, 1), 0, 1),
   (.n8, (0, 0, 0), (0xFF, 0, 1), (0xFF, 0, 1), 0, 1),
   (.e8m0, (0, 0, 24), (0xFF, 0xFF, 1), (0xFF, 0xFF, 1), 0xFF, 0)]

/-- R122, R126: the special inputs of `cvt`, and the special codes of the formats it widens. -/
def conversionsSpecial : Prop :=
  (∀ e ∈ specialConversions, ∀ (sat rtz : Bool) (a : Word),
    let (f, z, i, j, n, q) := e
    let inf := if sat then j else i
    let r := cvtValue false sat rtz f
    r 0 = (BitVec.ofNat 32 z.1, z.2.2) ∧ r 0x80000000 = (BitVec.ofNat 32 z.2.1, z.2.2) ∧
    r 0x7F800000 = (BitVec.ofNat 32 inf.1, inf.2.2) ∧ r 0xFF800000 = (BitVec.ofNat 32 inf.2.1, inf.2.2) ∧
    (nanWord a → r a = (BitVec.ofNat 32 n, if signalling a then 1 else q))) ∧
  (∀ (f : Fmt) (M E : Nat) (a : Word), (f, M, E) ∈ [(Fmt.bf16, 7, 8), (.f16, 10, 5), (.e5m2, 2, 5)] →
    a.toNat / 2 ^ M % 2 ^ E = 2 ^ E - 1 →
    cvtValue true false false f a = if a.toNat % 2 ^ M = 0 then (if a.getLsbD (M + E) then 0xFF800000 else 0x7F800000, 0)
      else (0x7FC00000, if f ≠ .e5m2 ∧ a.getLsbD (M - 1) = false then 1 else 0)) ∧
  ∀ a : Word, (a.toNat % 128 = 0x7F → cvtValue true false false .e4m3 a = (0x7FC00000, 0)) ∧
    (a.toNat % 256 = 0xFF → cvtValue true false false .e8m0 a = (0x7FC00000, 0))

/-- R115: the value of a TS8 code, the sum of its two terms, in units of 2⁻⁶. -/
def ts8Of (c : Nat) : Int :=
  let term (t : Nat) : Int := if t % 8 = 7 then 0 else (if t / 8 % 2 = 1 then -1 else 1) * 2 ^ (6 - t % 8)
  term (c / 16) + term c

/-- R116: the code is the canonical one of its value. -/
def ts8Canonical (c : Nat) : Prop :=
  let y := ts8Of c
  let plain (d : Nat) : Prop := d / 16 % 8 < d % 8 ∧ d % 8 < 7
  c < 256 ∧ (y = 0 → c = 0x77) ∧ (y = 128 → c = 0) ∧ (y = -128 → c = 0x88) ∧
  (∀ e ≤ 6, (y = 2 ^ (6 - e) → c = 16 * e + 7) ∧ (y = -(2 ^ (6 - e)) → c = 128 + 16 * e + 7)) ∧
  (y ≠ 0 → |y| ≠ 128 → (∀ e ≤ 6, |y| ≠ 2 ^ (6 - e)) → plain c ∧ ∀ d < 256, plain d → ts8Of d = y → c ≤ d)

/-- R115, R116, R123, R126: `cvt` to TS8 writes the canonical code of the value nearest to x, of smaller magnitude at a tie, or under
RTZ of the largest not above |x|; past 2 it saturates. From TS8 it gives the code's value. -/
def ts8Rounds : Prop :=
  (∀ (sat rtz : Bool) (a : Word) (x : ℝ), f32Is a x → x ≠ 0 →
    let r := cvtValue false sat rtz .ts8 a
    let val (c : Nat) (y : ℝ) : Prop := y = (ts8Of c : ℝ) / 64
    ts8Canonical r.1.toNat ∧ ∀ y, val r.1.toNat y →
      (2 < |x| → y = (if x < 0 then -2 else 2) ∧ r.2 = 20) ∧
      (|x| ≤ 2 → (rtz = false → ∀ d < 256, ∀ z, val d z → |y - x| ≤ |z - x| ∧ (|z - x| = |y - x| → |y| ≤ |z|)) ∧
        (rtz = true → |y| ≤ |x| ∧ 0 ≤ y * x ∧ ∀ d < 256, ∀ z, val d z → |z| ≤ |x| → |z| ≤ |y|) ∧
        (y = x → r.2 = 0) ∧ (y ≠ x → |x| < (2 : ℝ) ^ (-6 : Int) → r.2 = 24) ∧
        (y ≠ x → (2 : ℝ) ^ (-6 : Int) ≤ |x| → r.2 = 16))) ∧
  ∀ a : Word, let r := cvtValue true false false .ts8 a
    f32Is r.1 ((ts8Of (a.toNat % 256) : ℝ) / 64) ∧ r.2 = 0 ∧ (ts8Of (a.toNat % 256) = 0 → r.1 = 0)

/-- R114, R125, R126: `cvt` to E8M0 takes the power of two at or below |x|, as a code; from E8M0 it gives that power. -/
def e8m0Rounds : Prop :=
  (∀ (sat rtz : Bool) (a : Word) (x : ℝ) (k : Int), f32Is a x → (2 : ℝ) ^ k ≤ |x| → |x| < (2 : ℝ) ^ (k + 1) →
    let r := cvtValue false sat rtz .e8m0 a
    (k < -127 → r = (0, 24)) ∧ (-127 ≤ k → (r.1.toNat : Int) = k + 127 ∧ (|x| = (2 : ℝ) ^ k → r.2 = 0) ∧ (|x| ≠ (2 : ℝ) ^ k → r.2 = 16))) ∧
  ∀ a : Word, a.toNat % 256 ≠ 255 → f32Is (cvtValue true false false .e8m0 a).1 ((2 : ℝ) ^ ((a.toNat % 256 : Nat) - 127 : Int)) ∧
    (cvtValue true false false .e8m0 a).2 = 0

/-- R126: `cvt` from an integer format gives the integer, for the 32-bit formats rounded once by RNE. -/
def integersWiden : Prop :=
  ∀ e ∈ integerFormats, ∀ a : Word,
    let n := a.toNat % 2 ^ e.2.1
    let k : Int := if e.2.2.2 < n then (n : Int) - 2 ^ e.2.1 else n
    let r := cvtValue true false false e.1 a
    (k = 0 → r = (0, 0)) ∧ (k ≠ 0 → roundedF32 .rne k r) ∧ (e.2.1 = 8 → f32Is r.1 k ∧ r.2 = 0)

/-- R134 for the floating-point arithmetic words and `cvt`, and what the values are: the exact real result rounded once
(R119 to R121, R123 to R126, R133, R136, R139, R140), and the results of special inputs (R122, R140). -/
def Obligations.FloatWords : Prop :=
  (∀ f ∈ floatForms, ∀ (w : FA) (s : State) (c : Cur), s.ev = some c → floatDoes (f w) s c) ∧
  (∀ (w : FU) (op : FunOp) (dir sat rtz : Bool) (x : Fmt), ∀ f ∈ floatUnary w op dir sat rtz x, ∀ (s : State) (c : Cur),
    s.ev = some c → floatDoes f s c) ∧
  arithmeticRounds ∧ functionsRound ∧ functionsSpecial ∧ conversionsRound ∧ conversionsSpecial ∧ ts8Rounds ∧ e8m0Rounds ∧
  integersRound ∧ integersWiden

/-- The floating compares with t for ordered operands, t for unordered ones, and whether any NaN raises NV (R138). -/
def floatCompares : List ((FC → Instr) × (Val → Val → Bool) × Bool × Bool) :=
  [(.fcmpEq, eqVal, false, false), (.fcmpLt, ltVal, false, true), (.fcmpLe, fun x y => ltVal x y || eqVal x y, false, true),
   (.fcmpUn, fun _ _ => false, true, false)]

/-- R138: the compares raise at most NV; where no guarded lane raises it or TRAPEN.NV is clear they complete as `icmp` does,
else they raise FPE with TVAL 0x101, TLM marking the lanes that raised it (R134). -/
def Obligations.FloatCompareWords : Prop :=
  ∀ e ∈ floatCompares, ∀ (w : FC) (s : State) (c : Cur), s.ev = some c →
    let t := s.teamOf c
    let a (l : Nat) : Val := f32 (srcOp t c w.a l)
    let b (l : Nat) : Val := f32 (srcOp t c w.b l)
    let nan (l : Nat) : Bool := (a l).isNaN || (b l).isNaN
    let nv (l : Nat) : Bool := if e.2.2.2 then nan l else a l = .nan true || b l = .nan true
    let part := c.lanes.filter (guardA t c w.pn w.pr)
    let after (c : Cur) : Cur := withTruths t c w.nw w.pn w.pr w.mode w.q (usesLit [w.a, w.b]) fun l =>
      if nan l then e.2.2.1 else e.2.1 (a l) (b l)
    (part.any nv = false ∨ t.csr.trapen.getLsbD 0 = false → exec (e.1 w) s = .next (s.setEv (some (after
      { c with acts := c.acts ++ flagActs (if part.any nv then 1 else 0) })))) ∧
    (part.any nv = true → t.csr.trapen.getLsbD 0 = true → exec (e.1 w) s = .next (s.setEv (some (after
      { c with trap := trapOf c ⟨c.pos, 0x02, 0x101, 0, if c.cls = .lane ∨ c.cls = .mem then maskOf (part.filter nv) else 0⟩ }))))

/-- R133: every NaN that an arithmetic word gives is 0x7FC00000, and a NaN operand gives a NaN except in `fmin` and `fmax`. -/
def oneNaN : Prop :=
  ∀ (mode : RMode) (op : FunOp) (a b d : Word),
    (∀ x ∈ [(fAdd mode a b).1, (fSub mode a b).1, (fMul mode a b).1, (fFma mode a b d).1, (fMinMax false a b).1,
        (fMinMax true a b).1, (fFun op mode a).1], (f32 x).isNaN = true → x = 0x7FC00000) ∧
    ((f32 a).isNaN || (f32 b).isNaN = true → (fAdd mode a b).1 = 0x7FC00000 ∧ (fSub mode a b).1 = 0x7FC00000 ∧
      (fMul mode a b).1 = 0x7FC00000 ∧ (fFma mode a b d).1 = 0x7FC00000) ∧
    ((f32 a).isNaN = true → (fFun op mode a).1 = 0x7FC00000)

/-- R137: `fmin` and `fmax` give an operand unchanged, the other one where one is a NaN, and raise NV for a signalling NaN. -/
def minMaxRule : Prop :=
  ∀ (isMax : Bool) (a b : Word),
    let x := f32 a
    let y := f32 b
    (fMinMax isMax a b).2 = (if x = .nan true ∨ y = .nan true then 1 else 0) ∧
    (x.isNaN = true → y.isNaN = true → (fMinMax isMax a b).1 = 0x7FC00000) ∧
    (x.isNaN = true → y.isNaN = false → (fMinMax isMax a b).1 = b) ∧
    (x.isNaN = false → y.isNaN = true → (fMinMax isMax a b).1 = a) ∧
    (x.isNaN = false → y.isNaN = false → ltVal x y = true → (fMinMax isMax a b).1 = if isMax then b else a) ∧
    (x.isNaN = false → y.isNaN = false → ltVal y x = true → (fMinMax isMax a b).1 = if isMax then a else b) ∧
    (x = .zero true → y = .zero false → (fMinMax isMax a b).1 = if isMax then b else a) ∧
    (x = .zero false → y = .zero true → (fMinMax isMax a b).1 = if isMax then a else b) ∧
    (x.isNaN = false → y.isNaN = false → ltVal x y = false → ltVal y x = false → x.neg = y.neg → a = b ∧ (fMinMax isMax a b).1 = a)

/-- R133, R137: the one NaN of the arithmetic words, and the rule of `fmin` and `fmax`. -/
def Obligations.NaNAndMinMax : Prop := oneNaN ∧ minMaxRule

/-! ## Memory words -/

/-- The local words with what each asks of the memory (R163, R165, R167). -/
def localForms (w : FM) (v : FV) (a : FT) : List (Instr × MForm) :=
  [(.ldlN w, ⟨.load, 0, 2 ^ w.sz.toNat, false, .add, w.sc.toNat, w.sb, w.pn, w.pr, w.d, w.a, w.bp⟩),
   (.ldlS w, ⟨.load, 0, 2 ^ w.sz.toNat, true, .add, w.sc.toNat, w.sb, w.pn, w.pr, w.d, w.a, w.bp⟩),
   (.stl w, ⟨.store, 0, 2 ^ w.sz.toNat, false, .add, w.sc.toNat, w.sb, w.pn, w.pr, w.d, w.a, w.bp⟩),
   (.ldlv v, ⟨.load, 0, 16, false, .add, v.sc.toNat, v.sb, v.pn, v.pr, v.d, v.a, v.bp⟩),
   (.stlv v, ⟨.store, 0, 16, false, .add, v.sc.toNat, v.sb, v.pn, v.pr, v.d, v.a, v.bp⟩),
   (.atl a, ⟨.atomF, 0, 4, false, a.aop, 2, a.sb, a.pn, a.pr, a.d, a.a, a.bp⟩),
   (.atln a, ⟨.atomN, 0, 4, false, a.aop, 2, a.sb, a.pn, a.pr, a.d, a.a, a.bp⟩)]

/-- The global and remote words (R163, R166, R167, R190). -/
def farForms (w : FM) (v : FV) (a : FT) : List (Instr × MForm) :=
  [(.ldgN w, ⟨.load, 1, 2 ^ w.sz.toNat, false, .add, w.sc.toNat, w.sb, w.pn, w.pr, w.d, w.a, w.bp⟩),
   (.ldgS w, ⟨.load, 1, 2 ^ w.sz.toNat, true, .add, w.sc.toNat, w.sb, w.pn, w.pr, w.d, w.a, w.bp⟩),
   (.stg w, ⟨.store, 1, 2 ^ w.sz.toNat, false, .add, w.sc.toNat, w.sb, w.pn, w.pr, w.d, w.a, w.bp⟩),
   (.ldgv v, ⟨.load, 1, 16, false, .add, v.sc.toNat, v.sb, v.pn, v.pr, v.d, v.a, v.bp⟩),
   (.stgv v, ⟨.store, 1, 16, false, .add, v.sc.toNat, v.sb, v.pn, v.pr, v.d, v.a, v.bp⟩),
   (.atg a, ⟨.atomF, 1, 4, false, a.aop, 2, a.sb, a.pn, a.pr, a.d, a.a, a.bp⟩),
   (.atgn a, ⟨.atomN, 1, 4, false, a.aop, 2, a.sb, a.pn, a.pr, a.d, a.a, a.bp⟩),
   (.ldrN w, ⟨.load, 2, 2 ^ w.sz.toNat, false, .add, w.sc.toNat, w.sb, w.pn, w.pr, w.d, w.a, w.bp⟩),
   (.ldrS w, ⟨.load, 2, 2 ^ w.sz.toNat, true, .add, w.sc.toNat, w.sb, w.pn, w.pr, w.d, w.a, w.bp⟩),
   (.str w, ⟨.store, 2, 2 ^ w.sz.toNat, false, .add, w.sc.toNat, w.sb, w.pn, w.pr, w.d, w.a, w.bp⟩),
   (.atr a, ⟨.atomF, 2, 4, false, a.aop, 2, a.sb, a.pn, a.pr, a.d, a.a, a.bp⟩),
   (.atrn a, ⟨.atomN, 2, 4, false, a.aop, 2, a.sb, a.pn, a.pr, a.d, a.a, a.bp⟩)]

/-- The accumulator words (R168). -/
def accForms (w : FX) : List (Instr × MForm) :=
  [(.accrd w, ⟨.load, 3, 4, false, .add, 0, w.sb, w.pn, w.pr, w.d, w.a, w.bp⟩),
   (.accwr w, ⟨.store, 3, 4, false, .add, 0, w.sb, w.pn, w.pr, w.d, w.a, w.bp⟩)]

/-- The guarded lanes of a memory word (R51). -/
def memLanes (t : Team) (c : Cur) (f : MForm) : List Nat := c.lanes.filter fun l => t.p f.pr l != f.pn

/-- What the word asks: a request for each lane, with its address (`va`, and the a-tile in `home` for the accumulator). -/
def asks (t : Team) (c : Cur) (f : MForm) (zero : Bool) (va : Nat → Nat) (home : Nat) (ls : List Nat) : Act :=
  .mem ⟨c.pos, c.nth, f.kind, f.space, f.n, f.sx, f.aop, f.d.toNat, f.sb.toNat, zero, ls.map fun l =>
    { lane := l, va := va l, home := home,
      data := match f.kind with
        | .load => 0
        | .store => if f.n ≤ 4 then (laneOp t c f.d l).toNat % 2 ^ (8 * f.n) else
            ((List.range (f.n / 4)).map fun k => (t.v (f.d.toNat + k) l).toNat * 2 ^ (32 * k)).sum
        | _ => (laneOp t c f.d l).toNat
      cmp := if (f.kind = .atomF ∨ f.kind = .atomN) ∧ f.aop = .cas then (t.v (f.d.toNat + 1) l).toNat else 0,
      got := 0, due := 0, st := .moving }⟩

/-- A memory word names its literal where A does, or D as data (R41, R164). -/
def memLit (f : MForm) : Bool := f.a.toNat = 122 || ((f.kind = .store || f.kind = .atomN) && f.d.toNat = 122)

/-- R163, R165: a local word whose guarded lanes are aligned and inside the block's allocation completes: it asks for each
lane's bytes at gl + sext(v[A]) · 2^S, and its bank conflicts lengthen the pass (R148), whatever an earlier word of the pass
trapped. A misaligned lane raises ALN, before a lane outside the allocation raises PRT; TVAL and TVALH hold the address of the
lowest such lane and TLM marks them. That a word which traps asks for nothing and so adds no conflict cycles itself is the
model's choice, entry 30. -/
def Obligations.LocalMemoryWords : Prop :=
  ∀ (w : FM) (v : FV) (a : FT), ∀ e ∈ localForms w v a, ∀ (s : State) (c : Cur), s.ev = some c →
    let t := s.teamOf c
    let f := e.2
    let ls := memLanes t c f
    let addr (l : Nat) : Int := (t.g (8 * c.win + 2 * f.bp.toNat)).toNat + (laneOp t c f.a l).toInt * 2 ^ f.sc
    let aln := ls.filter fun l => addr l % f.n ≠ 0
    let prt := ls.filter fun l => addr l < 0 || (t.pl.lsBytes : Int) < addr l + f.n
    (aln = [] → prt = [] → exec e.1 s = .next (s.setEv (some
      { afterWord c [asks t c f false (fun l => (addr l).toNat) 0 ls] (memLit f) 1 with
        extra := c.extra + (conflict lsBank (ls.flatMap fun l => wordsOf (addr l).toNat f.n) - 1) }))) ∧
    (∀ l r, aln = l :: r → exec e.1 s = .next (s.setEv (some (afterWord
      { c with trap := trapOf c ⟨c.pos, 0x0A, BitVec.ofInt 32 (addr l), BitVec.ofInt 32 (addr l / 2 ^ 32), maskOf aln⟩ } []
        (memLit f) 1)))) ∧
    (∀ l r, aln = [] → prt = l :: r → exec e.1 s = .next (s.setEv (some (afterWord
      { c with trap := trapOf c ⟨c.pos, 0x09, BitVec.ofInt 32 (addr l), BitVec.ofInt 32 (addr l / 2 ^ 32), maskOf prt⟩ } []
        (memLit f) 1))))

/-- R163, R166, R190: a global or remote word whose lanes are aligned and whose gh fits 24 bits completes: it asks for each
lane's bytes at (gh · 2^32 + gl + sext(v[A]) · 2^S) mod 2^56; `str.z` asks for every lane of the pass and carries no data.
Otherwise it raises ALN with the address of the lowest such lane; for gh of 2^24 or more, where R163 forms no address, that the
address is that of the low 24 bits of gh is the model's choice, entry 74. -/
def Obligations.GlobalMemoryWords : Prop :=
  ∀ (w : FM) (v : FV) (a : FT) (z : FZ), ∀ e ∈ (farForms w v a).map (fun e => (e.1, e.2, false)) ++
      [(.strZ z, ⟨.store, 2, 4, false, .add, z.sc.toNat, z.sb, false, 7, 120, z.a, z.bp⟩, true)],
    ∀ (s : State) (c : Cur), s.ev = some c →
    let t := s.teamOf c
    let f := e.2.1
    let gh := (t.g (8 * c.win + 2 * f.bp.toNat + 1)).toNat
    let gl := (t.g (8 * c.win + 2 * f.bp.toNat)).toNat
    let ls := if e.2.2 then c.lanes else memLanes t c f
    let addr (l : Nat) : Nat :=
      (((gh % 2 ^ 24 * 2 ^ 32 + gl : Nat) + (laneOp t c f.a l).toInt * 2 ^ f.sc) % (2 ^ 56 : Int)).toNat
    let aln := ls.filter fun l => 2 ^ 24 ≤ gh || addr l % f.n ≠ 0
    (aln = [] → exec e.1 s = .next (s.setEv (some (afterWord c [asks t c f e.2.2 addr 0 ls] (memLit f) 1)))) ∧
    (∀ l r, aln = l :: r → exec e.1 s = .next (s.setEv (some (afterWord
      { c with trap := trapOf c ⟨c.pos, 0x0A, BitVec.ofNat 32 (addr l), BitVec.ofNat 32 (addr l / 2 ^ 32), maskOf aln⟩ } []
      (memLit f) 1))))

/-- R168: an accumulator word whose tile and elements lie inside the allocation completes: it asks for element v[A] of the
tile that gl names, and its bank conflicts lengthen the pass (R148), whatever an earlier word of the pass trapped. Otherwise it
raises PRT with the element in TVAL and the tile in TVALH; that it then adds no conflict cycles is the model's choice, entry 30. -/
def Obligations.AccumulatorWords : Prop :=
  ∀ (w : FX), ∀ e ∈ accForms w, ∀ (s : State) (c : Cur), s.ev = some c →
    let t := s.teamOf c
    let f := e.2
    let ls := memLanes t c f
    let tile := (t.g (8 * c.win + 2 * f.bp.toNat)).toNat
    let elem (l : Nat) : Nat := (laneOp t c f.a l).toNat
    let prt := ls.filter fun l => t.pl.atiles ≤ tile || 4096 ≤ elem l
    (prt = [] → exec e.1 s = .next (s.setEv (some
      { afterWord c [asks t c f false elem tile ls] (memLit f) 1 with
        extra := c.extra + (conflict (· % 32) (ls.map elem) - 1) }))) ∧
    (∀ l r, prt = l :: r → exec e.1 s = .next (s.setEv (some (afterWord
      { c with trap := trapOf c ⟨c.pos, 0x09, BitVec.ofNat 32 (elem l), BitVec.ofNat 32 tile, maskOf prt⟩ } []
      (memLit f) 1))))

/-! ## FLOW words -/

/-- The FLOW words with a guard of R75 and whether they name a literal. -/
def guardedFlow (n : FN) (g : FG) (r : FR) (k : BitVec 5) : List (Instr × Bool × BitVec 3 × Bool) :=
  [(.nop n, n.pn, n.pr, false), (.bra r, r.pn, r.pr, false), (.brx g, g.pn, g.pr, g.a.toNat = 122),
   (.call g, g.pn, g.pr, g.a.toNat = 122), (.ret n, n.pn, n.pr, false), (.rcv r, r.pn, r.pr, false),
   (.join n, n.pn, n.pr, false), (.brk r k, r.pn, r.pr, false), (.exit n, n.pn, n.pr, false),
   (.waitc g, g.pn, g.pr, false), (.launch g, g.pn, g.pr, false)]

/-- R75: a FLOW word whose guard is false changes nothing but the place in the clause; so does `nop` in any case (R76). -/
def Obligations.FlowGuard : Prop :=
  ∀ (n : FN) (g : FG) (r : FR) (k : BitVec 5) (s : State) (c : Cur), s.ev = some c →
    (∀ e ∈ guardedFlow n g r k, (s.teamOf c).up e.2.2.1 = e.2.1 →
      exec e.1 s = .next (s.setEv (some (afterWord c [] e.2.2.2 1)))) ∧
    exec (.nop n) s = .next (s.setEv (some (afterWord c [] false 1)))

/-- The pass behind a FLOW word with the flow state it leaves (R74), and behind one that traps with an ILL detail (R63). -/
def flowTo (c : Cur) (f : FlowSt) (lit : Bool) : Cur := afterWord { c with flow := f } [] lit 1
def flowIll (c : Cur) (detail : Nat) (lit : Bool) : Cur :=
  afterWord { c with trap := trapOf c ⟨c.pos, 0x03, BitVec.ofNat 32 detail, 0, 0⟩ } [] lit 1

/-- The word index a relative FLOW word names: its own index plus the signed offset (R53, R75). -/
def flowTarget (c : Cur) (off : BitVec 16) : Int := (c.hdr + c.pos : Nat) + off.toInt

/-- The index of the clause that follows this one (R75). -/
def flowNext (c : Cur) : Nat := c.hdr + c.pos + c.words.length

/-- R75, R76: the transfers. With a true guard, `bra`, `brx` and `call` set the pc to a clause start, `call` behind a C entry
of the active lanes; a target that starts no clause raises ILL 10, a full stack ILL 15. -/
def Obligations.FlowTransfers : Prop :=
  ∀ (g : FG) (r : FR) (s : State) (c : Cur), s.ev = some c →
    let t := s.teamOf c
    let f := c.flow
    let x := (unifOp t c g.a).toNat
    let lit := decide (g.a.toNat = 122)
    let starts := s.gangStarts t.pl.gang
    (t.up r.pr ≠ r.pn → ∀ y : Nat, flowTarget c r.off = y → y ∈ starts →
      exec (.bra r) s = .next (s.setEv (some (flowTo c { f with pc := y } false)))) ∧
    (t.up r.pr ≠ r.pn → (∀ y ∈ starts, flowTarget c r.off ≠ (y : Int)) →
      exec (.bra r) s = .next (s.setEv (some (flowIll c 10 false)))) ∧
    (t.up g.pr ≠ g.pn → x ∈ starts →
      exec (.brx g) s = .next (s.setEv (some (flowTo c { f with pc := x } lit))) ∧
      (f.stack.length < 64 → exec (.call g) s = .next (s.setEv (some
        (flowTo c { f with pc := x, stack := ⟨.call, flowNext c, f.active⟩ :: f.stack } lit)))) ∧
      (64 ≤ f.stack.length → exec (.call g) s = .next (s.setEv (some (flowIll c 15 lit))))) ∧
    (t.up g.pr ≠ g.pn → x ∉ starts →
      exec (.brx g) s = .next (s.setEv (some (flowIll c 10 lit))) ∧
      exec (.call g) s = .next (s.setEv (some (flowIll c 10 lit))))

/-- R76: the divergent branches. With the takers T and the rest F of the active lanes, `brp` falls through where T is empty,
jumps where F is, and else jumps with T and defers F, ILL 15 where the stack is full; `brq` parks F. Parking needs R71, else
ILL 14, which is looked at first. -/
def Obligations.FlowBranches : Prop :=
  ∀ (r : FR) (s : State) (c : Cur), s.ev = some c →
    let t := s.teamOf c
    let f := c.flow
    let p : Mask := if r.pr = 7 then ~~~ 0 else t.pr.getD r.pr.toNat 0
    let tk := f.active &&& (if r.pn then ~~~ p else p)
    let rest := f.active &&& ~~~ tk
    let starts := s.gangStarts t.pl.gang
    (tk = 0 → exec (.brp r) s = .next (s.setEv (some (flowTo c { f with pc := flowNext c } false))) ∧
      (mayPark f.stack rest = true →
        exec (.brq r) s = .next (s.setEv (some (flowTo c ({ f with active := 0 } : FlowSt).resumed false)))) ∧
      (mayPark f.stack rest = false → exec (.brq r) s = .next (s.setEv (some (flowIll c 14 false))))) ∧
    (tk ≠ 0 → (∀ y ∈ starts, flowTarget c r.off ≠ (y : Int)) →
      exec (.brp r) s = .next (s.setEv (some (flowIll c 10 false))) ∧
      exec (.brq r) s = .next (s.setEv (some (flowIll c 10 false)))) ∧
    (tk ≠ 0 → ∀ y : Nat, flowTarget c r.off = y → y ∈ starts →
      (rest = 0 → exec (.brp r) s = .next (s.setEv (some (flowTo c { f with pc := y } false)))) ∧
      (rest ≠ 0 → mayPark f.stack rest = true → f.stack.length < 64 → exec (.brp r) s = .next (s.setEv (some
        (flowTo c { f with active := tk, pc := y, stack := ⟨.deferred, flowNext c, rest⟩ :: f.stack } false)))) ∧
      (rest ≠ 0 → mayPark f.stack rest = true → 64 ≤ f.stack.length →
        exec (.brp r) s = .next (s.setEv (some (flowIll c 15 false)))) ∧
      (mayPark f.stack rest = true →
        exec (.brq r) s = .next (s.setEv (some (flowTo c { f with active := tk, pc := y } false)))) ∧
      (mayPark f.stack rest = false → exec (.brq r) s = .next (s.setEv (some (flowIll c 14 false))) ∧
        (rest ≠ 0 → exec (.brp r) s = .next (s.setEv (some (flowIll c 14 false))))))

/-- R73, R76: regions. `rcv` opens a region at its target; `join` in its own clause merges the lanes of the region on top,
resumes a D entry or another region's lanes with the arriving ones parked, and raises ILL 14 on an empty stack or a C entry;
`break` takes the active lanes out of the K innermost regions and jumps. -/
def Obligations.FlowRegions : Prop :=
  ∀ (n : FN) (r : FR) (k : BitVec 5) (s : State) (c : Cur), s.ev = some c →
    let t := s.teamOf c
    let f := c.flow
    (t.up r.pr ≠ r.pn → ∀ y : Nat, flowTarget c r.off = y → y ∈ s.gangStarts t.pl.gang →
      (f.stack.length < 64 → exec (.rcv r) s = .next (s.setEv (some
        (flowTo c { f with stack := ⟨.region, y, f.active⟩ :: f.stack } false)))) ∧
      (64 ≤ f.stack.length → exec (.rcv r) s = .next (s.setEv (some (flowIll c 15 false)))) ∧
      (k.toNat ≤ ((f.stack.takeWhile (·.kind ≠ .call)).filter (·.kind = .region)).length →
        exec (.brk r k) s = .next (s.setEv (some
          (flowTo c { f with pc := y, stack := leaveRegions f.active k.toNat f.stack } false)))) ∧
      (((f.stack.takeWhile (·.kind ≠ .call)).filter (·.kind = .region)).length < k.toNat →
        exec (.brk r k) s = .next (s.setEv (some (flowIll c 14 false))))) ∧
    (t.up r.pr ≠ r.pn → (∀ y ∈ s.gangStarts t.pl.gang, flowTarget c r.off ≠ (y : Int)) →
      exec (.rcv r) s = .next (s.setEv (some (flowIll c 10 false))) ∧
      exec (.brk r k) s = .next (s.setEv (some (flowIll c 10 false)))) ∧
    (t.up n.pr ≠ n.pn →
      (f.stack = [] → exec (.join n) s = .next (s.setEv (some (flowIll c 14 false)))) ∧
      (∀ e st, f.stack = e :: st →
        (e.kind = .call ∨ mayPark f.stack f.active = false ∧ (e.kind = .region → e.pc ≠ c.hdr) →
          exec (.join n) s = .next (s.setEv (some (flowIll c 14 false)))) ∧
        (e.kind = .region → e.pc = c.hdr → exec (.join n) s = .next (s.setEv (some
          (flowTo c { f with active := e.mask, pc := flowNext c, stack := st } false)))) ∧
        (e.kind = .region → e.pc ≠ c.hdr → mayPark f.stack f.active = true → exec (.join n) s = .next (s.setEv (some
          (flowTo c { f with active := e.mask, pc := e.pc } false)))) ∧
        (e.kind = .deferred → mayPark f.stack f.active = true → exec (.join n) s = .next (s.setEv (some
          (flowTo c { f with active := e.mask, pc := e.pc, stack := st } false))))))

/-- R72: what a team without active lanes resumes. Entries leave from the top until one holds lanes; they become active at its
word, and a region stays for its join. With no such entry the team ends: no lane of it is live any more. -/
def resumesTo (f g : FlowSt) : Prop :=
  ((∀ e ∈ f.stack, e.mask = 0) → g = { f with stack := [], live := 0 }) ∧
  (∀ pre e post, f.stack = pre ++ e :: post → (∀ x ∈ pre, x.mask = 0) → e.mask ≠ 0 →
    g = { f with active := e.mask, pc := e.pc, stack := if e.kind = .region then e :: post else post })

/-- R76: `ret` leaves the active lanes waiting in the innermost C entry and `exit` ends them; each then resumes what the
stack holds (R72). `ret` with no C entry on the stack raises ILL 14. An exited lane is live no more and stands in no entry. -/
def Obligations.FlowReturnAndExit : Prop :=
  ∀ (n : FN) (s : State) (c : Cur), s.ev = some c → (s.teamOf c).up n.pr ≠ n.pn →
    let f := c.flow
    ((∃ e ∈ f.stack, e.kind = .call) → let st := leaveRegions f.active f.stack.length f.stack
      ∃ g : FlowSt, resumesTo { f with active := 0, stack := st } g ∧ exec (.ret n) s = .next (s.setEv (some (flowTo c g false)))) ∧
    ((∀ e ∈ f.stack, e.kind ≠ .call) → exec (.ret n) s = .next (s.setEv (some (flowIll c 14 false)))) ∧
    (∃ g : FlowSt, exec (.exit n) s = .next (s.setEv (some (flowTo c g false))) ∧
      resumesTo { f with
        active := 0
        live := f.live &&& ~~~ f.active
        stack := (f.stack.map fun e => { e with mask := e.mask &&& ~~~ f.active }).filter (·.mask ≠ 0) } g ∧
      g.live &&& f.active = 0 ∧ g.active &&& f.active = 0 ∧ (∀ e ∈ g.stack, e.mask &&& f.active = 0) ∧
      (g.active = 0 → g.stack = [] ∧ g.live = 0))

/-- R76: with a true guard `waitc` takes the wait of its register pair to the commit, and `launch` its request for a
descriptor at a 64-byte boundary below 2^56; else `launch` raises ALN with the address. -/
def Obligations.FlowWaitAndLaunch : Prop :=
  ∀ (g : FG) (s : State) (c : Cur), s.ev = some c → (s.teamOf c).up g.pr ≠ g.pn →
    let t := s.teamOf c
    let x := (t.g ((8 * c.win + g.a.toNat + 1) % 512)).toNat * 2 ^ 32 + (t.g ((8 * c.win + g.a.toNat) % 512)).toNat
    exec (.waitc g) s = .next (s.setEv (some (afterWord c [.waitc x] false 1))) ∧
    (x < 2 ^ 56 → x % 64 = 0 → exec (.launch g) s = .next (s.setEv (some (afterWord c [.launch x c.pos] false 1)))) ∧
    let y := x % 2 ^ 56
    let tr := trapOf c ⟨c.pos, 0x0A, BitVec.ofNat 32 y, BitVec.ofNat 32 (y / 2 ^ 32), 0⟩
    (2 ^ 56 ≤ x ∨ x % 64 ≠ 0 → exec (.launch g) s = .next (s.setEv (some (afterWord { c with trap := tr } [] false 1))))

/-! ## SYNC words -/

/-- The pass behind a guarded word of one cycle that traps, and behind one with one effect (R45, R47). -/
def trapWord (c : Cur) (cause : Nat) (tval tvalh : Word) (lit : Bool) : Cur :=
  afterWord { c with trap := trapOf c ⟨c.pos, cause, tval, tvalh, 0⟩ } [] lit 1

/-- A SYNC or SYS word with its guard and whether it names a literal. -/
structure GuardedWord where
  (instr : Instr) (pn : Bool) (pr : BitVec 3) (lit : Bool)

/-- The words on barrier objects. -/
def objectWords (w : FS) (v : FW) : List GuardedWord :=
  let l := usesLit [w.a, w.b]
  let m := usesLit [v.a, v.b]
  [⟨.binit w, w.pn, w.pr, l⟩, ⟨.bexp w, w.pn, w.pr, l⟩, ⟨.bcred w, w.pn, w.pr, l⟩, ⟨.barv w, w.pn, w.pr, l⟩,
   ⟨.waitph v, v.pn, v.pr, m⟩, ⟨.testph v, v.pn, v.pr, m⟩]

/-- Code A of the words on barrier objects. -/
def objectCode (w : FS) (v : FW) : Instr → BitVec 7
  | .waitph _ | .testph _ => v.a
  | _ => w.a

/-- R193, R197: a word whose guard is false changes nothing; an object that is not aligned raises ALN, else one outside the
block's allocation raises PRT, with the offset in TVAL. -/
def Obligations.SyncObjectTraps : Prop :=
  ∀ (w : FS) (v : FW), ∀ g ∈ objectWords w v, ∀ (s : State) (c : Cur), s.ev = some c →
    let t := s.teamOf c
    let o := unifOp t c (objectCode w v g.instr)
    (t.up g.pr = g.pn → exec g.instr s = .next (s.setEv (some (afterWord c [] g.lit 1)))) ∧
    (t.up g.pr ≠ g.pn → o.toNat % 16 ≠ 0 → exec g.instr s = .next (s.setEv (some (trapWord c 0x0A o 0 g.lit)))) ∧
    (t.up g.pr ≠ g.pn → o.toNat % 16 = 0 → t.pl.lsBytes < o.toNat + 16 →
      exec g.instr s = .next (s.setEv (some (trapWord c 0x09 o 0 g.lit))))

/-- R199 to R201: on an object of the block, `binit`, `bexp` and `bcred` take their update to the commit; `barv` too where its
count is not zero and equals the expectation, else it raises BMM with the count in TVALH; `testph` and `waitph` read the
phase from the bank in the pass, and `waitph` waits where the condition of R196 is false. What is read at the bank goes to the
commit too, where it corrects and is watched (R162, R325).
That `barv` compares in the pass is entry 37; that a word whose read meets an uncorrectable error does no more is the model's
choice, entry 97. -/
def Obligations.SyncObjectWords : Prop :=
  ∀ (w : FS) (v : FW) (s : State) (c : Cur), s.ev = some c →
    let t := s.teamOf c
    let o := unifOp t c w.a
    let off := t.pl.lsBase + o.toNat
    let b := unifOp t c w.b
    let l := usesLit [w.a, w.b]
    let does (a : List Act) (i : Instr) (l : Bool) : Prop := exec i s = .next (s.setEv (some (afterWord c a l 1)))
    let seen : List Act := if s.initStaged t off then [] else [.lsRead c.pos (o.toNat + 6) 2]
    let bad : Prop := s.initStaged t off = false ∧ s.uceAt t.pl.pkg (lsPa t.pl.core (off + 6)) 2 = true
    (t.up w.pr ≠ w.pn → o.toNat % 16 = 0 → o.toNat + 16 ≤ t.pl.lsBytes →
      does [.obj c.pos (.binit off b)] (.binit w) l ∧ does [.obj c.pos (.bexp off b)] (.bexp w) l ∧
      does [.obj c.pos (.bcred off b)] (.bcred w) l ∧
      (b ≠ 0 → ¬ bad → b.toNat = s.expected t off → does (seen ++ [.obj c.pos (.barv off)]) (.barv w) l) ∧
      (b ≠ 0 → ¬ bad → b.toNat ≠ s.expected t off → exec (.barv w) s = .next (s.setEv (some
        (afterWord { c with trap := trapOf c ⟨c.pos, 0x06, o, b, 0⟩ } seen l 1)))) ∧
      (b ≠ 0 → bad → does seen (.barv w) l) ∧
      (b = 0 → exec (.barv w) s = .next (s.setEv (some (trapWord c 0x06 o b l))))) ∧
    let o := unifOp t c v.a
    let off := t.pl.lsBase + o.toNat
    let b := unifOp t c v.b
    let l := usesLit [v.a, v.b]
    let past : Bool := decide (1 ≤ (s.phase t.pl.pkg t.pl.core off - b).toNat ∧
      (s.phase t.pl.pkg t.pl.core off - b).toNat < 2 ^ 31)
    let limit : Word := if v.b.toNat ≤ 110 then t.g ((8 * c.win + v.b.toNat + 1) % 512) else 0
    (t.up v.pr ≠ v.pn → o.toNat % 16 = 0 → o.toNat + 16 ≤ t.pl.lsBytes →
      let seen : Act := .lsRead c.pos o.toNat 16
      (s.uceAt t.pl.pkg (lsPa t.pl.core off) 16 = false → does [seen, .upred v.gpd.toNat past] (.testph v) l ∧
        does [seen, if past then .upred v.gpd.toNat true else .waitph o.toNat b v.gpd.toNat limit] (.waitph v) l) ∧
      (s.uceAt t.pl.pkg (lsPa t.pl.core off) 16 = true → does [seen] (.testph v) l ∧ does [seen] (.waitph v) l))

/-- The other SYNC words with what they take to the commit. -/
def syncActs (b : FB) (n : FN) (g : FG) (t : Team) (c : Cur) : List (GuardedWord × Act) :=
  [(⟨.barn b, b.pn, b.pr, false⟩, .barn b.scope), (⟨.fence b, b.pn, b.pr, false⟩, .fence b.scope c.pos),
   (⟨.xfence n, n.pn, n.pr, false⟩, .xfence), (⟨.tflush g, g.pn, g.pr, g.a.toNat = 122⟩, .tflush (unifOp t c g.a)),
   (⟨.tbenter n, n.pn, n.pr, false⟩, .tbenter), (⟨.tbrel n, n.pn, n.pr, false⟩, .tbrel)]

/-- R202 to R208: barriers, fences, flushes and the tag-board words have their effect at the commit where the guard holds,
and none where it does not. -/
def Obligations.SyncOtherWords : Prop :=
  ∀ (b : FB) (n : FN) (g : FG) (s : State) (c : Cur), s.ev = some c → ∀ e ∈ syncActs b n g (s.teamOf c) c,
    exec e.1.instr s = .next (s.setEv (some (afterWord c
      (if (s.teamOf c).up e.1.pr = e.1.pn then [] else [e.2]) e.1.lit 1)))

/-! ## SYS words -/

/-- A CSR as `csrr` and the CSR words see it, the WTC pair included (R24). -/
def csrSeen (s : State) (c : Cur) (n : Nat) : Word :=
  if n = 0x010 then BitVec.ofNat 32 (c.first + c.off)
  else if n = 0x011 then ((c.shadow <|> (s.teamOf c).shadow).getD (BitVec.ofNat 32 ((c.first + c.off) / 2 ^ 32)))
  else csrRead s (s.teamOf c) n

/-- The CSRs of R315 with what each reads as: the register that holds it, or the fields of its map, and for TLM its words of 32
lanes. WDOG reads the cycles that are left (R323). -/
def csrTable (s : State) (t : Team) : List (Nat × Word) :=
  let p := s.pkg t.pl.pkg
  let r := t.csr
  let inGang (f : Gang → Word) : Word := match s.gang? t.pl.gang with | some g => f g | none => 0
  let inCtx (f : Ctx → Word) : Word := match s.ctx? t.pl.pkg (s.gangCtx t.pl.gang) with | some x => f x | none => 0
  let bank (b : Bank) : List Word := [b.cause, b.epc, b.pass, b.val, b.valh, b.skid, b.save, b.vec]
  let bit (b : Bool) (k : Nat) : Nat := if b then 2 ^ k else 0
  let flag (g : Gang) (k : Nat) : Bool := g.desc.flags.testBit k
  [(0x000, inGang fun g => BitVec.ofNat 32 (bit (s.priv t) 0 + bit (flag g 0) 1 + bit (flag g 1) 2 + bit (flag g 3) 3 +
      bit (flag g 3 && 64 ≤ t.pl.slot) 4 + g.ctx % 2 ^ 8 * 2 ^ 8 + g.num % 2 ^ 16 * 2 ^ 16)),
   (0x001, r.fflags), (0x002, r.trapen), (0x003, r.rstat), (0x004, inGang fun g => BitVec.ofNat 32 (bit (flag g 2) 0)),
   (0x005, r.frm), (0x020, p.tubage), (0x021, inCtx (·.tuberrB)), (0x022, inCtx (·.tuberrH)), (0x023, inCtx (·.tuberrT)),
   (0x024, r.rseq), (0x030, p.rtimeout), (0x100, BitVec.ofNat 32 t.tl),
   (0x200, BitVec.ofNat 32 (bit p.schedRun 0 + bit p.halted 1 + p.haltKind % 2 ^ 4 * 2 ^ 8 + p.fcnt % 2 ^ 16 * 2 ^ 16)),
   (0x201, r.mstat), (0x202, r.hstat), (0x203, (s.core t.pl.pkg t.pl.core).ringdrop),
   (0x204, BitVec.ofNat 32 (p.remap.getD t.pl.core 0)), (0x205, BitVec.ofNat 32 t.pl.lsBase), (0x206, r.qstat),
   (0x207, r.fstat), (0x208, r.qpoint), (0x209, r.qcyc),
   (0x210, inGang fun g => match g.wdog with | some x => BitVec.ofNat 32 (x - s.wtc) | none => 0),
   (0x310, r.wpaddr), (0x311, r.wpctl), (0x312, r.wphit)] ++
  (bank t.bank1).zipIdx.map (fun e => (0x101 + e.2, e.1)) ++ (bank t.bank2).zipIdx.map (fun e => (0x111 + e.2, e.1)) ++
  (List.range 32).map (fun k => (0x140 + k, t.bank1.tlm.extractLsb' (32 * k) 32)) ++
  (List.range 32).map (fun k => (0x160 + k, t.bank2.tlm.extractLsb' (32 * k) 32)) ++
  (List.range 9).map (fun k => (0x300 + k, p.hashm.getD k 0)) ++
  (List.range 32).map fun k => (0x400 + k, if s.hasPartner p.num k then
    let x := p.ports.getD k Port.reset
    BitVec.ofNat 32 (x.delay % 2 ^ 12 + x.wire % 2 ^ 8 * 2 ^ 12 + bit x.up 31) else 0)

/-- R315: what the CSRs read as and which are for privileged code (PRW in their maps: TUBAGE, TUBERRB, RTIMEOUT and the hash masks).
That TUBAGE and RTIMEOUT are, as their map has it and R189's prose does not, is the model's choice, entry 75. -/
def csrsPinned (s : State) (t : Team) : Prop :=
  (∀ e ∈ csrTable s t, csrRead s t e.1 = e.2) ∧
  ∀ n, csrPriv n = true ↔ n ∈ [0x020, 0x021, 0x030, 0x300, 0x301, 0x302, 0x303, 0x304, 0x305, 0x306, 0x307, 0x308]

/-- R318: the CSR words. A privileged CSR outside privileged code raises PRT with the CSR field in TVAL. `csrr` takes the value
to the commit, a read of WTCLO its capture as well (R24); the others take the old value and the operand to the commit. The values
and the privileged CSRs are those of R315's tables; TUBAGE and RTIMEOUT are privileged by the model's choice, entry 75. -/
def Obligations.CsrWords : Prop :=
  ∀ (w : FY) (s : State) (c : Cur), s.ev = some c →
    let t := s.teamOf c
    let n := w.csr.toNat
    let l := decide (w.reg.toNat = 122)
    let reg := (8 * c.win + w.reg.toNat) % 512
    let secret := csrPriv n && !s.priv t
    let writes : List (Instr × CsrKind) := [(.csrw w, .write), (.csrs w, .set), (.csrc w, .clear)]
    csrsPinned s t ∧
    (t.up w.pr = w.pn → exec (.csrr w) s = .next (s.setEv (some (afterWord c [] false 1))) ∧
      ∀ e ∈ writes, exec e.1 s = .next (s.setEv (some (afterWord c [] l 1)))) ∧
    (t.up w.pr ≠ w.pn → secret = true →
      exec (.csrr w) s = .next (s.setEv (some (trapWord c 0x09 (w.csr.setWidth 32) 0 false))) ∧
      ∀ e ∈ writes, exec e.1 s = .next (s.setEv (some (trapWord c 0x09 (w.csr.setWidth 32) 0 l)))) ∧
    (t.up w.pr ≠ w.pn → secret = false →
      (n ≠ 0x010 → exec (.csrr w) s = .next (s.setEv (some (afterWord c [.ureg reg (csrSeen s c n)] false 1)))) ∧
      (n = 0x010 → let hi : Word := BitVec.ofNat 32 ((c.first + c.off) / 2 ^ 32)
        exec (.csrr w) s = .next (s.setEv (some (afterWord { c with shadow := some hi }
          [.ureg reg (csrSeen s c n), .shadow hi] false 1)))) ∧
      ∀ e ∈ writes, exec e.1 s = .next (s.setEv (some (afterWord c
        [.csr n e.2 (csrSeen s c n) (unifOp t c w.reg)] l 1))))

/-- R24: the read of WTCLO gives the low half of the count and captures the high half for the read that follows. -/
def Obligations.ClockRead : Prop :=
  ∀ (reg : Nat) (s : State) (c : Cur), s.ev = some c →
    let hi : Word := BitVec.ofNat 32 ((c.first + c.off) / 2 ^ 32)
    let acts := c.acts ++ [.ureg ((8 * c.win + reg) % 512) (BitVec.ofNat 32 (c.first + c.off)), .shadow hi]
    exec (.wtcloRead reg) s = .next (s.setEv (some { c with acts := acts, shadow := some hi }))

/-- R317, R319 to R323, R328, R192: the system words. With a true guard each takes its effect to the commit; `shift`, `migdrain`
and a `kill` of another gang need privileged code, else PRT; `tret` raises ILL 18 at level 0. Its other checks read the frame
that earlier words of the clause may write, at the commit (entry 38). -/
def Obligations.SysWords : Prop :=
  ∀ (k : FK) (n : FN) (q : FQ) (s : State) (c : Cur), s.ev = some c →
    let t := s.teamOf c
    let x := unifOp t c q.reg
    let l := decide (q.reg.toNat = 122)
    let r (j : Nat) : Word := t.g ((8 * c.win + (q.reg.toNat + j)) % 512)
    let does (i : Instr) (l : Bool) (a : List Act) : Prop := exec i s = .next (s.setEv (some (afterWord c a l 1)))
    (t.up k.pr = k.pn → does (.trapW k) false [] ∧ does (.dbrk k) false []) ∧
    (t.up k.pr ≠ k.pn → does (.trapW k) false [.trap 0x0C k.code.toNat] ∧ does (.dbrk k) false [.trap 0x11 k.code.toNat]) ∧
    (t.up n.pr = n.pn → does (.tret n) false []) ∧
    (t.up n.pr ≠ n.pn →
      (t.tl = 0 → exec (.tret n) s = .next (s.setEv (some (trapWord c 0x03 18 0 false)))) ∧
      (t.tl ≠ 0 → does (.tret n) false [.tret c.pos])) ∧
    (t.up q.pr = q.pn → does (.kill q) l [] ∧ does (.wdog q) l [] ∧ does (.shiftW q) false [] ∧ does (.migdrain q) false []) ∧
    (t.up q.pr ≠ q.pn → does (.wdog q) l [.wdog x.toNat]) ∧
    (t.up q.pr ≠ q.pn → s.priv t = true → does (.kill q) l [.kill x] ∧
      does (.shiftW q) false [.shift ((r 1).toNat * 2 ^ 32 + (r 0).toNat) ((r 2).toNat % 2 ^ 16) ((r 3).toNat % 2 ^ 16)
        ((8 * c.win + (q.reg.toNat + 3)) % 512)] ∧
      does (.migdrain q) false [.migdrain ((8 * c.win + q.reg.toNat) % 512) (r 0)]) ∧
    (t.up q.pr ≠ q.pn → s.priv t = false →
      (x.getLsbD 31 = false → does (.kill q) l [.kill x]) ∧
      (x.getLsbD 31 = true → exec (.kill q) s = .next (s.setEv (some (trapWord c 0x09 0 0 l)))) ∧
      exec (.shiftW q) s = .next (s.setEv (some (trapWord c 0x09 0 0 false))) ∧
      exec (.migdrain q) s = .next (s.setEv (some (trapWord c 0x09 0 0 false))))

namespace Sys2Proof.Machine

/-! ## The steps of the machine, each with the rule for its next state -/

/-- The step completes, and its next state obeys a rule. -/
def Gives (i : Instr) (s : State) (rule : State → State → Prop) : Prop := ∃ t, exec i s = .next t ∧ rule s t

/-- Register n of a lane of a team, by the team's number. -/
def State.vreg? (s : State) (t n l : Nat) : Option Word := (s.team? t).map (·.v n l)

/-- A byte of the LS of a core. -/
def State.lsByte (s : State) (p c off : Nat) : Byte := memByte s.mem (s.pod p (lsPa c off))

/-- No barrier object the machine knows of touches a range of package memory (a write to one may complete its phase, R194). -/
def State.noObject (s : State) (p pa n : Nat) : Bool := s.objs.all fun o => o.1 ≠ p || o.2 + 16 ≤ pa || pa + n ≤ o.2

/-- A step stands on the agenda for a cycle. -/
def State.planned (s : State) (cyc : Nat) (i : Instr) : Prop := ∃ e ∈ s.agenda, e.cyc = cyc ∧ e.ev = i

/-- A message that left a package. -/
def sent (p kind a b : Nat) (ok : Bool) (bs : List Byte) (s t : State) : Prop :=
  ∃ e ∈ t.outbound, e = ⟨p, kind, a, b, s.wtc, ok, bs⟩

/-- A lane's data will be written in a cycle (R48). -/
def State.lands (s : State) (f lane cyc : Nat) : Prop :=
  ∃ y ∈ s.landings, y.flight = f ∧ lane ∈ y.lanes ∧ s.planned cyc (.loadDataWritten y.id)

/-- The gang has been killed before this cycle. -/
def State.killedGang (s : State) (g : Nat) : Bool := match (s.gang? g).bind (·.killAt) with | some k => decide (k < s.wtc) | none => false

/-! ### Lane accesses -/

/-- The words a lane's reply fills from D up (R165, R167): the value extended to 32 bits, one word each 4 bytes; all ones in
place of a value that never came (R180). -/
def loadedWords (f : Flight) (got : Nat) : List Word :=
  if 2 ^ 128 ≤ got then List.replicate (max 1 (f.n / 4)) 0xFFFFFFFF
  else if f.kind ≠ .load then [BitVec.ofNat 32 got]
  else if f.n = 1 then [if f.sx then BitVec.ofInt 32 (BitVec.ofNat 8 got).toInt else BitVec.ofNat 32 (got % 2 ^ 8)]
  else if f.n = 2 then [if f.sx then BitVec.ofInt 32 (BitVec.ofNat 16 got).toInt else BitVec.ofNat 32 (got % 2 ^ 16)]
  else (List.range (f.n / 4)).map fun k => BitVec.ofNat 32 (got / 2 ^ (32 * k))

/-- The registers of the landing's lanes hold what their replies bring. -/
def landed (x : Landing) (s t : State) : Prop :=
  ∀ f ∈ s.flight? x.flight, ∀ m ∈ s.team? f.team, s.killedGang f.gang = false → (f.lanes.map (·.lane)).Nodup →
    ∀ q ∈ f.lanes, q.lane ∈ x.lanes → q.st = .performed → s.imageAddr m f.d q.lane = none →
      ∀ k ∈ List.range (loadedWords f q.got).length, f.d + k < m.vr.length → q.lane < (m.vr.getD (f.d + k) []).length →
        t.vreg? m.id (f.d + k) q.lane = (loadedWords f q.got)[k]?

/-- LOAD_DATA_WRITTEN (R48, R332): a landing is written and gone, or goes to the save image where a unit it fills is read. -/
def loadRule (l : Nat) (s t : State) : Prop :=
  ∀ x ∈ s.landing? l,
    (s.spilledLanding x = true → t = { s with due := .op (.spilledReplyWrite l) :: s.due }) ∧
    (s.spilledLanding x = false → (∀ y ∈ t.landings, y.id ≠ l) ∧ landed x s t)

/-- SPILLED_REPLY_WRITE (R332): a reply to a register whose unit the spill has read goes to that unit's place in the image, not
to the register. -/
def spilledRule (l : Nat) (s t : State) : Prop :=
  ∀ x ∈ s.landing? l, (∀ y ∈ t.landings, y.id ≠ l) ∧ landed x s t ∧
    ∀ f ∈ s.flight? x.flight, ∀ m ∈ s.team? f.team, s.killedGang f.gang = false →
      ∀ q ∈ f.lanes, q.lane ∈ x.lanes → q.st = .performed → ∀ a ∈ s.imageAddr m f.d q.lane, a % 64 ≤ 60 →
        (loadedWords f q.got).length = 1 →
        ∃ g ∈ t.gathers, ∃ z ∈ g.segs, z.2.op = .spill m.pl.core m.pl.gang a (natBytes 4 ((loadedWords f q.got).headD 0).toNat)

/-- The runs of bytes and the accumulator words a staged entry holds, and the flight of a staged atomic. -/
def StagedOp.stores : StagedOp → List (Nat × List Byte)
  | .bytes l => l
  | .frame off bs => [(off, bs)]
  | _ => []
def StagedOp.words : StagedOp → List (Nat × Word)
  | .acc l => l
  | _ => []
def StagedOp.flight : StagedOp → Option Nat
  | .atomic f => some f
  | _ => none

/-- The byte a staged store or frame holds for an offset of the block: of the lanes of a pass, the last one's (R149). -/
def StagedOp.byteAt (op : StagedOp) (k : Nat) : Option Byte :=
  (op.stores.filter fun b => b.1 ≤ k && k < b.1 + b.2.length).getLast?.bind fun b => b.2[k - b.1]?

/-- A staged atomic is to be performed on a word with a byte. -/
def Staged.atomicOn (s : State) (e : Staged) (k : Nat) : Bool :=
  match e.op.flight.bind s.flight? with
  | some f => f.lanes.any fun q => q.va ≤ k && k < q.va + 4
  | none => false

/-- R149, R150: the byte of the LS that a team's own read sees: the one that the team's youngest staged entry on it holds, else the
bank's; under an atomic it is the bank's until the atomic is performed. -/
def State.seenByte (s : State) (m : Team) (k : Nat) : Byte :=
  let mine (e : Staged) : Bool := e.team = m.id && e.id < s.nextId && ((e.op.byteAt k).isSome || e.atomicOn s k)
  ((s.staged.filter mine).getLast?.bind fun e => e.op.byteAt k).getD
    (memByte s.mem (s.pod m.pl.pkg (lsPa m.pl.core (m.pl.lsBase + k))))

/-- STAGED_STORE_PERFORMED (R149, R168): the entry leaves staging; its bytes stand at the bank and no other byte changes, or its
words stand in the accumulators. -/
def storeRule (i : Nat) (s t : State) : Prop :=
  ∀ e ∈ s.staged? i,
    let at_ (b : Nat × List Byte) : Nat := s.pod e.pkg (lsPa e.core (e.base + b.1))
    (∀ y ∈ t.staged, y.id ≠ i) ∧
    (e.op.stores.Pairwise (fun a b => a.1 + a.2.length ≤ b.1 ∨ b.1 + b.2.length ≤ a.1) →
      (∀ b ∈ e.op.stores, s.noObject e.pkg (lsPa e.core (e.base + b.1)) b.2.length = true) →
      (∀ b ∈ e.op.stores, ∀ k ∈ List.range b.2.length, some (memByte t.mem (at_ b + k)) = b.2[k]?) ∧
      ∀ c ∈ s.mem ++ t.mem, (∀ b ∈ e.op.stores, c.1 < at_ b ∨ at_ b + b.2.length ≤ c.1) →
        memByte t.mem c.1 = memByte s.mem c.1) ∧
    ((e.op.words.map (·.1)).Nodup → ∀ w ∈ e.op.words, accWord t.acc w.1 = w.2)

/-- The word an atomic leaves (R167): m at the home, x the operand, cmp the expected value. The halves of `bfadd2` are pinned by
`halvesRound`. -/
def atomicStep (op : AOp) (m x cmp : Word) : Word :=
  match op with
  | .add => BitVec.ofNat 32 (m.toNat + x.toNat)
  | .minS => if x.toInt < m.toInt then x else m
  | .maxS => if m.toInt < x.toInt then x else m
  | .minN => if x.toNat < m.toNat then x else m
  | .maxN => if m.toNat < x.toNat then x else m
  | .and => m &&& x
  | .or => m ||| x
  | .xor => m ^^^ x
  | .xchg => x
  | .cas => if m = cmp then x else m
  | .fadd => (fAdd .rne m x).1
  | .fmin => (fMinMax false m x).1
  | .fmax => (fMinMax true m x).1
  | .bfadd2 => atomic .bfadd2 m x cmp

/-- R167: each half of `bfadd2` is the sum of the halves rounded once to BF16 by RNE, 0x7FC0 for a NaN. -/
def halvesRound : Prop :=
  ∀ (m x cmp : Word), ∀ i ∈ List.range 2,
    let half (w : Word) : Nat := w.toNat / 2 ^ (16 * i) % 2 ^ 16
    let r := half (atomicStep .bfadd2 m x cmp)
    let special (h : Nat) : Prop := h / 2 ^ 7 % 2 ^ 8 = 255
    (∀ h ∈ [half m, half x], special h → h % 2 ^ 7 ≠ 0 → r = 0x7FC0) ∧
    ∀ a b : ℝ, ¬ special (half m) → ¬ special (half x) → codeIs 7 8 127 (half m) a → codeIs 7 8 127 (half x) b → a + b ≠ 0 →
      ∃ (n : Nat) (q : Int), roundedAt .rne 7 (-133) (a + b) n q ∧
        ((n : ℝ) * (2 : ℝ) ^ q < (2 : ℝ) ^ (128 : Int) → ¬ special r ∧
          codeIs 7 8 127 r ((if a + b < 0 then -1 else 1) * ((n : ℝ) * (2 : ℝ) ^ q))) ∧
        ((2 : ℝ) ^ (128 : Int) ≤ (n : ℝ) * (2 : ℝ) ^ q → r = if a + b < 0 then 0xFF80 else 0x7F80)

/-- Lanes of an atomic at aligned words, none with an uncorrectable error or on a barrier object. -/
def State.plainWords (s : State) (f : Flight) (l : List LaneReq) : Bool :=
  l.all fun q => q.home % 4 = 0 && !s.uceAt f.pkg q.home 4 && s.noObject f.pkg q.home 4

/-- R167: the lanes of an atomic that name one word are applied there in lane order, each seeing the value the lane before it
left; a fetching form's lane gets the value it saw, and it lands `delay` cycles later. -/
def atomicsDone (f : Flight) (l : List LaneReq) (delay : Nat) (s t : State) : Prop :=
  let step (m : Word) (q : LaneReq) : Word := atomicStep f.aop m (BitVec.ofNat 32 q.data) (BitVec.ofNat 32 q.cmp)
  let seen (q : LaneReq) (before : List LaneReq) : Word :=
    (before.filter (·.home = q.home)).foldl step (BitVec.ofNat 32 (s.rd f.pkg q.home 4))
  (∀ q ∈ l, t.rd f.pkg q.home 4 = (seen q l).toNat) ∧
  (f.kind = .atomF → (f.lanes.map (·.lane)).Nodup → ∀ pre q post, l = pre ++ q :: post →
    t.lands f.id q.lane (s.wtc + delay) ∧
    ∀ g ∈ t.flight? f.id, ∀ r ∈ g.lanes, r.lane = q.lane → r.got = (seen q pre).toNat)

/-- R165, R166: the lanes of a load get the bytes at their homes, which land `delay` cycles later. -/
def loadsDone (f : Flight) (l : List LaneReq) (delay : Nat) (s t : State) : Prop :=
  ∀ q ∈ l, s.uceAt f.pkg q.home f.n = false → t.lands f.id q.lane (s.wtc + delay) ∧
    ∀ g ∈ t.flight? f.id, (f.lanes.map (·.lane)).Nodup → ∀ r ∈ g.lanes, r.lane = q.lane → r.got = s.rd f.pkg q.home f.n

/-- R165, R166: the lanes of a store write their homes in lane order. -/
def storesDone (f : Flight) (l : List LaneReq) (s t : State) : Prop :=
  (∀ q ∈ l, q.home % f.n = 0 ∧ s.noObject f.pkg q.home f.n = true) → ∀ pre q post, l = pre ++ q :: post →
    (∀ r ∈ post, r.home ≠ q.home) → t.rd f.pkg q.home f.n = q.data % 2 ^ (8 * f.n)

/-- Lanes of a flight are performed at their homes (R165 to R167). -/
def lanesDone (f : Flight) (l : List LaneReq) (delay : Nat) (s t : State) : Prop :=
  ((f.kind = .atomF ∨ f.kind = .atomN) → s.plainWords f l = true → atomicsDone f l delay s t) ∧
  (f.kind = .load → loadsDone f l delay s t) ∧ (f.kind = .store → storesDone f l s t)

/-- LS_ATOMIC_PERFORMED (R150, R167): the lanes' words take their new values; old values land four cycles later. -/
def lsAtomicRule (i : Nat) (s t : State) : Prop :=
  ∀ e ∈ s.staged? i, (∀ y ∈ t.staged, y.id ≠ i) ∧
    ∀ n ∈ e.op.flight, ∀ f ∈ s.flight? n, (f.kind = .atomF ∨ f.kind = .atomN) →
      s.plainWords f (f.lanes.filter (·.st = .moving)) = true →
      atomicsDone f (f.lanes.filter (·.st = .moving)) 4 s t

/-- PACKAGE_GLOBAL_ACCESS (R151, R166, R167): the lanes due at an LS in this cycle are performed there; data lands 20 cycles
later. -/
def globalRule (i : Nat) (s t : State) : Prop :=
  ∀ f ∈ s.flight? i, lanesDone f
    (f.lanes.filter fun q => q.st = .moving && q.due = s.wtc && (match homeOf q.home with | .ls _ _ => true | _ => false)) 20 s t

/-- The team's gang does not run (R327). -/
def State.switchedOut (s : State) (m : Team) : Prop := ∃ g ∈ s.gang? m.pl.gang, g.state ≠ .run

/-- FAULT_REPORT (R312): the lanes with a known fault are done, and the team has an imprecise fault with the address of the
lowest such lane and the mask of the lanes with its cause. -/
def faultRule (i : Nat) (s t : State) : Prop :=
  ∀ f ∈ s.flight? i,
    (∀ g ∈ t.flight? i, ∀ q ∈ g.lanes, q.st ≠ .err ∨ s.wtc < q.due) ∧
    ∀ m ∈ s.team? f.team, m.ended = false → m.stopped = false → (m.events.all fun e => e.order ≠ 4) = true →
      ∀ q ∈ (f.lanes.filter fun q => q.st = .err && q.due ≤ s.wtc).head?, ∀ z ∈ t.team? f.team,
        ∃ e ∈ z.events, e.order = 4 ∧ e.imp = true ∧ e.cause = q.got ∧ e.tval = BitVec.ofNat 32 q.va ∧
          e.tvalh = BitVec.ofNat 32 (q.va / 2 ^ 32) ∧
          e.tlm = maskOf ((f.lanes.filter fun r => r.st = .err && r.due ≤ s.wtc && r.got = q.got).map (·.lane))

/-- FAULT_REPORT (R312, R326): a fault of one cause whose tag is below the team's level, or whose team's turn cannot come, is held at
its tag, and one whose tag has a fault pending or held sets MULT there and is dropped; each is recorded. A team that has ended or
stopped takes none, and it is recorded too. -/
def heldFaultRule (i : Nat) (s t : State) : Prop :=
  ∀ f ∈ s.flight? i, ∀ m ∈ s.team? f.team, m.pl.core < 256 → (f.lanes.all fun q => q.st ≠ .unmapped) = true →
    let bad := f.lanes.filter fun q => q.st = .err && q.due ≤ s.wtc
    let tag := min f.level m.tl
    let pending (e : TeamEvent) : Bool := e.order = 4 && e.level = tag
    let noted (c : Nat) (x : LaneReq) : Prop := ∃ r ∈ t.records, r.imp = true ∧ r.cause = c ∧ r.level = 0 ∧
      r.wtc = s.wtc ∧ r.core = m.pl.core ∧ r.slot = m.pl.slot ∧ r.tval = BitVec.ofNat 32 x.va
    ∀ q ∈ bad.head?, (∀ r ∈ bad, r.got = q.got) → ∀ z ∈ t.team? f.team,
      (m.ended = true ∨ m.stopped = true → noted q.got q ∧ z.events = m.events) ∧
      (m.ended = false → m.stopped = false →
        (m.events.any pending = true → noted q.got q ∧
          z.events = m.events.map fun e => if pending e = true then { e with mult := true } else e) ∧
        (m.events.any pending = false → (f.level < m.tl ∨ m.live = 0 ∨ s.switchedOut m → noted q.got q) ∧
          ∃ e, z.events = m.events ++ [e] ∧ pending e = true ∧ e.cause = q.got ∧ e.mult = false ∧ e.words = f.words))

end Sys2Proof.Machine

namespace Sys2Proof.Machine

/-! ### The commit of a memory word -/

/-- A team's memory word, as `asks` makes it, commits in a state whose numbers of entries and flights are all taken below the next. -/
def State.committing (s : State) (m : Team) (a : MemAct) : Prop :=
  s.team? m.id = some m ∧ a.lanes ≠ [] ∧ (a.lanes.map (·.lane)).Nodup ∧ (∀ q ∈ a.lanes, q.st = .moving ∧ q.due = 0) ∧
    a.sb < m.sb.length ∧ s.gangKilled m.pl.gang = false ∧ (∀ e ∈ s.staged, e.id < s.nextId) ∧
    ∀ f ∈ s.flights, f.id < s.nextId

/-- The flight of a commit, what became of a lane in it, and its counter: one more for all but stores (R48). -/
def flies (s t : State) (f : Flight) : Prop := t.flights = s.flights ++ [f] ∧ f.id = s.nextId
def counted (m : Team) (k n : Nat) (t : State) : Prop := ∀ z ∈ t.team? m.id, z.sb.getD k 0 = m.sb.getD k 0 + n

/-- An entry of staging for a team's words committed now, and the cycle of its step. -/
def stagedFor (m : Team) (base : Nat) (op : StagedOp) (s t : State) (y : Staged) : Prop :=
  t.staged = s.staged ++ [y] ∧ y.team = m.id ∧ y.pkg = m.pl.pkg ∧ y.core = m.pl.core ∧ y.s = s.wtc ∧ y.base = base ∧ y.op = op

/-- R150: the cycle the data of a local load lands in, 12 cycles on or four behind the last of the team's staged atomics on it. -/
def State.loadLands (s : State) (m : Team) (a : MemAct) : Nat :=
  let on (e : Staged) : Bool := e.team = m.id && match e.op.flight.bind s.flight? with
    | some f => a.lanes.any fun q => f.lanes.any fun r => r.va < q.va + a.n && q.va < r.va + 4
    | none => false
  ((s.staged.filter on).map fun e => e.s + 24).foldl max (s.wtc + 12)

/-- R149, R150, R162: a local word. A load has its bytes now, the team's own staged stores among them; a store enters staging and is
performed 20 cycles on, as an atomic is. A load of bytes with an uncorrectable error is a fault (entries 82, 83: the model's choices). -/
def localCommit (m : Team) (a : MemAct) (s t : State) : Prop :=
  let home (q : LaneReq) : Nat := lsPa m.pl.core (m.pl.lsBase + q.va)
  (a.kind = .store → t.flights = s.flights ∧ counted m a.sb 0 t ∧
    ∃ y, stagedFor m m.pl.lsBase (.bytes (a.lanes.map fun q => (q.va, natBytes a.n q.data))) s t y ∧
      t.planned (s.wtc + 20) (.stagedStorePerformed y.id)) ∧
  (a.kind = .load → t.staged = s.staged ∧ counted m a.sb 1 t ∧ ∃ f, flies s t f ∧ ∀ q ∈ a.lanes, ∃ r ∈ f.lanes, r.lane = q.lane ∧
    (s.uceAt m.pl.pkg (home q) a.n = false → t.lands f.id q.lane (s.loadLands m a) ∧ r.st = .performed ∧
      r.got = bytesNat ((List.range a.n).map fun k => s.seenByte m (q.va + k))) ∧
    (s.uceAt m.pl.pkg (home q) a.n = true → r.st = .err ∧ r.got = 0x0F ∧ t.planned s.wtc (.faultReport f.id))) ∧
  (a.kind = .atomF ∨ a.kind = .atomN → counted m a.sb 1 t ∧ ∃ f y, flies s t f ∧
    stagedFor m m.pl.lsBase (.atomic f.id) s t y ∧ t.planned (s.wtc + 20) (.lsAtomicPerformed y.id) ∧
    ∀ q ∈ a.lanes, ∃ r ∈ f.lanes, r.lane = q.lane ∧ r.st = .moving ∧ r.home = home q)

/-- R162, R168: an accumulator word. A load's data lands 8 cycles on; a store's words are written one cycle on. -/
def accCommit (m : Team) (a : MemAct) (s t : State) : Prop :=
  let ix (q : LaneReq) : Nat := accIx m.pl.pkg m.pl.core (m.pl.atBase + q.home) q.va
  (a.kind = .store → t.flights = s.flights ∧ ∃ y, stagedFor m 0 (.acc (a.lanes.map fun q => (ix q, BitVec.ofNat 32 q.data))) s t y ∧
    t.planned (s.wtc + 1) (.stagedStorePerformed y.id)) ∧
  (a.kind = .load → t.staged = s.staged ∧ counted m a.sb 1 t ∧ ∃ f, flies s t f ∧ ∀ q ∈ a.lanes, ∃ r ∈ f.lanes, r.lane = q.lane ∧
    (2 ^ 60 + ix q ∉ s.uce → t.lands f.id q.lane (s.wtc + 8) ∧ r.st = .performed ∧ r.got = (accWord s.acc (ix q)).toNat) ∧
    (2 ^ 60 + ix q ∈ s.uce → r.st = .err ∧ r.got = 0x0F ∧ t.planned s.wtc (.faultReport f.id)))

/-- What the translation of a lane gives (R143 to R147). -/
def State.laneXl (s : State) (m : Team) (a : MemAct) (q : LaneReq) : Xl :=
  s.xlate m.pl.pkg m.pl.core (s.gangCtx m.pl.gang) q.va
    (match a.kind with | .load => .rd | .store => .wr | _ => .at_)

/-- The home of a lane in its own package, and in another. -/
def State.nearHome (s : State) (m : Team) (a : MemAct) (q : LaneReq) : Option Nat :=
  match s.laneXl m a q with
  | .ok pa tgt => match s.dest m.pl.pkg pa tgt with | .here x => some x | _ => none
  | _ => none
def State.farHome (s : State) (m : Team) (a : MemAct) (q : LaneReq) : Option Nat :=
  match s.laneXl m a q with
  | .ok pa tgt => match s.dest m.pl.pkg pa tgt with | .away x => some x | _ => none
  | _ => none

/-- A lane of a commit stands still: its translation failed, or its page is to be walked for (R147). -/
def strays (m : Team) (a : MemAct) (q r : LaneReq) (s t : State) : Prop :=
  (∀ c, s.laneXl m a q = .fault c → r.st = .err ∧ r.got = c ∧ t.planned (s.wtc + 1) (.faultReport s.nextId)) ∧
  (s.laneXl m a q = .walk → r.st = .walk ∧ ∃ w ∈ t.walks, w.page = q.va / 4096 * 4096 ∧ s.nextId ∈ w.flights)

/-- R208: the tag board holds stores and atomics of a team's open region on their way to device memory. -/
def State.holdsTags (s : State) (m : Team) (a : MemAct) : Prop :=
  a.kind ≠ .load ∧ m.region = true ∧ ∃ g ∈ s.gang? m.pl.gang, g.desc.flags.testBit 1 = true ∧
    g.releasedOf m.pl.block ≤ m.rounds

/-- R151 to R153, R155, R208: a global word takes an entry of the request table for each lane. A lane to an LS is performed 20 cycles
and the way over the torus on; the lanes to device memory arrive there together 200 cycles on, one segment for each 64 bytes that
the lanes need, in lane order, of two slots for an atomic; or the tag board holds them. -/
def globalCommit (m : Team) (a : MemAct) (s t : State) : Prop :=
  let inHbm (q : LaneReq) : Bool := match s.nearHome m a q with | some x => homeOf x = .hbm | none => false
  let piece (q : LaneReq) : Nat := ((s.nearHome m a q).getD 0) / 64 * 64
  let hbm := a.lanes.filter inHbm
  t.staged = s.staged ∧ ∃ f, flies s t f ∧
    (∀ q ∈ a.lanes, ∃ r ∈ f.lanes, r.lane = q.lane ∧ strays m a q r s t ∧
      ∀ x ∈ s.nearHome m a q, homeOf x ≠ .nothing → r.home = x ∧
        (∀ c o, homeOf x = .ls c o → r.st = .moving ∧ r.due = s.wtc + 20 + torus m.pl.core c ∧
          t.planned r.due (.packageGlobalAccess f.id)) ∧
        (homeOf x = .hbm → s.holdsTags m a → r.st = .held)) ∧
    (hbm ≠ [] → ¬ s.holdsTags m a → ∃ g ∈ t.gathers, t.planned (s.wtc + 200) (.gatherPacketArrival g.id) ∧
      (∀ q ∈ hbm, ∃ z ∈ g.segs, z.1 = piece q) ∧
      (∀ z ∈ g.segs, z.2.op = .lanes f.id ((hbm.filter fun q => piece q = z.1).map (·.lane)) ∧ z.2.after = 0 ∧
        z.2.slots = if a.kind = .atomF ∨ a.kind = .atomN then 2 else 1) ∧
      (g.segs.map fun z => hbm.findIdx fun q => piece q = z.1).Pairwise (· < ·)) ∧
    ((∀ q ∈ a.lanes, ∃ x ∈ s.nearHome m a q, homeOf x ≠ .nothing) →
      counted m a.sb (if a.kind = .store then 0 else 1) t ∧
      t.entries m.pl.pkg m.pl.core = s.entries m.pl.pkg m.pl.core + a.lanes.length)

/-- R155, R172, R187, R190: a remote word asks its port 40 cycles on, a load for its requests and any other for its tub; a load's
and a fetching atomic's lanes take entries of the request table. -/
def remoteCommit (m : Team) (a : MemAct) (s t : State) : Prop :=
  t.staged = s.staged ∧ counted m a.sb (if a.kind = .store then 0 else 1) t ∧ ∃ f, flies s t f ∧
    (∀ q ∈ a.lanes, ∃ r ∈ f.lanes, r.lane = q.lane ∧ strays m a q r s t ∧
      ∀ x ∈ s.farHome m a q, r.home = x ∧ r.st = .moving ∧ r.due = s.wtc + 40 ∧
        t.planned (s.wtc + 40) (if a.kind = .load then .remoteLoadRequest f.id else .tubOffer f.id)) ∧
    ((∀ q ∈ a.lanes, (s.farHome m a q).isSome) → t.entries m.pl.pkg m.pl.core = s.entries m.pl.pkg m.pl.core +
      if a.kind = .load ∨ a.kind = .atomF then a.lanes.length else 0)

end Sys2Proof.Machine

/-- R45, R48, R149 to R155, R168, R172, R187, R208: what the commit of a pass makes of one memory word of it: its flight, the cycles
in which it is performed and its data lands, its places in staging, in the request table and in device memory. A watched page that
was not in the buffer at the commit has been walked for before (`failed`). -/
def Obligations.MemoryCommit : Prop :=
  ∀ (s : State) (m : Team) (c : Cur) (r : Run) (last : Bool) (a : MemAct), s.committing m a → r.failed = [] →
    let t := s.applyAct m c r last (.mem a)
    t.mem = s.mem ∧ t.acc = s.acc ∧ (a.space = 0 → localCommit m a s t) ∧
    (a.space = 3 → a.kind = .load ∨ a.kind = .store → accCommit m a s t) ∧
    (a.space = 1 → globalCommit m a s t) ∧ (a.space = 2 → remoteCommit m a s t)

/-- R48, R149 to R151, R165 to R168, R312, R332: the steps of lane accesses behind their commit.
The place of an image is entry 12, the order of causes entry 25. -/
def Obligations.LaneAccessSteps : Prop :=
  ∀ (s : State) (i : Nat),
    Gives (.loadDataWritten i) s (loadRule i) ∧ Gives (.spilledReplyWrite i) s (spilledRule i) ∧
    Gives (.stagedStorePerformed i) s (storeRule i) ∧ Gives (.lsAtomicPerformed i) s (lsAtomicRule i) ∧
    Gives (.packageGlobalAccess i) s (globalRule i) ∧ Gives (.faultReport i) s (faultRule i) ∧
    Gives (.faultReport i) s (heldFaultRule i) ∧ halvesRound

namespace Sys2Proof.Machine

/-! ### Device memory and page walks -/

/-- GATHER_PACKET_ARRIVAL (R152, R153): the packet is gone, and each of its segments waits at the pseudo-channel its address
hashes to, behind everything already there, with this cycle as its arrival. A remote element or load that meets an uncorrectable
error takes no slot and counts as performed now (R180, R344). -/
def gatherRule (i : Nat) (s t : State) : Prop :=
  ∀ g ∈ s.gathers.find? (·.id = i),
    (∀ y ∈ t.gathers, y.id ≠ i) ∧
    (∀ n ∈ List.range 512, (t.pc g.pkg n).queue = (s.pc g.pkg n).queue ++
      (g.segs.filter fun z => (s.noSlot g.pkg z.2.op).isNone && hashPc (s.pkg g.pkg).hashm z.1 = n).map
        fun z => { z.2 with arr := s.wtc }) ∧
    ∀ z ∈ g.segs, ∀ i ∈ s.noSlot g.pkg z.2.op, .op i ∈ t.due

/-- The flight and the lanes a segment performs. -/
def SegOp.lanesOf : SegOp → Option (Nat × List Nat)
  | .lanes f ls => some (f, ls)
  | _ => none

/-- The bytes a segment of the hub writes as it is served: a record or a spill. -/
def SegOp.written : SegOp → Option (Nat × List Byte)
  | .record pa bs _ | .trapRec pa _ bs | .spill _ _ pa bs => some (pa, bs)
  | _ => none

/-- The bytes at an address of a package are those of a list. -/
def holds (p pa : Nat) (bs : List Byte) (s t : State) : Prop :=
  ∀ i ∈ List.range bs.length, some (memByte t.mem (s.pod p (pa + i))) = bs[i]?

/-- A request of a UALink peer is performed at its home and completed (R362): a read with its bytes, a write, an atomic with the old
value; a read or an atomic that meets an uncorrectable error is completed with an error (R162). -/
def ualServed (p stn : Nat) (r : UalReq) (s t : State) : Prop :=
  match r with
  | .read pa n => if s.uceAt p pa n = true then sent p 7 pa stn false [] s t
      else sent p 7 pa stn true (natBytes n (s.rd p pa n)) s t
  | .write pa bs => sent p 7 pa stn true [] s t ∧ holds p pa bs s t
  | .atomic pa op x cmp => if s.uceAt p pa 4 = true then sent p 7 pa stn false [] s t
      else sent p 7 pa stn true (natBytes 4 (s.rd p pa 4)) s t ∧
        holds p pa (natBytes 4 (atomic op (BitVec.ofNat 32 (s.rd p pa 4)) x cmp).toNat) s t

/-- A host access is performed: a write is in memory, a read answered with its bytes, or with an error where it meets an uncorrectable
one (R162, R359). -/
def hostServed (p pa n : Nat) (w : Bool) (bs : List Byte) (s t : State) : Prop :=
  if w = true then holds p pa bs s t
  else if s.uceAt p pa n = true then sent p 6 pa n false [] s t
  else sent p 6 pa n true (natBytes n (s.rd p pa n)) s t

/-- What the hub's own segments do as they are served: a record or spill is in memory, a TUBERR record counted in the cycle after
(R345), a trap record reported (R326, R363); a table entry is at its walker 320 cycles later (R338); a remote element or load is
performed now (R176), and so are an access of the host and a request of a UALink peer; the bytes of a fill's read have come 320
cycles later, the read's last (R153, R331). -/
def hubServed (p : Nat) (op : SegOp) (s t : State) : Prop :=
  (∀ z ∈ op.written, holds p z.1 z.2 s t) ∧
  (match op with
    | .record _ _ i => (s.recordCtx i).isSome = true → t.planned (s.wtc + 1) (.tuberrHeadAdvance i)
    | .trapRec pa n _ => ⟨p, 2, pa, n, s.wtc⟩ ∈ t.notices
    | .walk q _ => t.planned (s.wtc + 320) (.walkLevelRead p q)
    | .elem i j => .op (.elementPerformed p i j) ∈ t.due
    | .rload i j => .op (.remoteLoadAccess p i j) ∈ t.due
    | .host _ pa n w bs => hostServed p pa n w bs s t
    | .ual _ stn r => ualServed p stn r s t
    | .fill g i pa n => ∀ x ∈ s.gang? g, ∀ f ∈ x.fills, ∀ r ∈ f.reads, r.id = i → r.pa ≤ pa → pa + n ≤ r.pa + r.data.length →
        ∀ y ∈ t.gang? g, ∃ h ∈ y.fills, h.core = f.core ∧ ∃ q ∈ h.reads, q.id = i ∧ q.chunk = r.chunk ∧ q.left = r.left - 1 ∧
          (q.data.drop (pa - r.pa)).take n = natBytes n (s.rd p pa n) ∧ (r.left ≤ 1 → q.due = some (s.wtc + 320))
    | _ => True)

/-- SEGMENT_SERVED (R153): in the cycle found for it the first segment leaves the queue and takes its slots, two cycles each;
the next one, if any, is served at the first even cycle not before the channel is free and not before its own earliest. The
lanes it carries are performed at their homes now, their data landing 320 cycles later. A segment of two slots waits where its
second one would be a refresh's first (R160). -/
def servedRule (p n : Nat) (s t : State) : Prop :=
  let x := s.pc p n
  ∀ g ∈ x.queue.head?, x.due = s.wtc → x.busy ≤ s.wtc → g.after ≤ s.wtc →
    (s.meetsRefresh x g = true → (t.pc p n).queue = x.queue ∧ (t.pc p n).busy = x.busy) ∧
    (s.meetsRefresh x g = false → 0 < g.slots →
      (t.pc p n).queue = x.queue.tail ∧ (t.pc p n).busy = s.wtc + 2 * g.slots ∧
      (∀ h ∈ x.queue.tail.head?, let c := max (s.wtc + 2 * g.slots) h.after
        t.planned (c + c % 2) (.segmentServed p n)) ∧
      hubServed p g.op s t ∧ ∀ z ∈ g.op.lanesOf, ∀ f ∈ s.flight? z.1,
        lanesDone f (f.lanes.filter fun q => z.2.contains q.lane && q.st = .moving) 320 s t)

/-- REFRESH_PHASE_POINT (R160): at phase point k of 4875 cycles, pseudo-channel k of each stack is taken for 448 cycles from
the first even cycle on where no schedule runs or its balance is 0, and spends one of its balance elsewhere. -/
def refreshRule (p k : Nat) (s t : State) : Prop :=
  s.wtc % 4875 = 76 * k → ∀ n ∈ (List.range 8).map (64 * · + k),
    let x := s.pc p n
    if ((s.pkg p).schedAt s.wtc).isNone = true ∨ x.bal = 0
    then (t.pc p n).busy = max x.busy (s.wtc + s.wtc % 2 + 448) ∧ (t.pc p n).bal = x.bal
    else (t.pc p n).busy = x.busy ∧ (t.pc p n).bal + 1 = x.bal

/-- COMPUTE_BOUND_REFRESH (R160): in a compute-bound interval, a refresh that can end in it starts at the first even cycle at
which the channel is free, while the balance is below 8, and raises the balance; the next is looked at as it ends. -/
def boundRule (p n : Nat) (s t : State) : Prop :=
  ∀ y ∈ (s.pkg p).schedAt s.wtc, ∀ e ∈ y.intervalEnd s.wtc,
    let x := s.pc p n
    s.wtc % 2 = 0 → x.busy ≤ s.wtc →
      if x.bal < 8 ∧ s.wtc + 448 ≤ e then
        (t.pc p n).busy = s.wtc + 448 ∧ (t.pc p n).bal = x.bal + 1 ∧ t.planned (s.wtc + 448) (.computeBoundRefresh p n)
      else (t.pc p n).busy = x.busy ∧ (t.pc p n).bal = x.bal

/-- PARITY_ALERT_REPLAY (R161): the replay is counted and reported, and every waiting segment comes at least 128 cycles
later than this cycle. -/
def replayRule (p n : Nat) (s t : State) : Prop :=
  (t.pc p n).replays = (s.pc p n).replays + 1 ∧ (t.pc p n).queue.length = (s.pc p n).queue.length ∧
    (∀ g ∈ (t.pc p n).queue, s.wtc + 128 ≤ g.after) ∧
    ∃ e ∈ t.notices, e = ⟨p, 4, n, (s.pc p n).replays + 1, s.wtc⟩

/-- The table entry a walk reads (R146): the table's base and eight bytes an index, by the address bits of the level. -/
def entryAddr (table level va : Nat) : Nat :=
  table + 8 * (if level = 3 then va / 2 ^ 39 % 2 ^ 17 else va / 2 ^ (12 + 9 * level) % 2 ^ 9)

/-- A read of a table entry is on its way to its pseudo-channel, 200 cycles ahead (R152, R338). -/
def State.readsEntry (t : State) (p q pa : Nat) : Prop :=
  ∃ g ∈ t.gathers, t.planned (t.wtc + 200) (.gatherPacketArrival g.id) ∧ g.pkg = p ∧
    ∃ z ∈ g.segs, z.1 = pa - pa % 64 ∧ z.2.op = .walk q pa

/-- PAGE_WALK (R146, R147): an idle walker starts the first walk that waits in its quad, at level 3 from the context's root; one
that ended a walk in this cycle is idle from the next (R338). -/
def walkRule (p q : Nat) (s t : State) : Prop :=
  let mine := s.walks.filter fun w => w.pkg = p && w.quad = q
  (mine.all fun w => !w.started) = true → s.walkerClosing p q = false → ∀ w ∈ mine.head?, ∀ x ∈ s.ctx? p w.ctx,
    ({ w with started := true, level := 3, table := x.root } ∈ t.walks) ∧ t.readsEntry p q (entryAddr x.root 3 w.page)

/-- WALK_LEVEL_READ (R146, R147): an entry without V, with a reserved bit or a leaf where none may be ends the walk with no
page; a leaf puts the page it maps into the core's translation buffer; any other entry leads to the next level. -/
def levelRule (p q : Nat) (s t : State) : Prop :=
  ∀ w ∈ s.walks.find? fun w => w.pkg = p && w.quad = q && w.started,
    let x := w.entry
    let bit (k : Nat) : Bool := x / 2 ^ k % 2 = 1
    let pa := x % 2 ^ 56 / 2 ^ 12 * 2 ^ 12
    let size := if bit 5 then 2 ^ 16 else 2 ^ (12 + 9 * w.level)
    let bad : Bool := !bit 0 || x / 2 ^ 8 % 2 ^ 4 ≠ 0 || x / 2 ^ 56 ≠ 0 || (bit 5 && w.level ≠ 0) ||
      (bit 1 && (w.level = 3 || pa % size ≠ 0)) || (!bit 1 && w.level = 0)
    if bad = true then ∀ y ∈ t.walks, y.started = true → y.id ≠ w.id
    else if bit 1 then
      (∀ y ∈ t.walks, y.started = true → y.id ≠ w.id) ∧ t.planned (s.wtc + 1) (.pageWalk p q) ∧
      (256 * w.pkg + w.core < s.cores.length →
        ∃ e ∈ (t.core w.pkg w.core).tlb, e = ⟨w.ctx, w.page - w.page % size, size, pa, bit 2, bit 3, bit 4, x / 2 ^ 6 % 4⟩)
    else
      ({ w with level := w.level - 1, table := pa } ∈ t.walks) ∧ t.readsEntry p q (entryAddr pa (w.level - 1) w.page)

end Sys2Proof.Machine

/-- R146, R147, R152 to R154, R160, R161: the steps of device memory and of the page walkers.
Details of refresh, replay and walks are entries 54 to 56. -/
def Obligations.MemorySteps : Prop :=
  ∀ (s : State) (p n i : Nat),
    Gives (.gatherPacketArrival i) s (gatherRule i) ∧ Gives (.segmentServed p n) s (servedRule p n) ∧
    Gives (.refreshPhasePoint p n) s (refreshRule p n) ∧ Gives (.computeBoundRefresh p n) s (boundRule p n) ∧
    Gives (.parityAlertReplay p n) s (replayRule p n) ∧ Gives (.pageWalk p n) s (walkRule p n) ∧
    Gives (.walkLevelRead p n) s (levelRule p n)

namespace Sys2Proof.Machine

/-! ### Tubs and remote accesses -/

/-- Tub k of a package. -/
def State.tubAt (s : State) (p k : Nat) : Tub := (s.pkg p).tubs.getD k Tub.reset

/-- The elements of a tub packet and the lane accesses of a load request. -/
def PBody.elems : PBody → List Elem
  | .tub _ es => es
  | _ => []
def PBody.accesses : PBody → List RLane
  | .loadReq _ _ _ ls => ls
  | _ => []

/-- A TUBERR record shows an element, its fault and the cycle (R182). -/
def recordShows (d : List Byte) (e : Elem) (cause now : Nat) : Bool :=
  d.length = 32 && bytesNat (d.take 8) = e.va % 2 ^ 56 / 4 * 4 && bytesNat ((d.drop 8).take 4) = e.data.toNat &&
    bytesNat ((d.drop 12).take 4) % 16 = e.be && bytesNat ((d.drop 12).take 4) / 4096 % 16 = cause &&
    bytesNat ((d.drop 20).take 4) = e.lane && bytesNat (d.drop 28) = now % 2 ^ 32

/-- The fault of an element is on its way to the TUBERR ring of its team's context, unless the team's gang was killed. -/
def noted (p : Nat) (e : Elem) (cause : Nat) (s t : State) : Prop :=
  e.be < 16 → e.lane < 2 ^ 32 →
  ∀ m ∈ s.team? e.team, ∀ g ∈ s.gang? m.pl.gang, g.killAt = none → ∀ c ∈ s.ctx? p g.ctx,
    ∃ z ∈ t.ctx? c.pkg c.num, ∃ r ∈ z.pend, r.team = e.team ∧ recordShows r.data e cause s.wtc = true

/-- An OPEN tub closes (R171, R175, R188): to a package of the pod it is CLOSED, and its packet of one slot and one for four
elements waits at the port of its route, where that port has a partner; where it has none, each element is noted with NOROUTE.
To a UALink peer a request for each element leaves through the station, but for an operation the peer has not, which is noted
with UNSUP. -/
def closed (p k : Nat) (s t : State) : Prop :=
  let x := s.tubAt p k
  (t.tubAt p k).st ≠ 1 ∧
  (x.dkey < 4096 →
    (∀ _q ∈ s.partner p (routePort (s.pkg p).num (x.dkey % 256)),
      t.tubAt p k = { x with st := 2 } ∧
      ∃ y ∈ (t.port p (routePort (s.pkg p).num (x.dkey % 256))).tubq,
        y.body = .tub k x.elems ∧ y.slots = 1 + (x.elems.length + 3) / 4 ∧ y.dkey = x.dkey) ∧
    (s.partner p (routePort (s.pkg p).num (x.dkey % 256)) = none → ∀ e ∈ x.elems, noted p e 7 s t)) ∧
  (4096 ≤ x.dkey → ∀ e ∈ x.elems, e.done = false →
    if e.kind ≠ .store ∧ e.aop ∈ [AOp.fadd, .fmin, .fmax, .bfadd2] then noted p e 4 s t
    else ∃ o ∈ t.outbound, o.pkg = p ∧ o.kind = 12 ∧ o.a = x.dkey ∧ o.b = e.pa ∧ o.cyc = s.wtc)

/-- The tubs of a package that satisfy a test close where they are OPEN; the others stay as they are. -/
def closedWhere (p : Nat) (f : Tub → Bool) (s t : State) : Prop :=
  ∀ k ∈ List.range (min 64 (s.pkg p).tubs.length),
    if (s.tubAt p k).st = 1 ∧ f (s.tubAt p k) = true then closed p k s t else t.tubAt p k = s.tubAt p k

/-- TUB_OFFER (R171 to R174), for the one 32-bit store lane that reaches the interface while nothing waits there: a new element
in the OPEN tub of its destination; else in the FREE tub of lowest number, which opens and will be looked at as it ages; else
the OPEN tub with the oldest element closes, and the element waits. -/
def offerRule (i : Nat) (s t : State) : Prop :=
  ∀ f ∈ s.flight? i, f.kind = .store → f.n = 4 → f.zero = false → (s.pkg f.pkg).waiting = [] →
    f.pkg < s.pkgs.length →
    ∀ q ∈ f.lanes.head?, (f.lanes.filter fun q => q.st = .moving && q.due = s.wtc) = [q] → q.home < 2 ^ 56 → q.va % 4 = 0 →
      q.home % 4 = 0 →
      let p := f.pkg
      let key := q.home / 2 ^ 48
      let new (e : Elem) : Bool := e.pa = q.home % 2 ^ 48 && e.va = q.va && e.data = BitVec.ofNat 32 q.data && e.be = 15 &&
        e.kind = .store && e.team = f.team && e.lane = q.lane && e.seq = f.seq && e.dkey = key
      let open_ := (s.pkg p).tubs.findIdx? fun x => x.st = 1 && x.dkey = key
      (∀ k ∈ open_, ((s.tubAt p k).elems.all fun e => e.pa ≠ q.home % 2 ^ 48 || e.team ≠ f.team) = true →
        ((s.tubAt p k).elems.filter fun e => e.kind ≠ .store || e.be ≠ 0).length < 31 →
        (t.tubAt p k).st = 1 ∧ (t.tubAt p k).elems.length = (s.tubAt p k).elems.length + 1 ∧
          ∃ e ∈ (t.tubAt p k).elems.getLast?, new e = true ∧ e.ins = s.wtc) ∧
      (open_ = none → ∀ k ∈ (s.pkg p).tubs.findIdx? (·.st = 0),
        (t.tubAt p k).st = 1 ∧ (t.tubAt p k).dkey = key ∧ (t.tubAt p k).elems.length = 1 ∧
          (∃ e ∈ (t.tubAt p k).elems, new e = true ∧ e.ins = s.wtc) ∧
          t.planned (s.wtc + (s.pkg p).tubage.toNat) (.ageTrigger p k)) ∧
      (open_ = none → ((s.pkg p).tubs.all (·.st ≠ 0)) = true →
        let waits : Prop := (t.pkg p).waiting.length = 1 ∧ ∃ e ∈ (t.pkg p).waiting, new e = true
        ((s.pkg p).victim = none → waits) ∧
        ∀ k ∈ (s.pkg p).victim, (s.tubAt p k).dkey < 4096 →
          let o := s.partner p (routePort (s.pkg p).num ((s.tubAt p k).dkey % 256))
          (∀ _q ∈ o, waits ∧ closed p k s t) ∧
          (o = none → (t.pkg p).waiting = [] ∧ (t.tubAt p k).st = 1 ∧ (t.tubAt p k).dkey = key ∧
            ∃ e ∈ (t.tubAt p k).elems, new e = true ∧ e.ins = s.wtc))

/-- TUB_OFFER (R173), for one lane of a store up to 32 bits or of an atomic that finds an OPEN tub of its destination: the
youngest element of its word and team there takes the bytes of a store, or the combined operand of a non-fetching atomic; where
it may take neither, the lane's own element is appended. -/
def meetRule (i : Nat) (s t : State) : Prop :=
  ∀ f ∈ s.flight? i, f.kind ≠ .load → f.zero = false → f.n ∈ [1, 2, 4] → (s.pkg f.pkg).waiting = [] → f.pkg < s.pkgs.length →
    ∀ q ∈ f.lanes, (f.lanes.filter fun q => q.st = .moving && q.due = s.wtc) = [q] → q.home < 2 ^ 56 →
    ∀ k ∈ (s.pkg f.pkg).tubs.findIdx? fun x => x.st = 1 && x.dkey = q.home / 2 ^ 48,
      let old := (s.tubAt f.pkg k).elems
      let new := (t.tubAt f.pkg k).elems
      let word := q.home % 2 ^ 48 / 4 * 4
      let same (e : Elem) : Bool := e.pa = word && e.team = f.team
      let be := (2 ^ f.n - 1) * 2 ^ (q.va % 4) % 16
      let merges (y : Elem) : Prop := f.kind = .store ∧ y.kind = .store ∧ y.be ≠ 0
      let combines (y : Elem) : Prop :=
        f.kind = .atomN ∧ y.kind = .atomN ∧ y.aop = f.aop ∧ f.aop ∉ [AOp.cas, .fadd, .bfadd2]
      (old.filter fun e => e.kind ≠ .store || e.be ≠ 0).length < 31 →
        (∀ y ∈ (old.filter same).getLast?, merges y ∨ combines y →
          new.length = old.length ∧ new.filter (!same ·) = old.filter (!same ·) ∧
          ∃ z ∈ (new.filter same).getLast?, z.mrg = y.mrg + 1 ∧ z.lane = min y.lane q.lane ∧ z.ins = y.ins ∧
            (merges y → z.be = y.be ||| be ∧ ∀ b ∈ List.range 4, z.data.extractLsb' (8 * b) 8 =
              if be / 2 ^ b % 2 = 1 then (BitVec.ofNat 32 (q.data * 2 ^ (8 * (q.va % 4)))).extractLsb' (8 * b) 8
              else y.data.extractLsb' (8 * b) 8) ∧
            (combines y → z.be = y.be ∧ z.data = atomicStep f.aop y.data (BitVec.ofNat 32 q.data) 0)) ∧
        ((∀ y ∈ (old.filter same).getLast?, ¬ merges y ∧ ¬ combines y) →
          new.dropLast = old ∧ ∃ e ∈ new.getLast?, same e = true ∧ e.kind = f.kind ∧ e.mrg = 0 ∧ e.lane = q.lane)

/-- TUB_OFFER (R177), for a pass of an atomic whose lanes name one word, where the destination has no OPEN tub and a tub is FREE: the
lanes are reduced in lane order to one element, which keeps what each contributed; lanes of `cas`, `fadd` and `bfadd2` go as
elements of their own, in lane order. -/
def reduceRule (i : Nat) (s t : State) : Prop :=
  ∀ f ∈ s.flight? i, f.kind = .atomF ∨ f.kind = .atomN → (s.pkg f.pkg).waiting = [] → f.pkg < s.pkgs.length →
    let l := f.lanes.filter fun q => q.st = .moving && q.due = s.wtc
    ∀ q qs, l = q :: qs → q.home < 2 ^ 56 → (∀ r ∈ qs, r.home = q.home) → l.length < 32 →
      ((s.pkg f.pkg).tubs.all fun x => x.st ≠ 1 || x.dkey ≠ q.home / 2 ^ 48) = true →
      ∀ k ∈ (s.pkg f.pkg).tubs.findIdx? (·.st = 0),
        (f.aop ∈ [AOp.cas, .fadd, .bfadd2] → (t.tubAt f.pkg k).elems.map (fun e => (e.lane, e.data)) =
          l.map fun r => (r.lane, BitVec.ofNat 32 r.data)) ∧
        (f.aop ∉ [AOp.cas, .fadd, .bfadd2] → ∃ e, (t.tubAt f.pkg k).elems = [e] ∧ e.kind = f.kind ∧ e.lane = q.lane ∧
          e.data = qs.foldl (fun m r => atomicStep f.aop m (BitVec.ofNat 32 r.data) 0) (BitVec.ofNat 32 q.data) ∧
          e.parts.map (fun c => (c.flight, c.lane, c.x)) = l.map fun r => (f.id, r.lane, BitVec.ofNat 32 r.data))

/-- TUB_FREE_INSERTION (R174): one waiting element without an OPEN tub of its destination opens the FREE tub of lowest number. -/
def insertRule (p : Nat) (s t : State) : Prop :=
  ((s.pkg p).tubs.all fun x => x.dkey < 4096) = true →
  ∀ e ∈ (s.pkg p).waiting.head?, (s.pkg p).waiting.length = 1 → e.drain = false →
    ((s.pkg p).tubs.all fun x => x.st ≠ 1 || x.dkey ≠ e.dkey) = true →
    ∀ k ∈ (s.pkg p).tubs.findIdx? (·.st = 0),
      (t.pkg p).waiting = [] ∧ t.tubAt p k = ⟨1, e.dkey, [{ e with ins := s.wtc }]⟩

/-- AGE_TRIGGER (R174): an OPEN tub whose oldest element has been in it for TUBAGE cycles closes. -/
def ageRule (p n : Nat) (s t : State) : Prop :=
  ∀ e ∈ (s.tubAt p n).elems.head?,
    if (s.tubAt p n).st = 1 ∧ e.ins + (s.pkg p).tubage.toNat ≤ s.wtc then closed p n s t else t = s

/-- TFLUSH_EFFECT (R207): the OPEN tub of the key closes, or every OPEN tub with an element of the team. -/
def flushRule (p m : Nat) (key : Word) (s t : State) : Prop :=
  (key.toNat < 2 ^ 13 → closedWhere p (fun x => x.dkey = key.toNat) s t) ∧
  (key.toNat = 2 ^ 31 → closedWhere p (fun x => x.elems.any (·.team = m)) s t)

/-- POD_FENCE_DRAIN (R186): every OPEN tub with an element of the team closes, and the team's waiting elements will close the
tubs they enter. -/
def drainRule (m : Nat) (s t : State) : Prop :=
  ∀ x ∈ s.team? m, closedWhere x.pl.pkg (fun y => y.elems.any (·.team = m)) s t ∧
    ∀ e ∈ (t.pkg x.pl.pkg).waiting, e.team = m → e.drain = true

/-- TUB_TIMEOUT (R181): the packet is given up, and each of its elements without an answer is noted with TMO. -/
def tmoRule (p i : Nat) (s t : State) : Prop :=
  ∀ x ∈ (s.pkg p).out.find? (·.id = i),
    (∀ y ∈ (t.pkg p).out, y.id ≠ i) ∧ ∀ e ∈ x.body.elems, e.done = false → noted p e 6 s t

/-- The access of a remote package passes an accept window of a package (R179). -/
def State.windowed (s : State) (p pa n : Nat) (k : MemKind) : Bool :=
  (s.pkg p).windows.any fun w => w.v && w.base ≤ pa && pa + n ≤ w.limit &&
    (match k with | .load => w.rd | .store => w.wr | _ => w.at_)

/-- The fault of a remote access before it is performed (R179, R180): 1 WIN, 2 NXA, 0 none. -/
def State.remoteFault (s : State) (p pa n : Nat) (k : MemKind) : Nat :=
  if s.windowed p pa n k then (match homeOf pa with | .hbm | .ls _ _ => 0 | _ => 2) else 1

/-- The access goes to device memory 200 cycles on, or is performed at its LS 40 cycles on (R176, R344). -/
def travels (p pa : Nat) (i : Instr) (op : SegOp) (fault : Nat) (s t : State) : Prop :=
  if homeOf pa = .hbm then
    (if fault = 0 then ∃ g ∈ t.gathers, t.planned (s.wtc + 200) (.gatherPacketArrival g.id) ∧ g.pkg = p ∧
        ∃ z ∈ g.segs, z.1 = pa ∧ z.2.op = op
      else t.planned (s.wtc + 200) i)
  else t.planned (s.wtc + 40) i

/-- ELEMENT_ISSUE (R176, R179): the element is checked and sent to its home. -/
def issueRule (p i j : Nat) (s t : State) : Prop :=
  ∀ x ∈ s.inn? p i, ∀ e ∈ x.body.elems[j]?,
    travels p e.pa (.elementPerformed p i j) (.elem i j) (s.remoteFault p e.pa 4 e.kind) s t ∧
    (s.remoteFault p e.pa 4 e.kind ≠ 0 →
      ∀ y ∈ t.inn? p i, ∀ d ∈ y.body.elems[j]?, d.fault = s.remoteFault p e.pa 4 e.kind)

/-- ELEMENT_PERFORMED (R176, R180): an element without a fault writes its enabled bytes, or replaces the word at its home by
the atomic's result and keeps the old one; a faulted one changes no memory. The packet is acknowledged once all its elements
are performed. -/
def performedRule (p i j : Nat) (s t : State) : Prop :=
  ∀ x ∈ s.inn? p i, ∀ e ∈ x.body.elems[j]?,
    (∀ y ∈ t.inn? p i, ∀ d ∈ y.body.elems[j]?, d.done = true) ∧
    (e.fault ≠ 0 → t.mem = s.mem) ∧
    (e.fault = 0 → s.noObject p e.pa 4 = true →
      (e.kind = .store → ∀ b ∈ List.range 4, some (memByte t.mem (s.pod p (e.pa + b))) =
        if e.be / 2 ^ b % 2 = 1 then (natBytes 4 e.data.toNat)[b]? else some (memByte s.mem (s.pod p (e.pa + b)))) ∧
      (e.kind ≠ .store → s.uceAt p e.pa 4 = false →
        t.rd p e.pa 4 = (atomicStep e.aop (BitVec.ofNat 32 (s.rd p e.pa 4)) e.data e.cmp).toNat ∧
        ∀ y ∈ t.inn? p i, ∀ d ∈ y.body.elems[j]?, d.old = BitVec.ofNat 32 (s.rd p e.pa 4) ∧ d.fault = 0) ∧
      (e.kind ≠ .store → s.uceAt p e.pa 4 = true → t.mem = s.mem ∧
        ∀ y ∈ t.inn? p i, ∀ d ∈ y.body.elems[j]?, d.fault = 3)) ∧
    ((x.body.elems.eraseIdx j).all (·.done) = true → t.due.head? = some (.op (.acknowledgementSend p i)))

/-- ACKNOWLEDGEMENT_SEND (R176): the packet is done with here, and its acknowledgement, one slot and one for 16 old values,
waits at the port toward its source. -/
def ackRule (p i : Nat) (s t : State) : Prop :=
  ∀ x ∈ s.inn? p i, (∀ y ∈ (t.pkg p).inn, y.id ≠ i) ∧
    ∀ _q ∈ s.partner p (routePort (s.pkg p).num x.src),
      ∃ y ∈ (t.port p (routePort (s.pkg p).num x.src)).hdrq, y.body = .ack i x.elems ∧ y.dst = x.src ∧
        y.slots = 1 + ((x.elems.filter (·.kind = .atomF)).length + 15) / 16

/-- The elements an acknowledgement answers, with the packet it is for. -/
def PBody.answers : PBody → Option (Nat × List Elem)
  | .ack k es => some (k, es)
  | _ => none

/-- ACKNOWLEDGEMENT_ARRIVAL (R176, R177, R180, R181): one for a packet still waited for settles it: each faulted element is noted,
old values land 40 cycles on, each contributor's made from the element's, and a store lane is done. A late one changes nothing. -/
def arrivalRule (p i : Nat) (s t : State) : Prop :=
  ∀ x ∈ s.packet? i, ∀ z ∈ x.body.answers,
    if ((s.pkg p).out.any fun y => y.id = z.1) = true then
      (∀ y ∈ (t.pkg p).out, y.id ≠ z.1) ∧ (∀ y ∈ t.packets, y.id ≠ i) ∧
      (∀ e ∈ z.2, e.fault ≠ 0 → e.fault < 16 → noted p e e.fault s t) ∧
      (z.2.any (·.kind ≠ .store) = true → p < s.pkgs.length → ∃ y ∈ (t.pkg p).acked, y.body = .ack 0 z.2 ∧
        t.planned (s.wtc + 40) (.remoteOldValueWritten p y.id)) ∧
      (∀ e, z.2 = [e] → e.kind ≠ .store → e.fault = 0 → (e.parts.map fun c => (c.flight, c.lane)).Nodup →
        ∀ pre c post, e.parts = pre ++ c :: post → ∀ f ∈ t.flight? c.flight, ∀ q ∈ f.lanes, q.lane = c.lane →
          q.st = .performed ∧ q.got = (pre.foldl (fun m d => atomicStep e.aop m d.x 0) e.old).toNat) ∧
      ∀ e ∈ z.2, e.kind = .store → z.2.length = 1 → ∀ c ∈ e.parts, e.parts.length = 1 →
        ∀ f ∈ t.flight? c.flight, ∀ q ∈ f.lanes, q.lane = c.lane →
          ∀ g ∈ s.flight? c.flight, (g.lanes.all fun r => r.lane ≠ c.lane || r.cmp ≤ 1) = true → q.st = .done
    else t = { s with packets := s.packets.filter (·.id ≠ i) }

/-- REMOTE_OLD_VALUE_WRITTEN (R176): the old value an atomic's lane fetched is in its register. -/
def oldRule (p i : Nat) (s t : State) : Prop :=
  ∀ x ∈ (s.pkg p).acked.find? (·.id = i), (∀ y ∈ (t.pkg p).acked, y.id ≠ i) ∧
    ∀ z ∈ x.body.answers, ∀ e ∈ z.2, z.2.length = 1 → e.kind ≠ .store → ∀ c ∈ e.parts, e.parts.length = 1 →
      ∀ f ∈ s.flight? c.flight, f.kind = .atomF → s.killedGang f.gang = false → ∀ m ∈ s.team? f.team,
        (f.lanes.map (·.lane)).Nodup → ∀ q ∈ f.lanes, q.lane = c.lane → q.st = .performed → q.due = s.wtc →
          s.imageAddr m f.d q.lane = none → f.d < m.vr.length → q.lane < (m.vr.getD f.d []).length → q.got < 2 ^ 128 →
            t.vreg? m.id f.d q.lane = some (BitVec.ofNat 32 q.got)

/-! ### Remote loads -/

/-- REMOTE_LOAD_REQUEST (R187): the OPEN tub of the destination closes, and one request for the lanes to it goes out, to be
given up RTIMEOUT after the commit. -/
def requestRule (i : Nat) (s t : State) : Prop :=
  ∀ f ∈ s.flight? i, f.pkg < s.pkgs.length → ∀ q ∈ f.lanes, q.st = .moving → q.due = s.wtc → q.home < 2 ^ 56 →
    let p := f.pkg
    let key := q.home / 2 ^ 48
    (∀ k ∈ List.range (min 64 (s.pkg p).tubs.length), (s.tubAt p k).st = 1 → (s.tubAt p k).dkey = key → (t.tubAt p k).st ≠ 1) ∧
    ∀ _o ∈ s.partner p (routePort (s.pkg p).num (key % 256)), ∃ y ∈ (t.pkg p).out, y.dkey = key ∧ y.loadSize = f.n ∧
      (∃ r ∈ y.body.accesses, r.lane = q.lane ∧ r.pa = q.home % 2 ^ 48) ∧
      t.planned (s.wtc - 40 + (s.pkg p).rtimeout.toNat) (.remoteLoadTimeout p y.id)

/-- REMOTE_LOAD_ACCESS (R187): a lane access is checked and sent to its home; there it reads its
bytes, and behind the last one the reply is ready. -/
def accessRule (p i j : Nat) (s t : State) : Prop :=
  ∀ x ∈ s.inn? p i, ∀ r ∈ x.body.accesses[j]?,
    let n := x.loadSize
    (r.st = 0 →
      travels p r.pa (.remoteLoadAccess p i j) (.rload i j) (s.remoteFault p r.pa n .load) s t ∧
      ∀ y ∈ t.inn? p i, ∀ d ∈ y.body.accesses[j]?, d.st = 1 ∧ d.fault = s.remoteFault p r.pa n .load) ∧
    (r.st = 1 → ∀ y ∈ t.inn? p i,
      (∀ d ∈ y.body.accesses[j]?, d.st = 2 ∧
        (r.fault = 0 → d.fault = (if s.uceAt p r.pa n then 3 else 0) ∧ (d.fault = 0 → d.got = s.rd p r.pa n))) ∧
      ((x.body.accesses.eraseIdx j).all (·.st = 2) = true →
        t.planned (max x.entered (s.wtc + if homeOf r.pa = .hbm then 320 else 20)) (.remoteLoadReply p i)))

/-- REMOTE_LOAD_REPLY (R187): the reply, one slot and one for 64 bytes, waits at the port toward the requester. -/
def replyRule (p i : Nat) (s t : State) : Prop :=
  ∀ x ∈ s.inn? p i, (∀ y ∈ (t.pkg p).inn, y.id ≠ i) ∧
    ∀ _q ∈ s.partner p (routePort (s.pkg p).num x.src),
      ∃ y ∈ (t.port p (routePort (s.pkg p).num x.src)).hdrq, y.rlanes = x.rlanes ∧ y.dst = x.src ∧ y.dkey = x.id ∧
        y.slots = 1 + (x.rlanes.length * (if x.loadSize = 8 then 8 else 4) + 63) / 64

/-- REMOTE_LOAD_REPLY_ARRIVAL (R187): the lanes of the reply to a request still waited for are written 40 cycles on. -/
def replyArrivalRule (p i : Nat) (s t : State) : Prop :=
  ∀ x ∈ s.packet? i,
    if ((s.pkg p).out.any fun y => y.id = x.dkey) = true then
      (∀ y ∈ (t.pkg p).out, y.id ≠ x.dkey) ∧
      ∀ f ∈ s.flights, (s.flights.map (·.id)).Nodup → (f.lanes.map (·.lane)).Nodup → (x.rlanes.map (·.lane)).Nodup →
        x.body = .loadReply f.id f.n x.rlanes → ∀ r ∈ x.rlanes,
        t.lands f.id r.lane (s.wtc + 40) ∧
        (r.fault = 0 → ∀ g ∈ t.flight? f.id, ∀ q ∈ g.lanes, q.lane = r.lane → q.st = .performed ∧ q.got = r.got)
    else t = { s with packets := s.packets.filter (·.id ≠ i) }

/-- REMOTE_LOAD_TIMEOUT (R187): RSTAT.TO is set, and the lanes without an answer receive all ones now. -/
def loadTimeoutRule (p i : Nat) (s t : State) : Prop :=
  ∀ x ∈ (s.pkg p).out.find? (·.id = i), (∀ y ∈ (t.pkg p).out, y.id ≠ i) ∧
    ∀ f ∈ s.flights, (s.flights.map (·.id)).Nodup → (f.lanes.map (·.lane)).Nodup →
      x.body.accesses ≠ [] → x.body = .loadReq f.id f.n (x.after) x.body.accesses →
        (∀ m ∈ t.team? f.team, m.csr.rstat.getLsbD 0 = true) ∧
        ∀ r ∈ x.body.accesses, r.st ≠ 2 → t.lands f.id r.lane s.wtc ∧
          ∀ g ∈ t.flight? f.id, ∀ q ∈ g.lanes, q.lane = r.lane → q.st = .performed ∧ q.got = 2 ^ 128

/-- UALINK_COMPLETION (R188): the peer's answer to an element or a lane access is kept until all have come, and the tub of the
elements is FREE with the last; an element in error is noted with RERR. -/
def completionRule (p i j : Nat) (err : Bool) (old : Nat) (s t : State) : Prop :=
  ∀ x ∈ (s.pkg p).out.find? (·.id = i), 4096 ≤ x.dkey →
    (∀ e ∈ x.body.elems[j]?, e.done = false →
      (err = true → noted p e 5 s t) ∧
      if (x.body.elems.eraseIdx j).all (·.done) = true then (∀ y ∈ (t.pkg p).out, y.id ≠ i) ∧
        ∀ k, x.body = .tub k x.body.elems → (t.tubAt p k).st = 0
      else ∃ y ∈ (t.pkg p).out, y.id = i ∧ ∃ d ∈ y.body.elems[j]?,
        d = { e with done := true, old := BitVec.ofNat 32 old, fault := if err then 5 else 0 }) ∧
    (∀ r ∈ x.body.accesses[j]?, r.st ≠ 2 →
      if (x.body.accesses.eraseIdx j).all (·.st = 2) = true then ∀ y ∈ (t.pkg p).out, y.id ≠ i
      else ∃ y ∈ (t.pkg p).out, y.id = i ∧ ∃ d ∈ y.body.accesses[j]?,
        d = { r with st := 2, got := old, fault := if err then 5 else 0 })

end Sys2Proof.Machine

/-- R171 to R177, R179 to R182, R186, R188, R189, R207: the steps of remote stores and atomics.
Ties of triggers are entry 45. -/
def Obligations.RemoteElementSteps : Prop :=
  ∀ (s : State) (p i j m : Nat) (key : Word),
    Gives (.tubOffer i) s (offerRule i) ∧ Gives (.tubOffer i) s (meetRule i) ∧ Gives (.tubOffer i) s (reduceRule i) ∧
    Gives (.tubFreeInsertion p) s (insertRule p) ∧
    Gives (.ageTrigger p i) s (ageRule p i) ∧ Gives (.tflushEffect p m key) s (flushRule p m key) ∧
    Gives (.podFenceDrain m) s (drainRule m) ∧ Gives (.tubTimeout p i) s (tmoRule p i) ∧
    Gives (.elementIssue p i j) s (issueRule p i j) ∧ Gives (.elementPerformed p i j) s (performedRule p i j) ∧
    Gives (.acknowledgementSend p i) s (ackRule p i) ∧ Gives (.acknowledgementArrival p i) s (arrivalRule p i) ∧
    Gives (.remoteOldValueWritten p i) s (oldRule p i)

/-- R187, R188: the steps of remote loads, and the answers of UALink peers.
What a timeout leaves is entry 47. -/
def Obligations.RemoteLoadSteps : Prop :=
  ∀ (s : State) (p i j : Nat) (err : Bool) (old : Nat),
    Gives (.remoteLoadRequest i) s (requestRule i) ∧ Gives (.remoteLoadAccess p i j) s (accessRule p i j) ∧
    Gives (.remoteLoadReply p i) s (replyRule p i) ∧ Gives (.remoteLoadReplyArrival p i) s (replyArrivalRule p i) ∧
    Gives (.remoteLoadTimeout p i) s (loadTimeoutRule p i) ∧
    Gives (.ualinkCompletion p i j err old) s (completionRule p i j err old)

namespace Sys2Proof.Machine

/-! ### Traps and kills -/

/-- What a team's clauses compute with: every register, predicate and counter, the CSRs of the team, and its LS and accumulators
are untouched. -/
def sameTeam (m z : Team) : Prop :=
  z.vr = m.vr ∧ z.ur = m.ur ∧ z.pr = m.pr ∧ z.gp = m.gp ∧ z.sb = m.sb ∧ z.csr = m.csr ∧ z.active = m.active ∧
    z.live = m.live ∧ z.stack = m.stack

/-- A trap leaves a level with a valid vector, room for the save area and a vector that names a clause start. -/
def State.levelOpen (s : State) (m : Team) (b : Bank) : Bool :=
  b.vec.getLsbD 31 && b.save.toNat + 512 ≤ m.pl.lsBytes && (s.gangStarts m.pl.gang).contains (b.vec.toNat % 65536)

/-- The cycle e of R310 for an event entered in this cycle. -/
def State.trapCycle (s : State) (m : Team) (ev : TeamEvent) : Nat := max (max m.ePrev (ev.x - 1)) (s.wtc - 1)

/-- The faults that a team goes on holding, and that have no record yet. -/
def unrecorded (l : List TeamEvent) : List TeamEvent := l.filter fun e => e.order = 4 && !e.recorded

/-- R312, R326: the records of faults that a team m holds, each with level 0 and stamped with the cycle of its report. -/
def heldRecords (m : Team) (l : List TeamEvent) (rs : List Record) : Prop :=
  rs.length = l.length ∧ ∀ p ∈ rs.zip l, p.1.core = m.pl.core ∧ p.1.slot = m.pl.slot ∧ p.1.imp = true ∧ p.1.level = 0 ∧
    p.1.wtc = p.2.x ∧ p.1.cause = p.2.cause ∧ p.1.tval = p.2.tval ∧ p.1.tvalh = p.2.tvalh ∧
    p.1.tepc = BitVec.ofNat 32 p.2.epc ∧ p.1.tpass = BitVec.ofNat 32 p.2.pass

/-- The events of a team behind the one it takes: the faults it goes on holding count as recorded. -/
def keptEvents (l : List TeamEvent) : List TeamEvent :=
  l.map fun e => if e.order = 4 then { e with recorded := true } else e

/-- The team is in level l for an event with a cause and value: the bank, the vector, the frame and the record of R310, with the
records of the faults it goes on holding. A precise trap keeps the passes of the clause it left for the return (R47). -/
def entered (m : Team) (ev : TeamEvent) (l cause : Nat) (tval tvalh : Word) (imp mult : Bool) (skid : Nat) (tlm : Mask)
    (s t : State) : Prop :=
  let b := m.bank l
  let e := s.trapCycle m ev
  let epc := if ev.order = 1 then ev.epc else m.pc
  let pass := if ev.order = 1 then ev.pass else 0
  (∀ z ∈ t.team? m.id, sameTeam m z ∧ z.tl = l ∧ z.pc = b.vec.toNat % 65536 ∧ z.waits = [] ∧ z.resume = none ∧
    z.readyAt = max m.readyAt (e + 9) ∧ z.events = keptEvents (m.events.erase ev) ∧
    (ev.order = 1 → ∀ f ∈ m.formed, f.level = 0 → { f with level := l } ∈ z.formed) ∧
    z.bank l = ⟨BitVec.ofNat 32 (cause + (if imp then 256 else 0) + if mult then 512 else 0), BitVec.ofNat 32 epc,
      BitVec.ofNat 32 pass, tval, tvalh, BitVec.ofNat 32 skid, b.save, b.vec, tlm⟩ ∧ z.bank (3 - l) = m.bank (3 - l)) ∧
  (∃ y ∈ t.staged, y.team = m.id ∧ y.base = m.pl.lsBase ∧
    y.op = .frame b.save.toNat (natBytes 128 m.active.toNat ++ natBytes 4 m.stack.length) ∧
    t.planned (e + 20) (.stagedStorePerformed y.id)) ∧
  ∃ r rs, t.records = s.records ++ r :: rs ∧ heldRecords m (unrecorded (m.events.erase ev)) rs ∧ r.core = m.pl.core ∧
    r.slot = m.pl.slot ∧ r.imp = imp ∧ r.cause = cause ∧ r.level = l ∧ r.tval = tval ∧ r.tvalh = tvalh ∧ r.tepc = BitVec.ofNat 32 epc ∧
    r.tpass = BitVec.ofNat 32 pass

/-- TRAP_ENTRY (R309, R310): the next event enters the level above the team's where that is open. Where the save area lies
beyond the LS or the vector names no clause start, PRT or ILL 10 takes the level after it. Where no level is left or its
vector is invalid, the gang will be killed in cycle e + 1 with the cause. -/
def entryRule (n : Nat) (s t : State) : Prop :=
  ∀ m ∈ s.team? n, m.pl.core < 256 → ∀ ev ∈ s.nextTrap m (s.wtc + 1),
    let b := m.bank (m.tl + 1)
    let e := s.trapCycle m ev
    (m.tl < 2 → s.levelOpen m b = true → entered m ev (m.tl + 1) ev.cause ev.tval ev.tvalh ev.imp ev.mult
      (if ev.imp then min (m.wordsDone - ev.words) (2 ^ 32 - 1) else 0) ev.tlm s t) ∧
    (m.tl = 0 → b.vec.getLsbD 31 = true → s.levelOpen m m.bank2 = true →
      (m.pl.lsBytes < b.save.toNat + 512 → entered m ev 2 cPRT b.save 0 false false 0 0 s t) ∧
      (b.save.toNat + 512 ≤ m.pl.lsBytes → (s.gangStarts m.pl.gang).contains (b.vec.toNat % 65536) = false →
        entered m ev 2 cILL b.vec 0 false false 0 0 s t)) ∧
    ((m.tl = 2 ∨ (m.tl < 2 ∧ b.vec.getLsbD 31 = false)) →
      (∀ z ∈ t.team? n, z.stopped = true) ∧
      (∃ rs, t.records = s.records ++ rs ∧ heldRecords m (unrecorded (m.events.erase ev)) rs) ∧ t.staged = s.staged ∧
      ∀ g ∈ s.gang? m.pl.gang, g.ended = 0 → g.killAt = none → t.planned (e + 1) (.gangKill g.id 0) ∧
        ∀ h ∈ t.gang? g.id, h.killAt = some (e + 1) ∧ h.killCause = BitVec.ofNat 32 ev.cause)

/-- R312, R313: which of the events that have reached a team it takes next: one of least order, the first of these to come; a fault
only at its own level or above, and SCH not while the team waits for a fence (entry 20: the model's choice). -/
def orderRule (m : Team) (n : Nat) (s : State) : Prop :=
  let open_ := m.events.filter fun e => e.x ≤ n && (e.order ≠ 4 || m.tl ≤ e.level) && !(e.order = 2 && m.fenced)
  (s.betweenClauses m = false → s.nextTrap m n = none) ∧
  (s.betweenClauses m = true → (open_ = [] → s.nextTrap m n = none) ∧
    ∀ pre ev post, open_ = pre ++ ev :: post → (∀ e ∈ pre, ev.order < e.order) → (∀ e ∈ post, ev.order ≤ e.order) →
      s.nextTrap m n = some ev)

/-- GANG_KILL (R322): in the kill cycle no team of the gang runs any more and none of its clauses is in progress, its waiting
cards are gone, and a record with cause TLX and the kill's value stands for each core of the gang. -/
def killRule (g cause : Nat) (s t : State) : Prop :=
  ∀ x ∈ s.gang? g, x.ended = 0 → (∀ k ∈ x.killAt, k = s.wtc) →
    let v := if x.killAt = none then BitVec.ofNat 32 cause else x.killCause
    (∀ z ∈ t.teams, z.pl.gang = g → z.ended = true ∧ z.stopped = true ∧ z.waits = [] ∧ z.events = []) ∧
    (∀ c ∈ s.gangCores g, c.2 < 256 →
      (∃ r ∈ t.records, r.pkg = c.1 ∧ r.core = c.2 ∧ r.wtc = s.wtc ∧ r.cause = cTLX ∧ r.level = 3 ∧ r.ctx = x.ctx ∧
        r.tval = v ∧ r.imp = x.killImp) ∧
      (∀ k ∈ (t.core c.1 c.2).cards, k.gang = g → k.start ≠ none) ∧
      (∀ r ∈ (t.core c.1 c.2).run, ∀ z ∈ t.team? r.team, z.pl.gang ≠ g)) ∧
    ∀ f ∈ t.flights, f.gang = g → ∀ q ∈ f.lanes, q.st ≠ .held

/-- KILL_COMPLETION (R322): once nothing of the killed gang is under way, the gang and its teams are gone and STATUS reads
KILLED. -/
def killedRule (g : Nat) (s t : State) : Prop :=
  ∀ x ∈ s.gang? g,
    if s.killDone x = true then
      (∀ y ∈ t.gangs, y.id ≠ g) ∧ (∀ z ∈ t.teams, z.pl.gang ≠ g) ∧ (∀ a ∈ x.statusPa, t.rd x.pkg a 4 = 3) ∧
        ∃ e ∈ t.notices, e = ⟨x.pkg, 1, x.tag, 3, s.wtc⟩
    else t = s

/-- WATCHDOG_EXPIRY (R323, R333): every team of a running gang gets WDG; a gang that spills will be killed as the spill
completes; one that is OUT or fills is killed now. -/
def watchdogRule (g : Nat) (s t : State) : Prop :=
  ∀ x ∈ s.gang? g, x.wdog = some s.wtc → (∀ y ∈ t.gang? g, y.wdog = none) ∧
    ((x.state = .run ∨ x.state = .shadow) → ∀ m ∈ s.teams, m.pl.gang = g → m.ended = false → m.stopped = false →
      s.team? m.id = some m → ∀ z ∈ t.team? m.id, ∃ e ∈ z.events, e.order = 3 ∧ e.cause = cWDG ∧ e.imp = false) ∧
    (x.state = .spill → ∀ y ∈ t.gang? g, y.wdogHit = true) ∧
    ((x.state = .out ∨ x.state = .fill) → x.ended = 0 → x.killAt = none →
      ∀ y ∈ t.gang? g, y.killAt = some s.wtc ∧ y.killCause = BitVec.ofNat 32 cWDG)

/-- The byte of the frame of a team's level, the team's own staged stores forwarded (R320). -/
def State.frameByte (s : State) (m : Team) (k : Nat) : Byte := s.seenByte m ((m.bank m.tl).save.toNat + k)

/-- The 132 bytes of the frame hold no uncorrectable error. -/
def State.frameGood (s : State) (m : Team) : Prop :=
  s.uceAt m.pl.pkg (lsPa m.pl.core (m.pl.lsBase + (m.bank m.tl).save.toNat)) 132 = false

/-- R320: the trap a `tret` raises at its commit: ILL 14 for a depth beyond the stack, else ILL 10 for a return address that starts
no clause. -/
def State.returnFault (s : State) (m : Team) (acts : List Act) (tr : PTrap) : Prop :=
  let depth := bytesNat ((List.range 4).map fun k => s.frameByte m (128 + k))
  s.frameGood m ∧ ∃ pos, Act.tret pos ∈ acts ∧ (∀ q, Act.tret q ∈ acts → q = pos) ∧
    (m.stack.length < depth ∧ tr = ⟨pos, 0x03, 14, 0, 0⟩ ∨
      depth ≤ m.stack.length ∧ (m.bank m.tl).epc.toNat % 2 ^ 16 ∉ s.gangStarts m.pl.gang ∧ tr = ⟨pos, 0x03, 10, 0, 0⟩)

end Sys2Proof.Machine

/-- R45, R47, R311, R320: a pass with a precise trap commits nothing, and the trap waits with the clause, the pass and the word; so
does one whose `tret` fails the checks made at its commit (entry 38). The exception of a completed card names pass 1 (R231). -/
def Obligations.TrappedPass : Prop :=
  ∀ (s : State) (p c : Nat) (rest : List Due) (r : Run) (x : Cur) (m : Team) (tr : PTrap),
    s.ev = none → s.due = .commit p c :: rest → (s.core p c).run = some r → r.done = some x → s.team? r.team = some m →
    m.pl.pkg = p → m.pl.core = c → (x.trap = some tr ∨ x.trap = none ∧ s.returnFault m x.acts tr) → s.watching m = false → m.ended = false → m.stopped = false →
    (s.core p c).switchHold = 0 →
    ∃ t, step s = .next t ∧ t.mem = s.mem ∧ t.acc = s.acc ∧ t.flights = s.flights ∧ t.staged = s.staged ∧
      (t.core p c).run = none ∧ (t.core p c).queues = (s.core p c).queues ∧
      ∃ z, t.team? m.id = some z ∧ sameTeam m z ∧ z.pc = r.hdr ∧ z.tl = m.tl ∧ z.waits = m.waits ∧
        ∃ e ∈ z.events, e.order = 1 ∧ e.imp = false ∧ e.cause = tr.cause ∧ e.tval = tr.tval ∧ e.tvalh = tr.tvalh ∧
          e.tlm = tr.tlm ∧ e.epc = r.hdr ∧
          e.pass = (if tr.cause = 0x07 ∧ tr.tlm = 0 then 1 else r.pass) + 256 * tr.pos ∧
          (1 < r.pass → ⟨0, r.hdr, r.formed, r.ref⟩ ∈ z.formed)

/-- R309, R310, R312, R313, R322, R323, R333: which event a team takes, taking a trap, and the end of a gang that is killed.
What the rules leave open is entries 16, 18, 24 and 27, and that SCH waits while the team waits in a fence entry 20: the model's
choices. -/
def Obligations.TrapSteps : Prop :=
  ∀ (s : State) (n cause : Nat),
    Gives (.trapEntry n) s (entryRule n) ∧ Gives (.gangKill n cause) s (killRule n cause) ∧
    Gives (.killCompletion n) s (killedRule n) ∧ Gives (.watchdogExpiry n) s (watchdogRule n) ∧
    ∀ m ∈ s.teams, ∀ x, orderRule m x s

/-- R320, R47: what a return leaves to re-run at the clause of TEPC: the passes from the one TPASS names, as they were formed when
the clause started, where that clause left passes behind and the team goes on there; else nothing. -/
def resumption (m z : Team) : Prop :=
  let back := m.formed.find? fun f => f.level = m.tl && f.hdr = (m.bank m.tl).epc.toNat % 65536
  let k := (m.bank m.tl).pass.toNat % 64
  (∀ y ∈ back, k ≠ 0 → z.pc = y.hdr → z.resume = some (k, y)) ∧
  (back = none ∨ k = 0 ∨ z.pc ≠ (m.bank m.tl).epc.toNat % 65536 → z.resume = none)

/-- R47: a clause that a return re-runs has the passes from number k on, with all that had been formed; any other has all its own
from the first. -/
def rerun (s : State) (z : Team) (n : Nat) : Prop :=
  let r := s.runOf z n
  (∀ k y, z.resume = some (k, y) → y.hdr = z.pc →
    r.passes = y.passes.drop (k - 1) ∧ r.pass = k ∧ r.formed = y.passes ∧ r.ref = y.ref) ∧
  (z.resume = none → r.pass = 1 ∧ r.passes = r.formed ∧ r.ref = [])

/-- R47, R72, R149, R320: the commit of `tret` leaves the level for the one below, with the mask and the stack depth of its frame, at
the clause TEPC names; where the mask leaves no lane active, with what the stack then resumes. The clause is re-run from the pass of
TPASS where its passes are kept. A frame with an uncorrectable error is entry 97: the model's choice. -/
def Obligations.TrapReturn : Prop :=
  ∀ (s : State) (m : Team) (c : Cur) (r : Run) (last : Bool) (pos : Nat), s.team? m.id = some m → s.frameGood m →
    let mask : Mask := BitVec.ofNat 1024 (bytesNat ((List.range 128).map (s.frameByte m)))
    let depth := bytesNat ((List.range 4).map fun k => s.frameByte m (128 + k))
    let f : FlowSt :=
      { pc := (m.bank m.tl).epc.toNat % 65536, active := mask &&& m.live, live := m.live
        stack := m.stack.drop (m.stack.length - depth) }
    let t := s.applyAct m c r last (.tret pos)
    t.mem = s.mem ∧ ∃ z g, t.team? m.id = some z ∧ (f.active ≠ 0 → g = f) ∧ (f.active = 0 → resumesTo f g) ∧
      z.tl = m.tl - 1 ∧ z.active = g.active ∧ z.live = g.live ∧ z.pc = g.pc ∧ z.stack = g.stack ∧ z.vr = m.vr ∧
      z.ur = m.ur ∧ z.pr = m.pr ∧ z.gp = m.gp ∧ z.csr = m.csr ∧ z.bank1 = m.bank1 ∧ z.bank2 = m.bank2 ∧
      resumption m z ∧ ∀ n, rerun t z n

namespace Sys2Proof.Machine

/-! ### Links -/

/-- The first packet of a queue that entered before this cycle. -/
def State.readyHead (s : State) (l : List Packet) : Option Packet := l.head?.filter (·.entered < s.wtc)

/-- The packet has left port n of a package whole, and arrives LINKDLY, and what a replay made it late, later (R279, R281). -/
def left (p n : Nat) (x : Packet) (s t : State) : Prop :=
  ∀ q ∈ s.partner p n, (∃ y ∈ t.packets, y.id = x.id ∧ y.body = x.body) ∧
    t.planned (s.wtc + (s.port p n).delay + (s.port p n).lateBy s.wtc)
      (if (s.pkg q).num = x.dst then arrivalEvent q x else .intermediateForward q x.id)

/-- One slot of the head of a queue has left: the packet is gone with its last, else one slot further. -/
def slotted (x : Packet) (before after : List Packet) : Prop :=
  after = if x.sent + 1 = x.slots then before.tail else { x with sent := x.sent + 1 } :: before.tail

/-- The tub a packet carries. -/
def PBody.tub? : PBody → Option Nat
  | .tub k _ => some k
  | _ => none

/-- ELASTIC_SLOT_SEND (R175, R302): a halt before all else; of the two queues the one that waits, in turn where both do; a
tub packet's last slot sets its tub FREE and starts its timeout. -/
def slotRule (p n : Nat) (s t : State) : Prop :=
  let q := s.port p n
  let z := t.port p n
  let h := s.readyHead q.halts
  let a := s.readyHead q.tubq
  let b := s.readyHead q.hdrq
  let tub := a.isSome && (b.isNone || !q.tubLast)
  (∀ x ∈ h, z.halts = q.halts.tail ∧ z.tubq = q.tubq ∧ z.hdrq = q.hdrq ∧ left p n x s t) ∧
  (h = none → tub = true → ∀ x ∈ a, z.halts = q.halts ∧ slotted x q.tubq z.tubq ∧ z.hdrq = q.hdrq ∧ z.tubLast = true ∧
    (x.sent + 1 = x.slots → left p n x s t ∧
      (∀ k ∈ x.body.tub?, (t.tubAt p k).st = 0) ∧
      (x.body.elems ≠ [] → t.planned (s.wtc + (s.pkg p).rtimeout.toNat) (.tubTimeout p x.id)))) ∧
  (h = none → tub = false → ∀ x ∈ b, z.halts = q.halts ∧ z.tubq = q.tubq ∧ slotted x q.hdrq z.hdrq ∧ z.tubLast = false ∧
    (x.sent + 1 = x.slots → left p n x s t))

/-- INTERMEDIATE_FORWARD (R175): the packet leaves through the onward port 24 cycles later; without a partner there, it is
discarded in the cycle after its arrival. -/
def forwardRule (p i : Nat) (s t : State) : Prop :=
  ∀ x ∈ s.packet? i,
    let k := routePort (s.pkg p).num x.dst
    (∀ q ∈ s.partner p k, t.packets = s.packets.map (fun y => if y.id = i then { y with last := s.wtc + 24, via := 32 * p + k } else y) ∧
      t.planned (s.wtc + 24 + (s.port p k).delay + (s.port p k).lateBy (s.wtc + 24))
        (if (s.pkg q).num = x.dst then arrivalEvent q x else .intermediateForward q x.id)) ∧
    (s.partner p k = none → x.taken = 0 → s.wtc ≠ 0 → t.planned (s.wtc + 1) (.intermediateForward p i)) ∧
    (s.partner p k = none → x.taken ≠ 0 → x.taken ≠ s.wtc → ∀ y ∈ t.packets, y.id ≠ i)

/-- The cycles in which accesses at the addresses `ps` issue after cycle b (R176): one after the other, and none before an access of
`old`, an earlier one of their source and key, to its own home; as soon as that. -/
def issuesFrom (s : State) (p b : Nat) (ps : List Nat) (old : List (Nat × Nat)) (l : List Nat) : Prop :=
  l.length = ps.length ∧ ∀ j a c, ps[j]? = some a → l[j]? = some c →
    b + 1 + j ≤ c ∧ (∀ o ∈ old, s.oneHome p a o.1 = true → o.2 ≤ c) ∧
      (c = b + 1 + j ∨ ∃ o ∈ old, s.oneHome p a o.1 = true ∧ c = o.2)

/-- PACKET_TAKEN_IN (R176, R187, R214, R306): the accesses of a packet issue from the cycle after on, those of one source and key in
their order at every home; a load request waits for the tub packet sent before it, and follows the elements of every tub packet of
its source and destination; a time stamp is sent back, or has come back. That an access waits for those before it at its own home
alone is entry 33, and that a returned stamp measures a difference of 0 entry 77: the model's choices. -/
def takenRule (p i : Nat) (s t : State) : Prop :=
  ∀ x ∈ s.packet? i, p < s.pkgs.length →
    let before := (s.pkg p).inn.filter fun y => y.src = x.src && y.dkey = x.dkey && y.taken ≠ 0 && y.id ≠ i
    let old := before.flatMap fun y => y.places.zip y.issues
    let kept (l : List Nat) : Prop := i ≠ 0 → s.wtc ≠ 0 → (∀ y ∈ (s.pkg p).inn, y.id ≠ i) →
      ∃ y ∈ (t.pkg p).inn, y.id = i ∧ y.body = x.body ∧ y.issues = l ∧ y.taken = s.wtc
    (x.body.elems ≠ [] ∨ x.body.accesses ≠ [] → ∃ y ∈ (t.pkg p).inn, y.id = i ∧ y.body = x.body) ∧
    (x.body.elems ≠ [] → ∃ l, issuesFrom s p s.wtc (x.body.elems.map (·.pa)) old l ∧ kept l ∧
      ∀ j c, l[j]? = some c → t.planned c (.elementIssue p i j)) ∧
    (x.body.accesses ≠ [] → x.after = 0 →
      ∃ b l, s.wtc ≤ b ∧ (∀ y ∈ before, y.isTub = true → ∀ c ∈ y.issues, c ≤ b) ∧
        (b = s.wtc ∨ ∃ y ∈ before, y.isTub = true ∧ b ∈ y.issues) ∧ issuesFrom s p b (x.body.accesses.map (·.pa)) old l ∧ kept l ∧
        ∀ j c, l[j]? = some c → t.planned c (.remoteLoadAccess p i j)) ∧
    (x.body = .stamp false → ∀ _q ∈ s.partner p (routePort (s.pkg p).num x.src),
      ∃ y ∈ (t.port p (routePort (s.pkg p).num x.src)).hdrq, y.body = .stamp true ∧ y.dst = x.src) ∧
    (x.body = .stamp true → t.due.head? = some (.op (.timestampExchange p 0)))

/-- Port k of a package of a number has a partner: one by its place, in the pod (R278). -/
def State.partnered (s : State) (num k : Nat) : Bool := (partnerNum num k).any fun n => s.pkgs.any (·.num = n)

/-- LINK_TRAINING (R278, R280): LINKDLY is 3·L1 + 32 from then on; a port without a partner in the pod stays untrained and reads 0. -/
def trainedRule (p n wire : Nat) (up : Bool) (s t : State) : Prop :=
  p < s.pkgs.length → n < (s.pkg p).ports.length →
    let z := t.port p n
    if up = true ∧ s.partnered (s.pkg p).num n = true then z.up = true ∧ z.wire = wire ∧ z.delay = 3 * wire + 32
    else z.up = false ∧ z.wire = 0 ∧ z.delay = 0

/-- CRC_REPLAY (R226, R281, R363): the port lags 2·L1 + 16 cycles more, which is reported; beyond the allowance of 2·L1 + 32 the fault
LINK is raised, and each slot sent on it within the last L1 cycles comes as late as the port is then. -/
def crcRule (p n : Nat) (s t : State) : Prop :=
  let q := s.port p n
  let lag := q.lag - (s.wtc - q.lagAt) / 16 + 2 * q.wire + 16
  (p < s.pkgs.length → n < (s.pkg p).ports.length → (t.port p n).lag = lag ∧ (t.port p n).lagAt = s.wtc) ∧
  t.due = (if lag ≤ 2 * q.wire + 32 then s.due else .op (.scheduleFault p 5 256 0 0) :: s.due) ∧
  ⟨p, 4, 512 + n, lag, s.wtc⟩ ∈ t.notices ∧
  (lag ≤ 2 * q.wire + 32 → t.agenda = s.agenda) ∧
  (2 * q.wire + 32 < lag → p < s.pkgs.length → n < (s.pkg p).ports.length → ∀ e ∈ s.agenda, ∀ x ∈ e.packet.bind s.packet?,
    let sent := max s.wtc x.last
    t.planned (if x.via = 32 * p + n ∧ s.wtc ≤ x.last + q.wire
      then max e.cyc (x.last + q.delay + (lag - (sent - s.wtc) / 16 - (2 * q.wire + 32))) else e.cyc) e.ev)

/-! ### Waits and barrier objects -/

/-- The fields of a barrier object (R193): PHASE, ARR, EXPARR, EXPBYTES, BYTES. -/
def State.object (s : State) (p pa : Nat) : List Nat :=
  [s.rd p pa 4, s.rd p (pa + 4) 2, s.rd p (pa + 6) 2, s.rd p (pa + 8) 4, s.rd p (pa + 12) 4]

/-- An object after the completion test (R195). -/
def tested : List Nat → List Nat
  | [ph, arr, ex, eb, by_] => if arr = ex ∧ eb ≤ by_ then [(ph + 1) % 2 ^ 32, 0, ex, eb, 0] else [ph, arr, ex, eb, by_]
  | l => l

/-- An object after an update (R194): an initialisation, an arrival, an expectation of bytes, or a credit of bytes, which does
not pass 2³² − 1. -/
def updated (op : StagedOp) (o : List Nat) : Option (Nat × List Nat) :=
  match op, o with
  | .binit off x, _ => some (off, [0, 0, x.toNat % 2 ^ 16, 0, 0])
  | .barv off, [ph, arr, ex, eb, by_] => some (off, tested [ph, (arr + 1) % 2 ^ 16, ex, eb, by_])
  | .bexp off x, [ph, arr, ex, _, by_] => some (off, tested [ph, arr, ex, x.toNat, by_])
  | .bcred off x, [ph, arr, ex, eb, by_] => some (off, tested [ph, arr, ex, eb, min (by_ + x.toNat) (2 ^ 32 - 1)])
  | _, _ => none

def StagedOp.objOff : StagedOp → Nat
  | .binit off _ => off
  | .barv off => off
  | .bexp off _ => off
  | .bcred off _ => off
  | _ => 0

/-- BARRIER_OBJECT_UPDATE (R194, R195): the object takes its update and its completion test, and no byte outside it changes. An update
that reads an object with an uncorrectable error is lost, with UCE for its team (R162; that it has no other effect is entry 97, the
model's choice). -/
def objectRule (i : Nat) (s t : State) : Prop :=
  ∀ e ∈ s.staged? i, (∀ y ∈ t.staged, y.id ≠ i) ∧
    let pa := lsPa e.core e.op.objOff
    let reads : Bool := match e.op with | .barv _ | .bexp _ _ | .bcred _ _ => true | _ => false
    let bad : Bool := reads && s.uceAt e.pkg pa 16
    (bad = true → t.mem = s.mem ∧ ∀ m ∈ s.team? e.team, m.ended = false → m.stopped = false →
      (m.events.all fun v => v.order ≠ 4) = true → ∀ z ∈ t.team? e.team, ∃ v ∈ z.events, v.order = 4 ∧ v.imp = true ∧
        v.cause = cUCE ∧ v.tval = BitVec.ofNat 32 (e.op.objOff - m.pl.lsBase) ∧ v.words = e.from_.words) ∧
    (bad = false → ∀ u ∈ updated e.op (s.object e.pkg pa), t.object e.pkg pa = u.2 ∧
      ∀ c ∈ s.mem ++ t.mem, (c.1 < s.pod e.pkg pa ∨ s.pod e.pkg pa + 16 ≤ c.1) → memByte t.mem c.1 = memByte s.mem c.1)

/-- ENGINE_CREDIT (R194, R199): the object at an LS address is credited with bytes and tested. A credit of an object with an
uncorrectable error is lost (entry 97: the model's choice). -/
def creditRule (p c off n : Nat) (s t : State) : Prop :=
  if s.uceAt p (lsPa c off) 16 = true then t.mem = s.mem
  else ∀ u ∈ updated (.bcred off (BitVec.ofNat 32 n)) (s.object p (lsPa c off)), n < 2 ^ 32 →
    t.object p (lsPa c off) = u.2

/-- The object and the predicate of a wait for a phase. -/
def Wait.phase? : Wait → Option (Nat × Nat)
  | .phase off _ q _ => some (off, q)
  | _ => none

/-- WAITPH_DEADLINE (R201): a wait whose deadline has come ends with its predicate false; SWT follows where TRAPEN asks. -/
def deadlineRule (n : Nat) (s t : State) : Prop :=
  ∀ m ∈ s.team? n, ∀ z ∈ t.team? n, ∀ w ∈ m.waits,
    let past : Bool := match w with | .phase _ _ _ d => d ≠ 0 && decide ((BitVec.ofNat 32 s.wtc - d).toNat < 2 ^ 31) | _ => false
    if past = true then
      (w ∉ z.waits) ∧ ∀ x ∈ w.phase?, (x.2 < 7 → x.2 < m.gp.length → z.gp[x.2]? = some false) ∧
        (m.csr.trapen.getLsbD 10 = true → m.ended = false → m.stopped = false →
          ∃ e ∈ z.events, e.cause = cSWT ∧ e.imp = false ∧ e.tval = BitVec.ofNat 32 x.1)
    else w ∈ z.waits

/-- The cycles of R203, and the code of each scope. -/
def barnScopes : List (Scope × Nat × Nat) := [(.core, 1, 4), (.quad, 2, 16), (.die, 3, 48), (.pkg, 4, 96)]

/-- The commit of `barn` (R202, R203, R342): the team has arrived in its next round and waits for it. Where every team of its gang in the
unit has arrived or ended, each that waits is ready L cycles on; where one has not, none is yet. A round of a gang over the pod
that is not joined completes at its bound while no schedule runs. -/
def barnRule (m : Team) (c : Cur) (r : Run) (last : Bool) (s : State) : Prop :=
  ∀ e ∈ barnScopes ++ [(.pod, 5, 96 + 2 * (2 * s.dmax + 56))], m.barnCount.length = 6 → (s.teams.map (·.id)).Nodup →
    let t := s.applyAct m c r last (.barn e.1)
    let n := m.barnCount.getD e.2.1 0 + 1
    let unit := s.teams.filter fun u => u.pl.gang = m.pl.gang && sameUnit e.1 m.pl u.pl
    let there := unit.all fun u => u.id = m.id || u.ended || n ≤ u.barnCount.getD e.2.1 0
    let free := s.agenda.all fun x => match x.ev with | .barnRoundComplete _ _ => false | _ => true
    (∀ z ∈ t.team? m.id, z.barnCount.getD e.2.1 0 = n ∧ .barn e.1 n ∈ z.waits) ∧
    (free = true → (∀ g ∈ s.gang? m.pl.gang, g.join = 0) → (s.gang? m.pl.gang).isSome = true →
      (e.1 = .pod → (s.pkgs.all fun x => (x.schedAt s.wtc).isNone) = true) →
      if there = true then
        t.planned (s.wtc + e.2.2) (.barnRoundComplete m.id (e.2.1 + 8 * n)) ∧
        ∀ u ∈ unit, .barn e.1 n ∈ u.waits → t.planned (s.wtc + e.2.2) (.barnRoundComplete u.id (e.2.1 + 8 * n))
      else ∀ u ∈ unit, ∀ cyc, ¬ t.planned cyc (.barnRoundComplete u.id (e.2.1 + 8 * n)))

/-- PACKET_TAKEN_IN (R203): under a schedule the release of a pod round that comes to a package makes the teams that wait for it there
ready 96 cycles on (the way of the tokens is entry 10). -/
def tokenRule (p i : Nat) (s t : State) : Prop :=
  ∀ x ∈ s.packet? i, ∀ key k num, x.body = .token key k num true →
    (s.pkgs.any fun y => (y.schedAt s.wtc).isSome) = true → ∀ u ∈ s.teams, u.pl.gang = key → u.pl.pkg = p →
      (∀ g ∈ s.gang? key, g.join = 0) → (s.gang? key).isSome = true → .barn .pod k ∈ u.waits →
        t.planned (s.wtc + 96) (.barnRoundComplete u.id (Scope.pod.code.toNat + 8 * k))

/-- BARN_ROUND_COMPLETE (R203): the team waits no more for the round, and nothing else of it changes. -/
def roundRule (n k : Nat) (s t : State) : Prop :=
  ∀ m ∈ s.team? n, ∀ z ∈ t.team? n, sameTeam m z ∧ ∀ w ∈ m.waits,
    if (match w with | .barn sc r => sc.code.toNat + 8 * r = k | _ => false) = true then w ∉ z.waits else w ∈ z.waits

/-- The team's staged stores, atomics and object updates and its local and global accesses of passes before cycle c are performed at
their homes (R204, R206): with `loads` its loads too, and its stores to host windows are issued to their link. That the staged frame of a
trap entry is no store of the team's passes is entry 42, the model's choice. -/
def State.performedBefore (s : State) (m : Team) (c : Nat) (loads : Bool) : Prop :=
  (∀ e ∈ s.staged, e.team = m.id → e.s < c → (∃ l, e.op = .acc l) ∨ ∃ off bs, e.op = .frame off bs) ∧
  ∀ f ∈ s.flights, f.team = m.id → f.space ≤ 1 → f.commit < c → (f.kind = .load → loads = true) →
    ∀ q ∈ f.lanes, q.home < 2 ^ 60 ∨ (loads = true ∧ f.kind = .store) → q.st = .done ∨ q.st = .faulted ∨ q.st = .performed

/-- The team's remote loads, or its remote stores and atomics, of passes before cycle c are answered (R186, R187). -/
def State.answered (s : State) (m : Team) (c : Nat) (loads : Bool) : Prop :=
  ∀ f ∈ s.flights, f.team = m.id → f.space = 2 → f.commit < c → (f.kind = .load ↔ loads = true) → ∀ q ∈ f.lanes,
    q.st = .done ∨ q.st = .faulted ∨ q.st = .performed

/-- The drain of a fence of scope pod is complete: every element acknowledged, every record of the team settled (R186). -/
def State.drained (s : State) (m : Team) (c : Nat) : Prop :=
  s.answered m c false ∧ ∀ x ∈ s.ctxs, ∀ r ∈ x.pend, r.team ≠ m.id

/-- What a fence or `xfence` waits for has reached its state (R37, R186, R204, R206, R338): for one of scope pod the drain too, unless
that has been given up. -/
def fenceOver (s : State) (m : Team) : Wait → Prop
  | .fence sc c _ _ late =>
    if sc = .team then
      (∀ e ∈ (s.pkg m.pl.pkg).waiting, e.team ≠ m.id) ∧
      ∀ f ∈ s.flights, f.team = m.id → f.space = 2 → f.kind ≠ .load → f.commit < c → ∀ q ∈ f.lanes,
        q.st ≠ .walk ∧ (q.st = .moving → q.due ≠ 0 ∧ q.due ≤ s.wtc) ∧ (q.st = .err ∨ q.st = .unmapped → q.due ≤ s.wtc)
    else s.performedBefore m c true ∧ (sc = .pod → s.answered m c true ∧ (late = true ∨ s.drained m c))
  | .xfence c => s.performedBefore m c false
  | _ => False

/-- FENCE_COMPLETION (R186, R204 to R206): the waits whose accesses have come to their state end; a fence of scope pod raises RFL
where a remote fault was recorded and TRAPEN asks for it. -/
def fenceRule (n : Nat) (s t : State) : Prop :=
  ∀ m ∈ s.team? n, ∀ z ∈ t.team? n, sameTeam m z ∧
    (∀ w ∈ m.waits, (fenceOver s m w → w ∉ z.waits) ∧ (¬ fenceOver s m w → w ∈ z.waits)) ∧
    (m.csr.rstat.getLsbD 1 = true → m.csr.trapen.getLsbD 9 = true → m.ended = false → m.stopped = false →
      (∃ w ∈ m.waits, fenceOver s m w ∧ ∃ c hdr pos late, w = .fence .pod c hdr pos late) →
      ∃ e ∈ z.events, e.cause = cRFL ∧ e.order = 1)

/-- The wait behind a fence of scope pod that committed in cycle c, with its drain given up; any other wait as it is. -/
def Wait.undrained (c : Nat) : Wait → Wait
  | .fence .pod c' hdr pos late => .fence .pod c' hdr pos (late || c' = c)
  | w => w

/-- POD_FENCE_TIMEOUT (R186): a drain that is not complete is given up with RSTAT.TO set. That the fence
still waits for its other accesses is entry 98, the model's choice. -/
def fenceTimeoutRule (n c : Nat) (s t : State) : Prop :=
  ∀ m ∈ s.team? n,
    let waiting : Prop := ∃ hdr pos, .fence .pod c hdr pos false ∈ m.waits
    (s.drained m c ∨ ¬ waiting → t = s) ∧
    (¬ s.drained m c → waiting → ∀ z ∈ t.team? n, z = { m with
      waits := m.waits.map (·.undrained c)
      csr := { m.csr with rstat := m.csr.rstat ||| 1 } })

/-- TAG_BOARD_RELEASE (R209): the round of the block is released, and no access of it is held any more. -/
def releaseRule (g b : Nat) (s t : State) : Prop :=
  ∀ x ∈ s.gang? g, (∀ y ∈ t.gang? g, y.releasedOf b = x.releasedOf b + 1) ∧
    ∀ f ∈ t.flights, f.gang = g → f.round = some (b, x.releasedOf b) → ∀ q ∈ f.lanes, q.st ≠ .held

/-- What a drain packet asks: the key, the package that began the drain, and the drain's number there. -/
def PBody.drains : PBody → Option (Nat × Nat × Nat)
  | .drain key origin id => some (key, origin, id)
  | _ => none

/-- MIGDRAIN_RECEIPT (R192): the OPEN tub of the key closes; with nothing to the key on its way, another package's drain is
answered at once. -/
def receiptRule (p i : Nat) (s t : State) : Prop :=
  ∀ x ∈ s.packet? i, ∀ d ∈ x.body.drains,
    (∀ y ∈ t.packets, y.id ≠ i) ∧
    (∀ k ∈ List.range (min 64 (s.pkg p).tubs.length), (s.tubAt p k).st = 1 → (s.tubAt p k).dkey = d.1 → (t.tubAt p k).st ≠ 1) ∧
    ((s.pkg p).tubs.all (fun y => y.st ≠ 1 || y.dkey ≠ d.1) = true → (s.pkg p).openPackets d.1 = [] → p < s.pkgs.length →
      (s.pkg p).num ≠ d.2.1 → ∀ o ∈ s.pkgOf d.2.1, o ≠ p → ∀ _q ∈ s.partner p (routePort (s.pkg p).num d.2.1),
        ∃ y ∈ (t.port p (routePort (s.pkg p).num d.2.1)).hdrq, y.body = .drainReply d.2.2)

/-- The wait of a drain's team is over, the status in its register. -/
def drainOver (d : Drain) (status : Word) (s t : State) : Prop :=
  ∀ m ∈ s.team? d.team, d.reg < m.ur.length → .migdrain d.reg d.c ∈ m.waits →
    ∀ z ∈ t.team? d.team, (.migdrain d.reg d.c ∉ z.waits) ∧ z.ur[d.reg]? = some status

/-- MIGDRAIN_REPLY (R192): the timeout of a drain in progress ends its wait with status 1; the last package's answer to one ends it with
status 0. Of a drain that is over, neither does anything. -/
def drainReplyRule (i : Nat) (timeout : Bool) (s t : State) : Prop :=
  (timeout = true → (∀ k ∈ List.range s.pkgs.length, ∀ d ∈ (s.pkg k).drains, d.id ≠ i) → t = s) ∧
  (timeout = true → ∀ p ∈ List.range s.pkgs.length, (∀ k ∈ List.range p, ∀ d ∈ (s.pkg k).drains, d.id ≠ i) →
    ∀ d ∈ (s.pkg p).drains.find? (·.id = i), drainOver d 1 s t) ∧
  (timeout = false → ∀ x ∈ s.packet? i, ∀ id, x.body = .drainReply id → ∀ p, s.pkgOf x.dst = some p →
    ((∀ d ∈ (s.pkg p).drains, d.id ≠ id) → t = { s with packets := s.packets.filter (·.id ≠ i) }) ∧
    ∀ d ∈ (s.pkg p).drains.find? (·.id = id), (∀ k ∈ d.left, k = x.src) → drainOver d 0 s t)

end Sys2Proof.Machine

/-- R175, R176, R187, R226, R279 to R281, R302, R306: the steps of the links.
The lag after a second replay is entry 55, the order of overlapping packets at a home entry 33, and that a time stamp which has
come back measures 0 entry 77: the model's choices. -/
def Obligations.LinkSteps : Prop :=
  ∀ (s : State) (p n wire : Nat) (up : Bool),
    Gives (.elasticSlotSend p n) s (slotRule p n) ∧ Gives (.intermediateForward p n) s (forwardRule p n) ∧
    Gives (.packetTakenIn p n) s (takenRule p n) ∧ Gives (.linkTraining p n wire up) s (trainedRule p n wire up) ∧
    Gives (.crcReplay p n) s (crcRule p n)

/-- R186, R192 to R195, R199 to R206, R209, R342: the steps that end waits and change barrier objects.
That a fence does not wait for a trap's staged frame is entry 42, what a drain that is given up leaves entry 98, what an uncorrectable
error under an object does entry 97: the model's choices. -/
def Obligations.SyncSteps : Prop :=
  ∀ (s : State) (p n k c off : Nat) (timeout : Bool),
    Gives (.barrierObjectUpdate n) s (objectRule n) ∧ Gives (.engineCredit p c k off n) s (creditRule p c off n) ∧
    Gives (.waitphDeadline n) s (deadlineRule n) ∧ Gives (.barnRoundComplete n k) s (roundRule n k) ∧
    Gives (.fenceCompletion n) s (fenceRule n) ∧ Gives (.podFenceTimeout n c) s (fenceTimeoutRule n c) ∧
    Gives (.tagBoardRelease n k) s (releaseRule n k) ∧ Gives (.migdrainReceipt p n) s (receiptRule p n) ∧
    Gives (.migdrainReply n timeout) s (drainReplyRule n timeout) ∧ Gives (.packetTakenIn p n) s (tokenRule p n) ∧
    ∀ (m : Team) (x : Cur) (r : Run) (last : Bool), s.team? m.id = some m → barnRule m x r last s

namespace Sys2Proof.Machine

/-! ### Clauses, launches and ends -/

/-- CLAUSE_START (R35, R44, R64): the clause at the program counter of the team whose turn it is takes this cycle for its
header: it is refused with its trap, or runs from the next cycle on, or is over where it has no words or no lanes. One whose fetch
meets an uncorrectable error does not run, and its team has a fault UCE (R162; entry 97: the model's choice). -/
def startRule (p c : Nat) (s t : State) : Prop :=
  ∀ m ∈ s.nextTeam p c, s.team? m.id = some m → 256 * p + c < s.cores.length →
    let r := s.runOf m s.wtc
    let n := (s.fetch m m.pc).toNat / 2 ^ 28
    let bad := (s.fetchAddrs m).find? fun a => s.uceAt m.pl.pkg a.2 4
    (t.core p c).lastSlot = some m.pl.slot ∧ ∀ z ∈ t.team? m.id, sameTeam m z ∧
    (∀ a ∈ bad, (t.core p c).run = none ∧ z.pc = m.pc ∧ z.ePrev = s.wtc ∧ ((m.events.all fun e => e.order ≠ 4) = true →
      ∃ e ∈ z.events, e.order = 4 ∧ e.imp = true ∧ e.cause = cUCE ∧ e.tval = BitVec.ofNat 32 a.1 ∧
        e.tvalh = BitVec.ofNat 32 (a.1 / 2 ^ 32) ∧ e.epc = m.pc)) ∧
    (bad = none → ∀ f ∈ s.issueFault m r, (t.core p c).run = none ∧ z.pc = m.pc ∧ z.ePrev = s.wtc ∧
      ∃ e ∈ z.events, e.order = 1 ∧ e.cause = f.2.1 ∧ e.tval = f.2.2 ∧ e.epc = m.pc ∧ e.pass = 1 + 256 * f.1) ∧
    (bad = none → s.issueFault m r = none → r.passes = [] → (t.core p c).run = none ∧ z.pc = m.pc + 1 + n ∧ z.ePrev = s.wtc) ∧
    (bad = none → s.issueFault m r = none → r.passes ≠ [] → ∃ x ∈ (t.core p c).run, x.team = m.id ∧ x.hdr = m.pc ∧
      x.words.length = n ∧ x.start = s.wtc ∧ x.first = s.wtc + 1 ∧ x.passes = r.passes)

/-- TEAM_END (R77, R202): a team whose lanes have all exited, whose counters are 0 and which runs no clause ends; with its
gang's last team the words of its incomplete cards leave the queues, and what is parked of them (R330). -/
def endRule (n : Nat) (s t : State) : Prop :=
  ∀ m ∈ s.team? n,
    if s.teamDone m = true then
      (∀ z ∈ t.team? n, z.ended = true ∧ z.events = [] ∧ z.region = false ∧ sameTeam m z) ∧
      ((s.teams.all fun u => u.pl.gang ≠ m.pl.gang || u.ended || u.id = n) = true → ∀ c ∈ s.gangCores m.pl.gang,
        ∀ k ∈ List.range 4, ∀ q ∈ (t.core c.1 c.2).held k, (q.words.drop q.doneLen).all (·.gang ≠ m.pl.gang) = true)
    else t = s

/-- GANG_END (R77): the gang ends; in the cycle after its resources are free, the gang and its teams gone, and STATUS reads
COMPLETED. -/
def gangEndRule (g : Nat) (s t : State) : Prop :=
  ∀ x ∈ s.gang? g,
    (x.ended = 0 → s.gangDone x = true → t.planned (s.wtc + 1) (.gangEnd g) ∧ ∀ y ∈ t.gang? g, y.ended = 1) ∧
    (x.ended = 1 → (∀ y ∈ t.gangs, y.id ≠ g) ∧ (∀ z ∈ t.teams, z.pl.gang ≠ g) ∧
      (∀ a ∈ x.statusPa, t.rd x.pkg a 4 = 2) ∧ ∃ e ∈ t.notices, e = ⟨x.pkg, 1, x.tag, 2, s.wtc⟩)

/-- WAITC_RELEASE (R76): the waits whose cycle has come are over. -/
def waitcRule (n : Nat) (s t : State) : Prop :=
  ∀ m ∈ s.team? n, ∀ z ∈ t.team? n, sameTeam m z ∧ ∀ w ∈ m.waits,
    if (match w with | .until k => decide (k ≤ s.wtc) | _ => false) = true then w ∉ z.waits else w ∈ z.waits

/-- A team as its launch leaves it (R86): at clause 0 with every lane active, g0 and g1 holding the parameter, every other
register, predicate, counter and CSR of it 0. -/
def launched (d : Desc) (g : Nat) (z : Team) : Prop :=
  z.pl.gang = g ∧ z.pc = 0 ∧ z.active = z.live ∧ z.active = BitVec.ofNat 1024 (2 ^ (32 * d.warps) - 1) ∧ z.stack = [] ∧
    (z.vr.all fun r => r.all (· = 0)) = true ∧ z.vr.length = d.vregs ∧ z.ur.length = max 2 d.uregs ∧
    z.ur.take 2 = [BitVec.ofNat 32 d.param, BitVec.ofNat 32 (d.param / 2 ^ 32)] ∧ (z.ur.drop 2).all (· = 0) = true ∧
    z.pr.all (· = 0) = true ∧ z.gp.all (· = false) = true ∧ z.sb = [0, 0, 0, 0] ∧ z.csr = TeamCsr.reset ∧ z.tl = 0 ∧
    z.bank1 = Bank.reset ∧ z.bank2 = Bank.reset ∧ z.events = [] ∧ z.waits = [] ∧ z.ended = false

/-- The status an admission ends with (R79, R354, R364): an early failure, a join that has timed out, a timed start that is past, a
power charge beyond the budget, resources that do not fit; else ADMITTED. -/
def State.verdict (s : State) (p : Nat) (a : Admitting) : Nat :=
  let charge := (distinct a.cmap).length * classCharge a.desc.cls
  if a.fail ≠ 0 then a.fail
  else if a.req.join ≠ 0 ∧ s.joinLate a.req.join = true then 0x17
  else if a.desc.flags % 2 = 1 ∧ a.desc.start < s.wtc then 0x11
  else if (s.pkg p).budget * 10 < s.charges p + charge then 0x14
  else if (s.placeGang p s.nextId a.desc a.cmap).isNone = true then 0x10
  else 1

/-- What an admission does to its join (R364): the first completion starts RTIMEOUT; the gang becomes a member, or the request
counts as failed and every requester is told. -/
def joinedRule (a : Admitting) (ok : Prop) (st g : Nat) (s t : State) : Prop :=
  ∀ q j, s.join? a.req.join = some (q, j) →
    (j.first = 0 → t.planned (s.wtc + (s.pkg q).rtimeout.toNat + 1) (.joinTimeout q a.req.join)) ∧
    ∃ k, t.join? a.req.join = some (q, k) ∧ k.njoin = j.njoin ∧ k.tags = j.tags ∧
      k.first = (if j.first = 0 then s.wtc else j.first) ∧
      (ok → k.members = j.members ++ [g] ∧ k.failed = j.failed) ∧
      (¬ok → k.members = j.members ∧ (st = 0x17 → k.failed = j.failed) ∧
        (st ≠ 0x17 → k.failed = j.failed + 1 ∧ ∀ z ∈ j.tags, ⟨z.1, 8, a.req.join, z.2, s.wtc⟩ ∈ t.notices))

/-- ADMISSION_COMPLETION (R79, R80, R86, R354, R364, R373): the request's status is its verdict. A refused one holds nothing, and a
timed one raises its schedule fault; an admitted gang is resident and starts at START or in the next cycle, a timed one at START.
A request of a join counts in it. -/
def admissionRule (p : Nat) (s t : State) : Prop :=
  ∀ a ∈ (s.pkg p).admitting, a.done = s.wtc → a.fail < 2 ^ 32 →
    let timed := a.desc.flags % 2 = 1
    let st := s.verdict p a
    let ok := a.fail = 0 ∧ st = 1
    let start := if timed then a.desc.start else max a.desc.start (s.wtc + 1)
    (t.pkg p).admitting = none ∧ (∀ x ∈ a.statusPa, t.rd p x 4 = st) ∧
    (a.req.join = 0 → ¬ok → t.notices = s.notices) ∧
    (a.req.join ≠ 0 → joinedRule a ok st s.nextId s t) ∧
    (¬ok → t.gangs = s.gangs ∧ t.teams = s.teams ∧
      t.due = if timed then .op (.scheduleFault p 11 256 0 a.req.ctx) :: s.due else s.due) ∧
    (ok → t.planned start (.gangStart s.nextId) ∧ t.teams.take s.teams.length = s.teams ∧
      (∀ z ∈ t.teams.drop s.teams.length, launched a.desc s.nextId z ∧ z.startAt = start) ∧
      ∃ g ∈ t.gangs.getLast?, g.id = s.nextId ∧ g.ctx = a.req.ctx ∧ g.started = false ∧ g.startAt = start ∧
        g.ended = 0 ∧ g.desc = a.desc ∧ g.join = a.req.join ∧ g.charge = (distinct a.cmap).length * classCharge a.desc.cls)

/-- GANG_START (R87): the teams of the gang take part from now on. -/
def gangStartRule (g : Nat) (s t : State) : Prop := ∀ y ∈ t.gang? g, y.started = true ∧ t.teams = s.teams

/-- JOIN_TIMEOUT (R364): the members not admitted within RTIMEOUT of the first completion count as failed, and every requester
is told, subscribed or not. -/
def joinRule (p n : Nat) (s t : State) : Prop :=
  ∀ j ∈ (s.pkg p).joins.find? (·.num = n), p < s.pkgs.length →
    if j.members.length + j.failed < j.njoin then
      (∀ k ∈ (t.pkg p).joins.find? (·.num = n), k.members.length + k.failed = j.njoin) ∧
      (s.join? n = some (p, j) → ∀ z ∈ j.tags, ⟨z.1, 8, n, z.2, s.wtc⟩ ∈ t.notices ∧
        ⟨z.1, 11, 8, n, s.wtc, true, natBytes 8 z.2⟩ ∈ t.outbound)
    else t = s

end Sys2Proof.Machine

/-- R35, R64, R76, R77, R79, R80, R86, R87, R354, R364: the steps of clause starts, launches and ends.
Details of the admitter are entry 68. -/
def Obligations.LaunchSteps : Prop :=
  ∀ (s : State) (p n : Nat),
    Gives (.clauseStart p n) s (startRule p n) ∧ Gives (.teamEnd n) s (endRule n) ∧ Gives (.gangEnd n) s (gangEndRule n) ∧
    Gives (.waitcRelease n) s (waitcRule n) ∧ Gives (.admissionCompletion p) s (admissionRule p) ∧
    Gives (.gangStart n) s (gangStartRule n) ∧ Gives (.joinTimeout p n) s (joinRule p n)

namespace Sys2Proof.Machine

/-! ### Cards -/

/-- The first cycle from n on that is r modulo m. -/
def firstPhase (n m r : Nat) : Nat := n + (r + m - n % m) % m

/-- The error code in the status register of a queue (R239, R277, R299). -/
def Team.errOf (u : Team) (q : Nat) : Nat :=
  (if q = 0 then u.csr.mstat else if q = 1 then u.csr.hstat else if q = 2 then u.csr.qstat else u.csr.fstat).toNat /
    65536 % 16

/-- CARD_ACCEPTANCE (R235, R239, R261, R263): from two cycles after its clause and one after the start before it, the head card of
a queue leaves it; it waits with an edge from every card in flight it conflicts with, or is refused with its code in the
queue's status register. -/
def acceptRule (p c q : Nat) (s t : State) : Prop :=
  let x := s.core p c
  let y := x.queues.getD q Queue.reset
  let z := (t.core p c).queues.getD q Queue.reset
  ∀ r ∈ y.ready.head?, ∀ m ∈ s.team? r.team, (∃ a ∈ s.acceptAt p c q, a ≤ s.wtc) → 256 * p + c < s.cores.length →
    q < x.queues.length →
    let ws := (y.words.take r.len).map (·.x)
    z.words = y.words.drop r.len ∧ z.ready = y.ready.tail ∧
    (s.cardBad m q ws = none → ∃ k ∈ (t.core p c).cards.getLast?, (t.core p c).cards.length = x.cards.length + 1 ∧
      k.words = ws ∧ k.q = q ∧ k.team = m.id ∧ k.accept = s.wtc ∧ k.start = none ∧ k.fin = none ∧
      k.foot = s.footprint m q ws ∧
      k.edges = (x.cards.filter fun j => j.inFlight s.wtc && footsMeet j.foot k.foot (j.ctx = k.ctx)).map (·.id)) ∧
    ∀ e ∈ s.cardBad m q ws, e.1 < 16 → (t.core p c).cards = x.cards ∧ ∀ u ∈ t.team? m.id, u.errOf q = e.1

/-- EDGE_RELEASE (R263): the edge of a card that has finished before this cycle is gone, and no other. -/
def edgeRule (p c i j : Nat) (s t : State) : Prop :=
  ∀ k ∈ s.card? p c i, ∀ y ∈ t.card? p c i,
    y.edges = if s.edgeOver p c j = true then k.edges.filter (· ≠ j) else k.edges

/-- A card of a type starts on its engine (R236, R264), where it may, with a first step of the engine. -/
def startsCard (p c i q ty : Nat) (first : List (Nat × Instr)) (s t : State) : Prop :=
  ∀ k ∈ s.card? p c i,
    if k.q = q ∧ cType k.words = ty ∧ s.mayStart p c k = true then
      (∀ y ∈ t.card? p c i, y.start = some s.wtc) ∧
      (∀ z ∈ (t.core p c).queues[q]?, z.lastStart = s.wtc) ∧ ∀ e ∈ first, t.planned e.1 e.2
    else t = s

/-- R241, R254: the first read of step 0 takes the first even cycle. -/
def mmRule (p c i : Nat) (s t : State) : Prop := startsCard p c i 0 1 [(firstPhase s.wtc 2 0, .matrixStep p c 0 0)] s t
/-- R258: `mzero` clears its first tile as it starts. -/
def mzeroRule (p c i : Nat) (s t : State) : Prop := startsCard p c i 0 2 [(s.wtc, .matrixTileChunk p c 0 1)] s t
/-- R258: `aload` reads, and `adrain` writes, from the first even cycle on. -/
def aloadRule (p c i : Nat) (s t : State) : Prop :=
  startsCard p c i 0 3 [(firstPhase s.wtc 2 0, .matrixTileChunk p c 0 0)] s t
def adrainRule (p c i : Nat) (s t : State) : Prop :=
  startsCard p c i 0 4 [(firstPhase s.wtc 2 0, .matrixTileChunk p c 0 1)] s t
/-- R267 to R270: the haul engine looks for a read and a write from the first haul-phase cycle on. -/
def haulFirst (p c : Nat) (s : State) : List (Nat × Instr) :=
  [(firstPhase s.wtc 4 1, .haulPieceRead p c 0), (firstPhase s.wtc 4 1, .haulPieceWrite p c)]
def copyRule (p c i : Nat) (s t : State) : Prop := startsCard p c i 1 1 (haulFirst p c s) s t
def fillRule (p c i : Nat) (s t : State) : Prop := startsCard p c i 1 2 (haulFirst p c s) s t
def gatherCardRule (p c i : Nat) (s t : State) : Prop := startsCard p c i 1 3 (haulFirst p c s) s t
/-- R273, R275: the first group is read in the first phase-7 cycle. -/
def quantRule (p c i : Nat) (s t : State) : Prop := startsCard p c i 2 1 [(firstPhase s.wtc 8 7, .grinderGroup p c 0 0)] s t
def dequantRule (p c i : Nat) (s t : State) : Prop := startsCard p c i 2 2 [(firstPhase s.wtc 8 7, .grinderGroup p c 0 0)] s t

/-- The cycle a card's word 1 names (R287): the one nearest its acceptance. -/
def Card.named (k : Card) : Nat := ((k.accept : Int) + (k.words.getD 1 0 - BitVec.ofNat 32 k.accept).toInt).toNat

/-- The fabric fault of a kind waits for its report. -/
def faultDue (p c kind : Nat) (k : Card) (s t : State) : Prop :=
  t.due = .op (.scheduleFault p kind c k.slot k.ctx) :: s.due

/-- The cycle x in which a chunk whose first slot stands in cycle t is read, by a card that starts now; `held` are those of its chunks
before it (R289): the last free phase-3 cycle 8 cycles before t, or, LATE, the first free one from now on. -/
def chunkRead (now t : Nat) (held : List Nat) (late : Bool) (x : Nat) : Prop :=
  x % 8 = 3 ∧ x ∉ held ∧ now ≤ x ∧
    if late = true then (∀ y, y % 8 = 3 → now ≤ y → y + 8 ≤ t → y ∈ held) ∧ ∀ y, y % 8 = 3 → now ≤ y → y < x → y ∈ held
    else x + 8 ≤ t ∧ ∀ y, y % 8 = 3 → x < y → y + 8 ≤ t → y ∈ held

/-- SENDAT (R288, R289): slot j stands T + j · STEP cycles on, those before this cycle are gone; each chunk of 16 slots is read in its
cycle, and one that is LATE is a fault. -/
def sendRule (p c i : Nat) (s t : State) : Prop :=
  ∀ k ∈ s.card? p c i,
    if k.q = 3 ∧ cType k.words = 1 ∧ s.mayStart p c k = true then
      let n := cf k.words 3 0 21 / 64
      let slots := ((List.range n).map fun j => (j, k.named + j * cf k.words 4 0 16)).filter (s.wtc ≤ ·.2)
      (∀ y ∈ t.card? p c i, y.start = some s.wtc ∧ y.slots.map (fun x => (x.k, x.cyc)) = slots ∧
        y.slots.all (·.data.isNone) = true) ∧
      (∀ x ∈ slots.head?, t.planned x.2 (.scheduledSlotSend p c i x.1)) ∧
      (∀ (rs : List Nat) (late : List Bool), s.wtc ≠ 0 → rs.length = (n + 15) / 16 → late.length = rs.length →
        (∀ m x b, rs[m]? = some x → late[m]? = some b →
          chunkRead s.wtc (k.named + 16 * m * cf k.words 4 0 16) (rs.take m) b x) →
        (∀ m x, rs[m]? = some x → t.planned x (.sendatChunkRead p c i m)) ∧
        if late.any id = true then faultDue p c 1 k s t else t.due = s.due)
    else t = s

/-- RECVAT (R291 to R293): as it starts, slot j is expected A + j · STEP cycles on, LATE where A is past; later, a slot that was
expected and did not come is missing, with its fault. -/
def recvRule (p c i : Nat) (s t : State) : Prop :=
  ∀ k ∈ s.card? p c i, k.q = 3 → cType k.words = 2 →
    (k.start = none → s.mayStart p c k = true →
      let slots := ((List.range (cf k.words 3 0 21 / 64)).map fun j => (j, k.named + j * cf k.words 5 16 16)).filter
        (s.wtc ≤ ·.2)
      (∀ y ∈ t.card? p c i, y.start = some s.wtc ∧ y.slots.map (fun x => (x.k, x.cyc)) = slots ∧
        y.missing = decide (k.named < s.wtc)) ∧
      (∀ x ∈ slots.head?, t.planned x.2 (.recvat p c i)) ∧
      if k.named < s.wtc then faultDue p c 1 k s t else t.due = s.due) ∧
    (k.start ≠ none →
      (∀ y ∈ t.card? p c i, y.slots = k.slots.filter (s.wtc < ·.cyc)) ∧
      if k.slots.any (·.cyc ≤ s.wtc) = true then (∀ y ∈ t.card? p c i, y.missing = true) ∧ faultDue p c 8 k s t
      else t.due = s.due)

/-- RINGDEF (R294): HEAD and TAIL read 0, and the ring is the live one of its number with the card's fields. -/
def ringdefRule (p c i : Nat) (s t : State) : Prop :=
  ∀ k ∈ s.card? p c i,
    if k.q = 3 ∧ cType k.words = 4 ∧ s.mayStart p c k = true then
      let ws := k.words
      let b := s.cardBase k
      256 * p + c < s.cores.length →
      t.rd p (lsPa c (b + cf ws 3 0 21)) 8 = 0 ∧
      ∃ r ∈ t.ring? p c (cf ws 2 8 4), r.base = b + cf ws 1 0 21 ∧ r.log2 = cf ws 2 0 5 ∧ r.ctl = b + cf ws 3 0 21 ∧
        r.ppkg = cf ws 2 16 8 ∧ r.pcore = cf ws 2 24 8 ∧ r.ctx = k.ctx ∧ r.count = 0
    else t = s

/-- RINGPUT (R296): the payload is read in the phase-3 cycles from this one, and the message leaves 40 cycles after the last. -/
def ringputRule (p c i : Nat) (s t : State) : Prop :=
  ∀ k ∈ s.card? p c i,
    if k.q = 3 ∧ cType k.words = 3 ∧ s.mayStart p c k = true then
      let n := (cf k.words 3 0 13 + 1023) / 1024
      (∀ m ∈ List.range n, t.planned (firstPhase s.wtc 8 3 + 8 * m) (.sendatChunkRead p c i m)) ∧
      t.planned (firstPhase s.wtc 8 3 + 8 * (n - 1) + 40) (.ringMessageDeparture p c i) ∧
      ∀ y ∈ t.card? p c i, y.start = some s.wtc
    else t = s

/-- QUIET (R297): the check is made in cycle QC; a QC before this cycle is LATE. -/
def quietRule (p c i : Nat) (s t : State) : Prop :=
  ∀ k ∈ s.card? p c i,
    if k.q = 3 ∧ cType k.words = 5 ∧ s.mayStart p c k = true then
      (∀ y ∈ t.card? p c i, y.start = some s.wtc ∧ y.fin = some (max k.named s.wtc)) ∧
      if k.named < s.wtc then faultDue p c 1 k s t else t.planned k.named (.quietCheck p c i)
    else t = s

/-! ### Engines -/

/-- The running card of an engine has read bytes for step or group n. -/
def buffered (p c i n : Nat) (bs : List Byte) (k : Card) (t : State) : Prop :=
  ∀ y ∈ t.card? p c i, y.buffer n = k.buffer n ++ bs

/-- The card finished in a cycle, and its bytes are credited two cycles later (R240). -/
def finished (p c : Nat) (k : Card) (f : Nat) (s t : State) : Prop :=
  (∀ y ∈ t.card? p c k.id, y.fin = some f) ∧
    ∀ z ∈ cardCredit k.q k.words, t.planned (f + 2) (.engineCredit p c (k.q + 1) (s.cardBase k + z.1) z.2)

/-- The card stopped with an error and finishes in cycle f, that of the access that failed (R261): it credits nothing, and its code
stands in its status register (R239, R276). Its engine is free after cycle `last`. -/
def stoppedAt (p c : Nat) (k : Card) (f last code : Nat) (t : State) : Prop :=
  (∀ y ∈ t.card? p c k.id, y.stopped = true ∧ y.fin = some f ∧ y.settled = some last) ∧
    ∀ u ∈ t.team? k.team, u.errOf k.q = code

/-- The card stopped in step n: no later step of it is left, and the engine makes the writes of earlier ones (R239); one that had
stopped already stays as it was. -/
def stepStopped (p c n : Nat) (k : Card) (code : Nat) (s t : State) : Prop :=
  let last := (s.agenda.filter fun e => (matrixEntry p c e).any (· < n)).foldl (fun f e => max f e.cyc) s.wtc
  (∀ e ∈ t.agenda, ∀ i ∈ matrixEntry p c e, i < n) ∧
    if k.stopped = true then (∀ y ∈ t.card? p c k.id, y.stopped = true ∧ y.fin = k.fin ∧ y.settled = k.settled) ∧
      t.records = s.records
    else stoppedAt p c k s.wtc last code t

/-- MATRIX_STEP (R249, R254, R255): a read of step n adds its bytes, and the next follows two cycles on, or the step's write in
its cycle; the write leaves the four tiles of the step's position with what the step makes of them, and the last one ends the
card. An uncorrectable error stops the card, which still makes the writes of earlier steps (entry 90: the model's choice). -/
def stepRule (p c n part : Nat) (s t : State) : Prop :=
  ∀ k ∈ s.matrixCard p c, s.card? p c k.id = some k → cType k.words = 1 →
    let m := mmOf k.words
    let s0 := k.start.getD 0 + k.delay
    let tile := s.tileBase k + m.cbase + 4 * (n / m.kgs)
    let first : Bool := m.accz && n % m.kgs = 0
    (∀ r ∈ (m.reads n)[part]?,
      if ((m.ranges n r).any fun x => s.uceAt p (lsPa c (s.cardBase k + x.1)) x.2) = true then
        stepStopped p c n k 11 s t
      else buffered p c k.id n (m.bytes s p (lsPa c (s.cardBase k)) n r) k t ∧
        (if part + 1 < (m.reads n).length then t.planned (s.wtc + 2) (.matrixStep p c n (part + 1))
          else t.planned (s0 + (m.times n).2) (.matrixStep p c n (part + 1))) ∧
        (part = 0 → n + 1 < m.mt * m.nt * m.kgs →
          t.planned (firstPhase (s0 + (m.times (n + 1)).1) 2 0) (.matrixStep p c (n + 1) 0))) ∧
    ((m.reads n)[part]? = none →
      let la := if m.unf then 128 * m.kg * fmtBits (fmtOfId m.afmt) / 8 else m.pa
      let old := (List.range 4).map fun q =>
        if first then List.replicate 4096 m.identity else s.accRead (accIx p c (tile + q) 0) 4096
      let new := m.step old ((k.buffer n).take la) ((k.buffer n).drop la)
      if first = false ∧ s.accBad (accIx p c tile 0) 16384 = true then stepStopped p c n k 11 s t
      else (new.1.map (·.length) = [4096, 4096, 4096, 4096] →
          ∀ q ∈ List.range 4, some (t.accRead (accIx p c (tile + q) 0) 4096) = new.1[q]?) ∧
        (∀ u ∈ s.team? k.team, ∀ z ∈ t.team? k.team, z.csr.mstat = u.csr.mstat ||| BitVec.ofNat 32 new.2) ∧
        (n + 1 = m.mt * m.nt * m.kgs → k.stopped = false → finished p c k s.wtc s t))

/-- MATRIX_TILE_CHUNK (R258): `mzero` clears a tile; `aload` brings 256 words of LS to its tile two cycles after their read;
`adrain` to F32 puts 256 words into the LS. The last chunk ends the card. -/
def chunkRule (p c i part : Nat) (s t : State) : Prop :=
  ∀ k ∈ s.matrixCard p c, s.card? p c k.id = some k →
    let ws := k.words
    let b := s.cardBase k
    let tiles := s.tileBase k
    (cType ws = 2 → t.accRead (accIx p c (tiles + cf ws 1 0 8 + i) 0) 4096 = List.replicate 4096 0 ∧
      (i + 1 = cf ws 1 8 8 → finished p c k s.wtc s t) ∧
      (i + 1 < cf ws 1 8 8 → t.planned (s.wtc + 1) (.matrixTileChunk p c (i + 1) 1))) ∧
    (cType ws = 3 → part = 0 →
      if s.uceAt p (lsPa c (b + (cf ws 1 0 21 + 1024 * i))) 1024 = true then stepStopped p c i k 11 s t
      else buffered p c k.id i (natBytes 1024 (s.rd p (lsPa c (b + (cf ws 1 0 21 + 1024 * i))) 1024)) k t ∧
        t.planned (s.wtc + 2) (.matrixTileChunk p c i 1)) ∧
    (cType ws = 3 → part = 1 → (k.buffer i).length = 1024 →
      (∀ e ∈ List.range 256, accWord t.acc (accIx p c (tiles + cf ws 2 0 8 + i / 16) (256 * (i % 16)) + e) =
        BitVec.ofNat 32 (bytesNat (((k.buffer i).drop (4 * e)).take 4))) ∧
      (i + 1 = 16 * cf ws 2 8 8 → finished p c k s.wtc s t)) ∧
    (cType ws = 4 → cf ws 2 16 4 = 0 →
      let a := accIx p c (tiles + cf ws 2 0 8) (256 * i)
      let pa := lsPa c (b + cf ws 1 0 21 + 1024 * i)
      if s.accBad a 256 = true then stepStopped p c i k 11 s t
      else (∀ e ∈ List.range 256, t.rd p (pa + 4 * e) 4 = ((s.accRead a 256).getD e 0).toNat) ∧
        (i + 1 = 16 * cf ws 2 8 8 → finished p c k s.wtc s t))

/-- RE_EXECUTION (R257): the first failure of a step is counted in MSTAT and puts every later origin and write of the card 72
cycles off; the second stops it. -/
def reexecRule (p c n : Nat) (s t : State) : Prop :=
  ∀ k ∈ s.matrixCard p c, s.card? p c k.id = some k → cType k.words = 1 →
    if k.stopped = true then t = s
    else if k.count = n + 1 then stepStopped p c n k 12 s t
    else (∀ y ∈ t.card? p c k.id, y.count = n + 1 ∧ y.delay = k.delay + 72) ∧
      (∀ e ∈ s.agenda, t.planned (if moves (mmOf k.words) p c e.ev = true then e.cyc + 72 else e.cyc) e.ev) ∧
      ∀ u ∈ s.team? k.team, ∀ z ∈ t.team? k.team,
        z.csr.mstat.toNat / 256 % 256 = min 255 (u.csr.mstat.toNat / 256 % 256 + 1)

/-- HAUL_PIECE_READ (R270, R271): in a haul-phase cycle the next piece of the running card takes the next number, and is read at
its own LS at once; a piece read at an LS is ready now, or 20 cycles on from another core. A fault of a walk, and an uncorrectable
error, stop the card (R276). -/
def pieceReadRule (p c part : Nat) (s t : State) : Prop :=
  ∀ k ∈ s.haulCard p c, s.card? p c k.id = some k →
    (part = 0 → k.haul.fail = none → s.wtc % 4 = 1 → ∀ y ∈ k.nextPiece, k.mayIssue s = true →
      ∀ o ∈ y.1.src, ∀ off ∈ (match o with | .ls off => some off | _ => none), s.cardBase k + off < 0x180000 → c < 256 →
        t.planned s.wtc (.haulPieceRead p c (k.haul.next + 1)) ∧
        ∀ z ∈ t.card? p c k.id, z.haul.next = k.haul.next + 1 ∧ z.haul.lastR = some s.wtc ∧
          ∃ x ∈ z.haul.pieces, x.k = k.haul.next ∧ x.src = some (lsPa c (s.cardBase k + off)) ∧ x.len = y.1.len) ∧
    (part = 0 → ∀ x ∈ k.haul.fail, stoppedAt p c k s.wtc s.wtc (if x.1 = 0x0F then 11 else 14) t) ∧
    (part ≠ 0 → ∀ x ∈ k.haul.pieces.find? (·.k + 1 = part), x.index = false → ∀ pa ∈ x.src,
      ∀ o ∈ (match homeOf pa with | .ls o _ => some o | _ => none),
        if s.uceAt p pa x.len = true then stoppedAt p c k s.wtc s.wtc 11 t
        else ∀ z ∈ t.card? p c k.id, ∃ y ∈ z.haul.pieces, y.k = x.k ∧
          y.ready = some (s.wtc + if c = o then 0 else 20) ∧ y.data = natBytes x.len (s.rd p pa x.len))

/-- HAUL_PIECE_WRITE (R271): in a haul-phase cycle at least 8 cycles after it was ready, the first piece is written: on its own
LS at once, where the card's destination lies there. -/
def pieceWriteRule (p c : Nat) (s t : State) : Prop :=
  ∀ k ∈ s.haulCard p c, s.card? p c k.id = some k → s.dueTodo p c = none → s.wtc % 4 = 1 →
    ∀ x ∈ k.haul.pieces.find? (!·.index), (x.ready.any fun r => r + 8 ≤ s.wtc) = true → k.haul.lastW ≠ some s.wtc →
      k.haul.hold ≠ some (s.wtc, true) → (s.walks.any fun w => w.for_ = .piece k.id x.k true) = false →
      ((cType k.words = 1 ∧ cf k.words 4 30 2 = 1) ∨ (cType k.words = 2 ∧ cf k.words 2 30 2 = 1)) →
      cf k.words 0 16 4 = 0 → ∀ m ∈ s.team? k.team, ∀ d ∈ x.dst,
        let pa := lsPa c (m.pl.lsBase + d)
        (∀ i ∈ List.range x.data.length, some (memByte t.mem (s.pod p (pa + i))) = x.data[i]?) ∧
        (∀ z ∈ t.card? p c k.id, z.haul.lastW = some s.wtc ∧ ∀ y ∈ z.haul.pieces, y.k ≠ x.k)

/-- GRINDER_GROUP (R273, R275): a group is read, the next eight cycles later; the group is written eight cycles after its
read, with its flags in QSTAT; the last one ends the card. -/
def groupRule (p c n part : Nat) (s t : State) : Prop :=
  ∀ k ∈ s.grindCard p c, s.card? p c k.id = some k →
    let b := s.cardBase k
    (part = 0 →
      if ((k.groupReads n).any fun r => s.uceAt p (lsPa c (b + r.1)) r.2) = true then stoppedAt p c k s.wtc s.wtc 11 t
      else buffered p c k.id n ((k.groupReads n).flatMap fun r => natBytes r.2 (s.rd p (lsPa c (b + r.1)) r.2)) k t ∧
        t.planned (s.wtc + 8) (.grinderGroup p c n 1) ∧
        (n + 1 < k.groups → t.planned (s.wtc + 8) (.grinderGroup p c (n + 1) 0))) ∧
    (part ≠ 0 →
      let ws := k.groupWrites n (k.buffer n)
      (ws.1.Pairwise (fun a d => a.1 + a.2.length ≤ d.1 ∨ d.1 + d.2.length ≤ a.1) →
        ∀ w ∈ ws.1, ∀ i ∈ List.range w.2.length, some (memByte t.mem (s.pod p (lsPa c (b + w.1) + i))) = w.2[i]?) ∧
      (∀ u ∈ s.team? k.team, ∀ z ∈ t.team? k.team, z.csr.qstat = u.csr.qstat ||| BitVec.ofNat 32 ws.2) ∧
      (n + 1 = k.groups → finished p c k s.wtc s t))

end Sys2Proof.Machine

/-- R235, R236, R239 to R241, R258, R261, R263, R264, R267 to R270, R273, R287 to R289, R291 to R294, R296, R297: how cards are
accepted and start.
Which of several errors counts is entry 32. What a card does that starts late is entry 58, the model's choice: a `sendat` drops the
slots that are past and only raises LATE, a `recvat` marks them missing, and a `quiet` finishes at once. -/
def Obligations.CardSteps : Prop :=
  ∀ (s : State) (p c i j : Nat),
    Gives (.cardAcceptance p c i) s (acceptRule p c i) ∧ Gives (.edgeRelease p c i j) s (edgeRule p c i j) ∧
    Gives (.mm p c i) s (mmRule p c i) ∧ Gives (.mzero p c i) s (mzeroRule p c i) ∧
    Gives (.aload p c i) s (aloadRule p c i) ∧ Gives (.adrain p c i) s (adrainRule p c i) ∧
    Gives (.copy p c i) s (copyRule p c i) ∧ Gives (.fill p c i) s (fillRule p c i) ∧
    Gives (.gather p c i) s (gatherCardRule p c i) ∧ Gives (.quant p c i) s (quantRule p c i) ∧
    Gives (.dequant p c i) s (dequantRule p c i) ∧ Gives (.sendat p c i) s (sendRule p c i) ∧
    Gives (.recvat p c i) s (recvRule p c i) ∧ Gives (.ringdef p c i) s (ringdefRule p c i) ∧
    Gives (.ringput p c i) s (ringputRule p c i) ∧ Gives (.quiet p c i) s (quietRule p c i)

/-- R239, R240, R249, R254, R255, R257, R258, R270, R271, R273, R275, R276: what the engines do.
Details are entries 53, 57 and 90. -/
def Obligations.EngineSteps : Prop :=
  ∀ (s : State) (p c n part : Nat),
    Gives (.matrixStep p c n part) s (stepRule p c n part) ∧ Gives (.matrixTileChunk p c n part) s (chunkRule p c n part) ∧
    Gives (.reExecution p c n) s (reexecRule p c n) ∧ Gives (.haulPieceRead p c part) s (pieceReadRule p c part) ∧
    Gives (.haulPieceWrite p c) s (pieceWriteRule p c) ∧ Gives (.grinderGroup p c n part) s (groupRule p c n part)

namespace Sys2Proof.Machine

/-! ### Slots and rings -/

/-- SENDAT_CHUNK_READ (R289, R296): a chunk of a send, 16 slots of 64 bytes, is in those that stand 8 cycles ahead or more; a
chunk of a message is kept for its departure. -/
def chunkReadRule (p c i m : Nat) (s t : State) : Prop :=
  ∀ k ∈ s.card? p c i, k.stopped = false →
    let r := k.chunkRange m
    let pa := lsPa c (s.cardBase k + r.1)
    if s.uceAt p pa r.2 = true then stoppedAt p c k s.wtc s.wtc 11 t ∧ ∀ y ∈ t.card? p c k.id, y.slots = []
    else ∀ y ∈ t.card? p c i, y.slots.length = k.slots.length ∧ ∀ z ∈ k.slots.zip y.slots,
      let bs := natBytes r.2 (s.rd p pa r.2)
      z.2.k = z.1.k ∧ z.2.cyc = z.1.cyc ∧ z.2.data =
        if cType k.words = 3 then (if z.1.k = m then some bs else z.1.data)
        else if z.1.k / 16 = m ∧ s.wtc + 8 ≤ z.1.cyc then some ((bs.drop (64 * (z.1.k % 16))).take 64) else z.1.data

/-- SCHEDULED_SLOT_SEND (R279, R289, R290): a slot the port's map does not hold, or that two cards claim, is COLLISION; a full
one leaves for the partner, or on the torus for each core the card names; the card's next slot is looked at in its cycle. -/
def slotSendRule (p c i n : Nat) (s t : State) : Prop :=
  ∀ k ∈ s.card? p c i, ∀ x ∈ k.slots.find? (·.k = n),
    let port := cf k.words 0 16 6
    (∀ u ∈ k.slots.find? (n < ·.k), t.planned u.cyc (.scheduledSlotSend p c i u.k)) ∧
    (∀ y ∈ t.card? p c i, ∀ u ∈ y.slots, u.k = n → u.taken = true) ∧
    (x.taken = false → port ≠ 63 → ((s.pkg p).scheduledSlot port s.wtc = false ∨ s.claimed p i port = true) →
      faultDue p c 9 k s t) ∧
    (x.taken = false → port = 63 → ∀ bs ∈ x.data, t.due = s.due ∧ ∀ d ∈ sendCores k.words,
      ∃ y ∈ t.packets, y.body = .slot 63 c d k.slot k.ctx bs ∧ t.planned (s.wtc + 24 + torus c d) (.slotDelivery p y.id)) ∧
    (x.taken = false → port ≠ 63 → (s.pkg p).scheduledSlot port s.wtc = true → s.claimed p i port = false →
      ∀ bs ∈ x.data, ∀ q ∈ s.partner p port, t.due = s.due ∧ ∃ y ∈ t.packets,
        y.body = .slot (facing (s.pkg p).num port) c 0 k.slot k.ctx bs ∧
        t.planned (s.wtc + (s.port p port).delay + (s.port p port).lateBy s.wtc) (.slotDelivery q y.id))

/-- What a slot packet brings: port, core of its sender, core, slot and context of its sender, bytes. -/
def PBody.slot? : PBody → Option (Nat × Nat × Nat × Nat × Nat × List Byte)
  | .slot port score core sslot sctx bs => some (port, score, core, sslot, sctx, bs)
  | _ => none

/-- SLOT_DELIVERY (R292, R293): the slot of the receive that expects it waits in the landing buffer, written from four cycles on;
past 128 slots it is LANDOVR and counted in RINGDROP; a slot no receive expects is ORPHAN, recorded with the sending card's core,
slot and context (R373; for a slot from a link that is entry 87, the model's choice). -/
def deliveryRule (p i : Nat) (s t : State) : Prop :=
  ∀ y ∈ s.packet? i, (∀ z ∈ t.packets, z.id ≠ i) ∧ ∀ b ∈ y.body.slot?,
    let s' : State := { s with packets := s.packets.filter (·.id ≠ i) }
    (∀ r ∈ (s'.receivers p b.1 b.2.1 b.2.2.1 false).head?, ∀ x ∈ r.2.slots.find? (·.cyc = s.wtc),
      s.card? p r.1 r.2.id = some r.2 →
      if (s.core p r.1).landing.length < 128 then
        (∃ l ∈ (t.core p r.1).landing.getLast?, l.cyc = s.wtc ∧ l.data = b.2.2.2.2.2 ∧ l.card = r.2.id ∧ l.k = x.k ∧
          l.dst = s.cardBase r.2 + cf r.2.words 2 0 21 + 64 * x.k) ∧
        t.planned (firstPhase (s.wtc + 4) 8 3) (.landingWrite p r.1) ∧ t.due = s.due
      else (t.core p r.1).landing = (s.core p r.1).landing ∧ faultDue p r.1 15 r.2 s t ∧
        (t.core p r.1).ringdrop = if (s.core p r.1).ringdrop = BitVec.allOnes 32 then BitVec.allOnes 32
          else (s.core p r.1).ringdrop + 1) ∧
    (s'.receivers p b.1 b.2.1 b.2.2.1 false = [] → s'.receivers p b.1 b.2.1 b.2.2.1 true = [] →
      t.due = .op (.scheduleFault p 7 b.2.1 b.2.2.2.1 b.2.2.2.2.1) :: s.due)

/-- LANDING_WRITE (R292): up to 16 slots delivered at least four cycles before are in LS, and the others wait on. -/
def landingRule (p c : Nat) (s t : State) : Prop :=
  let l := (s.core p c).landing
  let now := (l.takeWhile fun x => x.cyc + 4 ≤ s.wtc).take 16
  (t.core p c).landing = l.drop now.length ∧
  (now.Pairwise (fun a d => a.dst + a.data.length ≤ d.dst ∨ d.dst + d.data.length ≤ a.dst) →
    ∀ x ∈ now, ∀ i ∈ List.range x.data.length, some (memByte t.mem (s.pod p (lsPa c x.dst + i))) = x.data[i]?)

/-- RING_MESSAGE_DEPARTURE (R296): the message with the card's bytes leaves, over the torus inside the package, and is given up
after RTIMEOUT. -/
def departRule (p c i : Nat) (s t : State) : Prop :=
  ∀ k ∈ s.card? p c i, k.stopped = false → k.count = 0 →
    let ws := k.words
    let dst := cf ws 1 0 8
    let body : PBody := .ring c i (cf ws 1 8 8) (cf ws 1 16 4) (cf ws 3 0 13) (k.slots.flatMap fun x => x.data.getD []) c
    (∀ y ∈ t.card? p c i, y.count = 1) ∧
    (dst = (s.pkg p).num → (∃ y ∈ t.packets, y.body = body ∧
      t.planned (s.wtc + 20 + torus c (cf ws 1 8 8)) (.ringMessageArrival p y.id)) ∧
      t.planned (s.wtc + (s.pkg p).rtimeout.toNat) (.ringTimeout p i)) ∧
    (dst ≠ (s.pkg p).num → ∀ _q ∈ s.partner p (routePort (s.pkg p).num dst),
      (∃ y ∈ (t.port p (routePort (s.pkg p).num dst)).hdrq, y.body = body ∧ y.slots = 1 + (cf ws 3 0 13 + 63) / 64) ∧
      t.planned (s.wtc + (s.pkg p).rtimeout.toNat) (.ringTimeout p i))

/-- What a ring message or its acknowledgement says. -/
def PBody.ring? : PBody → Option (Nat × Nat × Nat × Nat × Nat × List Byte × Nat)
  | .ring core card dcore num len bs src => some (core, card, dcore, num, len, bs, src)
  | _ => none
def PBody.ringAck? : PBody → Option (Nat × Nat × Bool)
  | .ringAck core card ok => some (core, card, ok)
  | _ => none

/-- The answer to a message of the own package is on its way over the torus (R296). -/
def answered (p : Nat) (x : Packet) (core card dcore : Nat) (ok : Bool) (s t : State) : Prop :=
  x.src = (s.pkg p).num → ∃ y ∈ t.packets, y.body = .ringAck core card ok ∧
    t.planned (s.wtc + 20 + torus core dcore) (.ringAckArrival p y.id)

/-- RING_MESSAGE_ARRIVAL (R295, R296): the live ring takes a message of its producer that fits, its header of LEN, source,
core and number before the payload; any other is refused and counted in RINGDROP. Inside the package the answer takes the
torus. -/
def ringArrivalRule (p i : Nat) (s t : State) : Prop :=
  ∀ x ∈ s.packet? i, ∀ b ∈ x.body.ring?,
    let dcore := b.2.2.1
    let len := b.2.2.2.2.1
    let size := (8 + len + 7) / 8 * 8
    256 * p + dcore < s.cores.length →
    (∀ r ∈ s.ring? p dcore b.2.2.2.1, s.ringTakes p dcore r x.src b.2.2.2.2.2.2 size = true →
      (∃ w ∈ (t.core p dcore).ringWrites.getLast?, w.pkt = i ∧ w.size = size ∧ w.ring = b.2.2.2.1 ∧
        w.data.take 8 = natBytes 2 len ++ natBytes 1 x.src ++ natBytes 1 b.2.2.2.2.2.2 ++ natBytes 4 r.count ∧
        (w.data.drop 8).take b.2.2.2.2.2.1.length = b.2.2.2.2.2.1) ∧
      t.planned (firstPhase (s.wtc + 40) 8 3) (.ringChunkWrite p dcore i 0) ∧ answered p x b.1 b.2.1 dcore true s t) ∧
    ((s.ring? p dcore b.2.2.2.1).all (fun r => !s.ringTakes p dcore r x.src b.2.2.2.2.2.2 size) = true →
      (t.core p dcore).ringWrites = (s.core p dcore).ringWrites ∧ answered p x b.1 b.2.1 dcore false s t ∧
      (t.core p dcore).ringdrop = if (s.core p dcore).ringdrop = BitVec.allOnes 32 then BitVec.allOnes 32
        else (s.core p dcore).ringdrop + 1)

/-- RING_CHUNK_WRITE (R287, R296): chunk k of the first message is in its ring, at the place its bytes fall to, in a cycle the
landing buffer leaves; behind the last chunk HEAD has advanced by the message, and a credit follows a cycle later. -/
def ringWriteRule (p c i k : Nat) (s t : State) : Prop :=
  ∀ w ∈ (s.core p c).ringWrites.head?, w.pkt = i → ∀ r ∈ s.ring? p c w.ring,
    let o := (w.from_ + 1024 * k) % 2 ^ r.log2
    let bs := (w.data.drop (1024 * k)).take 1024
    (w.data.length ≤ 1024 * k →
      t.rd p (lsPa c r.ctl) 4 = (s.rd p (lsPa c r.ctl) 4 + w.size) % 2 ^ 32 ∧ (∀ y ∈ (t.core p c).ringWrites, y.pkt ≠ i) ∧
      (r.bar.getLsbD 31 = true → t.planned (s.wtc + 1) (.engineCredit p c 4 (r.lsBase + r.bar.toNat % 2 ^ 21) w.size))) ∧
    (1024 * k < w.data.length → (s.core p c).landing.any (fun x => x.cyc + 4 ≤ s.wtc) = true →
      t.mem = s.mem ∧ t.planned (firstPhase (s.wtc + 1) 8 3) (.ringChunkWrite p c i k)) ∧
    (1024 * k < w.data.length → (s.core p c).landing.any (fun x => x.cyc + 4 ≤ s.wtc) = false → o + bs.length ≤ 2 ^ r.log2 →
      (∀ j ∈ List.range bs.length, some (memByte t.mem (s.pod p (lsPa c (r.base + o) + j))) = bs[j]?) ∧
      t.planned (if w.data.length ≤ 1024 * (k + 1) then s.wtc + 1 else firstPhase (s.wtc + 1) 8 3)
        (.ringChunkWrite p c i (k + 1)))

/-- The outcome of a message at its source (R296): FSTAT has the bits, and the card's object is credited now. -/
def outcome (p c : Nat) (k : Card) (bits : Word) (s t : State) : Prop :=
  (∀ u ∈ s.team? k.team, ∀ z ∈ t.team? k.team, z.csr.fstat = u.csr.fstat ||| bits) ∧
  (∀ y ∈ t.card? p c k.id, y.count = 2) ∧
  ∀ z ∈ cardCredit 3 k.words, ∃ d ∈ t.due.head?, d = .op (.engineCredit p c 4 (s.cardBase k + z.1) z.2)

/-- RING_ACK_ARRIVAL (R296): 40 cycles after the acknowledgement the outcome stands, a refusal as FSTAT.RDROP. -/
def ringAckRule (p i : Nat) (s t : State) : Prop :=
  ∀ x ∈ s.packet? i, ∀ b ∈ x.body.ringAck?,
    (x.taken = 0 → t.planned (s.wtc + 40) (.ringAckArrival p i) ∧ t.teams = s.teams) ∧
    (x.taken ≠ 0 → (∀ y ∈ t.packets, y.id ≠ i) ∧
      ∀ k ∈ s.card? p b.1 b.2.1, k.count = 1 → outcome p b.1 k (if b.2.2 then 0 else 1) s t)

/-- RING_TIMEOUT (R296): without an acknowledgement by then, FSTAT.RTO is set. -/
def ringTimeoutRule (p i : Nat) (s t : State) : Prop :=
  ∀ z ∈ s.cardCore p i,
    let acked := s.packets.any fun x => x.taken ≠ 0 && x.body.ringAck?.any fun b => b.1 = z.1 && b.2.1 = i
    if z.2.count = 1 ∧ acked = false then outcome p z.1 z.2 2 s t else t = s

/-- QUIET_CHECK (R297): with nothing of the gang in flight on the core, QPOINT and QCYC of its teams there hold the card's
identifier and this cycle; else the fault is NOTQUIET. -/
def quietCheckRule (p c i : Nat) (s t : State) : Prop :=
  ∀ k ∈ s.card? p c i,
    if s.quietCore p c k = true then
      ∀ z ∈ t.teams, z.pl.gang = k.gang → z.pl.pkg = p → z.pl.core = c →
        z.csr.qpoint = k.words.getD 2 0 ∧ z.csr.qcyc = BitVec.ofNat 32 s.wtc
    else faultDue p c 10 k s t

/-! ### The schedule and time -/

/-- The 32 bytes of a record leave for the next place of the package's trap record ring; `w` is its word at offset 12 (R326). Where
the ring lies and when its writes come is entry 27, the model's choice. -/
def ringed (r : Record) (w : Nat) (s t : State) : Prop :=
  let x := s.pkg r.pkg
  let pa := x.recBase + 32 * (x.recNext % 2 ^ x.recLog)
  (t.pkg r.pkg).recNext = x.recNext + 1 ∧ ∃ d : List Byte, d.length = 32 ∧ bytesNat (d.take 8) = r.wtc % 2 ^ 64 ∧
    bytesNat ((d.drop 8).take 4) = r.seq % 2 ^ 32 ∧ bytesNat ((d.drop 12).take 4) = w ∧
    bytesNat ((d.drop 16).take 4) = r.tval.toNat ∧ bytesNat ((d.drop 20).take 4) = r.tvalh.toNat ∧
    bytesNat ((d.drop 24).take 4) = r.tepc.toNat ∧ bytesNat (d.drop 28) = r.tpass.toNat ∧
    ∃ g ∈ t.gathers, g.pkg = r.pkg ∧ t.planned (s.wtc + 200) (.gatherPacketArrival g.id) ∧
      g.segs = [(pa, ⟨0, 0, 1, false, .trapRec pa x.recNext d⟩)]

/-- SCHEDULE_FAULT (R300 to R302, R326, R373): one record with cause SCH and the kind, FCNT one higher, and under a schedule a halt
boundary at least 96 cycles and twice the longest link ahead. That the package adopts and broadcasts the halt in this very cycle is
entry 49, and that core number 256 stands for the hub, which the ring shows as 0xFF, entry 50: the model's choices. -/
def schedFaultRule (p kind core slot ctx : Nat) (s t : State) : Prop :=
  p < s.pkgs.length →
  (t.pkg p).fcnt = min ((s.pkg p).fcnt + 1) 65535 ∧
  (∃ r ∈ t.records.getLast?, t.records.length = s.records.length + 1 ∧ r.pkg = p ∧ r.wtc = s.wtc ∧ r.core = core ∧ r.slot = slot ∧
    r.imp = false ∧ r.cause = cSCH ∧ r.level = 0 ∧ r.ctx = ctx ∧ r.tval = BitVec.ofNat 32 (kind + 256 * (s.pkg p).num) ∧
    (core ≤ 256 → slot < 128 → ctx < 256 →
      ringed r ((if core = 256 then 255 else core) + 2 ^ 8 * slot + 2 ^ 16 * cSCH + 2 ^ 24 * ctx) s t)) ∧
  ((s.pkg p).schedAt s.wtc = none → (t.pkg p).halt = (s.pkg p).halt) ∧
  ∀ y ∈ (s.pkg p).schedAt s.wtc, (s.pkg p).halt = none →
    let n := s.wtc + 96 + 2 * s.dmax
    let b := (n + 2 ^ y.flog - 1) / 2 ^ y.flog * 2 ^ y.flog
    (t.pkg p).halt = some (b, (s.pkg p).num, kind) ∧ t.planned b (.haltAtBoundary p) ∧
    ∀ k ∈ List.range 32, ∀ _q ∈ s.partner p k, ∃ x ∈ (t.port p k).halts.getLast?, x.body = .halt b (s.pkg p).num kind

/-- HALT_RECEIPT (R302): the earlier boundary stands, then the lower origin; a row partner of the origin passes it on through
its column ports. -/
def haltRule (p b orig kind : Nat) (s t : State) : Prop :=
  p < s.pkgs.length → ((s.pkg p).schedAt s.wtc).isSome = true →
    (((s.pkg p).halt.all fun h => b < h.1 || (b = h.1 && orig < h.2.1)) = true →
      (t.pkg p).halt = some (b, orig, kind) ∧ t.planned (max b s.wtc) (.haltAtBoundary p)) ∧
    (((s.pkg p).halt.any fun h => h.1 < b || (h.1 = b && h.2.1 ≤ orig)) = true → (t.pkg p).halt = (s.pkg p).halt) ∧
    ((s.pkg p).num / 16 = orig / 16 → (s.pkg p).num ≠ orig → ∀ k ∈ List.range 16, ∀ _q ∈ s.partner p (16 + k),
      ∃ x ∈ (t.port p (16 + k)).halts.getLast?, x.body = .halt b orig kind)

/-- HALT_AT_BOUNDARY (R303): the package is HALTED; its timed cards that have not started are gone, and every team of a timed
gang leaves its waits, but for fences, and gets SCH with the kind and origin. -/
def haltedRule (p : Nat) (s t : State) : Prop :=
  ∀ h ∈ (s.pkg p).halt, h.1 ≤ s.wtc → (s.pkg p).halted = false →
    (t.pkg p).halted = true ∧
    (∀ c ∈ List.range 256, ∀ k ∈ (t.core p c).cards, cTmd k.words = true → k.start ≠ none) ∧
    ∀ m ∈ s.timedTeams p, s.team? m.id = some m → m.stopped = false → (s.teams.map (·.id)).Nodup → ∀ z ∈ t.team? m.id,
      z.waits = m.waits.filter (!·.haltable) ∧
      ∃ e ∈ z.events, e.order = 2 ∧ e.cause = cSCH ∧ e.imp = false ∧ e.tval = BitVec.ofNat 32 (h.2.2 + 256 * h.2.1)

/-- RESTART (R304): in cycle RS the package's timed teams may run again. -/
def restartRule (p : Nat) (s t : State) : Prop :=
  if (s.pkg p).rs = some s.wtc then p < s.pkgs.length → (t.pkg p).rs = none else t = s

/-- FRAME_BOUNDARY (R284, R285, R374): the table whose boundary has come is in force, and its request answered; the accounts of the
frame are at zero. -/
def frameRule (p : Nat) (s t : State) : Prop :=
  p < s.pkgs.length → (t.pkg p).slackM = [] ∧ (t.pkg p).slackH = [] ∧ (t.pkg p).sched = (s.pkg p).schedAt s.wtc ∧
    (∀ x ∈ (s.pkg p).next, x.from_ ≤ s.wtc → (t.pkg p).next = none ∧
      ∀ tag ∈ (s.pkg p).nextTag, ⟨p, tag, 0, s.wtc, []⟩ ∈ t.responses) ∧
    ∀ x ∈ (s.pkg p).schedAt s.wtc, s.wtc % 2 ^ x.flog = 0 → t.planned (s.wtc + 2 ^ x.flog) (.frameBoundary p)

/-- The difference of an island in cycle n: one count less every 256 cycles since its pulse, none below zero (R306). -/
def slewed (x : Int × Nat) (n : Nat) : Int :=
  let k : Int := ((n - x.2) / 256 : Nat)
  if x.1 ≤ 0 then min 0 (x.1 + k) else max 0 (x.1 - k)

/-- CORRECTION_PULSE (R27, R306): each island of the die has the difference its pulse finds, or what is left of its last one; two
islands of a package more than two counts apart raise SKEW. -/
def pulseRule (p die : Nat) (diffs : List Int) (s t : State) : Prop :=
  p < s.pkgs.length →
    (∀ j ∈ List.range 33, ∀ i ∈ (islandsOf die)[j]?, ∀ x ∈ (s.pkg p).slew[i]?,
      (t.pkg p).slew[i]? = some (diffs.getD j (slewed x s.wtc), s.wtc)) ∧
    ((∀ a ∈ (t.pkg p).slew, ∀ b ∈ (t.pkg p).slew, slewed a s.wtc - slewed b s.wtc ≤ 2) → t.due = s.due) ∧
    ((∃ a ∈ (t.pkg p).slew, ∃ b ∈ (t.pkg p).slew, 2 < slewed a s.wtc - slewed b s.wtc) →
      t.due = .op (.scheduleFault p 13 256 0 0) :: s.due)

/-- TIMESTAMP_EXCHANGE (R27, R306): a skew beyond 8 cycles is a fault of kind SKEW. -/
def skewRule (p : Nat) (skew : Int) (s t : State) : Prop :=
  (p < s.pkgs.length → (t.pkg p).refAdj = (s.pkg p).refAdj + skew) ∧
    t.due = if 8 < skew.natAbs then .op (.scheduleFault p 13 256 0 0) :: s.due else s.due

/-- PTP_MESSAGE (R306, R361): only the time root notes the offset, and steers by it only while no schedule is in force. -/
def ptpRule (p : Nat) (o : Int) (s t : State) : Prop :=
  p < s.pkgs.length →
    (t.pkg p).ptpOffset = (if (s.pkg p).timeRoot = true then o else (s.pkg p).ptpOffset) ∧
    (t.pkg p).refAdj = (if (s.pkg p).timeRoot = true ∧ (s.pkg p).schedAt s.wtc = none then (s.pkg p).refAdj - o
      else (s.pkg p).refAdj)

/-! ### Control registers -/

/-- A register after a CSR word (R318): its writable bits take the operand, the old value with the operand's bits set, or with
them cleared; a bit that a 1 clears is cleared by `csrw` and `csrs`; every other bit stays. -/
def written (kind : CsrKind) (cur old x rw w1c : Word) : Word :=
  let new := match kind with | .write => x | .set => old ||| x | .clear => old &&& ~~~ x
  let gone := match kind with | .clear => 0 | _ => x &&& w1c
  (new &&& rw) ||| (cur &&& ~~~ rw &&& ~~~ gone)

/-- The registers a CSR word writes in place, with their writable bits and those a 1 clears: FFLAGS, TRAPEN, RSTAT, FRM, MSTAT,
HSTAT, QSTAT, FSTAT, the watchpoint, and of each trap level TCAUSE, TEPC, TPASS, TVAL, TVALH, TSAVE, TVEC (R315). -/
def csrMasks : List (Nat × Word × Word) :=
  [(0x001, 0x1F, 0), (0x002, 0x71F, 0), (0x003, 0, 7), (0x005, 3, 0), (0x201, 0xFF00, 0xFF), (0x202, 0, 1), (0x206, 0, 0x1F),
   (0x207, 0, 3), (0x310, 0x1FFFFF, 0), (0x311, 0xF7, 0), (0x312, 0, 3)] ++
  ([0x100, 0x110].flatMap fun b => [(b + 1, 0x31F, 0), (b + 2, 0xFFFF, 0), (b + 3, 0xF3F, 0), (b + 4, 0xFFFFFFFF, 0),
    (b + 5, 0xFFFFFFFF, 0), (b + 7, 0x1FFFC0, 0), (b + 8, 0x8000FFFF, 0)])

/-- CSR_WRITE (R318): the register takes its new value; TUBAGE and the hash masks take theirs through their own steps; RTIMEOUT
stores at least 1,024; a register that cannot be written stays. -/
def csrRule (n k : Nat) (kind : CsrKind) (old x : Word) (s t : State) : Prop :=
  ∀ m ∈ s.team? n,
    let p := m.pl.pkg
    (∀ e ∈ csrMasks, e.1 = k → ∀ z ∈ t.team? n, csrRead t z k = written kind (csrRead s m k) old x e.2.1 e.2.2) ∧
    ((s.ctx? p (s.gangCtx m.pl.gang)).isSome = true → (k = 0x021 ∨ k = 0x023) → ∀ z ∈ t.team? n,
      csrRead t z k = written kind (csrRead s m k) old x (if k = 0x021 then 0xFFFFFF1F else 0xFFFFFFFF) 0) ∧
    (k = 0x030 → p < s.pkgs.length →
      (t.pkg p).rtimeout.toNat = max 1024 (written kind (s.pkg p).rtimeout old x 0xFFFFFFF 0).toNat) ∧
    (k = 0x020 → t.due = .op (.tubageWrite p (written kind (s.pkg p).tubage old x 0x1FFF 0)) :: s.due) ∧
    (0x300 ≤ k → k ≤ 0x307 → t.due = .op (.hashmHeldWrite p (k - 0x300) (written kind old old x 0xFFFFFFFF 0)) :: s.due) ∧
    (k = 0x308 → t.due = .op (.hashm8Apply p (written kind old old x 0xFFFFFFFF 0)) :: s.due) ∧
    ((csrMasks.all (·.1 ≠ k) && k ≠ 0x020 && k ≠ 0x021 && k ≠ 0x023 && k ≠ 0x030 && (k < 0x300 || 0x308 < k)) = true → t = s)

/-- HASHM_HELD_WRITE (R159): the mask is held, and the set in force stays. -/
def heldRule (p k : Nat) (x : Word) (s t : State) : Prop :=
  p < s.pkgs.length → (t.pkg p).hashm = (s.pkg p).hashm ∧
    (k < (s.pkg p).hashHeld.length → k < (s.pkg p).held.length → (t.pkg p).hashHeld[k]? = some x ∧ (t.pkg p).held[k]? = some true)

/-- HASHM8_APPLY (R158, R159): the held masks, those in force elsewhere, and this one are in force together where they obey R158;
else the set in force stays. Nothing is held any more, which for a set that breaks R158 is the model's choice, entry 81. -/
def hashRule (p : Nat) (x : Word) (s t : State) : Prop :=
  p < s.pkgs.length →
    let y := s.pkg p
    let set := (List.range 9).map fun k => if k = 8 then x else if y.held.getD k false then y.hashHeld.getD k 0 else y.hashm.getD k 0
    (t.pkg p).hashm = (if hashOk set = true then set else y.hashm) ∧ (t.pkg p).held = List.replicate 9 false ∧
      (hashOk set = false → t.mem = s.mem)

/-- TUBAGE_WRITE (R174, R189): between 64 and 4,096, and every OPEN tub will be looked at as its oldest element comes to that
age. -/
def tubageRule (p : Nat) (x : Word) (s t : State) : Prop :=
  p < s.pkgs.length → (t.pkg p).tubage.toNat = max 64 (min 4096 x.toNat) ∧
    ∀ k ∈ List.range (min 64 (s.pkg p).tubs.length), (s.tubAt p k).st = 1 → ∀ e ∈ (s.tubAt p k).elems.head?,
      t.planned (max s.wtc (e.ins + max 64 (min 4096 x.toNat))) (.ageTrigger p k)

/-- TUBERR_RECORD_WRITE (R182, R183, R345): the first record not yet issued is lost where the ring has no room for it; with its
place in device memory it leaves as a write that arrives 200 cycles on; at an LS it is there 40 cycles later, and counted in the
cycle after. -/
def recordRule (i : Nat) (s t : State) : Prop :=
  ∀ x ∈ s.recordCtx i, s.ctx? x.pkg x.num = some x → ∀ r ∈ x.pend.find? (·.id = i),
    (r.issued = false → x.pend.find? (!·.issued) = some r → x.ringRoom x.nextIndex = false →
      (∀ y ∈ t.ctx? x.pkg x.num, ∀ z ∈ y.pend, z.id ≠ i) ∧ (∀ z ∈ t.team? r.team, z.csr.rstat.getLsbD 2 = true) ∧
      ∃ e ∈ t.notices, e = ⟨x.pkg, 5, r.team, 1, s.wtc⟩) ∧
    (r.issued = false → x.pend.find? (!·.issued) = some r → x.ringRoom x.nextIndex = true → ∀ m ∈ s.team? r.team,
      ∀ pa ∈ s.ownRead x.pkg (s.xlate x.pkg m.pl.core x.num (x.recordVa x.nextIndex) .wr),
      (∀ y ∈ t.ctx? x.pkg x.num, ∀ z ∈ y.pend, z.id = i →
        z.issued = true ∧ z.h = x.nextIndex ∧ z.pa = pa ∧ z.due = s.wtc + 40) ∧
      match homeOf pa with
      | .hbm => ∃ g ∈ t.gathers, g.pkg = x.pkg ∧ g.segs = [(pa, ⟨0, 0, 1, false, .record pa r.data i⟩)] ∧
          t.planned (s.wtc + 200) (.gatherPacketArrival g.id)
      | .ls _ _ => t.planned (s.wtc + 40) (.tuberrRecordWrite i)
      | _ => True) ∧
    (r.issued = true → r.ls = true → s.wtc < r.due → t = s) ∧
    (r.issued = true → r.ls = true → r.written = false → r.due ≤ s.wtc → ∀ o ∈ (match homeOf r.pa with | .ls c off => some (c, off) | _ => none),
      t.planned (s.wtc + 1) (.tuberrHeadAdvance i) ∧
      ∀ j ∈ List.range r.data.length, some (memByte t.mem (s.pod x.pkg (lsPa o.1 o.2 + j))) = r.data[j]?)

/-- TUBERR_HEAD_ADVANCE (R183, R184): HEAD passes a written record at its place, which is reported in RF of its team. -/
def headRule (i : Nat) (s t : State) : Prop :=
  ∀ x ∈ s.recordCtx i, s.ctx? x.pkg x.num = some x → ∀ r ∈ x.pend.find? (fun r => r.issued && r.h = x.tuberrH.toNat),
    if r.written = true then x.pend.length = 1 → ∀ y ∈ t.ctx? x.pkg x.num, y.tuberrH = x.tuberrH + 1 ∧ y.pend = [] ∧
      ∀ z ∈ t.team? r.team, z.csr.rstat.getLsbD 1 = true
    else t = s

end Sys2Proof.Machine

/-- R279, R287, R289, R290, R292, R293, R295 to R297: scheduled slots, receive rings and quiet points.
Readings of the model are entries 58 and 59. -/
def Obligations.FabricSteps : Prop :=
  ∀ (s : State) (p c i k : Nat),
    Gives (.sendatChunkRead p c i k) s (chunkReadRule p c i k) ∧ Gives (.scheduledSlotSend p c i k) s (slotSendRule p c i k) ∧
    Gives (.slotDelivery p i) s (deliveryRule p i) ∧ Gives (.landingWrite p c) s (landingRule p c) ∧
    Gives (.ringMessageDeparture p c i) s (departRule p c i) ∧ Gives (.ringMessageArrival p i) s (ringArrivalRule p i) ∧
    Gives (.ringChunkWrite p c i k) s (ringWriteRule p c i k) ∧ Gives (.ringAckArrival p i) s (ringAckRule p i) ∧
    Gives (.ringTimeout p i) s (ringTimeoutRule p i) ∧ Gives (.quietCheck p c i) s (quietCheckRule p c i)

/-- R27, R284, R285, R300 to R304, R306, R326, R361, R373, R374: schedule faults, halts, frames and the keeping of time.
That the detecting package adopts and broadcasts the halt in the cycle of detection is entry 49, the hub's core number 256 entry 50,
the place and timing of the trap record ring entry 27, what the pulses find entry 77: the model's choices. -/
def Obligations.ScheduleSteps : Prop :=
  ∀ (s : State) (p k c slot x : Nat) (o : Int) (diffs : List Int),
    Gives (.scheduleFault p k c slot x) s (schedFaultRule p k c slot x) ∧ Gives (.haltReceipt p c slot k) s (haltRule p c slot k) ∧
    Gives (.haltAtBoundary p) s (haltedRule p) ∧ Gives (.restart p) s (restartRule p) ∧
    Gives (.frameBoundary p) s (frameRule p) ∧ Gives (.correctionPulse p ⟨k, diffs⟩) s (pulseRule p k diffs) ∧
    Gives (.timestampExchange p o) s (skewRule p o) ∧ Gives (.ptpMessage p o) s (ptpRule p o)

/-- R158, R159, R174, R182 to R184, R189, R318, R345: what writes to control registers do, and the TUBERR ring.
That the held masks go with a set that breaks R158 is entry 81, the model's choice. -/
def Obligations.RegisterSteps : Prop :=
  ∀ (s : State) (n k p : Nat) (kind : CsrKind) (old x : Word),
    Gives (.csrWrite n k kind old x) s (csrRule n k kind old x) ∧ Gives (.hashmHeldWrite p k x) s (heldRule p k x) ∧
    Gives (.hashm8Apply p x) s (hashRule p x) ∧ Gives (.tubageWrite p x) s (tubageRule p x) ∧
    Gives (.tuberrRecordWrite n) s (recordRule n) ∧ Gives (.tuberrHeadAdvance n) s (headRule n)

namespace Sys2Proof.Machine

/-! ### Shift change -/

/-- SWITCH (R327, R329, R330): at T′ the outgoing gang is in SPILL and the incoming one in RUN; on every core not held by a
clause of the outgoing gang, the incoming teams are ready 96 cycles on, and the spill begins then; a request of the resident service is answered (R374). -/
def switchRule (g : Nat) (s t : State) : Prop :=
  ∀ o ∈ s.gang? g, ∀ w ∈ o.switch, w.t' = some s.wtc → o.state = .run → o.killAt = none → w.incoming ≠ g →
    ∀ y ∈ s.gang? w.incoming, y.state = .shadow → y.killAt = none →
      (∀ z ∈ t.gang? g, z.state = .spill ∧ z.saves.map (·.core) = (s.gangCores g).map (·.2)) ∧
      (∀ z ∈ t.gang? w.incoming, z.state = .run) ∧ (∀ tag ∈ w.tag, ⟨o.pkg, tag, 0, s.wtc, []⟩ ∈ t.responses) ∧
      ∀ c ∈ s.gangCores g, s.runsGang c.1 c.2 g = false → t.planned (s.wtc + 96) (.spill c.1 c.2 g 0) ∧
        ∀ z ∈ t.teams, z.pl.gang = w.incoming → z.pl.pkg = c.1 → z.pl.core = c.2 → s.wtc + 96 ≤ z.readyAt

/-- The bytes a segment of a save image writes, with their address. -/
def SegOp.saved : SegOp → Option (Nat × List Byte)
  | .spill _ _ pa bs => some (pa, bs)
  | _ => none

/-- Bytes leave the save port of a core for the image from an address on, and reach the pseudo-channels in a cycle (R331, R153). -/
def savedTo (p pa cyc : Nat) (bs : List Byte) (t : State) : Prop :=
  ∃ x ∈ t.gathers.getLast?, x.pkg = p ∧ t.planned cyc (.gatherPacketArrival x.id) ∧
    (x.segs.filterMap (·.2.op.saved)).flatMap (·.2) = bs ∧ ((x.segs.filterMap (·.2.op.saved)).head?.all (·.1 = pa)) = true

/-- SPILL (R331): chunk k of the gang's storage on the core leaves for its place in the image 8 cycles on, and the next is read
a cycle later; the first waits while a card of the gang is in flight, the control block while a reply is owed. -/
def spillRule (p c g k : Nat) (s t : State) : Prop :=
  ∀ x ∈ s.gang? g, x.state = .spill → x.killAt = none →
    let l := s.chunks g p c
    (k = 0 → s.cardsInFlight p c g = true → t.planned (s.wtc + 1) (.spill p c g 0) ∧ t.gathers = s.gathers) ∧
    ((k ≠ 0 ∨ s.cardsInFlight p c g = false) → ∀ z ∈ l[k]?,
      savedTo p (x.imageOf c + chunkOffset l k) (s.wtc + 208) (s.chunkBytes p c z) t ∧
      t.planned (s.wtc + 1) (.spill p c g (k + 1)) ∧
      ∀ y ∈ t.gang? g, ∀ v ∈ y.saves, v.core = c → v.next = k + 1) ∧
    (l ≠ [] → k = l.length → s.repliesOwed p c g = true → t.planned (s.wtc + 1) (.spill p c g k) ∧ t.gathers = s.gathers) ∧
    (l ≠ [] → l.length ≤ k → (k = l.length → s.repliesOwed p c g = false) →
      if k < l.length + 3 then t.planned (s.wtc + 1) (.spill p c g (k + 1))
      else ∀ y ∈ t.gang? g, ∀ v ∈ y.saves, v.core = c → v.readDone = true)

/-- SPILL_COMPLETE (R327, R331, R333): with every image written the gang is OUT; one whose watchdog has expired will be killed
instead. -/
def spilledGangRule (g : Nat) (s t : State) : Prop :=
  ∀ x ∈ s.gang? g, x.state = .spill → x.killAt = none → x.saves.all (·.finished) = true → ∀ y ∈ t.gang? g,
    if x.wdogHit = true then x.ended = 0 → y.killAt = some s.wtc ∧ y.killCause = BitVec.ofNat 32 cWDG
    else y.state = .out ∧ y.switch = none ∧ y.objs = (s.gangObjs g).map (·.2) ∧ ∀ o ∈ t.objs, o ∉ s.gangObjs g

/-- What one read of an image puts back on a core (R331): bs are its bytes. -/
def putBack (p c : Nat) (bs : List Byte) (s t : State) : Chunk → Prop
  | .v n k => ∀ m ∈ s.team? n, ∀ z ∈ t.team? n, let per := m.pl.vregs / 8
      k < m.pl.warps * per → ∀ j ∈ List.range 256, let d := k % per * 8 + j / 32
        let l := k / per * 32 + j % 32
        d < m.vr.length → l < (m.vr.getD d []).length → (z.vr.getD d []).getD l 0 = word j
  | .u n k => ∀ m ∈ s.team? n, ∀ z ∈ t.team? n, ∀ j ∈ List.range 64, 64 * k + j < m.ur.length →
      z.ur[64 * k + j]? = some (word j)
  | .ls off => t.rd p (lsPa c off) 1024 = bytesNat bs
  | .acc tile part => ∀ e ∈ List.range 256,
      accWord t.acc (accIx p c tile (256 * part + e)) = word e
  | .ctl _ => True
where word (j : Nat) : Word := BitVec.ofNat 32 (bytesNat ((bs.drop (4 * j)).take 4))

/-- A read of an image has its bytes, and its place in the storage of one core. -/
def imageRead (z : Nat × FillRead) : Bool :=
  z.1 < 256 && z.2.data.length = z.2.chunk.size &&
    match z.2.chunk with | .ls off => off + 1024 ≤ 0x180000 | .acc tile part => tile < 192 && part < 16 | _ => true

/-- The bytes a segment of a fill asks for: gang, read, address, number. -/
def SegOp.filled : SegOp → Option (Nat × Nat × Nat × Nat)
  | .fill g i pa n => some (g, i, pa, n)
  | _ => none

/-- The oldest read of a core's image that is put back now, and the reads that stay. -/
def FillSt.back (f : FillSt) (now : Nat) : Option FillRead := f.reads.head?.filter fun r => r.due.any (· ≤ now)
def FillSt.rest (f : FillSt) (now : Nat) : List FillRead := if (f.back now).isSome then f.reads.tail else f.reads

/-- FILL_COMPLETE (R327, R331, R333): every core of a gang in FILL puts back the oldest read of its image whose bytes have come, and
sends the next, to arrive at the pseudo-channels 200 cycles on (R153); the gang is SHADOW with the last, and goes on in the next cycle
before. Where in the cycle, and one read a cycle, is entry 12, the model's choice. -/
def filledRule (g : Nat) (s t : State) : Prop :=
  ∀ x ∈ s.gang? g, if x.state ≠ .fill ∨ x.killAt ≠ none then t = s
    else
      let now := x.fills.filterMap fun f => (f.back s.wtc).map fun r => (f.core, r)
      (∀ y ∈ t.gang? g, if (x.fills.all fun f => f.todo.isEmpty && (f.rest s.wtc).isEmpty) = true then
          y.state = .shadow ∧ y.fills = []
        else y.state = .fill ∧ t.planned (s.wtc + 1) (.fillComplete g) ∧
          y.fills.map (fun f => (f.core, f.todo, f.reads.map fun r => (r.pa, r.chunk))) = x.fills.map fun f =>
            (f.core, f.todo.tail, (f.rest s.wtc).map (fun r => (r.pa, r.chunk)) ++ f.todo.head?.toList)) ∧
      (∀ f ∈ x.fills, ∀ z ∈ f.todo.head?, ∃ q ∈ t.gathers, q.pkg = x.pkg ∧ t.planned (s.wtc + 200) (.gatherPacketArrival q.id) ∧
        let asked := q.segs.filterMap (·.2.op.filled)
        asked.length = q.segs.length ∧ (asked.map (·.2.2.2)).sum = z.2.size ∧ (∀ a ∈ asked, a.1 = g) ∧
          asked.head?.all (·.2.2.1 = z.1) = true) ∧
      (memWf s.mem → (x.fills.map (·.core)).Nodup → now.all imageRead = true → ∀ z ∈ now,
        (match z.2.chunk with | .v _ _ | .u _ _ => ∀ u ∈ now, u.2.chunk = z.2.chunk → u = z | _ => True) →
        putBack x.pkg z.1 z.2.data s t z.2.chunk)

/-! ### Start-up, power and identity -/

/-- The request is answered with a status (R363). -/
def status (p tag n : Nat) (s t : State) : Prop := t.responses = s.responses ++ [⟨p, tag, n, s.wtc, []⟩]

/-- The ports of a package number that have a partner in the pod and trained are up with its measured delay; the others are down and read 0
(R280, R350). -/
def trained (p num : Nat) (l : List (Nat × Nat)) (t : State) : Prop :=
  (l.map (·.1)).Nodup → ∀ k ∈ List.range 32, ((t.port p k).up = (l.any (·.1 = k) && t.partnered num k)) ∧
    ∀ w ∈ l, w.1 = k → (t.port p k).delay = if t.partnered num k = true then 3 * w.2 + 32 else 0

/-- COLD_START (R350): nothing of the package is resident, nothing is written in its memory, and it is ready with its trained
ports, or stopped with the code of the step that failed. The first package of a pod starts its count at 0 and is its time root (R306); that the
packages of the state are one pod, whose count a package that becomes ready has in any case, is entry 77, the model's choice. -/
def coldRule (b : BootFacts) (s t : State) : Prop :=
  let p := min b.pkg s.pkgs.length
  (∀ x ∈ t.gangs, x.pkg ≠ p) ∧ (∀ x ∈ t.teams, x.pl.pkg ≠ p) ∧ (∀ x ∈ t.ctxs, x.pkg ≠ p) ∧
  (∀ c ∈ t.mem, c.1 / 2 ^ 48 ≠ b.num) ∧
  (t.pkg p).num = b.num ∧ (t.pkg p).boot = (if b.fail = 0 then 0x80 else min b.fail 7) ∧
  (t.outbound.any fun e => e.pkg = p && e.kind = 10 && e.a = (if b.fail = 0 then 0x80 else min b.fail 7)) = true ∧
  (b.fail = 0 → let others : Prop := ∃ q ∈ List.range s.pkgs.length, q ≠ p ∧ (s.pkg q).boot = 0x80
    t.wtc = (if others then s.wtc else if b.joins = true then b.count else 0) ∧
      ((t.pkg p).timeRoot = true ↔ b.joins = false ∧ ¬ others)) ∧
  (b.fail = 0 → trained p b.num b.ports t)

/-- The steps a warm start runs (R351): 1 where the retained image is another, 2, 4 where voltage or temperature are far from the
last calibration's, 5 where a check pattern reads back wrong, 6 and 7. -/
def warmRuns (w : WarmFacts) (n : Nat) : Bool :=
  (n = 1 && !w.same) || n = 2 || (n = 4 && (10 < w.dv.natAbs || 5 < w.dt.natAbs)) || (n = 5 && w.mismatch) || n = 6 || n = 7

/-- RESET (R351): every gang of the package has ended KILLED and is gone, its cores are as at reset, and it is ready with its links
trained anew; the first step that is run and fails stops it with its code. How such a start is answered, and that RESET is the one request with
an effect on a package that is not ready, is entry 95, the model's choice. -/
def warmRule (p : Nat) (w : WarmFacts) (s t : State) : Prop :=
  let code := ((List.range 8).find? fun n => warmRuns w n && w.bad.contains n).getD 0
  p < s.pkgs.length →
    (∀ x ∈ t.gangs, x.pkg ≠ p) ∧ (∀ x ∈ t.teams, x.pl.pkg ≠ p) ∧ (∀ x ∈ t.ctxs, x.pkg ≠ p) ∧
    (t.pkg p).num = (s.pkg p).num ∧ (t.pkg p).tubage = 512 ∧ (t.pkg p).rtimeout = 0x001312D0 ∧ (t.pkg p).hashm = hashm0 ∧
    (∀ g ∈ s.gangs, g.pkg = p → ∃ e ∈ t.notices, e.pkg = p ∧ e.kind = 1 ∧ e.a = g.tag ∧ e.b = 3) ∧
    (t.pkg p).boot = (if code = 0 then 0x80 else code) ∧ (code = 0 → trained p (s.pkg p).num w.ports t) ∧
    t.responses = s.responses ++ if code = 1 ∨ code = 2 then [] else [⟨p, w.tag, if code = 0 then 0 else 3, t.wtc, []⟩]

/-- The fault POWER waits for its report, and the package throttles (R349, R355). -/
def powered (p : Nat) (s t : State) : Prop :=
  t.due = .op (.scheduleFault p 12 256 0 0) :: s.due ∧ (p < s.pkgs.length → (t.pkg p).throttled = true)

/-- CANARY_WARNING (R349): the island's voltage rises by 5 mV up to 50 mV, reported each time; then it is POWER. -/
def canaryRule (p i : Nat) (s t : State) : Prop :=
  p < s.pkgs.length → ∀ v ∈ (s.pkg p).canary[i]?,
    if v < 50 then (t.pkg p).canary[i]? = some (v + 5) ∧ ∃ e ∈ t.notices, e = ⟨p, 9, i, v + 5, s.wtc⟩
    else powered p s t

/-- POWER_MEASUREMENT (R355): what the package draws is known; every 1,024 cycles, more than 5 % above the budget is POWER. That the
arbiter looks at multiples of 1,024 is entry 93, the model's choice. -/
def powerRule (p w : Nat) (s t : State) : Prop :=
  (p < s.pkgs.length → (t.pkg p).power = w) ∧
    if s.wtc % 1024 = 0 ∧ 105 * (s.pkg p).budget < 100 * w then powered p s t
    else t.due = s.due ∧ (t.pkg p).throttled = (s.pkg p).throttled

/-- A request is refused with a status and changes nothing. -/
def refused (p tag n : Nat) (s t : State) : Prop := t = { s with responses := s.responses ++ [⟨p, tag, n, s.wtc, []⟩] }

/-- A request has its effect on a package that is ready; one whose start stopped answers 2 from step 3 on, and not before (R350;
entry 95: the model's choice). -/
def whenReady (p tag : Nat) (s t : State) (r : Prop) : Prop :=
  ((s.pkg p).boot = 0x80 → r) ∧
    ((s.pkg p).boot ≠ 0x80 → if (s.pkg p).boot ≤ 2 then t = s else refused p tag 2 s t)

/-- THROTTLE_CLEAR (R355). -/
def unthrottleRule (p tag : Nat) (s t : State) : Prop :=
  whenReady p tag s t (status p tag 0 s t ∧ (p < s.pkgs.length → (t.pkg p).throttled = false))

/-- An SPDM request is answered, or refused as unsupported (R352). -/
def spdmAnswered (p kind : Nat) (ok : Bool) (s t : State) : Prop :=
  ∃ e ∈ t.outbound.getLast?, t.outbound.length = s.outbound.length + 1 ∧ e.pkg = p ∧ e.kind = 8 ∧ e.a = kind ∧ e.ok = ok

/-- R352: only version 1.2 with P-256 and SHA-256 is agreed; the chain is in slot 0, and the blocks are 1 to 4. -/
def negotiationRule (p v : Nat) (p256 sha : Bool) (s t : State) : Prop :=
  spdmAnswered p 0 (v = 0x12 && p256 && sha) s t ∧
    (v = 0x12 → p256 = true → sha = true → p < s.pkgs.length → (t.pkg p).spdm = true)
def certRule (p n : Nat) (s t : State) : Prop := spdmAnswered p 1 ((s.pkg p).spdm && n = 0) s t
def chalRule (p n : Nat) (s t : State) : Prop := spdmAnswered p 2 ((s.pkg p).spdm && n = 0) s t
def measRule (p n : Nat) (s t : State) : Prop := spdmAnswered p 3 ((s.pkg p).spdm && 1 ≤ n && n ≤ 4) s t
def unsupportedRule (p code : Nat) (s t : State) : Prop := spdmAnswered p code false s t

/-! ### The host link and UALink peers -/

/-- A request of a core enters the link at an address in 256-byte messages, its write over and its read waiting, unless an earlier
one of its core has not entered (R357). -/
def entersLink (p pa : Nat) (r : HostReq) (s t : State) : Prop :=
  if s.hostHeld p r = true then ∀ q ∈ t.hostReq? p r.id, q.stage = 4
  else (∀ j ∈ List.range ((r.n + 255) / 256), sent p (if r.write then 2 else 1) (pa + 256 * j) r.id true
      (if r.write then (r.data.drop (256 * j)).take 256 else []) s t) ∧
    (r.write = false → ∀ q ∈ t.hostReq? p r.id, q.stage = 3) ∧ (r.write = true → ∀ q ∈ (t.pkg p).host, q.id ≠ r.id)

/-- A timed card whose request needs a translation stops with the schedule fault WALK (R25, R358). -/
def walkStopped (p : Nat) (r : HostReq) (s t : State) : Prop :=
  (∀ q ∈ (t.pkg p).host, q.id ≠ r.id) ∧ ∀ k ∈ s.card? p r.core r.card,
    .op (.scheduleFault p 2 r.core k.slot k.ctx) ∈ t.due ∧ ∀ y ∈ t.card? p r.core k.id, y.stopped = true ∧ y.fin = some s.wtc

/-- HOST_WINDOW_ACCESS (R266, R357, R358): at the transaction layer a request with a translation that grants it enters the link at its
translated address, a pinned one at its own; without a translation one is asked for, or a timed card stops. A read is given up
RTIMEOUT after its commit. -/
def windowRule (p i : Nat) (s t : State) : Prop :=
  ∀ r ∈ s.hostReq? p i, r.core < 256 → r.stage = 0 →
    (r.write = false → t.planned (s.wtc - 64 + (s.pkg p).rtimeout.toNat) (.hostCompletionArrival p i false [])) ∧
    (r.retried = 2 → entersLink p r.va r s t) ∧
    (r.retried ≠ 2 → (s.pkg p).atsOf r.va = none → r.timed = true → walkStopped p r s t) ∧
    (r.retried ≠ 2 → (s.pkg p).atsOf r.va = none → r.timed = false →
      sent p 3 r.va i true [] s t ∧ ∀ q ∈ t.hostReq? p i, q.stage = 1) ∧
    ∀ e ∈ (s.pkg p).atsOf r.va,
      (r.retried ≠ 2 → e.grants r.write = true → entersLink p (e.pa + (r.va - e.base)) r s t) ∧
      (e.grants r.write = false → r.retried = 0 → sent p 4 r.va i true [] s t ∧ ∀ q ∈ t.hostReq? p i, q.stage = 2)

/-- HOST_WINDOW_ACCESS of an access of the host or a request of a UALink peer, at its home (R154, R176, R359, R362): it goes to its
pseudo-channels now, or is performed at an LS. Until those before it are performed it waits, and is looked at again in the next
cycle (entry 86: the model's choice). An access that meets an uncorrectable error takes no slot. -/
def hubRule (p i : Nat) (s t : State) : Prop :=
  ∀ r ∈ s.hostReq? p i, 256 ≤ r.core →
    (s.hostOrdered p r = false → t.planned (s.wtc + 1) (.hostWindowAccess p i) ∧ t.mem = s.mem ∧ t.outbound = s.outbound) ∧
    (s.hostOrdered p r = true → homeOf r.va = .hbm → 0 < r.n → (r.ual.all fun u => !s.ualBad p u.2) = true →
      (∀ q ∈ t.hostReq? p i, q.stage = 5) ∧ t.mem = s.mem ∧ ∃ g ∈ t.gathers.getLast?, g.pkg = p ∧
        t.planned s.wtc (.gatherPacketArrival g.id) ∧ g.segs.map (·.1) = (segRange r.va r.n).map (·.1) ∧
        ∀ z ∈ g.segs, z.2.slots = match r.ual with | some (_, .atomic _ _ _ _) => 2 | _ => 1) ∧
    (s.hostOrdered p r = true → (match homeOf r.va with | .ls _ _ => true | _ => false) = true →
      (∀ q ∈ (t.pkg p).host, q.id ≠ i) ∧ (r.ual = none → hostServed p r.va r.n r.write r.data s t) ∧
      ∀ u ∈ r.ual, ualPa u.2 = r.va → ualServed p u.1 u.2 s t) ∧
    (s.hostOrdered p r = true → ∀ u ∈ r.ual, s.ualBad p u.2 = true →
      (∀ q ∈ (t.pkg p).host, q.id ≠ i) ∧ ualServed p u.1 u.2 s t)

/-- HOST_COMPLETION_ARRIVAL (R166, R357): a lane's data lands 64 cycles after the last of its bytes; without a completion it
reads all ones now and RSTAT.TO is set. -/
def hostReplyRule (p i : Nat) (ok : Bool) (data : List Byte) (s t : State) : Prop :=
  ∀ r ∈ s.hostReq? p i, r.write = false → r.card = 0 → ∀ f ∈ s.flight? r.flight, ∀ l ∈ r.lanes,
    (ok = false → (∀ q ∈ (t.pkg p).host, q.id ≠ i) ∧ t.lands f.id l s.wtc ∧
      (∀ m ∈ t.team? f.team, m.csr.rstat.getLsbD 0 = true) ∧
      ∀ g ∈ t.flight? f.id, ∀ q ∈ g.lanes, q.lane = l → q.st = .performed ∧ q.got = 2 ^ 128) ∧
    (ok = true → r.stage = 3 → r.n ≤ (r.data ++ data).length →
      (∀ q ∈ (t.pkg p).host, q.id ≠ i) ∧ t.lands f.id l (s.wtc + 64) ∧
      ∀ g ∈ t.flight? f.id, ∀ q ∈ g.lanes, q.lane = l → q.st = .performed ∧ q.got = bytesNat ((r.data ++ data).take r.n)) ∧
    (ok = true → r.stage = 3 → (r.data ++ data).length < r.n → ∀ q ∈ t.hostReq? p i, q.data = r.data ++ data)

/-- ATS_TRANSLATION_RESPONSE (R358): what was found for the page is held; a request it does not grant asks for the page once,
and else ends in TRN, or in PRT where the page was there. -/
def atsRule (p i : Nat) (found rd wr : Bool) (pa : Nat) (s t : State) : Prop :=
  ∀ r ∈ s.hostReq? p i, r.stage = 1 →
    let ok := found && if r.write then wr else rd
    (found = true → ok = true → r.timed = false → ∃ e ∈ (t.pkg p).ats, e.base = r.va / 4096 * 4096 ∧ e.size = 4096 ∧
      e.pa = pa / 4096 * 4096 ∧ e.rd = rd ∧ e.wr = wr) ∧
    (ok = false → r.retried = 0 → sent p 4 r.va i true [] s t ∧ ∀ q ∈ t.hostReq? p i, q.stage = 2) ∧
    (ok = false → r.retried ≠ 0 → r.card = 0 → (∀ q ∈ (t.pkg p).host, q.id ≠ i) ∧ ∀ g ∈ t.flight? r.flight, ∀ q ∈ g.lanes,
      q.lane ∈ r.lanes → q.st = .err ∧ q.got = if found then cPRT else cTRN)

/-- PRI_PAGE_RESPONSE (R358): on success the translation is asked for again, which stops a timed card; on failure the request ends. -/
def priRule (p i : Nat) (success : Bool) (s t : State) : Prop :=
  ∀ r ∈ s.hostReq? p i, r.stage = 2 →
    if success = true ∧ r.timed = true then walkStopped p r s t
    else if success = true then sent p 3 r.va i true [] s t ∧ ∀ q ∈ t.hostReq? p i, q.stage = 1 ∧ q.retried = 1
    else r.card = 0 → (∀ q ∈ (t.pkg p).host, q.id ≠ i) ∧ ∀ g ∈ t.flight? r.flight, ∀ q ∈ g.lanes, q.lane ∈ r.lanes → q.st = .err

/-- ATS_INVALIDATE_REQUEST (R358): no translation of the range is held, and the invalidation is completed. -/
def invalidateRule (p base size : Nat) (s t : State) : Prop :=
  sent p 5 base size true [] s t ∧
    (∀ e ∈ (t.pkg p).ats, e ∈ (s.pkg p).ats ∧ (e.base + e.size ≤ base ∨ base + size ≤ e.base)) ∧
    ∀ e ∈ (s.pkg p).ats, (e.base + e.size ≤ base ∨ base + size ≤ e.base) → e ∈ (t.pkg p).ats

/-- How far an access lies from a home: `hbm` cycles from device memory, `ls` from an LS; none from anything else. -/
def homeDelay (hbm ls : Nat) : Home → Option Nat
  | .hbm => some hbm
  | .ls _ _ => some ls
  | _ => none

/-- BAR2_HOST_ACCESS (R356, R359): the access goes to BAR2 and its offset: to device memory 200 cycles on, to an LS 20 cycles on;
a write of nothing has no effect, and a read of nothing is completed with an error. -/
def bar2Rule (p off n : Nat) (write : Bool) (data : List Byte) (s t : State) : Prop :=
  let pa := (s.pkg p).bar2 + off % 2 ^ 32
  (∀ d ∈ homeDelay 200 20 (homeOf pa), p < s.pkgs.length → t.mem = s.mem ∧ ∃ r ∈ (t.pkg p).host.getLast?, r.core = 256 ∧ r.va = pa ∧
    r.n = n ∧ r.write = write ∧ r.data = data.take n ∧ r.ual = none ∧ t.planned (s.wtc + d) (.hostWindowAccess p r.id)) ∧
  (homeDelay 200 20 (homeOf pa) = none → t.mem = s.mem ∧ if write then t = s else sent p 6 pa n false [] s t)

/-- UALINK_TARGET_REQUEST (R176, R362): a request of 4 to 256 bytes inside a target window of its station that grants it comes to its
home as the first element of a packet does, 201 cycles on at device memory and 41 at an LS; any other is completed with an error. -/
def ualTargetRule (p stn : Nat) (r : UalReq) (s t : State) : Prop :=
  let a := match r with | .read pa _ => pa | .write pa _ => pa | .atomic pa _ _ _ => pa
  let n := match r with | .read _ n => n | .write _ bs => bs.length | .atomic _ _ _ _ => 4
  let granted := 4 ≤ n && n ≤ 256 && ((((s.pkg p).uwindows.drop (8 * stn)).take 8).any fun w => w.v && w.base ≤ a &&
    a + n ≤ w.limit && (match r with | .read _ _ => w.rd | .write _ _ => w.wr | .atomic _ _ _ _ => w.at_))
  if granted = true ∧ (homeDelay 201 41 (homeOf a)).isSome = true then
    p < s.pkgs.length → ∀ d ∈ homeDelay 201 41 (homeOf a), t.mem = s.mem ∧ ∃ q ∈ (t.pkg p).host.getLast?, q.core = 257 ∧ q.va = a ∧
      q.n = n ∧ q.ual = some (stn, r) ∧ t.planned (s.wtc + d) (.hostWindowAccess p q.id)
  else sent p 7 a stn false [] s t ∧ t.mem = s.mem

/-- SCALE_OUT_TRANSFER (R360): bytes of package memory leave for the network, or bytes from it are there. -/
def scaleRule (p tag : Nat) (out : Bool) (pa n : Nat) (data : List Byte) (s t : State) : Prop :=
  whenReady p tag s t <|
  if ownRange pa n = true then
    (out = true → s.uceAt p pa n = false → status p tag 0 s t ∧ sent p 9 tag pa true (natBytes n (s.rd p pa n)) s t ∧ t.mem = s.mem) ∧
    (out = true → s.uceAt p pa n = true → status p tag 3 s t ∧ t.mem = s.mem) ∧
    (out = false → status p tag 0 s t ∧ ∀ i ∈ List.range (min n data.length), some (memByte t.mem (s.pod p (pa + i))) = data[i]?)
  else status p tag 1 s t ∧ t.mem = s.mem

/-! ### The resident service -/

/-- A range entry is legal (R144): its zero field is zero, and a valid one is aligned and within the address spaces. -/
def rangeLegal (e : RangeEntry) : Prop :=
  e.zero = 0 ∧ (e.v = true → e.base % 4096 = 0 ∧ e.limit % 4096 = 0 ∧ e.pbase % 4096 = 0 ∧ e.base < e.limit ∧ e.limit < 2 ^ 56 ∧
    e.pbase < 2 ^ 56 ∧ e.tgt < 4)

/-- CTX_CREATE (R144, R363): a new context with its ranges, and nothing in its ring; an occupied number or a bad range is
refused. -/
def createRule (p tag : Nat) (x : CtxSpec) (s t : State) : Prop :=
  whenReady p tag s t <| open Classical in
  if (s.ctx? p x.num).isNone = true ∧ x.num < 256 ∧ x.ranges.length ≤ 64 ∧ ∀ e ∈ x.ranges, rangeLegal e then
    status p tag 0 s t ∧ ∃ c ∈ t.ctx? p x.num, c.priv = x.priv ∧ c.ranges = x.ranges ∧ c.root = x.root ∧ c.tuberrH = 0 ∧
      c.tuberrT = 0 ∧ c.pend = []
  else refused p tag 1 s t

/-- CTX_DESTROY (R363): a context that holds no gang is gone, with its pages in the cores' buffers. -/
def destroyRule (p tag n : Nat) (s t : State) : Prop :=
  whenReady p tag s t <|
  if (s.ctx? p n).isNone = true then refused p tag 1 s t
  else if (s.gangs.any fun g => g.pkg = p && g.ctx = n) = true then refused p tag 2 s t
  else status p tag 0 s t ∧ t.ctx? p n = none ∧ ∀ c ∈ List.range 256, ∀ e ∈ (t.core p c).tlb, e.ctx ≠ n

/-- LAUNCH (R341, R363 to R365): the admitter's queue holds the request behind those that came before it. A joined launch's number of
members is not 0 and the one its join already has; its request joins those told of a failure, at once where the join has failed. -/
def launchRule (p tag ctx desc join njoin : Nat) (s t : State) : Prop :=
  whenReady p tag s t <|
  if (s.ctx? p ctx).isSome = true ∧ (s.ownRead p (s.hubXlate p ctx desc .rd)).isSome = true ∧ desc % 64 = 0 ∧
      (join ≠ 0 → njoin ≠ 0 ∧ (s.join? join).all (·.2.njoin = njoin) = true) then
    p < s.pkgs.length → status p tag 0 s t ∧
      (∃ r ∈ (t.pkg p).admitQ, r.arrive = s.wtc ∧ r.ctx = ctx ∧
        some r.desc = s.ownRead p (s.hubXlate p ctx desc .rd) ∧ r.join = join ∧ r.njoin = njoin ∧ r.tag = tag ∧ r.svc = true) ∧
      (join ≠ 0 → s.join? join = none → t.join? join = some (p, ⟨join, njoin, 0, [], 0, [(p, tag)]⟩)) ∧
      (join ≠ 0 → ∀ q j, s.join? join = some (q, j) → t.join? join = some (q, { j with tags := j.tags ++ [(p, tag)] }) ∧
        (j.failed ≠ 0 → ⟨p, 8, join, tag, s.wtc⟩ ∈ t.notices ∧ ⟨p, 11, 8, join, s.wtc, true, natBytes 8 tag⟩ ∈ t.outbound))
  else refused p tag 1 s t

/-- KILL (R363, R374): the gang of the number will be killed in this cycle. -/
def killRequestRule (p tag n : Nat) (s t : State) : Prop :=
  whenReady p tag s t <|
  (s.gangOf p n = none → refused p tag 1 s t) ∧
  ∀ g ∈ s.gangOf p n, s.gang? g.id = some g → status p tag 0 s t ∧ (g.killAt = none → t.planned s.wtc (.gangKill g.id 0) ∧
    ∀ y ∈ t.gang? g.id, y.killAt = some s.wtc)

/-- FILL (R327, R331, R363): an OUT gang that fits a half of its cores again is in FILL, with the reads of its image to come: its
units on each core and four of the control block. -/
def fillRequestRule (p tag n half : Nat) (s t : State) : Prop :=
  whenReady p tag s t <|
  (s.gangOf p n = none → refused p tag 1 s t) ∧
  ∀ g ∈ s.gangOf p n, s.gang? g.id = some g → ((g.state ≠ .out ∨ g.killAt ≠ none) → refused p tag 2 s t) ∧
    (g.state = .out → g.killAt = none → s.fillPlaces g (if half = 0 then halfA else halfB) = none → refused p tag 3 s t) ∧
    (g.state = .out → g.killAt = none → (s.fillPlaces g (if half = 0 then halfA else halfB)).isSome = true →
      status p tag 0 s t ∧ t.planned (s.wtc + 1) (.fillComplete g.id) ∧ ∀ y ∈ t.gang? g.id, y.state = .fill ∧
        y.fills.map (fun f => (f.core, f.todo.length, f.reads.length)) =
          (s.gangCores g.id).map fun c => (c.2, (s.chunks g.id p c.2).length + 4, 0))

/-- SHIFT (R328, R329, R363): two gangs with SHIFTOK on opposite halves of the same cores, the first in RUN and the second in
SHADOW, switch at T, 2,048 cycles away at least; a timed one waits for its quiet point. The request is answered at the switch (R374);
an earlier one it replaces is answered with 2 (entry 94: the model's choice). -/
def shiftRule (p tag cyc out inc : Nat) (s t : State) : Prop :=
  whenReady p tag s t <|
  ((s.gangOf p out = none ∨ s.gangOf p inc = none) → refused p tag 1 s t) ∧
  ∀ o ∈ s.gangOf p out, ∀ i ∈ s.gangOf p inc, s.gang? o.id = some o →
    if o.state = .run ∧ i.state = .shadow ∧ o.desc.flags / 8 % 2 = 1 ∧ i.desc.flags / 8 % 2 = 1 ∧ s.opposite o.id i.id = true ∧
        s.wtc + 2048 ≤ cyc then
      t.responses = s.responses ++ ((o.switch.bind (·.tag)).toList.map fun k => ⟨o.pkg, k, 2, s.wtc, []⟩) ∧
        (∀ y ∈ t.gang? o.id, y.switch = some ⟨cyc, i.id, if o.timed then none else some cyc, some tag⟩) ∧
        (o.timed = false → t.planned cyc (.swtch o.id))
    else refused p tag 2 s t

/-- SCHED_SET (R284): a valid table, readable page by page through the context's translation, is held for a boundary of its frame at
least 65,536 cycles away. The request is answered at that boundary (R374); one whose table it replaces is answered with 2 (entry 94:
the model's choice). -/
def schedSetRule (p tag ctx va b : Nat) (s t : State) : Prop :=
  whenReady p tag s t <|
  ((s.ownRead p (s.hubXlate p ctx va .rd) = none ∨ s.tableCells p ctx va = none) → refused p tag 1 s t) ∧
  ∀ pa ∈ s.ownRead p (s.hubXlate p ctx va .rd), ∀ m ∈ s.tableCells p ctx va,
    (s.readTable p m va pa b = none → refused p tag 1 s t) ∧
    ∀ x ∈ s.readTable p m va pa b,
      if va % 64 = 0 ∧ b % 2 ^ x.flog = 0 ∧ s.wtc + 65536 ≤ b then
        t.responses = s.responses ++ ((if (s.pkg p).schedAt s.wtc = (s.pkg p).next then none else (s.pkg p).nextTag).toList.map
          fun k => ⟨p, k, 2, s.wtc, []⟩) ∧
        t.planned b (.frameBoundary p) ∧ (p < s.pkgs.length → (t.pkg p).next = some x ∧ (t.pkg p).nextTag = some tag)
      else refused p tag 1 s t

/-- SCHED_CLEAR (R284): no table is in force, unless a timed gang is resident. -/
def schedClearRule (p tag : Nat) (s t : State) : Prop :=
  whenReady p tag s t <|
  if s.anyTimed p = true then refused p tag 2 s t
  else t.responses = s.responses ++ ((s.pkg p).nextTag.toList.map fun k => ⟨p, k, 2, s.wtc, []⟩) ++ [⟨p, tag, 0, s.wtc, []⟩] ∧
    (p < s.pkgs.length → (t.pkg p).sched = none ∧ (t.pkg p).next = none)

/-- RESTART (R304, R374): a boundary of every package's frame, not too early, ends the halt: the package is HALTED no more, and
runs again from RS. Too early is before the request's delay has passed: 256 cycles, or 1,024 through the management transport
(R365). -/
def restartRequestRule (p tag rs : Nat) (mgmt : Bool) (s t : State) : Prop :=
  whenReady p tag s t <|
  let common := s.pkgs.all fun x => (x.schedAt s.wtc).all fun y => rs % 2 ^ y.flog = 0
  if common = false ∨ rs < s.wtc + (if mgmt then 1024 else 256) then refused p tag 1 s t
  else if (s.pkg p).halted = false then refused p tag 2 s t
  else status p tag 0 s t ∧ (t.pkg p).halted = false ∧ (t.pkg p).rs = some rs ∧ t.planned rs (.restart p)

/-- CONFIG (R158, R159, R179, R189, R354, R359, R363): each setting in its range; windows and hash masks only while no gang is
resident. That RINGDROP is cleared (R299) and the time root named (R306) here is entries 66 and 92, the model's choices. -/
def configRule (p tag : Nat) (x : ConfigItem) (s t : State) : Prop :=
  whenReady p tag s t <| p < s.pkgs.length →
    match x with
    | .hashm k m =>
      (8 < k → refused p tag 1 s t) ∧ (k < 8 → t.due = .op (.hashmHeldWrite p k m) :: s.due) ∧
      (k = 8 → s.anyGang p = true → refused p tag 2 s t) ∧
      (k = 8 → s.anyGang p = false → t.due = .op (.hashm8Apply p m) :: s.due)
    | .window i w =>
      if i < 16 ∧ windowOk w = true then
        (if s.anyGang p = true then refused p tag 2 s t
          else status p tag 0 s t ∧ (t.pkg p).windows = (s.pkg p).windows.set i w)
      else refused p tag 1 s t
    | .uwindow stn i w =>
      if stn < 4 ∧ i < 8 ∧ windowOk w = true then status p tag 0 s t ∧ (t.pkg p).uwindows = (s.pkg p).uwindows.set (8 * stn + i) w
      else refused p tag 1 s t
    | .pin h e =>
      if h < 256 ∧ e.pbase % 4096 = 0 ∧ 1 ≤ e.length ∧ e.length ≤ 2 ^ 24 then
        status p tag 0 s t ∧ (t.pkg p).pinned = (s.pkg p).pinned.set h e
      else refused p tag 1 s t
    | .tubage m => status p tag 0 s t ∧ t.due = .op (.tubageWrite p (m &&& 0x1FFF)) :: s.due
    | .rtimeout m => status p tag 0 s t ∧ (t.pkg p).rtimeout.toNat = max 1024 (m.toNat % 2 ^ 28)
    | .budget w => if 800 ≤ w ∧ w ≤ 1600 then status p tag 0 s t ∧ (t.pkg p).budget = w else refused p tag 1 s t
    | .ringdrop c => if c < 256 then status p tag 0 s t ∧ (256 * p + c < s.cores.length → (t.core p c).ringdrop = 0)
      else refused p tag 1 s t
    | .timeRoot n => if (s.pkgOf n).isSome = true then status p tag 0 s t ∧ ∀ q ∈ List.range s.pkgs.length,
        (t.pkg q).timeRoot = decide ((s.pkg q).num = n)
      else refused p tag 1 s t
    | .bar2 b => if b % 2 ^ 32 = 0 ∧ b < 2 ^ 48 then status p tag 0 s t ∧ (t.pkg p).bar2 = b else refused p tag 1 s t

/-- A mapping held in a buffer of package q does not reach into a range of the memory of package p. -/
def apart (q p src size : Nat) (e : TlbEntry) (s : State) : Prop :=
  ∀ a ∈ (if e.tgt = 0 then some (s.pod q e.pa) else if e.tgt = 1 then some e.pa else none),
    a + e.size ≤ s.pod p src ∨ s.pod p src + size ≤ a

/-- The page-table entries that map the page of a migration: package, address, new value. -/
def migEntriesOf (m : MigSpec) (p : Nat) : List (Nat × Nat × Nat) := (p, m.ptePa, m.pte) :: m.others

/-- MIGRATE (R191): every entry that maps the page loses V, RD, WR and AT, the page leaves the buffers of every package and the drain
begins; once every package has answered, the page stands at its destination and the new entries in their places, and the buffers hold
nothing of the old one (R147). A page that is not whole, or that a range maps, is refused. That the request names the entries, and how
a page in a range is answered, is entry 91, the model's choice. -/
def migrateRule (p tag : Nat) (m : MigSpec) (s t : State) : Prop :=
  let whole : Bool := m.src % 4096 = 0 && m.dst % 4096 = 0 && m.size % 4096 = 0 && m.src + m.size ≤ hbmSize &&
    m.dst + m.size ≤ hbmSize && (migEntriesOf m p).all fun z => z.1 < s.pkgs.length && z.2.1 % 8 = 0 && z.2.1 + 8 ≤ hbmSize
  let ranged : Bool := s.ctxs.any fun x => x.ranges.any fun e => e.v && s.mapsInto x.pkg e.tgt e.pbase (e.limit - e.base) p m.src m.size
  let flushed : Prop := ∀ q ∈ List.range s.pkgs.length, ∀ c ∈ List.range 256, ∀ e ∈ (t.core q c).tlb, apart q p m.src m.size e s
  ((s.pkg p).drained tag m = none → whenReady p tag s t
    (if whole = false then refused p tag 1 s t
    else if ranged = true then refused p tag 2 s t
    else memWf s.mem → (∀ z ∈ migEntriesOf m p, let x := s.rd z.1 z.2.1 8
        let y := t.rd z.1 z.2.1 8
        y % 2 = 0 ∧ y / 4 % 8 = 0 ∧ y / 2 % 2 = x / 2 % 2 ∧ y / 32 = x / 32) ∧
      (∃ d ∈ (t.pkg p).drains, d.svcTag = some tag ∧ d.mig = some m ∧ d.left = s.pkgs.map (·.num)) ∧ flushed)) ∧
  ((s.pkg p).drained tag m ≠ none → memWf s.mem → (migEntriesOf m p).all (fun z => z.2.1 % 8 = 0) = true →
    ((migEntriesOf m p).map fun z => s.pod z.1 z.2.1).Nodup →
    (∀ z ∈ migEntriesOf m p, s.pod z.1 z.2.1 + 8 ≤ s.pod p m.dst ∨ s.pod p m.dst + m.size ≤ s.pod z.1 z.2.1) →
    status p tag 0 s t ∧ t.rd p m.dst m.size = s.rd p m.src m.size ∧
      (∀ z ∈ migEntriesOf m p, t.rd z.1 z.2.1 8 = z.2.2 % 2 ^ 64) ∧ flushed)

/-- NOTIFY (R363). -/
def notifyRule (p tag kinds : Nat) (s t : State) : Prop :=
  whenReady p tag s t (status p tag 0 s t ∧ (p < s.pkgs.length → (t.pkg p).notify = kinds))

end Sys2Proof.Machine

/-- R327 to R333: the switch, the spill and the fill of gangs.
The layout of an image is entry 12, details are entries 52 and 88, the model's readings. -/
def Obligations.ShiftSteps : Prop :=
  ∀ (s : State) (p c g k : Nat),
    Gives (.swtch g) s (switchRule g) ∧ Gives (.spill p c g k) s (spillRule p c g k) ∧
    Gives (.spillComplete g) s (spilledGangRule g) ∧ Gives (.fillComplete g) s (filledRule g)

/-- R349 to R352, R355: start-up, margin, power and identity.
Unlisted memory after a cold start is entry 4, what a warm start keeps entries 13 and 65, the phase of the measurement entry 93, how a start
that failed is answered entry 95, the bytes of the answers entry 11: the model's choices. -/
def Obligations.StartupSteps : Prop :=
  ∀ (s : State) (b : BootFacts) (p n : Nat) (x y : Bool),
    Gives (.coldStart b) s (coldRule b) ∧ (∀ w, Gives (.warmReset p w) s (warmRule p w)) ∧
    Gives (.canaryWarning p n) s (canaryRule p n) ∧ Gives (.powerMeasurement p n) s (powerRule p n) ∧
    Gives (.throttleClear p n) s (unthrottleRule p n) ∧ Gives (.spdmNegotiation p n x y) s (negotiationRule p n x y) ∧
    Gives (.spdmCert p n) s (certRule p n) ∧ Gives (.spdmMeas p n) s (measRule p n) ∧
    Gives (.spdmUnsupportedRequest p n) s (unsupportedRule p n) ∧ ∀ nonce, Gives (.spdmChal p n nonce) s (chalRule p n)

/-- R166, R356 to R360, R362: accesses to and from the host, UALink peers and the network.
The model's readings are entries 60, 86 and 89. -/
def Obligations.OutsideSteps : Prop :=
  ∀ (s : State) (p i n m : Nat) (x y z : Bool) (bs : List Byte) (r : UalReq),
    Gives (.hostWindowAccess p i) s (fun s t => windowRule p i s t ∧ hubRule p i s t) ∧ Gives (.hostCompletionArrival p i x bs) s (hostReplyRule p i x bs) ∧
    Gives (.atsTranslationResponse p i x y z n) s (atsRule p i x y z n) ∧ Gives (.priPageResponse p i x) s (priRule p i x) ∧
    Gives (.atsInvalidateRequest p i n) s (invalidateRule p i n) ∧ Gives (.bar2HostAccess p i n x bs) s (bar2Rule p i n x bs) ∧
    Gives (.ualinkTargetRequest p i r) s (ualTargetRule p i r) ∧
    Gives (.scaleOutTransfer p i x n m bs) s (scaleRule p i x n m bs)

/-- R144, R158, R159, R179, R189, R191, R284, R304, R327 to R329, R354, R359, R363 to R365, R374: the requests of the resident
service.
Which status a refusal gets where no rule says it is entry 14; further readings of the model are entries 61 to 64, 66, 91, 92, 94 and
95. -/
def Obligations.ServiceSteps : Prop :=
  ∀ (s : State) (p tag a b c d : Nat) (x : CtxSpec) (y : ConfigItem) (m : MigSpec),
    Gives (.ctxCreate p tag x) s (createRule p tag x) ∧ Gives (.ctxDestroy p tag a) s (destroyRule p tag a) ∧
    Gives (.launchRequest p tag a b c d) s (launchRule p tag a b c d) ∧ Gives (.killRequest p tag a) s (killRequestRule p tag a) ∧
    Gives (.fillRequest p tag a b) s (fillRequestRule p tag a b) ∧ Gives (.shiftRequest p tag a b c) s (shiftRule p tag a b c) ∧
    Gives (.schedSet p tag a b c) s (schedSetRule p tag a b c) ∧ Gives (.schedClear p tag) s (schedClearRule p tag) ∧
    (∀ mgmt, Gives (.restartRequest p tag ⟨a, mgmt⟩) s (restartRequestRule p tag a mgmt)) ∧ Gives (.config p tag y) s (configRule p tag y) ∧
    Gives (.migrate p tag m) s (migrateRule p tag m) ∧ Gives (.notify p tag a) s (notifyRule p tag a)

namespace Sys2Proof.Machine

/-! ### Frames -/

/-- A range of package memory as package, address and bytes. -/
abbrev PRange := Nat × Nat × Nat

/-- A write of bytes, with the 16 bytes of every barrier object it touches, whose phase it may complete (R194). -/
def State.wide (s : State) (p pa n : Nat) : List PRange :=
  (p, pa, n) :: (s.objs.filter fun o => o.1 = p && o.2 < pa + n && pa < o.2 + 16).map fun o => (o.1, o.2, 16)

/-- What the lanes of a flight that a test picks write. -/
def State.laneRanges (s : State) (f : Nat) (pick : LaneReq → Bool) : List PRange :=
  (s.flight? f).toList.flatMap fun x =>
    if x.kind = .load then []
    else (x.lanes.filter pick).flatMap fun q => s.wide x.pkg q.home (if x.kind = .store then x.n else 4)

/-- What a staged entry writes at its bank. -/
def State.stagedRanges (s : State) (e : Staged) : List PRange :=
  match e.op with
  | .bytes l => l.flatMap fun b => s.wide e.pkg (lsPa e.core (e.base + b.1)) b.2.length
  | .frame off bs => [(e.pkg, lsPa e.core (e.base + off), bs.length)]
  | _ => []

/-- The barrier object a staged entry updates. -/
def Staged.object (e : Staged) : List PRange :=
  match e.op with
  | .binit off _ => [(e.pkg, lsPa e.core off, 16)]
  | .barv off => [(e.pkg, lsPa e.core off, 16)]
  | .bexp off _ => [(e.pkg, lsPa e.core off, 16)]
  | .bcred off _ => [(e.pkg, lsPa e.core off, 16)]
  | _ => []

/-- What a UALink peer's request writes. -/
def UalReq.ranges (p : Nat) : UalReq → List PRange
  | .read _ _ => []
  | .write pa bs => [(p, pa, bs.length)]
  | .atomic pa _ _ _ => [(p, pa, 4)]

/-- What a segment writes as it is served. -/
def State.segRanges (s : State) (p : Nat) : SegOp → List PRange
  | .lanes f ls => s.laneRanges f fun q => ls.contains q.lane && q.st = .moving
  | .haulWrite _ _ _ pa bs => [(p, pa, bs.length)]
  | .record pa bs _ => [(p, pa, bs.length)]
  | .host _ pa _ w bs => if w then [(p, pa, bs.length)] else []
  | .spill _ _ pa bs => [(p, pa, bs.length)]
  | .trapRec pa _ bs => [(p, pa, bs.length)]
  | .ual _ _ r => UalReq.ranges p r
  | _ => []

/-- Where a piece of a haul card goes. -/
def State.pieceRanges (s : State) (p c : Nat) (k : Card) (x : Piece) : List PRange :=
  let d := x.dst.getD 0
  match if cType k.words = 1 then hAddr k.words 3 else if cType k.words = 2 then hAddr k.words 1 else .ls 0 with
  | .ls _ => (s.haulCores c k).map fun y => (p, lsPa y.1 (y.2 + d), x.data.length)
  | .pin h _ => (pageParts 3 (.pin h d) x.len).flatMap fun y =>
      match s.haulPlace p c k .wr y.1 with | .phys pa => [(p, pa, y.2)] | _ => []
  | _ => (pageParts 3 (.virt d) x.len).flatMap fun y =>
      match s.haulPlace p c k .wr y.1 with | .phys pa => [(p, pa, y.2)] | _ => []

/-- The status word of a gang or of an admission. -/
def statusRange (p : Nat) (pa : Option Nat) : List PRange := pa.toList.map fun a => (p, a, 4)

/-- The ranges of package memory a step may write: none, for every step that is not named here. -/
def State.touched (s : State) : Instr → List PRange
  | .stagedStorePerformed i => (s.staged? i).toList.flatMap s.stagedRanges
  | .lsAtomicPerformed i => (s.staged? i).toList.flatMap fun e =>
      match e.op with | .atomic f => s.laneRanges f (·.st = .moving) | _ => []
  | .packageGlobalAccess i => s.laneRanges i fun q =>
      q.st = .moving && q.due = s.wtc && (match homeOf q.home with | .ls _ _ => true | _ => false)
  | .segmentServed p n => (s.pc p n).queue.head?.toList.flatMap fun g => s.segRanges p g.op
  | .elementPerformed p i j => ((s.inn? p i).bind fun x => x.elems[j]?).toList.flatMap fun e => s.wide p e.pa 4
  | .barrierObjectUpdate i => (s.staged? i).toList.flatMap Staged.object
  | .engineCredit p c _ off _ => [(p, lsPa c off, 16)]
  | .landingWrite p c => (((s.core p c).landing.takeWhile fun x => x.cyc + 4 ≤ s.wtc).take 16).map fun x =>
      (p, lsPa c x.dst, x.data.length)
  | .haulPieceWrite p c => (s.core p c).cards.flatMap fun k =>
      (k.haul.todo.map fun y => (p, lsPa y.core y.off, y.data.length)) ++ k.haul.pieces.flatMap (s.pieceRanges p c k)
  | .hostWindowAccess p i => (s.hostReq? p i).toList.flatMap fun r =>
      match r.ual with
      | some u => UalReq.ranges p u.2
      | none => if 256 ≤ r.core && r.write then [(p, r.va, r.data.length)] else []
  | .grinderGroup p c n part => if part = 0 then [] else (s.grindCard p c).toList.flatMap fun k =>
      (k.groupWrites n (k.buffer n)).1.map fun w => (p, lsPa c (s.cardBase k + w.1), w.2.length)
  | .matrixTileChunk p c i _ => (s.matrixCard p c).toList.flatMap fun k =>
      if cType k.words = 4 then [(p, lsPa c (s.cardBase k + cf k.words 1 0 21 + 1024 * i), 1024)] else []
  | .ringdef p c i => (s.card? p c i).toList.map fun k => (p, lsPa c (s.cardBase k + cf k.words 3 0 21), 8)
  | .ringChunkWrite p c _ k => (s.core p c).ringWrites.head?.toList.flatMap fun w => (s.ring? p c w.ring).toList.flatMap fun r =>
      let o := (w.from_ + 1024 * k) % 2 ^ r.log2
      let n := (w.data.drop (1024 * k)).length
      if n = 0 then [(p, lsPa c r.ctl, 4)]
      else [(p, lsPa c (r.base + o), min (min n 1024) (2 ^ r.log2 - o)), (p, lsPa c r.base, min n 1024 - (2 ^ r.log2 - o))]
  | .tuberrRecordWrite i => (s.recordCtx i).toList.flatMap fun x => (x.pend.find? (·.id = i)).toList.map fun r =>
      (x.pkg, r.pa, r.data.length)
  | .fillComplete g => (s.gang? g).toList.flatMap fun x => x.fills.flatMap fun f => f.reads.head?.toList.flatMap fun r =>
      match r.chunk with | .ls off => [(x.pkg, lsPa f.core off, r.data.length)] | _ => []
  | .migrate p _ m => (p, m.dst, m.size) :: (migEntriesOf m p).map fun z => (z.1, z.2.1, 8)
  | .scaleOutTransfer p _ out pa n data => if out then [] else [(p, pa, min n data.length)]
  | .admissionCompletion p => (s.pkg p).admitting.toList.flatMap fun a => statusRange p a.statusPa
  | .gangEnd g => (s.gang? g).toList.flatMap fun x => statusRange x.pkg x.statusPa
  | .killCompletion g => (s.gang? g).toList.flatMap fun x => statusRange x.pkg x.statusPa
  | _ => []

/-- A pod physical address lies in a range. -/
def State.within (s : State) (a : Nat) (r : PRange) : Bool := s.pod r.1 r.2.1 ≤ a && a < s.pod r.1 r.2.1 + r.2.2

/-- The steps after which memory as a whole is another's: a start, a reset, and a new hash set, after which an address reads its new
home (R159). -/
def remakesMemory : Instr → Bool
  | .coldStart _ => true
  | .warmReset _ _ => true
  | .hashm8Apply _ _ => true
  | _ => false

/-- The steps that write registers or predicates of a team, or make or remove teams. -/
def writesRegisters : Instr → Bool
  | .loadDataWritten _ => true
  | .spilledReplyWrite _ => true
  | .remoteOldValueWritten _ _ => true
  | .migdrainReply _ _ => true
  | .migdrainReceipt _ _ => true
  | .waitphDeadline _ => true
  | .admissionCompletion _ => true
  | .gangEnd _ => true
  | .killCompletion _ => true
  | .fillComplete _ => true
  | .coldStart _ => true
  | .warmReset _ _ => true
  | _ => false

/-- The steps that write accumulator tiles. -/
def writesTiles : Instr → Bool
  | .coldStart _ => true
  | .stagedStorePerformed _ => true
  | .matrixStep _ _ _ _ => true
  | .matrixTileChunk _ _ _ _ => true
  | .fillComplete _ => true
  | .hashm8Apply _ _ => true
  | _ => false

/-- The register files of the teams. -/
def State.registers (s : State) : List (Nat × List (List Word) × List Word × List Mask × List Bool) :=
  s.teams.map fun u => (u.id, u.vr, u.ur, u.pr, u.gp)

end Sys2Proof.Machine

/-- The frame of memory: a step changes no byte of memory outside the ranges it writes. -/
def Obligations.MemoryFrame : Prop :=
  ∀ (i : Instr) (s t : State), remakesMemory i = false → exec i s = .next t → memWf s.mem →
    ∀ a, (s.touched i).all (fun r => !s.within a r) = true → memByte t.mem a = memByte s.mem a

/-- The frame of registers and tiles: loads and atomics that return land by LOAD_DATA_WRITTEN and REMOTE_OLD_VALUE_WRITTEN, and
no step but those named writes a register or predicate of a team, or an accumulator word. -/
def Obligations.RegisterFrame : Prop :=
  ∀ (i : Instr) (s t : State), exec i s = .next t →
    (writesRegisters i = false → t.registers = s.registers) ∧ (writesTiles i = false → t.acc = s.acc)
end

