-- ==== Sys2Proof/Laws/State.lean ====
section
/-! SUPPORT. What each plain update of the state does to each field: one lemma a field and update. -/

namespace Sys2Proof.Machine

/-! ### `setEv` -/

@[simp] theorem State.setEv_wtc (s : State) (c : Option Cur) : (s.setEv c).wtc = s.wtc := rfl
@[simp] theorem State.setEv_stage (s : State) (c : Option Cur) : (s.setEv c).stage = s.stage := rfl
@[simp] theorem State.setEv_due (s : State) (c : Option Cur) : (s.setEv c).due = s.due := rfl
@[simp] theorem State.setEv_ev (s : State) (c : Option Cur) :
    (s.setEv c).ev = c := rfl
@[simp] theorem State.setEv_agenda (s : State) (c : Option Cur) : (s.setEv c).agenda = s.agenda := rfl
@[simp] theorem State.setEv_nextId (s : State) (c : Option Cur) : (s.setEv c).nextId = s.nextId := rfl
@[simp] theorem State.setEv_freeCtr (s : State) (c : Option Cur) : (s.setEv c).freeCtr = s.freeCtr := rfl
@[simp] theorem State.setEv_mem (s : State) (c : Option Cur) : (s.setEv c).mem = s.mem := rfl
@[simp] theorem State.setEv_acc (s : State) (c : Option Cur) : (s.setEv c).acc = s.acc := rfl
@[simp] theorem State.setEv_uce (s : State) (c : Option Cur) : (s.setEv c).uce = s.uce := rfl
@[simp] theorem State.setEv_sbe (s : State) (c : Option Cur) : (s.setEv c).sbe = s.sbe := rfl
@[simp] theorem State.setEv_pkgs (s : State) (c : Option Cur) : (s.setEv c).pkgs = s.pkgs := rfl
@[simp] theorem State.setEv_ctxs (s : State) (c : Option Cur) : (s.setEv c).ctxs = s.ctxs := rfl
@[simp] theorem State.setEv_gangs (s : State) (c : Option Cur) : (s.setEv c).gangs = s.gangs := rfl
@[simp] theorem State.setEv_teams (s : State) (c : Option Cur) : (s.setEv c).teams = s.teams := rfl
@[simp] theorem State.setEv_cores (s : State) (c : Option Cur) : (s.setEv c).cores = s.cores := rfl
@[simp] theorem State.setEv_flights (s : State) (c : Option Cur) : (s.setEv c).flights = s.flights := rfl
@[simp] theorem State.setEv_landings (s : State) (c : Option Cur) : (s.setEv c).landings = s.landings := rfl
@[simp] theorem State.setEv_staged (s : State) (c : Option Cur) : (s.setEv c).staged = s.staged := rfl
@[simp] theorem State.setEv_gathers (s : State) (c : Option Cur) : (s.setEv c).gathers = s.gathers := rfl
@[simp] theorem State.setEv_walks (s : State) (c : Option Cur) : (s.setEv c).walks = s.walks := rfl
@[simp] theorem State.setEv_pcs (s : State) (c : Option Cur) : (s.setEv c).pcs = s.pcs := rfl
@[simp] theorem State.setEv_packets (s : State) (c : Option Cur) : (s.setEv c).packets = s.packets := rfl
@[simp] theorem State.setEv_objs (s : State) (c : Option Cur) : (s.setEv c).objs = s.objs := rfl
@[simp] theorem State.setEv_records (s : State) (c : Option Cur) : (s.setEv c).records = s.records := rfl
@[simp] theorem State.setEv_responses (s : State) (c : Option Cur) : (s.setEv c).responses = s.responses := rfl
@[simp] theorem State.setEv_notices (s : State) (c : Option Cur) : (s.setEv c).notices = s.notices := rfl
@[simp] theorem State.setEv_outbound (s : State) (c : Option Cur) : (s.setEv c).outbound = s.outbound := rfl

/-! ### `setMem` -/

@[simp] theorem State.setMem_wtc (s : State) (m : List Host.Cell) : (s.setMem m).wtc = s.wtc := rfl
@[simp] theorem State.setMem_stage (s : State) (m : List Host.Cell) : (s.setMem m).stage = s.stage := rfl
@[simp] theorem State.setMem_due (s : State) (m : List Host.Cell) : (s.setMem m).due = s.due := rfl
@[simp] theorem State.setMem_ev (s : State) (m : List Host.Cell) : (s.setMem m).ev = s.ev := rfl
@[simp] theorem State.setMem_agenda (s : State) (m : List Host.Cell) : (s.setMem m).agenda = s.agenda := rfl
@[simp] theorem State.setMem_nextId (s : State) (m : List Host.Cell) : (s.setMem m).nextId = s.nextId := rfl
@[simp] theorem State.setMem_freeCtr (s : State) (m : List Host.Cell) : (s.setMem m).freeCtr = s.freeCtr := rfl
@[simp] theorem State.setMem_mem (s : State) (m : List Host.Cell) :
    (s.setMem m).mem = m := rfl
@[simp] theorem State.setMem_acc (s : State) (m : List Host.Cell) : (s.setMem m).acc = s.acc := rfl
@[simp] theorem State.setMem_uce (s : State) (m : List Host.Cell) : (s.setMem m).uce = s.uce := rfl
@[simp] theorem State.setMem_sbe (s : State) (m : List Host.Cell) : (s.setMem m).sbe = s.sbe := rfl
@[simp] theorem State.setMem_pkgs (s : State) (m : List Host.Cell) : (s.setMem m).pkgs = s.pkgs := rfl
@[simp] theorem State.setMem_ctxs (s : State) (m : List Host.Cell) : (s.setMem m).ctxs = s.ctxs := rfl
@[simp] theorem State.setMem_gangs (s : State) (m : List Host.Cell) : (s.setMem m).gangs = s.gangs := rfl
@[simp] theorem State.setMem_teams (s : State) (m : List Host.Cell) : (s.setMem m).teams = s.teams := rfl
@[simp] theorem State.setMem_cores (s : State) (m : List Host.Cell) : (s.setMem m).cores = s.cores := rfl
@[simp] theorem State.setMem_flights (s : State) (m : List Host.Cell) : (s.setMem m).flights = s.flights := rfl
@[simp] theorem State.setMem_landings (s : State) (m : List Host.Cell) : (s.setMem m).landings = s.landings := rfl
@[simp] theorem State.setMem_staged (s : State) (m : List Host.Cell) : (s.setMem m).staged = s.staged := rfl
@[simp] theorem State.setMem_gathers (s : State) (m : List Host.Cell) : (s.setMem m).gathers = s.gathers := rfl
@[simp] theorem State.setMem_walks (s : State) (m : List Host.Cell) : (s.setMem m).walks = s.walks := rfl
@[simp] theorem State.setMem_pcs (s : State) (m : List Host.Cell) : (s.setMem m).pcs = s.pcs := rfl
@[simp] theorem State.setMem_packets (s : State) (m : List Host.Cell) : (s.setMem m).packets = s.packets := rfl
@[simp] theorem State.setMem_objs (s : State) (m : List Host.Cell) : (s.setMem m).objs = s.objs := rfl
@[simp] theorem State.setMem_records (s : State) (m : List Host.Cell) : (s.setMem m).records = s.records := rfl
@[simp] theorem State.setMem_responses (s : State) (m : List Host.Cell) : (s.setMem m).responses = s.responses := rfl
@[simp] theorem State.setMem_notices (s : State) (m : List Host.Cell) : (s.setMem m).notices = s.notices := rfl
@[simp] theorem State.setMem_outbound (s : State) (m : List Host.Cell) : (s.setMem m).outbound = s.outbound := rfl

/-! ### `modPkg` -/

@[simp] theorem State.modPkg_wtc (s : State) (p : Nat) (f : Pkg → Pkg) : (s.modPkg p f).wtc = s.wtc := rfl
@[simp] theorem State.modPkg_stage (s : State) (p : Nat) (f : Pkg → Pkg) : (s.modPkg p f).stage = s.stage := rfl
@[simp] theorem State.modPkg_due (s : State) (p : Nat) (f : Pkg → Pkg) : (s.modPkg p f).due = s.due := rfl
@[simp] theorem State.modPkg_ev (s : State) (p : Nat) (f : Pkg → Pkg) : (s.modPkg p f).ev = s.ev := rfl
@[simp] theorem State.modPkg_agenda (s : State) (p : Nat) (f : Pkg → Pkg) : (s.modPkg p f).agenda = s.agenda := rfl
@[simp] theorem State.modPkg_nextId (s : State) (p : Nat) (f : Pkg → Pkg) : (s.modPkg p f).nextId = s.nextId := rfl
@[simp] theorem State.modPkg_freeCtr (s : State) (p : Nat) (f : Pkg → Pkg) : (s.modPkg p f).freeCtr = s.freeCtr := rfl
@[simp] theorem State.modPkg_mem (s : State) (p : Nat) (f : Pkg → Pkg) : (s.modPkg p f).mem = s.mem := rfl
@[simp] theorem State.modPkg_acc (s : State) (p : Nat) (f : Pkg → Pkg) : (s.modPkg p f).acc = s.acc := rfl
@[simp] theorem State.modPkg_uce (s : State) (p : Nat) (f : Pkg → Pkg) : (s.modPkg p f).uce = s.uce := rfl
@[simp] theorem State.modPkg_sbe (s : State) (p : Nat) (f : Pkg → Pkg) : (s.modPkg p f).sbe = s.sbe := rfl
@[simp] theorem State.modPkg_pkgs (s : State) (p : Nat) (f : Pkg → Pkg) :
    (s.modPkg p f).pkgs = s.pkgs.modify p f := rfl
@[simp] theorem State.modPkg_ctxs (s : State) (p : Nat) (f : Pkg → Pkg) : (s.modPkg p f).ctxs = s.ctxs := rfl
@[simp] theorem State.modPkg_gangs (s : State) (p : Nat) (f : Pkg → Pkg) : (s.modPkg p f).gangs = s.gangs := rfl
@[simp] theorem State.modPkg_teams (s : State) (p : Nat) (f : Pkg → Pkg) : (s.modPkg p f).teams = s.teams := rfl
@[simp] theorem State.modPkg_cores (s : State) (p : Nat) (f : Pkg → Pkg) : (s.modPkg p f).cores = s.cores := rfl
@[simp] theorem State.modPkg_flights (s : State) (p : Nat) (f : Pkg → Pkg) : (s.modPkg p f).flights = s.flights := rfl
@[simp] theorem State.modPkg_landings (s : State) (p : Nat) (f : Pkg → Pkg) : (s.modPkg p f).landings = s.landings := rfl
@[simp] theorem State.modPkg_staged (s : State) (p : Nat) (f : Pkg → Pkg) : (s.modPkg p f).staged = s.staged := rfl
@[simp] theorem State.modPkg_gathers (s : State) (p : Nat) (f : Pkg → Pkg) : (s.modPkg p f).gathers = s.gathers := rfl
@[simp] theorem State.modPkg_walks (s : State) (p : Nat) (f : Pkg → Pkg) : (s.modPkg p f).walks = s.walks := rfl
@[simp] theorem State.modPkg_pcs (s : State) (p : Nat) (f : Pkg → Pkg) : (s.modPkg p f).pcs = s.pcs := rfl
@[simp] theorem State.modPkg_packets (s : State) (p : Nat) (f : Pkg → Pkg) : (s.modPkg p f).packets = s.packets := rfl
@[simp] theorem State.modPkg_objs (s : State) (p : Nat) (f : Pkg → Pkg) : (s.modPkg p f).objs = s.objs := rfl
@[simp] theorem State.modPkg_records (s : State) (p : Nat) (f : Pkg → Pkg) : (s.modPkg p f).records = s.records := rfl
@[simp] theorem State.modPkg_responses (s : State) (p : Nat) (f : Pkg → Pkg) : (s.modPkg p f).responses = s.responses := rfl
@[simp] theorem State.modPkg_notices (s : State) (p : Nat) (f : Pkg → Pkg) : (s.modPkg p f).notices = s.notices := rfl
@[simp] theorem State.modPkg_outbound (s : State) (p : Nat) (f : Pkg → Pkg) : (s.modPkg p f).outbound = s.outbound := rfl

/-! ### `modCore` -/

@[simp] theorem State.modCore_wtc (s : State) (p c : Nat) (f : Core → Core) : (s.modCore p c f).wtc = s.wtc := rfl
@[simp] theorem State.modCore_stage (s : State) (p c : Nat) (f : Core → Core) : (s.modCore p c f).stage = s.stage := rfl
@[simp] theorem State.modCore_due (s : State) (p c : Nat) (f : Core → Core) : (s.modCore p c f).due = s.due := rfl
@[simp] theorem State.modCore_ev (s : State) (p c : Nat) (f : Core → Core) : (s.modCore p c f).ev = s.ev := rfl
@[simp] theorem State.modCore_agenda (s : State) (p c : Nat) (f : Core → Core) : (s.modCore p c f).agenda = s.agenda := rfl
@[simp] theorem State.modCore_nextId (s : State) (p c : Nat) (f : Core → Core) : (s.modCore p c f).nextId = s.nextId := rfl
@[simp] theorem State.modCore_freeCtr (s : State) (p c : Nat) (f : Core → Core) : (s.modCore p c f).freeCtr = s.freeCtr := rfl
@[simp] theorem State.modCore_mem (s : State) (p c : Nat) (f : Core → Core) : (s.modCore p c f).mem = s.mem := rfl
@[simp] theorem State.modCore_acc (s : State) (p c : Nat) (f : Core → Core) : (s.modCore p c f).acc = s.acc := rfl
@[simp] theorem State.modCore_uce (s : State) (p c : Nat) (f : Core → Core) : (s.modCore p c f).uce = s.uce := rfl
@[simp] theorem State.modCore_sbe (s : State) (p c : Nat) (f : Core → Core) : (s.modCore p c f).sbe = s.sbe := rfl
@[simp] theorem State.modCore_pkgs (s : State) (p c : Nat) (f : Core → Core) : (s.modCore p c f).pkgs = s.pkgs := rfl
@[simp] theorem State.modCore_ctxs (s : State) (p c : Nat) (f : Core → Core) : (s.modCore p c f).ctxs = s.ctxs := rfl
@[simp] theorem State.modCore_gangs (s : State) (p c : Nat) (f : Core → Core) : (s.modCore p c f).gangs = s.gangs := rfl
@[simp] theorem State.modCore_teams (s : State) (p c : Nat) (f : Core → Core) : (s.modCore p c f).teams = s.teams := rfl
@[simp] theorem State.modCore_cores (s : State) (p c : Nat) (f : Core → Core) :
    (s.modCore p c f).cores = s.cores.modify (256 * p + c) f := rfl
@[simp] theorem State.modCore_flights (s : State) (p c : Nat) (f : Core → Core) : (s.modCore p c f).flights = s.flights := rfl
@[simp] theorem State.modCore_landings (s : State) (p c : Nat) (f : Core → Core) : (s.modCore p c f).landings = s.landings := rfl
@[simp] theorem State.modCore_staged (s : State) (p c : Nat) (f : Core → Core) : (s.modCore p c f).staged = s.staged := rfl
@[simp] theorem State.modCore_gathers (s : State) (p c : Nat) (f : Core → Core) : (s.modCore p c f).gathers = s.gathers := rfl
@[simp] theorem State.modCore_walks (s : State) (p c : Nat) (f : Core → Core) : (s.modCore p c f).walks = s.walks := rfl
@[simp] theorem State.modCore_pcs (s : State) (p c : Nat) (f : Core → Core) : (s.modCore p c f).pcs = s.pcs := rfl
@[simp] theorem State.modCore_packets (s : State) (p c : Nat) (f : Core → Core) : (s.modCore p c f).packets = s.packets := rfl
@[simp] theorem State.modCore_objs (s : State) (p c : Nat) (f : Core → Core) : (s.modCore p c f).objs = s.objs := rfl
@[simp] theorem State.modCore_records (s : State) (p c : Nat) (f : Core → Core) : (s.modCore p c f).records = s.records := rfl
@[simp] theorem State.modCore_responses (s : State) (p c : Nat) (f : Core → Core) : (s.modCore p c f).responses = s.responses := rfl
@[simp] theorem State.modCore_notices (s : State) (p c : Nat) (f : Core → Core) : (s.modCore p c f).notices = s.notices := rfl
@[simp] theorem State.modCore_outbound (s : State) (p c : Nat) (f : Core → Core) : (s.modCore p c f).outbound = s.outbound := rfl

/-! ### `modTeam` -/

@[simp] theorem State.modTeam_wtc (s : State) (t : Nat) (f : Team → Team) : (s.modTeam t f).wtc = s.wtc := rfl
@[simp] theorem State.modTeam_stage (s : State) (t : Nat) (f : Team → Team) : (s.modTeam t f).stage = s.stage := rfl
@[simp] theorem State.modTeam_due (s : State) (t : Nat) (f : Team → Team) : (s.modTeam t f).due = s.due := rfl
@[simp] theorem State.modTeam_ev (s : State) (t : Nat) (f : Team → Team) : (s.modTeam t f).ev = s.ev := rfl
@[simp] theorem State.modTeam_agenda (s : State) (t : Nat) (f : Team → Team) : (s.modTeam t f).agenda = s.agenda := rfl
@[simp] theorem State.modTeam_nextId (s : State) (t : Nat) (f : Team → Team) : (s.modTeam t f).nextId = s.nextId := rfl
@[simp] theorem State.modTeam_freeCtr (s : State) (t : Nat) (f : Team → Team) : (s.modTeam t f).freeCtr = s.freeCtr := rfl
@[simp] theorem State.modTeam_mem (s : State) (t : Nat) (f : Team → Team) : (s.modTeam t f).mem = s.mem := rfl
@[simp] theorem State.modTeam_acc (s : State) (t : Nat) (f : Team → Team) : (s.modTeam t f).acc = s.acc := rfl
@[simp] theorem State.modTeam_uce (s : State) (t : Nat) (f : Team → Team) : (s.modTeam t f).uce = s.uce := rfl
@[simp] theorem State.modTeam_sbe (s : State) (t : Nat) (f : Team → Team) : (s.modTeam t f).sbe = s.sbe := rfl
@[simp] theorem State.modTeam_pkgs (s : State) (t : Nat) (f : Team → Team) : (s.modTeam t f).pkgs = s.pkgs := rfl
@[simp] theorem State.modTeam_ctxs (s : State) (t : Nat) (f : Team → Team) : (s.modTeam t f).ctxs = s.ctxs := rfl
@[simp] theorem State.modTeam_gangs (s : State) (t : Nat) (f : Team → Team) : (s.modTeam t f).gangs = s.gangs := rfl
@[simp] theorem State.modTeam_teams (s : State) (t : Nat) (f : Team → Team) :
    (s.modTeam t f).teams = s.teams.map fun x => if x.id = t then f x else x := rfl
@[simp] theorem State.modTeam_cores (s : State) (t : Nat) (f : Team → Team) : (s.modTeam t f).cores = s.cores := rfl
@[simp] theorem State.modTeam_flights (s : State) (t : Nat) (f : Team → Team) : (s.modTeam t f).flights = s.flights := rfl
@[simp] theorem State.modTeam_landings (s : State) (t : Nat) (f : Team → Team) : (s.modTeam t f).landings = s.landings := rfl
@[simp] theorem State.modTeam_staged (s : State) (t : Nat) (f : Team → Team) : (s.modTeam t f).staged = s.staged := rfl
@[simp] theorem State.modTeam_gathers (s : State) (t : Nat) (f : Team → Team) : (s.modTeam t f).gathers = s.gathers := rfl
@[simp] theorem State.modTeam_walks (s : State) (t : Nat) (f : Team → Team) : (s.modTeam t f).walks = s.walks := rfl
@[simp] theorem State.modTeam_pcs (s : State) (t : Nat) (f : Team → Team) : (s.modTeam t f).pcs = s.pcs := rfl
@[simp] theorem State.modTeam_packets (s : State) (t : Nat) (f : Team → Team) : (s.modTeam t f).packets = s.packets := rfl
@[simp] theorem State.modTeam_objs (s : State) (t : Nat) (f : Team → Team) : (s.modTeam t f).objs = s.objs := rfl
@[simp] theorem State.modTeam_records (s : State) (t : Nat) (f : Team → Team) : (s.modTeam t f).records = s.records := rfl
@[simp] theorem State.modTeam_responses (s : State) (t : Nat) (f : Team → Team) : (s.modTeam t f).responses = s.responses := rfl
@[simp] theorem State.modTeam_notices (s : State) (t : Nat) (f : Team → Team) : (s.modTeam t f).notices = s.notices := rfl
@[simp] theorem State.modTeam_outbound (s : State) (t : Nat) (f : Team → Team) : (s.modTeam t f).outbound = s.outbound := rfl

/-! ### `modGang` -/

@[simp] theorem State.modGang_wtc (s : State) (g : Nat) (f : Gang → Gang) : (s.modGang g f).wtc = s.wtc := rfl
@[simp] theorem State.modGang_stage (s : State) (g : Nat) (f : Gang → Gang) : (s.modGang g f).stage = s.stage := rfl
@[simp] theorem State.modGang_due (s : State) (g : Nat) (f : Gang → Gang) : (s.modGang g f).due = s.due := rfl
@[simp] theorem State.modGang_ev (s : State) (g : Nat) (f : Gang → Gang) : (s.modGang g f).ev = s.ev := rfl
@[simp] theorem State.modGang_agenda (s : State) (g : Nat) (f : Gang → Gang) : (s.modGang g f).agenda = s.agenda := rfl
@[simp] theorem State.modGang_nextId (s : State) (g : Nat) (f : Gang → Gang) : (s.modGang g f).nextId = s.nextId := rfl
@[simp] theorem State.modGang_freeCtr (s : State) (g : Nat) (f : Gang → Gang) : (s.modGang g f).freeCtr = s.freeCtr := rfl
@[simp] theorem State.modGang_mem (s : State) (g : Nat) (f : Gang → Gang) : (s.modGang g f).mem = s.mem := rfl
@[simp] theorem State.modGang_acc (s : State) (g : Nat) (f : Gang → Gang) : (s.modGang g f).acc = s.acc := rfl
@[simp] theorem State.modGang_uce (s : State) (g : Nat) (f : Gang → Gang) : (s.modGang g f).uce = s.uce := rfl
@[simp] theorem State.modGang_sbe (s : State) (g : Nat) (f : Gang → Gang) : (s.modGang g f).sbe = s.sbe := rfl
@[simp] theorem State.modGang_pkgs (s : State) (g : Nat) (f : Gang → Gang) : (s.modGang g f).pkgs = s.pkgs := rfl
@[simp] theorem State.modGang_ctxs (s : State) (g : Nat) (f : Gang → Gang) : (s.modGang g f).ctxs = s.ctxs := rfl
@[simp] theorem State.modGang_gangs (s : State) (g : Nat) (f : Gang → Gang) :
    (s.modGang g f).gangs = s.gangs.map fun x => if x.id = g then f x else x := rfl
@[simp] theorem State.modGang_teams (s : State) (g : Nat) (f : Gang → Gang) : (s.modGang g f).teams = s.teams := rfl
@[simp] theorem State.modGang_cores (s : State) (g : Nat) (f : Gang → Gang) : (s.modGang g f).cores = s.cores := rfl
@[simp] theorem State.modGang_flights (s : State) (g : Nat) (f : Gang → Gang) : (s.modGang g f).flights = s.flights := rfl
@[simp] theorem State.modGang_landings (s : State) (g : Nat) (f : Gang → Gang) : (s.modGang g f).landings = s.landings := rfl
@[simp] theorem State.modGang_staged (s : State) (g : Nat) (f : Gang → Gang) : (s.modGang g f).staged = s.staged := rfl
@[simp] theorem State.modGang_gathers (s : State) (g : Nat) (f : Gang → Gang) : (s.modGang g f).gathers = s.gathers := rfl
@[simp] theorem State.modGang_walks (s : State) (g : Nat) (f : Gang → Gang) : (s.modGang g f).walks = s.walks := rfl
@[simp] theorem State.modGang_pcs (s : State) (g : Nat) (f : Gang → Gang) : (s.modGang g f).pcs = s.pcs := rfl
@[simp] theorem State.modGang_packets (s : State) (g : Nat) (f : Gang → Gang) : (s.modGang g f).packets = s.packets := rfl
@[simp] theorem State.modGang_objs (s : State) (g : Nat) (f : Gang → Gang) : (s.modGang g f).objs = s.objs := rfl
@[simp] theorem State.modGang_records (s : State) (g : Nat) (f : Gang → Gang) : (s.modGang g f).records = s.records := rfl
@[simp] theorem State.modGang_responses (s : State) (g : Nat) (f : Gang → Gang) : (s.modGang g f).responses = s.responses := rfl
@[simp] theorem State.modGang_notices (s : State) (g : Nat) (f : Gang → Gang) : (s.modGang g f).notices = s.notices := rfl
@[simp] theorem State.modGang_outbound (s : State) (g : Nat) (f : Gang → Gang) : (s.modGang g f).outbound = s.outbound := rfl

/-! ### `modCtx` -/

@[simp] theorem State.modCtx_wtc (s : State) (p n : Nat) (f : Ctx → Ctx) : (s.modCtx p n f).wtc = s.wtc := rfl
@[simp] theorem State.modCtx_stage (s : State) (p n : Nat) (f : Ctx → Ctx) : (s.modCtx p n f).stage = s.stage := rfl
@[simp] theorem State.modCtx_due (s : State) (p n : Nat) (f : Ctx → Ctx) : (s.modCtx p n f).due = s.due := rfl
@[simp] theorem State.modCtx_ev (s : State) (p n : Nat) (f : Ctx → Ctx) : (s.modCtx p n f).ev = s.ev := rfl
@[simp] theorem State.modCtx_agenda (s : State) (p n : Nat) (f : Ctx → Ctx) : (s.modCtx p n f).agenda = s.agenda := rfl
@[simp] theorem State.modCtx_nextId (s : State) (p n : Nat) (f : Ctx → Ctx) : (s.modCtx p n f).nextId = s.nextId := rfl
@[simp] theorem State.modCtx_freeCtr (s : State) (p n : Nat) (f : Ctx → Ctx) : (s.modCtx p n f).freeCtr = s.freeCtr := rfl
@[simp] theorem State.modCtx_mem (s : State) (p n : Nat) (f : Ctx → Ctx) : (s.modCtx p n f).mem = s.mem := rfl
@[simp] theorem State.modCtx_acc (s : State) (p n : Nat) (f : Ctx → Ctx) : (s.modCtx p n f).acc = s.acc := rfl
@[simp] theorem State.modCtx_uce (s : State) (p n : Nat) (f : Ctx → Ctx) : (s.modCtx p n f).uce = s.uce := rfl
@[simp] theorem State.modCtx_sbe (s : State) (p n : Nat) (f : Ctx → Ctx) : (s.modCtx p n f).sbe = s.sbe := rfl
@[simp] theorem State.modCtx_pkgs (s : State) (p n : Nat) (f : Ctx → Ctx) : (s.modCtx p n f).pkgs = s.pkgs := rfl
@[simp] theorem State.modCtx_ctxs (s : State) (p n : Nat) (f : Ctx → Ctx) :
    (s.modCtx p n f).ctxs = s.ctxs.map fun x => if x.pkg = p && x.num = n then f x else x := rfl
@[simp] theorem State.modCtx_gangs (s : State) (p n : Nat) (f : Ctx → Ctx) : (s.modCtx p n f).gangs = s.gangs := rfl
@[simp] theorem State.modCtx_teams (s : State) (p n : Nat) (f : Ctx → Ctx) : (s.modCtx p n f).teams = s.teams := rfl
@[simp] theorem State.modCtx_cores (s : State) (p n : Nat) (f : Ctx → Ctx) : (s.modCtx p n f).cores = s.cores := rfl
@[simp] theorem State.modCtx_flights (s : State) (p n : Nat) (f : Ctx → Ctx) : (s.modCtx p n f).flights = s.flights := rfl
@[simp] theorem State.modCtx_landings (s : State) (p n : Nat) (f : Ctx → Ctx) : (s.modCtx p n f).landings = s.landings := rfl
@[simp] theorem State.modCtx_staged (s : State) (p n : Nat) (f : Ctx → Ctx) : (s.modCtx p n f).staged = s.staged := rfl
@[simp] theorem State.modCtx_gathers (s : State) (p n : Nat) (f : Ctx → Ctx) : (s.modCtx p n f).gathers = s.gathers := rfl
@[simp] theorem State.modCtx_walks (s : State) (p n : Nat) (f : Ctx → Ctx) : (s.modCtx p n f).walks = s.walks := rfl
@[simp] theorem State.modCtx_pcs (s : State) (p n : Nat) (f : Ctx → Ctx) : (s.modCtx p n f).pcs = s.pcs := rfl
@[simp] theorem State.modCtx_packets (s : State) (p n : Nat) (f : Ctx → Ctx) : (s.modCtx p n f).packets = s.packets := rfl
@[simp] theorem State.modCtx_objs (s : State) (p n : Nat) (f : Ctx → Ctx) : (s.modCtx p n f).objs = s.objs := rfl
@[simp] theorem State.modCtx_records (s : State) (p n : Nat) (f : Ctx → Ctx) : (s.modCtx p n f).records = s.records := rfl
@[simp] theorem State.modCtx_responses (s : State) (p n : Nat) (f : Ctx → Ctx) : (s.modCtx p n f).responses = s.responses := rfl
@[simp] theorem State.modCtx_notices (s : State) (p n : Nat) (f : Ctx → Ctx) : (s.modCtx p n f).notices = s.notices := rfl
@[simp] theorem State.modCtx_outbound (s : State) (p n : Nat) (f : Ctx → Ctx) : (s.modCtx p n f).outbound = s.outbound := rfl

/-! ### `modFlight` -/

@[simp] theorem State.modFlight_wtc (s : State) (i : Nat) (f : Flight → Flight) : (s.modFlight i f).wtc = s.wtc := rfl
@[simp] theorem State.modFlight_stage (s : State) (i : Nat) (f : Flight → Flight) : (s.modFlight i f).stage = s.stage := rfl
@[simp] theorem State.modFlight_due (s : State) (i : Nat) (f : Flight → Flight) : (s.modFlight i f).due = s.due := rfl
@[simp] theorem State.modFlight_ev (s : State) (i : Nat) (f : Flight → Flight) : (s.modFlight i f).ev = s.ev := rfl
@[simp] theorem State.modFlight_agenda (s : State) (i : Nat) (f : Flight → Flight) : (s.modFlight i f).agenda = s.agenda := rfl
@[simp] theorem State.modFlight_nextId (s : State) (i : Nat) (f : Flight → Flight) : (s.modFlight i f).nextId = s.nextId := rfl
@[simp] theorem State.modFlight_freeCtr (s : State) (i : Nat) (f : Flight → Flight) : (s.modFlight i f).freeCtr = s.freeCtr := rfl
@[simp] theorem State.modFlight_mem (s : State) (i : Nat) (f : Flight → Flight) : (s.modFlight i f).mem = s.mem := rfl
@[simp] theorem State.modFlight_acc (s : State) (i : Nat) (f : Flight → Flight) : (s.modFlight i f).acc = s.acc := rfl
@[simp] theorem State.modFlight_uce (s : State) (i : Nat) (f : Flight → Flight) : (s.modFlight i f).uce = s.uce := rfl
@[simp] theorem State.modFlight_sbe (s : State) (i : Nat) (f : Flight → Flight) : (s.modFlight i f).sbe = s.sbe := rfl
@[simp] theorem State.modFlight_pkgs (s : State) (i : Nat) (f : Flight → Flight) : (s.modFlight i f).pkgs = s.pkgs := rfl
@[simp] theorem State.modFlight_ctxs (s : State) (i : Nat) (f : Flight → Flight) : (s.modFlight i f).ctxs = s.ctxs := rfl
@[simp] theorem State.modFlight_gangs (s : State) (i : Nat) (f : Flight → Flight) : (s.modFlight i f).gangs = s.gangs := rfl
@[simp] theorem State.modFlight_teams (s : State) (i : Nat) (f : Flight → Flight) : (s.modFlight i f).teams = s.teams := rfl
@[simp] theorem State.modFlight_cores (s : State) (i : Nat) (f : Flight → Flight) : (s.modFlight i f).cores = s.cores := rfl
@[simp] theorem State.modFlight_flights (s : State) (i : Nat) (f : Flight → Flight) :
    (s.modFlight i f).flights = s.flights.map fun x => if x.id = i then f x else x := rfl
@[simp] theorem State.modFlight_landings (s : State) (i : Nat) (f : Flight → Flight) : (s.modFlight i f).landings = s.landings := rfl
@[simp] theorem State.modFlight_staged (s : State) (i : Nat) (f : Flight → Flight) : (s.modFlight i f).staged = s.staged := rfl
@[simp] theorem State.modFlight_gathers (s : State) (i : Nat) (f : Flight → Flight) : (s.modFlight i f).gathers = s.gathers := rfl
@[simp] theorem State.modFlight_walks (s : State) (i : Nat) (f : Flight → Flight) : (s.modFlight i f).walks = s.walks := rfl
@[simp] theorem State.modFlight_pcs (s : State) (i : Nat) (f : Flight → Flight) : (s.modFlight i f).pcs = s.pcs := rfl
@[simp] theorem State.modFlight_packets (s : State) (i : Nat) (f : Flight → Flight) : (s.modFlight i f).packets = s.packets := rfl
@[simp] theorem State.modFlight_objs (s : State) (i : Nat) (f : Flight → Flight) : (s.modFlight i f).objs = s.objs := rfl
@[simp] theorem State.modFlight_records (s : State) (i : Nat) (f : Flight → Flight) : (s.modFlight i f).records = s.records := rfl
@[simp] theorem State.modFlight_responses (s : State) (i : Nat) (f : Flight → Flight) : (s.modFlight i f).responses = s.responses := rfl
@[simp] theorem State.modFlight_notices (s : State) (i : Nat) (f : Flight → Flight) : (s.modFlight i f).notices = s.notices := rfl
@[simp] theorem State.modFlight_outbound (s : State) (i : Nat) (f : Flight → Flight) : (s.modFlight i f).outbound = s.outbound := rfl

/-! ### `fresh` -/

@[simp] theorem State.fresh_wtc (s : State) : (s.fresh.2).wtc = s.wtc := rfl
@[simp] theorem State.fresh_stage (s : State) : (s.fresh.2).stage = s.stage := rfl
@[simp] theorem State.fresh_due (s : State) : (s.fresh.2).due = s.due := rfl
@[simp] theorem State.fresh_ev (s : State) : (s.fresh.2).ev = s.ev := rfl
@[simp] theorem State.fresh_agenda (s : State) : (s.fresh.2).agenda = s.agenda := rfl
@[simp] theorem State.fresh_nextId (s : State) :
    (s.fresh.2).nextId = s.nextId + 1 := rfl
@[simp] theorem State.fresh_freeCtr (s : State) : (s.fresh.2).freeCtr = s.freeCtr := rfl
@[simp] theorem State.fresh_mem (s : State) : (s.fresh.2).mem = s.mem := rfl
@[simp] theorem State.fresh_acc (s : State) : (s.fresh.2).acc = s.acc := rfl
@[simp] theorem State.fresh_uce (s : State) : (s.fresh.2).uce = s.uce := rfl
@[simp] theorem State.fresh_sbe (s : State) : (s.fresh.2).sbe = s.sbe := rfl
@[simp] theorem State.fresh_pkgs (s : State) : (s.fresh.2).pkgs = s.pkgs := rfl
@[simp] theorem State.fresh_ctxs (s : State) : (s.fresh.2).ctxs = s.ctxs := rfl
@[simp] theorem State.fresh_gangs (s : State) : (s.fresh.2).gangs = s.gangs := rfl
@[simp] theorem State.fresh_teams (s : State) : (s.fresh.2).teams = s.teams := rfl
@[simp] theorem State.fresh_cores (s : State) : (s.fresh.2).cores = s.cores := rfl
@[simp] theorem State.fresh_flights (s : State) : (s.fresh.2).flights = s.flights := rfl
@[simp] theorem State.fresh_landings (s : State) : (s.fresh.2).landings = s.landings := rfl
@[simp] theorem State.fresh_staged (s : State) : (s.fresh.2).staged = s.staged := rfl
@[simp] theorem State.fresh_gathers (s : State) : (s.fresh.2).gathers = s.gathers := rfl
@[simp] theorem State.fresh_walks (s : State) : (s.fresh.2).walks = s.walks := rfl
@[simp] theorem State.fresh_pcs (s : State) : (s.fresh.2).pcs = s.pcs := rfl
@[simp] theorem State.fresh_packets (s : State) : (s.fresh.2).packets = s.packets := rfl
@[simp] theorem State.fresh_objs (s : State) : (s.fresh.2).objs = s.objs := rfl
@[simp] theorem State.fresh_records (s : State) : (s.fresh.2).records = s.records := rfl
@[simp] theorem State.fresh_responses (s : State) : (s.fresh.2).responses = s.responses := rfl
@[simp] theorem State.fresh_notices (s : State) : (s.fresh.2).notices = s.notices := rfl
@[simp] theorem State.fresh_outbound (s : State) : (s.fresh.2).outbound = s.outbound := rfl

/-! ### `freeIndex` -/

@[simp] theorem State.freeIndex_wtc (s : State) : (s.freeIndex.2).wtc = s.wtc := rfl
@[simp] theorem State.freeIndex_stage (s : State) : (s.freeIndex.2).stage = s.stage := rfl
@[simp] theorem State.freeIndex_due (s : State) : (s.freeIndex.2).due = s.due := rfl
@[simp] theorem State.freeIndex_ev (s : State) : (s.freeIndex.2).ev = s.ev := rfl
@[simp] theorem State.freeIndex_agenda (s : State) : (s.freeIndex.2).agenda = s.agenda := rfl
@[simp] theorem State.freeIndex_nextId (s : State) : (s.freeIndex.2).nextId = s.nextId := rfl
@[simp] theorem State.freeIndex_freeCtr (s : State) :
    (s.freeIndex.2).freeCtr = s.freeCtr + 1 := rfl
@[simp] theorem State.freeIndex_mem (s : State) : (s.freeIndex.2).mem = s.mem := rfl
@[simp] theorem State.freeIndex_acc (s : State) : (s.freeIndex.2).acc = s.acc := rfl
@[simp] theorem State.freeIndex_uce (s : State) : (s.freeIndex.2).uce = s.uce := rfl
@[simp] theorem State.freeIndex_sbe (s : State) : (s.freeIndex.2).sbe = s.sbe := rfl
@[simp] theorem State.freeIndex_pkgs (s : State) : (s.freeIndex.2).pkgs = s.pkgs := rfl
@[simp] theorem State.freeIndex_ctxs (s : State) : (s.freeIndex.2).ctxs = s.ctxs := rfl
@[simp] theorem State.freeIndex_gangs (s : State) : (s.freeIndex.2).gangs = s.gangs := rfl
@[simp] theorem State.freeIndex_teams (s : State) : (s.freeIndex.2).teams = s.teams := rfl
@[simp] theorem State.freeIndex_cores (s : State) : (s.freeIndex.2).cores = s.cores := rfl
@[simp] theorem State.freeIndex_flights (s : State) : (s.freeIndex.2).flights = s.flights := rfl
@[simp] theorem State.freeIndex_landings (s : State) : (s.freeIndex.2).landings = s.landings := rfl
@[simp] theorem State.freeIndex_staged (s : State) : (s.freeIndex.2).staged = s.staged := rfl
@[simp] theorem State.freeIndex_gathers (s : State) : (s.freeIndex.2).gathers = s.gathers := rfl
@[simp] theorem State.freeIndex_walks (s : State) : (s.freeIndex.2).walks = s.walks := rfl
@[simp] theorem State.freeIndex_pcs (s : State) : (s.freeIndex.2).pcs = s.pcs := rfl
@[simp] theorem State.freeIndex_packets (s : State) : (s.freeIndex.2).packets = s.packets := rfl
@[simp] theorem State.freeIndex_objs (s : State) : (s.freeIndex.2).objs = s.objs := rfl
@[simp] theorem State.freeIndex_records (s : State) : (s.freeIndex.2).records = s.records := rfl
@[simp] theorem State.freeIndex_responses (s : State) : (s.freeIndex.2).responses = s.responses := rfl
@[simp] theorem State.freeIndex_notices (s : State) : (s.freeIndex.2).notices = s.notices := rfl
@[simp] theorem State.freeIndex_outbound (s : State) : (s.freeIndex.2).outbound = s.outbound := rfl

/-! ### `leave` -/

@[simp] theorem State.leave_wtc (s : State) (p kind a b : Nat) (ok : Bool) (data : List Byte) : (s.leave p kind a b ok data).wtc = s.wtc := rfl
@[simp] theorem State.leave_stage (s : State) (p kind a b : Nat) (ok : Bool) (data : List Byte) : (s.leave p kind a b ok data).stage = s.stage := rfl
@[simp] theorem State.leave_due (s : State) (p kind a b : Nat) (ok : Bool) (data : List Byte) : (s.leave p kind a b ok data).due = s.due := rfl
@[simp] theorem State.leave_ev (s : State) (p kind a b : Nat) (ok : Bool) (data : List Byte) : (s.leave p kind a b ok data).ev = s.ev := rfl
@[simp] theorem State.leave_agenda (s : State) (p kind a b : Nat) (ok : Bool) (data : List Byte) : (s.leave p kind a b ok data).agenda = s.agenda := rfl
@[simp] theorem State.leave_nextId (s : State) (p kind a b : Nat) (ok : Bool) (data : List Byte) : (s.leave p kind a b ok data).nextId = s.nextId := rfl
@[simp] theorem State.leave_freeCtr (s : State) (p kind a b : Nat) (ok : Bool) (data : List Byte) : (s.leave p kind a b ok data).freeCtr = s.freeCtr := rfl
@[simp] theorem State.leave_mem (s : State) (p kind a b : Nat) (ok : Bool) (data : List Byte) : (s.leave p kind a b ok data).mem = s.mem := rfl
@[simp] theorem State.leave_acc (s : State) (p kind a b : Nat) (ok : Bool) (data : List Byte) : (s.leave p kind a b ok data).acc = s.acc := rfl
@[simp] theorem State.leave_uce (s : State) (p kind a b : Nat) (ok : Bool) (data : List Byte) : (s.leave p kind a b ok data).uce = s.uce := rfl
@[simp] theorem State.leave_sbe (s : State) (p kind a b : Nat) (ok : Bool) (data : List Byte) : (s.leave p kind a b ok data).sbe = s.sbe := rfl
@[simp] theorem State.leave_pkgs (s : State) (p kind a b : Nat) (ok : Bool) (data : List Byte) : (s.leave p kind a b ok data).pkgs = s.pkgs := rfl
@[simp] theorem State.leave_ctxs (s : State) (p kind a b : Nat) (ok : Bool) (data : List Byte) : (s.leave p kind a b ok data).ctxs = s.ctxs := rfl
@[simp] theorem State.leave_gangs (s : State) (p kind a b : Nat) (ok : Bool) (data : List Byte) : (s.leave p kind a b ok data).gangs = s.gangs := rfl
@[simp] theorem State.leave_teams (s : State) (p kind a b : Nat) (ok : Bool) (data : List Byte) : (s.leave p kind a b ok data).teams = s.teams := rfl
@[simp] theorem State.leave_cores (s : State) (p kind a b : Nat) (ok : Bool) (data : List Byte) : (s.leave p kind a b ok data).cores = s.cores := rfl
@[simp] theorem State.leave_flights (s : State) (p kind a b : Nat) (ok : Bool) (data : List Byte) : (s.leave p kind a b ok data).flights = s.flights := rfl
@[simp] theorem State.leave_landings (s : State) (p kind a b : Nat) (ok : Bool) (data : List Byte) : (s.leave p kind a b ok data).landings = s.landings := rfl
@[simp] theorem State.leave_staged (s : State) (p kind a b : Nat) (ok : Bool) (data : List Byte) : (s.leave p kind a b ok data).staged = s.staged := rfl
@[simp] theorem State.leave_gathers (s : State) (p kind a b : Nat) (ok : Bool) (data : List Byte) : (s.leave p kind a b ok data).gathers = s.gathers := rfl
@[simp] theorem State.leave_walks (s : State) (p kind a b : Nat) (ok : Bool) (data : List Byte) : (s.leave p kind a b ok data).walks = s.walks := rfl
@[simp] theorem State.leave_pcs (s : State) (p kind a b : Nat) (ok : Bool) (data : List Byte) : (s.leave p kind a b ok data).pcs = s.pcs := rfl
@[simp] theorem State.leave_packets (s : State) (p kind a b : Nat) (ok : Bool) (data : List Byte) : (s.leave p kind a b ok data).packets = s.packets := rfl
@[simp] theorem State.leave_objs (s : State) (p kind a b : Nat) (ok : Bool) (data : List Byte) : (s.leave p kind a b ok data).objs = s.objs := rfl
@[simp] theorem State.leave_records (s : State) (p kind a b : Nat) (ok : Bool) (data : List Byte) : (s.leave p kind a b ok data).records = s.records := rfl
@[simp] theorem State.leave_responses (s : State) (p kind a b : Nat) (ok : Bool) (data : List Byte) : (s.leave p kind a b ok data).responses = s.responses := rfl
@[simp] theorem State.leave_notices (s : State) (p kind a b : Nat) (ok : Bool) (data : List Byte) : (s.leave p kind a b ok data).notices = s.notices := rfl
@[simp] theorem State.leave_outbound (s : State) (p kind a b : Nat) (ok : Bool) (data : List Byte) :
    (s.leave p kind a b ok data).outbound = s.outbound ++ [⟨p, kind, a, b, s.wtc, ok, data⟩] := rfl

/-! ### `at` -/

@[simp] theorem State.at_wtc (s : State) (cyc prio : Nat) (key : List Nat) (i : Instr) : (s.at cyc prio key i).wtc = s.wtc := rfl
@[simp] theorem State.at_stage (s : State) (cyc prio : Nat) (key : List Nat) (i : Instr) : (s.at cyc prio key i).stage = s.stage := rfl
@[simp] theorem State.at_due (s : State) (cyc prio : Nat) (key : List Nat) (i : Instr) : (s.at cyc prio key i).due = s.due := rfl
@[simp] theorem State.at_ev (s : State) (cyc prio : Nat) (key : List Nat) (i : Instr) : (s.at cyc prio key i).ev = s.ev := rfl
@[simp] theorem State.at_agenda (s : State) (cyc prio : Nat) (key : List Nat) (i : Instr) :
    (s.at cyc prio key i).agenda = insertEntry ⟨cyc, prio, key, i⟩ s.agenda := rfl
@[simp] theorem State.at_nextId (s : State) (cyc prio : Nat) (key : List Nat) (i : Instr) : (s.at cyc prio key i).nextId = s.nextId := rfl
@[simp] theorem State.at_freeCtr (s : State) (cyc prio : Nat) (key : List Nat) (i : Instr) : (s.at cyc prio key i).freeCtr = s.freeCtr := rfl
@[simp] theorem State.at_mem (s : State) (cyc prio : Nat) (key : List Nat) (i : Instr) : (s.at cyc prio key i).mem = s.mem := rfl
@[simp] theorem State.at_acc (s : State) (cyc prio : Nat) (key : List Nat) (i : Instr) : (s.at cyc prio key i).acc = s.acc := rfl
@[simp] theorem State.at_uce (s : State) (cyc prio : Nat) (key : List Nat) (i : Instr) : (s.at cyc prio key i).uce = s.uce := rfl
@[simp] theorem State.at_sbe (s : State) (cyc prio : Nat) (key : List Nat) (i : Instr) : (s.at cyc prio key i).sbe = s.sbe := rfl
@[simp] theorem State.at_pkgs (s : State) (cyc prio : Nat) (key : List Nat) (i : Instr) : (s.at cyc prio key i).pkgs = s.pkgs := rfl
@[simp] theorem State.at_ctxs (s : State) (cyc prio : Nat) (key : List Nat) (i : Instr) : (s.at cyc prio key i).ctxs = s.ctxs := rfl
@[simp] theorem State.at_gangs (s : State) (cyc prio : Nat) (key : List Nat) (i : Instr) : (s.at cyc prio key i).gangs = s.gangs := rfl
@[simp] theorem State.at_teams (s : State) (cyc prio : Nat) (key : List Nat) (i : Instr) : (s.at cyc prio key i).teams = s.teams := rfl
@[simp] theorem State.at_cores (s : State) (cyc prio : Nat) (key : List Nat) (i : Instr) : (s.at cyc prio key i).cores = s.cores := rfl
@[simp] theorem State.at_flights (s : State) (cyc prio : Nat) (key : List Nat) (i : Instr) : (s.at cyc prio key i).flights = s.flights := rfl
@[simp] theorem State.at_landings (s : State) (cyc prio : Nat) (key : List Nat) (i : Instr) : (s.at cyc prio key i).landings = s.landings := rfl
@[simp] theorem State.at_staged (s : State) (cyc prio : Nat) (key : List Nat) (i : Instr) : (s.at cyc prio key i).staged = s.staged := rfl
@[simp] theorem State.at_gathers (s : State) (cyc prio : Nat) (key : List Nat) (i : Instr) : (s.at cyc prio key i).gathers = s.gathers := rfl
@[simp] theorem State.at_walks (s : State) (cyc prio : Nat) (key : List Nat) (i : Instr) : (s.at cyc prio key i).walks = s.walks := rfl
@[simp] theorem State.at_pcs (s : State) (cyc prio : Nat) (key : List Nat) (i : Instr) : (s.at cyc prio key i).pcs = s.pcs := rfl
@[simp] theorem State.at_packets (s : State) (cyc prio : Nat) (key : List Nat) (i : Instr) : (s.at cyc prio key i).packets = s.packets := rfl
@[simp] theorem State.at_objs (s : State) (cyc prio : Nat) (key : List Nat) (i : Instr) : (s.at cyc prio key i).objs = s.objs := rfl
@[simp] theorem State.at_records (s : State) (cyc prio : Nat) (key : List Nat) (i : Instr) : (s.at cyc prio key i).records = s.records := rfl
@[simp] theorem State.at_responses (s : State) (cyc prio : Nat) (key : List Nat) (i : Instr) : (s.at cyc prio key i).responses = s.responses := rfl
@[simp] theorem State.at_notices (s : State) (cyc prio : Nat) (key : List Nat) (i : Instr) : (s.at cyc prio key i).notices = s.notices := rfl
@[simp] theorem State.at_outbound (s : State) (cyc prio : Nat) (key : List Nat) (i : Instr) : (s.at cyc prio key i).outbound = s.outbound := rfl

/-! ### `then` -/

@[simp] theorem State.then_wtc (s : State) (i : Instr) : (s.then i).wtc = s.wtc := rfl
@[simp] theorem State.then_stage (s : State) (i : Instr) : (s.then i).stage = s.stage := rfl
@[simp] theorem State.then_due (s : State) (i : Instr) :
    (s.then i).due = .op i :: s.due := rfl
@[simp] theorem State.then_ev (s : State) (i : Instr) : (s.then i).ev = s.ev := rfl
@[simp] theorem State.then_agenda (s : State) (i : Instr) : (s.then i).agenda = s.agenda := rfl
@[simp] theorem State.then_nextId (s : State) (i : Instr) : (s.then i).nextId = s.nextId := rfl
@[simp] theorem State.then_freeCtr (s : State) (i : Instr) : (s.then i).freeCtr = s.freeCtr := rfl
@[simp] theorem State.then_mem (s : State) (i : Instr) : (s.then i).mem = s.mem := rfl
@[simp] theorem State.then_acc (s : State) (i : Instr) : (s.then i).acc = s.acc := rfl
@[simp] theorem State.then_uce (s : State) (i : Instr) : (s.then i).uce = s.uce := rfl
@[simp] theorem State.then_sbe (s : State) (i : Instr) : (s.then i).sbe = s.sbe := rfl
@[simp] theorem State.then_pkgs (s : State) (i : Instr) : (s.then i).pkgs = s.pkgs := rfl
@[simp] theorem State.then_ctxs (s : State) (i : Instr) : (s.then i).ctxs = s.ctxs := rfl
@[simp] theorem State.then_gangs (s : State) (i : Instr) : (s.then i).gangs = s.gangs := rfl
@[simp] theorem State.then_teams (s : State) (i : Instr) : (s.then i).teams = s.teams := rfl
@[simp] theorem State.then_cores (s : State) (i : Instr) : (s.then i).cores = s.cores := rfl
@[simp] theorem State.then_flights (s : State) (i : Instr) : (s.then i).flights = s.flights := rfl
@[simp] theorem State.then_landings (s : State) (i : Instr) : (s.then i).landings = s.landings := rfl
@[simp] theorem State.then_staged (s : State) (i : Instr) : (s.then i).staged = s.staged := rfl
@[simp] theorem State.then_gathers (s : State) (i : Instr) : (s.then i).gathers = s.gathers := rfl
@[simp] theorem State.then_walks (s : State) (i : Instr) : (s.then i).walks = s.walks := rfl
@[simp] theorem State.then_pcs (s : State) (i : Instr) : (s.then i).pcs = s.pcs := rfl
@[simp] theorem State.then_packets (s : State) (i : Instr) : (s.then i).packets = s.packets := rfl
@[simp] theorem State.then_objs (s : State) (i : Instr) : (s.then i).objs = s.objs := rfl
@[simp] theorem State.then_records (s : State) (i : Instr) : (s.then i).records = s.records := rfl
@[simp] theorem State.then_responses (s : State) (i : Instr) : (s.then i).responses = s.responses := rfl
@[simp] theorem State.then_notices (s : State) (i : Instr) : (s.then i).notices = s.notices := rfl
@[simp] theorem State.then_outbound (s : State) (i : Instr) : (s.then i).outbound = s.outbound := rfl

/-! ### `push` -/

@[simp] theorem State.push_wtc (s : State) (i : Instr) : (s.push i).wtc = s.wtc := rfl
@[simp] theorem State.push_stage (s : State) (i : Instr) : (s.push i).stage = s.stage := rfl
@[simp] theorem State.push_due (s : State) (i : Instr) :
    (s.push i).due = .op i :: s.due := rfl
@[simp] theorem State.push_ev (s : State) (i : Instr) : (s.push i).ev = s.ev := rfl
@[simp] theorem State.push_agenda (s : State) (i : Instr) : (s.push i).agenda = s.agenda := rfl
@[simp] theorem State.push_nextId (s : State) (i : Instr) : (s.push i).nextId = s.nextId := rfl
@[simp] theorem State.push_freeCtr (s : State) (i : Instr) : (s.push i).freeCtr = s.freeCtr := rfl
@[simp] theorem State.push_mem (s : State) (i : Instr) : (s.push i).mem = s.mem := rfl
@[simp] theorem State.push_acc (s : State) (i : Instr) : (s.push i).acc = s.acc := rfl
@[simp] theorem State.push_uce (s : State) (i : Instr) : (s.push i).uce = s.uce := rfl
@[simp] theorem State.push_sbe (s : State) (i : Instr) : (s.push i).sbe = s.sbe := rfl
@[simp] theorem State.push_pkgs (s : State) (i : Instr) : (s.push i).pkgs = s.pkgs := rfl
@[simp] theorem State.push_ctxs (s : State) (i : Instr) : (s.push i).ctxs = s.ctxs := rfl
@[simp] theorem State.push_gangs (s : State) (i : Instr) : (s.push i).gangs = s.gangs := rfl
@[simp] theorem State.push_teams (s : State) (i : Instr) : (s.push i).teams = s.teams := rfl
@[simp] theorem State.push_cores (s : State) (i : Instr) : (s.push i).cores = s.cores := rfl
@[simp] theorem State.push_flights (s : State) (i : Instr) : (s.push i).flights = s.flights := rfl
@[simp] theorem State.push_landings (s : State) (i : Instr) : (s.push i).landings = s.landings := rfl
@[simp] theorem State.push_staged (s : State) (i : Instr) : (s.push i).staged = s.staged := rfl
@[simp] theorem State.push_gathers (s : State) (i : Instr) : (s.push i).gathers = s.gathers := rfl
@[simp] theorem State.push_walks (s : State) (i : Instr) : (s.push i).walks = s.walks := rfl
@[simp] theorem State.push_pcs (s : State) (i : Instr) : (s.push i).pcs = s.pcs := rfl
@[simp] theorem State.push_packets (s : State) (i : Instr) : (s.push i).packets = s.packets := rfl
@[simp] theorem State.push_objs (s : State) (i : Instr) : (s.push i).objs = s.objs := rfl
@[simp] theorem State.push_records (s : State) (i : Instr) : (s.push i).records = s.records := rfl
@[simp] theorem State.push_responses (s : State) (i : Instr) : (s.push i).responses = s.responses := rfl
@[simp] theorem State.push_notices (s : State) (i : Instr) : (s.push i).notices = s.notices := rfl
@[simp] theorem State.push_outbound (s : State) (i : Instr) : (s.push i).outbound = s.outbound := rfl

/-! ### `goTo` -/

@[simp] theorem State.goTo_wtc (s : State) (n : Nat) : (s.goTo n).wtc = s.wtc := rfl
@[simp] theorem State.goTo_stage (s : State) (n : Nat) :
    (s.goTo n).stage = n := rfl
@[simp] theorem State.goTo_due (s : State) (n : Nat) : (s.goTo n).due = s.due := rfl
@[simp] theorem State.goTo_ev (s : State) (n : Nat) : (s.goTo n).ev = s.ev := rfl
@[simp] theorem State.goTo_agenda (s : State) (n : Nat) : (s.goTo n).agenda = s.agenda := rfl
@[simp] theorem State.goTo_nextId (s : State) (n : Nat) : (s.goTo n).nextId = s.nextId := rfl
@[simp] theorem State.goTo_freeCtr (s : State) (n : Nat) : (s.goTo n).freeCtr = s.freeCtr := rfl
@[simp] theorem State.goTo_mem (s : State) (n : Nat) : (s.goTo n).mem = s.mem := rfl
@[simp] theorem State.goTo_acc (s : State) (n : Nat) : (s.goTo n).acc = s.acc := rfl
@[simp] theorem State.goTo_uce (s : State) (n : Nat) : (s.goTo n).uce = s.uce := rfl
@[simp] theorem State.goTo_sbe (s : State) (n : Nat) : (s.goTo n).sbe = s.sbe := rfl
@[simp] theorem State.goTo_pkgs (s : State) (n : Nat) : (s.goTo n).pkgs = s.pkgs := rfl
@[simp] theorem State.goTo_ctxs (s : State) (n : Nat) : (s.goTo n).ctxs = s.ctxs := rfl
@[simp] theorem State.goTo_gangs (s : State) (n : Nat) : (s.goTo n).gangs = s.gangs := rfl
@[simp] theorem State.goTo_teams (s : State) (n : Nat) : (s.goTo n).teams = s.teams := rfl
@[simp] theorem State.goTo_cores (s : State) (n : Nat) : (s.goTo n).cores = s.cores := rfl
@[simp] theorem State.goTo_flights (s : State) (n : Nat) : (s.goTo n).flights = s.flights := rfl
@[simp] theorem State.goTo_landings (s : State) (n : Nat) : (s.goTo n).landings = s.landings := rfl
@[simp] theorem State.goTo_staged (s : State) (n : Nat) : (s.goTo n).staged = s.staged := rfl
@[simp] theorem State.goTo_gathers (s : State) (n : Nat) : (s.goTo n).gathers = s.gathers := rfl
@[simp] theorem State.goTo_walks (s : State) (n : Nat) : (s.goTo n).walks = s.walks := rfl
@[simp] theorem State.goTo_pcs (s : State) (n : Nat) : (s.goTo n).pcs = s.pcs := rfl
@[simp] theorem State.goTo_packets (s : State) (n : Nat) : (s.goTo n).packets = s.packets := rfl
@[simp] theorem State.goTo_objs (s : State) (n : Nat) : (s.goTo n).objs = s.objs := rfl
@[simp] theorem State.goTo_records (s : State) (n : Nat) : (s.goTo n).records = s.records := rfl
@[simp] theorem State.goTo_responses (s : State) (n : Nat) : (s.goTo n).responses = s.responses := rfl
@[simp] theorem State.goTo_notices (s : State) (n : Nat) : (s.goTo n).notices = s.notices := rfl
@[simp] theorem State.goTo_outbound (s : State) (n : Nat) : (s.goTo n).outbound = s.outbound := rfl

/-! ### `dropStaged` -/

@[simp] theorem State.dropStaged_wtc (s : State) (i : Nat) : (s.dropStaged i).wtc = s.wtc := rfl
@[simp] theorem State.dropStaged_stage (s : State) (i : Nat) : (s.dropStaged i).stage = s.stage := rfl
@[simp] theorem State.dropStaged_due (s : State) (i : Nat) : (s.dropStaged i).due = s.due := rfl
@[simp] theorem State.dropStaged_ev (s : State) (i : Nat) : (s.dropStaged i).ev = s.ev := rfl
@[simp] theorem State.dropStaged_agenda (s : State) (i : Nat) : (s.dropStaged i).agenda = s.agenda := rfl
@[simp] theorem State.dropStaged_nextId (s : State) (i : Nat) : (s.dropStaged i).nextId = s.nextId := rfl
@[simp] theorem State.dropStaged_freeCtr (s : State) (i : Nat) : (s.dropStaged i).freeCtr = s.freeCtr := rfl
@[simp] theorem State.dropStaged_mem (s : State) (i : Nat) : (s.dropStaged i).mem = s.mem := rfl
@[simp] theorem State.dropStaged_acc (s : State) (i : Nat) : (s.dropStaged i).acc = s.acc := rfl
@[simp] theorem State.dropStaged_uce (s : State) (i : Nat) : (s.dropStaged i).uce = s.uce := rfl
@[simp] theorem State.dropStaged_sbe (s : State) (i : Nat) : (s.dropStaged i).sbe = s.sbe := rfl
@[simp] theorem State.dropStaged_pkgs (s : State) (i : Nat) : (s.dropStaged i).pkgs = s.pkgs := rfl
@[simp] theorem State.dropStaged_ctxs (s : State) (i : Nat) : (s.dropStaged i).ctxs = s.ctxs := rfl
@[simp] theorem State.dropStaged_gangs (s : State) (i : Nat) : (s.dropStaged i).gangs = s.gangs := rfl
@[simp] theorem State.dropStaged_teams (s : State) (i : Nat) : (s.dropStaged i).teams = s.teams := rfl
@[simp] theorem State.dropStaged_cores (s : State) (i : Nat) : (s.dropStaged i).cores = s.cores := rfl
@[simp] theorem State.dropStaged_flights (s : State) (i : Nat) : (s.dropStaged i).flights = s.flights := rfl
@[simp] theorem State.dropStaged_landings (s : State) (i : Nat) : (s.dropStaged i).landings = s.landings := rfl
@[simp] theorem State.dropStaged_staged (s : State) (i : Nat) :
    (s.dropStaged i).staged = s.staged.filter (·.id ≠ i) := rfl
@[simp] theorem State.dropStaged_gathers (s : State) (i : Nat) : (s.dropStaged i).gathers = s.gathers := rfl
@[simp] theorem State.dropStaged_walks (s : State) (i : Nat) : (s.dropStaged i).walks = s.walks := rfl
@[simp] theorem State.dropStaged_pcs (s : State) (i : Nat) : (s.dropStaged i).pcs = s.pcs := rfl
@[simp] theorem State.dropStaged_packets (s : State) (i : Nat) : (s.dropStaged i).packets = s.packets := rfl
@[simp] theorem State.dropStaged_objs (s : State) (i : Nat) : (s.dropStaged i).objs = s.objs := rfl
@[simp] theorem State.dropStaged_records (s : State) (i : Nat) : (s.dropStaged i).records = s.records := rfl
@[simp] theorem State.dropStaged_responses (s : State) (i : Nat) : (s.dropStaged i).responses = s.responses := rfl
@[simp] theorem State.dropStaged_notices (s : State) (i : Nat) : (s.dropStaged i).notices = s.notices := rfl
@[simp] theorem State.dropStaged_outbound (s : State) (i : Nat) : (s.dropStaged i).outbound = s.outbound := rfl

/-! ### `respond` -/

@[simp] theorem State.respond_wtc (s : State) (p tag st : Nat) (data : List Byte) : (s.respond p tag st data).wtc = s.wtc := rfl
@[simp] theorem State.respond_stage (s : State) (p tag st : Nat) (data : List Byte) : (s.respond p tag st data).stage = s.stage := rfl
@[simp] theorem State.respond_due (s : State) (p tag st : Nat) (data : List Byte) : (s.respond p tag st data).due = s.due := rfl
@[simp] theorem State.respond_ev (s : State) (p tag st : Nat) (data : List Byte) : (s.respond p tag st data).ev = s.ev := rfl
@[simp] theorem State.respond_agenda (s : State) (p tag st : Nat) (data : List Byte) : (s.respond p tag st data).agenda = s.agenda := rfl
@[simp] theorem State.respond_nextId (s : State) (p tag st : Nat) (data : List Byte) : (s.respond p tag st data).nextId = s.nextId := rfl
@[simp] theorem State.respond_freeCtr (s : State) (p tag st : Nat) (data : List Byte) : (s.respond p tag st data).freeCtr = s.freeCtr := rfl
@[simp] theorem State.respond_mem (s : State) (p tag st : Nat) (data : List Byte) : (s.respond p tag st data).mem = s.mem := rfl
@[simp] theorem State.respond_acc (s : State) (p tag st : Nat) (data : List Byte) : (s.respond p tag st data).acc = s.acc := rfl
@[simp] theorem State.respond_uce (s : State) (p tag st : Nat) (data : List Byte) : (s.respond p tag st data).uce = s.uce := rfl
@[simp] theorem State.respond_sbe (s : State) (p tag st : Nat) (data : List Byte) : (s.respond p tag st data).sbe = s.sbe := rfl
@[simp] theorem State.respond_pkgs (s : State) (p tag st : Nat) (data : List Byte) : (s.respond p tag st data).pkgs = s.pkgs := rfl
@[simp] theorem State.respond_ctxs (s : State) (p tag st : Nat) (data : List Byte) : (s.respond p tag st data).ctxs = s.ctxs := rfl
@[simp] theorem State.respond_gangs (s : State) (p tag st : Nat) (data : List Byte) : (s.respond p tag st data).gangs = s.gangs := rfl
@[simp] theorem State.respond_teams (s : State) (p tag st : Nat) (data : List Byte) : (s.respond p tag st data).teams = s.teams := rfl
@[simp] theorem State.respond_cores (s : State) (p tag st : Nat) (data : List Byte) : (s.respond p tag st data).cores = s.cores := rfl
@[simp] theorem State.respond_flights (s : State) (p tag st : Nat) (data : List Byte) : (s.respond p tag st data).flights = s.flights := rfl
@[simp] theorem State.respond_landings (s : State) (p tag st : Nat) (data : List Byte) : (s.respond p tag st data).landings = s.landings := rfl
@[simp] theorem State.respond_staged (s : State) (p tag st : Nat) (data : List Byte) : (s.respond p tag st data).staged = s.staged := rfl
@[simp] theorem State.respond_gathers (s : State) (p tag st : Nat) (data : List Byte) : (s.respond p tag st data).gathers = s.gathers := rfl
@[simp] theorem State.respond_walks (s : State) (p tag st : Nat) (data : List Byte) : (s.respond p tag st data).walks = s.walks := rfl
@[simp] theorem State.respond_pcs (s : State) (p tag st : Nat) (data : List Byte) : (s.respond p tag st data).pcs = s.pcs := rfl
@[simp] theorem State.respond_packets (s : State) (p tag st : Nat) (data : List Byte) : (s.respond p tag st data).packets = s.packets := rfl
@[simp] theorem State.respond_objs (s : State) (p tag st : Nat) (data : List Byte) : (s.respond p tag st data).objs = s.objs := rfl
@[simp] theorem State.respond_records (s : State) (p tag st : Nat) (data : List Byte) : (s.respond p tag st data).records = s.records := rfl
@[simp] theorem State.respond_responses (s : State) (p tag st : Nat) (data : List Byte) :
    (s.respond p tag st data).responses = s.responses ++ [⟨p, tag, st, s.wtc, data⟩] := rfl
@[simp] theorem State.respond_notices (s : State) (p tag st : Nat) (data : List Byte) : (s.respond p tag st data).notices = s.notices := rfl
@[simp] theorem State.respond_outbound (s : State) (p tag st : Nat) (data : List Byte) : (s.respond p tag st data).outbound = s.outbound := rfl

/-! ### `wr` -/

@[simp] theorem State.wr_wtc (s : State) (p pa : Nat) (bs : List Byte) : (s.wr p pa bs).wtc = s.wtc := rfl
@[simp] theorem State.wr_stage (s : State) (p pa : Nat) (bs : List Byte) : (s.wr p pa bs).stage = s.stage := rfl
@[simp] theorem State.wr_due (s : State) (p pa : Nat) (bs : List Byte) : (s.wr p pa bs).due = s.due := rfl
@[simp] theorem State.wr_ev (s : State) (p pa : Nat) (bs : List Byte) : (s.wr p pa bs).ev = s.ev := rfl
@[simp] theorem State.wr_agenda (s : State) (p pa : Nat) (bs : List Byte) : (s.wr p pa bs).agenda = s.agenda := rfl
@[simp] theorem State.wr_nextId (s : State) (p pa : Nat) (bs : List Byte) : (s.wr p pa bs).nextId = s.nextId := rfl
@[simp] theorem State.wr_freeCtr (s : State) (p pa : Nat) (bs : List Byte) : (s.wr p pa bs).freeCtr = s.freeCtr := rfl
@[simp] theorem State.wr_mem (s : State) (p pa : Nat) (bs : List Byte) :
    (s.wr p pa bs).mem = memPut s.mem (s.pod p pa) bs := rfl
@[simp] theorem State.wr_acc (s : State) (p pa : Nat) (bs : List Byte) : (s.wr p pa bs).acc = s.acc := rfl
@[simp] theorem State.wr_pkgs (s : State) (p pa : Nat) (bs : List Byte) : (s.wr p pa bs).pkgs = s.pkgs := rfl
@[simp] theorem State.wr_ctxs (s : State) (p pa : Nat) (bs : List Byte) : (s.wr p pa bs).ctxs = s.ctxs := rfl
@[simp] theorem State.wr_gangs (s : State) (p pa : Nat) (bs : List Byte) : (s.wr p pa bs).gangs = s.gangs := rfl
@[simp] theorem State.wr_teams (s : State) (p pa : Nat) (bs : List Byte) : (s.wr p pa bs).teams = s.teams := rfl
@[simp] theorem State.wr_cores (s : State) (p pa : Nat) (bs : List Byte) : (s.wr p pa bs).cores = s.cores := rfl
@[simp] theorem State.wr_flights (s : State) (p pa : Nat) (bs : List Byte) : (s.wr p pa bs).flights = s.flights := rfl
@[simp] theorem State.wr_landings (s : State) (p pa : Nat) (bs : List Byte) : (s.wr p pa bs).landings = s.landings := rfl
@[simp] theorem State.wr_staged (s : State) (p pa : Nat) (bs : List Byte) : (s.wr p pa bs).staged = s.staged := rfl
@[simp] theorem State.wr_gathers (s : State) (p pa : Nat) (bs : List Byte) : (s.wr p pa bs).gathers = s.gathers := rfl
@[simp] theorem State.wr_walks (s : State) (p pa : Nat) (bs : List Byte) : (s.wr p pa bs).walks = s.walks := rfl
@[simp] theorem State.wr_pcs (s : State) (p pa : Nat) (bs : List Byte) : (s.wr p pa bs).pcs = s.pcs := rfl
@[simp] theorem State.wr_packets (s : State) (p pa : Nat) (bs : List Byte) : (s.wr p pa bs).packets = s.packets := rfl
@[simp] theorem State.wr_objs (s : State) (p pa : Nat) (bs : List Byte) : (s.wr p pa bs).objs = s.objs := rfl
@[simp] theorem State.wr_records (s : State) (p pa : Nat) (bs : List Byte) : (s.wr p pa bs).records = s.records := rfl
@[simp] theorem State.wr_responses (s : State) (p pa : Nat) (bs : List Byte) : (s.wr p pa bs).responses = s.responses := rfl
@[simp] theorem State.wr_notices (s : State) (p pa : Nat) (bs : List Byte) : (s.wr p pa bs).notices = s.notices := rfl
@[simp] theorem State.wr_outbound (s : State) (p pa : Nat) (bs : List Byte) : (s.wr p pa bs).outbound = s.outbound := rfl

/-! ### `accWrite` -/

@[simp] theorem State.accWrite_wtc (s : State) (a : Nat) (ws : List Word) : (s.accWrite a ws).wtc = s.wtc := rfl
@[simp] theorem State.accWrite_stage (s : State) (a : Nat) (ws : List Word) : (s.accWrite a ws).stage = s.stage := rfl
@[simp] theorem State.accWrite_due (s : State) (a : Nat) (ws : List Word) : (s.accWrite a ws).due = s.due := rfl
@[simp] theorem State.accWrite_ev (s : State) (a : Nat) (ws : List Word) : (s.accWrite a ws).ev = s.ev := rfl
@[simp] theorem State.accWrite_agenda (s : State) (a : Nat) (ws : List Word) : (s.accWrite a ws).agenda = s.agenda := rfl
@[simp] theorem State.accWrite_nextId (s : State) (a : Nat) (ws : List Word) : (s.accWrite a ws).nextId = s.nextId := rfl
@[simp] theorem State.accWrite_freeCtr (s : State) (a : Nat) (ws : List Word) : (s.accWrite a ws).freeCtr = s.freeCtr := rfl
@[simp] theorem State.accWrite_mem (s : State) (a : Nat) (ws : List Word) : (s.accWrite a ws).mem = s.mem := rfl
@[simp] theorem State.accWrite_acc (s : State) (a : Nat) (ws : List Word) :
    (s.accWrite a ws).acc = accPut s.acc a ws := rfl
@[simp] theorem State.accWrite_pkgs (s : State) (a : Nat) (ws : List Word) : (s.accWrite a ws).pkgs = s.pkgs := rfl
@[simp] theorem State.accWrite_ctxs (s : State) (a : Nat) (ws : List Word) : (s.accWrite a ws).ctxs = s.ctxs := rfl
@[simp] theorem State.accWrite_gangs (s : State) (a : Nat) (ws : List Word) : (s.accWrite a ws).gangs = s.gangs := rfl
@[simp] theorem State.accWrite_teams (s : State) (a : Nat) (ws : List Word) : (s.accWrite a ws).teams = s.teams := rfl
@[simp] theorem State.accWrite_cores (s : State) (a : Nat) (ws : List Word) : (s.accWrite a ws).cores = s.cores := rfl
@[simp] theorem State.accWrite_flights (s : State) (a : Nat) (ws : List Word) : (s.accWrite a ws).flights = s.flights := rfl
@[simp] theorem State.accWrite_landings (s : State) (a : Nat) (ws : List Word) : (s.accWrite a ws).landings = s.landings := rfl
@[simp] theorem State.accWrite_staged (s : State) (a : Nat) (ws : List Word) : (s.accWrite a ws).staged = s.staged := rfl
@[simp] theorem State.accWrite_gathers (s : State) (a : Nat) (ws : List Word) : (s.accWrite a ws).gathers = s.gathers := rfl
@[simp] theorem State.accWrite_walks (s : State) (a : Nat) (ws : List Word) : (s.accWrite a ws).walks = s.walks := rfl
@[simp] theorem State.accWrite_pcs (s : State) (a : Nat) (ws : List Word) : (s.accWrite a ws).pcs = s.pcs := rfl
@[simp] theorem State.accWrite_packets (s : State) (a : Nat) (ws : List Word) : (s.accWrite a ws).packets = s.packets := rfl
@[simp] theorem State.accWrite_objs (s : State) (a : Nat) (ws : List Word) : (s.accWrite a ws).objs = s.objs := rfl
@[simp] theorem State.accWrite_records (s : State) (a : Nat) (ws : List Word) : (s.accWrite a ws).records = s.records := rfl
@[simp] theorem State.accWrite_responses (s : State) (a : Nat) (ws : List Word) : (s.accWrite a ws).responses = s.responses := rfl
@[simp] theorem State.accWrite_notices (s : State) (a : Nat) (ws : List Word) : (s.accWrite a ws).notices = s.notices := rfl
@[simp] theorem State.accWrite_outbound (s : State) (a : Nat) (ws : List Word) : (s.accWrite a ws).outbound = s.outbound := rfl

/-! ### Records by number -/

@[simp] theorem State.fresh_fst (s : State) : s.fresh.1 = s.nextId := rfl
@[simp] theorem State.freeIndex_fst (s : State) : s.freeIndex.1 = s.freeCtr := rfl

/-- A change of a package is seen in it, and in no other. -/
theorem State.pkg_modPkg (s : State) (p q : Nat) (f : Pkg → Pkg) (h : p < s.pkgs.length) :
    (s.modPkg p f).pkg q = if p = q then f (s.pkg q) else s.pkg q := by
  simp only [State.pkg, State.modPkg, List.getD_eq_getElem?_getD, List.getElem?_modify]
  split
  · next e => subst e; simp [h]
  · simp

/-- A change of a core is seen in it, and in no other. -/
theorem State.core_modCore (s : State) (p c : Nat) (f : Core → Core) (h : 256 * p + c < s.cores.length) :
    (s.modCore p c f).core p c = f (s.core p c) := by
  simp [State.core, State.modCore, List.getD_eq_getElem?_getD, h]

/-- A change of a team that keeps its number is seen in it, and in no other. -/
theorem State.team?_modTeam (s : State) (t u : Nat) (f : Team → Team) (h : ∀ x, (f x).id = x.id) :
    (s.modTeam t f).team? u = if t = u then (s.team? u).map f else s.team? u := by
  simp only [State.team?, State.modTeam, List.find?_map]
  have e : ((fun x : Team => decide (x.id = u)) ∘ fun x => if x.id = t then f x else x) = fun x => decide (x.id = u) := by
    funext x; simp only [Function.comp]; split <;> simp [h]
  rw [e]
  cases hx : s.teams.find? (fun x => decide (x.id = u)) with
  | none => simp
  | some x =>
    have := List.find?_some hx
    simp only [decide_eq_true_eq] at this
    simp only [Option.map_some, this]
    by_cases e : t = u
    · subst e; simp
    · rw [if_neg (Ne.symm e), if_neg e]

/-- A change of a gang that keeps its number is seen in it, and in no other. -/
theorem State.gang?_modGang (s : State) (g u : Nat) (f : Gang → Gang) (h : ∀ x, (f x).id = x.id) :
    (s.modGang g f).gang? u = if g = u then (s.gang? u).map f else s.gang? u := by
  simp only [State.gang?, State.modGang, List.find?_map]
  have e : ((fun x : Gang => decide (x.id = u)) ∘ fun x => if x.id = g then f x else x) = fun x => decide (x.id = u) := by
    funext x; simp only [Function.comp]; split <;> simp [h]
  rw [e]
  cases hx : s.gangs.find? (fun x => decide (x.id = u)) with
  | none => simp
  | some x =>
    have := List.find?_some hx
    simp only [decide_eq_true_eq] at this
    simp only [Option.map_some, this]
    by_cases e : g = u
    · subst e; simp
    · rw [if_neg (Ne.symm e), if_neg e]

/-- A change of a flight that keeps its number is seen in it, and in no other. -/
theorem State.flight?_modFlight (s : State) (i u : Nat) (f : Flight → Flight) (h : ∀ x, (f x).id = x.id) :
    (s.modFlight i f).flight? u = if i = u then (s.flight? u).map f else s.flight? u := by
  simp only [State.flight?, State.modFlight, List.find?_map]
  have e : ((fun x : Flight => decide (x.id = u)) ∘ fun x => if x.id = i then f x else x) = fun x => decide (x.id = u) := by
    funext x; simp only [Function.comp]; split <;> simp [h]
  rw [e]
  cases hx : s.flights.find? (fun x => decide (x.id = u)) with
  | none => simp
  | some x =>
    have := List.find?_some hx
    simp only [decide_eq_true_eq] at this
    simp only [Option.map_some, this]
    by_cases e : i = u
    · subst e; simp
    · rw [if_neg (Ne.symm e), if_neg e]

/-- The agenda holds an entry put on it, and keeps the others. -/
theorem mem_insertEntry (e x : Entry) (l : List Entry) : x ∈ insertEntry e l ↔ x = e ∨ x ∈ l := by
  induction l with
  | nil => simp [insertEntry]
  | cons y ys ih =>
    simp only [insertEntry]
    split
    · simp only [List.mem_cons, ih]; exact or_left_comm
    · simp

end Sys2Proof.Machine
end

