-- ==== Sys2Proof/Laws/Mem.lean ====
section
/-! SUPPORT. Memory and the accumulator store: their operations keep the canonical form, a read gives what was written, and a
write leaves the rest alone. -/

namespace Sys2Proof.Machine

/-! ### Device memory and local stores -/

theorem cellsFrom_bounds (bs : List Byte) (a : Nat) : ∀ c ∈ cellsFrom a bs, a ≤ c.1 ∧ c.1 < a + bs.length := by
  induction bs generalizing a with
  | nil => simp [cellsFrom]
  | cons b bs ih =>
    intro c hc
    simp only [cellsFrom] at hc
    simp only [List.length_cons]
    split at hc
    · have := ih (a + 1) c hc; omega
    · rcases List.mem_cons.1 hc with rfl | hc
      · simp
      · have := ih (a + 1) c hc; omega

theorem cellsFrom_wf (bs : List Byte) (a : Nat) : memWf (cellsFrom a bs) := by
  induction bs generalizing a with
  | nil => exact ⟨List.Pairwise.nil, fun c hc => absurd hc (by simp [cellsFrom])⟩
  | cons b bs ih =>
    simp only [cellsFrom]
    split
    · exact ih (a + 1)
    · next h =>
      refine ⟨List.pairwise_cons.2 ⟨fun c hc => ?_, (ih (a + 1)).1⟩, ?_⟩
      · have := (cellsFrom_bounds bs (a + 1) c hc).1; simp only; omega
      · intro c hc
        rcases List.mem_cons.1 hc with rfl | hc
        · exact h
        · exact (ih (a + 1)).2 c hc

/-- A write keeps the canonical form. -/
theorem memPut_wf (m : List Host.Cell) (a : Nat) (bs : List Byte) (h : memWf m) : memWf (memPut m a bs) := by
  unfold memPut
  refine ⟨List.pairwise_append.2 ⟨h.1.filter _, List.pairwise_append.2 ⟨(cellsFrom_wf bs a).1, h.1.filter _, ?_⟩, ?_⟩, ?_⟩
  · intro x hx y hy
    have := (cellsFrom_bounds bs a x hx).2
    simp only [List.mem_filter, decide_eq_true_eq] at hy
    omega
  · intro x hx y hy
    simp only [List.mem_filter, decide_eq_true_eq] at hx
    rcases List.mem_append.1 hy with hy | hy
    · have := (cellsFrom_bounds bs a y hy).1; omega
    · simp only [List.mem_filter, decide_eq_true_eq] at hy; omega
  · intro c hc
    rcases List.mem_append.1 hc with hc | hc
    · exact h.2 c (List.mem_filter.1 hc).1
    · rcases List.mem_append.1 hc with hc | hc
      · exact (cellsFrom_wf bs a).2 c hc
      · exact h.2 c (List.mem_filter.1 hc).1

theorem memByte_cellsFrom (bs : List Byte) (a k : Nat) (h : k < bs.length) : memByte (cellsFrom a bs) (a + k) = bs[k] := by
  induction bs generalizing a k with
  | nil => simp at h
  | cons b bs ih =>
    simp only [cellsFrom]
    cases k with
    | zero =>
      split
      · next e =>
        have : (cellsFrom (a + 1) bs).find? (fun c => decide (c.1 = a + 0)) = none := by
          rw [List.find?_eq_none]
          intro c hc
          have := (cellsFrom_bounds bs (a + 1) c hc).1
          simp only [decide_eq_true_eq]; omega
        rw [Nat.add_zero] at this ⊢
        simp [memByte, this, e]
      · simp [memByte]
    | succ k =>
      have hk : k < bs.length := by simpa using h
      have e : a + (k + 1) = a + 1 + k := by omega
      split
      · rw [e]; simpa using ih (a + 1) k hk
      · have : memByte ((a, b) :: cellsFrom (a + 1) bs) (a + (k + 1)) = memByte (cellsFrom (a + 1) bs) (a + 1 + k) := by
          simp only [memByte, List.find?_cons]
          rw [e]
          simp only [show ¬ a = a + 1 + k by omega, decide_false]
        rw [this]; simpa using ih (a + 1) k hk

theorem find?_filter_keep {α : Type} (l : List α) (p q : α → Bool) (h : ∀ x, p x = true → q x = true) :
    (l.filter q).find? p = l.find? p := by
  induction l with
  | nil => rfl
  | cons x xs ih =>
    by_cases hq : q x = true
    · simp only [List.filter_cons, hq, if_true, List.find?_cons, ih]
    · have hp : p x = false := by
        cases e : p x with
        | false => rfl
        | true => exact absurd (h x e) hq
      simp only [List.filter_cons, hq, List.find?_cons, hp]
      simpa using ih

theorem find?_filter_drop {α : Type} (l : List α) (p q : α → Bool) (h : ∀ x, p x = true → q x = false) :
    (l.filter q).find? p = none := by
  rw [List.find?_eq_none]
  intro x hx hp
  have := (List.mem_filter.1 hx).2
  rw [h x hp] at this
  exact absurd this (by simp)

theorem find?_cellsFrom_out (bs : List Byte) (a x : Nat) (h : x < a ∨ a + bs.length ≤ x) :
    (cellsFrom a bs).find? (fun c => decide (c.1 = x)) = none := by
  rw [List.find?_eq_none]
  intro c hc
  have := cellsFrom_bounds bs a c hc
  simp only [decide_eq_true_eq]
  omega

/-- A byte outside a write reads as before. -/
theorem memByte_memPut_out (m : List Host.Cell) (a x : Nat) (bs : List Byte) (h : x < a ∨ a + bs.length ≤ x) :
    memByte (memPut m a bs) x = memByte m x := by
  have : (memPut m a bs).find? (fun c => decide (c.1 = x)) = m.find? (fun c => decide (c.1 = x)) := by
    unfold memPut
    rw [List.find?_append, List.find?_append, find?_cellsFrom_out bs a x h]
    rcases h with h | h
    · rw [find?_filter_keep _ _ _ (by intro c hc; simp only [decide_eq_true_eq] at hc ⊢; omega),
        find?_filter_drop _ _ _ (by intro c hc; simp only [decide_eq_true_eq, decide_eq_false_iff_not] at hc ⊢; omega)]
      simp
    · rw [find?_filter_drop _ _ _ (by intro c hc; simp only [decide_eq_true_eq, decide_eq_false_iff_not] at hc ⊢; omega),
        find?_filter_keep _ _ _ (by intro c hc; simp only [decide_eq_true_eq] at hc ⊢; omega)]
      simp
  simp only [memByte, this]

/-- A written byte reads as it was written. -/
theorem memByte_memPut_in (m : List Host.Cell) (a k : Nat) (bs : List Byte) (h : k < bs.length) :
    memByte (memPut m a bs) (a + k) = bs[k] := by
  have : (memPut m a bs).find? (fun c => decide (c.1 = a + k)) = (cellsFrom a bs).find? (fun c => decide (c.1 = a + k)) := by
    unfold memPut
    rw [List.find?_append, List.find?_append,
      find?_filter_drop _ _ _ (by intro c hc; simp only [decide_eq_true_eq, decide_eq_false_iff_not] at hc ⊢; omega),
      find?_filter_drop m _ _ (by intro c hc; simp only [decide_eq_true_eq, decide_eq_false_iff_not] at hc ⊢; omega)]
    simp
  have e := memByte_cellsFrom bs a k h
  simp only [memByte, this] at e ⊢
  exact e

/-- A memory of which cells are taken away keeps the canonical form. -/
theorem memWf_filter (m : List Host.Cell) (f : Host.Cell → Bool) (h : memWf m) : memWf (m.filter f) :=
  ⟨h.1.filter _, fun c hc => h.2 c (List.mem_filter.1 hc).1⟩

/-- The memory right after reset has the canonical form. -/
theorem reset_mem : State.reset.mem = [] := rfl

/-! ### The accumulator store -/

theorem accFrom_bounds (ws : List Word) (a : Nat) : ∀ c ∈ accFrom a ws, a ≤ c.1 ∧ c.1 < a + ws.length := by
  induction ws generalizing a with
  | nil => simp [accFrom]
  | cons b bs ih =>
    intro c hc
    simp only [accFrom] at hc
    simp only [List.length_cons]
    split at hc
    · have := ih (a + 1) c hc; omega
    · rcases List.mem_cons.1 hc with rfl | hc
      · simp
      · have := ih (a + 1) c hc; omega

theorem accFrom_wf (ws : List Word) (a : Nat) : accWf (accFrom a ws) := by
  induction ws generalizing a with
  | nil => exact ⟨List.Pairwise.nil, fun c hc => absurd hc (by simp [accFrom])⟩
  | cons b bs ih =>
    simp only [accFrom]
    split
    · exact ih (a + 1)
    · next h =>
      refine ⟨List.pairwise_cons.2 ⟨fun c hc => ?_, (ih (a + 1)).1⟩, ?_⟩
      · have := (accFrom_bounds bs (a + 1) c hc).1; simp only; omega
      · intro c hc
        rcases List.mem_cons.1 hc with rfl | hc
        · exact h
        · exact (ih (a + 1)).2 c hc

/-- A write keeps the canonical form. -/
theorem accPut_wf (m : List (Nat × Word)) (a : Nat) (ws : List Word) (h : accWf m) : accWf (accPut m a ws) := by
  unfold accPut
  refine ⟨List.pairwise_append.2 ⟨h.1.filter _, List.pairwise_append.2 ⟨(accFrom_wf ws a).1, h.1.filter _, ?_⟩, ?_⟩, ?_⟩
  · intro x hx y hy
    have := (accFrom_bounds ws a x hx).2
    simp only [List.mem_filter, decide_eq_true_eq] at hy
    omega
  · intro x hx y hy
    simp only [List.mem_filter, decide_eq_true_eq] at hx
    rcases List.mem_append.1 hy with hy | hy
    · have := (accFrom_bounds ws a y hy).1; omega
    · simp only [List.mem_filter, decide_eq_true_eq] at hy; omega
  · intro c hc
    rcases List.mem_append.1 hc with hc | hc
    · exact h.2 c (List.mem_filter.1 hc).1
    · rcases List.mem_append.1 hc with hc | hc
      · exact (accFrom_wf ws a).2 c hc
      · exact h.2 c (List.mem_filter.1 hc).1

theorem accWf_filter (m : List (Nat × Word)) (f : Nat × Word → Bool) (h : accWf m) : accWf (m.filter f) :=
  ⟨h.1.filter _, fun c hc => h.2 c (List.mem_filter.1 hc).1⟩

/-! ### Numbers in memory -/

theorem natBytes_length (n x : Nat) : (natBytes n x).length = n := by
  induction n generalizing x with
  | zero => rfl
  | succ n ih => simp [natBytes, ih]

theorem bytesNat_natBytes (n x : Nat) : bytesNat (natBytes n x) = x % 256 ^ n := by
  induction n generalizing x with
  | zero => simp [natBytes, bytesNat, Nat.mod_one]
  | succ n ih =>
    have h : (256 : Nat) ^ (n + 1) = 256 * 256 ^ n := by rw [Nat.pow_succ, Nat.mul_comm]
    rw [natBytes, bytesNat, ih, BitVec.toNat_ofNat, h, Nat.mod_mul]

/-! ### Writes of the machine -/

theorem State.wr_safe (s : State) (p pa : Nat) (bs : List Byte) (h : Safe s) : Safe (s.wr p pa bs) :=
  ⟨memPut_wf _ _ _ h.1, h.2⟩

theorem State.accWrite_safe (s : State) (a : Nat) (ws : List Word) (h : Safe s) : Safe (s.accWrite a ws) :=
  ⟨h.1, accPut_wf _ _ _ h.2⟩

/-- What a fold of steps that keep the stores in their form makes. -/
theorem foldl_safe {α : Type} (f : State → α → State) (l : List α) (hf : ∀ s x, Safe s → Safe (f s x)) (s : State) (h : Safe s) :
    Safe (l.foldl f s) := by
  induction l generalizing s with
  | nil => exact h
  | cons x xs ih => exact ih _ (hf s x h)

/-- A state with the same stores as one in canonical form is in it. -/
theorem safe_of_eq {s t : State} (hm : t.mem = s.mem) (ha : t.acc = s.acc) (h : Safe s) : Safe t := by
  unfold Safe at *; rw [hm, ha]; exact h

end Sys2Proof.Machine
end

