-- ==== Sys2Proof/Laws/Words.lean ====
section
/-! SUPPORT. What the shared forms of words do, said once: a word with a value and flags in each guarded lane, a word with a
truth value, and the words of the other classes as functions on the pass. -/

namespace Sys2Proof.Machine

/-- A meaning on the pass under evaluation answers the state with the pass behind the word. -/
theorem onCur_some {s : State} {c : Cur} (h : s.ev = some c) (f : Team → Cur → Cur) :
    onCur s f = .next (s.setEv (some (f (s.teamOf c) c))) := by
  simp [onCur, h]

/-- Without a pass a word stops under its name. -/
theorem onCur_none {s : State} (h : s.ev = none) (f : Team → Cur → Cur) : onCur s f = .fault .noClause := by
  simp [onCur, h]

/-- Whatever a word does, it does to the pass under evaluation alone. -/
theorem onCur_next {s t : State} {f : Team → Cur → Cur} (h : onCur s f = .next t) : t = s.setEv t.ev := by
  unfold onCur at h
  split at h
  · cases h
  · cases h; rfl

theorem onCur_ne_refused {s : State} {f : Team → Cur → Cur} {r : Refusal} : onCur s f ≠ .refused r := by
  unfold onCur
  split <;> simp

/-- Going past a word and adding to the commit, in the terms of the statements. -/
theorem past_act (c : Cur) (a : Act) (lit : Bool) (cost : Nat) : (c.act a).past lit cost = afterWord c [a] lit cost := rfl

theorem past_eq (c : Cur) (lit : Bool) (cost : Nat) : c.past lit cost = afterWord c [] lit cost := by
  simp [Cur.past, afterWord]

/-- The optional results of a pass, kept for the guarded lanes. -/
theorem filterMap_guarded {α β γ : Type} (ls : List α) (p : α → Bool) (f : α → β) (g : α → β → γ) :
    ((ls.map fun l => (l, if p l then some (f l) else none)).filterMap fun r => r.2.map fun v => (r.1, g r.1 v)) =
      (ls.filter p).map fun l => (l, g l (f l)) := by
  induction ls with
  | nil => rfl
  | cons a l ih => by_cases h : p a <;> simp_all

theorem foldl_flags (ls : List (Nat × Nat)) (a : Nat) :
    ls.foldl (fun x f => x ||| f.2) a = (ls.map (·.2)).foldl (· ||| ·) a := by
  induction ls generalizing a with
  | nil => rfl
  | cons b l ih => simp [ih]

/-- The write of D adds to the commit. -/
theorem writeD_eq (c : Cur) (nw : Bool) (d : BitVec 7) (vals : List (Nat × Word)) :
    writeD c nw d vals = { c with acts := c.acts ++ writesOf c nw d vals } := by
  unfold writeD writesOf
  split
  · simp
  split
  · cases vals with
    | nil => simp
    | cons v l => by_cases hd : d.toNat < 112 <;> simp [hd, uix, Cur.act]
  · rfl

/-- The write of a predicate adds to the commit. -/
theorem writeP_eq (c : Cur) (nw : Bool) (q : BitVec 3) (vals : List (Nat × Bool)) :
    writeP c nw q vals = { c with acts := c.acts ++ truthsOf c nw q vals } := by
  unfold writeP truthsOf
  split
  · simp
  split
  · cases vals with
    | nil => simp
    | cons v l => simp [Cur.act]
  · rfl

/-- No flag raised: nothing to trap on, nothing for FFLAGS. -/
theorem flagTrap_none {t : Team} {c : Cur} {fls : List (Nat × Nat)} (h : (fls.map (·.2)).foldl (· ||| ·) 0 = 0) :
    flagTrap t c fls = c := by
  simp [flagTrap, foldl_flags, h]

/-- Flags raised with none enabled go to FFLAGS at the commit (R134). -/
theorem flagTrap_quiet {t : Team} {c : Cur} {fls : List (Nat × Nat)}
    (h : (fls.map (·.2)).foldl (· ||| ·) 0 &&& t.csr.trapen.toNat % 32 = 0) :
    flagTrap t c fls = { c with acts := c.acts ++ flagActs ((fls.map (·.2)).foldl (· ||| ·) 0) } := by
  simp only [flagTrap, foldl_flags, h, flagActs]
  by_cases h0 : (fls.map (·.2)).foldl (· ||| ·) 0 = 0 <;> simp [h0, Cur.act]

/-- A word with a value and flags in each guarded lane, where no raised flag is enabled (R45, R46, R134). -/
theorem aluWord_quiet (nw pn : Bool) (pr : BitVec 3) (d : BitVec 7) (lit : Bool) (cost : Nat)
    (f : Team → Cur → Nat → Word × Nat) (t : Team) (c : Cur)
    (h : raisedBy c (guardA t c pn pr) (fun l => (f t c l).2) &&& t.csr.trapen.toNat % 32 = 0) :
    aluWord nw pn pr d lit cost f t c =
      withValues t { c with acts := c.acts ++ flagActs (raisedBy c (guardA t c pn pr) fun l => (f t c l).2) } nw pn pr d lit
        cost fun l => (f t c l).1 := by
  have hr : raisedBy c (guardA t c pn pr) (fun l => (f t c l).2) =
      (((c.lanes.filter (guardA t c pn pr)).map fun l => (l, (f t c l).2)).map (·.2)).foldl (· ||| ·) 0 := by
    simp [raisedBy, Function.comp_def]
  rw [hr] at h ⊢
  simp only [aluWord, filterMap_guarded c.lanes (guardA t c pn pr) (f t c) (fun _ v => v.1),
    filterMap_guarded c.lanes (guardA t c pn pr) (f t c) (fun _ v => v.2), flagTrap_quiet h, writeD_eq]
  simp only [withValues, afterWord, Cur.shift, Cur.past, List.map_map]
  congr 1
  · congr 1
    apply List.map_congr_left
    intro l _
    show _ = if guardA t c pn pr l then (f t c l).1 else dOld t c d l
    by_cases hg : guardA t c pn pr l <;> simp [hg]

theorem foldl_or_zero {α : Type} (l : List α) : (l.map fun _ => 0).foldl (fun a b : Nat => a ||| b) 0 = 0 := by
  induction l with
  | nil => rfl
  | cons a l ih => simpa using ih

/-- A word with a value in each guarded lane and no flags. -/
theorem aluWord_plain (nw pn : Bool) (pr : BitVec 3) (d : BitVec 7) (lit : Bool) (cost : Nat)
    (f : Team → Cur → Nat → Word) (t : Team) (c : Cur) :
    aluWord nw pn pr d lit cost (fun t c l => (f t c l, 0)) t c = withValues t c nw pn pr d lit cost (f t c) := by
  have h : raisedBy c (guardA t c pn pr) (fun _ => 0) = 0 := foldl_or_zero _
  rw [aluWord_quiet]
  · simp only [h, flagActs, if_true, List.append_nil]
  · simp [h]

/-- The forms of two sources, of an accumulator and of one source. -/
theorem bin_eq (w : FA) (cost : Nat) (f : Word → Word → Word) (t : Team) (c : Cur) :
    bin w cost f t c = withValues t c w.nw w.pn w.pr w.d (usesLit [w.a, w.b]) cost fun l =>
      f (srcOp t c w.a l) (srcOp t c w.b l) :=
  aluWord_plain w.nw w.pn w.pr w.d _ cost (fun t c l => f (srcOp t c w.a l) (srcOp t c w.b l)) t c

theorem acc3_eq (w : FA) (f : Word → Word → Word → Word) (t : Team) (c : Cur) :
    acc3 w f t c = withValues t c w.nw w.pn w.pr w.d (usesLit [w.a, w.b]) 1 fun l =>
      f (srcOp t c w.a l) (srcOp t c w.b l) (dOld t c w.d l) :=
  aluWord_plain w.nw w.pn w.pr w.d _ 1 (fun t c l => f (srcOp t c w.a l) (srcOp t c w.b l) (dOld t c w.d l)) t c

theorem un_eq (w : FU) (cost : Nat) (f : Word → Word) (t : Team) (c : Cur) :
    un w cost f t c = withValues t c w.nw w.pn w.pr w.d (usesLit [w.a]) cost fun l => f (srcOp t c w.a l) :=
  aluWord_plain w.nw w.pn w.pr w.d _ cost (fun t c l => f (srcOp t c w.a l)) t c

/-- A word with a truth value and flags in each guarded lane, where no raised flag is enabled (R98, R134, R138). -/
theorem predWord_quiet (nw pn : Bool) (pr : BitVec 3) (mode : CMode) (q : BitVec 3) (lit : Bool)
    (f : Team → Cur → Nat → Bool × Nat) (t : Team) (c : Cur)
    (h : raisedBy c (guardA t c pn pr) (fun l => (f t c l).2) &&& t.csr.trapen.toNat % 32 = 0) :
    predWord nw pn pr mode q lit f t c =
      withTruths t { c with acts := c.acts ++ flagActs (raisedBy c (guardA t c pn pr) fun l => (f t c l).2) } nw pn pr mode q
        lit fun l => (f t c l).1 := by
  have hr : raisedBy c (guardA t c pn pr) (fun l => (f t c l).2) =
      (((c.lanes.filter (guardA t c pn pr)).map fun l => (l, (f t c l).2)).map (·.2)).foldl (· ||| ·) 0 := by
    simp [raisedBy, Function.comp_def]
  rw [hr] at h ⊢
  simp only [predWord, filterMap_guarded c.lanes (guardA t c pn pr) (f t c) (fun l v => combine mode (predA t c q l) v.1),
    filterMap_guarded c.lanes (guardA t c pn pr) (f t c) (fun _ v => v.2), flagTrap_quiet h, writeP_eq]
  simp only [withTruths, afterWord, Cur.shift, Cur.past, List.map_map]
  congr 1
  · congr 1
    apply List.map_congr_left
    intro l _
    show _ = if (if guardA t c pn pr l then combine mode (predA t c q l) (f t c l).1 else predA t c q l) then (1 : Word) else 0
    by_cases hg : guardA t c pn pr l <;> simp [hg]

theorem predWord_plain (nw pn : Bool) (pr : BitVec 3) (mode : CMode) (q : BitVec 3) (lit : Bool)
    (f : Team → Cur → Nat → Bool) (t : Team) (c : Cur) :
    predWord nw pn pr mode q lit (fun t c l => (f t c l, 0)) t c = withTruths t c nw pn pr mode q lit (f t c) := by
  have h : raisedBy c (guardA t c pn pr) (fun _ => 0) = 0 := foldl_or_zero _
  rw [predWord_quiet]
  · simp only [h, flagActs, if_true, List.append_nil]
  · simp [h]

theorem cmp_eq (w : FC) (f : Word → Word → Bool) (t : Team) (c : Cur) :
    cmp w (fun a b => (f a b, 0)) t c =
      withTruths t c w.nw w.pn w.pr w.mode w.q (usesLit [w.a, w.b]) fun l => f (srcOp t c w.a l) (srcOp t c w.b l) :=
  predWord_plain w.nw w.pn w.pr w.mode w.q _ (fun t c l => f (srcOp t c w.a l) (srcOp t c w.b l)) t c

end Sys2Proof.Machine
end

