-- ==== Sys2Proof/Laws/Keep.lean ====
section
/-! SUPPORT. What leaves memory (`_mem`) and the accumulator store (`_acc`) alone: one lemma for each shared operation that writes
neither, or only the other. -/

namespace Sys2Proof.Machine

-- The cases of one proof text differ, so that some of its alternatives go unused.
set_option linter.all false

@[simp] theorem foldl_mem {α : Type} (l : List α) (f : State → α → State) (s : State) (h : ∀ s x, (f s x).mem = s.mem) : (l.foldl f s).mem = s.mem := by
  induction l generalizing s with
  | nil => rfl
  | cons x xs ih => rw [List.foldl_cons, ih, h]
@[simp] theorem foldl_acc {α : Type} (l : List α) (f : State → α → State) (s : State) (h : ∀ s x, (f s x).acc = s.acc) : (l.foldl f s).acc = s.acc := by
  induction l generalizing s with
  | nil => rfl
  | cons x xs ih => rw [List.foldl_cons, ih, h]
@[simp] theorem ite_mem (c : Prop) [Decidable c] (a b : State) : (if c then a else b).mem = if c then a.mem else b.mem := by split <;> rfl
@[simp] theorem ite_acc (c : Prop) [Decidable c] (a b : State) : (if c then a else b).acc = if c then a.acc else b.acc := by split <;> rfl

/-! ### Machine/Ops.lean -/

@[simp] theorem State.notice_mem (s : State) (p kind a b : Nat) : (State.notice s p kind a b).mem = s.mem := by unfold State.notice; simp
@[simp] theorem State.notice_acc (s : State) (p kind a b : Nat) : (State.notice s p kind a b).acc = s.acc := by unfold State.notice; simp
@[simp] theorem State.tell_mem (s : State) (p kind a b : Nat) : (State.tell s p kind a b).mem = s.mem := rfl
@[simp] theorem State.tell_acc (s : State) (p kind a b : Nat) : (State.tell s p kind a b).acc = s.acc := rfl
@[simp] theorem State.respondTo_mem (s : State) (p : Nat) (tag : Option Nat) (status : Nat) : (State.respondTo s p tag status).mem = s.mem := by unfold State.respondTo; split <;> simp
@[simp] theorem State.respondTo_acc (s : State) (p : Nat) (tag : Option Nat) (status : Nat) : (State.respondTo s p tag status).acc = s.acc := by unfold State.respondTo; split <;> simp
@[simp] theorem State.once_mem (s : State) (cyc prio : Nat) (key : List Nat) (i : Instr) : (State.once s cyc prio key i).mem = s.mem := by unfold State.once; simp
@[simp] theorem State.once_acc (s : State) (cyc prio : Nat) (key : List Nat) (i : Instr) : (State.once s cyc prio key i).acc = s.acc := by unfold State.once; simp
@[simp] theorem State.correct_mem (s : State) (p pa n : Nat) : (State.correct s p pa n).mem = s.mem := by unfold State.correct; simp
@[simp] theorem State.correct_acc (s : State) (p pa n : Nat) : (State.correct s p pa n).acc = s.acc := by unfold State.correct; simp
@[simp] theorem State.correctAcc_mem (s : State) (p a n : Nat) : (State.correctAcc s p a n).mem = s.mem := by unfold State.correctAcc; simp
@[simp] theorem State.correctAcc_acc (s : State) (p a n : Nat) : (State.correctAcc s p a n).acc = s.acc := by unfold State.correctAcc; simp
@[simp] theorem State.gatherAt_mem (s : State) (p cyc : Nat) (key : List Nat) (segs : List (Nat × Seg)) : (State.gatherAt s p cyc key segs).mem = s.mem := rfl
@[simp] theorem State.gatherAt_acc (s : State) (p cyc : Nat) (key : List Nat) (segs : List (Nat × Seg)) : (State.gatherAt s p cyc key segs).acc = s.acc := rfl
@[simp] theorem State.writeRecord_mem (s : State) (r : Record) : (State.writeRecord s r).mem = s.mem := rfl
@[simp] theorem State.writeRecord_acc (s : State) (r : Record) : (State.writeRecord s r).acc = s.acc := rfl
@[simp] theorem State.record_mem (s : State) (p cyc core slot : Nat) (imp : Bool) (cause level ctx : Nat)
    (tval tvalh tepc tpass : Word) : (State.record s p cyc core slot imp cause level ctx tval tvalh tepc tpass).mem = s.mem := by unfold State.record; simp
@[simp] theorem State.record_acc (s : State) (p cyc core slot : Nat) (imp : Bool) (cause level ctx : Nat)
    (tval tvalh tepc tpass : Word) : (State.record s p cyc core slot imp cause level ctx tval tvalh tepc tpass).acc = s.acc := by unfold State.record; simp
@[simp] theorem State.dropSwitch_mem (s : State) (g : Nat) : (State.dropSwitch s g).mem = s.mem := by unfold State.dropSwitch; split <;> simp
@[simp] theorem State.dropSwitch_acc (s : State) (g : Nat) : (State.dropSwitch s g).acc = s.acc := by unfold State.dropSwitch; split <;> simp
@[simp] theorem State.requestKill_mem (s : State) (g k : Nat) (cause : Word) (imp : Bool) (bank : Option (Nat × Nat)) (t : Nat) : (State.requestKill s g k cause imp bank t).mem = s.mem := by unfold State.requestKill; split <;> simp
@[simp] theorem State.requestKill_acc (s : State) (g k : Nat) (cause : Word) (imp : Bool) (bank : Option (Nat × Nat)) (t : Nat) : (State.requestKill s g k cause imp bank t).acc = s.acc := by unfold State.requestKill; split <;> simp
@[simp] theorem State.stageOp_mem (s : State) (team p core c base level : Nat) (o : Origin) (op : StagedOp) : (State.stageOp s team p core c base level o op).mem = s.mem := rfl
@[simp] theorem State.stageOp_acc (s : State) (team p core c base level : Nat) (o : Origin) (op : StagedOp) : (State.stageOp s team p core c base level o op).acc = s.acc := rfl
@[simp] theorem State.enter_mem (fuel : Nat) (s : State) (t : Team) (tl e at_ : Nat) (ev : TeamEvent) :
    (State.enter fuel s t tl e at_ ev).mem = s.mem := by
  induction fuel generalizing s tl ev with
  | zero => simp [State.enter]
  | succ n ih =>
    unfold State.enter
    dsimp only
    repeat' split
    all_goals simp [ih]
@[simp] theorem State.enter_acc (fuel : Nat) (s : State) (t : Team) (tl e at_ : Nat) (ev : TeamEvent) :
    (State.enter fuel s t tl e at_ ev).acc = s.acc := by
  induction fuel generalizing s tl ev with
  | zero => simp [State.enter]
  | succ n ih =>
    unfold State.enter
    dsimp only
    repeat' split
    all_goals simp [ih]
@[simp] theorem State.postEvent_mem (s : State) (t : Nat) (ev : TeamEvent) : (State.postEvent s t ev).mem = s.mem := by unfold State.postEvent; split <;> simp
@[simp] theorem State.postEvent_acc (s : State) (t : Nat) (ev : TeamEvent) : (State.postEvent s t ev).acc = s.acc := by unfold State.postEvent; split <;> simp
@[simp] theorem State.fault_mem (s : State) (t level cause : Nat) (tval tvalh : Word) (tlm : Mask) (words hdr pass pos : Nat) : (State.fault s t level cause tval tvalh tlm words hdr pass pos).mem = s.mem := by unfold State.fault; split <;> simp
@[simp] theorem State.fault_acc (s : State) (t level cause : Nat) (tval tvalh : Word) (tlm : Mask) (words hdr pass pos : Nat) : (State.fault s t level cause tval tvalh tlm words hdr pass pos).acc = s.acc := by unfold State.fault; split <;> simp
@[simp] theorem State.watchEvent_mem (s : State) (t o words : Nat) : (State.watchEvent s t o words).mem = s.mem := by unfold State.watchEvent; split <;> simp
@[simp] theorem State.watchEvent_acc (s : State) (t o words : Nat) : (State.watchEvent s t o words).acc = s.acc := by unfold State.watchEvent; split <;> simp
@[simp] theorem State.watch_mem (s : State) (p c off n : Nat) (write : Bool) (a : Agent) : (State.watch s p c off n write a).mem = s.mem := by
  unfold State.watch; refine foldl_mem _ _ _ ?_; intros; dsimp only; repeat' split
  all_goals simp
@[simp] theorem State.watch_acc (s : State) (p c off n : Nat) (write : Bool) (a : Agent) : (State.watch s p c off n write a).acc = s.acc := by
  unfold State.watch; refine foldl_acc _ _ _ ?_; intros; dsimp only; repeat' split
  all_goals simp
@[simp] theorem State.meetRead_mem (s : State) (p pa n : Nat) (a : Agent) : (State.meetRead s p pa n a).mem = s.mem := by unfold State.meetRead; split <;> simp
@[simp] theorem State.meetRead_acc (s : State) (p pa n : Nat) (a : Agent) : (State.meetRead s p pa n a).acc = s.acc := by unfold State.meetRead; split <;> simp
@[simp] theorem State.complete_acc (s : State) (p pa : Nat) : (State.complete s p pa).acc = s.acc := by unfold State.complete; dsimp only; simp
@[simp] theorem State.knowObj_mem (s : State) (p pa : Nat) : (State.knowObj s p pa).mem = s.mem := by unfold State.knowObj; simp
@[simp] theorem State.knowObj_acc (s : State) (p pa : Nat) : (State.knowObj s p pa).acc = s.acc := by unfold State.knowObj; simp
@[simp] theorem State.lsPut_acc (s : State) (p c off : Nat) (bs : List Byte) (a : Agent) : (State.lsPut s p c off bs a).acc = s.acc := by unfold State.lsPut; simp
@[simp] theorem State.lsWrite_acc (s : State) (p c off : Nat) (bs : List Byte) (a : Agent) : (State.lsWrite s p c off bs a).acc = s.acc := by unfold State.lsWrite; simp
@[simp] theorem State.credit_acc (s : State) (p c off x : Nat) : (State.credit s p c off x).acc = s.acc := by unfold State.credit; dsimp only; split <;> simp

/-! ### Machine/Translate.lean -/

@[simp] theorem State.fillTlb_mem (s : State) (p c : Nat) (e : TlbEntry) : (State.fillTlb s p c e).mem = s.mem := rfl
@[simp] theorem State.fillTlb_acc (s : State) (p c : Nat) (e : TlbEntry) : (State.fillTlb s p c e).acc = s.acc := rfl

/-! ### Machine/Access.lean -/

@[simp] theorem State.settle_mem (s : State) (i : Nat) : (State.settle s i).mem = s.mem := by unfold State.settle; split <;> simp
@[simp] theorem State.settle_acc (s : State) (i : Nat) : (State.settle s i).acc = s.acc := by unfold State.settle; split <;> simp
@[simp] theorem State.modLanes_mem (s : State) (i : Nat) (g : LaneReq → LaneReq) : (State.modLanes s i g).mem = s.mem := rfl
@[simp] theorem State.modLanes_acc (s : State) (i : Nat) (g : LaneReq → LaneReq) : (State.modLanes s i g).acc = s.acc := rfl
@[simp] theorem State.landAt_mem (s : State) (i cyc : Nat) (lanes : List Nat) : (State.landAt s i cyc lanes).mem = s.mem := by unfold State.landAt; split <;> simp
@[simp] theorem State.landAt_acc (s : State) (i cyc : Nat) (lanes : List Nat) : (State.landAt s i cyc lanes).acc = s.acc := by unfold State.landAt; split <;> simp
@[simp] theorem State.readLane_mem (s : State) (f : Flight) (q : LaneReq) (n : Nat) : (State.readLane s f q n).1.mem = s.mem := by
  unfold State.readLane; dsimp only [State.fresh, State.freeIndex]; repeat' split
  all_goals simp
@[simp] theorem State.readLane_acc (s : State) (f : Flight) (q : LaneReq) (n : Nat) : (State.readLane s f q n).1.acc = s.acc := by
  unfold State.readLane; dsimp only [State.fresh, State.freeIndex]; repeat' split
  all_goals simp
@[simp] theorem State.writeLane_acc (s : State) (f : Flight) (home : Nat) (bs : List Byte) : (State.writeLane s f home bs).acc = s.acc := by unfold State.writeLane; split <;> simp
@[simp] theorem State.performLane_acc (s : State) (f : Flight) (q : LaneReq) : (State.performLane s f q).1.acc = s.acc := by
  unfold State.performLane; dsimp only [State.fresh, State.freeIndex]; repeat' split
  all_goals simp
@[simp] theorem performAll_acc (f : Flight) (pick : LaneReq → Bool) (s : State) (l : List LaneReq) :
    (performAll f pick s l).1.acc = s.acc := by
  induction l generalizing s with
  | nil => rfl
  | cons q qs ih =>
    unfold performAll
    dsimp only
    rw [ih]
    split <;> simp
@[simp] theorem State.performLanes_acc (s : State) (i delay : Nat) (pick : LaneReq → Bool) : (State.performLanes s i delay pick).acc = s.acc := by unfold State.performLanes; split <;> simp
@[simp] theorem State.setPc_mem (s : State) (x : PChan) : (State.setPc s x).mem = s.mem := by unfold State.setPc; simp
@[simp] theorem State.setPc_acc (s : State) (x : PChan) : (State.setPc s x).acc = s.acc := by unfold State.setPc; simp
@[simp] theorem State.kick_mem (s : State) (p n : Nat) : (State.kick s p n).mem = s.mem := by
  unfold State.kick; dsimp only [State.fresh, State.freeIndex]; repeat' split
  all_goals simp
@[simp] theorem State.kick_acc (s : State) (p n : Nat) : (State.kick s p n).acc = s.acc := by
  unfold State.kick; dsimp only [State.fresh, State.freeIndex]; repeat' split
  all_goals simp
@[simp] theorem State.enqueue_mem (s : State) (p pa : Nat) (g : Seg) : (State.enqueue s p pa g).mem = s.mem := by unfold State.enqueue; simp
@[simp] theorem State.enqueue_acc (s : State) (p pa : Nat) (g : Seg) : (State.enqueue s p pa g).acc = s.acc := by unfold State.enqueue; simp
@[simp] theorem State.sendLanes_mem (s : State) (i c : Nat) : (s.sendLanes i c).mem = s.mem := by
  unfold State.sendLanes
  split
  · rfl
  · dsimp only
    refine (foldl_mem _ _ _ ?_).trans ?_
    · intro s q; rfl
    · split
      · refine (foldl_mem _ _ _ ?_).trans ?_
        · intro s q; rfl
        · rfl
      · rw [State.gatherAt_mem]
        refine (foldl_mem _ _ _ ?_).trans ?_
        · intro s q; rfl
        · rfl
@[simp] theorem State.sendLanes_acc (s : State) (i c : Nat) : (s.sendLanes i c).acc = s.acc := by
  unfold State.sendLanes
  split
  · rfl
  · dsimp only
    refine (foldl_acc _ _ _ ?_).trans ?_
    · intro s q; rfl
    · split
      · refine (foldl_acc _ _ _ ?_).trans ?_
        · intro s q; rfl
        · rfl
      · rw [State.gatherAt_acc]
        refine (foldl_acc _ _ _ ?_).trans ?_
        · intro s q; rfl
        · rfl
@[simp] theorem State.refill_mem (s s0 : State) (e : Staged) (words : List Nat) : (State.refill s s0 e words).mem = s.mem := rfl
@[simp] theorem State.refill_acc (s s0 : State) (e : Staged) (words : List Nat) : (State.refill s s0 e words).acc = s.acc := rfl
@[simp] theorem State.reportAt_mem (s : State) (i : Nat) : (State.reportAt s i).mem = s.mem := by
  unfold State.reportAt
  try dsimp only [State.fresh, State.freeIndex]
  repeat' split
  all_goals first | rfl | (refine foldl_mem _ _ _ ?_ <;> intros <;> (try dsimp only [State.fresh, State.freeIndex]) <;> (repeat' split) <;> first | rfl | (simp; done) | (simp_all; done)) | ((try dsimp only [State.fresh, State.freeIndex]); refine foldl_mem _ _ _ ?_ <;> intros <;> (try dsimp only [State.fresh, State.freeIndex]) <;> (repeat' split) <;> first | rfl | (simp; done) | (simp_all; done)) | (simp; done) | (simp_all; done) | ((try simp); refine (foldl_mem _ _ _ ?_).trans ?_ <;> intros <;> (try dsimp only [State.fresh, State.freeIndex]) <;> (repeat' split) <;> first | rfl | (simp; done) | (simp_all; done))
@[simp] theorem State.reportAt_acc (s : State) (i : Nat) : (State.reportAt s i).acc = s.acc := by
  unfold State.reportAt
  try dsimp only [State.fresh, State.freeIndex]
  repeat' split
  all_goals first | rfl | (refine foldl_acc _ _ _ ?_ <;> intros <;> (try dsimp only [State.fresh, State.freeIndex]) <;> (repeat' split) <;> first | rfl | (simp; done) | (simp_all; done)) | ((try dsimp only [State.fresh, State.freeIndex]); refine foldl_acc _ _ _ ?_ <;> intros <;> (try dsimp only [State.fresh, State.freeIndex]) <;> (repeat' split) <;> first | rfl | (simp; done) | (simp_all; done)) | (simp; done) | (simp_all; done) | ((try simp); refine (foldl_acc _ _ _ ?_).trans ?_ <;> intros <;> (try dsimp only [State.fresh, State.freeIndex]) <;> (repeat' split) <;> first | rfl | (simp; done) | (simp_all; done))
@[simp] theorem State.orderWalks_mem (s : State) (f : Flight) : (State.orderWalks s f).mem = s.mem := rfl
@[simp] theorem State.walksFor_mem (s : State) (i : Nat) : (State.walksFor s i).mem = s.mem := by
  unfold State.walksFor; dsimp only [State.fresh]; repeat' split
  all_goals try simp
@[simp] theorem State.orderWalks_acc (s : State) (f : Flight) : (State.orderWalks s f).acc = s.acc := rfl
@[simp] theorem State.walksFor_acc (s : State) (i : Nat) : (State.walksFor s i).acc = s.acc := by
  unfold State.walksFor; dsimp only [State.fresh]; repeat' split
  all_goals try simp
@[simp] theorem State.holdTagged_mem (s : State) (i : Nat) : (State.holdTagged s i).mem = s.mem := by unfold State.holdTagged; split <;> simp
@[simp] theorem State.holdTagged_acc (s : State) (i : Nat) : (State.holdTagged s i).acc = s.acc := by unfold State.holdTagged; split <;> simp
@[simp] theorem State.offerAt_mem (s : State) (i c : Nat) : (State.offerAt s i c).mem = s.mem := by unfold State.offerAt; split <;> simp
@[simp] theorem State.offerAt_acc (s : State) (i c : Nat) : (State.offerAt s i c).acc = s.acc := by unfold State.offerAt; split <;> simp
@[simp] theorem State.launchLanes_mem (s : State) (i c : Nat) : (State.launchLanes s i c).mem = s.mem := by unfold State.launchLanes; split <;> simp
@[simp] theorem State.launchLanes_acc (s : State) (i c : Nat) : (State.launchLanes s i c).acc = s.acc := by unfold State.launchLanes; split <;> simp
@[simp] theorem State.walkLanes_mem (s : State) (i page cause : Nat) (x : Option TlbEntry) : (State.walkLanes s i page cause x).mem = s.mem := by unfold State.walkLanes; simp
@[simp] theorem State.walkLanes_acc (s : State) (i page cause : Nat) (x : Option TlbEntry) : (State.walkLanes s i page cause x).acc = s.acc := by unfold State.walkLanes; simp
@[simp] theorem State.issueMem_mem (s : State) (t : Team) (hdr pass : Nat) (m : MemAct) :
    (s.issueMem t hdr pass m).mem = s.mem := by
  unfold State.issueMem
  dsimp only [State.fresh]
  repeat' split
  all_goals try simp
@[simp] theorem State.issueMem_acc (s : State) (t : Team) (hdr pass : Nat) (m : MemAct) :
    (s.issueMem t hdr pass m).acc = s.acc := by
  unfold State.issueMem
  dsimp only [State.fresh]
  repeat' split
  all_goals try simp

/-! ### Machine/Csr.lean -/

@[simp] theorem State.csrWrite_mem (s : State) (t : Nat) (n : Nat) (kind : CsrKind) (old b : Word) : (State.csrWrite s t n kind old b).mem = s.mem := by unfold State.csrWrite; split <;> simp
@[simp] theorem State.csrWrite_acc (s : State) (t : Nat) (n : Nat) (kind : CsrKind) (old b : Word) : (State.csrWrite s t n kind old b).acc = s.acc := by unfold State.csrWrite; split <;> simp
@[simp] theorem State.setHash_acc (s : State) (p : Nat) (new : List Word) : (State.setHash s p new).acc = s.acc := rfl

/-! ### Machine/Ports.lean -/

@[simp] theorem State.modPort_mem (s : State) (p k : Nat) (f : Port → Port) : (State.modPort s p k f).mem = s.mem := rfl
@[simp] theorem State.modPort_acc (s : State) (p k : Nat) (f : Port → Port) : (State.modPort s p k f).acc = s.acc := rfl
@[simp] theorem State.arm_mem (s : State) (p k : Nat) : (State.arm s p k).mem = s.mem := by unfold State.arm; simp
@[simp] theorem State.arm_acc (s : State) (p k : Nat) : (State.arm s p k).acc = s.acc := by unfold State.arm; simp
@[simp] theorem State.enterPort_mem (s : State) (p k : Nat) (tub : Bool) (x : Packet) : (State.enterPort s p k tub x).mem = s.mem := by unfold State.enterPort; simp
@[simp] theorem State.enterPort_acc (s : State) (p k : Nat) (tub : Bool) (x : Packet) : (State.enterPort s p k tub x).acc = s.acc := by unfold State.enterPort; simp
@[simp] theorem State.depart_mem (s : State) (p k : Nat) (x : Packet) : (State.depart s p k x).mem = s.mem := by unfold State.depart; split <;> simp
@[simp] theorem State.depart_acc (s : State) (p k : Nat) (x : Packet) : (State.depart s p k x).acc = s.acc := by unfold State.depart; split <;> simp
@[simp] theorem State.dropPacket_mem (s : State) (i : Nat) : (State.dropPacket s i).mem = s.mem := rfl
@[simp] theorem State.dropPacket_acc (s : State) (i : Nat) : (State.dropPacket s i).acc = s.acc := rfl
@[simp] theorem State.sendHeadered_mem (s : State) (p dst slots : Nat) (body : PBody) : (State.sendHeadered s p dst slots body).mem = s.mem := by
  unfold State.sendHeadered; dsimp only [State.fresh, State.freeIndex]; repeat' split
  all_goals simp
@[simp] theorem State.sendHeadered_acc (s : State) (p dst slots : Nat) (body : PBody) : (State.sendHeadered s p dst slots body).acc = s.acc := by
  unfold State.sendHeadered; dsimp only [State.fresh, State.freeIndex]; repeat' split
  all_goals simp
@[simp] theorem State.castHalt_mem (s : State) (p : Nat) (ks : List Nat) (b orig kind : Nat) : (State.castHalt s p ks b orig kind).mem = s.mem := by
  unfold State.castHalt; refine foldl_mem _ _ _ ?_; intros; dsimp only; repeat' split
  all_goals simp
@[simp] theorem State.castHalt_acc (s : State) (p : Nat) (ks : List Nat) (b orig kind : Nat) : (State.castHalt s p ks b orig kind).acc = s.acc := by
  unfold State.castHalt; refine foldl_acc _ _ _ ?_; intros; dsimp only; repeat' split
  all_goals simp

/-! ### Machine/Storage.lean -/

@[simp] theorem State.modSave_mem (s : State) (g c : Nat) (f : SaveSt → SaveSt) : (State.modSave s g c f).mem = s.mem := rfl
@[simp] theorem State.modSave_acc (s : State) (g c : Nat) (f : SaveSt → SaveSt) : (State.modSave s g c f).acc = s.acc := rfl
@[simp] theorem State.imageWrite_mem (s : State) (p c g c0 pa : Nat) (bs : List Byte) : (State.imageWrite s p c g c0 pa bs).mem = s.mem := rfl
@[simp] theorem State.imageWrite_acc (s : State) (p c g c0 pa : Nat) (bs : List Byte) : (State.imageWrite s p c g c0 pa bs).acc = s.acc := rfl
@[simp] theorem State.writeReply_mem (s : State) (f : Flight) (q : LaneReq) : (State.writeReply s f q).mem = s.mem := by
  unfold State.writeReply
  try dsimp only [State.fresh, State.freeIndex]
  repeat' split
  all_goals first | rfl | (refine foldl_mem _ _ _ ?_ <;> intros <;> (try dsimp only [State.fresh, State.freeIndex]) <;> (repeat' split) <;> first | rfl | (simp; done) | (simp_all; done)) | ((try dsimp only [State.fresh, State.freeIndex]); refine foldl_mem _ _ _ ?_ <;> intros <;> (try dsimp only [State.fresh, State.freeIndex]) <;> (repeat' split) <;> first | rfl | (simp; done) | (simp_all; done)) | (simp; done) | (simp_all; done) | ((try simp); refine (foldl_mem _ _ _ ?_).trans ?_ <;> intros <;> (try dsimp only [State.fresh, State.freeIndex]) <;> (repeat' split) <;> first | rfl | (simp; done) | (simp_all; done))
@[simp] theorem State.writeReply_acc (s : State) (f : Flight) (q : LaneReq) : (State.writeReply s f q).acc = s.acc := by
  unfold State.writeReply
  try dsimp only [State.fresh, State.freeIndex]
  repeat' split
  all_goals first | rfl | (refine foldl_acc _ _ _ ?_ <;> intros <;> (try dsimp only [State.fresh, State.freeIndex]) <;> (repeat' split) <;> first | rfl | (simp; done) | (simp_all; done)) | ((try dsimp only [State.fresh, State.freeIndex]); refine foldl_acc _ _ _ ?_ <;> intros <;> (try dsimp only [State.fresh, State.freeIndex]) <;> (repeat' split) <;> first | rfl | (simp; done) | (simp_all; done)) | (simp; done) | (simp_all; done) | ((try simp); refine (foldl_acc _ _ _ ?_).trans ?_ <;> intros <;> (try dsimp only [State.fresh, State.freeIndex]) <;> (repeat' split) <;> first | rfl | (simp; done) | (simp_all; done))
@[simp] theorem State.writeReplies_mem (s : State) (i : Nat) (pick : LaneReq → Bool) : (State.writeReplies s i pick).mem = s.mem := by unfold State.writeReplies; split <;> simp
@[simp] theorem State.writeReplies_acc (s : State) (i : Nat) (pick : LaneReq → Bool) : (State.writeReplies s i pick).acc = s.acc := by unfold State.writeReplies; split <;> simp

/-! ### Machine/LaneEvents.lean -/

@[simp] theorem State.land_mem (s : State) (l : Nat) : (State.land s l).mem = s.mem := by unfold State.land; split <;> simp
@[simp] theorem State.land_acc (s : State) (l : Nat) : (State.land s l).acc = s.acc := by unfold State.land; split <;> simp
@[simp] theorem State.putStaged_acc (s : State) (e : Staged) (l : List (Nat × List Byte)) : (State.putStaged s e l).acc = s.acc := by unfold State.putStaged; simp
@[simp] theorem State.putAcc_mem (s : State) (l : List (Nat × Word)) : (State.putAcc s l).mem = s.mem := by
  unfold State.putAcc; exact foldl_mem _ _ _ (by intros; rfl)
@[simp] theorem State.reportCause_mem (s : State) (f : Flight) (bad : List LaneReq) (cause : Nat) : (State.reportCause s f bad cause).mem = s.mem := by unfold State.reportCause; split <;> simp
@[simp] theorem State.reportCause_acc (s : State) (f : Flight) (bad : List LaneReq) (cause : Nat) : (State.reportCause s f bad cause).acc = s.acc := by unfold State.reportCause; split <;> simp
@[simp] theorem State.endFaults_mem (s : State) (i : Nat) (f : LaneReq → Bool) : (State.endFaults s i f).mem = s.mem := by unfold State.endFaults; simp
@[simp] theorem State.endFaults_acc (s : State) (i : Nat) (f : LaneReq → Bool) : (State.endFaults s i f).acc = s.acc := by unfold State.endFaults; simp
@[simp] theorem State.reportWalk_mem (s : State) (f : Flight) (page cause : Nat) : (State.reportWalk s f page cause).mem = s.mem := by
  unfold State.reportWalk; dsimp only [State.fresh, State.freeIndex]; repeat' split
  all_goals simp
@[simp] theorem State.reportWalk_acc (s : State) (f : Flight) (page cause : Nat) : (State.reportWalk s f page cause).acc = s.acc := by
  unfold State.reportWalk; dsimp only [State.fresh, State.freeIndex]; repeat' split
  all_goals simp

/-! ### Machine/Tubs.lean -/

@[simp] theorem State.addRecord_mem (s : State) (p team : Nat) (data : List Byte) : (State.addRecord s p team data).mem = s.mem := by unfold State.addRecord; split <;> simp
@[simp] theorem State.addRecord_acc (s : State) (p team : Nat) (data : List Byte) : (State.addRecord s p team data).acc = s.acc := by unfold State.addRecord; split <;> simp
@[simp] theorem State.setRstat_mem (s : State) (t : Nat) (bit : Word) : (State.setRstat s t bit).mem = s.mem := rfl
@[simp] theorem State.setRstat_acc (s : State) (t : Nat) (bit : Word) : (State.setRstat s t bit).acc = s.acc := rfl
@[simp] theorem State.nextRecord_mem (s : State) (p c : Nat) : (State.nextRecord s p c).mem = s.mem := by
  unfold State.nextRecord
  try dsimp only [State.fresh, State.freeIndex]
  repeat' split
  all_goals first | rfl | (refine foldl_mem _ _ _ ?_ <;> intros <;> (try dsimp only [State.fresh, State.freeIndex]) <;> (repeat' split) <;> first | rfl | (simp; done) | (simp_all; done)) | ((try dsimp only [State.fresh, State.freeIndex]); refine foldl_mem _ _ _ ?_ <;> intros <;> (try dsimp only [State.fresh, State.freeIndex]) <;> (repeat' split) <;> first | rfl | (simp; done) | (simp_all; done)) | (simp; done) | (simp_all; done) | ((try simp); refine (foldl_mem _ _ _ ?_).trans ?_ <;> intros <;> (try dsimp only [State.fresh, State.freeIndex]) <;> (repeat' split) <;> first | rfl | (simp; done) | (simp_all; done))
@[simp] theorem State.nextRecord_acc (s : State) (p c : Nat) : (State.nextRecord s p c).acc = s.acc := by
  unfold State.nextRecord
  try dsimp only [State.fresh, State.freeIndex]
  repeat' split
  all_goals first | rfl | (refine foldl_acc _ _ _ ?_ <;> intros <;> (try dsimp only [State.fresh, State.freeIndex]) <;> (repeat' split) <;> first | rfl | (simp; done) | (simp_all; done)) | ((try dsimp only [State.fresh, State.freeIndex]); refine foldl_acc _ _ _ ?_ <;> intros <;> (try dsimp only [State.fresh, State.freeIndex]) <;> (repeat' split) <;> first | rfl | (simp; done) | (simp_all; done)) | (simp; done) | (simp_all; done) | ((try simp); refine (foldl_acc _ _ _ ?_).trans ?_ <;> intros <;> (try dsimp only [State.fresh, State.freeIndex]) <;> (repeat' split) <;> first | rfl | (simp; done) | (simp_all; done))
@[simp] theorem State.dropRecord_mem (s : State) (x : Ctx) (r : PendRec) : (State.dropRecord s x r).mem = s.mem := by unfold State.dropRecord; simp
@[simp] theorem State.dropRecord_acc (s : State) (x : Ctx) (r : PendRec) : (State.dropRecord s x r).acc = s.acc := by unfold State.dropRecord; simp
@[simp] theorem State.issueRecord_mem (s : State) (x : Ctx) (r : PendRec) (y : Xl) : (State.issueRecord s x r y).mem = s.mem := by
  unfold State.issueRecord; dsimp only [State.fresh, State.freeIndex]; repeat' split
  all_goals simp
@[simp] theorem State.issueRecord_acc (s : State) (x : Ctx) (r : PendRec) (y : Xl) : (State.issueRecord s x r y).acc = s.acc := by
  unfold State.issueRecord; dsimp only [State.fresh, State.freeIndex]; repeat' split
  all_goals simp
@[simp] theorem State.lanesKnown_mem (s : State) (e : Elem) : (State.lanesKnown s e).mem = s.mem := by unfold State.lanesKnown; simp
@[simp] theorem State.lanesKnown_acc (s : State) (e : Elem) : (State.lanesKnown s e).acc = s.acc := by unfold State.lanesKnown; simp
@[simp] theorem State.resolve_mem (s : State) (p : Nat) (es : List Elem) : (State.resolve s p es).mem = s.mem := by unfold State.resolve; simp
@[simp] theorem State.resolve_acc (s : State) (p : Nat) (es : List Elem) : (State.resolve s p es).acc = s.acc := by unfold State.resolve; simp
@[simp] theorem State.modTub_mem (s : State) (p k : Nat) (f : Tub → Tub) : (State.modTub s p k f).mem = s.mem := rfl
@[simp] theorem State.modTub_acc (s : State) (p k : Nat) (f : Tub → Tub) : (State.modTub s p k f).acc = s.acc := rfl
@[simp] theorem State.freeTub_mem (s : State) (p k : Nat) : (State.freeTub s p k).mem = s.mem := by unfold State.freeTub; simp
@[simp] theorem State.freeTub_acc (s : State) (p k : Nat) : (State.freeTub s p k).acc = s.acc := by unfold State.freeTub; simp
@[simp] theorem State.sendUal_mem (s : State) (p i dkey : Nat) (es : List Elem) : (State.sendUal s p i dkey es).mem = s.mem := by unfold State.sendUal; simp
@[simp] theorem State.sendUal_acc (s : State) (p i dkey : Nat) (es : List Elem) : (State.sendUal s p i dkey es).acc = s.acc := by unfold State.sendUal; simp
@[simp] theorem State.closeTub_mem (s : State) (p k : Nat) : (State.closeTub s p k).mem = s.mem := by
  unfold State.closeTub; dsimp only [State.fresh, State.freeIndex]; repeat' split
  all_goals simp
@[simp] theorem State.closeTub_acc (s : State) (p k : Nat) : (State.closeTub s p k).acc = s.acc := by
  unfold State.closeTub; dsimp only [State.fresh, State.freeIndex]; repeat' split
  all_goals simp
@[simp] theorem State.intoTub_mem (s : State) (p k : Nat) (e : Elem) : (State.intoTub s p k e).mem = s.mem := by unfold State.intoTub; simp
@[simp] theorem State.intoTub_acc (s : State) (p k : Nat) (e : Elem) : (State.intoTub s p k e).acc = s.acc := by unfold State.intoTub; simp
@[simp] theorem State.openTubAt_mem (s : State) (p k : Nat) (e : Elem) : (State.openTubAt s p k e).mem = s.mem := by unfold State.openTubAt; simp
@[simp] theorem State.openTubAt_acc (s : State) (p k : Nat) (e : Elem) : (State.openTubAt s p k e).acc = s.acc := by unfold State.openTubAt; simp
@[simp] theorem State.offer_mem (s : State) (p : Nat) (e : Elem) : (State.offer s p e).1.mem = s.mem := by
  unfold State.offer; dsimp only [State.fresh, State.freeIndex]; repeat' split
  all_goals simp
@[simp] theorem State.offer_acc (s : State) (p : Nat) (e : Elem) : (State.offer s p e).1.acc = s.acc := by
  unfold State.offer; dsimp only [State.fresh, State.freeIndex]; repeat' split
  all_goals simp
@[simp] theorem State.closeWhere_mem (s : State) (p : Nat) (f : Tub → Bool) : (State.closeWhere s p f).mem = s.mem := by unfold State.closeWhere; simp
@[simp] theorem State.closeWhere_acc (s : State) (p : Nat) (f : Tub → Bool) : (State.closeWhere s p f).acc = s.acc := by unfold State.closeWhere; simp
@[simp] theorem State.lastSlot_mem (s : State) (p k : Nat) (x : Packet) : (State.lastSlot s p k x).mem = s.mem := by unfold State.lastSlot; split <;> simp
@[simp] theorem State.lastSlot_acc (s : State) (p k : Nat) (x : Packet) : (State.lastSlot s p k x).acc = s.acc := by unfold State.lastSlot; split <;> simp
@[simp] theorem State.sendSlot_mem (s : State) (p k : Nat) (x : Packet) : (State.sendSlot s p k x).mem = s.mem := by unfold State.sendSlot; simp
@[simp] theorem State.sendSlot_acc (s : State) (p k : Nat) (x : Packet) : (State.sendSlot s p k x).acc = s.acc := by unfold State.sendSlot; simp

/-! ### Machine/Remote.lean -/

@[simp] theorem State.modInn_mem (s : State) (p i : Nat) (f : Packet → Packet) : (State.modInn s p i f).mem = s.mem := rfl
@[simp] theorem State.modInn_acc (s : State) (p i : Nat) (f : Packet → Packet) : (State.modInn s p i f).acc = s.acc := rfl
@[simp] theorem State.dropInn_mem (s : State) (p i : Nat) : (State.dropInn s p i).mem = s.mem := rfl
@[simp] theorem State.dropInn_acc (s : State) (p i : Nat) : (State.dropInn s p i).acc = s.acc := rfl
@[simp] theorem State.beginIssue_mem (s : State) (p : Nat) (x : Packet) : (State.beginIssue s p x).mem = s.mem := by
  unfold State.beginIssue; refine (foldl_mem _ _ _ ?_).trans ?_ <;> intros <;> simp
@[simp] theorem State.beginIssue_acc (s : State) (p : Nat) (x : Packet) : (State.beginIssue s p x).acc = s.acc := by
  unfold State.beginIssue; refine (foldl_acc _ _ _ ?_).trans ?_ <;> intros <;> simp
@[simp] theorem State.takeIn_mem (s : State) (p : Nat) (x : Packet) : (State.takeIn s p x).mem = s.mem := by
  unfold State.takeIn
  try dsimp only [State.fresh, State.freeIndex]
  repeat' split
  all_goals first | rfl | (refine foldl_mem _ _ _ ?_ <;> intros <;> (try dsimp only [State.fresh, State.freeIndex]) <;> (repeat' split) <;> first | rfl | (simp; done) | (simp_all; done)) | ((try dsimp only [State.fresh, State.freeIndex]); refine foldl_mem _ _ _ ?_ <;> intros <;> (try dsimp only [State.fresh, State.freeIndex]) <;> (repeat' split) <;> first | rfl | (simp; done) | (simp_all; done)) | (simp; done) | (simp_all; done) | ((try simp); refine (foldl_mem _ _ _ ?_).trans ?_ <;> intros <;> (try dsimp only [State.fresh, State.freeIndex]) <;> (repeat' split) <;> first | rfl | (simp; done) | (simp_all; done))
@[simp] theorem State.takeIn_acc (s : State) (p : Nat) (x : Packet) : (State.takeIn s p x).acc = s.acc := by
  unfold State.takeIn
  try dsimp only [State.fresh, State.freeIndex]
  repeat' split
  all_goals first | rfl | (refine foldl_acc _ _ _ ?_ <;> intros <;> (try dsimp only [State.fresh, State.freeIndex]) <;> (repeat' split) <;> first | rfl | (simp; done) | (simp_all; done)) | ((try dsimp only [State.fresh, State.freeIndex]); refine foldl_acc _ _ _ ?_ <;> intros <;> (try dsimp only [State.fresh, State.freeIndex]) <;> (repeat' split) <;> first | rfl | (simp; done) | (simp_all; done)) | (simp; done) | (simp_all; done) | ((try simp); refine (foldl_acc _ _ _ ?_).trans ?_ <;> intros <;> (try dsimp only [State.fresh, State.freeIndex]) <;> (repeat' split) <;> first | rfl | (simp; done) | (simp_all; done))
@[simp] theorem State.modElem_mem (s : State) (p i j : Nat) (f : Elem → Elem) : (State.modElem s p i j f).mem = s.mem := rfl
@[simp] theorem State.modElem_acc (s : State) (p i j : Nat) (f : Elem → Elem) : (State.modElem s p i j f).acc = s.acc := rfl
@[simp] theorem State.homeWrite_acc (s : State) (p pa : Nat) (bs : List Byte) (a : Agent) : (State.homeWrite s p pa bs a).acc = s.acc := by unfold State.homeWrite; split <;> simp
@[simp] theorem State.remoteWrite_acc (s : State) (p src pa : Nat) (bs : List Byte) : (State.remoteWrite s p src pa bs).acc = s.acc := by unfold State.remoteWrite; split <;> simp
@[simp] theorem State.performElem_acc (s : State) (p src : Nat) (e : Elem) : (State.performElem s p src e).1.acc = s.acc := by
  unfold State.performElem; dsimp only [State.fresh, State.freeIndex]; repeat' split
  all_goals simp
@[simp] theorem State.endDrain_mem (s : State) (p : Nat) (d : Drain) (status : Word) : (State.endDrain s p d status).mem = s.mem := by unfold State.endDrain; split <;> simp
@[simp] theorem State.endDrain_acc (s : State) (p : Nat) (d : Drain) (status : Word) : (State.endDrain s p d status).acc = s.acc := by unfold State.endDrain; split <;> simp
@[simp] theorem State.drainAnswer_mem (s : State) (origin team num : Nat) : (State.drainAnswer s origin team num).mem = s.mem := by unfold State.drainAnswer; split <;> simp
@[simp] theorem State.drainAnswer_acc (s : State) (origin team num : Nat) : (State.drainAnswer s origin team num).acc = s.acc := by unfold State.drainAnswer; split <;> simp
@[simp] theorem State.answerDrains_mem (s : State) (p : Nat) : (State.answerDrains s p).mem = s.mem := by
  unfold State.answerDrains; refine foldl_mem _ _ _ ?_; intros; dsimp only; repeat' split
  all_goals simp
@[simp] theorem State.answerDrains_acc (s : State) (p : Nat) : (State.answerDrains s p).acc = s.acc := by
  unfold State.answerDrains; refine foldl_acc _ _ _ ?_; intros; dsimp only; repeat' split
  all_goals simp
@[simp] theorem State.beginDrain_mem (s : State) (p : Nat) (d : Drain) : (State.beginDrain s p d).mem = s.mem := rfl
@[simp] theorem State.beginDrain_acc (s : State) (p : Nat) (d : Drain) : (State.beginDrain s p d).acc = s.acc := rfl
@[simp] theorem State.loadsKnown_mem (s : State) (p flight dkey delay : Nat) (ls : List RLane) : (State.loadsKnown s p flight dkey delay ls).mem = s.mem := by unfold State.loadsKnown; split <;> simp
@[simp] theorem State.loadsKnown_acc (s : State) (p flight dkey delay : Nat) (ls : List RLane) : (State.loadsKnown s p flight dkey delay ls).acc = s.acc := by unfold State.loadsKnown; split <;> simp
@[simp] theorem State.requestLoads_mem (s : State) (p : Nat) (f : Flight) (dkey : Nat) (ls : List RLane) : (State.requestLoads s p f dkey ls).mem = s.mem := by
  unfold State.requestLoads
  try dsimp only [State.fresh, State.freeIndex]
  repeat' split
  all_goals first | rfl | (refine foldl_mem _ _ _ ?_ <;> intros <;> (try dsimp only [State.fresh, State.freeIndex]) <;> (repeat' split) <;> first | rfl | (simp; done) | (simp_all; done)) | ((try dsimp only [State.fresh, State.freeIndex]); refine foldl_mem _ _ _ ?_ <;> intros <;> (try dsimp only [State.fresh, State.freeIndex]) <;> (repeat' split) <;> first | rfl | (simp; done) | (simp_all; done)) | (simp; done) | (simp_all; done) | ((try simp); refine (foldl_mem _ _ _ ?_).trans ?_ <;> intros <;> (try dsimp only [State.fresh, State.freeIndex]) <;> (repeat' split) <;> first | rfl | (simp; done) | (simp_all; done))
@[simp] theorem State.requestLoads_acc (s : State) (p : Nat) (f : Flight) (dkey : Nat) (ls : List RLane) : (State.requestLoads s p f dkey ls).acc = s.acc := by
  unfold State.requestLoads
  try dsimp only [State.fresh, State.freeIndex]
  repeat' split
  all_goals first | rfl | (refine foldl_acc _ _ _ ?_ <;> intros <;> (try dsimp only [State.fresh, State.freeIndex]) <;> (repeat' split) <;> first | rfl | (simp; done) | (simp_all; done)) | ((try dsimp only [State.fresh, State.freeIndex]); refine foldl_acc _ _ _ ?_ <;> intros <;> (try dsimp only [State.fresh, State.freeIndex]) <;> (repeat' split) <;> first | rfl | (simp; done) | (simp_all; done)) | (simp; done) | (simp_all; done) | ((try simp); refine (foldl_acc _ _ _ ?_).trans ?_ <;> intros <;> (try dsimp only [State.fresh, State.freeIndex]) <;> (repeat' split) <;> first | rfl | (simp; done) | (simp_all; done))
@[simp] theorem State.modRLane_mem (s : State) (p i j : Nat) (f : RLane → RLane) : (State.modRLane s p i j f).mem = s.mem := rfl
@[simp] theorem State.modRLane_acc (s : State) (p i j : Nat) (f : RLane → RLane) : (State.modRLane s p i j f).acc = s.acc := rfl
@[simp] theorem State.sendReply_mem (s : State) (p : Nat) (x : Packet) (ls : List RLane) : (State.sendReply s p x ls).mem = s.mem := by
  unfold State.sendReply; dsimp only [State.fresh, State.freeIndex]; repeat' split
  all_goals simp
@[simp] theorem State.sendReply_acc (s : State) (p : Nat) (x : Packet) (ls : List RLane) : (State.sendReply s p x ls).acc = s.acc := by
  unfold State.sendReply; dsimp only [State.fresh, State.freeIndex]; repeat' split
  all_goals simp
@[simp] theorem State.refusePacket_mem (s : State) (p : Nat) (x : Packet) : (State.refusePacket s p x).mem = s.mem := by unfold State.refusePacket; split <;> simp
@[simp] theorem State.refusePacket_acc (s : State) (p : Nat) (x : Packet) : (State.refusePacket s p x).acc = s.acc := by unfold State.refusePacket; split <;> simp

/-! ### Machine/SyncEvents.lean -/

@[simp] theorem State.meetUpdate_mem (s : State) (e : Staged) : (s.meetUpdate e).mem = s.mem := by unfold State.meetUpdate; split <;> simp
@[simp] theorem State.meetUpdate_acc (s : State) (e : Staged) : (s.meetUpdate e).acc = s.acc := by unfold State.meetUpdate; split <;> simp
@[simp] theorem State.endWait_mem (s : State) (t : Nat) (w : Wait) : (State.endWait s t w).mem = s.mem := rfl
@[simp] theorem State.endWait_acc (s : State) (t : Nat) (w : Wait) : (State.endWait s t w).acc = s.acc := rfl
@[simp] theorem State.wakePhases_mem (s : State) : s.wakePhases.mem = s.mem := by
  unfold State.wakePhases
  refine foldl_mem _ _ _ fun s t => foldl_mem _ _ _ fun s w => ?_
  split
  · split <;> simp
  · rfl
@[simp] theorem State.wakePhases_acc (s : State) : s.wakePhases.acc = s.acc := by
  unfold State.wakePhases
  refine foldl_acc _ _ _ fun s t => foldl_acc _ _ _ fun s w => ?_
  split
  · split <;> simp
  · rfl
@[simp] theorem State.keepToken_mem (s : State) (p : Nat) (x : Token) : (State.keepToken s p x).mem = s.mem := rfl
@[simp] theorem State.keepToken_acc (s : State) (p : Nat) (x : Token) : (State.keepToken s p x).acc = s.acc := rfl
@[simp] theorem State.podRelease_mem (s : State) (g p k : Nat) : (State.podRelease s g p k).mem = s.mem := by
  unfold State.podRelease
  try dsimp only [State.fresh, State.freeIndex]
  repeat' split
  all_goals first | rfl | (refine foldl_mem _ _ _ ?_ <;> intros <;> (try dsimp only [State.fresh, State.freeIndex]) <;> (repeat' split) <;> first | rfl | (simp; done) | (simp_all; done)) | ((try dsimp only [State.fresh, State.freeIndex]); refine foldl_mem _ _ _ ?_ <;> intros <;> (try dsimp only [State.fresh, State.freeIndex]) <;> (repeat' split) <;> first | rfl | (simp; done) | (simp_all; done)) | (simp; done) | (simp_all; done) | ((try simp); refine (foldl_mem _ _ _ ?_).trans ?_ <;> intros <;> (try dsimp only [State.fresh, State.freeIndex]) <;> (repeat' split) <;> first | rfl | (simp; done) | (simp_all; done))
@[simp] theorem State.podRelease_acc (s : State) (g p k : Nat) : (State.podRelease s g p k).acc = s.acc := by
  unfold State.podRelease
  try dsimp only [State.fresh, State.freeIndex]
  repeat' split
  all_goals first | rfl | (refine foldl_acc _ _ _ ?_ <;> intros <;> (try dsimp only [State.fresh, State.freeIndex]) <;> (repeat' split) <;> first | rfl | (simp; done) | (simp_all; done)) | ((try dsimp only [State.fresh, State.freeIndex]); refine foldl_acc _ _ _ ?_ <;> intros <;> (try dsimp only [State.fresh, State.freeIndex]) <;> (repeat' split) <;> first | rfl | (simp; done) | (simp_all; done)) | (simp; done) | (simp_all; done) | ((try simp); refine (foldl_acc _ _ _ ?_).trans ?_ <;> intros <;> (try dsimp only [State.fresh, State.freeIndex]) <;> (repeat' split) <;> first | rfl | (simp; done) | (simp_all; done))
@[simp] theorem State.podGathered_mem (s : State) (g k : Nat) : (State.podGathered s g k).mem = s.mem := by unfold State.podGathered; simp
@[simp] theorem State.podGathered_acc (s : State) (g k : Nat) : (State.podGathered s g k).acc = s.acc := by unfold State.podGathered; simp
@[simp] theorem State.podTokens_mem (s : State) (g : Nat) : (State.podTokens s g).mem = s.mem := by unfold State.podTokens; simp
@[simp] theorem State.podTokens_acc (s : State) (g : Nat) : (State.podTokens s g).acc = s.acc := by unfold State.podTokens; simp
@[simp] theorem State.tokenIn_mem (s : State) (p key k from_ : Nat) (release : Bool) : (State.tokenIn s p key k from_ release).mem = s.mem := by unfold State.tokenIn; simp
@[simp] theorem State.tokenIn_acc (s : State) (p key k from_ : Nat) (release : Bool) : (State.tokenIn s p key k from_ release).acc = s.acc := by unfold State.tokenIn; simp
@[simp] theorem State.checkRounds_mem (s : State) (g : Nat) : (s.checkRounds g).mem = s.mem := by
  unfold State.checkRounds
  rw [State.podTokens_mem]
  refine foldl_mem _ _ _ fun s w => ?_
  dsimp only
  split <;> simp
@[simp] theorem State.checkRounds_acc (s : State) (g : Nat) : (s.checkRounds g).acc = s.acc := by
  unfold State.checkRounds
  rw [State.podTokens_acc]
  refine foldl_acc _ _ _ fun s w => ?_
  dsimp only
  split <;> simp
@[simp] theorem State.fenceEnds_mem (s : State) (t : Team) (w : Wait) : (State.fenceEnds s t w).mem = s.mem := by unfold State.fenceEnds; split <;> simp
@[simp] theorem State.fenceEnds_acc (s : State) (t : Team) (w : Wait) : (State.fenceEnds s t w).acc = s.acc := by unfold State.fenceEnds; split <;> simp
@[simp] theorem State.noteRounds_mem (s : State) (g : Gang) : (State.noteRounds s g).mem = s.mem := rfl
@[simp] theorem State.noteRounds_acc (s : State) (g : Gang) : (State.noteRounds s g).acc = s.acc := rfl
@[simp] theorem State.tagBoard_mem (s : State) : (State.tagBoard s).mem = s.mem := by
  unfold State.tagBoard; refine foldl_mem _ _ _ ?_; intros; dsimp only; repeat' split
  all_goals simp
@[simp] theorem State.tagBoard_acc (s : State) : (State.tagBoard s).acc = s.acc := by
  unfold State.tagBoard; refine foldl_acc _ _ _ ?_; intros; dsimp only; repeat' split
  all_goals simp

/-! ### Machine/Sched.lean -/

@[simp] theorem State.dropCards_mem (s : State) (p c : Nat) (f : Card → Bool) : (State.dropCards s p c f).mem = s.mem := rfl
@[simp] theorem State.dropCards_acc (s : State) (p c : Nat) (f : Card → Bool) : (State.dropCards s p c f).acc = s.acc := rfl
@[simp] theorem State.dropQueued_mem (s : State) (p c : Nat) (f : Ready → List Word → Bool) : (State.dropQueued s p c f).mem = s.mem := rfl
@[simp] theorem State.dropQueued_acc (s : State) (p c : Nat) (f : Ready → List Word → Bool) : (State.dropQueued s p c f).acc = s.acc := rfl
@[simp] theorem State.dropParked_mem (s : State) (p c : Nat) (f : Ready → List Word → Bool) : (State.dropParked s p c f).mem = s.mem := rfl
@[simp] theorem State.dropParked_acc (s : State) (p c : Nat) (f : Ready → List Word → Bool) : (State.dropParked s p c f).acc = s.acc := rfl
@[simp] theorem State.dropIncomplete_mem (s : State) (p c g : Nat) : (s.dropIncomplete p c g).mem = s.mem := by
  unfold State.dropIncomplete
  refine foldl_mem _ _ _ ?_
  intros
  (try dsimp only)
  (repeat' split) <;> simp
@[simp] theorem State.dropIncomplete_acc (s : State) (p c g : Nat) : (s.dropIncomplete p c g).acc = s.acc := by
  unfold State.dropIncomplete
  refine foldl_acc _ _ _ ?_
  intros
  (try dsimp only)
  (repeat' split) <;> simp
@[simp] theorem State.adoptHalt_mem (s : State) (p b orig kind : Nat) : (State.adoptHalt s p b orig kind).mem = s.mem := by unfold State.adoptHalt; simp
@[simp] theorem State.adoptHalt_acc (s : State) (p b orig kind : Nat) : (State.adoptHalt s p b orig kind).acc = s.acc := by unfold State.adoptHalt; simp
@[simp] theorem State.setRestart_mem (s : State) (p rs : Nat) : (State.setRestart s p rs).mem = s.mem := by
  unfold State.setRestart; exact foldl_mem _ _ _ (by intros; rfl)
@[simp] theorem State.setRestart_acc (s : State) (p rs : Nat) : (State.setRestart s p rs).acc = s.acc := by
  unfold State.setRestart; exact foldl_acc _ _ _ (by intros; rfl)
@[simp] theorem State.sendStamps_mem (s : State) : (State.sendStamps s).mem = s.mem := by unfold State.sendStamps; split <;> simp
@[simp] theorem State.sendStamps_acc (s : State) : (State.sendStamps s).acc = s.acc := by unfold State.sendStamps; split <;> simp

/-! ### Machine/Launch.lean -/

@[simp] theorem State.writeStatus_acc (s : State) (p : Nat) (pa : Option Nat) (x : Nat) : (State.writeStatus s p pa x).acc = s.acc := by unfold State.writeStatus; split <;> simp
@[simp] theorem State.submit_mem (s : State) (p : Nat) (r : Admit) : (State.submit s p r).mem = s.mem := rfl
@[simp] theorem State.submit_acc (s : State) (p : Nat) (r : Admit) : (State.submit s p r).acc = s.acc := rfl
@[simp] theorem State.meetExamined_mem (s : State) (p : Nat) (r : Admit) (a : Admitting) : (State.meetExamined s p r a).mem = s.mem := by unfold State.meetExamined; simp
@[simp] theorem State.beginAdmission_mem (s : State) (p : Nat) : (State.beginAdmission s p).mem = s.mem := by unfold State.beginAdmission; split <;> simp
@[simp] theorem State.meetExamined_acc (s : State) (p : Nat) (r : Admit) (a : Admitting) : (State.meetExamined s p r a).acc = s.acc := by unfold State.meetExamined; simp
@[simp] theorem State.beginAdmission_acc (s : State) (p : Nat) : (State.beginAdmission s p).acc = s.acc := by unfold State.beginAdmission; split <;> simp
@[simp] theorem State.beginAdmissions_mem (s : State) : (State.beginAdmissions s).mem = s.mem := by unfold State.beginAdmissions; simp
@[simp] theorem State.beginAdmissions_acc (s : State) : (State.beginAdmissions s).acc = s.acc := by unfold State.beginAdmissions; simp
@[simp] theorem State.admitGang_acc (s : State) (p : Nat) (a : Admitting) (pls : List (Nat × Placing)) (g charge : Nat) : (State.admitGang s p a pls g charge).acc = s.acc := by unfold State.admitGang; simp
@[simp] theorem State.modJoin_mem (s : State) (num : Nat) (f : Join → Join) : (State.modJoin s num f).mem = s.mem := rfl
@[simp] theorem State.modJoin_acc (s : State) (num : Nat) (f : Join → Join) : (State.modJoin s num f).acc = s.acc := rfl
@[simp] theorem State.joinFailed_mem (s : State) (num n : Nat) : (State.joinFailed s num n).mem = s.mem := by
  unfold State.joinFailed
  try dsimp only [State.fresh, State.freeIndex]
  repeat' split
  all_goals first | rfl | (refine foldl_mem _ _ _ ?_ <;> intros <;> (try dsimp only [State.fresh, State.freeIndex]) <;> (repeat' split) <;> first | rfl | (simp; done) | (simp_all; done)) | ((try dsimp only [State.fresh, State.freeIndex]); refine foldl_mem _ _ _ ?_ <;> intros <;> (try dsimp only [State.fresh, State.freeIndex]) <;> (repeat' split) <;> first | rfl | (simp; done) | (simp_all; done)) | (simp; done) | (simp_all; done) | ((try simp); refine (foldl_mem _ _ _ ?_).trans ?_ <;> intros <;> (try dsimp only [State.fresh, State.freeIndex]) <;> (repeat' split) <;> first | rfl | (simp; done) | (simp_all; done))
@[simp] theorem State.joinFailed_acc (s : State) (num n : Nat) : (State.joinFailed s num n).acc = s.acc := by
  unfold State.joinFailed
  try dsimp only [State.fresh, State.freeIndex]
  repeat' split
  all_goals first | rfl | (refine foldl_acc _ _ _ ?_ <;> intros <;> (try dsimp only [State.fresh, State.freeIndex]) <;> (repeat' split) <;> first | rfl | (simp; done) | (simp_all; done)) | ((try dsimp only [State.fresh, State.freeIndex]); refine foldl_acc _ _ _ ?_ <;> intros <;> (try dsimp only [State.fresh, State.freeIndex]) <;> (repeat' split) <;> first | rfl | (simp; done) | (simp_all; done)) | (simp; done) | (simp_all; done) | ((try simp); refine (foldl_acc _ _ _ ?_).trans ?_ <;> intros <;> (try dsimp only [State.fresh, State.freeIndex]) <;> (repeat' split) <;> first | rfl | (simp; done) | (simp_all; done))
@[simp] theorem State.joinSeen_mem (s : State) (num : Nat) : (State.joinSeen s num).mem = s.mem := by unfold State.joinSeen; split <;> simp
@[simp] theorem State.joinSeen_acc (s : State) (num : Nat) : (State.joinSeen s num).acc = s.acc := by unfold State.joinSeen; split <;> simp
@[simp] theorem State.admitFail_acc (s : State) (p : Nat) (a : Admitting) (st : Nat) : (State.admitFail s p a st).acc = s.acc := by unfold State.admitFail; simp
@[simp] theorem State.dropEvents_mem (s : State) (t : Team) : (State.dropEvents s t).mem = s.mem := by unfold State.dropEvents; simp
@[simp] theorem State.dropEvents_acc (s : State) (t : Team) : (State.dropEvents s t).acc = s.acc := by unfold State.dropEvents; simp
@[simp] theorem State.noteHeld_mem (s : State) (t : Nat) : (State.noteHeld s t).mem = s.mem := by unfold State.noteHeld; split <;> simp
@[simp] theorem State.noteHeld_acc (s : State) (t : Nat) : (State.noteHeld s t).acc = s.acc := by unfold State.noteHeld; split <;> simp
@[simp] theorem State.freePools_mem (s : State) (g : Nat) : (State.freePools s g).mem = s.mem := by
  unfold State.freePools; exact foldl_mem _ _ _ (by intros; rfl)
@[simp] theorem State.freePools_acc (s : State) (g : Nat) : (State.freePools s g).acc = s.acc := by
  unfold State.freePools; exact foldl_acc _ _ _ (by intros; rfl)
@[simp] theorem State.dropObjs_mem (s : State) (g : Nat) : (State.dropObjs s g).mem = s.mem := rfl
@[simp] theorem State.dropObjs_acc (s : State) (g : Nat) : (State.dropObjs s g).acc = s.acc := rfl
@[simp] theorem State.returnResources_mem (s : State) (g : Gang) : (State.returnResources s g).mem = s.mem := by unfold State.returnResources; simp
@[simp] theorem State.returnResources_acc (s : State) (g : Gang) : (State.returnResources s g).acc = s.acc := by unfold State.returnResources; simp
@[simp] theorem State.launchWord_mem (s : State) (t : Team) (d hdr pos words c rep : Nat) (x : Xl) : (State.launchWord s t d hdr pos words c rep x).mem = s.mem := by
  unfold State.launchWord; dsimp only [State.fresh, State.freeIndex]; repeat' split
  all_goals simp
@[simp] theorem State.launchWord_acc (s : State) (t : Team) (d hdr pos words c rep : Nat) (x : Xl) : (State.launchWord s t d hdr pos words c rep x).acc = s.acc := by
  unfold State.launchWord; dsimp only [State.fresh, State.freeIndex]; repeat' split
  all_goals simp
@[simp] theorem State.launchLate_mem (s : State) (w : Walk) (d slot hdr pos : Nat) (x : Xl) : (State.launchLate s w d slot hdr pos x).mem = s.mem := by unfold State.launchLate; split <;> simp
@[simp] theorem State.launchLate_acc (s : State) (w : Walk) (d slot hdr pos : Nat) (x : Xl) : (State.launchLate s w d slot hdr pos x).acc = s.acc := by unfold State.launchLate; split <;> simp

/-! ### Machine/Trap.lean -/

@[simp] theorem State.killFields_mem (s : State) (x : Gang) : (State.killFields s x).2.2.mem = s.mem := by unfold State.killFields; split <;> simp
@[simp] theorem State.killFields_acc (s : State) (x : Gang) : (State.killFields s x).2.2.acc = s.acc := by unfold State.killFields; split <;> simp
@[simp] theorem State.killRecords_mem (s : State) (x : Gang) : (State.killRecords s x).mem = s.mem := by unfold State.killRecords; simp
@[simp] theorem State.killRecords_acc (s : State) (x : Gang) : (State.killRecords s x).acc = s.acc := by unfold State.killRecords; simp
@[simp] theorem State.killOnCore_mem (s : State) (x : Gang) (p c : Nat) : (s.killOnCore x p c).mem = s.mem := by
  unfold State.killOnCore
  simp
@[simp] theorem State.killOnCore_acc (s : State) (x : Gang) (p c : Nat) : (s.killOnCore x p c).acc = s.acc := by
  unfold State.killOnCore
  simp
@[simp] theorem State.killNow_mem (s : State) (x : Gang) : (s.killNow x).mem = s.mem := by
  unfold State.killNow
  dsimp only
  simp only [State.checkRounds_mem, State.modGang_mem, State.dropSwitch_mem]
  refine (foldl_mem _ _ _ ?_).trans ?_
  · intros; simp
  · simp
@[simp] theorem State.killNow_acc (s : State) (x : Gang) : (s.killNow x).acc = s.acc := by
  unfold State.killNow
  dsimp only
  simp only [State.checkRounds_acc, State.modGang_acc, State.dropSwitch_acc]
  refine (foldl_acc _ _ _ ?_).trans ?_
  · intros; simp
  · simp

/-! ### Machine/Shift.lean -/

@[simp] theorem State.readChunk_mem (s : State) (p c : Nat) (ch : Chunk) : (s.readChunk p c ch).mem = s.mem := by
  unfold State.readChunk; split <;> simp
@[simp] theorem State.readChunk_acc (s : State) (p c : Nat) (ch : Chunk) : (s.readChunk p c ch).acc = s.acc := by
  unfold State.readChunk; split <;> simp
@[simp] theorem State.requestShift_mem (s : State) (p t out inc : Nat) (tag : Option Nat) : (State.requestShift s p t out inc tag).2.mem = s.mem := by
  unfold State.requestShift; dsimp only [State.fresh, State.freeIndex]; repeat' split
  all_goals simp
@[simp] theorem State.requestShift_acc (s : State) (p t out inc : Nat) (tag : Option Nat) : (State.requestShift s p t out inc tag).2.acc = s.acc := by
  unfold State.requestShift; dsimp only [State.fresh, State.freeIndex]; repeat' split
  all_goals simp
@[simp] theorem State.quietPoint_mem (s : State) (g c qc : Nat) : (State.quietPoint s g c qc).mem = s.mem := by
  unfold State.quietPoint; dsimp only [State.fresh, State.freeIndex]; repeat' split
  all_goals simp
@[simp] theorem State.quietPoint_acc (s : State) (g c qc : Nat) : (State.quietPoint s g c qc).acc = s.acc := by
  unfold State.quietPoint; dsimp only [State.fresh, State.freeIndex]; repeat' split
  all_goals simp
@[simp] theorem State.coreSwitch_mem (s : State) (p c o i at_ : Nat) : (State.coreSwitch s p c o i at_).mem = s.mem := rfl
@[simp] theorem State.coreSwitch_acc (s : State) (p c o i at_ : Nat) : (State.coreSwitch s p c o i at_).acc = s.acc := rfl
@[simp] theorem State.lateSwitch_mem (s : State) (p c : Nat) : (State.lateSwitch s p c).mem = s.mem := by
  unfold State.lateSwitch; dsimp only [State.fresh, State.freeIndex]; repeat' split
  all_goals simp
@[simp] theorem State.lateSwitch_acc (s : State) (p c : Nat) : (State.lateSwitch s p c).acc = s.acc := by
  unfold State.lateSwitch; dsimp only [State.fresh, State.freeIndex]; repeat' split
  all_goals simp
@[simp] theorem State.saveWritten_mem (s : State) (c g : Nat) : (State.saveWritten s c g).mem = s.mem := by
  unfold State.saveWritten; dsimp only [State.fresh, State.freeIndex]; repeat' split
  all_goals simp
@[simp] theorem State.saveWritten_acc (s : State) (c g : Nat) : (State.saveWritten s c g).acc = s.acc := by
  unfold State.saveWritten; dsimp only [State.fresh, State.freeIndex]; repeat' split
  all_goals simp
@[simp] theorem State.fillAsk_mem (s : State) (p g : Nat) (f : FillSt) : (s.fillAsk p g f).2.mem = s.mem := by
  unfold State.fillAsk; split <;> rfl
@[simp] theorem State.fillAsk_acc (s : State) (p g : Nat) (f : FillSt) : (s.fillAsk p g f).2.acc = s.acc := by
  unfold State.fillAsk; split <;> rfl
@[simp] theorem State.fillServed_mem (s : State) (p g i pa n : Nat) : (s.fillServed p g i pa n).mem = s.mem := by unfold State.fillServed; simp
@[simp] theorem State.fillServed_acc (s : State) (p g i pa n : Nat) : (s.fillServed p g i pa n).acc = s.acc := by unfold State.fillServed; simp
@[simp] theorem State.fillCore_mem (s : State) (x : Gang) (p c : Nat) (pl : Placing) : (State.fillCore s x p c pl).mem = s.mem := by unfold State.fillCore; simp
@[simp] theorem State.fillCore_acc (s : State) (x : Gang) (p c : Nat) (pl : Placing) : (State.fillCore s x p c pl).acc = s.acc := by unfold State.fillCore; simp

/-! ### Machine/Issue.lean -/

@[simp] theorem State.endClause_mem (s : State) (p c t pc : Nat) : (State.endClause s p c t pc).mem = s.mem := by unfold State.endClause; simp
@[simp] theorem State.endClause_acc (s : State) (p c t pc : Nat) : (State.endClause s p c t pc).acc = s.acc := by unfold State.endClause; simp
@[simp] theorem State.meetFetch_mem (s : State) (t : Team) : (State.meetFetch s t).mem = s.mem := by unfold State.meetFetch; simp
@[simp] theorem State.wordRead_mem (s : State) (t : Team) (o : Origin) (off n : Nat) : (State.wordRead s t o off n).mem = s.mem := by unfold State.wordRead; simp
@[simp] theorem State.startClause_mem (s : State) (t : Team) : (State.startClause s t).mem = s.mem := by
  unfold State.startClause; dsimp only [State.fresh, State.freeIndex]; repeat' split
  all_goals simp
@[simp] theorem State.meetFetch_acc (s : State) (t : Team) : (State.meetFetch s t).acc = s.acc := by unfold State.meetFetch; simp
@[simp] theorem State.wordRead_acc (s : State) (t : Team) (o : Origin) (off n : Nat) : (State.wordRead s t o off n).acc = s.acc := by unfold State.wordRead; simp
@[simp] theorem State.startClause_acc (s : State) (t : Team) : (State.startClause s t).acc = s.acc := by
  unfold State.startClause; dsimp only [State.fresh, State.freeIndex]; repeat' split
  all_goals simp
@[simp] theorem State.beginPass_mem (s : State) (p c : Nat) : (State.beginPass s p c).mem = s.mem := by
  unfold State.beginPass; dsimp only [State.fresh, State.freeIndex]; repeat' split
  all_goals simp
@[simp] theorem State.beginPass_acc (s : State) (p c : Nat) : (State.beginPass s p c).acc = s.acc := by
  unfold State.beginPass; dsimp only [State.fresh, State.freeIndex]; repeat' split
  all_goals simp
@[simp] theorem State.rejectWord_mem (s : State) (c : Cur) (r : Reject) : (State.rejectWord s c r).mem = s.mem := rfl
@[simp] theorem State.rejectWord_acc (s : State) (c : Cur) (r : Reject) : (State.rejectWord s c r).acc = s.acc := rfl
@[simp] theorem State.finishPass_mem (s : State) (c : Cur) : (State.finishPass s c).mem = s.mem := rfl
@[simp] theorem State.finishPass_acc (s : State) (c : Cur) : (State.finishPass s c).acc = s.acc := rfl
@[simp] theorem State.walkPages_mem (s : State) (t : Team) (pages : List Nat) : (State.walkPages s t pages).mem = s.mem := by unfold State.walkPages; simp
@[simp] theorem State.walkPages_acc (s : State) (t : Team) (pages : List Nat) : (State.walkPages s t pages).acc = s.acc := by unfold State.walkPages; simp
@[simp] theorem State.pushWord_mem (s : State) (t : Team) (r : Run) (pass pos q : Nat) (x : Word) : (State.pushWord s t r pass pos q x).mem = s.mem := rfl
@[simp] theorem State.pushWord_acc (s : State) (t : Team) (r : Run) (pass pos q : Nat) (x : Word) : (State.pushWord s t r pass pos q x).acc = s.acc := rfl
@[simp] theorem State.returnTrap_mem (s : State) (t : Team) : (State.returnTrap s t).mem = s.mem := rfl
@[simp] theorem State.returnTrap_acc (s : State) (t : Team) : (State.returnTrap s t).acc = s.acc := rfl
@[simp] theorem State.applyAct_mem (t : Team) (c : Cur) (r : Run) (lastPass : Bool) (s : State) (a : Act) : (State.applyAct t c r lastPass s a).mem = s.mem := by
  unfold State.applyAct; dsimp only [State.fresh, State.freeIndex]; repeat' split
  all_goals first | rfl | simp
@[simp] theorem State.applyAct_acc (t : Team) (c : Cur) (r : Run) (lastPass : Bool) (s : State) (a : Act) : (State.applyAct t c r lastPass s a).acc = s.acc := by
  unfold State.applyAct; dsimp only [State.fresh, State.freeIndex]; repeat' split
  all_goals first | rfl | simp
@[simp] theorem State.commitEffects_mem (s : State) (t : Team) (r : Run) (c : Cur) : (State.commitEffects s t r c).mem = s.mem := by unfold State.commitEffects; simp
@[simp] theorem State.commitEffects_acc (s : State) (t : Team) (r : Run) (c : Cur) : (State.commitEffects s t r c).acc = s.acc := by unfold State.commitEffects; simp
@[simp] theorem State.trapPass_mem (s : State) (t : Team) (r : Run) (tr : PTrap) : (State.trapPass s t r tr).mem = s.mem := by unfold State.trapPass; simp
@[simp] theorem State.trapPass_acc (s : State) (t : Team) (r : Run) (tr : PTrap) : (State.trapPass s t r tr).acc = s.acc := by unfold State.trapPass; simp
@[simp] theorem State.commitPass_mem (s : State) (p c : Nat) : (State.commitPass s p c).mem = s.mem := by
  unfold State.commitPass; dsimp only [State.fresh, State.freeIndex]; repeat' split
  all_goals simp
@[simp] theorem State.commitPass_acc (s : State) (p c : Nat) : (State.commitPass s p c).acc = s.acc := by
  unfold State.commitPass; dsimp only [State.fresh, State.freeIndex]; repeat' split
  all_goals simp

/-! ### Machine/Accept.lean -/

@[simp] theorem State.modCard_mem (s : State) (p c i : Nat) (f : Card → Card) : (State.modCard s p c i f).mem = s.mem := rfl
@[simp] theorem State.modCard_acc (s : State) (p c i : Nat) (f : Card → Card) : (State.modCard s p c i f).acc = s.acc := rfl
@[simp] theorem State.cardFault_mem (s : State) (team level q tag : Nat) (o : Origin) (code word cause : Nat) : (State.cardFault s team level q tag o code word cause).mem = s.mem := by unfold State.cardFault; simp
@[simp] theorem State.cardFault_acc (s : State) (team level q tag : Nat) (o : Origin) (code word cause : Nat) : (State.cardFault s team level q tag o code word cause).acc = s.acc := by unfold State.cardFault; simp
@[simp] theorem State.stopCardAt_mem (s : State) (p c : Nat) (k : Card) (f code word cause : Nat) : (State.stopCardAt s p c k f code word cause).mem = s.mem := by unfold State.stopCardAt; simp
@[simp] theorem State.stopCardAt_acc (s : State) (p c : Nat) (k : Card) (f code word cause : Nat) : (State.stopCardAt s p c k f code word cause).acc = s.acc := by unfold State.stopCardAt; simp
@[simp] theorem State.stopCard_mem (s : State) (p c : Nat) (k : Card) (code word cause : Nat) : (State.stopCard s p c k code word cause).mem = s.mem := by unfold State.stopCard; simp
@[simp] theorem State.stopCard_acc (s : State) (p c : Nat) (k : Card) (code word cause : Nat) : (State.stopCard s p c k code word cause).acc = s.acc := by unfold State.stopCard; simp
@[simp] theorem State.startCard_mem (s : State) (p c : Nat) (k : Card) : (State.startCard s p c k).mem = s.mem := rfl
@[simp] theorem State.startCard_acc (s : State) (p c : Nat) (k : Card) : (State.startCard s p c k).acc = s.acc := rfl
@[simp] theorem State.finishCard_mem (s : State) (p c : Nat) (k : Card) (f : Nat) : (State.finishCard s p c k f).mem = s.mem := by unfold State.finishCard; split <;> simp
@[simp] theorem State.finishCard_acc (s : State) (p c : Nat) (k : Card) (f : Nat) : (State.finishCard s p c k f).acc = s.acc := by unfold State.finishCard; split <;> simp
@[simp] theorem State.sweepCards_mem (s : State) : (State.sweepCards s).mem = s.mem := rfl
@[simp] theorem State.sweepCards_acc (s : State) : (State.sweepCards s).acc = s.acc := rfl

/-! ### Machine/Matrix.lean -/

@[simp] theorem State.dropMatrix_mem (s : State) (p c n : Nat) : (State.dropMatrix s p c n).mem = s.mem := rfl
@[simp] theorem State.dropMatrix_acc (s : State) (p c n : Nat) : (State.dropMatrix s p c n).acc = s.acc := rfl
@[simp] theorem State.stopMatrix_mem (s : State) (p c : Nat) (k : Card) (n code word : Nat) : (State.stopMatrix s p c k n code word).mem = s.mem := by unfold State.stopMatrix; simp
@[simp] theorem State.stopMatrix_acc (s : State) (p c : Nat) (k : Card) (n code word : Nat) : (State.stopMatrix s p c k n code word).acc = s.acc := by unfold State.stopMatrix; simp
@[simp] theorem State.engineRead_mem (s : State) (p c src base : Nat) (l : List (Nat × Nat)) : (State.engineRead s p c src base l).1.mem = s.mem := by unfold State.engineRead; split <;> simp
@[simp] theorem State.engineRead_acc (s : State) (p c src base : Nat) (l : List (Nat × Nat)) : (State.engineRead s p c src base l).1.acc = s.acc := by unfold State.engineRead; split <;> simp
@[simp] theorem State.mmRead_mem (s : State) (p c : Nat) (k : Card) (n part : Nat) (r : MRead) : (State.mmRead s p c k n part r).mem = s.mem := by unfold State.mmRead; simp
@[simp] theorem State.mmRead_acc (s : State) (p c : Nat) (k : Card) (n part : Nat) (r : MRead) : (State.mmRead s p c k n part r).acc = s.acc := by unfold State.mmRead; simp
@[simp] theorem State.startTiles_mem (s : State) (p c i ty part : Nat) (at_ : Nat) : (State.startTiles s p c i ty part at_).mem = s.mem := by unfold State.startTiles; split <;> simp
@[simp] theorem State.startTiles_acc (s : State) (p c i ty part : Nat) (at_ : Nat) : (State.startTiles s p c i ty part at_).acc = s.acc := by unfold State.startTiles; split <;> simp
@[simp] theorem State.nextTile_mem (s : State) (p c : Nat) (k : Card) (i total part gap : Nat) : (State.nextTile s p c k i total part gap).mem = s.mem := by unfold State.nextTile; simp
@[simp] theorem State.nextTile_acc (s : State) (p c : Nat) (k : Card) (i total part gap : Nat) : (State.nextTile s p c k i total part gap).acc = s.acc := by unfold State.nextTile; simp

/-! ### Machine/Haul.lean -/

@[simp] theorem State.modHaul_mem (s : State) (p c i : Nat) (f : HaulSt → HaulSt) : (State.modHaul s p c i f).mem = s.mem := rfl
@[simp] theorem State.modHaul_acc (s : State) (p c i : Nat) (f : HaulSt → HaulSt) : (State.modHaul s p c i f).acc = s.acc := rfl
@[simp] theorem State.modPiece_mem (s : State) (p c i n : Nat) (f : Piece → Piece) : (State.modPiece s p c i n f).mem = s.mem := rfl
@[simp] theorem State.modPiece_acc (s : State) (p c i n : Nat) (f : Piece → Piece) : (State.modPiece s p c i n f).acc = s.acc := rfl
@[simp] theorem State.haulNext_mem (s : State) (p c n : Nat) : (State.haulNext s p c n).mem = s.mem := by unfold State.haulNext; simp
@[simp] theorem State.haulNext_acc (s : State) (p c n : Nat) : (State.haulNext s p c n).acc = s.acc := by unfold State.haulNext; simp
@[simp] theorem State.haulEnd_mem (s : State) (p c i : Nat) : (State.haulEnd s p c i).mem = s.mem := by unfold State.haulEnd; split <;> simp
@[simp] theorem State.haulEnd_acc (s : State) (p c i : Nat) : (State.haulEnd s p c i).acc = s.acc := by unfold State.haulEnd; split <;> simp
@[simp] theorem State.dropHaul_mem (s : State) (p c i : Nat) : (State.dropHaul s p c i).mem = s.mem := rfl
@[simp] theorem State.dropHaul_acc (s : State) (p c i : Nat) : (State.dropHaul s p c i).acc = s.acc := rfl
@[simp] theorem State.stopHaul_mem (s : State) (p c : Nat) (k : Card) (word cause : Nat) : (State.stopHaul s p c k word cause).mem = s.mem := by unfold State.stopHaul; simp
@[simp] theorem State.stopHaul_acc (s : State) (p c : Nat) (k : Card) (word cause : Nat) : (State.stopHaul s p c k word cause).acc = s.acc := by unfold State.stopHaul; simp
@[simp] theorem State.walkFault_mem (s : State) (p c : Nat) (k : Card) : (State.walkFault s p c k).mem = s.mem := rfl
@[simp] theorem State.walkFault_acc (s : State) (p c : Nat) (k : Card) : (State.walkFault s p c k).acc = s.acc := rfl
@[simp] theorem State.pieceWalks_mem (s : State) (p c : Nat) (k : Card) (n : Nat) (dst : Bool) (pages : List Nat) : (State.pieceWalks s p c k n dst pages).mem = s.mem := by
  unfold State.pieceWalks
  try dsimp only [State.fresh, State.freeIndex]
  repeat' split
  all_goals first | rfl | (refine foldl_mem _ _ _ ?_ <;> intros <;> (try dsimp only [State.fresh, State.freeIndex]) <;> (repeat' split) <;> first | rfl | (simp; done) | (simp_all; done)) | ((try dsimp only [State.fresh, State.freeIndex]); refine foldl_mem _ _ _ ?_ <;> intros <;> (try dsimp only [State.fresh, State.freeIndex]) <;> (repeat' split) <;> first | rfl | (simp; done) | (simp_all; done)) | (simp; done) | (simp_all; done) | ((try simp); refine (foldl_mem _ _ _ ?_).trans ?_ <;> intros <;> (try dsimp only [State.fresh, State.freeIndex]) <;> (repeat' split) <;> first | rfl | (simp; done) | (simp_all; done))
@[simp] theorem State.pieceWalks_acc (s : State) (p c : Nat) (k : Card) (n : Nat) (dst : Bool) (pages : List Nat) : (State.pieceWalks s p c k n dst pages).acc = s.acc := by
  unfold State.pieceWalks
  try dsimp only [State.fresh, State.freeIndex]
  repeat' split
  all_goals first | rfl | (refine foldl_acc _ _ _ ?_ <;> intros <;> (try dsimp only [State.fresh, State.freeIndex]) <;> (repeat' split) <;> first | rfl | (simp; done) | (simp_all; done)) | ((try dsimp only [State.fresh, State.freeIndex]); refine foldl_acc _ _ _ ?_ <;> intros <;> (try dsimp only [State.fresh, State.freeIndex]) <;> (repeat' split) <;> first | rfl | (simp; done) | (simp_all; done)) | (simp; done) | (simp_all; done) | ((try simp); refine (foldl_acc _ _ _ ?_).trans ?_ <;> intros <;> (try dsimp only [State.fresh, State.freeIndex]) <;> (repeat' split) <;> first | rfl | (simp; done) | (simp_all; done))
@[simp] theorem State.pieceWalked_mem (s : State) (p c i page : Nat) (dst : Bool) (bad : Option Nat) : (State.pieceWalked s p c i page dst bad).mem = s.mem := by unfold State.pieceWalked; split <;> simp
@[simp] theorem State.pieceWalked_acc (s : State) (p c i page : Nat) (dst : Bool) (bad : Option Nat) : (State.pieceWalked s p c i page dst bad).acc = s.acc := by unfold State.pieceWalked; split <;> simp
@[simp] theorem State.haulHost_mem (s : State) (p c : Nat) (k : Card) (n iova len : Nat) (raw write : Bool) (bs : List Byte) : (State.haulHost s p c k n iova len raw write bs).mem = s.mem := rfl
@[simp] theorem State.haulHost_acc (s : State) (p c : Nat) (k : Card) (n iova len : Nat) (raw write : Bool) (bs : List Byte) : (State.haulHost s p c k n iova len raw write bs).acc = s.acc := rfl
@[simp] theorem State.readPiece_mem (s : State) (p c : Nat) (k : Card) (n len : Nat) (x : HPlace) : (State.readPiece s p c k n len x).mem = s.mem := by
  unfold State.readPiece; dsimp only [State.fresh, State.freeIndex]; repeat' split
  all_goals simp
@[simp] theorem State.readPiece_acc (s : State) (p c : Nat) (k : Card) (n len : Nat) (x : HPlace) : (State.readPiece s p c k n len x).acc = s.acc := by
  unfold State.readPiece; dsimp only [State.fresh, State.freeIndex]; repeat' split
  all_goals simp
@[simp] theorem State.pieceReady_mem (s : State) (p c i n : Nat) (d : Nat) (bs : List Byte) : (State.pieceReady s p c i n d bs).mem = s.mem := rfl
@[simp] theorem State.pieceReady_acc (s : State) (p c i n : Nat) (d : Nat) (bs : List Byte) : (State.pieceReady s p c i n d bs).acc = s.acc := rfl
@[simp] theorem State.haulSegRead_mem (s : State) (p c i n pa len : Nat) : (State.haulSegRead s p c i n pa len).mem = s.mem := by
  unfold State.haulSegRead; dsimp only [State.fresh, State.freeIndex]; repeat' split
  all_goals simp
@[simp] theorem State.haulSegRead_acc (s : State) (p c i n pa len : Nat) : (State.haulSegRead s p c i n pa len).acc = s.acc := by
  unfold State.haulSegRead; dsimp only [State.fresh, State.freeIndex]; repeat' split
  all_goals simp
@[simp] theorem State.haulSegWritten_acc (s : State) (p c i : Nat) (pa : Nat) (bs : List Byte) : (State.haulSegWritten s p c i pa bs).acc = s.acc := by unfold State.haulSegWritten; simp
@[simp] theorem State.readLs_mem (s : State) (p c : Nat) (k : Card) (x : Piece) : (State.readLs s p c k x).mem = s.mem := by
  unfold State.readLs; dsimp only [State.fresh, State.freeIndex]; repeat' split
  all_goals simp
@[simp] theorem State.readLs_acc (s : State) (p c : Nat) (k : Card) (x : Piece) : (State.readLs s p c k x).acc = s.acc := by
  unfold State.readLs; dsimp only [State.fresh, State.freeIndex]; repeat' split
  all_goals simp
@[simp] theorem State.issuePiece_mem (s : State) (p c : Nat) (k : Card) (y : PieceSpec) (h : HaulSt) : (State.issuePiece s p c k y h).mem = s.mem := by
  unfold State.issuePiece; dsimp only [State.fresh, State.freeIndex]; repeat' split
  all_goals simp
@[simp] theorem State.issuePiece_acc (s : State) (p c : Nat) (k : Card) (y : PieceSpec) (h : HaulSt) : (State.issuePiece s p c k y h).acc = s.acc := by
  unfold State.issuePiece; dsimp only [State.fresh, State.freeIndex]; repeat' split
  all_goals simp
@[simp] theorem State.haulLs_acc (s : State) (p c i c' off : Nat) (bs : List Byte) : (State.haulLs s p c i c' off bs).acc = s.acc := by unfold State.haulLs; simp
@[simp] theorem State.writePart_acc (s : State) (p c : Nat) (k : Card) (n : Nat) (x : HPlace) (bs : List Byte) : (State.writePart s p c k n x bs).acc = s.acc := by
  unfold State.writePart; dsimp only [State.fresh, State.freeIndex]; repeat' split
  all_goals simp
@[simp] theorem State.writePiece_acc (s : State) (p c : Nat) (k : Card) (x : Piece) : (s.writePiece p c k x).acc = s.acc := by
  unfold State.writePiece
  dsimp only
  have key : ∀ (l : List (HPlace × Nat)) (z : State × List Byte),
      ((l.foldl (fun z y => (z.1.writePart p c k x.k y.1 (z.2.take y.2), z.2.drop y.2)) z).1).acc = z.1.acc := by
    intro l
    induction l with
    | nil => intro z; rfl
    | cons y l ih => intro z; rw [List.foldl_cons, ih, State.writePart_acc]
  repeat' split
  all_goals first | rfl | (simp [key]; done)
@[simp] theorem State.startHaul_mem (s : State) (p c i ty : Nat) : (State.startHaul s p c i ty).mem = s.mem := by unfold State.startHaul; split <;> simp
@[simp] theorem State.startHaul_acc (s : State) (p c i ty : Nat) : (State.startHaul s p c i ty).acc = s.acc := by unfold State.startHaul; split <;> simp

/-! ### Machine/Grinder.lean -/

@[simp] theorem State.stopGrind_mem (s : State) (p c : Nat) (k : Card) (word : Nat) : (State.stopGrind s p c k word).mem = s.mem := by unfold State.stopGrind; simp
@[simp] theorem State.stopGrind_acc (s : State) (p c : Nat) (k : Card) (word : Nat) : (State.stopGrind s p c k word).acc = s.acc := by unfold State.stopGrind; simp
@[simp] theorem State.startGrind_mem (s : State) (p c i ty : Nat) : (State.startGrind s p c i ty).mem = s.mem := by unfold State.startGrind; split <;> simp
@[simp] theorem State.startGrind_acc (s : State) (p c i ty : Nat) : (State.startGrind s p c i ty).acc = s.acc := by unfold State.startGrind; split <;> simp

/-! ### Machine/Fabric.lean -/

@[simp] theorem State.cardSch_mem (s : State) (p c kind : Nat) (k : Card) : (State.cardSch s p c kind k).mem = s.mem := rfl
@[simp] theorem State.cardSch_acc (s : State) (p c kind : Nat) (k : Card) : (State.cardSch s p c kind k).acc = s.acc := rfl
@[simp] theorem State.dropLanding_mem (s : State) (p c : Nat) : (State.dropLanding s p c).mem = s.mem := by unfold State.dropLanding; simp
@[simp] theorem State.dropLanding_acc (s : State) (p c : Nat) : (State.dropLanding s p c).acc = s.acc := by unfold State.dropLanding; simp
@[simp] theorem State.sendSlotData_mem (s : State) (p c : Nat) (k : Card) (bs : List Byte) : (State.sendSlotData s p c k bs).mem = s.mem := by
  unfold State.sendSlotData
  try dsimp only [State.fresh, State.freeIndex]
  repeat' split
  all_goals first | rfl | (refine foldl_mem _ _ _ ?_ <;> intros <;> (try dsimp only [State.fresh, State.freeIndex]) <;> (repeat' split) <;> first | rfl | (simp; done) | (simp_all; done)) | ((try dsimp only [State.fresh, State.freeIndex]); refine foldl_mem _ _ _ ?_ <;> intros <;> (try dsimp only [State.fresh, State.freeIndex]) <;> (repeat' split) <;> first | rfl | (simp; done) | (simp_all; done)) | (simp; done) | (simp_all; done) | ((try simp); refine (foldl_mem _ _ _ ?_).trans ?_ <;> intros <;> (try dsimp only [State.fresh, State.freeIndex]) <;> (repeat' split) <;> first | rfl | (simp; done) | (simp_all; done))
@[simp] theorem State.sendSlotData_acc (s : State) (p c : Nat) (k : Card) (bs : List Byte) : (State.sendSlotData s p c k bs).acc = s.acc := by
  unfold State.sendSlotData
  try dsimp only [State.fresh, State.freeIndex]
  repeat' split
  all_goals first | rfl | (refine foldl_acc _ _ _ ?_ <;> intros <;> (try dsimp only [State.fresh, State.freeIndex]) <;> (repeat' split) <;> first | rfl | (simp; done) | (simp_all; done)) | ((try dsimp only [State.fresh, State.freeIndex]); refine foldl_acc _ _ _ ?_ <;> intros <;> (try dsimp only [State.fresh, State.freeIndex]) <;> (repeat' split) <;> first | rfl | (simp; done) | (simp_all; done)) | (simp; done) | (simp_all; done) | ((try simp); refine (foldl_acc _ _ _ ?_).trans ?_ <;> intros <;> (try dsimp only [State.fresh, State.freeIndex]) <;> (repeat' split) <;> first | rfl | (simp; done) | (simp_all; done))
@[simp] theorem State.expectNext_mem (s : State) (p c : Nat) (k : Card) (slots : List SlotSt) : (State.expectNext s p c k slots).mem = s.mem := by unfold State.expectNext; split <;> simp
@[simp] theorem State.expectNext_acc (s : State) (p c : Nat) (k : Card) (slots : List SlotSt) : (State.expectNext s p c k slots).acc = s.acc := by unfold State.expectNext; split <;> simp
@[simp] theorem State.landSlot_mem (s : State) (p c : Nat) (k : Card) (bs : List Byte) : (State.landSlot s p c k bs).mem = s.mem := by
  unfold State.landSlot; dsimp only [State.fresh, State.freeIndex]; repeat' split
  all_goals simp
@[simp] theorem State.landSlot_acc (s : State) (p c : Nat) (k : Card) (bs : List Byte) : (State.landSlot s p c k bs).acc = s.acc := by
  unfold State.landSlot; dsimp only [State.fresh, State.freeIndex]; repeat' split
  all_goals simp
@[simp] theorem State.endReceives_mem (s : State) (p c : Nat) : (State.endReceives s p c).mem = s.mem := by unfold State.endReceives; simp
@[simp] theorem State.endReceives_acc (s : State) (p c : Nat) : (State.endReceives s p c).acc = s.acc := by unfold State.endReceives; simp

/-! ### Machine/Ring.lean -/

@[simp] theorem State.ringOver_mem (s : State) (p c : Nat) (k : Card) (bits : Word) : (State.ringOver s p c k bits).mem = s.mem := by unfold State.ringOver; split <;> simp
@[simp] theorem State.ringOver_acc (s : State) (p c : Nat) (k : Card) (bits : Word) : (State.ringOver s p c k bits).acc = s.acc := by unfold State.ringOver; split <;> simp
@[simp] theorem State.takeMessage_mem (s : State) (p i core : Nat) (r : Ring) (size : Nat) (bs : List Byte) :
    (s.takeMessage p i core r size bs).mem = s.mem := rfl
@[simp] theorem State.takeMessage_acc (s : State) (p i core : Nat) (r : Ring) (size : Nat) (bs : List Byte) :
    (s.takeMessage p i core r size bs).acc = s.acc := rfl
@[simp] theorem State.ackRing_mem (s : State) (p : Nat) (x : Packet) (core card dcore : Nat) (ok : Bool) : (State.ackRing s p x core card dcore ok).mem = s.mem := by unfold State.ackRing; simp
@[simp] theorem State.ackRing_acc (s : State) (p : Nat) (x : Packet) (core card dcore : Nat) (ok : Bool) : (State.ackRing s p x core card dcore ok).acc = s.acc := by unfold State.ackRing; simp
@[simp] theorem State.ringPut_acc (s : State) (p c : Nat) (r : Ring) (from_ : Nat) (bs : List Byte) (src : Nat) : (State.ringPut s p c r from_ bs src).acc = s.acc := by unfold State.ringPut; simp

/-! ### Machine/Host.lean -/

@[simp] theorem State.modHost_mem (s : State) (p i : Nat) (f : HostReq → HostReq) : (State.modHost s p i f).mem = s.mem := rfl
@[simp] theorem State.modHost_acc (s : State) (p i : Nat) (f : HostReq → HostReq) : (State.modHost s p i f).acc = s.acc := rfl
@[simp] theorem State.dropHost_mem (s : State) (p i : Nat) : (State.dropHost s p i).mem = s.mem := rfl
@[simp] theorem State.dropHost_acc (s : State) (p i : Nat) : (State.dropHost s p i).acc = s.acc := rfl
@[simp] theorem State.nextHost_mem (s : State) (p core : Nat) : (State.nextHost s p core).mem = s.mem := by unfold State.nextHost; split <;> simp
@[simp] theorem State.nextHost_acc (s : State) (p core : Nat) : (State.nextHost s p core).acc = s.acc := by unfold State.nextHost; split <;> simp
@[simp] theorem State.hostFault_mem (s : State) (p : Nat) (r : HostReq) (cause : Nat) : (State.hostFault s p r cause).mem = s.mem := by
  unfold State.hostFault; dsimp only [State.fresh, State.freeIndex]; repeat' split
  all_goals simp
@[simp] theorem State.hostFault_acc (s : State) (p : Nat) (r : HostReq) (cause : Nat) : (State.hostFault s p r cause).acc = s.acc := by
  unfold State.hostFault; dsimp only [State.fresh, State.freeIndex]; repeat' split
  all_goals simp
@[simp] theorem State.leaveHost_mem (s : State) (p kind pa : Nat) (r : HostReq) : (State.leaveHost s p kind pa r).mem = s.mem := by
  unfold State.leaveHost; exact foldl_mem _ _ _ (by intros; rfl)
@[simp] theorem State.leaveHost_acc (s : State) (p kind pa : Nat) (r : HostReq) : (State.leaveHost s p kind pa r).acc = s.acc := by
  unfold State.leaveHost; exact foldl_acc _ _ _ (by intros; rfl)
@[simp] theorem State.enterLink_mem (s : State) (p pa : Nat) (r : HostReq) : (State.enterLink s p pa r).mem = s.mem := by unfold State.enterLink; simp
@[simp] theorem State.enterLink_acc (s : State) (p pa : Nat) (r : HostReq) : (State.enterLink s p pa r).acc = s.acc := by unfold State.enterLink; simp
@[simp] theorem State.hostOrderly_mem (s : State) (p pa : Nat) (r : HostReq) : (State.hostOrderly s p pa r).mem = s.mem := by unfold State.hostOrderly; simp
@[simp] theorem State.hostOrderly_acc (s : State) (p pa : Nat) (r : HostReq) : (State.hostOrderly s p pa r).acc = s.acc := by unfold State.hostOrderly; simp
@[simp] theorem State.hostWalkFault_mem (s : State) (p : Nat) (r : HostReq) : (State.hostWalkFault s p r).mem = s.mem := by
  unfold State.hostWalkFault; dsimp only [State.fresh, State.freeIndex]; repeat' split
  all_goals simp
@[simp] theorem State.hostWalkFault_acc (s : State) (p : Nat) (r : HostReq) : (State.hostWalkFault s p r).acc = s.acc := by
  unfold State.hostWalkFault; dsimp only [State.fresh, State.freeIndex]; repeat' split
  all_goals simp
@[simp] theorem State.hostTry_mem (s : State) (p : Nat) (r : HostReq) : (State.hostTry s p r).mem = s.mem := by
  unfold State.hostTry
  try dsimp only [State.fresh, State.freeIndex]
  repeat' split
  all_goals first | rfl | (refine foldl_mem _ _ _ ?_ <;> intros <;> (try dsimp only [State.fresh, State.freeIndex]) <;> (repeat' split) <;> first | rfl | (simp; done) | (simp_all; done)) | ((try dsimp only [State.fresh, State.freeIndex]); refine foldl_mem _ _ _ ?_ <;> intros <;> (try dsimp only [State.fresh, State.freeIndex]) <;> (repeat' split) <;> first | rfl | (simp; done) | (simp_all; done)) | (simp; done) | (simp_all; done) | ((try simp); refine (foldl_mem _ _ _ ?_).trans ?_ <;> intros <;> (try dsimp only [State.fresh, State.freeIndex]) <;> (repeat' split) <;> first | rfl | (simp; done) | (simp_all; done))
@[simp] theorem State.hostTry_acc (s : State) (p : Nat) (r : HostReq) : (State.hostTry s p r).acc = s.acc := by
  unfold State.hostTry
  try dsimp only [State.fresh, State.freeIndex]
  repeat' split
  all_goals first | rfl | (refine foldl_acc _ _ _ ?_ <;> intros <;> (try dsimp only [State.fresh, State.freeIndex]) <;> (repeat' split) <;> first | rfl | (simp; done) | (simp_all; done)) | ((try dsimp only [State.fresh, State.freeIndex]); refine foldl_acc _ _ _ ?_ <;> intros <;> (try dsimp only [State.fresh, State.freeIndex]) <;> (repeat' split) <;> first | rfl | (simp; done) | (simp_all; done)) | (simp; done) | (simp_all; done) | ((try simp); refine (foldl_acc _ _ _ ?_).trans ?_ <;> intros <;> (try dsimp only [State.fresh, State.freeIndex]) <;> (repeat' split) <;> first | rfl | (simp; done) | (simp_all; done))
@[simp] theorem State.hostLs_acc (s : State) (p : Nat) (r : HostReq) : (State.hostLs s p r).acc = s.acc := by unfold State.hostLs; split <;> simp
@[simp] theorem State.ualServe_acc (s : State) (p stn : Nat) (r : UalReq) : (State.ualServe s p stn r).acc = s.acc := by
  unfold State.ualServe; dsimp only [State.fresh, State.freeIndex]; repeat' split
  all_goals simp
@[simp] theorem State.hubAt_mem (s : State) (p c : Nat) (r : HostReq) : (State.hubAt s p c r).mem = s.mem := rfl
@[simp] theorem State.hubAt_acc (s : State) (p c : Nat) (r : HostReq) : (State.hubAt s p c r).acc = s.acc := rfl
@[simp] theorem State.hostPart_mem (s : State) (p i : Nat) : (State.hostPart s p i).mem = s.mem := by unfold State.hostPart; split <;> simp
@[simp] theorem State.hostPart_acc (s : State) (p i : Nat) : (State.hostPart s p i).acc = s.acc := by unfold State.hostPart; split <;> simp
@[simp] theorem State.hubAccess_acc (s : State) (p : Nat) (r : HostReq) : (State.hubAccess s p r).acc = s.acc := by
  unfold State.hubAccess; dsimp only [State.fresh, State.freeIndex]; repeat' split
  all_goals simp
@[simp] theorem State.hubEnter_mem (s : State) (p c core pa n : Nat) (write : Bool) (bs : List Byte) (u : Option (Nat × UalReq)) : (State.hubEnter s p c core pa n write bs u).mem = s.mem := rfl
@[simp] theorem State.hubEnter_acc (s : State) (p c core pa n : Nat) (write : Bool) (bs : List Byte) (u : Option (Nat × UalReq)) : (State.hubEnter s p c core pa n write bs u).acc = s.acc := rfl
@[simp] theorem State.hostServe_acc (s : State) (p pa n : Nat) (write : Bool) (bs : List Byte) : (State.hostServe s p pa n write bs).acc = s.acc := by unfold State.hostServe; simp

/-! ### Machine/Hbm.lean -/

@[simp] theorem State.checkRefresh_mem (s : State) (p n : Nat) : (State.checkRefresh s p n).mem = s.mem := by unfold State.checkRefresh; simp
@[simp] theorem State.checkRefresh_acc (s : State) (p n : Nat) : (State.checkRefresh s p n).acc = s.acc := by unfold State.checkRefresh; simp
@[simp] theorem State.recordWritten_acc (s : State) (p pa : Nat) (bs : List Byte) (i : Nat) : (State.recordWritten s p pa bs i).acc = s.acc := by
  unfold State.recordWritten; dsimp only [State.fresh, State.freeIndex]; repeat' split
  all_goals simp
@[simp] theorem State.walkRead_mem (s : State) (p q pa : Nat) : (State.walkRead s p q pa).mem = s.mem := by unfold State.walkRead; simp
@[simp] theorem State.walkRead_acc (s : State) (p q pa : Nat) : (State.walkRead s p q pa).acc = s.acc := by unfold State.walkRead; simp
@[simp] theorem State.boundAt_mem (s : State) (p n c : Nat) : (State.boundAt s p n c).mem = s.mem := rfl
@[simp] theorem State.boundAt_acc (s : State) (p n c : Nat) : (State.boundAt s p n c).acc = s.acc := rfl
@[simp] theorem State.refreshOne_mem (s : State) (p n : Nat) : (State.refreshOne s p n).mem = s.mem := by
  unfold State.refreshOne; dsimp only [State.fresh, State.freeIndex]; repeat' split
  all_goals simp
@[simp] theorem State.refreshOne_acc (s : State) (p n : Nat) : (State.refreshOne s p n).acc = s.acc := by
  unfold State.refreshOne; dsimp only [State.fresh, State.freeIndex]; repeat' split
  all_goals simp
@[simp] theorem State.levelRead_mem (s : State) (w : Walk) : (State.levelRead s w).mem = s.mem := rfl
@[simp] theorem State.levelRead_acc (s : State) (w : Walk) : (State.levelRead s w).acc = s.acc := rfl
@[simp] theorem State.walkDone_mem (s : State) (w : Walk) (cause : Nat) (e : Option TlbEntry) : (State.walkDone s w cause e).mem = s.mem := by
  unfold State.walkDone; dsimp only [State.fresh, State.freeIndex]; repeat' split
  all_goals simp
@[simp] theorem State.walkDone_acc (s : State) (w : Walk) (cause : Nat) (e : Option TlbEntry) : (State.walkDone s w cause e).acc = s.acc := by
  unfold State.walkDone; dsimp only [State.fresh, State.freeIndex]; repeat' split
  all_goals simp
@[simp] theorem State.walkEnd_mem (s : State) (w : Walk) (cause : Nat) (e : Option TlbEntry) : (State.walkEnd s w cause e).mem = s.mem := by unfold State.walkEnd; split <;> simp
@[simp] theorem State.walkEnd_acc (s : State) (w : Walk) (cause : Nat) (e : Option TlbEntry) : (State.walkEnd s w cause e).acc = s.acc := by unfold State.walkEnd; split <;> simp

/-! ### Machine/Service.lean -/

@[simp] theorem State.configure_mem (s : State) (p : Nat) (x : ConfigItem) : (State.configure s p x).1.mem = s.mem := by
  unfold State.configure
  try dsimp only [State.fresh, State.freeIndex]
  repeat' split
  all_goals first | rfl | (refine foldl_mem _ _ _ ?_ <;> intros <;> (try dsimp only [State.fresh, State.freeIndex]) <;> (repeat' split) <;> first | rfl | (simp; done) | (simp_all; done)) | ((try dsimp only [State.fresh, State.freeIndex]); refine foldl_mem _ _ _ ?_ <;> intros <;> (try dsimp only [State.fresh, State.freeIndex]) <;> (repeat' split) <;> first | rfl | (simp; done) | (simp_all; done)) | (simp; done) | (simp_all; done) | ((try simp); refine (foldl_mem _ _ _ ?_).trans ?_ <;> intros <;> (try dsimp only [State.fresh, State.freeIndex]) <;> (repeat' split) <;> first | rfl | (simp; done) | (simp_all; done))
@[simp] theorem State.configure_acc (s : State) (p : Nat) (x : ConfigItem) : (State.configure s p x).1.acc = s.acc := by
  unfold State.configure
  try dsimp only [State.fresh, State.freeIndex]
  repeat' split
  all_goals first | rfl | (refine foldl_acc _ _ _ ?_ <;> intros <;> (try dsimp only [State.fresh, State.freeIndex]) <;> (repeat' split) <;> first | rfl | (simp; done) | (simp_all; done)) | ((try dsimp only [State.fresh, State.freeIndex]); refine foldl_acc _ _ _ ?_ <;> intros <;> (try dsimp only [State.fresh, State.freeIndex]) <;> (repeat' split) <;> first | rfl | (simp; done) | (simp_all; done)) | (simp; done) | (simp_all; done) | ((try simp); refine (foldl_acc _ _ _ ?_).trans ?_ <;> intros <;> (try dsimp only [State.fresh, State.freeIndex]) <;> (repeat' split) <;> first | rfl | (simp; done) | (simp_all; done))
@[simp] theorem State.flushTlb_mem (s : State) (p src size : Nat) : (State.flushTlb s p src size).mem = s.mem := rfl
@[simp] theorem State.flushTlb_acc (s : State) (p src size : Nat) : (State.flushTlb s p src size).acc = s.acc := rfl
@[simp] theorem State.setPtes_acc (s : State) (l : List (Nat × Nat × Nat)) : (State.setPtes s l).acc = s.acc := by unfold State.setPtes; simp
@[simp] theorem State.clearPkg_mem (s : State) (p : Nat) : (State.clearPkg s p).mem = s.mem := rfl
@[simp] theorem State.clearPkg_acc (s : State) (p : Nat) : (State.clearPkg s p).acc = s.acc := rfl
@[simp] theorem State.startCount_mem (s : State) (p count : Nat) : (State.startCount s p count).mem = s.mem := by unfold State.startCount; simp
@[simp] theorem State.startCount_acc (s : State) (p count : Nat) : (State.startCount s p count).acc = s.acc := by unfold State.startCount; simp
@[simp] theorem State.bootWord_mem (s : State) (p code : Nat) : (State.bootWord s p code).mem = s.mem := by unfold State.bootWord; simp
@[simp] theorem State.bootWord_acc (s : State) (p code : Nat) : (State.bootWord s p code).acc = s.acc := by unfold State.bootWord; simp
@[simp] theorem State.spdmAnswer_mem (s : State) (p kind a : Nat) : (State.spdmAnswer s p kind a).mem = s.mem := rfl
@[simp] theorem State.spdmAnswer_acc (s : State) (p kind a : Nat) : (State.spdmAnswer s p kind a).acc = s.acc := rfl
@[simp] theorem State.spdmError_mem (s : State) (p kind : Nat) : (State.spdmError s p kind).mem = s.mem := rfl
@[simp] theorem State.spdmError_acc (s : State) (p kind : Nat) : (State.spdmError s p kind).acc = s.acc := rfl

/-! ### Machine/Cycle.lean -/

theorem State.nextEntry_acc (s t : State) (limit : Nat) (i : Instr) (h : s.nextEntry limit = some (i, t)) : t.acc = s.acc := by
  unfold State.nextEntry at h
  split at h
  · split at h
    · cases h; rfl
    · cases h
  · cases h
theorem State.nextEntry_mem (s t : State) (limit : Nat) (i : Instr) (h : s.nextEntry limit = some (i, t)) : t.mem = s.mem := by
  unfold State.nextEntry at h
  split at h
  · split at h
    · cases h; rfl
    · cases h
  · cases h
@[simp] theorem State.drain_mem (s : State) (limit next : Nat) : (s.drain limit next).mem = s.mem := by
  unfold State.drain State.nextEntry
  split
  · next h =>
    split at h
    · split at h
      · cases h; rfl
      · cases h
    · cases h
  · rfl
@[simp] theorem State.drain_acc (s : State) (limit next : Nat) : (s.drain limit next).acc = s.acc := by
  unfold State.drain State.nextEntry
  split
  · next h =>
    split at h
    · split at h
      · cases h; rfl
      · cases h
    · cases h
  · rfl
@[simp] theorem State.stampTime_mem (s : State) : (State.stampTime s).mem = s.mem := by unfold State.stampTime; simp
@[simp] theorem State.stampTime_acc (s : State) : (State.stampTime s).acc = s.acc := by unfold State.stampTime; simp
@[simp] theorem State.advance_mem (s : State) : s.advance.mem = s.mem := by
  unfold State.advance
  dsimp only
  repeat' split
  all_goals first | (simp; done) | (next h => simpa using State.nextEntry_mem _ _ _ _ h)
@[simp] theorem State.advance_acc (s : State) : s.advance.acc = s.acc := by
  unfold State.advance
  dsimp only
  repeat' split
  all_goals first | (simp; done) | (next h => simpa using State.nextEntry_acc _ _ _ _ h)
@[simp] theorem State.place_mem (s : State) (w : Word) : (State.place s w).mem = s.mem := rfl
@[simp] theorem State.place_acc (s : State) (w : Word) : (State.place s w).acc = s.acc := rfl

/-! ### Machine/Step.lean -/

@[simp] theorem State.withFetchWord_mem (s : State) (nbits w : Nat) : (State.withFetchWord s nbits w).mem = s.mem := rfl
@[simp] theorem State.withFetchWord_acc (s : State) (nbits w : Nat) : (State.withFetchWord s nbits w).acc = s.acc := rfl

end Sys2Proof.Machine
end

