-- ==== Sys2Proof/Laws/Safe.lean ====
section
/-! SUPPORT. What writes memory or the accumulator store keeps their canonical form (`_safe`): one lemma for each shared
operation that writes them. -/

namespace Sys2Proof.Machine

-- The cases of one proof text differ, so that some of its alternatives go unused.
set_option linter.all false

/-- An update of a state that names neither store keeps it safe. -/
theorem safe_iff (s : State) : Safe s ↔ memWf s.mem ∧ accWf s.acc := Iff.rfl

theorem if_safe {c : Prop} [Decidable c] {a b : State} (ha : Safe a) (hb : Safe b) : Safe (if c then a else b) := by
  split <;> assumption

theorem State.setHash_safe (s : State) (p : Nat) (l : List Word) (h : Safe s) : Safe (s.setHash p l) := by
  unfold State.setHash
  dsimp only
  refine ⟨?_, h.2⟩
  show memWf (List.foldl _ [] s.mem)
  suffices ∀ (l : List Host.Cell) (m : List Host.Cell) (g : Nat → Nat), memWf m →
      memWf (l.foldl (fun m c => memPut m (g c.1) [c.2]) m) from this _ _ _ (by simp [memWf])
  intro l
  induction l with
  | nil => intro m g hm; exact hm
  | cons c l ih => intro m g hm; exact ih _ g (memPut_wf _ _ _ hm)

theorem State.complete_safe (s : State) (p pa : Nat) (h : Safe s) : Safe (s.complete p pa) := by
  unfold State.complete
  dsimp only
  have h : Safe (s.correct p pa 16) := safe_of_eq (State.correct_mem _ _ _ _) (State.correct_acc _ _ _ _) h
  split
  · exact State.wr_safe _ _ _ _ (State.wr_safe _ _ _ _ (State.wr_safe _ _ _ _ h))
  · exact h

theorem State.lsWrite_safe (s : State) (p c off : Nat) (bs : List Byte) (a : Agent) (h : Safe s) :
    Safe (s.lsWrite p c off bs a) := by
  unfold State.lsWrite
  refine safe_of_eq (State.watch_mem _ _ _ _ _ _ _) (State.watch_acc _ _ _ _ _ _ _) ?_
  exact foldl_safe _ _ (fun s o hs => State.complete_safe s _ _ hs) _ (State.wr_safe _ _ _ _ h)

theorem State.lsPut_safe (s : State) (p c off : Nat) (bs : List Byte) (a : Agent) (h : Safe s) : Safe (s.lsPut p c off bs a) := by
  unfold State.lsPut
  exact safe_of_eq (State.watch_mem _ _ _ _ _ _ _) (State.watch_acc _ _ _ _ _ _ _) (State.wr_safe _ _ _ _ h)

theorem State.credit_safe (s : State) (p c off x : Nat) (h : Safe s) : Safe (s.credit p c off x) := by
  unfold State.credit
  dsimp only
  have h : Safe ((s.knowObj p (lsPa c off)).correct p (lsPa c off) 16) := safe_of_eq (by simp) (by simp) h
  exact if_safe h (State.complete_safe _ _ _ (State.wr_safe _ _ _ _ h))

theorem State.writeLane_safe (s : State) (f : Flight) (home : Nat) (bs : List Byte) (h : Safe s) :
    Safe (s.writeLane f home bs) := by
  unfold State.writeLane
  split
  · exact State.lsWrite_safe _ _ _ _ _ _ h
  · exact State.wr_safe _ _ _ _ h

theorem State.readLane_safe (s : State) (f : Flight) (q : LaneReq) (n : Nat) (h : Safe s) : Safe (s.readLane f q n).1 :=
  safe_of_eq (State.readLane_mem _ _ _ _) (State.readLane_acc _ _ _ _) h

theorem State.performLane_safe (s : State) (f : Flight) (q : LaneReq) (h : Safe s) : Safe (s.performLane f q).1 := by
  unfold State.performLane
  split
  · exact State.readLane_safe _ _ _ _ h
  · exact State.writeLane_safe _ _ _ _ h
  · dsimp only
    split
    · exact State.readLane_safe _ _ _ _ h
    · exact State.writeLane_safe _ _ _ _ (State.readLane_safe _ _ _ _ h)
  · dsimp only
    split
    · exact State.readLane_safe _ _ _ _ h
    · exact State.writeLane_safe _ _ _ _ (State.readLane_safe _ _ _ _ h)

theorem performAll_safe (f : Flight) (pick : LaneReq → Bool) (s : State) (l : List LaneReq) (h : Safe s) :
    Safe (performAll f pick s l).1 := by
  induction l generalizing s with
  | nil => exact h
  | cons q qs ih =>
    unfold performAll
    dsimp only
    apply ih
    split
    · exact State.performLane_safe _ _ _ h
    · exact h

theorem State.performLanes_safe (s : State) (i d : Nat) (pick : LaneReq → Bool) (h : Safe s) :
    Safe (s.performLanes i d pick) := by
  unfold State.performLanes
  split
  · exact h
  · next f _ =>
    have := performAll_safe f pick s f.lanes h
    dsimp only
    split
    all_goals exact safe_of_eq (by simp) (by simp) this

theorem State.putStaged_safe (s : State) (e : Staged) (l : List (Nat × List Byte)) (h : Safe s) : Safe (s.putStaged e l) := by
  unfold State.putStaged
  exact foldl_safe _ _ (fun s b hs => State.lsWrite_safe s _ _ _ _ _ hs) _ h

theorem State.putAcc_safe (s : State) (l : List (Nat × Word)) (h : Safe s) : Safe (s.putAcc l) := by
  unfold State.putAcc
  refine foldl_safe _ _ ?_ _ h
  intro s b hs
  exact ⟨hs.1, accPut_wf _ _ _ hs.2⟩

theorem State.homeWrite_safe (s : State) (p pa : Nat) (bs : List Byte) (a : Agent) (h : Safe s) : Safe (s.homeWrite p pa bs a) := by
  unfold State.homeWrite
  split
  · exact State.lsPut_safe _ _ _ _ _ _ h
  · exact State.wr_safe _ _ _ _ h

theorem State.remoteWrite_safe (s : State) (p src pa : Nat) (bs : List Byte) (h : Safe s) : Safe (s.remoteWrite p src pa bs) := by
  unfold State.remoteWrite
  split
  · exact State.lsWrite_safe _ _ _ _ _ _ h
  · exact State.wr_safe _ _ _ _ h

theorem State.performElem_safe (s : State) (p src : Nat) (e : Elem) (h : Safe s) : Safe (s.performElem p src e).1 := by
  unfold State.performElem
  split
  · exact foldl_safe _ _ (fun s r hs => State.remoteWrite_safe s _ _ _ _ hs) _ h
  · dsimp only
    split
    · exact h
    · exact State.remoteWrite_safe _ _ _ _ _ (safe_of_eq (State.correct_mem _ _ _ _) (State.correct_acc _ _ _ _) h)

theorem State.writeStatus_safe (s : State) (p : Nat) (pa : Option Nat) (x : Nat) (h : Safe s) : Safe (s.writeStatus p pa x) := by
  unfold State.writeStatus
  split
  · exact h
  · exact State.homeWrite_safe _ _ _ _ _ h

theorem State.admitFail_safe (s : State) (p : Nat) (a : Admitting) (st : Nat) (h : Safe s) : Safe (s.admitFail p a st) := by
  have := State.writeStatus_safe s p a.statusPa st h
  unfold State.admitFail
  dsimp only
  split <;> split <;> first | exact this | exact safe_of_eq (by simp) (by simp) this

theorem State.admitGang_safe (s : State) (p : Nat) (a : Admitting) (pls : List (Nat × Placing)) (g ch : Nat) (h : Safe s) :
    Safe (s.admitGang p a pls g ch) := by
  unfold State.admitGang
  dsimp only
  refine safe_of_eq (State.at_mem _ _ _ _ _) (State.at_acc _ _ _ _ _) (State.writeStatus_safe _ _ _ _ ?_)
  refine foldl_safe _ _ (fun s z hs => ?_) _ h
  refine foldl_safe _ _ ?_ _ hs
  intro s pl hs
  exact hs

theorem State.putChunk_safe (s : State) (p c : Nat) (ch : Chunk) (bs : List Byte) (h : Safe s) : Safe (s.putChunk p c ch bs) := by
  unfold State.putChunk
  split
  · exact h
  · exact h
  · exact State.lsPut_safe _ _ _ _ _ _ h
  · exact State.accWrite_safe _ _ _ h
  · exact h

theorem State.fillPut_safe (s : State) (p : Nat) (f : FillSt) (h : Safe s) : Safe (s.fillPut p f).2 := by
  unfold State.fillPut
  split
  · exact h
  · split
    · exact State.putChunk_safe _ _ _ _ _ h
    · exact h

theorem State.fillStep_safe (s : State) (p g : Nat) (l : List FillSt) (h : Safe s) : Safe (s.fillStep p g l).2 := by
  induction l generalizing s with
  | nil => exact h
  | cons f l ih => exact ih _ (safe_of_eq (State.fillAsk_mem _ _ _ _) (State.fillAsk_acc _ _ _ _) (State.fillPut_safe s p f h))

theorem State.setPtes_safe (s : State) (l : List (Nat × Nat × Nat)) (h : Safe s) : Safe (s.setPtes l) := by
  unfold State.setPtes
  exact foldl_safe _ _ (fun s z hs => State.wr_safe s z.1 z.2.1 _ hs) _ h

theorem State.mmWrite_safe (s : State) (p c : Nat) (k : Card) (n : Nat) (h : Safe s) : Safe (s.mmWrite p c k n) := by
  unfold State.mmWrite
  dsimp only
  split
  · exact safe_of_eq (by simp) (by simp) h
  · refine if_safe ?_ ?_
    · refine safe_of_eq (State.finishCard_mem _ _ _ _ _) (State.finishCard_acc _ _ _ _ _) ?_
      exact foldl_safe _ _ (fun s z hs => State.accWrite_safe s _ _ hs) _ (safe_of_eq (by simp) (by simp) h)
    · exact foldl_safe _ _ (fun s z hs => State.accWrite_safe s _ _ hs) _ (safe_of_eq (by simp) (by simp) h)

theorem State.haulLs_safe (s : State) (p c i c' off : Nat) (bs : List Byte) (h : Safe s) : Safe (s.haulLs p c i c' off bs) := by
  unfold State.haulLs
  dsimp only
  split
  · exact safe_of_eq (by simp) (by simp) (State.lsPut_safe s p c off bs (.engine 2 c) h)
  · exact safe_of_eq (by simp) (by simp) h

theorem State.haulSegWritten_safe (s : State) (p c i pa : Nat) (bs : List Byte) (h : Safe s) :
    Safe (s.haulSegWritten p c i pa bs) := by
  unfold State.haulSegWritten
  refine safe_of_eq (State.haulEnd_mem _ _ _ _) (State.haulEnd_acc _ _ _ _) (safe_of_eq (State.modHaul_mem _ _ _ _ _)
    (State.modHaul_acc _ _ _ _ _) ?_)
  exact if_safe (State.wr_safe s p pa bs h) h

theorem State.writePart_safe (s : State) (p c : Nat) (k : Card) (n : Nat) (x : HPlace) (bs : List Byte) (h : Safe s) :
    Safe (s.writePart p c k n x bs) := by
  unfold State.writePart
  split
  · split
    · exact State.haulLs_safe _ _ _ _ _ _ _ h
    · exact safe_of_eq (by simp) (by simp) h
  · exact safe_of_eq (by simp) (by simp) h
  · exact h

theorem State.writePiece_safe (s : State) (p c : Nat) (k : Card) (x : Piece) (h : Safe s) : Safe (s.writePiece p c k x) := by
  have key : ∀ (l : List (HPlace × Nat)) (z : State × List Byte), Safe z.1 →
      Safe ((l.foldl (fun z y => (z.1.writePart p c k x.k y.1 (z.2.take y.2), z.2.drop y.2)) z).1) := by
    intro l
    induction l with
    | nil => intro z hz; exact hz
    | cons y l ih => intro z hz; exact ih _ (State.writePart_safe _ _ _ _ _ _ _ hz)
  unfold State.writePiece
  dsimp only
  repeat' split
  · exact safe_of_eq (by simp) (by simp)
      (foldl_safe _ (s.haulCores c k) (fun s y hs => State.haulLs_safe s p c k.id y.1 (y.2 + x.dst.getD 0) x.data hs) _ h)
  all_goals first
    | exact safe_of_eq (State.haulEnd_mem _ _ _ _) (State.haulEnd_acc _ _ _ _) (key _ _ h)
    | exact safe_of_eq (by simp) (by simp) h

theorem State.doTodos_safe (p c f : Nat) (s : State) (h : Safe s) : Safe (State.doTodos p c f s) := by
  induction f generalizing s with
  | zero => exact h
  | succ f ih =>
    unfold State.doTodos
    split
    · exact h
    · next i y _ => exact ih _ (safe_of_eq (by simp) (by simp) (State.lsPut_safe s p y.core y.off y.data (.engine 2 c) h))

theorem State.ringPut_safe (s : State) (p c : Nat) (r : Ring) (from_ : Nat) (bs : List Byte) (src : Nat) (h : Safe s) :
    Safe (s.ringPut p c r from_ bs src) := by
  unfold State.ringPut
  dsimp only
  split
  · exact State.lsPut_safe _ _ _ _ _ _ (State.lsPut_safe _ _ _ _ _ _ h)
  · exact State.lsPut_safe _ _ _ _ _ _ h

theorem State.hostLs_safe (s : State) (p : Nat) (r : HostReq) (h : Safe s) : Safe (s.hostLs p r) := by
  unfold State.hostLs
  dsimp only
  repeat' split
  · exact State.lsPut_safe _ _ _ _ _ _ h
  all_goals exact safe_of_eq (by simp) (by simp) h

theorem State.hostServe_safe (s : State) (p pa n : Nat) (w : Bool) (bs : List Byte) (h : Safe s) : Safe (s.hostServe p pa n w bs) := by
  unfold State.hostServe
  dsimp only
  repeat' split
  · exact State.wr_safe _ _ _ _ h
  all_goals exact safe_of_eq (by simp) (by simp) h

theorem State.ualServe_safe (s : State) (p stn : Nat) (r : UalReq) (h : Safe s) : Safe (s.ualServe p stn r) := by
  unfold State.ualServe
  dsimp only
  repeat' split
  all_goals first
    | exact State.homeWrite_safe s _ _ _ _ h
    | exact State.homeWrite_safe _ _ _ _ _ (safe_of_eq (State.correct_mem _ _ _ _) (State.correct_acc _ _ _ _) h)
    | exact safe_of_eq (by simp) (by simp) h

theorem State.hubAccess_safe (s : State) (p : Nat) (r : HostReq) (h : Safe s) : Safe (s.hubAccess p r) := by
  unfold State.hubAccess
  dsimp only
  split
  · exact safe_of_eq (by simp) (by simp) h
  · split
    · exact State.ualServe_safe _ _ _ _ (safe_of_eq (State.dropHost_mem _ _ _) (State.dropHost_acc _ _ _) h)
    · exact State.hostLs_safe _ _ _ h

theorem State.recordWritten_safe (s : State) (p pa : Nat) (bs : List Byte) (i : Nat) (h : Safe s) :
    Safe (s.recordWritten p pa bs i) := by
  have := State.wr_safe s p pa bs h
  unfold State.recordWritten
  dsimp only
  split
  · exact this
  · exact safe_of_eq (by simp) (by simp) this

theorem State.serve_safe (s : State) (p : Nat) (o : SegOp) (h : Safe s) : Safe (s.serve p o) := by
  unfold State.serve
  split
  · exact State.performLanes_safe _ _ _ _ h
  · exact safe_of_eq (by simp) (by simp) h
  · exact safe_of_eq (by simp) (by simp) h
  · exact State.haulSegWritten_safe _ _ _ _ _ _ h
  · exact h
  · exact h
  · exact State.recordWritten_safe _ _ _ _ _ h
  · next pa n w bs => exact safe_of_eq (by simp) (by simp) (State.hostServe_safe s p pa n w bs h)
  · next pa bs => exact safe_of_eq (by simp) (by simp) (State.wr_safe s p pa bs h)
  · exact safe_of_eq (by simp) (by simp) h
  · next pa n bs => exact safe_of_eq (by simp) (by simp) (State.wr_safe s p pa bs h)
  · next stn r => exact safe_of_eq (by simp) (by simp) (State.ualServe_safe s p stn r h)

end Sys2Proof.Machine
end

