-- ==== Sys2Proof/Laws/Events.lean ====
section
/-! SUPPORT. What every instruction and event keeps: a safe state (the canonical memory and accumulator) stays safe. -/

namespace Sys2Proof.Machine

-- The cases of one proof text differ, so that some of its alternatives go unused.
set_option linter.all false

/-! ## The words of a clause -/

/-- A word changes the current pass only, so it writes neither memory nor an accumulator. -/
theorem onCur_safe (s u : State) (f : Team → Cur → Cur) (h : Safe s) (e : onCur s f = .next u) : Safe u := by
  rw [onCur_next e]; exact h

theorem State.request_safe (s u : State) (p tag : Nat) (k : Out) (h : Safe s) (e : s.request p tag k = .next u)
    (hk : k = .next u → Safe u) : Safe u := by
  unfold State.request at e
  dsimp only at e
  split at e
  · exact hk e
  · obtain rfl := Host.Outcome.next.inj e
    exact if_safe h (safe_of_eq (by simp) (by simp) h)

theorem execMov_safe (w : FU) (s u : State) (h : Safe s) (e : execMov w s = .next u) : Safe u :=
  onCur_safe s u _ h e
theorem execSel_safe (w : FA) (s u : State) (h : Safe s) (e : execSel w s = .next u) : Safe u :=
  onCur_safe s u _ h e
theorem execIadd_safe (w : FA) (s u : State) (h : Safe s) (e : execIadd w s = .next u) : Safe u :=
  onCur_safe s u _ h e
theorem execIsub_safe (w : FA) (s u : State) (h : Safe s) (e : execIsub w s = .next u) : Safe u :=
  onCur_safe s u _ h e
theorem execImul_safe (w : FA) (s u : State) (h : Safe s) (e : execImul w s = .next u) : Safe u :=
  onCur_safe s u _ h e
theorem execImulhS_safe (w : FA) (s u : State) (h : Safe s) (e : execImulhS w s = .next u) : Safe u :=
  onCur_safe s u _ h e
theorem execImulhN_safe (w : FA) (s u : State) (h : Safe s) (e : execImulhN w s = .next u) : Safe u :=
  onCur_safe s u _ h e
theorem execImad_safe (w : FA) (s u : State) (h : Safe s) (e : execImad w s = .next u) : Safe u :=
  onCur_safe s u _ h e
theorem execIdivS_safe (w : FA) (s u : State) (h : Safe s) (e : execIdivS w s = .next u) : Safe u :=
  onCur_safe s u _ h e
theorem execIdivN_safe (w : FA) (s u : State) (h : Safe s) (e : execIdivN w s = .next u) : Safe u :=
  onCur_safe s u _ h e
theorem execIremS_safe (w : FA) (s u : State) (h : Safe s) (e : execIremS w s = .next u) : Safe u :=
  onCur_safe s u _ h e
theorem execIremN_safe (w : FA) (s u : State) (h : Safe s) (e : execIremN w s = .next u) : Safe u :=
  onCur_safe s u _ h e
theorem execIminS_safe (w : FA) (s u : State) (h : Safe s) (e : execIminS w s = .next u) : Safe u :=
  onCur_safe s u _ h e
theorem execImaxS_safe (w : FA) (s u : State) (h : Safe s) (e : execImaxS w s = .next u) : Safe u :=
  onCur_safe s u _ h e
theorem execIminN_safe (w : FA) (s u : State) (h : Safe s) (e : execIminN w s = .next u) : Safe u :=
  onCur_safe s u _ h e
theorem execImaxN_safe (w : FA) (s u : State) (h : Safe s) (e : execImaxN w s = .next u) : Safe u :=
  onCur_safe s u _ h e
theorem execAnd_safe (w : FA) (s u : State) (h : Safe s) (e : execAnd w s = .next u) : Safe u :=
  onCur_safe s u _ h e
theorem execOr_safe (w : FA) (s u : State) (h : Safe s) (e : execOr w s = .next u) : Safe u :=
  onCur_safe s u _ h e
theorem execXor_safe (w : FA) (s u : State) (h : Safe s) (e : execXor w s = .next u) : Safe u :=
  onCur_safe s u _ h e
theorem execAndn_safe (w : FA) (s u : State) (h : Safe s) (e : execAndn w s = .next u) : Safe u :=
  onCur_safe s u _ h e
theorem execShl_safe (w : FA) (s u : State) (h : Safe s) (e : execShl w s = .next u) : Safe u :=
  onCur_safe s u _ h e
theorem execShr_safe (w : FA) (s u : State) (h : Safe s) (e : execShr w s = .next u) : Safe u :=
  onCur_safe s u _ h e
theorem execSar_safe (w : FA) (s u : State) (h : Safe s) (e : execSar w s = .next u) : Safe u :=
  onCur_safe s u _ h e
theorem execRol_safe (w : FA) (s u : State) (h : Safe s) (e : execRol w s = .next u) : Safe u :=
  onCur_safe s u _ h e
theorem execIun_safe (w : FU) (op : IunOp) (s u : State) (h : Safe s) (e : execIun w op s = .next u) : Safe u :=
  onCur_safe s u _ h e
theorem execBfxS_safe (w : FA) (s u : State) (h : Safe s) (e : execBfxS w s = .next u) : Safe u :=
  onCur_safe s u _ h e
theorem execBfxN_safe (w : FA) (s u : State) (h : Safe s) (e : execBfxN w s = .next u) : Safe u :=
  onCur_safe s u _ h e
theorem execBfi_safe (w : FA) (s u : State) (h : Safe s) (e : execBfi w s = .next u) : Safe u :=
  onCur_safe s u _ h e
theorem execIaddSat_safe (w : FA) (s u : State) (h : Safe s) (e : execIaddSat w s = .next u) : Safe u :=
  onCur_safe s u _ h e
theorem execIsubSat_safe (w : FA) (s u : State) (h : Safe s) (e : execIsubSat w s = .next u) : Safe u :=
  onCur_safe s u _ h e
theorem execIdp4_safe (w : FA) (s u : State) (h : Safe s) (e : execIdp4 w s = .next u) : Safe u :=
  onCur_safe s u _ h e
theorem execCardf_safe (w : FG) (s u : State) (h : Safe s) (e : execCardf w s = .next u) : Safe u :=
  onCur_safe s u _ h e
theorem execIcmpEq_safe (w : FC) (s u : State) (h : Safe s) (e : execIcmpEq w s = .next u) : Safe u :=
  onCur_safe s u _ h e
theorem execIcmpNe_safe (w : FC) (s u : State) (h : Safe s) (e : execIcmpNe w s = .next u) : Safe u :=
  onCur_safe s u _ h e
theorem execIcmpLtS_safe (w : FC) (s u : State) (h : Safe s) (e : execIcmpLtS w s = .next u) : Safe u :=
  onCur_safe s u _ h e
theorem execIcmpLeS_safe (w : FC) (s u : State) (h : Safe s) (e : execIcmpLeS w s = .next u) : Safe u :=
  onCur_safe s u _ h e
theorem execIcmpLtN_safe (w : FC) (s u : State) (h : Safe s) (e : execIcmpLtN w s = .next u) : Safe u :=
  onCur_safe s u _ h e
theorem execIcmpLeN_safe (w : FC) (s u : State) (h : Safe s) (e : execIcmpLeN w s = .next u) : Safe u :=
  onCur_safe s u _ h e
theorem execFcmpEq_safe (w : FC) (s u : State) (h : Safe s) (e : execFcmpEq w s = .next u) : Safe u :=
  onCur_safe s u _ h e
theorem execFcmpLt_safe (w : FC) (s u : State) (h : Safe s) (e : execFcmpLt w s = .next u) : Safe u :=
  onCur_safe s u _ h e
theorem execFcmpLe_safe (w : FC) (s u : State) (h : Safe s) (e : execFcmpLe w s = .next u) : Safe u :=
  onCur_safe s u _ h e
theorem execFcmpUn_safe (w : FC) (s u : State) (h : Safe s) (e : execFcmpUn w s = .next u) : Safe u :=
  onCur_safe s u _ h e
theorem execPlop_safe (w : FP) (s u : State) (h : Safe s) (e : execPlop w s = .next u) : Safe u :=
  onCur_safe s u _ h e
theorem execPtov_safe (w : FD) (s u : State) (h : Safe s) (e : execPtov w s = .next u) : Safe u :=
  onCur_safe s u _ h e
theorem execVtop_safe (w : FC) (s u : State) (h : Safe s) (e : execVtop w s = .next u) : Safe u :=
  onCur_safe s u _ h e
theorem execShfi_safe (w : FA) (s u : State) (h : Safe s) (e : execShfi w s = .next u) : Safe u :=
  onCur_safe s u _ h e
theorem execShfu_safe (w : FA) (s u : State) (h : Safe s) (e : execShfu w s = .next u) : Safe u :=
  onCur_safe s u _ h e
theorem execShfd_safe (w : FA) (s u : State) (h : Safe s) (e : execShfd w s = .next u) : Safe u :=
  onCur_safe s u _ h e
theorem execShfx_safe (w : FA) (s u : State) (h : Safe s) (e : execShfx w s = .next u) : Safe u :=
  onCur_safe s u _ h e
theorem execTshfi_safe (w : FA) (s u : State) (h : Safe s) (e : execTshfi w s = .next u) : Safe u :=
  onCur_safe s u _ h e
theorem execVote_safe (w : FD) (neg : Bool) (q : BitVec 3) (mode : VoteMode) (s u : State) (h : Safe s) (e : execVote w neg q mode s = .next u) : Safe u :=
  onCur_safe s u _ h e
theorem execScanI_safe (w : FU) (op : ScanIOp) (excl : Bool) (s u : State) (h : Safe s) (e : execScanI w op excl s = .next u) : Safe u :=
  onCur_safe s u _ h e
theorem execScanF_safe (w : FU) (op : ScanFOp) (excl : Bool) (s u : State) (h : Safe s) (e : execScanF w op excl s = .next u) : Safe u :=
  onCur_safe s u _ h e
theorem execTredI_safe (w : FU) (op : ScanIOp) (s u : State) (h : Safe s) (e : execTredI w op s = .next u) : Safe u :=
  onCur_safe s u _ h e
theorem execTredF_safe (w : FU) (op : ScanFOp) (s u : State) (h : Safe s) (e : execTredF w op s = .next u) : Safe u :=
  onCur_safe s u _ h e
theorem execGetl_safe (w : FD) (op : GetlOp) (s u : State) (h : Safe s) (e : execGetl w op s = .next u) : Safe u :=
  onCur_safe s u _ h e
theorem execFadd_safe (w : FA) (s u : State) (h : Safe s) (e : execFadd w s = .next u) : Safe u :=
  onCur_safe s u _ h e
theorem execFsub_safe (w : FA) (s u : State) (h : Safe s) (e : execFsub w s = .next u) : Safe u :=
  onCur_safe s u _ h e
theorem execFmul_safe (w : FA) (s u : State) (h : Safe s) (e : execFmul w s = .next u) : Safe u :=
  onCur_safe s u _ h e
theorem execFfma_safe (w : FA) (s u : State) (h : Safe s) (e : execFfma w s = .next u) : Safe u :=
  onCur_safe s u _ h e
theorem execFmin_safe (w : FA) (s u : State) (h : Safe s) (e : execFmin w s = .next u) : Safe u :=
  onCur_safe s u _ h e
theorem execFmax_safe (w : FA) (s u : State) (h : Safe s) (e : execFmax w s = .next u) : Safe u :=
  onCur_safe s u _ h e
theorem execFun_safe (w : FU) (op : FunOp) (s u : State) (h : Safe s) (e : execFun w op s = .next u) : Safe u :=
  onCur_safe s u _ h e
theorem execCvt_safe (w : FU) (dir sat rtz : Bool) (x : Fmt) (s u : State) (h : Safe s) (e : execCvt w dir sat rtz x s = .next u) : Safe u :=
  onCur_safe s u _ h e
theorem execLdlN_safe (w : FM) (s u : State) (h : Safe s) (e : execLdlN w s = .next u) : Safe u :=
  onCur_safe s u _ h e
theorem execLdlS_safe (w : FM) (s u : State) (h : Safe s) (e : execLdlS w s = .next u) : Safe u :=
  onCur_safe s u _ h e
theorem execStl_safe (w : FM) (s u : State) (h : Safe s) (e : execStl w s = .next u) : Safe u :=
  onCur_safe s u _ h e
theorem execLdlv_safe (w : FV) (s u : State) (h : Safe s) (e : execLdlv w s = .next u) : Safe u :=
  onCur_safe s u _ h e
theorem execStlv_safe (w : FV) (s u : State) (h : Safe s) (e : execStlv w s = .next u) : Safe u :=
  onCur_safe s u _ h e
theorem execLdgN_safe (w : FM) (s u : State) (h : Safe s) (e : execLdgN w s = .next u) : Safe u :=
  onCur_safe s u _ h e
theorem execLdgS_safe (w : FM) (s u : State) (h : Safe s) (e : execLdgS w s = .next u) : Safe u :=
  onCur_safe s u _ h e
theorem execStg_safe (w : FM) (s u : State) (h : Safe s) (e : execStg w s = .next u) : Safe u :=
  onCur_safe s u _ h e
theorem execLdgv_safe (w : FV) (s u : State) (h : Safe s) (e : execLdgv w s = .next u) : Safe u :=
  onCur_safe s u _ h e
theorem execStgv_safe (w : FV) (s u : State) (h : Safe s) (e : execStgv w s = .next u) : Safe u :=
  onCur_safe s u _ h e
theorem execLdrN_safe (w : FM) (s u : State) (h : Safe s) (e : execLdrN w s = .next u) : Safe u :=
  onCur_safe s u _ h e
theorem execLdrS_safe (w : FM) (s u : State) (h : Safe s) (e : execLdrS w s = .next u) : Safe u :=
  onCur_safe s u _ h e
theorem execStr_safe (w : FM) (s u : State) (h : Safe s) (e : execStr w s = .next u) : Safe u :=
  onCur_safe s u _ h e
theorem execStrZ_safe (w : FZ) (s u : State) (h : Safe s) (e : execStrZ w s = .next u) : Safe u :=
  onCur_safe s u _ h e
theorem execAtl_safe (w : FT) (s u : State) (h : Safe s) (e : execAtl w s = .next u) : Safe u :=
  onCur_safe s u _ h e
theorem execAtln_safe (w : FT) (s u : State) (h : Safe s) (e : execAtln w s = .next u) : Safe u :=
  onCur_safe s u _ h e
theorem execAtg_safe (w : FT) (s u : State) (h : Safe s) (e : execAtg w s = .next u) : Safe u :=
  onCur_safe s u _ h e
theorem execAtgn_safe (w : FT) (s u : State) (h : Safe s) (e : execAtgn w s = .next u) : Safe u :=
  onCur_safe s u _ h e
theorem execAtr_safe (w : FT) (s u : State) (h : Safe s) (e : execAtr w s = .next u) : Safe u :=
  onCur_safe s u _ h e
theorem execAtrn_safe (w : FT) (s u : State) (h : Safe s) (e : execAtrn w s = .next u) : Safe u :=
  onCur_safe s u _ h e
theorem execAccrd_safe (w : FX) (s u : State) (h : Safe s) (e : execAccrd w s = .next u) : Safe u :=
  onCur_safe s u _ h e
theorem execAccwr_safe (w : FX) (s u : State) (h : Safe s) (e : execAccwr w s = .next u) : Safe u :=
  onCur_safe s u _ h e
theorem execBinit_safe (w : FS) (s u : State) (h : Safe s) (e : execBinit w s = .next u) : Safe u :=
  onCur_safe s u _ h e
theorem execBarv_safe (w : FS) (s u : State) (h : Safe s) (e : execBarv w s = .next u) : Safe u :=
  onCur_safe s u _ h e
theorem execBexp_safe (w : FS) (s u : State) (h : Safe s) (e : execBexp w s = .next u) : Safe u :=
  onCur_safe s u _ h e
theorem execWaitph_safe (w : FW) (s u : State) (h : Safe s) (e : execWaitph w s = .next u) : Safe u :=
  onCur_safe s u _ h e
theorem execTestph_safe (w : FW) (s u : State) (h : Safe s) (e : execTestph w s = .next u) : Safe u :=
  onCur_safe s u _ h e
theorem execBarn_safe (w : FB) (s u : State) (h : Safe s) (e : execBarn w s = .next u) : Safe u :=
  onCur_safe s u _ h e
theorem execBcred_safe (w : FS) (s u : State) (h : Safe s) (e : execBcred w s = .next u) : Safe u :=
  onCur_safe s u _ h e
theorem execFence_safe (w : FB) (s u : State) (h : Safe s) (e : execFence w s = .next u) : Safe u :=
  onCur_safe s u _ h e
theorem execXfence_safe (w : FN) (s u : State) (h : Safe s) (e : execXfence w s = .next u) : Safe u :=
  onCur_safe s u _ h e
theorem execTflush_safe (w : FG) (s u : State) (h : Safe s) (e : execTflush w s = .next u) : Safe u :=
  onCur_safe s u _ h e
theorem execTbenter_safe (w : FN) (s u : State) (h : Safe s) (e : execTbenter w s = .next u) : Safe u :=
  onCur_safe s u _ h e
theorem execTbrel_safe (w : FN) (s u : State) (h : Safe s) (e : execTbrel w s = .next u) : Safe u :=
  onCur_safe s u _ h e
theorem execNop_safe (w : FN) (s u : State) (h : Safe s) (e : execNop w s = .next u) : Safe u :=
  onCur_safe s u _ h e
theorem execBra_safe (w : FR) (s u : State) (h : Safe s) (e : execBra w s = .next u) : Safe u :=
  onCur_safe s u _ h e
theorem execBrp_safe (w : FR) (s u : State) (h : Safe s) (e : execBrp w s = .next u) : Safe u :=
  onCur_safe s u _ h e
theorem execBrq_safe (w : FR) (s u : State) (h : Safe s) (e : execBrq w s = .next u) : Safe u :=
  onCur_safe s u _ h e
theorem execBrx_safe (w : FG) (s u : State) (h : Safe s) (e : execBrx w s = .next u) : Safe u :=
  onCur_safe s u _ h e
theorem execCall_safe (w : FG) (s u : State) (h : Safe s) (e : execCall w s = .next u) : Safe u :=
  onCur_safe s u _ h e
theorem execRet_safe (w : FN) (s u : State) (h : Safe s) (e : execRet w s = .next u) : Safe u :=
  onCur_safe s u _ h e
theorem execRcv_safe (w : FR) (s u : State) (h : Safe s) (e : execRcv w s = .next u) : Safe u :=
  onCur_safe s u _ h e
theorem execJoin_safe (w : FN) (s u : State) (h : Safe s) (e : execJoin w s = .next u) : Safe u :=
  onCur_safe s u _ h e
theorem execBrk_safe (w : FR) (k : BitVec 5) (s u : State) (h : Safe s) (e : execBrk w k s = .next u) : Safe u :=
  onCur_safe s u _ h e
theorem execExit_safe (w : FN) (s u : State) (h : Safe s) (e : execExit w s = .next u) : Safe u :=
  onCur_safe s u _ h e
theorem execWaitc_safe (w : FG) (s u : State) (h : Safe s) (e : execWaitc w s = .next u) : Safe u :=
  onCur_safe s u _ h e
theorem execLaunch_safe (w : FG) (s u : State) (h : Safe s) (e : execLaunch w s = .next u) : Safe u :=
  onCur_safe s u _ h e
theorem execCsrr_safe (w : FY) (s u : State) (h : Safe s) (e : execCsrr w s = .next u) : Safe u :=
  onCur_safe s u _ h e
theorem execCsrw_safe (w : FY) (s u : State) (h : Safe s) (e : execCsrw w s = .next u) : Safe u :=
  onCur_safe s u _ h e
theorem execCsrs_safe (w : FY) (s u : State) (h : Safe s) (e : execCsrs w s = .next u) : Safe u :=
  onCur_safe s u _ h e
theorem execCsrc_safe (w : FY) (s u : State) (h : Safe s) (e : execCsrc w s = .next u) : Safe u :=
  onCur_safe s u _ h e
theorem execTrapW_safe (w : FK) (s u : State) (h : Safe s) (e : execTrapW w s = .next u) : Safe u :=
  onCur_safe s u _ h e
theorem execTret_safe (w : FN) (s u : State) (h : Safe s) (e : execTret w s = .next u) : Safe u :=
  onCur_safe s u _ h e
theorem execKill_safe (w : FQ) (s u : State) (h : Safe s) (e : execKill w s = .next u) : Safe u :=
  onCur_safe s u _ h e
theorem execShiftW_safe (w : FQ) (s u : State) (h : Safe s) (e : execShiftW w s = .next u) : Safe u :=
  onCur_safe s u _ h e
theorem execWdog_safe (w : FQ) (s u : State) (h : Safe s) (e : execWdog w s = .next u) : Safe u :=
  onCur_safe s u _ h e
theorem execDbrk_safe (w : FK) (s u : State) (h : Safe s) (e : execDbrk w s = .next u) : Safe u :=
  onCur_safe s u _ h e
theorem execMigdrain_safe (w : FQ) (s u : State) (h : Safe s) (e : execMigdrain w s = .next u) : Safe u :=
  onCur_safe s u _ h e
theorem execWtcloRead_safe (reg : Nat) (s u : State) (h : Safe s) (e : execWtcloRead reg s = .next u) : Safe u :=
  onCur_safe s u _ h e

/-! ## The events of the machine -/

theorem execClauseStart_safe (p c : Nat) (s : State) (t : State) (h : Safe s) (e : execClauseStart p c s = .next t) : Safe t := by
  unfold execClauseStart at e
  split at e <;> cases e
  all_goals first | exact h | (refine safe_of_eq ?_ ?_ h <;> first | rfl | (simp; done) | (simp_all; done))

theorem execLoadDataWritten_safe (l : Nat) (s : State) (t : State) (h : Safe s) (e : execLoadDataWritten l s = .next t) : Safe t := by
  unfold execLoadDataWritten at e
  split at e <;> cases e
  all_goals first | exact h | (refine safe_of_eq ?_ ?_ h <;> first | rfl | (simp; done) | (simp_all; done))

theorem execGatherPacketArrival_safe (i : Nat) (s : State) (t : State) (h : Safe s) (e : execGatherPacketArrival i s = .next t) : Safe t := by
  unfold execGatherPacketArrival at e
  split at e <;> obtain rfl := Host.Outcome.next.inj e
  · exact h
  · refine foldl_safe _ _ (fun s z hs => ?_) _ h
    split
    · exact hs
    · dsimp only; split <;> exact safe_of_eq (by simp) (by simp) hs

theorem execPageWalk_safe (p q : Nat) (s : State) (t : State) (h : Safe s) (e : execPageWalk p q s = .next t) : Safe t := by
  unfold execPageWalk at e
  dsimp only at e
  repeat' split at e
  all_goals cases e
  all_goals first | exact h | (refine safe_of_eq ?_ ?_ h <;> first | rfl | (simp; done) | (simp_all; done))

theorem execWalkLevelRead_safe (p q : Nat) (s : State) (t : State) (h : Safe s) (e : execWalkLevelRead p q s = .next t) : Safe t := by
  unfold execWalkLevelRead at e
  dsimp only at e
  repeat' split at e
  all_goals cases e
  all_goals first | exact h | (refine safe_of_eq ?_ ?_ h <;> first | rfl | (simp; done) | (simp_all; done))

theorem execFaultReport_safe (i : Nat) (s : State) (t : State) (h : Safe s) (e : execFaultReport i s = .next t) : Safe t := by
  unfold execFaultReport at e
  split at e <;> cases e
  all_goals first | exact h | (refine safe_of_eq ?_ ?_ h <;> first | rfl | (simp; done) | (simp_all; done))

theorem execComputeBoundRefresh_safe (p n : Nat) (s : State) (t : State) (h : Safe s) (e : execComputeBoundRefresh p n s = .next t) : Safe t := by
  unfold execComputeBoundRefresh at e
  dsimp only at e
  repeat' split at e
  all_goals cases e
  all_goals first | exact h | (refine safe_of_eq ?_ ?_ h <;> first | rfl | (simp; done) | (simp_all; done))

theorem execParityAlertReplay_safe (p n : Nat) (s : State) (t : State) (h : Safe s) (e : execParityAlertReplay p n s = .next t) : Safe t := by
  unfold execParityAlertReplay at e
  dsimp only at e
  repeat' split at e
  all_goals cases e
  all_goals first | exact h | (refine safe_of_eq ?_ ?_ h <;> first | rfl | (simp; done) | (simp_all; done))

theorem execAgeTrigger_safe (p n : Nat) (s : State) (t : State) (h : Safe s) (e : execAgeTrigger p n s = .next t) : Safe t := by
  unfold execAgeTrigger at e
  cases e; exact safe_of_eq (by simp) (by simp) h

theorem execElasticSlotSend_safe (p n : Nat) (s : State) (t : State) (h : Safe s) (e : execElasticSlotSend p n s = .next t) : Safe t := by
  unfold execElasticSlotSend at e
  dsimp only at e
  repeat' split at e
  all_goals cases e
  all_goals first | exact h | (refine safe_of_eq ?_ ?_ h <;> first | rfl | (simp; done) | (simp_all; done))

theorem execIntermediateForward_safe (p i : Nat) (s : State) (t : State) (h : Safe s) (e : execIntermediateForward p i s = .next t) : Safe t := by
  unfold execIntermediateForward at e
  dsimp only at e
  repeat' split at e
  all_goals cases e
  all_goals first | exact h | (refine safe_of_eq ?_ ?_ h <;> first | rfl | (simp; done) | (simp_all; done))

theorem execElementIssue_safe (p i j : Nat) (s : State) (t : State) (h : Safe s) (e : execElementIssue p i j s = .next t) : Safe t := by
  unfold execElementIssue at e
  dsimp only at e
  repeat' split at e
  all_goals cases e
  all_goals first | exact h | (refine safe_of_eq ?_ ?_ h <;> first | rfl | (simp; done) | (simp_all; done))

theorem execAcknowledgementSend_safe (p i : Nat) (s : State) (t : State) (h : Safe s) (e : execAcknowledgementSend p i s = .next t) : Safe t := by
  unfold execAcknowledgementSend at e
  split at e <;> cases e
  all_goals first | exact h | (refine safe_of_eq ?_ ?_ h <;> first | rfl | (simp; done) | (simp_all; done))

theorem execAcknowledgementArrival_safe (p i : Nat) (s : State) (t : State) (h : Safe s) (e : execAcknowledgementArrival p i s = .next t) : Safe t := by
  unfold execAcknowledgementArrival at e
  dsimp only at e
  repeat' split at e
  all_goals cases e
  all_goals first | exact h | (refine safe_of_eq ?_ ?_ h <;> first | rfl | (simp; done) | (simp_all; done))

theorem execTubTimeout_safe (p i : Nat) (s : State) (t : State) (h : Safe s) (e : execTubTimeout p i s = .next t) : Safe t := by
  unfold execTubTimeout at e
  dsimp only at e
  repeat' split at e
  all_goals cases e
  all_goals first | exact h | (refine safe_of_eq ?_ ?_ h <;> first | rfl | (simp; done) | (simp_all; done))

theorem execRemoteLoadRequest_safe (i : Nat) (s : State) (t : State) (h : Safe s) (e : execRemoteLoadRequest i s = .next t) : Safe t := by
  unfold execRemoteLoadRequest at e
  split at e <;> cases e
  all_goals first | exact h | (refine safe_of_eq ?_ ?_ h <;> first | rfl | (simp; done) | (simp_all; done))

theorem execRemoteLoadAccess_safe (p i j : Nat) (s : State) (t : State) (h : Safe s) (e : execRemoteLoadAccess p i j s = .next t) : Safe t := by
  unfold execRemoteLoadAccess at e
  dsimp only at e
  repeat' split at e
  all_goals cases e
  all_goals first | exact h | (refine safe_of_eq ?_ ?_ h <;> first | rfl | (simp; done) | (simp_all; done))

theorem execRemoteLoadReply_safe (p i : Nat) (s : State) (t : State) (h : Safe s) (e : execRemoteLoadReply p i s = .next t) : Safe t := by
  unfold execRemoteLoadReply at e
  split at e <;> cases e
  all_goals first | exact h | (refine safe_of_eq ?_ ?_ h <;> first | rfl | (simp; done) | (simp_all; done))

theorem execRemoteLoadReplyArrival_safe (p i : Nat) (s : State) (t : State) (h : Safe s) (e : execRemoteLoadReplyArrival p i s = .next t) : Safe t := by
  unfold execRemoteLoadReplyArrival at e
  dsimp only at e
  repeat' split at e
  all_goals cases e
  all_goals first | exact h | (refine safe_of_eq ?_ ?_ h <;> first | rfl | (simp; done) | (simp_all; done))

theorem execRemoteLoadTimeout_safe (p i : Nat) (s : State) (t : State) (h : Safe s) (e : execRemoteLoadTimeout p i s = .next t) : Safe t := by
  unfold execRemoteLoadTimeout at e
  dsimp only at e
  repeat' split at e
  all_goals cases e
  all_goals first | exact h | (refine safe_of_eq ?_ ?_ h <;> first | rfl | (simp; done) | (simp_all; done))

theorem execUalinkCompletion_safe (p i j : Nat) (err : Bool) (old : Nat) (s : State) (t : State) (h : Safe s) (e : execUalinkCompletion p i j err old s = .next t) : Safe t := by
  unfold execUalinkCompletion at e
  dsimp only at e
  repeat' split at e
  all_goals cases e
  all_goals first | exact h | (refine safe_of_eq ?_ ?_ h <;> first | rfl | (simp; done) | (simp_all; done))

theorem execMigdrainReceipt_safe (p i : Nat) (s : State) (t : State) (h : Safe s) (e : execMigdrainReceipt p i s = .next t) : Safe t := by
  unfold execMigdrainReceipt at e
  dsimp only at e
  repeat' split at e
  all_goals cases e
  all_goals first | exact h | (refine safe_of_eq ?_ ?_ h <;> first | rfl | (simp; done) | (simp_all; done))

theorem execTagBoardRelease_safe (g b : Nat) (s : State) (t : State) (h : Safe s) (e : execTagBoardRelease g b s = .next t) : Safe t := by
  unfold execTagBoardRelease at e
  split at e <;> cases e
  all_goals first | exact h | (refine safe_of_eq ?_ ?_ h <;> first | rfl | (simp; done) | (simp_all; done))

theorem execGangStart_safe (g : Nat) (s : State) (t : State) (h : Safe s) (e : execGangStart g s = .next t) : Safe t := by
  unfold execGangStart at e
  cases e; exact safe_of_eq (by simp) (by simp) h

theorem execCardAcceptance_safe (p c q : Nat) (s : State) (t : State) (h : Safe s) (e : execCardAcceptance p c q s = .next t) : Safe t := by
  unfold execCardAcceptance at e
  dsimp only at e
  repeat' split at e
  all_goals cases e
  all_goals first | exact h | (refine safe_of_eq ?_ ?_ h <;> first | rfl | (simp; done) | (simp_all; done))

theorem execMzero_safe (p c i : Nat) (s : State) (t : State) (h : Safe s) (e : execMzero p c i s = .next t) : Safe t := by
  unfold execMzero at e
  cases e; exact safe_of_eq (by simp) (by simp) h

theorem execAload_safe (p c i : Nat) (s : State) (t : State) (h : Safe s) (e : execAload p c i s = .next t) : Safe t := by
  unfold execAload at e
  cases e; exact safe_of_eq (by simp) (by simp) h

theorem execAdrain_safe (p c i : Nat) (s : State) (t : State) (h : Safe s) (e : execAdrain p c i s = .next t) : Safe t := by
  unfold execAdrain at e
  cases e; exact safe_of_eq (by simp) (by simp) h

theorem execReExecution_safe (p c n : Nat) (s : State) (t : State) (h : Safe s) (e : execReExecution p c n s = .next t) : Safe t := by
  unfold execReExecution at e
  dsimp only at e
  repeat' split at e
  all_goals cases e
  all_goals first | exact h | (refine safe_of_eq ?_ ?_ h <;> first | rfl | (simp; done) | (simp_all; done))

theorem execEdgeRelease_safe (p c i j : Nat) (s : State) (t : State) (h : Safe s) (e : execEdgeRelease p c i j s = .next t) : Safe t := by
  unfold execEdgeRelease at e
  cases e; exact safe_of_eq (by simp) (by simp) h

theorem execCopy_safe (p c i : Nat) (s : State) (t : State) (h : Safe s) (e : execCopy p c i s = .next t) : Safe t := by
  unfold execCopy at e
  cases e; exact safe_of_eq (by simp) (by simp) h

theorem execFill_safe (p c i : Nat) (s : State) (t : State) (h : Safe s) (e : execFill p c i s = .next t) : Safe t := by
  unfold execFill at e
  cases e; exact safe_of_eq (by simp) (by simp) h

theorem execGather_safe (p c i : Nat) (s : State) (t : State) (h : Safe s) (e : execGather p c i s = .next t) : Safe t := by
  unfold execGather at e
  cases e; exact safe_of_eq (by simp) (by simp) h

theorem execHaulPieceRead_safe (p c part : Nat) (s : State) (t : State) (h : Safe s) (e : execHaulPieceRead p c part s = .next t) : Safe t := by
  unfold execHaulPieceRead at e
  dsimp only at e
  repeat' split at e
  all_goals cases e
  all_goals first | exact h | (refine safe_of_eq ?_ ?_ h <;> first | rfl | (simp; done) | (simp_all; done))

theorem execQuant_safe (p c i : Nat) (s : State) (t : State) (h : Safe s) (e : execQuant p c i s = .next t) : Safe t := by
  unfold execQuant at e
  cases e; exact safe_of_eq (by simp) (by simp) h

theorem execDequant_safe (p c i : Nat) (s : State) (t : State) (h : Safe s) (e : execDequant p c i s = .next t) : Safe t := by
  unfold execDequant at e
  cases e; exact safe_of_eq (by simp) (by simp) h

theorem execSendatChunkRead_safe (p c i m : Nat) (s : State) (t : State) (h : Safe s) (e : execSendatChunkRead p c i m s = .next t) : Safe t := by
  unfold execSendatChunkRead at e
  dsimp only at e
  repeat' split at e
  all_goals cases e
  all_goals first | exact h | (refine safe_of_eq ?_ ?_ h <;> first | rfl | (simp; done) | (simp_all; done))

theorem execScheduledSlotSend_safe (p c i k : Nat) (s : State) (t : State) (h : Safe s) (e : execScheduledSlotSend p c i k s = .next t) : Safe t := by
  unfold execScheduledSlotSend at e
  dsimp only at e
  repeat' split at e
  all_goals cases e
  all_goals first | exact h | (refine safe_of_eq ?_ ?_ h <;> first | rfl | (simp; done) | (simp_all; done))

theorem execRecvat_safe (p c i : Nat) (s : State) (t : State) (h : Safe s) (e : execRecvat p c i s = .next t) : Safe t := by
  unfold execRecvat at e
  dsimp only at e
  repeat' split at e
  all_goals cases e
  all_goals first | exact h | (refine safe_of_eq ?_ ?_ h <;> first | rfl | (simp; done) | (simp_all; done))

theorem execSlotDelivery_safe (p i : Nat) (s : State) (t : State) (h : Safe s) (e : execSlotDelivery p i s = .next t) : Safe t := by
  unfold execSlotDelivery at e
  dsimp only at e
  repeat' split at e
  all_goals cases e
  all_goals first | exact h | (refine safe_of_eq ?_ ?_ h <;> first | rfl | (simp; done) | (simp_all; done))

theorem execCrcReplay_safe (p n : Nat) (s : State) (t : State) (h : Safe s) (e : execCrcReplay p n s = .next t) : Safe t := by
  unfold execCrcReplay at e
  cases e; exact safe_of_eq (by simp) (by simp) h

theorem State.takenOrDropped_safe (p i dcore core card size srcCore : Nat) (r : Ring) (bs : List Byte) (x : Packet) (s : State)
    (h : Safe s) : Safe (if s.ringTakes p dcore r x.src srcCore size = true then
        (s.takeMessage p i dcore r size bs).ackRing p x core card dcore true
      else (s.modCore p dcore (·.countDrop)).ackRing p x core card dcore false) :=
  if_safe (safe_of_eq (by simp) (by simp) h) (safe_of_eq (by simp) (by simp) h)

theorem execRingMessageArrival_safe (p i : Nat) (s : State) (t : State) (h : Safe s) (e : execRingMessageArrival p i s = .next t) : Safe t := by
  unfold execRingMessageArrival at e
  split at e
  · obtain rfl := Host.Outcome.next.inj e; exact h
  · extract_lets s1 at e
    have h1 : Safe s1 := safe_of_eq (State.dropPacket_mem _ _) (State.dropPacket_acc _ _) h
    clear_value s1
    split at e
    · extract_lets size at e
      split at e
      · obtain rfl := Host.Outcome.next.inj e; exact safe_of_eq (by simp) (by simp) h1
      · extract_lets s2 at e
        have h2 : Safe s2 := safe_of_eq (State.meetRead_mem _ _ _ _ _) (State.meetRead_acc _ _ _ _ _) h1
        clear_value s2
        obtain rfl := Host.Outcome.next.inj e
        exact State.takenOrDropped_safe _ _ _ _ _ _ _ _ _ _ _ h2
    · obtain rfl := Host.Outcome.next.inj e; exact h1

theorem execRingAckArrival_safe (p i : Nat) (s : State) (t : State) (h : Safe s) (e : execRingAckArrival p i s = .next t) : Safe t := by
  unfold execRingAckArrival at e
  dsimp only at e
  repeat' split at e
  all_goals cases e
  all_goals first | exact h | (refine safe_of_eq ?_ ?_ h <;> first | rfl | (simp; done) | (simp_all; done))

theorem execRingTimeout_safe (p i : Nat) (s : State) (t : State) (h : Safe s) (e : execRingTimeout p i s = .next t) : Safe t := by
  unfold execRingTimeout at e
  split at e <;> cases e
  all_goals first | exact h | (refine safe_of_eq ?_ ?_ h <;> first | rfl | (simp; done) | (simp_all; done))

theorem execQuiet_safe (p c i : Nat) (s : State) (t : State) (h : Safe s) (e : execQuiet p c i s = .next t) : Safe t := by
  unfold execQuiet at e
  dsimp only at e
  repeat' split at e
  all_goals cases e
  all_goals first | exact h | (refine safe_of_eq ?_ ?_ h <;> first | rfl | (simp; done) | (simp_all; done))

theorem execQuietCheck_safe (p c i : Nat) (s : State) (t : State) (h : Safe s) (e : execQuietCheck p c i s = .next t) : Safe t := by
  unfold execQuietCheck at e
  dsimp only at e
  repeat' split at e
  all_goals cases e
  all_goals first | exact h | (refine safe_of_eq ?_ ?_ h <;> first | rfl | (simp; done) | (simp_all; done))

theorem execHaltReceipt_safe (p b orig kind : Nat) (s : State) (t : State) (h : Safe s) (e : execHaltReceipt p b orig kind s = .next t) : Safe t := by
  unfold execHaltReceipt at e
  cases e; exact safe_of_eq (by simp) (by simp) h

theorem execRestart_safe (p : Nat) (s : State) (t : State) (h : Safe s) (e : execRestart p s = .next t) : Safe t := by
  unfold execRestart at e
  cases e; exact safe_of_eq (by simp) (by simp) h

theorem execCorrectionPulse_safe (p : Nat) (x : Pulse) (s : State) (t : State) (h : Safe s)
    (e : execCorrectionPulse p x s = .next t) : Safe t := by
  unfold execCorrectionPulse at e
  obtain rfl := Host.Outcome.next.inj e
  exact if_safe h h

theorem execTimestampExchange_safe (p : Nat) (skew : Int) (s : State) (t : State) (h : Safe s) (e : execTimestampExchange p skew s = .next t) : Safe t := by
  unfold execTimestampExchange at e
  cases e; exact safe_of_eq (by simp) (by simp) h

theorem execPtpMessage_safe (p : Nat) (offset : Int) (s : State) (t : State) (h : Safe s) (e : execPtpMessage p offset s = .next t) : Safe t := by
  unfold execPtpMessage at e
  cases e; exact safe_of_eq (by simp) (by simp) h

theorem execHashmHeldWrite_safe (p k : Nat) (x : Word) (s : State) (t : State) (h : Safe s) (e : execHashmHeldWrite p k x s = .next t) : Safe t := by
  unfold execHashmHeldWrite at e
  cases e; exact safe_of_eq (by simp) (by simp) h

theorem execWatchdogExpiry_safe (g : Nat) (s : State) (t : State) (h : Safe s) (e : execWatchdogExpiry g s = .next t) : Safe t := by
  unfold execWatchdogExpiry at e
  dsimp only at e
  repeat' split at e
  all_goals cases e
  all_goals first | exact h | (refine safe_of_eq ?_ ?_ h <;> first | rfl | (simp; done) | (simp_all; done))

theorem execSwtch_safe (g : Nat) (s : State) (t : State) (h : Safe s) (e : execSwtch g s = .next t) : Safe t := by
  unfold execSwtch at e
  dsimp only at e
  repeat' split at e
  all_goals cases e
  all_goals first | exact h | (refine safe_of_eq ?_ ?_ h <;> first | rfl | (simp; done) | (simp_all; done))

theorem execSpill_safe (p c g k : Nat) (s : State) (t : State) (h : Safe s) (e : execSpill p c g k s = .next t) : Safe t := by
  unfold execSpill at e
  dsimp only at e
  repeat' split at e
  all_goals cases e
  all_goals first | exact h | (refine safe_of_eq ?_ ?_ h <;> first | rfl | (simp; done) | (simp_all; done))

theorem execSpilledReplyWrite_safe (l : Nat) (s : State) (t : State) (h : Safe s) (e : execSpilledReplyWrite l s = .next t) : Safe t := by
  unfold execSpilledReplyWrite at e
  cases e; exact safe_of_eq (by simp) (by simp) h

theorem execFillComplete_safe (g : Nat) (s : State) (t : State) (h : Safe s) (e : execFillComplete g s = .next t) : Safe t := by
  unfold execFillComplete at e
  split at e
  · obtain rfl := Host.Outcome.next.inj e; exact h
  · next x _ =>
    split at e
    · obtain rfl := Host.Outcome.next.inj e; exact h
    · have h1 : Safe (s.fillStep x.pkg g x.fills).2 := State.fillStep_safe s _ _ _ h
      obtain rfl := Host.Outcome.next.inj e
      exact if_safe (safe_of_eq rfl rfl h1) (safe_of_eq rfl rfl h1)

theorem execCanaryWarning_safe (p island : Nat) (s : State) (t : State) (h : Safe s) (e : execCanaryWarning p island s = .next t) : Safe t := by
  unfold execCanaryWarning at e
  dsimp only at e
  repeat' split at e
  all_goals cases e
  all_goals first | exact h | (refine safe_of_eq ?_ ?_ h <;> first | rfl | (simp; done) | (simp_all; done))

theorem execPowerMeasurement_safe (p watts : Nat) (s : State) (t : State) (h : Safe s) (e : execPowerMeasurement p watts s = .next t) : Safe t := by
  unfold execPowerMeasurement at e
  dsimp only at e
  split at e <;> obtain rfl := Host.Outcome.next.inj e <;> exact h

theorem execSpdmCert_safe (p slot : Nat) (s : State) (t : State) (h : Safe s) (e : execSpdmCert p slot s = .next t) : Safe t := by
  unfold execSpdmCert at e
  cases e; exact safe_of_eq (by simp) (by simp) h

theorem execSpdmChal_safe (p slot nonce : Nat) (s : State) (t : State) (h : Safe s) (e : execSpdmChal p slot nonce s = .next t) : Safe t := by
  unfold execSpdmChal at e
  cases e; exact safe_of_eq (by simp) (by simp) h

theorem execSpdmMeas_safe (p index : Nat) (s : State) (t : State) (h : Safe s) (e : execSpdmMeas p index s = .next t) : Safe t := by
  unfold execSpdmMeas at e
  cases e; exact safe_of_eq (by simp) (by simp) h

theorem execHostCompletionArrival_safe (p i : Nat) (ok : Bool) (data : List Byte) (s : State) (t : State) (h : Safe s) (e : execHostCompletionArrival p i ok data s = .next t) : Safe t := by
  unfold execHostCompletionArrival at e
  dsimp only at e
  repeat' split at e
  all_goals cases e
  all_goals first | exact h | (refine safe_of_eq ?_ ?_ h <;> first | rfl | (simp; done) | (simp_all; done))

theorem execAtsTranslationResponse_safe (p i : Nat) (found rd wr : Bool) (pa : Nat) (s : State) (t : State) (h : Safe s) (e : execAtsTranslationResponse p i found rd wr pa s = .next t) : Safe t := by
  unfold execAtsTranslationResponse at e
  dsimp only at e
  repeat' split at e
  all_goals cases e
  all_goals first | exact h | (refine safe_of_eq ?_ ?_ h <;> first | rfl | (simp; done) | (simp_all; done))

theorem execPriPageResponse_safe (p i : Nat) (success : Bool) (s : State) (t : State) (h : Safe s) (e : execPriPageResponse p i success s = .next t) : Safe t := by
  unfold execPriPageResponse at e
  dsimp only at e
  repeat' split at e
  all_goals cases e
  all_goals first | exact h | (refine safe_of_eq ?_ ?_ h <;> first | rfl | (simp; done) | (simp_all; done))

theorem execAtsInvalidateRequest_safe (p base size : Nat) (s : State) (t : State) (h : Safe s) (e : execAtsInvalidateRequest p base size s = .next t) : Safe t := by
  unfold execAtsInvalidateRequest at e
  cases e; exact safe_of_eq (by simp) (by simp) h

theorem execBar2HostAccess_safe (p off n : Nat) (write : Bool) (data : List Byte) (s : State) (t : State) (h : Safe s) (e : execBar2HostAccess p off n write data s = .next t) : Safe t := by
  unfold execBar2HostAccess at e
  dsimp only at e
  repeat' split at e
  all_goals cases e
  all_goals first | exact h | (refine safe_of_eq ?_ ?_ h <;> first | rfl | (simp; done) | (simp_all; done))

theorem execUalinkTargetRequest_safe (p stn : Nat) (r : UalReq) (s : State) (t : State) (h : Safe s) (e : execUalinkTargetRequest p stn r s = .next t) : Safe t := by
  unfold execUalinkTargetRequest at e
  repeat' split at e
  all_goals obtain rfl := Host.Outcome.next.inj e
  all_goals exact safe_of_eq (by simp) (by simp) h

/-- A request that is turned away leaves both stores alone. -/
theorem execCtxCreate_safe (p tag : Nat) (x : CtxSpec) (s : State) (t : State) (h : Safe s) (e : execCtxCreate p tag x s = .next t) : Safe t := by
  unfold execCtxCreate at e
  refine State.request_safe s t p tag _ h e fun e => ?_
  dsimp only at e
  repeat' split at e
  all_goals obtain rfl := Host.Outcome.next.inj e
  all_goals first | exact h | (refine safe_of_eq ?_ ?_ h <;> first | rfl | (simp; done) | (simp_all; done))

theorem execLaunchRequest_safe (p tag ctx desc join njoin : Nat) (s : State) (t : State) (h : Safe s) (e : execLaunchRequest p tag ctx desc join njoin s = .next t) : Safe t := by
  unfold execLaunchRequest at e
  refine State.request_safe s t p tag _ h e fun e => ?_
  dsimp only at e
  repeat' split at e
  all_goals cases e
  all_goals first | exact h | (refine safe_of_eq ?_ ?_ h <;> first | rfl | (simp; done) | (simp_all; done))

theorem execKillRequest_safe (p tag gang : Nat) (s : State) (t : State) (h : Safe s) (e : execKillRequest p tag gang s = .next t) : Safe t := by
  unfold execKillRequest at e
  refine State.request_safe s t p tag _ h e fun e => ?_
  split at e <;> cases e
  all_goals first | exact h | (refine safe_of_eq ?_ ?_ h <;> first | rfl | (simp; done) | (simp_all; done))

theorem execShiftRequest_safe (p tag cyc out inc : Nat) (s : State) (t : State) (h : Safe s) (e : execShiftRequest p tag cyc out inc s = .next t) : Safe t := by
  unfold execShiftRequest at e
  refine State.request_safe s t p tag _ h e fun e => ?_
  dsimp only at e
  repeat' split at e
  all_goals cases e
  all_goals first | exact h | (refine safe_of_eq ?_ ?_ h <;> first | rfl | (simp; done) | (simp_all; done))

theorem execSchedSet_safe (p tag ctx va boundary : Nat) (s : State) (t : State) (h : Safe s) (e : execSchedSet p tag ctx va boundary s = .next t) : Safe t := by
  have hr (u : State) (hu : Safe u) (k st : Nat) : Safe (u.respond p k st []) := hu
  have ho (u : State) (hu : Safe u) (k : Option Nat) (st : Nat) : Safe (u.respondTo p k st) :=
    safe_of_eq (State.respondTo_mem _ _ _ _) (State.respondTo_acc _ _ _ _) hu
  have hn (u : State) (hu : Safe u) (f : Pkg → Pkg) (n : Nat) : Safe ((u.modPkg p f).once n 1 [p] (.frameBoundary p)) :=
    safe_of_eq (State.once_mem _ _ _ _ _) (State.once_acc _ _ _ _ _) (safe_of_eq (State.modPkg_mem _ _ _) (State.modPkg_acc _ _ _) hu)
  unfold execSchedSet at e
  refine State.request_safe s t p tag _ h e fun e => ?_
  split at e
  · split at e
    · obtain rfl := Host.Outcome.next.inj e; exact hr _ h _ _
    · split at e
      · obtain rfl := Host.Outcome.next.inj e; exact hr _ h _ _
      · obtain rfl := Host.Outcome.next.inj e; exact hn _ (ho _ h _ _) _ _
  · obtain rfl := Host.Outcome.next.inj e; exact hr _ h _ _

theorem execSchedClear_safe (p tag : Nat) (s : State) (t : State) (h : Safe s) (e : execSchedClear p tag s = .next t) : Safe t := by
  unfold execSchedClear at e
  refine State.request_safe s t p tag _ h e fun e => ?_
  repeat' split at e
  all_goals obtain rfl := Host.Outcome.next.inj e
  all_goals first | exact h | (refine safe_of_eq ?_ ?_ h <;> first | rfl | (simp; done) | (simp_all; done))

theorem execRestartRequest_safe (p tag : Nat) (x : RestartAt) (s : State) (t : State) (h : Safe s) (e : execRestartRequest p tag x s = .next t) : Safe t := by
  unfold execRestartRequest at e
  refine State.request_safe s t p tag _ h e fun e => ?_
  repeat' split at e
  all_goals obtain rfl := Host.Outcome.next.inj e
  all_goals first | exact h | (refine safe_of_eq ?_ ?_ h <;> first | rfl | (simp; done) | (simp_all; done))

theorem execConfig_safe (p tag : Nat) (x : ConfigItem) (s : State) (t : State) (h : Safe s) (e : execConfig p tag x s = .next t) : Safe t := by
  unfold execConfig at e
  refine State.request_safe s t p tag _ h e fun e => ?_
  dsimp only at e
  repeat' split at e
  all_goals obtain rfl := Host.Outcome.next.inj e
  all_goals first | exact h | (refine safe_of_eq ?_ ?_ h <;> first | rfl | (simp; done) | (simp_all; done))

theorem execThrottleClear_safe (p tag : Nat) (s : State) (t : State) (h : Safe s) (e : execThrottleClear p tag s = .next t) : Safe t := by
  unfold execThrottleClear at e
  refine State.request_safe s t p tag _ h e fun e => ?_
  repeat' split at e
  all_goals obtain rfl := Host.Outcome.next.inj e
  all_goals first | exact h | (refine safe_of_eq ?_ ?_ h <;> first | rfl | (simp; done) | (simp_all; done))

theorem execNotify_safe (p tag kinds : Nat) (s : State) (t : State) (h : Safe s) (e : execNotify p tag kinds s = .next t) : Safe t := by
  unfold execNotify at e
  refine State.request_safe s t p tag _ h e fun e => ?_
  repeat' split at e
  all_goals obtain rfl := Host.Outcome.next.inj e
  all_goals first | exact h | (refine safe_of_eq ?_ ?_ h <;> first | rfl | (simp; done) | (simp_all; done))

theorem execRingMessageDeparture_safe (p c i : Nat) (s : State) (t : State) (h : Safe s) (e : execRingMessageDeparture p c i s = .next t) : Safe t := by
  unfold execRingMessageDeparture at e
  dsimp only at e
  repeat' split at e
  all_goals cases e
  all_goals first | exact h | (refine safe_of_eq ?_ ?_ h <;> first | rfl | (simp; done) | (simp_all; done))

theorem execLinkTraining_safe (p n wire : Nat) (up : Bool) (s : State) (t : State) (h : Safe s) (e : execLinkTraining p n wire up s = .next t) : Safe t := by
  unfold execLinkTraining at e
  cases e; exact safe_of_eq (by simp) (by simp) h

theorem execJoinTimeout_safe (p join : Nat) (s : State) (t : State) (h : Safe s) (e : execJoinTimeout p join s = .next t) : Safe t := by
  unfold execJoinTimeout at e
  split at e <;> cases e
  all_goals first | exact h | (refine safe_of_eq ?_ ?_ h <;> first | rfl | (simp; done) | (simp_all; done))

theorem execSpdmNegotiation_safe (p version : Nat) (p256 sha256 : Bool) (s : State) (t : State) (h : Safe s) (e : execSpdmNegotiation p version p256 sha256 s = .next t) : Safe t := by
  unfold execSpdmNegotiation at e
  split at e <;> cases e
  all_goals first | exact h | (refine safe_of_eq ?_ ?_ h <;> first | rfl | (simp; done) | (simp_all; done))

theorem execSpdmUnsupportedRequest_safe (p code : Nat) (s : State) (t : State) (h : Safe s) (e : execSpdmUnsupportedRequest p code s = .next t) : Safe t := by
  unfold execSpdmUnsupportedRequest at e
  cases e; exact safe_of_eq (by simp) (by simp) h

theorem State.offerAll_safe (p : Nat) (l : List Elem) (s : State) (h : Safe s) : Safe (State.offerAll p l s) := by
  induction l generalizing s with
  | nil => exact h
  | cons x l ih =>
    unfold State.offerAll
    rcases e : s.offer p x with ⟨s', b⟩
    have hm := State.offer_mem s p x
    have ha := State.offer_acc s p x
    rw [e] at hm ha
    split
    · exact h
    · cases b
      · exact safe_of_eq hm ha h
      · exact ih s' (safe_of_eq hm ha h)

theorem State.enterWaiting_safe (p n : Nat) (s : State) (h : Safe s) : Safe (State.enterWaiting p n s) := by
  induction n generalizing s with
  | zero => exact h
  | succ n ih =>
    unfold State.enterWaiting
    split
    · exact h
    · next x l _ =>
      rcases e : s.offer p x with ⟨s', b⟩
      have hm := State.offer_mem s p x
      have ha := State.offer_acc s p x
      rw [e] at hm ha
      cases b
      · exact safe_of_eq hm ha h
      · exact ih _ (safe_of_eq hm ha h)

theorem State.advanceHead_safe (s : State) (p c n : Nat) (h : Safe s) : Safe (s.advanceHead p c n) := by
  induction n generalizing s with
  | zero => exact h
  | succ n ih =>
    unfold State.advanceHead
    split
    · exact h
    · split
      · exact h
      · split
        · exact ih _ (safe_of_eq (by simp) (by simp) h)
        · exact h

theorem execBarnRoundComplete_safe (t scope : Nat) (s u : State) (h : Safe s) (e : execBarnRoundComplete t scope s = .next u) :
    Safe u := by obtain rfl := Host.Outcome.next.inj e; exact h

theorem execWaitcRelease_safe (t : Nat) (s u : State) (h : Safe s) (e : execWaitcRelease t s = .next u) : Safe u := by
  obtain rfl := Host.Outcome.next.inj e; exact h

theorem execCsrWrite_safe (t idx : Nat) (kind : CsrKind) (old x : Word) (s u : State) (h : Safe s)
    (e : execCsrWrite t idx kind old x s = .next u) : Safe u := by
  unfold execCsrWrite at e; obtain rfl := Host.Outcome.next.inj e; exact safe_of_eq (State.csrWrite_mem _ _ _ _ _ _) (State.csrWrite_acc _ _ _ _ _ _) h

theorem execCtxDestroy_safe (p tag ctx : Nat) (s u : State) (h : Safe s) (e : execCtxDestroy p tag ctx s = .next u) : Safe u := by
  unfold execCtxDestroy at e
  refine State.request_safe s u p tag _ h e fun e => ?_
  split at e
  · obtain rfl := Host.Outcome.next.inj e; exact h
  · split at e
    · obtain rfl := Host.Outcome.next.inj e; exact h
    · obtain rfl := Host.Outcome.next.inj e
      refine safe_of_eq (State.respond_mem _ _ _ _ _) (State.respond_acc _ _ _ _ _) ?_
      refine foldl_safe _ _ ?_ _ ?_
      · intro s c hs; exact hs
      · exact ⟨h.1, h.2⟩

theorem execFenceCompletion_safe (t : Nat) (s u : State) (h : Safe s) (e : execFenceCompletion t s = .next u) : Safe u := by
  unfold execFenceCompletion at e
  split at e
  · obtain rfl := Host.Outcome.next.inj e; exact h
  · obtain rfl := Host.Outcome.next.inj e
    refine foldl_safe _ _ ?_ _ h
    intro s w hs; exact safe_of_eq (State.fenceEnds_mem _ _ _) (State.fenceEnds_acc _ _ _) hs

theorem execPodFenceTimeout_safe (t c : Nat) (s u : State) (h : Safe s) (e : execPodFenceTimeout t c s = .next u) : Safe u := by
  unfold execPodFenceTimeout at e
  split at e
  · obtain rfl := Host.Outcome.next.inj e; exact h
  · obtain rfl := Host.Outcome.next.inj e
    exact if_safe h (safe_of_eq (by simp) (by simp) h)

theorem State.atEach_safe (n p : Nat) (ks : List Nat) (s : State) (h : Safe s) :
    Safe (ks.foldl (fun s k => s.at n pMid [p, k] (.computeBoundRefresh p k)) s) := by
  refine foldl_safe _ _ ?_ _ h
  intro s k hs; exact hs

theorem execFrameBoundary_safe (p : Nat) (s u : State) (h : Safe s) (e : execFrameBoundary p s = .next u) : Safe u := by
  unfold execFrameBoundary at e
  generalize List.range 512 = ks at e
  extract_lets x fresh s0 s1 at e
  have h1 : Safe s1 := safe_of_eq (State.modPkg_mem _ _ _) (State.modPkg_acc _ _ _)
    (if_safe (safe_of_eq (by simp) (by simp) h) h)
  clear_value s1 fresh
  split at e
  · obtain rfl := Host.Outcome.next.inj e; exact h1
  · split at e
    · obtain rfl := Host.Outcome.next.inj e; exact h1
    · extract_lets s2 at e
      have h2 : Safe s2 := safe_of_eq (State.once_mem _ _ _ _ _) (State.once_acc _ _ _ _ _) h1
      clear_value s2
      obtain rfl := Host.Outcome.next.inj e
      refine if_safe h2 ?_
      split
      · exact h2
      · exact State.atEach_safe _ _ _ _ h2

theorem execGangKill_safe (g cause : Nat) (s u : State) (h : Safe s) (e : execGangKill g cause s = .next u) : Safe u := by
  unfold execGangKill at e
  dsimp only at e
  split at e
  · obtain rfl := Host.Outcome.next.inj e; exact h
  · split at e
    · obtain rfl := Host.Outcome.next.inj e; exact h
    · split at e
      · obtain rfl := Host.Outcome.next.inj e
        exact if_safe (safe_of_eq (State.killNow_mem _ _) (State.killNow_acc _ _) h) h
      · obtain rfl := Host.Outcome.next.inj e
        refine safe_of_eq (State.killNow_mem _ _) (State.killNow_acc _ _) ?_
        exact safe_of_eq (State.modGang_mem _ _ _) (State.modGang_acc _ _ _) h

theorem State.lsPuts_safe {α : Type} (p : Nat) (l : List α) (c off : α → Nat) (bs : α → List Byte) (a : α → Agent) (s : State)
    (h : Safe s) : Safe (l.foldl (fun (s : State) x => s.lsPut p (c x) (off x) (bs x) (a x)) s) :=
  foldl_safe _ _ (fun s x hs => State.lsPut_safe s _ _ _ _ _ hs) _ h

theorem execGrinderGroup_safe (p c n part : Nat) (s u : State) (h : Safe s) (e : execGrinderGroup p c n part s = .next u) :
    Safe u := by
  unfold execGrinderGroup at e
  split at e
  · obtain rfl := Host.Outcome.next.inj e; exact h
  · next k _ =>
    dsimp only at e
    split at e
    · split at e
      · obtain rfl := Host.Outcome.next.inj e; exact safe_of_eq (by simp) (by simp) h
      · obtain rfl := Host.Outcome.next.inj e; exact if_safe (safe_of_eq (by simp) (by simp) h) (safe_of_eq (by simp) (by simp) h)
    · obtain rfl := Host.Outcome.next.inj e
      have := State.lsPuts_safe p (k.groupWrites n (k.buffer n)).1 (fun _ => c) (fun w => s.cardBase k + w.1) (·.2)
        (fun _ => .engine 3 c) s h
      exact if_safe (safe_of_eq (by simp) (by simp) this) (safe_of_eq (by simp) (by simp) this)

theorem execHaltAtBoundary_safe (p : Nat) (s u : State) (h : Safe s) (e : execHaltAtBoundary p s = .next u) : Safe u := by
  unfold execHaltAtBoundary at e
  split at e
  · obtain rfl := Host.Outcome.next.inj e; exact h
  · split at e
    · obtain rfl := Host.Outcome.next.inj e; exact h
    · obtain rfl := Host.Outcome.next.inj e
      refine foldl_safe _ _ (fun s t hs => safe_of_eq (by simp) (by simp) hs) _ ?_
      refine foldl_safe _ _ ?_ _ h
      intro s c hs
      dsimp only
      split
      · exact hs
      · exact safe_of_eq (by simp) (by simp) hs

theorem execHashm8Apply_safe (p : Nat) (x : Word) (s u : State) (h : Safe s) (e : execHashm8Apply p x s = .next u) : Safe u := by
  unfold execHashm8Apply at e
  obtain rfl := Host.Outcome.next.inj e
  exact if_safe (State.setHash_safe _ _ _ h) h

theorem execMatrixTileChunk_safe (p c i part : Nat) (s u : State) (h : Safe s) (e : execMatrixTileChunk p c i part s = .next u) :
    Safe u := by
  unfold execMatrixTileChunk at e
  split at e
  · obtain rfl := Host.Outcome.next.inj e; exact h
  · next k _ =>
    dsimp only at e
    split at e
    · obtain rfl := Host.Outcome.next.inj e
      exact safe_of_eq (State.nextTile_mem _ _ _ _ _ _ _ _) (State.nextTile_acc _ _ _ _ _ _ _ _) (State.accWrite_safe _ _ _ h)
    · split at e
      · split at e
        · obtain rfl := Host.Outcome.next.inj e; exact safe_of_eq (by simp) (by simp) h
        · obtain rfl := Host.Outcome.next.inj e; exact if_safe (safe_of_eq (by simp) (by simp) h) (safe_of_eq (by simp) (by simp) h)
      · obtain rfl := Host.Outcome.next.inj e
        refine if_safe ?_ ?_
        · exact safe_of_eq (State.finishCard_mem _ _ _ _ _) (State.finishCard_acc _ _ _ _ _) (State.accWrite_safe s _ _ h)
        · exact State.accWrite_safe s _ _ h
    · split at e
      · obtain rfl := Host.Outcome.next.inj e; exact safe_of_eq (by simp) (by simp) h
      · obtain rfl := Host.Outcome.next.inj e
        exact safe_of_eq (State.nextTile_mem _ _ _ _ _ _ _ _) (State.nextTile_acc _ _ _ _ _ _ _ _) (State.lsPut_safe _ _ _ _ _ _
          (safe_of_eq (State.correctAcc_mem _ _ _ _) (State.correctAcc_acc _ _ _ _) h))
    · obtain rfl := Host.Outcome.next.inj e; exact h

theorem execMatrixStep_safe (p c n part : Nat) (s u : State) (h : Safe s) (e : execMatrixStep p c n part s = .next u) : Safe u := by
  unfold execMatrixStep at e
  repeat' split at e
  all_goals (obtain rfl := Host.Outcome.next.inj e)
  · exact h
  · exact h
  · exact safe_of_eq (by simp) (by simp) h
  · exact State.mmWrite_safe _ _ _ _ _ h

theorem execMigdrainReply_safe (i : Nat) (timeout : Bool) (s u : State) (h : Safe s) (e : execMigdrainReply i timeout s = .next u) :
    Safe u := by
  unfold execMigdrainReply at e
  repeat' split at e
  all_goals (obtain rfl := Host.Outcome.next.inj e)
  all_goals first | exact h | exact safe_of_eq (by simp) (by simp) h

theorem execMm_safe (p c i : Nat) (s u : State) (h : Safe s) (e : execMm p c i s = .next u) : Safe u := by
  unfold execMm at e
  split at e
  · obtain rfl := Host.Outcome.next.inj e; exact h
  · split at e
    · obtain rfl := Host.Outcome.next.inj e; exact safe_of_eq (by simp) (by simp) h
    · obtain rfl := Host.Outcome.next.inj e; exact h

theorem execPacketTakenIn_safe (p i : Nat) (s u : State) (h : Safe s) (e : execPacketTakenIn p i s = .next u) : Safe u := by
  unfold execPacketTakenIn at e
  split at e
  · obtain rfl := Host.Outcome.next.inj e; exact h
  · obtain rfl := Host.Outcome.next.inj e
    split <;> exact safe_of_eq (by simp) (by simp) h

theorem execPodFenceDrain_safe (t : Nat) (s u : State) (h : Safe s) (e : execPodFenceDrain t s = .next u) : Safe u := by
  unfold execPodFenceDrain at e
  split at e
  · obtain rfl := Host.Outcome.next.inj e; exact h
  · obtain rfl := Host.Outcome.next.inj e; exact safe_of_eq (by simp) (by simp) h

theorem execRemoteOldValueWritten_safe (p i : Nat) (s u : State) (h : Safe s) (e : execRemoteOldValueWritten p i s = .next u) :
    Safe u := by
  unfold execRemoteOldValueWritten at e
  split at e
  · obtain rfl := Host.Outcome.next.inj e; exact h
  · dsimp only at e
    split at e
    · obtain rfl := Host.Outcome.next.inj e
      refine foldl_safe _ _ ?_ _ h
      intro s f hs
      repeat' split
      all_goals first | exact hs | exact safe_of_eq (by simp) (by simp) hs
    · obtain rfl := Host.Outcome.next.inj e; exact h

theorem execRingput_safe (p c i : Nat) (s u : State) (h : Safe s) (e : execRingput p c i s = .next u) : Safe u := by
  unfold execRingput at e
  split at e
  · obtain rfl := Host.Outcome.next.inj e; exact h
  · split at e
    · obtain rfl := Host.Outcome.next.inj e; exact h
    · obtain rfl := Host.Outcome.next.inj e
      refine safe_of_eq (State.at_mem _ _ _ _ _) (State.at_acc _ _ _ _ _) ?_
      refine foldl_safe _ _ ?_ _ (safe_of_eq (by simp) (by simp) h)
      intro s m hs; exact hs

theorem execSendat_safe (p c i : Nat) (s u : State) (h : Safe s) (e : execSendat p c i s = .next u) : Safe u := by
  unfold execSendat at e
  split at e
  · obtain rfl := Host.Outcome.next.inj e; exact h
  · next k _ =>
    split at e
    · obtain rfl := Host.Outcome.next.inj e; exact h
    · obtain rfl := Host.Outcome.next.inj e
      have : ∀ (l : List (Nat × Nat)) (s : State), Safe s →
          Safe (l.foldl (fun (s : State) z => s.at z.2 pRead [c, c, z.1] (.sendatChunkRead p c i z.1)) s) := by
        intro l s hs
        refine foldl_safe _ _ ?_ _ hs
        intro s z hs; exact hs
      split <;> split
      all_goals first
        | exact this _ _ (safe_of_eq (by simp) (by simp) h)
        | exact safe_of_eq (State.cardSch_mem _ _ _ _ _) (State.cardSch_acc _ _ _ _ _) (this _ _ (safe_of_eq (by simp) (by simp) h))

theorem execScheduleFault_safe (p kind core slot ctx : Nat) (s u : State) (h : Safe s)
    (e : execScheduleFault p kind core slot ctx s = .next u) : Safe u := by
  unfold execScheduleFault at e
  obtain rfl := Host.Outcome.next.inj e
  split
  · exact safe_of_eq (by simp) (by simp) h
  · exact safe_of_eq (by simp) (by simp) h

theorem execSpillComplete_safe (g : Nat) (s u : State) (h : Safe s) (e : execSpillComplete g s = .next u) : Safe u := by
  unfold execSpillComplete at e
  repeat' split at e
  all_goals (obtain rfl := Host.Outcome.next.inj e)
  all_goals first | exact h | exact safe_of_eq (by simp) (by simp) h

theorem execTeamEnd_safe (t : Nat) (s u : State) (h : Safe s) (e : execTeamEnd t s = .next u) : Safe u := by
  unfold execTeamEnd at e
  split at e
  · obtain rfl := Host.Outcome.next.inj e; exact h
  · dsimp only at e
    split at e
    · obtain rfl := Host.Outcome.next.inj e; exact h
    · obtain rfl := Host.Outcome.next.inj e
      refine if_safe ?_ (safe_of_eq (by simp) (by simp) h)
      refine foldl_safe _ _ (fun s c hs => safe_of_eq (by simp) (by simp) hs) _ ?_
      exact safe_of_eq (by simp) (by simp) h

theorem execTflushEffect_safe (p t : Nat) (key : Word) (s u : State) (h : Safe s) (e : execTflushEffect p t key s = .next u) :
    Safe u := by
  unfold execTflushEffect at e
  obtain rfl := Host.Outcome.next.inj e
  exact if_safe (safe_of_eq (by simp) (by simp) h) (if_safe (safe_of_eq (by simp) (by simp) h) h)

theorem execTrapEntry_safe (t : Nat) (s u : State) (h : Safe s) (e : execTrapEntry t s = .next u) : Safe u := by
  unfold execTrapEntry at e
  dsimp only at e
  repeat' split at e
  all_goals (obtain rfl := Host.Outcome.next.inj e)
  all_goals first | exact h | exact safe_of_eq (by simp) (by simp) h

theorem execTubFreeInsertion_safe (p : Nat) (s u : State) (h : Safe s) (e : execTubFreeInsertion p s = .next u) : Safe u := by
  unfold execTubFreeInsertion at e
  obtain rfl := Host.Outcome.next.inj e
  exact State.enterWaiting_safe _ _ _ h

theorem execTubOffer_safe (i : Nat) (s u : State) (h : Safe s) (e : execTubOffer i s = .next u) : Safe u := by
  unfold execTubOffer at e
  split at e
  · obtain rfl := Host.Outcome.next.inj e; exact h
  · obtain rfl := Host.Outcome.next.inj e
    refine State.offerAll_safe _ _ _ (if_safe ?_ h)
    exact safe_of_eq (by simp) (by simp) h

theorem execTubageWrite_safe (p : Nat) (x : Word) (s u : State) (h : Safe s) (e : execTubageWrite p x s = .next u) : Safe u := by
  unfold execTubageWrite at e
  obtain rfl := Host.Outcome.next.inj e
  refine foldl_safe _ _ ?_ _ h
  intro s z hs; exact hs

theorem execTuberrHeadAdvance_safe (i : Nat) (s u : State) (h : Safe s) (e : execTuberrHeadAdvance i s = .next u) : Safe u := by
  unfold execTuberrHeadAdvance at e
  split at e
  · obtain rfl := Host.Outcome.next.inj e; exact h
  · obtain rfl := Host.Outcome.next.inj e; exact State.advanceHead_safe _ _ _ _ h

theorem execTuberrRecordWrite_safe (i : Nat) (s u : State) (h : Safe s) (e : execTuberrRecordWrite i s = .next u) : Safe u := by
  unfold execTuberrRecordWrite at e
  split at e
  · obtain rfl := Host.Outcome.next.inj e; exact h
  · split at e
    · obtain rfl := Host.Outcome.next.inj e; exact h
    · next x _ _ r _ =>
      dsimp only [State.fresh] at e
      repeat' split at e
      all_goals (obtain rfl := Host.Outcome.next.inj e)
      all_goals first
        | exact h
        | exact safe_of_eq (State.at_mem _ _ _ _ _) (State.at_acc _ _ _ _ _)
            (State.lsPut_safe (s.modCtx x.pkg x.num fun z => z.modPend i fun r => { r with written := true }) _ _ _ _ _ h)
        | exact safe_of_eq (by simp) (by simp) h

theorem execWaitphDeadline_safe (t : Nat) (s u : State) (h : Safe s) (e : execWaitphDeadline t s = .next u) : Safe u := by
  unfold execWaitphDeadline at e
  split at e
  · obtain rfl := Host.Outcome.next.inj e; exact h
  · obtain rfl := Host.Outcome.next.inj e
    refine foldl_safe _ _ ?_ _ h
    intro s w hs
    dsimp only
    repeat' split
    all_goals first | exact hs | exact safe_of_eq (by simp) (by simp) hs

theorem execFillRequest_safe (p tag gang half : Nat) (s u : State) (h : Safe s) (e : execFillRequest p tag gang half s = .next u) :
    Safe u := by
  unfold execFillRequest at e
  refine State.request_safe s u p tag _ h e fun e => ?_
  repeat' split at e
  all_goals (obtain rfl := Host.Outcome.next.inj e)
  · exact h
  · exact h
  · exact h
  · refine safe_of_eq (State.respond_mem _ _ _ _ _) (State.respond_acc _ _ _ _ _) ?_
    exact foldl_safe _ _ (fun s z hs => safe_of_eq (by simp) (by simp) hs) _ h

theorem execGangEnd_safe (g : Nat) (s u : State) (h : Safe s) (e : execGangEnd g s = .next u) : Safe u := by
  unfold execGangEnd at e
  repeat' split at e
  all_goals (obtain rfl := Host.Outcome.next.inj e)
  · exact h
  · next x _ _ =>
    exact safe_of_eq (State.notice_mem _ _ _ _ _) (State.notice_acc _ _ _ _ _)
      (State.writeStatus_safe _ _ _ _ (safe_of_eq (by simp) (by simp) h))
  · exact h
  · exact h

theorem execStagedStorePerformed_safe (i : Nat) (s u : State) (h : Safe s) (e : execStagedStorePerformed i s = .next u) : Safe u := by
  unfold execStagedStorePerformed at e
  split at e
  · obtain rfl := Host.Outcome.next.inj e; exact h
  · next x _ =>
    obtain rfl := Host.Outcome.next.inj e
    split
    · exact safe_of_eq (State.dropStaged_mem _ _) (State.dropStaged_acc _ _) (State.putStaged_safe _ _ _ h)
    · exact safe_of_eq (State.dropStaged_mem _ _) (State.dropStaged_acc _ _) (State.lsPut_safe _ _ _ _ _ _ h)
    · exact safe_of_eq (State.dropStaged_mem _ _) (State.dropStaged_acc _ _) (State.putAcc_safe _ _ h)
    · exact safe_of_eq (State.dropStaged_mem _ _) (State.dropStaged_acc _ _) h

theorem execLsAtomicPerformed_safe (i : Nat) (s u : State) (h : Safe s) (e : execLsAtomicPerformed i s = .next u) : Safe u := by
  unfold execLsAtomicPerformed at e
  split at e
  · obtain rfl := Host.Outcome.next.inj e; exact h
  · split at e
    · next f _ =>
      have hp := State.performLanes_safe s f 4 (fun x => decide (x.st = LaneSt.moving)) h
      obtain rfl := Host.Outcome.next.inj e
      exact safe_of_eq (by simp) (by simp) hp
    · obtain rfl := Host.Outcome.next.inj e; exact safe_of_eq (by simp) (by simp) h

theorem execPackageGlobalAccess_safe (i : Nat) (s u : State) (h : Safe s) (e : execPackageGlobalAccess i s = .next u) : Safe u := by
  unfold execPackageGlobalAccess at e
  obtain rfl := Host.Outcome.next.inj e
  exact State.performLanes_safe s _ _ _ h

theorem execSegmentServed_safe (p n : Nat) (s u : State) (h : Safe s) (e : execSegmentServed p n s = .next u) : Safe u := by
  unfold execSegmentServed at e
  dsimp only at e
  split at e
  · obtain rfl := Host.Outcome.next.inj e; exact h
  · split at e
    · obtain rfl := Host.Outcome.next.inj e; exact h
    · split at e
      · obtain rfl := Host.Outcome.next.inj e; exact safe_of_eq (by simp) (by simp) h
      · obtain rfl := Host.Outcome.next.inj e
        exact State.serve_safe _ _ _ (safe_of_eq (by simp) (by simp) h)

theorem execRefreshPhasePoint_safe (p k : Nat) (s u : State) (h : Safe s) (e : execRefreshPhasePoint p k s = .next u) : Safe u := by
  unfold execRefreshPhasePoint at e
  generalize List.range 8 = ks at e
  dsimp only at e
  split at e
  · obtain rfl := Host.Outcome.next.inj e
    have hs : Safe (ks.foldl (fun (s : State) st => s.refreshOne p (64 * st + k)) s) := by
      refine foldl_safe _ _ ?_ _ h
      intro s x hs; exact safe_of_eq (State.refreshOne_mem _ _ _) (State.refreshOne_acc _ _ _) hs
    exact if_safe (safe_of_eq (State.at_mem _ _ _ _ _) (State.at_acc _ _ _ _ _) hs) hs
  · obtain rfl := Host.Outcome.next.inj e
    refine foldl_safe _ _ ?_ _ h
    intro s x hs; exact safe_of_eq (State.checkRefresh_mem _ _ _) (State.checkRefresh_acc _ _ _) hs

theorem execElementPerformed_safe (p i j : Nat) (s u : State) (h : Safe s) (e : execElementPerformed p i j s = .next u) : Safe u := by
  unfold execElementPerformed at e
  split at e
  · obtain rfl := Host.Outcome.next.inj e; exact h
  · split at e
    · obtain rfl := Host.Outcome.next.inj e; exact h
    · next x _ _ y _ =>
      have hp : Safe (if y.fault ≠ 0 then (s, 0, y.fault) else s.performElem p x.src y).1 := by
        split
        · exact h
        · exact State.performElem_safe s p x.src y h
      generalize (if y.fault ≠ 0 then (s, 0, y.fault) else s.performElem p x.src y) = z at e hp
      dsimp only at e
      obtain rfl := Host.Outcome.next.inj e
      exact if_safe (safe_of_eq (by simp) (by simp) hp) (safe_of_eq (by simp) (by simp) hp)

theorem execBarrierObjectUpdate_safe (i : Nat) (s u : State) (h : Safe s) (e : execBarrierObjectUpdate i s = .next u) : Safe u := by
  unfold execBarrierObjectUpdate at e
  split at e
  · obtain rfl := Host.Outcome.next.inj e; exact h
  · next x _ =>
    dsimp only at e
    obtain rfl := Host.Outcome.next.inj e
    have seen (s : State) (off : Nat) (hs : Safe s) :
        Safe ((s.knowObj x.pkg (lsPa x.core off)).watch x.pkg x.core off 16 true (.lane x.team x.core x.from_.words)) :=
      safe_of_eq (State.watch_mem _ _ _ _ _ _ _) (State.watch_acc _ _ _ _ _ _ _)
        (safe_of_eq (State.knowObj_mem _ _ _) (State.knowObj_acc _ _ _) hs)
    have hd : Safe (s.dropStaged i) := safe_of_eq (by simp) (by simp) h
    generalize s.dropStaged i = s at hd
    split
    · exact safe_of_eq (by simp) (by simp) hd
    have hd : Safe (s.meetUpdate x) := safe_of_eq (State.meetUpdate_mem _ _) (State.meetUpdate_acc _ _) hd
    generalize s.meetUpdate x = s at hd
    split
    · exact seen _ _ (State.wr_safe _ _ _ _ hd)
    · exact State.complete_safe _ _ _ (seen _ _ (State.wr_safe _ _ _ _ hd))
    · exact State.complete_safe _ _ _ (seen _ _ (State.wr_safe _ _ _ _ hd))
    · exact State.credit_safe _ _ _ _ _ (seen _ _ hd)
    · exact hd

theorem execAdmissionCompletion_safe (p : Nat) (s u : State) (h : Safe s) (e : execAdmissionCompletion p s = .next u) : Safe u := by
  unfold execAdmissionCompletion at e
  split at e
  · obtain rfl := Host.Outcome.next.inj e; exact h
  · split at e
    · obtain rfl := Host.Outcome.next.inj e; exact h
    · next a _ _ =>
      extract_lets s1 at e
      have h1 : Safe s1 := safe_of_eq (by simp [s1]) (by simp [s1]) h
      clear_value s1
      dsimp only [State.fresh] at e
      obtain rfl := Host.Outcome.next.inj e
      refine if_safe (State.admitFail_safe _ _ _ _ h1) (if_safe (State.admitFail_safe _ _ _ _ h1)
        (if_safe (State.admitFail_safe _ _ _ _ h1) (if_safe (State.admitFail_safe _ _ _ _ h1) ?_)))
      split
      · exact State.admitFail_safe _ _ _ _ h1
      · refine if_safe (State.admitGang_safe _ _ _ _ _ _ (safe_of_eq rfl rfl h1)) ?_
        exact safe_of_eq (State.modJoin_mem _ _ _) (State.modJoin_acc _ _ _) (State.admitGang_safe _ _ _ _ _ _ (safe_of_eq rfl rfl h1))

theorem execEngineCredit_safe (p c src off n : Nat) (s u : State) (h : Safe s) (e : execEngineCredit p c src off n s = .next u) :
    Safe u := by
  unfold execEngineCredit at e
  obtain rfl := Host.Outcome.next.inj e
  exact State.credit_safe _ _ _ _ _ (safe_of_eq (State.watch_mem _ _ _ _ _ _ _) (State.watch_acc _ _ _ _ _ _ _) h)

theorem execHaulPieceWrite_safe (p c : Nat) (s u : State) (h : Safe s) (e : execHaulPieceWrite p c s = .next u) : Safe u := by
  unfold execHaulPieceWrite at e
  extract_lets s1 at e
  have h1 : Safe s1 := State.doTodos_safe _ _ _ _ h
  clear_value s1
  have h2 (n : Nat) : Safe (s1.haulNext p c n) := safe_of_eq (State.haulNext_mem _ _ _ _) (State.haulNext_acc _ _ _ _) h1
  revert e
  split
  · intro e; obtain rfl := Host.Outcome.next.inj e; exact h1
  · split
    · intro e; obtain rfl := Host.Outcome.next.inj e; exact h1
    · split
      · intro e; obtain rfl := Host.Outcome.next.inj e; exact h2 _
      · intro e; obtain rfl := Host.Outcome.next.inj e
        exact if_safe (State.writePiece_safe _ _ _ _ _ (h2 _)) (h2 _)

theorem execLandingWrite_safe (p c : Nat) (s u : State) (h : Safe s) (e : execLandingWrite p c s = .next u) : Safe u := by
  unfold execLandingWrite at e
  extract_lets now ready s1 s2 at e
  have h1 : Safe s1 := foldl_safe _ _ (fun s x hs => State.lsPut_safe s _ _ _ _ _ hs) _ h
  have h2 : Safe s2 := safe_of_eq (by simp [s2]) (by simp [s2]) h1
  clear_value s1 s2
  obtain rfl := Host.Outcome.next.inj e
  split
  · exact safe_of_eq (by simp) (by simp) h2
  · exact h2

theorem execRingdef_safe (p c i : Nat) (s u : State) (h : Safe s) (e : execRingdef p c i s = .next u) : Safe u := by
  unfold execRingdef at e
  split at e
  · obtain rfl := Host.Outcome.next.inj e; exact h
  · dsimp only at e
    split at e
    · obtain rfl := Host.Outcome.next.inj e; exact h
    · obtain rfl := Host.Outcome.next.inj e
      refine safe_of_eq (State.finishCard_mem _ _ _ _ _) (State.finishCard_acc _ _ _ _ _) ?_
      refine safe_of_eq (State.modCore_mem _ _ _ _) (State.modCore_acc _ _ _ _) (State.lsPut_safe _ _ _ _ _ _ ?_)
      exact safe_of_eq (State.startCard_mem _ _ _ _) (State.startCard_acc _ _ _ _) h

theorem execRingChunkWrite_safe (p c i k : Nat) (s u : State) (h : Safe s) (e : execRingChunkWrite p c i k s = .next u) : Safe u := by
  unfold execRingChunkWrite at e
  dsimp only at e
  split at e
  · obtain rfl := Host.Outcome.next.inj e; exact h
  · split at e
    · obtain rfl := Host.Outcome.next.inj e
      exact if_safe (safe_of_eq (by simp) (by simp) h) h
    · split at e
      · obtain rfl := Host.Outcome.next.inj e; exact safe_of_eq (by simp) (by simp) h
      · split at e
        · obtain rfl := Host.Outcome.next.inj e
          refine if_safe ?_ ?_
          · refine safe_of_eq (State.at_mem _ _ _ _ _) (State.at_acc _ _ _ _ _) (State.lsPut_safe _ _ _ _ _ _ ?_)
            exact safe_of_eq (State.modCore_mem _ _ _ _) (State.modCore_acc _ _ _ _) h
          · exact State.lsPut_safe _ _ _ _ _ _ (safe_of_eq (State.modCore_mem _ _ _ _) (State.modCore_acc _ _ _ _) h)
        · split at e
          · obtain rfl := Host.Outcome.next.inj e; exact safe_of_eq (by simp) (by simp) h
          · obtain rfl := Host.Outcome.next.inj e
            exact safe_of_eq (State.at_mem _ _ _ _ _) (State.at_acc _ _ _ _ _) (State.ringPut_safe _ _ _ _ _ _ _ h)

theorem execKillCompletion_safe (g : Nat) (s u : State) (h : Safe s) (e : execKillCompletion g s = .next u) : Safe u := by
  unfold execKillCompletion at e
  split at e
  · obtain rfl := Host.Outcome.next.inj e; exact h
  · obtain rfl := Host.Outcome.next.inj e
    refine if_safe ?_ h
    exact safe_of_eq (State.notice_mem _ _ _ _ _) (State.notice_acc _ _ _ _ _)
      (State.writeStatus_safe _ _ _ _ (safe_of_eq (State.returnResources_mem _ _) (State.returnResources_acc _ _) h))

theorem execColdStart_safe (b : BootFacts) (s u : State) (h : Safe s) (e : execColdStart b s = .next u) : Safe u := by
  unfold execColdStart at e
  extract_lets p s1 s2 num out s3 at e
  have h1 : Safe s1 := if_safe h h
  clear_value s1
  have h2 : Safe s2 := safe_of_eq (by simp [s2]) (by simp [s2]) h1
  clear_value s2
  have h3 : Safe s3 := ⟨memWf_filter _ _ h2.1, accWf_filter _ _ h2.2⟩
  clear_value s3
  have hp (s : State) (f : Pkg → Pkg) (hs : Safe s) : Safe (s.modPkg p f) :=
    safe_of_eq (State.modPkg_mem _ _ _) (State.modPkg_acc _ _ _) hs
  have boot (s : State) (c : Nat) (hs : Safe s) : Safe (s.bootWord p c) := safe_of_eq (State.bootWord_mem _ _ _) (State.bootWord_acc _ _ _) hs
  revert e
  split
  · intro e; obtain rfl := Host.Outcome.next.inj e; exact boot _ _ (hp _ _ h3)
  · intro e; obtain rfl := Host.Outcome.next.inj e
    exact boot _ _ (safe_of_eq (State.startCount_mem _ _ _) (State.startCount_acc _ _ _) (hp _ _ (hp _ _ h3)))

theorem execHostWindowAccess_safe (p i : Nat) (s u : State) (h : Safe s) (e : execHostWindowAccess p i s = .next u) : Safe u := by
  have try_ (s : State) (r : HostReq) (hs : Safe s) : Safe (s.hostTry p r) :=
    safe_of_eq (State.hostTry_mem _ _ _) (State.hostTry_acc _ _ _) hs
  unfold execHostWindowAccess at e
  split at e
  · obtain rfl := Host.Outcome.next.inj e; exact h
  · split at e
    · obtain rfl := Host.Outcome.next.inj e
      split
      · exact State.hubAccess_safe _ _ _ h
      · exact safe_of_eq (State.hubAt_mem _ _ _ _) (State.hubAt_acc _ _ _ _) h
    · split at e
      · obtain rfl := Host.Outcome.next.inj e
        exact try_ _ _ (if_safe h (safe_of_eq (State.at_mem _ _ _ _ _) (State.at_acc _ _ _ _ _) h))
      · split at e
        · obtain rfl := Host.Outcome.next.inj e; exact try_ _ _ h
        · obtain rfl := Host.Outcome.next.inj e; exact h

theorem execMigrate_safe (p tag : Nat) (m : MigSpec) (s u : State) (h : Safe s) (e : execMigrate p tag m s = .next u) : Safe u := by
  have flush (s : State) (hs : Safe s) : Safe (s.flushTlb p m.src m.size) := hs
  unfold execMigrate at e
  revert e
  split
  · intro e; obtain rfl := Host.Outcome.next.inj e
    refine safe_of_eq (State.respond_mem _ _ _ _ _) (State.respond_acc _ _ _ _ _) (flush _ (State.setPtes_safe _ _ ?_))
    exact State.wr_safe _ _ _ _ h
  · intro e
    refine State.request_safe s u p tag _ h e fun e => ?_
    split at e
    · obtain rfl := Host.Outcome.next.inj e; exact safe_of_eq (by simp) (by simp) h
    · split at e
      · obtain rfl := Host.Outcome.next.inj e; exact safe_of_eq (by simp) (by simp) h
      · extract_lets s1 s2 at e
        have h2 : Safe s2 := flush _ (State.setPtes_safe _ _ h)
        clear_value s2
        obtain rfl := Host.Outcome.next.inj e
        exact safe_of_eq (State.beginDrain_mem _ _ _) (State.beginDrain_acc _ _ _) (safe_of_eq rfl rfl h2)

theorem memPuts_wf (f : Host.Cell → Byte) (num : Nat) (l m : List Host.Cell) (h : memWf m) :
    memWf (l.foldl (fun m c => if ofPkg num c.1 then memPut m c.1 [f c] else m) m) := by
  induction l generalizing m with
  | nil => exact h
  | cons x l ih =>
    refine ih _ ?_
    dsimp only
    split
    · exact memPut_wf _ _ _ h
    · exact h

theorem execWarmReset_safe (p : Nat) (w : WarmFacts) (s u : State) (h : Safe s) (e : execWarmReset p w s = .next u) : Safe u := by
  unfold execWarmReset at e
  extract_lets s1 s2 x num m s3 x0 s4 code at e
  have h1 : Safe s1 := by
    refine foldl_safe _ _ ?_ _ h
    intro s g hs
    exact safe_of_eq (State.notice_mem _ _ _ _ _) (State.notice_acc _ _ _ _ _) (State.writeStatus_safe _ _ _ _ hs)
  have h2 : Safe s2 := safe_of_eq (State.clearPkg_mem _ _) (State.clearPkg_acc _ _) h1
  have h3 : Safe s3 := ⟨memPuts_wf (fun c => Config.warmByte c.1) _ _ _ h2.1, h2.2⟩
  have h4 : Safe s4 := safe_of_eq (State.modPkg_mem _ _ _) (State.modPkg_acc _ _ _) h3
  clear_value s4
  split at e
  · obtain rfl := Host.Outcome.next.inj e; exact safe_of_eq (by simp) (by simp) h4
  · obtain rfl := Host.Outcome.next.inj e
    refine safe_of_eq (State.respond_mem _ _ _ _ _) (State.respond_acc _ _ _ _ _) ?_
    refine safe_of_eq (State.bootWord_mem _ _ _) (State.bootWord_acc _ _ _) ?_
    refine safe_of_eq (State.startCount_mem _ _ _) (State.startCount_acc _ _ _) ?_
    exact safe_of_eq (State.modPkg_mem _ _ _) (State.modPkg_acc _ _ _) h4

theorem execScaleOutTransfer_safe (p tag : Nat) (toNet : Bool) (pa n : Nat) (data : List Byte) (s u : State) (h : Safe s)
    (e : execScaleOutTransfer p tag toNet pa n data s = .next u) : Safe u := by
  unfold execScaleOutTransfer at e
  refine State.request_safe s u p tag _ h e fun e => ?_
  repeat' split at e
  all_goals obtain rfl := Host.Outcome.next.inj e
  · exact safe_of_eq (by simp) (by simp) h
  · exact safe_of_eq (by simp) (by simp) h
  · exact safe_of_eq (by simp) (by simp) h
  · exact safe_of_eq (State.respond_mem _ _ _ _ _) (State.respond_acc _ _ _ _ _) (State.wr_safe _ _ _ _ h)

end Sys2Proof.Machine
end

