-- ==== Sys2Proof/Laws/PerInstr.lean ====
section
/-! SUPPORT. The statements made instruction by instruction. Family `Encoded`: an instruction has a word exactly where it has a
class of clause, so the operations and events without an encoding (R55, R60, R62) have none and every other row has one,
whatever its fields. -/

namespace Sys2Proof.Laws.Encoded

/-- An instruction has a word exactly where it belongs to a class of clause. -/
def Statement (i : Instr) : Prop := (encode i).isSome = i.cls.isSome

theorem clauseStart (p c : Nat) : Statement (.clauseStart p c) := rfl
theorem teamEnd (t : Nat) : Statement (.teamEnd t) := rfl
theorem gangEnd (g : Nat) : Statement (.gangEnd g) := rfl
theorem mov (w : FU) : Statement (.mov w) := rfl
theorem sel (w : FA) : Statement (.sel w) := rfl
theorem iadd (w : FA) : Statement (.iadd w) := rfl
theorem isub (w : FA) : Statement (.isub w) := rfl
theorem imul (w : FA) : Statement (.imul w) := rfl
theorem imulhS (w : FA) : Statement (.imulhS w) := rfl
theorem imulhN (w : FA) : Statement (.imulhN w) := rfl
theorem imad (w : FA) : Statement (.imad w) := rfl
theorem idivS (w : FA) : Statement (.idivS w) := rfl
theorem idivN (w : FA) : Statement (.idivN w) := rfl
theorem iremS (w : FA) : Statement (.iremS w) := rfl
theorem iremN (w : FA) : Statement (.iremN w) := rfl
theorem iminS (w : FA) : Statement (.iminS w) := rfl
theorem imaxS (w : FA) : Statement (.imaxS w) := rfl
theorem iminN (w : FA) : Statement (.iminN w) := rfl
theorem imaxN (w : FA) : Statement (.imaxN w) := rfl
theorem and (w : FA) : Statement (.and w) := rfl
theorem or (w : FA) : Statement (.or w) := rfl
theorem xor (w : FA) : Statement (.xor w) := rfl
theorem andn (w : FA) : Statement (.andn w) := rfl
theorem shl (w : FA) : Statement (.shl w) := rfl
theorem shr (w : FA) : Statement (.shr w) := rfl
theorem sar (w : FA) : Statement (.sar w) := rfl
theorem rol (w : FA) : Statement (.rol w) := rfl
theorem iun (w : FU) (op : IunOp) : Statement (.iun w op) := rfl
theorem bfxS (w : FA) : Statement (.bfxS w) := rfl
theorem bfxN (w : FA) : Statement (.bfxN w) := rfl
theorem bfi (w : FA) : Statement (.bfi w) := rfl
theorem iaddSat (w : FA) : Statement (.iaddSat w) := rfl
theorem isubSat (w : FA) : Statement (.isubSat w) := rfl
theorem idp4 (w : FA) : Statement (.idp4 w) := rfl
theorem cardf (w : FG) : Statement (.cardf w) := rfl
theorem icmpEq (w : FC) : Statement (.icmpEq w) := rfl
theorem icmpNe (w : FC) : Statement (.icmpNe w) := rfl
theorem icmpLtS (w : FC) : Statement (.icmpLtS w) := rfl
theorem icmpLeS (w : FC) : Statement (.icmpLeS w) := rfl
theorem icmpLtN (w : FC) : Statement (.icmpLtN w) := rfl
theorem icmpLeN (w : FC) : Statement (.icmpLeN w) := rfl
theorem fcmpEq (w : FC) : Statement (.fcmpEq w) := rfl
theorem fcmpLt (w : FC) : Statement (.fcmpLt w) := rfl
theorem fcmpLe (w : FC) : Statement (.fcmpLe w) := rfl
theorem fcmpUn (w : FC) : Statement (.fcmpUn w) := rfl
theorem plop (w : FP) : Statement (.plop w) := rfl
theorem ptov (w : FD) : Statement (.ptov w) := rfl
theorem vtop (w : FC) : Statement (.vtop w) := rfl
theorem shfi (w : FA) : Statement (.shfi w) := rfl
theorem shfu (w : FA) : Statement (.shfu w) := rfl
theorem shfd (w : FA) : Statement (.shfd w) := rfl
theorem shfx (w : FA) : Statement (.shfx w) := rfl
theorem tshfi (w : FA) : Statement (.tshfi w) := rfl
theorem vote (w : FD) (neg : Bool) (q : BitVec 3) (mode : VoteMode) : Statement (.vote w neg q mode) := rfl
theorem scanI (w : FU) (op : ScanIOp) (excl : Bool) : Statement (.scanI w op excl) := rfl
theorem scanF (w : FU) (op : ScanFOp) (excl : Bool) : Statement (.scanF w op excl) := rfl
theorem tredI (w : FU) (op : ScanIOp) : Statement (.tredI w op) := rfl
theorem tredF (w : FU) (op : ScanFOp) : Statement (.tredF w op) := rfl
theorem getl (w : FD) (op : GetlOp) : Statement (.getl w op) := rfl
theorem fadd (w : FA) : Statement (.fadd w) := rfl
theorem fsub (w : FA) : Statement (.fsub w) := rfl
theorem fmul (w : FA) : Statement (.fmul w) := rfl
theorem ffma (w : FA) : Statement (.ffma w) := rfl
theorem fmin (w : FA) : Statement (.fmin w) := rfl
theorem fmax (w : FA) : Statement (.fmax w) := rfl
theorem funW (w : FU) (op : FunOp) : Statement (.funW w op) := rfl
theorem cvt (w : FU) (dir sat rtz : Bool) (x : Fmt) : Statement (.cvt w dir sat rtz x) := rfl
theorem ldlN (w : FM) : Statement (.ldlN w) := rfl
theorem ldlS (w : FM) : Statement (.ldlS w) := rfl
theorem stl (w : FM) : Statement (.stl w) := rfl
theorem ldlv (w : FV) : Statement (.ldlv w) := rfl
theorem stlv (w : FV) : Statement (.stlv w) := rfl
theorem ldgN (w : FM) : Statement (.ldgN w) := rfl
theorem ldgS (w : FM) : Statement (.ldgS w) := rfl
theorem stg (w : FM) : Statement (.stg w) := rfl
theorem ldgv (w : FV) : Statement (.ldgv w) := rfl
theorem stgv (w : FV) : Statement (.stgv w) := rfl
theorem ldrN (w : FM) : Statement (.ldrN w) := rfl
theorem ldrS (w : FM) : Statement (.ldrS w) := rfl
theorem str (w : FM) : Statement (.str w) := rfl
theorem strZ (w : FZ) : Statement (.strZ w) := rfl
theorem atl (w : FT) : Statement (.atl w) := rfl
theorem atln (w : FT) : Statement (.atln w) := rfl
theorem atg (w : FT) : Statement (.atg w) := rfl
theorem atgn (w : FT) : Statement (.atgn w) := rfl
theorem atr (w : FT) : Statement (.atr w) := rfl
theorem atrn (w : FT) : Statement (.atrn w) := rfl
theorem accrd (w : FX) : Statement (.accrd w) := rfl
theorem accwr (w : FX) : Statement (.accwr w) := rfl
theorem loadDataWritten (l : Nat) : Statement (.loadDataWritten l) := rfl
theorem stagedStorePerformed (i : Nat) : Statement (.stagedStorePerformed i) := rfl
theorem lsAtomicPerformed (i : Nat) : Statement (.lsAtomicPerformed i) := rfl
theorem packageGlobalAccess (i : Nat) : Statement (.packageGlobalAccess i) := rfl
theorem gatherPacketArrival (i : Nat) : Statement (.gatherPacketArrival i) := rfl
theorem segmentServed (p n : Nat) : Statement (.segmentServed p n) := rfl
theorem pageWalk (p q : Nat) : Statement (.pageWalk p q) := rfl
theorem walkLevelRead (p q : Nat) : Statement (.walkLevelRead p q) := rfl
theorem faultReport (i : Nat) : Statement (.faultReport i) := rfl
theorem refreshPhasePoint (p k : Nat) : Statement (.refreshPhasePoint p k) := rfl
theorem computeBoundRefresh (p n : Nat) : Statement (.computeBoundRefresh p n) := rfl
theorem parityAlertReplay (p n : Nat) : Statement (.parityAlertReplay p n) := rfl
theorem tubOffer (i : Nat) : Statement (.tubOffer i) := rfl
theorem tubFreeInsertion (p : Nat) : Statement (.tubFreeInsertion p) := rfl
theorem ageTrigger (p n : Nat) : Statement (.ageTrigger p n) := rfl
theorem elasticSlotSend (p n : Nat) : Statement (.elasticSlotSend p n) := rfl
theorem intermediateForward (p i : Nat) : Statement (.intermediateForward p i) := rfl
theorem packetTakenIn (p i : Nat) : Statement (.packetTakenIn p i) := rfl
theorem elementIssue (p i j : Nat) : Statement (.elementIssue p i j) := rfl
theorem elementPerformed (p i j : Nat) : Statement (.elementPerformed p i j) := rfl
theorem acknowledgementSend (p i : Nat) : Statement (.acknowledgementSend p i) := rfl
theorem acknowledgementArrival (p i : Nat) : Statement (.acknowledgementArrival p i) := rfl
theorem remoteOldValueWritten (p i : Nat) : Statement (.remoteOldValueWritten p i) := rfl
theorem tubTimeout (p i : Nat) : Statement (.tubTimeout p i) := rfl
theorem tuberrRecordWrite (i : Nat) : Statement (.tuberrRecordWrite i) := rfl
theorem tuberrHeadAdvance (i : Nat) : Statement (.tuberrHeadAdvance i) := rfl
theorem remoteLoadRequest (i : Nat) : Statement (.remoteLoadRequest i) := rfl
theorem remoteLoadAccess (p i j : Nat) : Statement (.remoteLoadAccess p i j) := rfl
theorem remoteLoadReply (p i : Nat) : Statement (.remoteLoadReply p i) := rfl
theorem remoteLoadReplyArrival (p i : Nat) : Statement (.remoteLoadReplyArrival p i) := rfl
theorem remoteLoadTimeout (p i : Nat) : Statement (.remoteLoadTimeout p i) := rfl
theorem ualinkCompletion (p i j : Nat) (err : Bool) (old : Nat) : Statement (.ualinkCompletion p i j err old) := rfl
theorem podFenceDrain (t : Nat) : Statement (.podFenceDrain t) := rfl
theorem tflushEffect (p t : Nat) (key : Word) : Statement (.tflushEffect p t key) := rfl
theorem migdrainReceipt (p i : Nat) : Statement (.migdrainReceipt p i) := rfl
theorem migdrainReply (i : Nat) (timeout : Bool) : Statement (.migdrainReply i timeout) := rfl
theorem barrierObjectUpdate (i : Nat) : Statement (.barrierObjectUpdate i) := rfl
theorem waitphDeadline (t : Nat) : Statement (.waitphDeadline t) := rfl
theorem barnRoundComplete (t scope : Nat) : Statement (.barnRoundComplete t scope) := rfl
theorem fenceCompletion (t : Nat) : Statement (.fenceCompletion t) := rfl
theorem tagBoardRelease (g b : Nat) : Statement (.tagBoardRelease g b) := rfl
theorem binit (w : FS) : Statement (.binit w) := rfl
theorem barv (w : FS) : Statement (.barv w) := rfl
theorem bexp (w : FS) : Statement (.bexp w) := rfl
theorem waitph (w : FW) : Statement (.waitph w) := rfl
theorem testph (w : FW) : Statement (.testph w) := rfl
theorem barn (w : FB) : Statement (.barn w) := rfl
theorem bcred (w : FS) : Statement (.bcred w) := rfl
theorem fence (w : FB) : Statement (.fence w) := rfl
theorem xfence (w : FN) : Statement (.xfence w) := rfl
theorem tflush (w : FG) : Statement (.tflush w) := rfl
theorem tbenter (w : FN) : Statement (.tbenter w) := rfl
theorem tbrel (w : FN) : Statement (.tbrel w) := rfl
theorem nop (w : FN) : Statement (.nop w) := rfl
theorem bra (w : FR) : Statement (.bra w) := rfl
theorem brp (w : FR) : Statement (.brp w) := rfl
theorem brq (w : FR) : Statement (.brq w) := rfl
theorem brx (w : FG) : Statement (.brx w) := rfl
theorem call (w : FG) : Statement (.call w) := rfl
theorem ret (w : FN) : Statement (.ret w) := rfl
theorem rcv (w : FR) : Statement (.rcv w) := rfl
theorem join (w : FN) : Statement (.join w) := rfl
theorem brk (w : FR) (k : BitVec 5) : Statement (.brk w k) := rfl
theorem exit (w : FN) : Statement (.exit w) := rfl
theorem waitc (w : FG) : Statement (.waitc w) := rfl
theorem launch (w : FG) : Statement (.launch w) := rfl
theorem waitcRelease (t : Nat) : Statement (.waitcRelease t) := rfl
theorem admissionCompletion (p : Nat) : Statement (.admissionCompletion p) := rfl
theorem gangStart (g : Nat) : Statement (.gangStart g) := rfl
theorem cardAcceptance (p c q : Nat) : Statement (.cardAcceptance p c q) := rfl
theorem mm (p c i : Nat) : Statement (.mm p c i) := rfl
theorem mzero (p c i : Nat) : Statement (.mzero p c i) := rfl
theorem aload (p c i : Nat) : Statement (.aload p c i) := rfl
theorem adrain (p c i : Nat) : Statement (.adrain p c i) := rfl
theorem matrixStep (p c n part : Nat) : Statement (.matrixStep p c n part) := rfl
theorem reExecution (p c n : Nat) : Statement (.reExecution p c n) := rfl
theorem engineCredit (p c src off bytes : Nat) : Statement (.engineCredit p c src off bytes) := rfl
theorem edgeRelease (p c i j : Nat) : Statement (.edgeRelease p c i j) := rfl
theorem copy (p c i : Nat) : Statement (.copy p c i) := rfl
theorem fill (p c i : Nat) : Statement (.fill p c i) := rfl
theorem gather (p c i : Nat) : Statement (.gather p c i) := rfl
theorem haulPieceRead (p c part : Nat) : Statement (.haulPieceRead p c part) := rfl
theorem haulPieceWrite (p c : Nat) : Statement (.haulPieceWrite p c) := rfl
theorem quant (p c i : Nat) : Statement (.quant p c i) := rfl
theorem dequant (p c i : Nat) : Statement (.dequant p c i) := rfl
theorem grinderGroup (p c n part : Nat) : Statement (.grinderGroup p c n part) := rfl
theorem sendat (p c i : Nat) : Statement (.sendat p c i) := rfl
theorem sendatChunkRead (p c i m : Nat) : Statement (.sendatChunkRead p c i m) := rfl
theorem scheduledSlotSend (p c i k : Nat) : Statement (.scheduledSlotSend p c i k) := rfl
theorem recvat (p c i : Nat) : Statement (.recvat p c i) := rfl
theorem slotDelivery (p i : Nat) : Statement (.slotDelivery p i) := rfl
theorem landingWrite (p c : Nat) : Statement (.landingWrite p c) := rfl
theorem crcReplay (p n : Nat) : Statement (.crcReplay p n) := rfl
theorem ringdef (p c i : Nat) : Statement (.ringdef p c i) := rfl
theorem ringput (p c i : Nat) : Statement (.ringput p c i) := rfl
theorem ringMessageArrival (p i : Nat) : Statement (.ringMessageArrival p i) := rfl
theorem ringChunkWrite (p c i k : Nat) : Statement (.ringChunkWrite p c i k) := rfl
theorem ringAckArrival (p i : Nat) : Statement (.ringAckArrival p i) := rfl
theorem ringTimeout (p i : Nat) : Statement (.ringTimeout p i) := rfl
theorem quiet (p c i : Nat) : Statement (.quiet p c i) := rfl
theorem quietCheck (p c i : Nat) : Statement (.quietCheck p c i) := rfl
theorem scheduleFault (p kind core slot ctx : Nat) : Statement (.scheduleFault p kind core slot ctx) := rfl
theorem haltReceipt (p b orig kind : Nat) : Statement (.haltReceipt p b orig kind) := rfl
theorem haltAtBoundary (p : Nat) : Statement (.haltAtBoundary p) := rfl
theorem restart (p : Nat) : Statement (.restart p) := rfl
theorem frameBoundary (p : Nat) : Statement (.frameBoundary p) := rfl
theorem correctionPulse (p : Nat) (x : Pulse) : Statement (.correctionPulse p x) := rfl
theorem csrr (w : FY) : Statement (.csrr w) := rfl
theorem csrw (w : FY) : Statement (.csrw w) := rfl
theorem csrs (w : FY) : Statement (.csrs w) := rfl
theorem csrc (w : FY) : Statement (.csrc w) := rfl
theorem trapW (w : FK) : Statement (.trapW w) := rfl
theorem tret (w : FN) : Statement (.tret w) := rfl
theorem kill (w : FQ) : Statement (.kill w) := rfl
theorem shiftW (w : FQ) : Statement (.shiftW w) := rfl
theorem wdog (w : FQ) : Statement (.wdog w) := rfl
theorem dbrk (w : FK) : Statement (.dbrk w) := rfl
theorem migdrain (w : FQ) : Statement (.migdrain w) := rfl
theorem wtcloRead (reg : Nat) : Statement (.wtcloRead reg) := rfl
theorem hashmHeldWrite (p k : Nat) (x : Word) : Statement (.hashmHeldWrite p k x) := rfl
theorem hashm8Apply (p : Nat) (x : Word) : Statement (.hashm8Apply p x) := rfl
theorem tubageWrite (p : Nat) (x : Word) : Statement (.tubageWrite p x) := rfl
theorem csrWrite (t idx : Nat) (kind : CsrKind) (old x : Word) : Statement (.csrWrite t idx kind old x) := rfl
theorem trapEntry (t : Nat) : Statement (.trapEntry t) := rfl
theorem gangKill (g cause : Nat) : Statement (.gangKill g cause) := rfl
theorem killCompletion (g : Nat) : Statement (.killCompletion g) := rfl
theorem watchdogExpiry (g : Nat) : Statement (.watchdogExpiry g) := rfl
theorem swtch (g : Nat) : Statement (.swtch g) := rfl
theorem spill (p c g k : Nat) : Statement (.spill p c g k) := rfl
theorem spillComplete (g : Nat) : Statement (.spillComplete g) := rfl
theorem spilledReplyWrite (l : Nat) : Statement (.spilledReplyWrite l) := rfl
theorem fillComplete (g : Nat) : Statement (.fillComplete g) := rfl
theorem hostWindowAccess (p i : Nat) : Statement (.hostWindowAccess p i) := rfl
theorem hostCompletionArrival (p i : Nat) (ok : Bool) (data : List Byte) : Statement (.hostCompletionArrival p i ok data) := rfl
theorem bar2HostAccess (p off n : Nat) (write : Bool) (data : List Byte) : Statement (.bar2HostAccess p off n write data) := rfl
theorem ualinkTargetRequest (p stn : Nat) (r : UalReq) : Statement (.ualinkTargetRequest p stn r) := rfl
theorem launchRequest (p tag ctx desc join njoin : Nat) : Statement (.launchRequest p tag ctx desc join njoin) := rfl
theorem killRequest (p tag gang : Nat) : Statement (.killRequest p tag gang) := rfl
theorem fillRequest (p tag gang half : Nat) : Statement (.fillRequest p tag gang half) := rfl
theorem shiftRequest (p tag cyc out inc : Nat) : Statement (.shiftRequest p tag cyc out inc) := rfl
theorem schedSet (p tag ctx va boundary : Nat) : Statement (.schedSet p tag ctx va boundary) := rfl
theorem restartRequest (p tag : Nat) (x : RestartAt) : Statement (.restartRequest p tag x) := rfl
theorem config (p tag : Nat) (x : ConfigItem) : Statement (.config p tag x) := rfl
theorem migrate (p tag : Nat) (x : MigSpec) : Statement (.migrate p tag x) := rfl
theorem warmReset (p : Nat) (w : WarmFacts) : Statement (.warmReset p w) := rfl
theorem matrixTileChunk (p c k part : Nat) : Statement (.matrixTileChunk p c k part) := rfl
theorem ringMessageDeparture (p c i : Nat) : Statement (.ringMessageDeparture p c i) := rfl
theorem podFenceTimeout (t c : Nat) : Statement (.podFenceTimeout t c) := rfl
theorem joinTimeout (p join : Nat) : Statement (.joinTimeout p join) := rfl
theorem linkTraining (p n wire : Nat) (up : Bool) : Statement (.linkTraining p n wire up) := rfl
theorem coldStart (b : BootFacts) : Statement (.coldStart b) := rfl
theorem canaryWarning (p island : Nat) : Statement (.canaryWarning p island) := rfl
theorem powerMeasurement (p watts : Nat) : Statement (.powerMeasurement p watts) := rfl
theorem timestampExchange (p : Nat) (skew : Int) : Statement (.timestampExchange p skew) := rfl
theorem ptpMessage (p : Nat) (offset : Int) : Statement (.ptpMessage p offset) := rfl
theorem atsTranslationResponse (p i : Nat) (found rd wr : Bool) (pa : Nat) : Statement (.atsTranslationResponse p i found rd wr pa) := rfl
theorem priPageResponse (p i : Nat) (success : Bool) : Statement (.priPageResponse p i success) := rfl
theorem atsInvalidateRequest (p base size : Nat) : Statement (.atsInvalidateRequest p base size) := rfl
theorem spdmCert (p slot : Nat) : Statement (.spdmCert p slot) := rfl
theorem spdmChal (p slot nonce : Nat) : Statement (.spdmChal p slot nonce) := rfl
theorem spdmMeas (p index : Nat) : Statement (.spdmMeas p index) := rfl
theorem ctxCreate (p tag : Nat) (x : CtxSpec) : Statement (.ctxCreate p tag x) := rfl
theorem ctxDestroy (p tag ctx : Nat) : Statement (.ctxDestroy p tag ctx) := rfl
theorem schedClear (p tag : Nat) : Statement (.schedClear p tag) := rfl
theorem throttleClear (p tag : Nat) : Statement (.throttleClear p tag) := rfl
theorem notify (p tag kinds : Nat) : Statement (.notify p tag kinds) := rfl
theorem spdmNegotiation (p version : Nat) (p256 sha256 : Bool) : Statement (.spdmNegotiation p version p256 sha256) := rfl
theorem spdmUnsupportedRequest (p code : Nat) : Statement (.spdmUnsupportedRequest p code) := rfl
theorem scaleOutTransfer (p tag : Nat) (toNet : Bool) (pa n : Nat) (data : List Byte) : Statement (.scaleOutTransfer p tag toNet pa n data) := rfl

end Sys2Proof.Laws.Encoded
end

