-- ==== Sys2Proof/Tests/Slice0.lean ====
section
/-! SUPPORT. Small tests of the model, each about one step on a small state, with results from the spec's worked examples and
tables or computed by hand, and witnesses that the hypotheses of the statements can be met. -/

namespace Sys2Proof.Tests

open Machine

-- One theorem after another: each by itself is quick, and many at once take a thread each.
set_option Elab.async false

/-! ## A small machine -/

/-- Team 1 of gang 2 on core 0 of package 0: 32 lanes, 12 registers, an LS allocation of 4,096 bytes at 8,192, two tiles. -/
def tm : Team :=
  { Team.start 1 ⟨0, 0, 0, 0, 3, 2, 1, 12, 12, 4096, 8192, 2, 0, 0, 16, 0, 8, 1⟩ 0 0 with
    vr := [], ur := [0, 0, 16, 0, 0x30, 5, 0x22, 1], pr := [1, 2, 0, 0, 0, 0, 0],
    gp := [true, false, false, false, false, false, false] }

/-- A small machine with the team, its gang and its privileged context. -/
def base (t : Team) : State :=
  { State.reset with nextId := 50, cores := [Core.reset, Core.reset], teams := [t],
                     gangs := [{ loaderGang 2 0 with starts := [0, 40] }], ctxs := [⟨0, 0, true, [], 0, 0, 0, 0, []⟩] }

/-- A pass of a clause of the class over the lanes, standing at words that follow the first. -/
def passAt (c : Cls) (lanes : List Nat) (lit : Word) : Cur :=
  curOf tm (loaderRun 1 c [0, lit, 0] 100) lanes

/-- The machine with a pass under evaluation: registers v0 up by lane. -/
def at_ (c : Cls) (lanes : List Nat) (vr : List (List Word)) (lit : Word := 0) : State :=
  { base { tm with vr := vr } with ev := some (passAt c lanes lit) }

/-- The pass after the instruction. -/
def after (i : Instr) (s : State) : Option Cur := match exec i s with | .next t => t.ev | _ => none

/-- What the instruction takes to the commit, and the trap it raises. -/
def acts (i : Instr) (s : State) : Option (List Act) := (after i s).map (·.acts)
def trap (i : Instr) (s : State) : Option PTrap := (after i s).bind (·.trap)

/-- The value a word with sources v0 and v1 gives to v2 in lane 0. -/
def val (i : FA → Instr) (a b : Word) (d : Word := 0) : Option Word :=
  match acts (i ⟨false, false, 7, 2, 0, 1⟩) (at_ .lane [0] [[a], [b], [d]]) with
  | some [.vreg 2 [(0, x)]] => some x
  | _ => none

/-- The value and flags a one-source word gives. -/
def val1 (i : FU → Instr) (a : Word) : Option (List Act) := acts (i ⟨false, false, 7, 2, 0⟩) (at_ .lane [0] [[a]])

def reads (c : Cls) (w : Word) (i : Instr) : Bool := match decode c w with | .ok j => j = i | .error _ => false
def refuses (c : Cls) (w : Word) (detail : Nat) : Bool := match decode c w with | .ok _ => false | .error r => r.detail = detail

/-! ## Well-formedness (R63): a term for each check, which the check refuses -/

/-- Operand, class, sub-operation, alignment, scope and CSR checks: each term fails exactly one of them. -/
theorem test_wf_refuses : ([
    (.lane, .iadd ⟨false, false, 7, 112, 0, 0⟩), (.unif, .iadd ⟨false, false, 7, 116, 0, 0⟩),
    (.lane, .iadd ⟨false, false, 7, 0, 123, 0⟩), (.unif, .iadd ⟨false, false, 7, 0, 0, 112⟩),
    (.unif, .imad ⟨false, false, 7, 112, 0, 0⟩), (.lane, .mov ⟨false, false, 7, 0, 123⟩), (.lane, .icmpEq ⟨false, false, 7, .set, 0, 123, 0⟩),
    (.unif, .shfi ⟨false, false, 7, 0, 0, 0⟩), (.lane, .shfi ⟨false, false, 7, 0, 124, 0⟩), (.unif, .tshfi ⟨false, false, 7, 0, 0, 0⟩),
    (.unif, .vote ⟨false, false, 7, 0⟩ false 0 .any), (.unif, .tredI ⟨false, false, 7, 0, 0⟩ .add), (.unif, .cardf ⟨false, 7, 0⟩),
    (.unif, .getl ⟨false, false, 7, 0⟩ .lid), (.lane, .cvt ⟨false, false, 7, 0, 0⟩ false false false .f32),
    (.lane, .cvt ⟨false, false, 7, 0, 0⟩ true true false .bf16), (.lane, .ptov ⟨false, false, 7, 113⟩),
    (.mem, .ldlN ⟨0, false, 7, 0, 124, 0, 0, 0⟩), (.mem, .ldgN ⟨0, false, 7, 3, 0, 0, 0, 3⟩), (.mem, .stl ⟨0, false, 7, 124, 0, 0, 0, 0⟩),
    (.mem, .stg ⟨0, false, 7, 120, 0, 0, 0, 3⟩), (.mem, .str ⟨0, true, 7, 4, 0, 0, 0, 2⟩), (.mem, .ldlv ⟨0, false, 7, 6, 0, 0, 0⟩),
    (.mem, .atl ⟨0, false, 7, 3, 0, 0, .cas⟩), (.mem, .atln ⟨0, false, 7, 4, 0, 0, .cas⟩), (.mem, .accrd ⟨0, false, 7, 112, 0, 0⟩),
    (.mem, .accwr ⟨0, false, 7, 124, 0, 0⟩), (.sync, .binit ⟨false, 7, 112, 0⟩), (.sync, .waitph ⟨false, 7, 0, 0, 111⟩),
    (.sync, .testph ⟨false, 7, 0, 0, 124⟩), (.sync, .barn ⟨false, 7, .team⟩), (.flow, .brx ⟨false, 7, 119⟩), (.flow, .brk ⟨false, 7, 0⟩ 0),
    (.flow, .waitc ⟨false, 7, 112⟩), (.flow, .launch ⟨false, 7, 7⟩), (.sys, .csrr ⟨false, 7, 0x001, 120⟩), (.sys, .csrw ⟨false, 7, 0x006, 0⟩),
    (.sys, .kill ⟨false, 7, 124⟩), (.sys, .shiftW ⟨false, 7, 109⟩), (.sys, .shiftW ⟨false, 7, 110⟩), (.sys, .migdrain ⟨false, 7, 120⟩)] :
      List (Cls × Instr)).all (fun e => !e.2.wf e.1) = true := by decide +kernel

/-- Terms at the edge of the same checks, which pass. -/
theorem test_wf_accepts : ([
    (.lane, .iadd ⟨false, false, 7, 111, 122, 127⟩), (.unif, .iadd ⟨false, false, 7, 115, 111, 120⟩),
    (.unif, .imad ⟨false, false, 7, 111, 0, 0⟩), (.lane, .shfi ⟨false, false, 7, 0, 122, 127⟩), (.unif, .getl ⟨false, false, 7, 0⟩ .core),
    (.lane, .cvt ⟨false, false, 7, 0, 0⟩ false true true .bf16), (.mem, .ldgN ⟨0, false, 7, 2, 0, 0, 0, 3⟩), (.mem, .stl ⟨0, false, 7, 120, 0, 0, 0, 0⟩),
    (.mem, .atl ⟨0, false, 7, 2, 0, 0, .cas⟩), (.sync, .waitph ⟨false, 7, 0, 0, 110⟩), (.sync, .barn ⟨false, 7, .core⟩),
    (.flow, .brk ⟨false, 7, 0⟩ 1), (.flow, .waitc ⟨false, 7, 110⟩), (.sys, .csrr ⟨false, 7, 0x005, 111⟩), (.sys, .shiftW ⟨false, 7, 108⟩)] :
      List (Cls × Instr)).all (fun e => e.2.wf e.1 && e.2.inClass e.1) = true := by decide +kernel

/-- Words the decoder refuses, by the detail of R63: an unassigned opcode, a code of a group, an operand code, reserved bits, a
scope, an odd pair, an unassigned CSR, and `cardf` in a UNIF clause. -/
theorem test_decode_refuses :
    ([(.mem, 0x14E00000, 3), (.sync, 0x1CE00000, 3), (.flow, 0x34E00000, 3), (.sys, 0x2CE00000, 3), (.unif, 0x7CE00000, 3),
      (.lane, 0x60E0000C, 4), (.lane, 0x80E60000, 4), (.lane, 0x00E03D80, 5), (.lane, 0x00E00001, 6), (.sys, 0x00E00001, 6),
      (.flow, 0x02E00000, 6), (.sync, 0x20F80000, 11), (.flow, 0x2CE00080, 12), (.sys, 0x00E00C00, 19), (.card, 0, 1)] :
      List (Cls × Word × Nat)).all (fun e => refuses e.1 e.2.1 e.2.2) = true := by decide +kernel

/-! ## Decoding: a word of each row, written out from the tables of the spec, not from the encoder -/

/-- Words of a LANE clause, written out by R50 and R55 to R58. -/
theorem test_decode_lane_1 : ([
    (0x04004078, .sel ⟨false, false, 0, 1, 0, 120⟩),
    (0x0921BCFA, .iadd ⟨false, true, 1, 6, 121, 122⟩),
    (0x0E42F8FE, .isub ⟨true, false, 2, 11, 113, 126⟩),
    (0x13640183, .imul ⟨true, true, 3, 16, 3, 3⟩),
    (0x14857CF8, .imulhS ⟨false, false, 4, 21, 121, 120⟩),
    (0x19A6B8FA, .imulhN ⟨false, true, 5, 26, 113, 122⟩),
    (0x1EC7C37E, .imad ⟨true, false, 6, 31, 6, 126⟩),
    (0x23E93C83, .idivS ⟨true, true, 7, 36, 121, 3⟩),
    (0x240A78F8, .idivN ⟨false, false, 0, 41, 113, 120⟩),
    (0x292B84FA, .iremS ⟨false, true, 1, 46, 9, 122⟩),
    (0x2E4CFCFE, .iremN ⟨true, false, 2, 51, 121, 126⟩),
    (0x336E3883, .iminS ⟨true, true, 3, 56, 113, 3⟩),
    (0x348F4678, .imaxS ⟨false, false, 4, 61, 12, 120⟩),
    (0x39B0BCFA, .iminN ⟨false, true, 5, 66, 121, 122⟩),
    (0x3ED1F8FE, .imaxN ⟨true, false, 6, 71, 113, 126⟩),
    (0x43F30783, .and ⟨true, true, 7, 76, 15, 3⟩)] : List (Word × Instr)).all (fun e => reads .lane e.1 e.2) = true := by decide +kernel

/-- Words of a LANE clause, written out by R50 and R55 to R58. -/
theorem test_decode_lane_2 : ([
    (0x44147CF8, .or ⟨false, false, 0, 81, 121, 120⟩),
    (0x4935B8FA, .xor ⟨false, true, 1, 86, 113, 122⟩),
    (0x4E56C97E, .andn ⟨true, false, 2, 91, 18, 126⟩),
    (0x53783C83, .shl ⟨true, true, 3, 96, 121, 3⟩),
    (0x549978F8, .shr ⟨false, false, 4, 101, 113, 120⟩),
    (0x59BA8AFA, .sar ⟨false, true, 5, 106, 21, 122⟩),
    (0x5EDBFCFE, .rol ⟨true, false, 6, 111, 121, 126⟩),
    (0x67E13883, .bfxS ⟨true, true, 7, 4, 113, 3⟩),
    (0x68024C78, .bfxN ⟨false, false, 0, 9, 24, 120⟩),
    (0x6D23BCFA, .bfi ⟨false, true, 1, 14, 121, 122⟩),
    (0x7244F8FE, .iaddSat ⟨true, false, 2, 19, 113, 126⟩),
    (0x77660D83, .isubSat ⟨true, true, 3, 24, 27, 3⟩),
    (0x78877CF8, .idp4 ⟨false, false, 4, 29, 121, 120⟩),
    (0xB5A8AEFA, .shfi ⟨false, true, 5, 34, 93, 122⟩),
    (0xBAC9F27E, .shfu ⟨true, false, 6, 39, 100, 126⟩),
    (0xBFEB3583, .shfd ⟨true, true, 7, 44, 107, 3⟩)] : List (Word × Instr)).all (fun e => reads .lane e.1 e.2) = true := by decide +kernel

/-- Words of a LANE clause, written out by R50 and R55 to R58. -/
theorem test_decode_lane_3 : ([
    (0xC00C4178, .shfx ⟨false, false, 0, 49, 2, 120⟩),
    (0xC52D90FA, .tshfi ⟨false, true, 1, 54, 33, 122⟩),
    (0xE24EFCFE, .fadd ⟨true, false, 2, 59, 121, 126⟩),
    (0xE7703883, .fsub ⟨true, true, 3, 64, 113, 3⟩),
    (0xE8915278, .fmul ⟨false, false, 4, 69, 36, 120⟩),
    (0xEDB2BCFA, .ffma ⟨false, true, 5, 74, 121, 122⟩),
    (0xF2D3F8FE, .fmin ⟨true, false, 6, 79, 113, 126⟩),
    (0xF7F51383, .fmax ⟨true, true, 7, 84, 39, 3⟩),
    (0x01627C80, .mov ⟨false, true, 3, 9, 121⟩),
    (0x6242BC0B, .iun ⟨true, false, 2, 10, 120⟩ .bswap),
    (0xF8E2818A, .funW ⟨false, false, 7, 10, 3⟩ .rint),
    (0xFCE281B5, .cvt ⟨false, false, 7, 10, 3⟩ false true true .e2m3),
    (0x7DC03780, .cardf ⟨true, 6, 111⟩),
    (0x80A59077, .icmpEq ⟨false, false, 5, .or, 6, 32, 119⟩),
    (0x86A190F7, .icmpNe ⟨true, false, 5, .set, 6, 33, 119⟩),
    (0x88A39177, .icmpLtS ⟨false, false, 5, .and, 6, 34, 119⟩)] : List (Word × Instr)).all (fun e => reads .lane e.1 e.2) = true := by decide +kernel

/-- Words of a LANE clause, written out by R50 and R55 to R58. -/
theorem test_decode_lane_4 : ([
    (0x8EA591F7, .icmpLeS ⟨true, false, 5, .or, 6, 35, 119⟩),
    (0x90A19277, .icmpLtN ⟨false, false, 5, .set, 6, 36, 119⟩),
    (0x96A392F7, .icmpLeN ⟨true, false, 5, .and, 6, 37, 119⟩),
    (0x98A59377, .fcmpEq ⟨false, false, 5, .or, 6, 38, 119⟩),
    (0x9EA193F7, .fcmpLt ⟨true, false, 5, .set, 6, 39, 119⟩),
    (0xA0A39477, .fcmpLe ⟨false, false, 5, .and, 6, 40, 119⟩),
    (0xA6A594F7, .fcmpUn ⟨true, false, 5, .or, 6, 41, 119⟩),
    (0xB0A59677, .vtop ⟨false, false, 5, .or, 6, 44, 119⟩),
    (0xA8FC8207, .plop ⟨false, false, 7, 0b1110, 2, 4, 7⟩),
    (0xAE334000, .ptov ⟨true, false, 1, 77⟩),
    (0xC8834583, .vote ⟨false, false, 4, 13⟩ true 3 .count),
    (0xCC834604, .scanI ⟨false, false, 4, 13, 12⟩ .maxS false),
    (0xD483460E, .tredI ⟨false, false, 4, 13, 12⟩ .xor),
    (0xD0834603, .scanF ⟨false, false, 4, 13, 12⟩ .min true),
    (0xD8834604, .tredF ⟨false, false, 4, 13, 12⟩ .max),
    (0xDC83400B, .getl ⟨false, false, 4, 13⟩ .blocksInGrid)] : List (Word × Instr)).all (fun e => reads .lane e.1 e.2) = true := by decide +kernel

/-- Words of a MEM clause, written out by R51, R60, R61 and R190. -/
theorem test_decode_mem : ([
    (0x00108158, .ldlN ⟨0, false, 1, 4, 5, 1, 2, 0⟩),
    (0x05A0DE6D, .ldlS ⟨1, true, 2, 6, 121, 2, 3, 1⟩),
    (0x0A311E32, .stl ⟨2, false, 3, 8, 120, 3, 0, 2⟩),
    (0x23C14147, .ldgN ⟨3, true, 4, 10, 5, 0, 1, 3⟩),
    (0x24519E58, .ldgS ⟨0, false, 5, 12, 121, 1, 2, 0⟩),
    (0x29E1DE2D, .stg ⟨1, true, 6, 14, 120, 2, 3, 1⟩),
    (0x42020172, .ldrN ⟨2, false, 0, 16, 5, 3, 0, 2⟩),
    (0x47925E47, .ldrS ⟨3, true, 1, 18, 121, 0, 1, 3⟩),
    (0x48229E18, .str ⟨0, false, 2, 20, 120, 1, 2, 0⟩),
    (0x0C811E72, .ldlv ⟨0, true, 0, 8, 121, 3, 0⟩),
    (0x11919E66, .stlv ⟨1, true, 1, 12, 121, 2, 1⟩),
    (0x2EA21E5A, .ldgv ⟨2, true, 2, 16, 121, 1, 2⟩),
    (0x33B29E4E, .stgv ⟨3, true, 3, 20, 121, 0, 3⟩),
    (0x60028789, .atl ⟨0, false, 0, 20, 30, 0, .cas⟩),
    (0x6592C7D0, .atln ⟨1, true, 1, 22, 31, 1, .add⟩),
    (0x6A230828, .atg ⟨2, false, 2, 24, 32, 2, .xchg⟩),
    (0x6FB3487D, .atgn ⟨3, true, 3, 26, 33, 3, .bfadd2⟩),
    (0x7043888A, .atr ⟨0, false, 4, 28, 34, 0, .fadd⟩),
    (0x75D3C8D7, .atrn ⟨1, true, 5, 30, 35, 1, .xor⟩),
    (0x82751E52, .accrd ⟨2, false, 7, 40, 121, 1⟩),
    (0x87EF4A62, .accwr ⟨3, true, 6, 122, 41, 2⟩),
    (0x49FF1E6A, .strZ ⟨1, 121, 2, 2⟩)] : List (Word × Instr)).all (fun e => reads .mem e.1 e.2) = true := by decide +kernel

/-- Words of a SYNC clause, written out by R52 and R62. -/
theorem test_decode_sync : ([
    (0x00A00A7A, .binit ⟨false, 5, 20, 122⟩),
    (0x05A00AFA, .barv ⟨true, 5, 21, 122⟩),
    (0x08A00B7A, .bexp ⟨false, 5, 22, 122⟩),
    (0x18A00D7A, .bcred ⟨false, 5, 26, 122⟩),
    (0x0CE1866E, .waitph ⟨false, 7, 6, 12, 110⟩),
    (0x1120FC07, .testph ⟨true, 1, 3, 120, 7⟩),
    (0x14F40000, .barn ⟨false, 7, .pod⟩),
    (0x21500000, .fence ⟨true, 2, .pkg⟩),
    (0x24600000, .xfence ⟨false, 3⟩),
    (0x28E03D00, .tflush ⟨false, 7, 122⟩),
    (0x2DE00000, .tbenter ⟨true, 7⟩),
    (0x30C00000, .tbrel ⟨false, 6⟩)] : List (Word × Instr)).all (fun e => reads .sync e.1 e.2) = true := by decide +kernel

/-- Words of a FLOW clause, written out by R53 and R62. -/
theorem test_decode_flow : ([
    (0x00800000, .nop ⟨false, 4⟩),
    (0x19800000, .ret ⟨true, 4⟩),
    (0x20800000, .join ⟨false, 4⟩),
    (0x29800000, .exit ⟨true, 4⟩),
    (0x0520FFFF, .bra ⟨true, 1, BitVec.ofInt 16 (-1)⟩),
    (0x0840012C, .brp ⟨false, 2, BitVec.ofInt 16 (300)⟩),
    (0x0D608000, .brq ⟨true, 3, BitVec.ofInt 16 (-32768)⟩),
    (0x1DE07FFF, .rcv ⟨true, 7, BitVec.ofInt 16 (32767)⟩),
    (0x24FF0005, .brk ⟨false, 7, 5⟩ 31),
    (0x10C01000, .brx ⟨false, 6, 32⟩),
    (0x15C01400, .call ⟨true, 6, 40⟩),
    (0x2DC02C00, .waitc ⟨true, 6, 88⟩),
    (0x30C03000, .launch ⟨false, 6, 96⟩)] : List (Word × Instr)).all (fun e => reads .flow e.1 e.2) = true := by decide +kernel

/-- Words of a SYS clause, written out by R54 and R62. -/
theorem test_decode_sys : ([
    (0x00E620F0, .csrr ⟨false, 7, 0x310, 60⟩),
    (0x05E620F4, .csrw ⟨true, 7, 0x310, 61⟩),
    (0x08E620F8, .csrs ⟨false, 7, 0x310, 62⟩),
    (0x0DE620FC, .csrc ⟨true, 7, 0x310, 63⟩),
    (0x10357800, .trapW ⟨false, 1, 0xABC⟩),
    (0x255FFE00, .dbrk ⟨true, 2, 0xFFF⟩),
    (0x14600000, .tret ⟨false, 3⟩),
    (0x18A001E8, .kill ⟨false, 5, 122⟩),
    (0x1DA001B0, .shiftW ⟨true, 5, 108⟩),
    (0x20A001E0, .wdog ⟨false, 5, 120⟩),
    (0x28A001BC, .migdrain ⟨false, 5, 111⟩)] : List (Word × Instr)).all (fun e => reads .sys e.1 e.2) = true := by decide +kernel

/-! ## Integer and logic words (R90 to R97) -/

theorem test_iadd_wraps : val .iadd 0xFFFFFFFF 2 = some 1 := by decide +kernel
theorem test_isub_wraps : val .isub 0 1 = some 0xFFFFFFFF := by decide +kernel
theorem test_imul_wraps : val .imul 0x10000 0x10001 = some 0x10000 := by decide +kernel
theorem test_imulhS_edges : val .imulhS 0x80000000 0x80000000 = some 0x40000000 ∧
    val .imulhS 0xFFFFFFFF 1 = some 0xFFFFFFFF := by decide +kernel
theorem test_imulhN_edge : val .imulhN 0xFFFFFFFF 0xFFFFFFFF = some 0xFFFFFFFE := by decide +kernel
theorem test_iminS_edge : val .iminS 0x80000000 0 = some 0x80000000 ∧ val .imaxS 0x80000000 0 = some 0 := by decide +kernel
theorem test_iminN_edge : val .iminN 0x80000000 0 = some 0 ∧ val .imaxN 0x80000000 0 = some 0x80000000 := by decide +kernel
theorem test_imad_accumulates : val .imad 3 5 7 = some 22 := by decide +kernel
theorem test_idp4_signed : val .idp4 0x0102FF80 0x01010101 126 = some 0 := by decide +kernel
theorem test_idivS_rounds_to_zero : val .idivS 0xFFFFFFF9 2 = some 0xFFFFFFFD ∧ val .iremS 0xFFFFFFF9 2 = some 0xFFFFFFFF := by
  decide +kernel
theorem test_idivS_overflow : val .idivS 0x80000000 0xFFFFFFFF = some 0x80000000 ∧
    val .iremS 0x80000000 0xFFFFFFFF = some 0 := by decide +kernel
theorem test_idivN_by_zero : val .idivN 7 0 = some 0xFFFFFFFF ∧ val .iremN 7 0 = some 7 := by decide +kernel
theorem test_logic : val .and 12 10 = some 8 ∧ val .or 12 10 = some 14 ∧ val .xor 12 10 = some 6 ∧ val .andn 12 10 = some 4 := by
  decide +kernel
theorem test_shl_counts : val .shl 3 31 = some 0x80000000 ∧ val .shl 1 32 = some 0 ∧ val .shl 5 64 = some 5 := by decide +kernel
theorem test_shr_counts : val .shr 0x80000000 31 = some 1 ∧ val .shr 0x80000000 63 = some 0 := by decide +kernel
theorem test_sar_counts : val .sar 0x80000000 40 = some 0xFFFFFFFF ∧ val .sar 0x40000000 40 = some 0 := by decide +kernel
theorem test_rol_counts : val .rol 0x80000001 1 = some 3 ∧ val .rol 7 32 = some 7 := by decide +kernel
theorem test_iun_table :
    val1 (.iun · .not) 0 = some [.vreg 2 [(0, 0xFFFFFFFF)]] ∧ val1 (.iun · .neg) 0x80000000 = some [.vreg 2 [(0, 0x80000000)]] ∧
    val1 (.iun · .abs) 0xFFFFFFFB = some [.vreg 2 [(0, 5)]] ∧ val1 (.iun · .popc) 0xF0F = some [.vreg 2 [(0, 8)]] ∧
    val1 (.iun · .clz) 0 = some [.vreg 2 [(0, 32)]] ∧ val1 (.iun · .ctz) 8 = some [.vreg 2 [(0, 3)]] ∧
    val1 (.iun · .brev) 1 = some [.vreg 2 [(0, 0x80000000)]] ∧ val1 (.iun · .sext8) 0x80 = some [.vreg 2 [(0, 0xFFFFFF80)]] := by
  decide +kernel
theorem test_iun_bytes :
    val1 (.iun · .sext16) 0x8000 = some [.vreg 2 [(0, 0xFFFF8000)]] ∧ val1 (.iun · .zext8) 0x1FF = some [.vreg 2 [(0, 0xFF)]] ∧
    val1 (.iun · .zext16) 0x12345 = some [.vreg 2 [(0, 0x2345)]] ∧
    val1 (.iun · .bswap) 0x11223344 = some [.vreg 2 [(0, 0x44332211)]] := by decide +kernel
theorem test_bfxS_example : val .bfxS 0xF00 0x408 = some 0xFFFFFFFF ∧ val .bfxN 0xF0000000 0xC1C = some 0xF := by decide +kernel
theorem test_bfi_example : val .bfi 0xA 0x404 0x12345678 = some 0x123456A8 := by decide +kernel
theorem test_saturation : val .iaddSat 0x7FFFFFFF 1 = some 0x7FFFFFFF ∧ val .isubSat 0 0x80000000 = some 0x7FFFFFFF := by decide +kernel

/-- A zero divisor traps where TRAPEN.IDZ is set, with the mask of the lanes that have one (R93); else it does not. -/
theorem test_idz_trap :
    trap (.idivN ⟨false, false, 7, 2, 0, 1⟩)
      { at_ .lane [0, 1] [[7, 7], [3, 0]] with
        teams := [{ tm with vr := [[7, 7], [3, 0]], csr := { tm.csr with trapen := 0x100 } }] } =
      some ⟨1, 0x01, 0, 0, 2⟩ := by decide +kernel

theorem test_mov_literal : acts (.mov ⟨false, false, 7, 2, 122⟩) (at_ .lane [0] [] 0x12345678) =
    some [.vreg 2 [(0, 0x12345678)]] := by decide +kernel
/-- A uniform destination code of 112 and above pushes to a queue (R39). -/
theorem test_mov_pushes : acts (.mov ⟨false, false, 7, 113, 6⟩) (at_ .unif [0] []) = some [.push 1 1 0x22] := by decide +kernel
/-- p0 holds lane 0 only, and `sel` writes both lanes. -/
theorem test_sel_writes_every_lane : acts (.sel ⟨false, false, 0, 2, 0, 1⟩) (at_ .lane [0, 1] [[10, 11], [20, 21]]) =
    some [.vreg 2 [(0, 10), (1, 21)]] := by decide +kernel
/-- A guarded word writes the lanes of its guard only, and nothing with NW. -/
theorem test_guard_and_nw :
    acts (.iadd ⟨false, true, 0, 2, 0, 1⟩) (at_ .lane [0, 1] [[10, 11], [20, 21]]) = some [.vreg 2 [(1, 32)]] ∧
    acts (.iadd ⟨true, false, 7, 2, 0, 1⟩) (at_ .lane [0, 1] [[10, 11], [20, 21]]) = some [] := by decide +kernel

/-! ## Compares, predicates and cross-lane words (R98 to R109, R245) -/

def cmpAt (i : FC → Instr) (mode : CMode) (a b : Word) : Option (List Act) :=
  acts (i ⟨false, false, 7, mode, 1, 0, 1⟩) (at_ .lane [0, 1] [[a, a], [b, b]])

theorem test_icmp_signs :
    cmpAt .icmpLtS .set 0x80000000 0 = some [.vpred 1 [(0, true), (1, true)]] ∧
    cmpAt .icmpLtN .set 0x80000000 0 = some [.vpred 1 [(0, false), (1, false)]] ∧
    cmpAt .icmpLeS .set 5 5 = some [.vpred 1 [(0, true), (1, true)]] ∧
    cmpAt .icmpLeN .set 6 5 = some [.vpred 1 [(0, false), (1, false)]] := by decide +kernel
/-- p1 holds lane 1 before: `.and` keeps it there, `.or` sets lane 0 too. -/
theorem test_icmp_modes :
    cmpAt .icmpEq .and 5 5 = some [.vpred 1 [(0, false), (1, true)]] ∧
    cmpAt .icmpNe .or 5 5 = some [.vpred 1 [(0, false), (1, true)]] ∧
    cmpAt .vtop .or 6 2 = some [.vpred 1 [(0, true), (1, true)]] := by decide +kernel
theorem test_plop_and_not : acts (.plop ⟨false, false, 7, 0b0100, 2, 0, 1⟩) (at_ .lane [0, 1] []) =
    some [.vpred 2 [(0, true), (1, false)]] := by decide +kernel
theorem test_ptov : acts (.ptov ⟨false, false, 7, 2⟩) (at_ .lane [0, 1] []) = some [.vreg 2 [(0, 0x81), (1, 0x82)]] := by decide +kernel
theorem test_fcmp_nan :
    cmpAt .fcmpUn .set 0x7FC00000 0 = some [.vpred 1 [(0, true), (1, true)]] ∧
    cmpAt .fcmpLt .set 0x7FC00000 0 = some [.fflags 1, .vpred 1 [(0, false), (1, false)]] ∧
    cmpAt .fcmpEq .set 0x80000000 0 = some [.vpred 1 [(0, true), (1, true)]] ∧
    cmpAt .fcmpLe .set 0x3F800000 0x40000000 = some [.vpred 1 [(0, true), (1, true)]] := by decide +kernel

def shuf (i : FA → Instr) (n : Word) : Option (List Act) :=
  acts (i ⟨false, false, 7, 2, 0, 1⟩) (at_ .lane [0, 1, 2] [[10, 11, 12, 13], [n, n, n]])

theorem test_shuffles :
    shuf .shfi 3 = some [.vreg 2 [(0, 13), (1, 13), (2, 13)]] ∧ shuf .shfu 1 = some [.vreg 2 [(0, 10), (1, 10), (2, 11)]] ∧
    shuf .shfd 1 = some [.vreg 2 [(0, 11), (1, 12), (2, 13)]] ∧ shuf .shfx 1 = some [.vreg 2 [(0, 11), (1, 10), (2, 13)]] := by
  decide +kernel
theorem test_shuffle_outside : shuf .shfi 32 = some [.vreg 2 [(0, 10), (1, 11), (2, 12)]] ∧
    shuf .tshfi 32 = some [.vreg 2 [(0, 10), (1, 11), (2, 12)]] ∧ shuf .tshfi 3 = some [.vreg 2 [(0, 13), (1, 13), (2, 13)]] := by
  decide +kernel
theorem test_vote :
    acts (.vote ⟨false, false, 7, 2⟩ false 1 .ballot) (at_ .lane [0, 1, 2] []) = some [.vreg 2 [(0, 2), (1, 2), (2, 2)]] ∧
    acts (.vote ⟨false, false, 7, 2⟩ true 1 .count) (at_ .lane [0, 1, 2] []) = some [.vreg 2 [(0, 2), (1, 2), (2, 2)]] := by
  decide +kernel
theorem test_getl : acts (.getl ⟨false, false, 7, 2⟩ .laneInWarp) (at_ .lane [0, 5] []) = some [.vreg 2 [(0, 0), (5, 5)]] ∧
    acts (.getl ⟨false, false, 7, 2⟩ .teamInBlock) (at_ .unif [0] []) = some [.ureg 2 3] := by decide +kernel

/-- The example of R108: 16,777,216, 0, 1 and 1. -/
def scanLanes : State := at_ .lane [0, 1, 2, 3] [[0x4B800000, 0, 0x3F800000, 0x3F800000]]

theorem test_scanF_example : acts (.scanF ⟨false, false, 7, 2, 0⟩ .add false) scanLanes =
    some [.fflags 16, .vreg 2 [(0, 0x4B800000), (1, 0x4B800000), (2, 0x4B800000), (3, 0x4B800000)]] := by decide +kernel
theorem test_tredF_example : acts (.tredF ⟨false, false, 7, 2, 0⟩ .add) scanLanes =
    some [.vreg 2 [(0, 0x4B800001), (1, 0x4B800001), (2, 0x4B800001), (3, 0x4B800001)]] := by decide +kernel
theorem test_scanI : acts (.scanI ⟨false, false, 7, 2, 0⟩ .add true) (at_ .lane [0, 1, 2] [[1, 2, 3]]) =
    some [.vreg 2 [(0, 0), (1, 1), (2, 3)]] ∧
    acts (.scanI ⟨false, false, 7, 2, 0⟩ .maxS false) (at_ .lane [0, 1, 2] [[1, 0xFFFFFFFF, 3]]) =
    some [.vreg 2 [(0, 1), (1, 1), (2, 3)]] := by decide +kernel
theorem test_tredI : acts (.tredI ⟨false, false, 7, 2, 0⟩ .xor) (at_ .lane [0, 1, 2] [[1, 2, 4]]) =
    some [.vreg 2 [(0, 7), (1, 7), (2, 7)]] := by decide +kernel
theorem test_cardf_agrees : acts (.cardf ⟨false, 7, 0⟩) (at_ .lane [0, 1] [[9, 9]]) = some [.cardf 1 (some 9)] := by decide +kernel
/-- Lanes 1 and 2 differ from lane 0: FDV with 9, the first other value 8, and the mask 6 (R245). -/
theorem test_cardf_differs : trap (.cardf ⟨false, 7, 0⟩) (at_ .lane [0, 1, 2] [[9, 8, 7]]) = some ⟨1, 0x05, 9, 8, 6⟩ := by decide +kernel

/-! ## Floating-point words (R110 to R140) -/

def fval (i : FA → Instr) (a b : Word) (d : Word := 0) : Option (List Act) :=
  acts (i ⟨false, false, 7, 2, 0, 1⟩) (at_ .lane [0] [[a], [b], [d]])

theorem test_fadd : fval .fadd 0x3F800000 0x40000000 = some [.vreg 2 [(0, 0x40400000)]] ∧
    fval .fadd 0x7F7FFFFF 0x7F7FFFFF = some [.fflags 20, .vreg 2 [(0, 0x7F800000)]] := by decide +kernel
theorem test_fsub : fval .fsub 0x3F800000 0x3F800000 = some [.vreg 2 [(0, 0)]] ∧
    fval .fsub 0x7F800000 0x7F800000 = some [.fflags 1, .vreg 2 [(0, 0x7FC00000)]] := by decide +kernel
theorem test_fmul : fval .fmul 0x40400000 0xC0000000 = some [.vreg 2 [(0, 0xC0C00000)]] ∧
    fval .fmul 0x00800000 0x3F000000 = some [.vreg 2 [(0, 0x00400000)]] := by decide +kernel
theorem test_ffma : fval .ffma 0x40400000 0x40000000 0xC0C00000 = some [.vreg 2 [(0, 0)]] ∧
    fval .ffma 0x40400000 0x40000000 0x3F800000 = some [.vreg 2 [(0, 0x40E00000)]] := by decide +kernel
theorem test_fmin_fmax_zeros : fval .fmin 0 0x80000000 = some [.vreg 2 [(0, 0x80000000)]] ∧
    fval .fmax 0 0x80000000 = some [.vreg 2 [(0, 0)]] := by decide +kernel
theorem test_fmax_signalling : fval .fmax 0x7F800001 0x40400000 = some [.fflags 1, .vreg 2 [(0, 0x40400000)]] := by decide +kernel
theorem test_fun_roots : val1 (.funW · .sqrt) 0x40800000 = some [.vreg 2 [(0, 0x40000000)]] ∧
    val1 (.funW · .rcp) 0 = some [.fflags 2, .vreg 2 [(0, 0x7F800000)]] ∧
    val1 (.funW · .rsq) 0x40800000 = some [.vreg 2 [(0, 0x3F000000)]] := by decide +kernel
theorem test_fun_rounds : val1 (.funW · .floor) 0xBFC00000 = some [.vreg 2 [(0, 0xC0000000)]] := by decide +kernel
theorem test_cvt_to_int : val1 (.cvt · false false false .s32) 0x40200000 = some [.fflags 16, .vreg 2 [(0, 2)]] := by decide +kernel
/-- An enabled flag raises FPE: TVAL holds the raised and the enabled flags, TLM the lane (R134). -/
theorem test_fpe_trap :
    trap (.fmul ⟨false, false, 7, 2, 0, 1⟩)
      { at_ .lane [0, 1] [] with
        teams := [{ tm with vr := [[0x3F800000, 0x7F800000], [0x3F800000, 0]], csr := { tm.csr with trapen := 1 } }] } =
      some ⟨1, 0x02, 0x101, 0, 2⟩ := by decide +kernel

/-! ## Memory words (R163 to R168, R190): tm has g0 to g7 = 0, 0, 16, 0, 0x30, 5, 0x22, 1 -/

/-- Lane, address and data of the requests a word makes. -/
def asked (i : Instr) (s : State) : Option (List (Nat × Nat × Nat)) :=
  match acts i s with
  | some [.mem m] => some (m.lanes.map fun q => (q.lane, q.va, q.data))
  | _ => none

/-- gb1 = 16, scale 4, offsets 1 and -2: addresses 20 and 8. -/
theorem test_ldl_address : asked (.ldlN ⟨0, false, 7, 2, 0, 1, 2, 2⟩) (at_ .mem [0, 1] [[1, 0xFFFFFFFE]]) =
    some [(0, 20, 0), (1, 8, 0)] := by decide +kernel
theorem test_stl_data : asked (.stl ⟨0, false, 7, 1, 0, 1, 0, 1⟩) (at_ .mem [0] [[4], [0x12345678]]) = some [(0, 20, 0x5678)] ∧
    asked (.stlv ⟨0, false, 7, 0, 120, 1, 0⟩) (at_ .mem [0] [[1], [2], [3], [4]]) =
      some [(0, 16, 1 + 2 ^ 33 + 3 * 2 ^ 64 + 2 ^ 98)] := by decide +kernel
/-- The last byte of the allocation can be read; the one after raises PRT with its offset; before that a misaligned lane ALN. -/
theorem test_ldl_edges : asked (.ldlS ⟨0, false, 7, 2, 0, 0, 0, 0⟩) (at_ .mem [0] [[4095]]) = some [(0, 4095, 0)] ∧
    trap (.ldlN ⟨0, false, 7, 2, 0, 0, 0, 0⟩) (at_ .mem [0, 1] [[0, 4096]]) = some ⟨1, 0x09, 4096, 0, 2⟩ ∧
    trap (.ldlN ⟨0, false, 7, 2, 0, 0, 0, 2⟩) (at_ .mem [0, 1] [[8192, 6]]) = some ⟨1, 0x0A, 6, 0, 2⟩ := by decide +kernel
/-- Two lanes on one bank lengthen the pass by a cycle, the same word does not. -/
theorem test_bank_conflict : ((after (.ldlv ⟨0, false, 7, 4, 0, 0, 0⟩) (at_ .mem [0] [[0]])).map (·.extra) = some 0) ∧
    (after (.ldlN ⟨0, false, 7, 2, 0, 0, 0, 2⟩) (at_ .mem [0, 1] [[64, 64]])).map (·.extra) = some 0 := by decide +kernel
theorem test_atl_cas : acts (.atl ⟨0, false, 7, 2, 0, 1, .cas⟩) (at_ .mem [0] [[1], [0], [7], [9]]) =
    some [.mem ⟨1, 0, .atomF, 0, 4, false, .cas, 2, 0, false, [⟨0, 20, 0, 7, 9, 0, 0, .moving⟩]⟩] ∧
    asked (.atln ⟨0, false, 7, 2, 0, 1, .add⟩) (at_ .mem [0] [[1], [0], [7]]) = some [(0, 20, 7)] := by decide +kernel
/-- gb2 = (0x30, 5): 5 · 2^32 + 0x30 + 8 · 1; a base below 0 wraps at 2^56. -/
theorem test_ldg_address : asked (.ldgN ⟨0, false, 7, 2, 0, 2, 3, 3⟩) (at_ .mem [0] [[1]]) = some [(0, 0x500000038, 0)] ∧
    asked (.ldgS ⟨0, false, 7, 2, 0, 0, 0, 0⟩) (at_ .mem [0] [[0xFFFFFFFF]]) = some [(0, 2 ^ 56 - 1, 0)] ∧
    asked (.stg ⟨0, false, 7, 1, 0, 2, 0, 0⟩) (at_ .mem [0] [[0], [0x1FF]]) = some [(0, 0x500000030, 0xFF)] := by decide +kernel
theorem test_ldg_misaligned : trap (.ldgv ⟨0, false, 7, 4, 0, 2, 0⟩) (at_ .mem [0] [[8]]) = some ⟨1, 0x0A, 0x38, 5, 1⟩ ∧
    asked (.stgv ⟨0, false, 7, 0, 120, 2, 0⟩) (at_ .mem [0] [[1], [0], [0], [0]]) = some [(0, 0x500000030, 1)] := by decide +kernel
theorem test_atg : asked (.atg ⟨0, false, 7, 1, 0, 2, .xchg⟩) (at_ .mem [0] [[1], [3]]) = some [(0, 0x500000034, 3)] ∧
    asked (.atgn ⟨0, false, 7, 1, 0, 2, .add⟩) (at_ .mem [0] [[1], [3]]) = some [(0, 0x500000034, 3)] := by decide +kernel
theorem test_ldr : asked (.ldrN ⟨0, false, 7, 2, 0, 3, 1, 1⟩) (at_ .mem [0] [[1]]) = some [(0, 0x100000024, 0)] ∧
    asked (.ldrS ⟨0, true, 0, 2, 0, 3, 0, 0⟩) (at_ .mem [0, 1] [[1, 2]]) = some [(1, 0x100000024, 0)] := by decide +kernel
theorem test_str : asked (.str ⟨0, false, 7, 1, 0, 3, 1, 1⟩) (at_ .mem [0] [[1], [9]]) = some [(0, 0x100000024, 9)] ∧
    asked (.atr ⟨0, false, 7, 1, 120, 2, .add⟩) (at_ .mem [0] [[0], [3]]) = some [(0, 0x500000030, 3)] ∧
    asked (.atrn ⟨0, false, 7, 1, 120, 2, .add⟩) (at_ .mem [0] [[0], [3]]) = some [(0, 0x500000030, 3)] := by decide +kernel
/-- The zero-length store asks for every lane of the pass. -/
theorem test_strZ : asked (.strZ ⟨0, 121, 2, 2⟩) (at_ .mem [0, 1] []) = some [(0, 0x500000030, 0), (1, 0x500000034, 0)] := by
  decide +kernel
/-- gl of gb3 is 0x22, beyond the two tiles; gb0 names tile 0. -/
theorem test_acc : asked (.accwr ⟨0, false, 7, 1, 0, 0⟩) (at_ .mem [0] [[4095], [5]]) = some [(0, 4095, 5)] ∧
    trap (.accrd ⟨0, false, 7, 1, 0, 0⟩) (at_ .mem [0] [[4096]]) = some ⟨1, 0x09, 4096, 0, 1⟩ ∧
    trap (.accrd ⟨0, false, 7, 1, 0, 3⟩) (at_ .mem [0] [[0]]) = some ⟨1, 0x09, 0, 0x22, 1⟩ := by decide +kernel

/-! ## FLOW words (R70 to R76): clause starts at 0 and 40, the word at index 1 of a clause of three words -/

/-- The flow state after a word over two active lanes with a stack, and the trap. -/
def flowAt (st : List StEntry) (active : Mask) : State :=
  { at_ .flow [0, 1] [] with ev := some { passAt .flow [0, 1] 0 with flow := ⟨active, 15, st, 4⟩ } }
def flow (i : Instr) (st : List StEntry := []) (active : Mask := 3) : Option FlowSt := (after i (flowAt st active)).map (·.flow)
def flowTrap (i : Instr) (st : List StEntry := []) (active : Mask := 3) : Option PTrap := trap i (flowAt st active)

theorem test_nop_and_guard : flow (.nop ⟨false, 7⟩) = some ⟨3, 15, [], 4⟩ ∧ flow (.bra ⟨true, 7, 39⟩) = some ⟨3, 15, [], 4⟩ := by
  decide +kernel
theorem test_bra_target : flow (.bra ⟨false, 7, 39⟩) = some ⟨3, 15, [], 40⟩ ∧
    flowTrap (.bra ⟨false, 7, 38⟩) = some ⟨1, 0x03, 10, 0, 0⟩ := by decide +kernel
/-- g6 holds 0x22, no clause start; the literal 40 is one. -/
theorem test_brx_call : flowTrap (.brx ⟨false, 7, 6⟩) = some ⟨1, 0x03, 10, 0, 0⟩ ∧ flow (.brx ⟨false, 7, 120⟩) = some ⟨3, 15, [], 0⟩ ∧
    flow (.call ⟨false, 7, 120⟩) = some ⟨3, 15, [⟨.call, 4, 3⟩], 0⟩ ∧
    flowTrap (.call ⟨false, 7, 120⟩) (List.replicate 64 ⟨.call, 0, 0⟩) = some ⟨1, 0x03, 15, 0, 0⟩ := by decide +kernel
/-- p0 holds lane 0: it jumps, lane 1 is deferred, and without a region that is ILL 14; p7 takes all, its negation none. -/
theorem test_brp : flow (.brp ⟨false, 0, 39⟩) [⟨.region, 0, 3⟩] = some ⟨1, 15, [⟨.deferred, 4, 2⟩, ⟨.region, 0, 3⟩], 40⟩ ∧
    flowTrap (.brp ⟨false, 0, 39⟩) = some ⟨1, 0x03, 14, 0, 0⟩ ∧ flow (.brp ⟨false, 7, 39⟩) = some ⟨3, 15, [], 40⟩ ∧
    flow (.brp ⟨true, 7, 39⟩) = some ⟨3, 15, [], 4⟩ := by decide +kernel
/-- Parking needs an entry that holds the lanes: in a region of both, `brq` parks lane 1; without one it is ILL 14. -/
theorem test_brq : flow (.brq ⟨false, 0, 39⟩) [⟨.region, 40, 3⟩] = some ⟨1, 15, [⟨.region, 40, 3⟩], 40⟩ ∧
    flowTrap (.brq ⟨false, 0, 39⟩) = some ⟨1, 0x03, 14, 0, 0⟩ := by decide +kernel
theorem test_rcv_join : flow (.rcv ⟨false, 7, 39⟩) = some ⟨3, 15, [⟨.region, 40, 3⟩], 4⟩ ∧
    flow (.join ⟨false, 7⟩) [⟨.region, 0, 3⟩] 1 = some ⟨3, 15, [], 4⟩ ∧
    flow (.join ⟨false, 7⟩) [⟨.deferred, 40, 2⟩, ⟨.region, 0, 3⟩] 1 = some ⟨2, 15, [⟨.region, 0, 3⟩], 40⟩ ∧
    flowTrap (.join ⟨false, 7⟩) = some ⟨1, 0x03, 14, 0, 0⟩ := by decide +kernel
/-- The one region holds just the leaving lanes: it is discarded; two regions are not there. -/
theorem test_break : flow (.brk ⟨false, 7, 39⟩ 1) [⟨.region, 0, 3⟩, ⟨.region, 0, 7⟩] = some ⟨3, 15, [⟨.region, 0, 7⟩], 40⟩ ∧
    flowTrap (.brk ⟨false, 7, 39⟩ 2) [⟨.region, 0, 3⟩, ⟨.call, 0, 7⟩, ⟨.region, 0, 7⟩] = some ⟨1, 0x03, 14, 0, 0⟩ := by
  decide +kernel
theorem test_ret : flow (.ret ⟨false, 7⟩) [⟨.call, 40, 3⟩] = some ⟨3, 15, [], 40⟩ ∧
    flowTrap (.ret ⟨false, 7⟩) [⟨.region, 40, 3⟩] = some ⟨1, 0x03, 14, 0, 0⟩ := by decide +kernel
/-- With an empty stack the team ends (R72). -/
theorem test_exit : flow (.exit ⟨false, 7⟩) [⟨.deferred, 40, 4⟩] = some ⟨4, 12, [], 40⟩ ∧
    (flow (.exit ⟨false, 7⟩) [] 3).map (·.live) = some 0 := by decide +kernel
/-- g4 and g5 hold 5 · 2^32 + 0x30: a cycle for `waitc`, a descriptor not at a 64-byte boundary for `launch`. -/
theorem test_waitc_launch : acts (.waitc ⟨false, 7, 4⟩) (flowAt [] 3) = some [.waitc 0x500000030] ∧
    trap (.launch ⟨false, 7, 4⟩) (flowAt [] 3) = some ⟨1, 0x0A, 0x30, 5, 0⟩ ∧
    acts (.launch ⟨false, 7, 0⟩) (flowAt [] 3) = some [.launch 0 1] := by decide +kernel

/-! ## SYNC and SYS words (R193 to R208, R315 to R323) -/

theorem test_binit : acts (.binit ⟨false, 7, 2, 122⟩) (at_ .sync [] [] 7) = some [.obj 1 (.binit 8208 7)] ∧
    acts (.bexp ⟨false, 7, 2, 122⟩) (at_ .sync [] [] 7) = some [.obj 1 (.bexp 8208 7)] ∧
    acts (.bcred ⟨false, 7, 2, 122⟩) (at_ .sync [] [] 7) = some [.obj 1 (.bcred 8208 7)] := by decide +kernel
/-- g6 = 0x22 is not aligned; 4,096 lies outside the allocation, 4,080 inside. -/
theorem test_object_traps : trap (.binit ⟨false, 7, 6, 120⟩) (at_ .sync [] []) = some ⟨1, 0x0A, 0x22, 0, 0⟩ ∧
    trap (.bexp ⟨false, 7, 122, 120⟩) (at_ .sync [] [] 4096) = some ⟨1, 0x09, 4096, 0, 0⟩ ∧
    acts (.bexp ⟨false, 7, 122, 120⟩) (at_ .sync [] [] 4080) = some [.obj 1 (.bexp 12272 0)] := by decide +kernel
/-- An object whose EXPARR is 1: the count of `barv` must be 1. -/
def withObject : State :=
  let s := (at_ .sync [] [] 1)
  s.wr 0 (lsPa 0 (8192 + 16 + 6)) [1, 0]
theorem test_barv : acts (.barv ⟨false, 7, 2, 122⟩) { withObject with ev := some (passAt .sync [] 1) } = some [.lsRead 1 22 2, .obj 1 (.barv 8208)] ∧
    trap (.barv ⟨false, 7, 2, 122⟩) { withObject with ev := some (passAt .sync [] 2) } = some ⟨1, 0x06, 16, 2, 0⟩ ∧
    trap (.barv ⟨false, 7, 2, 120⟩) withObject = some ⟨1, 0x06, 16, 0, 0⟩ := by decide +kernel
/-- PHASE is 0: past the given phase 2^32 - 1, not past 0 (R196). -/
theorem test_phases : acts (.testph ⟨false, 7, 3, 2, 122⟩) (at_ .sync [] [] 0xFFFFFFFF) = some [.lsRead 1 16 16, .upred 3 true] ∧
    acts (.testph ⟨false, 7, 3, 2, 120⟩) (at_ .sync [] []) = some [.lsRead 1 16 16, .upred 3 false] ∧
    acts (.waitph ⟨false, 7, 3, 2, 4⟩) (at_ .sync [] []) = some [.lsRead 1 16 16, .waitph 16 0x30 3 5] ∧
    acts (.waitph ⟨false, 7, 3, 2, 122⟩) (at_ .sync [] [] 0xFFFFFFFF) = some [.lsRead 1 16 16, .upred 3 true] := by decide +kernel
theorem test_other_sync : acts (.barn ⟨false, 7, .core⟩) (at_ .sync [] []) = some [.barn .core] ∧
    acts (.fence ⟨false, 7, .pkg⟩) (at_ .sync [] []) = some [.fence .pkg 1] ∧ acts (.xfence ⟨false, 7⟩) (at_ .sync [] []) = some [.xfence] ∧
    acts (.tflush ⟨false, 7, 6⟩) (at_ .sync [] []) = some [.tflush 0x22] ∧ acts (.tbenter ⟨false, 7⟩) (at_ .sync [] []) = some [.tbenter] ∧
    acts (.tbrel ⟨false, 7⟩) (at_ .sync [] []) = some [.tbrel] ∧ acts (.fence ⟨true, 7, .pkg⟩) (at_ .sync [] []) = some [] := by
  decide +kernel

/-- A machine whose context is not privileged. -/
def user (s : State) : State := { s with ctxs := [⟨0, 0, false, [], 0, 0, 0, 0, []⟩] }

/-- WTCLO is CSR 0x010: the pass stands at cycle 100, and reads 100 with the high half captured. -/
theorem test_csrr : acts (.csrr ⟨false, 7, 0x002, 4⟩) (at_ .sys [] []) = some [.ureg 4 0] ∧
    acts (.csrr ⟨false, 7, 0x010, 4⟩) (at_ .sys [] []) = some [.ureg 4 100, .shadow 0] ∧
    acts (.wtcloRead 4) (at_ .sys [] []) = some [.ureg 4 100, .shadow 0] := by decide +kernel
theorem test_csrw : acts (.csrw ⟨false, 7, 0x002, 6⟩) (at_ .sys [] []) = some [.csr 2 .write 0 0x22] ∧
    acts (.csrs ⟨false, 7, 0x002, 6⟩) (at_ .sys [] []) = some [.csr 2 .set 0 0x22] ∧
    acts (.csrc ⟨false, 7, 0x002, 6⟩) (at_ .sys [] []) = some [.csr 2 .clear 0 0x22] := by decide +kernel
/-- HASHM0 is privileged: PRT with the CSR number outside privileged code. -/
theorem test_csr_privilege : trap (.csrr ⟨false, 7, 0x300, 4⟩) (user (at_ .sys [] [])) = some ⟨1, 0x09, 0x300, 0, 0⟩ ∧
    acts (.csrw ⟨false, 7, 0x300, 6⟩) (at_ .sys [] []) = some [.csr 0x300 .write 0x10800000 0x22] := by decide +kernel
theorem test_trap_dbrk : acts (.trapW ⟨false, 7, 0xABC⟩) (at_ .sys [] []) = some [.trap 0x0C 0xABC] ∧
    acts (.dbrk ⟨false, 7, 0xFFF⟩) (at_ .sys [] []) = some [.trap 0x11 0xFFF] := by decide +kernel
/-- Outside a trap level ILL 18; the frame is looked at as the pass commits. -/
theorem test_tret : trap (.tret ⟨false, 7⟩) (at_ .sys [] []) = some ⟨1, 0x03, 18, 0, 0⟩ ∧
    acts (.tret ⟨false, 7⟩) { at_ .sys [] [] with teams := [{ tm with tl := 1, bank1 := { Bank.reset with epc := 40 } }] } =
      some [.tret 1] := by decide +kernel
theorem test_kill : acts (.kill ⟨false, 7, 6⟩) (user (at_ .sys [] [])) = some [.kill 0x22] ∧
    trap (.kill ⟨false, 7, 122⟩) (user (at_ .sys [] [] 0x80000000)) = some ⟨1, 0x09, 0, 0, 0⟩ ∧
    acts (.kill ⟨false, 7, 122⟩) (at_ .sys [] [] 0x80000000) = some [.kill 0x80000000] := by decide +kernel
theorem test_shift_wdog : acts (.shiftW ⟨false, 7, 4⟩) (at_ .sys [] []) = some [.shift 0x500000030 0x22 1 7] ∧
    trap (.shiftW ⟨false, 7, 4⟩) (user (at_ .sys [] [])) = some ⟨1, 0x09, 0, 0, 0⟩ ∧
    acts (.wdog ⟨false, 7, 6⟩) (at_ .sys [] []) = some [.wdog 0x22] := by decide +kernel
theorem test_migdrain : acts (.migdrain ⟨false, 7, 6⟩) (at_ .sys [] []) = some [.migdrain 6 0x22] ∧
    trap (.migdrain ⟨false, 7, 6⟩) (user (at_ .sys [] [])) = some ⟨1, 0x09, 0, 0, 0⟩ := by decide +kernel

/-! ## Steps of the machine: a state that meets a rule's hypotheses, and what the rule then says -/

/-- The next state of a step of the table; and a fact about it. -/
def nx (i : Instr) (s : State) : Option State := match exec i s with | .next t => some t | _ => none
def gives (i : Instr) (s : State) (f : State → Bool) : Bool := (nx i s).any f

/-- A step stands on the agenda for the cycle. -/
def soon (s : State) (cyc : Nat) (i : Instr) : Bool := s.agenda.any fun e => e.cyc = cyc && e.ev = i

/-- A word of the LS of core 0, and a register. -/
def ls (s : State) (off n : Nat) : Nat := s.rd 0 (lsPa 0 off) n
def reg (s : State) (n l : Nat) : Option Word := (s.team? 1).map (·.v n l)

/-- Flight 9 of team 1, its register v2; a lane of it. -/
def fl (k : MemKind) (space n : Nat) (lanes : List LaneReq) (sx : Bool := false) (op : AOp := .add) : Flight :=
  ⟨9, 1, 2, 0, 0, 0, 0, k, space, n, sx, op, 2, 0, 100, 0, 0, 1, 1, 0, 0, false, none, lanes⟩
def ln (lane home : Nat) (data : Nat := 0) (st : LaneSt := .moving) (due : Nat := 0) (got : Nat := 0) : LaneReq :=
  ⟨lane, home, home, data, 0, got, due, st⟩

/-- The small machine in a cycle with flights; v0 to v2 hold 0 in lanes 0 and 1. -/
def sm (now : Nat) (fs : List Flight) : State :=
  { base { tm with vr := List.replicate 3 [0, 0] } with wtc := now, flights := fs }

/-- A signed byte lands extended in its lane, and in no other (R48, R165). -/
theorem test_load_lands : gives (.loadDataWritten 5)
    { sm 200 [fl .load 0 1 [ln 0 0 0 .performed 200 0x80] true] with landings := [⟨5, 9, [0]⟩] }
    (fun t => reg t 2 0 = some 0xFFFFFF80 && reg t 2 1 = some 0 && t.landings = []) = true := by decide +kernel
/-- A staged store and an accumulator write (R149, R168). -/
theorem test_staged_store : gives (.stagedStorePerformed 5)
    { sm 200 [] with staged := [⟨5, 1, 0, 0, 0, 8192, 1, ⟨0, 0, 1, 1⟩, .bytes [(4, [0x11, 0x22, 0x33, 0x44])]⟩] }
    (fun t => ls t 8196 4 = 0x44332211 && ls t 8192 4 = 0 && ls t 8200 4 = 0 && t.staged = []) = true ∧
  gives (.stagedStorePerformed 5) { sm 200 [] with staged := [⟨5, 1, 0, 0, 0, 8192, 1, ⟨0, 0, 1, 1⟩, .acc [(4096, 9)]⟩] }
    (fun t => accWord t.acc 4096 = 9 && accWord t.acc 4097 = 0) = true := by decide +kernel
/-- 7 at the LS home, 5 added; the old value lands four cycles later (R150, R167). -/
theorem test_ls_atomic : gives (.lsAtomicPerformed 5)
    { (sm 200 [fl .atomF 0 4 [ln 0 (lsPa 0 8192) 5]]).wr 0 (lsPa 0 8192) [7, 0, 0, 0] with
      staged := [⟨5, 1, 0, 0, 0, 8192, 1, ⟨0, 0, 1, 1⟩, .atomic 9⟩] }
    (fun t => ls t 8192 4 = 12 && t.landings.any (fun y => y.flight = 9 && soon t 204 (.loadDataWritten y.id))) = true := by
  decide +kernel
/-- A load of another core's LS reads there in its cycle and lands 20 cycles later (R151). -/
theorem test_global_access : gives (.packageGlobalAccess 9)
    ((sm 200 [fl .load 1 4 [ln 0 (lsPa 1 64) 0 .moving 200]]).wr 0 (lsPa 1 64) [1, 2, 3, 4])
    (fun t => t.landings.any (fun y => y.lanes = [0] && soon t 220 (.loadDataWritten y.id)) &&
      (t.flight? 9).any (fun f => f.lanes.any fun q => q.got = 0x04030201)) = true := by decide +kernel
/-- Lane 1 has an address fault: the imprecise event names its address and mask (R312). -/
theorem test_fault_report : gives (.faultReport 9)
    (sm 200 [fl .load 1 4 [ln 0 64 0 .moving 300, ln 1 0x500000010 0 .err 200 cPRT]])
    (fun t => (t.team? 1).any fun m => m.events.any fun e =>
      e.imp && e.cause = 0x09 && e.tval = 0x10 && e.tvalh = 5 && e.tlm = 2) = true := by decide +kernel

/-! ### Device memory and walks -/

def seg (op : SegOp) (after : Nat := 0) : Seg := ⟨0, after, 1, false, op⟩

/-- Address 64 has bit 6 alone: every parity of R159's masks is 0, so it waits at pseudo-channel 0. -/
theorem test_gather_arrives : gives (.gatherPacketArrival 5) { sm 300 [] with gathers := [⟨5, 0, [(0, seg (.walk 0 0))]⟩] }
    (fun t => (t.pc 0 0).queue.map (fun g => (g.arr, g.op)) = [(300, .walk 0 0)] && t.gathers = []) = true := by decide +kernel
/-- The first segment writes; the next is served two cycles on (R153). -/
theorem test_segment_served : gives (.segmentServed 0 0)
    { sm 300 [] with pcs := [⟨0, 0, [seg (.haulWrite 0 0 0 64 [1, 2, 3, 4]), seg (.walk 0 0)], 0, 0, 0, 300, 0⟩] }
    (fun t => t.rd 0 64 4 = 0x04030201 && (t.pc 0 0).busy = 302 && (t.pc 0 0).queue.length = 1 &&
      soon t 302 (.segmentServed 0 0)) = true := by decide +kernel
/-- Phase point 1 of the round stands at cycle 76: channels 1, 65, … are taken until 524 (R160). -/
theorem test_refresh : gives (.refreshPhasePoint 0 1) (sm 76 [])
    (fun t => (t.pc 0 1).busy = 524 && (t.pc 0 65).busy = 524 && (t.pc 0 2).busy = 0) = true := by decide +kernel
theorem test_replay : gives (.parityAlertReplay 0 3) { sm 300 [] with pcs := [⟨0, 3, [seg (.walk 0 0)], 0, 0, 0, 300, 0⟩] }
    (fun t => (t.pc 0 3).replays = 1 && (t.pc 0 3).queue.all (428 ≤ ·.after) && t.notices = [⟨0, 4, 3, 1, 300⟩]) = true := by
  decide +kernel

/-- A table in force from cycle 0 with frames of 4,096 cycles, compute-bound from 1,000 to 2,000 of each. -/
def tab : Sched := ⟨12, 100, 100, 0, 7, 0, 0, [(1, [20])], [(1000, 1000)]⟩
def scheduled (s : State) : State := s.modPkg 0 fun x => { x with sched := some tab, schedRun := true }
theorem test_bound_refresh : gives (.computeBoundRefresh 0 3) (scheduled (sm 1100 []))
    (fun t => (t.pc 0 3).busy = 1548 && (t.pc 0 3).bal = 1 && soon t 1548 (.computeBoundRefresh 0 3)) = true ∧
  gives (.computeBoundRefresh 0 3) (scheduled (sm 1600 [])) (fun t => (t.pc 0 3).busy = 0 && (t.pc 0 3).bal = 0) = true := by
  decide +kernel
def wk (level table entry : Nat) (started : Bool) : Walk := ⟨5, 0, 0, 0, 0, 1, 0x3000, level, table, entry, started, .record 9⟩
/-- Index 0 of the root: its entry is read 200 cycles ahead of the pseudo-channels (R147, R338). -/
theorem test_page_walk : gives (.pageWalk 0 0)
    { sm 300 [] with walks := [wk 0 0 0 false], ctxs := [⟨0, 0, true, [], 0x4000, 0, 0, 0, []⟩] }
    (fun t => t.walks = [wk 3 0x4000 0 true] &&
      t.gathers.any (fun g => g.segs.any (fun z => z.2.op = .walk 0 0x4000) && soon t 500 (.gatherPacketArrival g.id))) = true := by
  decide +kernel
/-- A leaf of level 0 with RD and WR maps its 4 KiB; a pointer leads to level 1 at index 0 of the next table (R146). -/
theorem test_walk_level : gives (.walkLevelRead 0 0) { sm 300 [] with walks := [wk 0 0x4000 0x700F true] }
    (fun t => (t.core 0 0).tlb = [⟨0, 0x3000, 4096, 0x7000, true, true, false, 0⟩] && t.walks = []) = true ∧
  gives (.walkLevelRead 0 0) { sm 300 [] with walks := [wk 1 0x4000 0x8001 true] }
    (fun t => t.walks = [wk 0 0x8000 0x8001 true] && t.gathers.any fun g => g.segs.any fun z => z.2.op = .walk 0 0x8018) = true := by
  decide +kernel

/-! ### Remote stores, atomics and loads -/

/-- A pod of packages 0 and 1 with every link trained to LINKDLY 40. -/
def pod (s : State) : State :=
  { s with pkgs := [0, 1].map fun k => { Pkg.reset k with ports := List.replicate 32 { Port.reset with up := true, delay := 40 } } }
def tubIs (s : State) (k : Nat) : Tub := (s.pkg 0).tubs.getD k Tub.reset
/-- A store of 7 to address 64 of package 1; an addition to it. -/
def el (k : MemKind := .store) : Elem :=
  ⟨2 ^ 48 + 64, 64, 7, 0, 15, k, .add, 0, 0, 0, 1, 0, 0, 0, 10, [⟨9, 0, 7⟩], 0, 0, false, 1, false, false⟩
def pkt (src dst : Nat) (b : PBody) (taken : Nat := 0) : Packet := ⟨30, src, dst, 1, 2, 0, 0, b, 0, taken, [], 1⟩
def withTub (s : State) : State := s.modPkg 0 fun x => { x with tubs := x.tubs.set 0 ⟨1, 1, [el]⟩ }
def remote (now : Nat) (k : MemKind := .store) (st : LaneSt := .moving) : State :=
  pod (sm now [fl k 2 4 [ln 0 (2 ^ 48 + 64) 7 st now]])

theorem test_tub_offer : gives (.tubOffer 9) (remote 500)
    (fun t => (tubIs t 0).st = 1 && (tubIs t 0).dkey = 1 && (tubIs t 0).elems.map (fun e => (e.pa, e.data, e.be, e.ins)) = [(64, 7, 15, 500)] &&
      soon t 1012 (.ageTrigger 0 0)) = true := by decide +kernel
theorem test_tub_insertion : gives (.tubFreeInsertion 0) ((remote 500).modPkg 0 fun x => { x with waiting := [el] })
    (fun t => tubIs t 0 = ⟨1, 1, [{ el with ins := 500 }]⟩ && (t.pkg 0).waiting = []) = true := by decide +kernel
/-- In the cycle its element is 512 cycles in the tub, it closes, with a packet of two slots; a cycle before, it does not. -/
theorem test_age_trigger : gives (.ageTrigger 0 0) (withTub (remote 522))
    (fun t => (tubIs t 0).st = 2 && (t.port 0 1).tubq.map (·.slots) = [2]) = true ∧
  gives (.ageTrigger 0 0) (withTub (remote 521)) (fun t => (tubIs t 0).st = 1) = true := by decide +kernel
theorem test_tflush : gives (.tflushEffect 0 1 1) (withTub (remote 50)) (fun t => (tubIs t 0).st = 2) = true ∧
  gives (.tflushEffect 0 1 2) (withTub (remote 50)) (fun t => (tubIs t 0).st = 1) = true ∧
  gives (.tflushEffect 0 1 0x80000000) (withTub (remote 50)) (fun t => (tubIs t 0).st = 2) = true := by decide +kernel
theorem test_pod_fence_drain : gives (.podFenceDrain 1) (withTub (remote 50)) (fun t => (tubIs t 0).st = 2) = true := by
  decide +kernel
/-- The unanswered element is noted with TMO, cause 6 in bits 15..12 of its record (R181, R182). -/
theorem test_tub_timeout : gives (.tubTimeout 0 30) ((remote 500).modPkg 0 fun x => { x with out := [pkt 0 1 (.tub 0 [el])] })
    (fun t => (t.pkg 0).out = [] && (t.ctx? 0 0).any fun x => x.pend.any fun r =>
      r.data.take 8 = [64, 0, 0, 0, 0, 0, 1, 0] && bytesNat ((r.data.drop 12).take 4) / 4096 % 16 = 6) = true := by decide +kernel
def opened (s : State) : State := s.modPkg 1 fun x => { x with windows := x.windows.set 0 ⟨true, 0, 4096, true, true, true⟩ }
def arrived (s : State) (b : PBody) : State := s.modPkg 1 fun x => { x with inn := [pkt 0 1 b] }
/-- Inside an accept window the element goes to device memory; without one it has fault 1, WIN (R179). -/
theorem test_element_issue : gives (.elementIssue 1 30 0) (arrived (opened (remote 500)) (.tub 0 [el, el]))
    (fun t => t.gathers.any fun g => g.pkg = 1 && soon t 700 (.gatherPacketArrival g.id)) = true ∧
  gives (.elementIssue 1 30 0) (arrived (remote 500) (.tub 0 [el]))
    (fun t => soon t 700 (.elementPerformed 1 30 0) && (t.inn? 1 30).any fun x => x.body = .tub 0 [{ el with fault := 1 }]) = true := by
  decide +kernel
/-- The store writes 7 and is the last; the atomic adds 7 to 5 and keeps 5 (R176, R180). -/
theorem test_element_performed : gives (.elementPerformed 1 30 0) (arrived (remote 500) (.tub 0 [el]))
    (fun t => t.rd 1 64 4 = 7 && t.rd 0 64 4 = 0 && t.due = [.op (.acknowledgementSend 1 30)]) = true ∧
  gives (.elementPerformed 1 30 0) ((arrived (remote 500) (.tub 0 [el .atomF, el])).wr 1 64 [5, 0, 0, 0])
    (fun t => t.rd 1 64 4 = 12 && (t.inn? 1 30).any fun x => x.body = .tub 0 [{ el .atomF with old := 5, done := true }, el]) = true := by
  decide +kernel
theorem test_ack_send : gives (.acknowledgementSend 1 30) (arrived (remote 500) (.tub 0 [{ el .atomF with done := true, old := 5 }]))
    (fun t => (t.pkg 1).inn = [] && (t.port 1 0).hdrq.map (fun y => (y.slots, y.dst)) = [(2, 0)]) = true := by decide +kernel
/-- The answer settles the packet; the old value lands 40 cycles on (R176). -/
theorem test_ack_arrival : gives (.acknowledgementArrival 0 31)
    { (remote 500 .atomF).modPkg 0 fun x => { x with out := [pkt 0 1 (.tub 0 [el .atomF])] } with
      packets := [{ pkt 1 0 (.ack 30 [{ el .atomF with done := true, old := 5 }]) with id := 31 }] }
    (fun t => (t.pkg 0).out = [] && t.packets = [] && (t.pkg 0).acked.any fun y => soon t 540 (.remoteOldValueWritten 0 y.id)) = true := by
  decide +kernel
theorem test_old_value : gives (.remoteOldValueWritten 0 31)
    ((pod (sm 540 [fl .atomF 2 4 [ln 0 (2 ^ 48 + 64) 7 .performed 540 5]])).modPkg 0 fun x =>
      { x with acked := [{ pkt 1 0 (.ack 0 [{ el .atomF with done := true, old := 5 }]) with id := 31 }] })
    (fun t => reg t 2 0 = some 5 && (t.pkg 0).acked = []) = true := by decide +kernel
/-- The OPEN tub of the destination closes ahead of the request; RTIMEOUT counts from the commit, 40 cycles before (R187). -/
theorem test_load_request : gives (.remoteLoadRequest 9) (withTub (remote 500 .load))
    (fun t => (tubIs t 0).st = 2 && (t.pkg 0).out.any fun y => y.dkey = 1 && soon t (460 + 1250000) (.remoteLoadTimeout 0 y.id)) = true := by
  decide +kernel
def rl (st : Nat) : RLane := ⟨0, 2 ^ 48 + 64, 64, 0, 0, st⟩
theorem test_load_access : gives (.remoteLoadAccess 1 30 0) (arrived (opened (remote 500 .load)) (.loadReq 9 4 0 [rl 0, rl 0]))
    (fun t => t.gathers.any fun g => soon t 700 (.gatherPacketArrival g.id)) = true ∧
  gives (.remoteLoadAccess 1 30 0) ((arrived (remote 500 .load) (.loadReq 9 4 0 [rl 1])).wr 1 64 [7, 0, 0, 0])
    (fun t => soon t 820 (.remoteLoadReply 1 30) && (t.inn? 1 30).any fun x => x.body = .loadReq 9 4 0 [{ rl 2 with got := 7 }]) = true := by
  decide +kernel
theorem test_load_reply : gives (.remoteLoadReply 1 30) (arrived (remote 500 .load) (.loadReq 9 4 0 [{ rl 2 with got := 7 }]))
    (fun t => (t.pkg 1).inn = [] && (t.port 1 0).hdrq.map (fun y => (y.slots, y.dkey)) = [(2, 30)]) = true := by decide +kernel
def requested (s : State) : State := s.modPkg 0 fun x => { x with out := [pkt 0 1 (.loadReq 9 4 0 [rl 0])] }
theorem test_reply_arrival : gives (.remoteLoadReplyArrival 0 31)
    { requested (remote 500 .load) with packets := [{ pkt 1 0 (.loadReply 9 4 [{ rl 2 with got := 7 }]) with id := 31, dkey := 30 }] }
    (fun t => (t.pkg 0).out = [] && t.landings.any fun y => y.lanes = [0] && soon t 540 (.loadDataWritten y.id)) = true := by
  decide +kernel
theorem test_load_timeout : gives (.remoteLoadTimeout 0 30) (requested (remote 500 .load))
    (fun t => (t.team? 1).any (fun m => m.csr.rstat = 1) && t.landings.any fun y => y.lanes = [0] && soon t 500 (.loadDataWritten y.id)) =
      true := by decide +kernel
/-- A peer's error ends the one element of its packet with RERR, cause 5 (R188). -/
theorem test_ualink_completion : gives (.ualinkCompletion 0 30 0 true 0)
    ((remote 500).modPkg 0 fun x => { x with out := [{ pkt 0 1 (.tub 0 [el]) with dkey := 4096 }] })
    (fun t => (t.pkg 0).out = [] && (t.ctx? 0 0).any fun x => x.pend.any fun r =>
      bytesNat ((r.data.drop 12).take 4) / 4096 % 16 = 5) = true := by decide +kernel

/-! ### Links -/

def queued (s : State) : State := s.modPort 0 1 fun x => { x with tubq := [{ pkt 0 1 (.tub 0 [el]) with sent := 1 }] }
/-- The last slot of the packet frees its tub, starts its timeout and arrives LINKDLY later (R175, R279). -/
theorem test_elastic_slot : gives (.elasticSlotSend 0 1)
    (queued ((remote 500).modPkg 0 fun x => { x with tubs := x.tubs.set 0 ⟨2, 1, [el]⟩ }))
    (fun t => (tubIs t 0).st = 0 && (t.port 0 1).tubq = [] && soon t 540 (.packetTakenIn 1 30) &&
      soon t (500 + 1250000) (.tubTimeout 0 30)) = true := by decide +kernel
theorem test_forward : gives (.intermediateForward 0 30) { remote 500 with packets := [pkt 5 1 (.tub 0 [el])] }
    (fun t => soon t 564 (.packetTakenIn 1 30)) = true := by decide +kernel
/-- The accesses of a packet issue one a cycle from the next on (R176, R178). -/
theorem test_taken_in : gives (.packetTakenIn 1 30) { remote 500 with packets := [pkt 0 1 (.tub 0 [el, el])] }
    (fun t => soon t 501 (.elementIssue 1 30 0) && soon t 502 (.elementIssue 1 30 1) && (t.inn? 1 30).isSome) = true := by decide +kernel
/-- LINKDLY is 3 · WIRE + 32; port 3 leads to a package that is not in the pod (R278, R280). -/
theorem test_link_training : gives (.linkTraining 0 1 20 true) (remote 0) (fun t => (t.port 0 1).delay = 92 && (t.port 0 1).up) = true ∧
    gives (.linkTraining 0 3 20 true) (remote 0) (fun t => (t.port 0 3).delay = 0 && !(t.port 0 3).up) = true := by decide +kernel
/-- L1 = 20: one replay lags 56, within 72; a second at once goes beyond it, kind 5 (R281). -/
theorem test_crc_replay : gives (.crcReplay 0 3) ((remote 500).modPort 0 3 fun x => { x with wire := 20 })
    (fun t => (t.port 0 3).lag = 56 && t.due = []) = true ∧
  gives (.crcReplay 0 3) ((remote 500).modPort 0 3 fun x => { x with wire := 20, lag := 56, lagAt := 500 })
    (fun t => t.due = [.op (.scheduleFault 0 5 256 0 0)]) = true := by decide +kernel

/-! ### Traps and kills -/

def trapped (b1 : Bank) (e : TeamEvent) (tl : Nat := 0) : State :=
  { base { tm with vr := [], bank1 := b1, tl := tl, events := [e] } with wtc := 200 }
/-- ILL 10 of the first word in pass 1 of clause 0. -/
def ill : TeamEvent := ⟨1, 3, false, false, 10, 0, 0, 0, 200, 0, 0x101, 0, false⟩
/-- e = 199: the handler is ready at e + 9, its frame is staged for e + 20, and the record counts the words (R310). -/
theorem test_trap_entry : gives (.trapEntry 1) (trapped { Bank.reset with vec := 0x80000028 } ill)
    (fun t => ((t.team? 1).any fun m => m.tl = 1 && m.pc = 40 && m.bank1.cause = 3 && m.bank1.val = 10 && m.bank1.pass = 0x101 &&
      m.readyAt = 208 && m.events = []) && t.staged.any (fun y => t.agenda.any fun a => a.cyc = 219 && a.ev = .stagedStorePerformed y.id) &&
      t.records.map (fun r => (r.cause, r.level, r.tval)) = [(3, 1, 10)]) = true := by decide +kernel
/-- No valid vector: the gang is killed in e + 1; a save area beyond the LS takes PRT at level 2 (R309, R310). -/
theorem test_trap_levels : gives (.trapEntry 1) (trapped .reset ill)
    (fun t => soon t 200 (.gangKill 2 0) && (t.gang? 2).any (fun g => g.killAt = some 200 && g.killCause = 3) && t.records = []) = true ∧
  gives (.trapEntry 1)
    (let s := trapped { Bank.reset with vec := 0x80000028, save := 3648 } ill
     { s with teams := s.teams.map fun m => { m with bank2 := { Bank.reset with vec := 0x80000028 } } })
    (fun t => (t.team? 1).any fun m => m.tl = 2 && m.bank2.cause = 9 && m.bank2.val = 3648) = true := by decide +kernel
theorem test_gang_kill : gives (.gangKill 2 0) { trapped .reset ill with
    gangs := [{ loaderGang 2 0 with killAt := some 200, killCause := 3 }] }
    (fun t => t.teams.all (fun m => m.ended && m.stopped && m.events = []) &&
      t.records.map (fun r => (r.cause, r.level, r.tval, r.core)) = [(0x10, 3, 3, 0)]) = true := by decide +kernel
theorem test_kill_completion : gives (.killCompletion 2) { sm 201 [] with
    teams := [{ tm with ended := true, stopped := true }], gangs := [{ loaderGang 2 0 with killAt := some 200, statusPa := some 128, tag := 6 }] }
    (fun t => t.gangs = [] && t.teams = [] && t.rd 0 128 4 = 3 && t.notices = [⟨0, 1, 6, 3, 201⟩]) = true := by decide +kernel
theorem test_watchdog : gives (.watchdogExpiry 2) { sm 200 [] with gangs := [{ loaderGang 2 0 with wdog := some 200 }] }
    (fun t => (t.team? 1).any fun m => m.events.any fun e => e.cause = 0x0E && e.order = 3) = true ∧
  gives (.watchdogExpiry 2) { sm 200 [] with gangs := [{ loaderGang 2 0 with wdog := some 200, state := .out }] }
    (fun t => (t.gang? 2).any fun g => g.killAt = some 200 && g.killCause = 0x0E) = true := by decide +kernel

/-- The commit of a pass whose first word trapped: the trap waits, the clause is over, v2 keeps its value (R47). -/
theorem test_trapped_pass : (match step
    (let s := { sm 200 [] with due := [.commit 0 0] }
     let r := loaderRun 1 .lane [0, 0] 199
     s.modCore 0 0 fun x => { x with run := some { r with
        done := some { curOf tm r [0, 1] with acts := [.vreg 2 [(0, 5)]], trap := some ⟨1, 1, 0, 0, 3⟩ } } }) with
    | .next t => reg t 2 0 = some 0 && (t.core 0 0).run.isNone &&
        (t.team? 1).any fun m => m.pc = 0 && m.events.any fun e => e.cause = 1 && e.pass = 0x101 && e.tlm = 3
    | _ => false) = true := by decide +kernel
/-- A frame with lanes 0 and 1 and a depth of 0: the return leaves level 1 for 0 at TEPC (R320). -/
theorem test_trap_return :
    (let m : Team := { tm with tl := 1, bank1 := { Bank.reset with epc := 40 }, active := 1, stack := [⟨.region, 0, 3⟩] }
     let s := (base m).wr 0 (lsPa 0 8192) [3]
     let t := s.applyAct m (curOf m (loaderRun 1 .sys [0] 100) []) (loaderRun 1 .sys [0] 100) true (.tret 1)
     (t.team? 1).any fun z => z.tl = 0 && z.pc = 40 && z.active = 3 && z.stack = []) = true := by decide +kernel

/-! ### Waits and barrier objects -/

/-- One arrival of one expected completes the phase; 64 bytes of 64 expected do; PHASE counts up (R194, R195). -/
theorem test_object : gives (.barrierObjectUpdate 5)
    { (sm 200 []).wr 0 (lsPa 0 8208) [0, 0, 0, 0, 0, 0, 1, 0] with staged := [⟨5, 1, 0, 0, 0, 8192, 1, ⟨0, 0, 1, 1⟩, .barv 8208⟩] }
    (fun t => ls t 8208 4 = 1 && ls t 8212 2 = 0 && ls t 8214 2 = 1) = true ∧
  gives (.barrierObjectUpdate 5) { sm 200 [] with staged := [⟨5, 1, 0, 0, 0, 8192, 1, ⟨0, 0, 1, 1⟩, .binit 8208 3⟩] }
    (fun t => ls t 8208 4 = 0 && ls t 8214 2 = 3) = true := by decide +kernel
theorem test_credit : gives (.engineCredit 0 0 1 8208 64) ((sm 200 []).wr 0 (lsPa 0 8216) [64])
    (fun t => ls t 8208 4 = 1 && ls t 8220 4 = 0) = true ∧
  gives (.engineCredit 0 0 1 8208 63) ((sm 200 []).wr 0 (lsPa 0 8216) [64])
    (fun t => ls t 8208 4 = 0 && ls t 8220 4 = 63) = true := by decide +kernel

def waiting (w : Wait) (trapen : Word := 0) : State :=
  { base { tm with vr := [], waits := [w], gp := [true, true, true, true, false, false, false], csr := { TeamCsr.reset with trapen := trapen } } with
    wtc := 200 }
theorem test_deadline : gives (.waitphDeadline 1) (waiting (.phase 16 0 3 200) 0x400)
    (fun t => (t.team? 1).any fun m => m.waits = [] && m.gp[3]? = some false && m.events.any fun e => e.cause = 0x0C && e.tval = 16) = true ∧
  gives (.waitphDeadline 1) (waiting (.phase 16 0 3 201)) (fun t => (t.team? 1).any fun m => m.waits.length = 1) = true := by
  decide +kernel
theorem test_barn_round : gives (.barnRoundComplete 1 (Scope.code .core).toNat) (waiting (.barn .core 0))
    (fun t => (t.team? 1).any fun m => m.waits = []) = true ∧
  gives (.barnRoundComplete 1 (Scope.code .core).toNat) (waiting (.barn .core 1))
    (fun t => (t.team? 1).any fun m => m.waits.length = 1) = true := by decide +kernel
/-- With no access outstanding a fence is over; with a store on its way it is not (R205). -/
theorem test_fence_completion : gives (.fenceCompletion 1) (waiting (.fence .pkg 150 0 1 false))
    (fun t => (t.team? 1).any fun m => m.waits = []) = true ∧
  gives (.fenceCompletion 1) { waiting (.fence .pkg 150 0 1 false) with flights := [fl .store 1 4 [ln 0 64 7 .moving 300]] }
    (fun t => (t.team? 1).any fun m => m.waits.length = 1) = true := by decide +kernel
/-- A store without its acknowledgement: the drain is given up, and the fence is marked to wait for the rest alone (R186, R204). -/
theorem test_fence_timeout : gives (.podFenceTimeout 1 150)
    { waiting (.fence .pod 150 0 1 false) with flights := [fl .store 2 4 [ln 0 (2 ^ 48 + 64) 7 .moving 140]] }
    (fun t => (t.team? 1).any fun m => m.waits = [.fence .pod 150 0 1 true] && m.csr.rstat = 1) = true := by decide +kernel
theorem test_tag_release : gives (.tagBoardRelease 2 0)
    (sm 200 [{ fl .store 1 4 [ln 0 64 7 .held 0] with round := some (0, 0) }])
    (fun t => (t.gang? 2).any (·.releasedOf 0 = 1) && t.flights.all fun f => f.lanes.all (·.st ≠ .held)) = true := by decide +kernel
theorem test_drain_receipt : gives (.migdrainReceipt 1 30) { remote 500 with packets := [pkt 0 1 (.drain 7 0 1)] }
    (fun t => t.packets = [] && (t.port 1 0).hdrq.map (·.body) = [.drainReply 1]) = true := by decide +kernel
theorem test_drain_reply : gives (.migdrainReply 1 true)
    (pod ({ waiting (.migdrain 3 150) with flights := [] })|>.modPkg 0 fun x => { x with drains := [⟨1, 1, 3, 7, 150, [1], none, none⟩] })
    (fun t => (t.team? 1).any fun m => m.waits = [] && m.ur[3]? = some 1) = true ∧
  gives (.migdrainReply 30 false)
    (let s := (pod (waiting (.migdrain 2 150))).modPkg 0 fun x => { x with drains := [⟨1, 1, 2, 7, 150, [1], none, none⟩] }
     { s with packets := [pkt 1 0 (.drainReply 1)] })
    (fun t => (t.team? 1).any fun m => m.waits = [] && m.ur[2]? = some 0) = true := by decide +kernel

/-! ### Clauses, launches and ends -/

/-- An image in device memory at 4,096, mapped one to one by a range entry. -/
def imaged (s : State) (ws : List Nat) : State :=
  { s with gangs := [{ loaderGang 2 0 with starts := [0], desc := { (loaderGang 2 0).desc with entry := 4096 } }],
           ctxs := [⟨0, 0, true, [⟨0, 2 ^ 40, 0, true, true, true, true, true, 0, 0⟩], 0, 0, 0, 0, []⟩] }.wr 0 4096 (ws.flatMap (natBytes 4))
/-- FLOW clauses of one word: `exit` runs from the next cycle on; opcode 0x3F is refused with ILL 3 before pass 1 (R64). -/
theorem test_clause_start : gives (.clauseStart 0 0) (imaged (sm 200 []) [0x18000000, 0x28E00000])
    (fun t => (t.core 0 0).run.any (fun r => r.team = 1 && r.hdr = 0 && r.first = 201 && r.words = [0x28E00000]) &&
      (t.core 0 0).lastSlot = some 0) = true ∧
  gives (.clauseStart 0 0) (imaged (sm 200 []) [0x18000000, 0xFCE00000])
    (fun t => (t.core 0 0).run.isNone && (t.team? 1).any fun m => m.events.any fun e => e.cause = 3 && e.tval = 3 && e.pass = 0x101) =
      true := by decide +kernel
theorem test_team_end : gives (.teamEnd 1) { sm 200 [] with teams := [{ tm with live := 0, active := 0 }] }
    (fun t => (t.team? 1).any (·.ended)) = true ∧ gives (.teamEnd 1) (sm 200 []) (fun t => (t.team? 1).any (!·.ended)) = true := by
  decide +kernel
theorem test_gang_end : gives (.gangEnd 2) { sm 200 [] with teams := [{ tm with ended := true }] }
    (fun t => soon t 201 (.gangEnd 2) && (t.gang? 2).any (·.ended = 1)) = true ∧
  gives (.gangEnd 2) { sm 201 [] with teams := [{ tm with ended := true }], gangs := [{ loaderGang 2 0 with ended := 1, statusPa := some 128 }] }
    (fun t => t.gangs = [] && t.rd 0 128 4 = 2) = true := by decide +kernel
theorem test_waitc_release : gives (.waitcRelease 1) (waiting (.until 200)) (fun t => (t.team? 1).any (·.waits = [])) = true ∧
  gives (.waitcRelease 1) (waiting (.until 201)) (fun t => (t.team? 1).any (·.waits = [.until 201])) = true := by decide +kernel

/-- One block of one team of one warp, 8 vector and 64 uniform registers, no LS, parameter 2^32 + 5. -/
def one : Desc := ⟨4096, 1, 1, 1, 8, 64, 0, 0, 0, 0, 0, 0, 0, 2 ^ 32 + 5⟩
def admitting (fail : Nat) : State :=
  { sm 200 [] with teams := [], gangs := [] }.modPkg 0 fun x =>
    { x with admitting := some ⟨⟨100, 256, 0, 64, 0, 0, 9, true, 0⟩, 200, fail, 2, one, some 128, [0], [1]⟩ }
/-- A fresh team has its parameter in g0 and g1; a failed request leaves its status alone (R79, R86). -/
theorem test_admission : gives (.admissionCompletion 0) (admitting 0)
    (fun t => t.rd 0 128 4 = 1 && soon t 201 (.gangStart 50) && t.teams.any fun z =>
      z.pl.core = 1 && z.ur.take 3 = [5, 1, 0] && z.vr.length = 8 && z.active = 0xFFFFFFFF && z.pc = 0) = true ∧
  gives (.admissionCompletion 0) (admitting 0x11) (fun t => t.rd 0 128 4 = 0x11 && t.teams = [] && t.gangs = []) = true := by decide +kernel
theorem test_gang_start : gives (.gangStart 2) { sm 200 [] with gangs := [{ loaderGang 2 0 with started := false }] }
    (fun t => (t.gang? 2).any (·.started)) = true := by decide +kernel
theorem test_join_timeout : gives (.joinTimeout 0 3) ((sm 200 []).modPkg 0 fun x => { x with joins := [⟨3, 4, 100, [2], 1, [(0, 9)]⟩] })
    (fun t => (t.pkg 0).joins.map (·.failed) = [3] && t.notices.any fun e => e = ⟨0, 8, 3, 9, 200⟩) = true := by decide +kernel

/-! ### Cards and engines -/

/-- Card 40 of team 1, accepted in cycle 100; the machine in a cycle with it on core 0. -/
def cd (q : Nat) (ws : List Word) (start : Option Nat := none) : Card :=
  ⟨40, q, 1, 2, 0, 0, 0, ⟨1, 0, 1, 1⟩, ws, 100, start, none, none, [], [], false, false, .reset, [], false, 0, 0⟩
def wc (now : Nat) (k : Card) : State := (sm now []).modCore 0 0 fun x => { x with cards := [k] }
def got (t : State) (f : Card → Bool) : Bool := (t.card? 0 0 40).any f

def mzeroW : List Word := [0x23000000, 0x00000100, 0x80000010]
def queuedCard (ws : List Word) : State := (sm 102 []).modCore 0 0 fun x =>
  { x with queues := x.queues.set 0 ⟨ws.map fun w => ⟨1, 2, w⟩, [⟨100, 1, 0, ⟨1, 0, 1, 1⟩, ws.length⟩], 0⟩ }
/-- Two cycles after its clause the card is accepted; with four tiles where two are allocated it is refused, code 8 (R235, R239). -/
theorem test_acceptance : gives (.cardAcceptance 0 0 0) (queuedCard mzeroW)
    (fun t => (t.core 0 0).cards.map (fun k => (k.words, k.accept, k.edges)) = [(mzeroW, 102, [])] &&
      (t.core 0 0).queues.map (·.words.length) = [0, 0, 0, 0]) = true ∧
  gives (.cardAcceptance 0 0 0) (queuedCard [0x23000000, 0x00000400, 0x80000010])
    (fun t => (t.core 0 0).cards = [] && (t.team? 1).any fun m => m.csr.mstat.toNat / 65536 % 16 = 8) = true := by decide +kernel
theorem test_edge_release : gives (.edgeRelease 0 0 40 39) (wc 200 { cd 0 mzeroW with edges := [39, 38] })
    (fun t => got t (·.edges = [38])) = true := by decide +kernel
theorem test_mm_starts : gives (.mm 0 0 40) (wc 201 (cd 0 [0x18080000, 0, 1024, 0x00010101, 0, 0, 0, 0x11]))
    (fun t => got t (·.start = some 201) && soon t 202 (.matrixStep 0 0 0 0)) = true := by decide +kernel
theorem test_tile_cards_start : gives (.mzero 0 0 40) (wc 201 (cd 0 mzeroW)) (fun t => soon t 201 (.matrixTileChunk 0 0 0 1)) = true ∧
  gives (.aload 0 0 40) (wc 201 (cd 0 [0x34000000, 0, 0x100, 0])) (fun t => soon t 202 (.matrixTileChunk 0 0 0 0)) = true ∧
  gives (.adrain 0 0 40) (wc 201 (cd 0 [0x44000000, 0, 0x100, 0])) (fun t => soon t 202 (.matrixTileChunk 0 0 0 1)) = true ∧
  gives (.mzero 0 0 40) (wc 101 (cd 0 mzeroW)) (fun t => got t (·.start = none)) = true := by decide +kernel
def copyW : List Word := [0x18100000, 0, 0x40000000, 64, 0x40000000, 0x00400001, 0, 0x80000010]
def fillW : List Word := [0x27000000, 64, 0x40000000, 0x44332211, 0x00080001, 0, 0x80000010]
/-- Haul phases are 1 modulo 4, grinder phases 7 modulo 8 (R22). -/
theorem test_engine_cards_start : gives (.copy 0 0 40) (wc 202 (cd 1 copyW)) (fun t => soon t 205 (.haulPieceRead 0 0 0)) = true ∧
  gives (.fill 0 0 40) (wc 202 (cd 1 fillW)) (fun t => soon t 205 (.haulPieceWrite 0 0)) = true ∧
  gives (.gather 0 0 40) (wc 202 (cd 1 [0x39000000, 0, 0, 0, 0, 0x00400001, 64, 1, 0])) (fun t => soon t 205 (.haulPieceRead 0 0 0)) = true ∧
  gives (.quant 0 0 40) (wc 202 (cd 2 [0x17000000, 0, 512, 1024, 0x00300001, 0, 0])) (fun t => soon t 207 (.grinderGroup 0 0 0 0)) = true ∧
  gives (.dequant 0 0 40) (wc 202 (cd 2 [0x26000000, 0, 512, 1024, 0x00300001, 0])) (fun t => soon t 207 (.grinderGroup 0 0 0 0)) = true := by
  decide +kernel

/-- `mzero` clears word 5 of its tile and, as its last chunk, ends the card; the credit of 16,384 bytes follows two cycles on. -/
theorem test_tile_chunk : gives (.matrixTileChunk 0 0 0 1) { wc 201 (cd 0 mzeroW (some 201)) with acc := [(5, 9)] }
    (fun t => accWord t.acc 5 = 0 && got t (·.fin = some 201) && soon t 203 (.engineCredit 0 0 1 8208 16384)) = true ∧
  gives (.matrixTileChunk 0 0 0 0) ((wc 202 (cd 0 [0x34000000, 0, 0x100, 0] (some 201))).wr 0 (lsPa 0 8192) [7])
    (fun t => got t (fun k => (k.buffer 0).take 2 = [7, 0] && (k.buffer 0).length = 1024) && soon t 204 (.matrixTileChunk 0 0 0 1)) =
      true := by decide +kernel
/-- The first read of step 0 brings its bytes, and the next follows two cycles on (R254); an error in them stops the card. -/
theorem test_matrix_step : gives (.matrixStep 0 0 0 0)
    ((wc 202 (cd 0 [0x18080000, 0, 1024, 0x00010101, 0, 0, 0, 0x33] (some 201))).wr 0 (lsPa 0 8192) [7])
    (fun t => got t (fun k => (k.buffer 0).take 2 = [7, 0]) && soon t 204 (.matrixStep 0 0 0 1)) = true ∧
  gives (.matrixStep 0 0 0 0)
    { wc 202 (cd 0 [0x18080000, 0, 1024, 0x00010101, 0, 0, 0, 0x33] (some 201)) with uce := [lsPa 0 8192] }
    (fun t => got t fun k => k.stopped) = true := by decide +kernel
theorem test_re_execution : gives (.reExecution 0 0 0) (wc 210 (cd 0 [0x18080000, 0, 1024, 0x00010101, 0, 0, 0, 0x33] (some 201)))
    (fun t => got t (·.delay = 72) && (t.team? 1).any fun m => m.csr.mstat = 0x100) = true := by decide +kernel
/-- The one piece of the copy is read at its LS in phase 205 and written from 213 on (R270, R271). -/
theorem test_haul_read : gives (.haulPieceRead 0 0 0) (wc 205 (cd 1 copyW (some 201)))
    (fun t => soon t 205 (.haulPieceRead 0 0 1) && got t fun k => k.haul.pieces.map (fun x => (x.k, x.src, x.len)) = [(0, some (lsPa 0 8192), 64)]) =
      true ∧
  gives (.haulPieceRead 0 0 1) ((wc 205 { cd 1 copyW (some 201) with
      haul := { HaulSt.reset with next := 1, pieces := [⟨0, some (lsPa 0 8192), some 64, 64, false, none, [], 0⟩] } }).wr 0 (lsPa 0 8192) [7])
    (fun t => got t fun k => k.haul.pieces.map (fun x => (x.ready, x.data.take 2)) = [(some 205, [7, 0])]) = true := by decide +kernel
theorem test_haul_write : gives (.haulPieceWrite 0 0) (wc 213 { cd 1 copyW (some 201) with
      haul := { HaulSt.reset with next := 1, pieces := [⟨0, some (lsPa 0 8192), some 64, 64, false, some 205, [1, 2, 3, 4], 0⟩] } })
    (fun t => ls t 8256 4 = 0x04030201 && got t fun k => k.haul.pieces = []) = true := by decide +kernel
/-- A group of one block of F32, all ones, to MXINT8: read in its phase; written 8 cycles later, element 0 as 64 with scale 127. -/
theorem test_grinder_group :
    (let k := cd 2 [0x17000000, 0, 512, 1024, 0x00A00001, 0, 0x80000010] (some 202)
     gives (.grinderGroup 0 0 0 0) ((wc 207 k).wr 0 (lsPa 0 8192) ((List.replicate 32 [(0 : Byte), 0, 0x80, 0x3F]).flatten))
       (fun t => soon t 215 (.grinderGroup 0 0 0 1) && gives (.grinderGroup 0 0 0 1) { t with wtc := 215 }
         fun u => ls u 8704 2 = 0x4040 && ls u 9216 1 = 127 && got u (·.fin = some 215))) = true := by decide +kernel

/-! ### Slots, rings and quiet points -/

/-- `sendat` of two slots at 300 and 310 through a port; its chunk is read in the last phase 3 not after 292. -/
def sendW (port : Nat) : List Word := [BitVec.ofNat 32 (0x15800000 + port * 65536), 300, 0, 128, 10]
theorem test_sendat : gives (.sendat 0 0 40) (wc 210 (cd 3 (sendW 1)))
    (fun t => soon t 300 (.scheduledSlotSend 0 0 40 0) && soon t 291 (.sendatChunkRead 0 0 40 0) &&
      got t (fun k => k.slots.map (fun x => (x.k, x.cyc)) = [(0, 300), (1, 310)])) = true ∧
  gives (.sendat 0 0 40) (wc 295 (cd 3 (sendW 1))) (fun t => t.due = [.op (.scheduleFault 0 1 0 0 0)]) = true := by decide +kernel
def sending (port : Nat) (d : Option (List Byte)) : Card :=
  { cd 3 (sendW port) (some 210) with slots := [⟨0, 300, d, false⟩, ⟨1, 310, d, false⟩] }
theorem test_chunk_read : gives (.sendatChunkRead 0 0 40 0) ((wc 295 (sending 1 none)).wr 0 (lsPa 0 (8192 + 64)) [7])
    (fun t => got t fun k => k.slots.map (fun x => x.data.map (·.take 2)) = [none, some [7, 0]]) = true := by decide +kernel
/-- Slot 20 of each frame of the table is scheduled on port 1: cycle 4,116 is; cycle 300 collides (R289). -/
theorem test_slot_send :
    (let at_ (n : Nat) : State := scheduled (pod ({ wc n (sending 1 (some [9])) with wtc := n }))
     let k (n : Nat) : State := (at_ n).modCore 0 0 fun x => { x with cards := x.cards.map fun y => { y with slots := [⟨0, n, some [9], false⟩] } }
     gives (.scheduledSlotSend 0 0 40 0) (k 4116) (fun t => t.due = [] && t.packets.any fun y => soon t 4156 (.slotDelivery 1 y.id)) &&
     gives (.scheduledSlotSend 0 0 40 0) (k 300) fun t => t.due = [.op (.scheduleFault 0 9 0 0 0)]) = true := by decide +kernel
/-- `recvat` of one slot at 400 on port 2. -/
def recvW : List Word := [0x26800000, 400, 64, 64, 0x80000010, 0x00010002]
def receiving : Card := { cd 3 recvW (some 210) with slots := [⟨0, 400, none, false⟩] }
theorem test_recvat : gives (.recvat 0 0 40) (wc 210 (cd 3 recvW))
    (fun t => soon t 400 (.recvat 0 0 40) && t.due = [] && got t fun k => k.slots.map (·.cyc) = [400]) = true ∧
  gives (.recvat 0 0 40) (wc 400 receiving) (fun t => t.due = [.op (.scheduleFault 0 8 0 0 0)] && got t (·.missing)) = true := by
  decide +kernel
def slotPkt (port : Nat) : Packet := { pkt 1 0 (.slot port 0 0 4 6 [1, 2, 3, 4]) with dkey := 0 }
/-- The slot waits to be written from 404 on, in phase 403 + 8; no receive at all is ORPHAN, kind 7, with the core, slot
and context of the sender (R292, R293, R373). -/
theorem test_slot_delivery : gives (.slotDelivery 0 30) { wc 400 receiving with packets := [slotPkt 2] }
    (fun t => t.packets = [] && (t.core 0 0).landing.map (fun l => (l.cyc, l.dst)) = [(400, 8256)] && soon t 411 (.landingWrite 0 0)) = true ∧
  gives (.slotDelivery 0 30) { wc 400 receiving with packets := [slotPkt 3] }
    (fun t => t.due = [.op (.scheduleFault 0 7 0 4 6)]) = true := by decide +kernel
theorem test_landing : gives (.landingWrite 0 0)
    ((sm 411 []).modCore 0 0 fun x => { x with landing := [⟨400, 8256, 40, 0, [1, 2, 3, 4]⟩, ⟨408, 8320, 40, 1, [9]⟩] })
    (fun t => ls t 8256 4 = 0x04030201 && ls t 8320 1 = 0 && (t.core 0 0).landing.length = 1) = true := by decide +kernel

/-- Ring 5 of 512 bytes at LS 64 with HEAD at 1,024, for core 0 of package 0. -/
def ringdefW : List Word := [0x45000000, 64, 0x00000509, 1024, 0]
def ring5 : Ring := ⟨5, 0, 8256, 9, 9216, 0, 0, 0, 0, 8192, 1⟩
def ringed (s : State) : State := s.modCore 0 0 fun x => { x with rings := [ring5] }
theorem test_ringdef : gives (.ringdef 0 0 40) ((wc 200 (cd 3 ringdefW)).wr 0 (lsPa 0 9216) [9, 9])
    (fun t => ls t 9216 8 = 0 && (t.ring? 0 0 5).any fun r => r.base = 8256 && r.log2 = 9 && r.ctl = 9216 && r.ppkg = 0 && r.pcore = 0) =
      true := by decide +kernel
/-- A message of 8 bytes to ring 5 of core 0 of the own package: read in phase 203, gone at 243, there 20 cycles later (R296). -/
def putW : List Word := [0x35000000, 0x00050000, 0, 8, 0]
theorem test_ringput : gives (.ringput 0 0 40) (wc 200 (cd 3 putW))
    (fun t => soon t 203 (.sendatChunkRead 0 0 40 0) && soon t 243 (.ringMessageDeparture 0 0 40)) = true := by decide +kernel
theorem test_ring_departure : gives (.ringMessageDeparture 0 0 40)
    (wc 243 { cd 3 putW (some 200) with slots := [⟨0, 0, some [1, 2, 3, 4, 5, 6, 7, 8], false⟩] })
    (fun t => t.packets.any (fun y => y.body = .ring 0 40 0 5 8 [1, 2, 3, 4, 5, 6, 7, 8] 0 && soon t 263 (.ringMessageArrival 0 y.id)) &&
      soon t (243 + 1250000) (.ringTimeout 0 40)) = true := by decide +kernel
def message : Packet := pkt 0 0 (.ring 0 40 0 5 8 [1, 2, 3, 4, 5, 6, 7, 8] 0)
/-- Accepted: 16 bytes behind the header of LEN, source, core and number are written from 303 on; refused with no ring there. -/
theorem test_ring_arrival : gives (.ringMessageArrival 0 30) { ringed (sm 263 []) with packets := [message] }
    (fun t => soon t 307 (.ringChunkWrite 0 0 30 0) && (t.core 0 0).ringWrites.any fun w =>
      w.size = 16 && w.data.take 12 = [8, 0, 0, 0, 0, 0, 0, 0, 1, 2, 3, 4]) = true ∧
  gives (.ringMessageArrival 0 30) { sm 263 [] with packets := [message] }
    (fun t => (t.core 0 0).ringdrop = 1 && t.packets.any fun y => y.body = .ringAck 0 40 false && soon t 283 (.ringAckArrival 0 y.id)) = true := by
  decide +kernel
def ringing (now : Nat) : State := (ringed (sm now [])).modCore 0 0 fun x =>
  { x with ringWrites := [⟨5, 0, 0, [8, 0, 0, 0, 0, 0, 0, 0, 1, 2, 3, 4, 5, 6, 7, 8], 30, 16⟩] }
theorem test_ring_write : gives (.ringChunkWrite 0 0 30 0) (ringing 307)
    (fun t => ls t 8264 4 = 0x04030201 && soon t 308 (.ringChunkWrite 0 0 30 1)) = true ∧
  gives (.ringChunkWrite 0 0 30 1) (ringing 308) (fun t => ls t 9216 4 = 16 && (t.core 0 0).ringWrites = []) = true := by decide +kernel
def put : Card := { cd 3 [0x35000000, 0x00050000, 0, 8, 0x80000010] (some 200) with count := 1 }
theorem test_ring_ack : gives (.ringAckArrival 0 30) { wc 300 put with packets := [pkt 0 0 (.ringAck 0 40 false)] }
    (fun t => soon t 340 (.ringAckArrival 0 30)) = true ∧
  gives (.ringAckArrival 0 30) { wc 340 put with packets := [pkt 0 0 (.ringAck 0 40 false) 300] }
    (fun t => (t.team? 1).any (fun m => m.csr.fstat = 1) && t.due = [.op (.engineCredit 0 0 4 8208 8)]) = true := by decide +kernel
theorem test_ring_timeout : gives (.ringTimeout 0 40) (wc 300 put) (fun t => (t.team? 1).any fun m => m.csr.fstat = 2) = true := by
  decide +kernel
def quietW : List Word := [0x53800000, 300, 77]
theorem test_quiet : gives (.quiet 0 0 40) (wc 250 (cd 3 quietW)) (fun t => soon t 300 (.quietCheck 0 0 40)) = true ∧
  gives (.quietCheck 0 0 40) (wc 300 (cd 3 quietW (some 250)))
    (fun t => (t.team? 1).any fun m => m.csr.qpoint = 77 && m.csr.qcyc = 300) = true ∧
  gives (.quietCheck 0 0 40) ((wc 300 (cd 3 quietW (some 250))).modCore 0 0 fun x => { x with cards := { cd 0 mzeroW with id := 41 } :: x.cards })
    (fun t => t.due = [.op (.scheduleFault 0 10 0 0 0)]) = true := by decide +kernel

/-! ### The schedule and time -/

/-- LINKDLY 40: the halt waits for the first boundary of 4,096 from 5,000 + 96 + 80 on (R302). -/
theorem test_schedule_fault : gives (.scheduleFault 0 9 0 0 0) (scheduled (remote 5000))
    (fun t => (t.pkg 0).halt = some (8192, 0, 9) && (t.pkg 0).fcnt = 1 && soon t 8192 (.haltAtBoundary 0) &&
      t.records.map (fun r => (r.cause, r.tval)) = [(0x0D, 9)]) = true := by decide +kernel
theorem test_halt_receipt : gives (.haltReceipt 0 4096 1 5) (scheduled ((remote 3000).modPkg 0 fun x => { x with halt := some (8192, 0, 9) }))
    (fun t => (t.pkg 0).halt = some (4096, 1, 5)) = true ∧
  gives (.haltReceipt 0 8192 1 5) (scheduled ((remote 3000).modPkg 0 fun x => { x with halt := some (8192, 0, 9) }))
    (fun t => (t.pkg 0).halt = some (8192, 0, 9)) = true := by decide +kernel
theorem test_halted : gives (.haltAtBoundary 0)
    (let s := scheduled ((waiting (.until 9999)).modPkg 0 fun x => { x with halt := some (8192, 3, 9) })
     { s with wtc := 8192, gangs := s.gangs.map fun g => { g with desc := { g.desc with flags := 1 } } })
    (fun t => (t.pkg 0).halted && (t.team? 1).any fun m => m.waits = [] && m.events.any fun e => e.cause = 0x0D && e.tval = 0x309) = true := by
  decide +kernel
theorem test_restart : gives (.restart 0) ((sm 8192 []).modPkg 0 fun x => { x with rs := some 8192 }) (fun t => (t.pkg 0).rs = none) = true := by
  decide +kernel
theorem test_frame : gives (.frameBoundary 0)
    ((sm 8192 []).modPkg 0 fun x => { x with next := some { tab with from_ := 8192, intervals := [] }, slackM := [(0, 5)] })
    (fun t => (t.pkg 0).sched.any (·.from_ = 8192) && (t.pkg 0).next.isNone && (t.pkg 0).slackM = [] &&
      soon t 12288 (.frameBoundary 0)) = true := by decide +kernel
/-- Die 1 has the islands 32 to 63; a difference of 3 within a package raises SKEW (R27, R306). -/
theorem test_pulse : gives (.correctionPulse 0 ⟨1, [-2]⟩) (sm 65536 [])
    (fun t => (t.pkg 0).slew[32]? = some (-2, 65536) && (t.pkg 0).slew[31]? = some (0, 0) && t.due = []) = true ∧
  gives (.correctionPulse 0 ⟨1, [-3]⟩) (sm 65536 []) (fun t => t.due = [.op (.scheduleFault 0 13 256 0 0)]) = true := by decide +kernel
theorem test_skew : gives (.timestampExchange 0 8) (sm 0 []) (fun t => t.due = []) = true ∧
  gives (.timestampExchange 0 (-9)) (sm 0 []) (fun t => t.due = [.op (.scheduleFault 0 13 256 0 0)]) = true := by decide +kernel
theorem test_ptp : gives (.ptpMessage 0 4) (sm 0 []) (fun t => (t.pkg 0).ptpOffset = 4 && (t.pkg 0).refAdj = -4) = true ∧
  gives (.ptpMessage 0 4) (scheduled (sm 0 [])) (fun t => (t.pkg 0).ptpOffset = 4 && (t.pkg 0).refAdj = 0) = true := by decide +kernel

/-! ### Control registers -/

/-- TRAPEN has bits 10..8 and 4..0; RSTAT clears what a 1 is written to; RTIMEOUT holds at least 1,024 (R132, R184, R189). -/
theorem test_csr_write : gives (.csrWrite 1 2 .write 0 0xFFFFFFFF) (sm 0 []) (fun t => (t.team? 1).any fun m => m.csr.trapen = 0x71F) = true ∧
  gives (.csrWrite 1 3 .write 7 2)
    { sm 0 [] with teams := [{ tm with csr := { tm.csr with rstat := 7 } }] } (fun t => (t.team? 1).any fun m => m.csr.rstat = 5) = true ∧
  gives (.csrWrite 1 0x30 .write 0 5) (sm 0 []) (fun t => (t.pkg 0).rtimeout = 1024) = true ∧
  gives (.csrWrite 1 0 .write 0 5) (sm 0 []) (fun t => t = sm 0 []) = true := by decide +kernel
/-- HASHM7 is held and takes effect with HASHM8; a set with an anchor twice does not (R158, R159). -/
theorem test_hash : gives (.hashmHeldWrite 0 7 0x04000001) (sm 0 [])
    (fun t => (t.pkg 0).hashm = hashm0 && gives (.hashm8Apply 0 0x08000002) t fun u => (u.pkg 0).hashm[7]? = some 0x04000001) = true ∧
  gives (.hashm8Apply 0 0x04000000) (sm 0 []) (fun t => (t.pkg 0).hashm = hashm0) = true := by decide +kernel
theorem test_tubage : gives (.tubageWrite 0 9) (withTub (remote 20)) (fun t => (t.pkg 0).tubage = 64 && soon t 74 (.ageTrigger 0 0)) = true := by
  decide +kernel
/-- A ring of 32 records at 65,536: record 0 is written and counted; where HEAD is 32 ahead of TAIL one is lost (R183, R184). -/
def noted (h : Word) (issued written : Bool) : State :=
  { sm 300 [] with ctxs := [⟨0, 0, true, [⟨0, 2 ^ 40, 0, true, true, true, true, true, 0, 0⟩], 0, 0x105, h, 0,
    [⟨7, 1, h.toNat, 65536, 300, issued, false, written, List.replicate 32 9⟩]⟩] }
theorem test_tuberr_record : gives (.tuberrRecordWrite 7) (noted 0 false false)
    (fun t => t.gathers.any fun g => g.segs.any fun z => z.1 = 65536) = true ∧
  gives (.tuberrRecordWrite 7) (noted 32 false false)
    (fun t => (t.team? 1).any (fun m => m.csr.rstat = 4) && (t.ctx? 0 0).any (·.pend = [])) = true := by decide +kernel
theorem test_tuberr_head : gives (.tuberrHeadAdvance 7) (noted 0 true true)
    (fun t => (t.ctx? 0 0).any (fun x => x.tuberrH = 1 && x.pend = []) && (t.team? 1).any fun m => m.csr.rstat = 2) = true ∧
  gives (.tuberrHeadAdvance 7) (noted 0 true false) (fun t => (t.ctx? 0 0).any (·.tuberrH = 0)) = true := by decide +kernel

/-! ### Shift change -/

/-- Gang 3 in SHADOW beside gang 2 on core 0, both with SHIFTOK. -/
def shadowed (now : Nat) (st : GState) : State :=
  let d : Desc := { (loaderGang 2 0).desc with flags := 8 }
  let saves : List SaveSt := if st = .spill then [⟨0, 0, false, 0, false⟩] else []
  let sw : Option Switch := some ⟨5000, 3, some 5000, some 9⟩
  { sm now [] with
    teams := [tm, { Team.start 4 ⟨0, 0, 64, 0, 0, 3, 1, 8, 64, 0, 0, 0, 0, 256, 2, 256, 1, 1⟩ 0 0 with vr := [] }],
    gangs := [{ loaderGang 2 0 with state := st, image := 0x400000, switch := sw, num := 1, saves := saves, desc := d },
              { loaderGang 3 0 with state := .shadow, num := 2, desc := d }] }
theorem test_switch : gives (.swtch 2) (shadowed 5000 .run)
    (fun t => (t.gang? 2).any (·.state = .spill) && (t.gang? 3).any (·.state = .run) && soon t 5096 (.spill 0 0 2 0) &&
      (t.team? 4).any (5096 ≤ ·.readyAt)) = true := by decide +kernel
theorem test_spill : gives (.spill 0 0 2 0) (shadowed 5096 .spill)
    (fun t => soon t 5097 (.spill 0 0 2 1) && t.gathers.any fun g => soon t 5304 (.gatherPacketArrival g.id)) = true := by decide +kernel
theorem test_spill_complete : gives (.spillComplete 2)
    (let s := shadowed 6000 .spill
     { s with gangs := s.gangs.map fun g => { g with saves := g.saves.map fun v => { v with finished := true } } })
    (fun t => (t.gang? 2).any (·.state = .out)) = true := by decide +kernel
theorem test_fill_complete : gives (.fillComplete 2) (shadowed 6000 .fill) (fun t => (t.gang? 2).any (·.state = .shadow)) = true := by
  decide +kernel
/-- Once the spill has read every unit, a reply goes to its place in the image. -/
theorem test_spilled_reply :
    (let s := shadowed 6000 .spill
     gives (.spilledReplyWrite 5)
       { s with gangs := s.gangs.map fun g => { g with saves := [⟨0, 100000, true, 0, false⟩] },
                teams := s.teams.map fun m => { m with vr := List.replicate 3 [0, 0] },
                flights := [fl .load 0 4 [ln 0 0 0 .performed 200 7]], landings := [⟨5, 9, [0]⟩] }
       fun t => t.landings = [] && t.gathers.any fun g => g.segs.any fun z =>
         match z.2.op with | .spill 0 2 pa bs => 0x400000 ≤ pa && bs = [7, 0, 0, 0] | _ => false) = true := by decide +kernel

/-! ### Start-up, power and identity -/

theorem test_cold_start : gives (.coldStart ⟨0, 5, 0, false, 0, [], [(1, 20)]⟩) (((pod (sm 77 [])).modPkg 1 fun x => { x with boot := 0 }).wr 0 64 [1])
    (fun t => t.wtc = 0 && (t.pkg 0).num = 5 && (t.pkg 0).boot = 0x80 && (t.port 0 1).delay = 92 && t.rd 0 64 1 = 0 && t.teams = []) = true ∧
  gives (.coldStart ⟨0, 0, 3, false, 0, [], []⟩) (sm 77 []) (fun t => (t.pkg 0).boot = 3) = true := by decide +kernel
/-- A step that is run and fails gives its code (R351). -/
theorem test_warm_reset : gives (.warmReset 0 ⟨9, true, 0, 0, false, [], []⟩) ((sm 77 []).modPkg 0 fun x => { x with tubage := 64 })
    (fun t => (t.pkg 0).tubage = 512 && t.teams = [] && t.gangs = [] && t.responses.map (fun r => (r.tag, r.status)) = [(9, 0)]) = true ∧
  gives (.warmReset 0 ⟨9, true, 11, 0, false, [4], []⟩) (sm 77 []) (fun t => (t.pkg 0).boot = 4) = true := by
  decide +kernel
theorem test_canary : gives (.canaryWarning 0 2) (sm 0 []) (fun t => (t.pkg 0).canary[2]? = some 5) = true ∧
  gives (.canaryWarning 0 2) ((sm 0 []).modPkg 0 fun x => { x with canary := [0, 0, 50] })
    (fun t => t.due = [.op (.scheduleFault 0 12 256 0 0)] && (t.pkg 0).throttled) = true := by decide +kernel
theorem test_power : gives (.powerMeasurement 0 1680) (sm 0 []) (fun t => (t.pkg 0).throttled = false) = true ∧
  gives (.powerMeasurement 0 1681) (sm 0 []) (fun t => (t.pkg 0).throttled) = true := by decide +kernel
theorem test_throttle_clear : gives (.throttleClear 0 9) ((sm 0 []).modPkg 0 fun x => { x with throttled := true })
    (fun t => (t.pkg 0).throttled = false) = true := by decide +kernel
def answers (t : State) : List (Nat × Bool) := (t.outbound.filter (·.kind = 8)).map fun e => (e.a, e.ok)
theorem test_spdm : gives (.spdmNegotiation 0 0x12 true true) (sm 0 [])
    (fun t => (t.pkg 0).spdm && gives (.spdmCert 0 0) t (fun u => answers u = [(0, true), (1, true)]) &&
      gives (.spdmChal 0 0 7) t (fun u => answers u = [(0, true), (2, true)]) &&
      gives (.spdmMeas 0 4) t (fun u => answers u = [(0, true), (3, true)]) &&
      gives (.spdmMeas 0 5) t (fun u => answers u = [(0, true), (3, false)])) = true ∧
  gives (.spdmUnsupportedRequest 0 9) (sm 0 []) (fun t => answers t = [(9, false)]) = true ∧
  gives (.spdmCert 0 0) (sm 0 []) (fun t => answers t = [(1, false)]) = true := by decide +kernel

/-! ### The host link and peers -/

/-- Request 30 for a lane's read of four bytes of the host window. -/
def hreq (stage : Nat) : HostReq := ⟨30, 9, [0], 0, 0, 0, false, 0xA00000000040, 4, [], stage, 0, false, none⟩
def hosted (now stage : Nat) (ats : List AtsEntry) : State :=
  (sm now [fl .load 1 4 [ln 0 0xA00000000040]]).modPkg 0 fun x => { x with host := [hreq stage], ats := ats }
theorem test_host_window : gives (.hostWindowAccess 0 30) (hosted 264 0 [])
    (fun t => t.outbound.map (fun e => (e.kind, e.a)) = [(3, 0xA00000000040)] && soon t (200 + 1250000) (.hostCompletionArrival 0 30 false [])) = true ∧
  gives (.hostWindowAccess 0 30) (hosted 264 0 [⟨0, 0xA00000000000, 4096, 0, true, false⟩])
    (fun t => t.outbound.map (·.kind) = [1] && (t.hostReq? 0 30).any (·.stage = 3)) = true := by decide +kernel
theorem test_host_completion : gives (.hostCompletionArrival 0 30 true [1, 2, 3, 4]) (hosted 300 3 [])
    (fun t => (t.flight? 9).any (fun f => f.lanes.map (·.got) = [0x04030201]) && t.landings.any fun y => soon t 364 (.loadDataWritten y.id)) = true ∧
  gives (.hostCompletionArrival 0 30 false []) (hosted 300 3 [])
    (fun t => (t.team? 1).any (fun m => m.csr.rstat = 1) && t.landings.any fun y => soon t 300 (.loadDataWritten y.id)) = true := by decide +kernel
theorem test_ats : gives (.atsTranslationResponse 0 30 true true false 0x5000) (hosted 300 1 [])
    (fun t => (t.pkg 0).ats.map (fun e => (e.base, e.pa, e.rd)) = [(0xA00000000000, 0x5000, true)]) = true ∧
  gives (.atsTranslationResponse 0 30 false false false 0) (hosted 300 1 [])
    (fun t => t.outbound.map (·.kind) = [4] && (t.hostReq? 0 30).any (·.stage = 2)) = true := by decide +kernel
theorem test_pri : gives (.priPageResponse 0 30 true) (hosted 300 2 [])
    (fun t => t.outbound.map (·.kind) = [3] && (t.hostReq? 0 30).any (·.stage = 1)) = true ∧
  gives (.priPageResponse 0 30 false) (hosted 300 2 []) (fun t => (t.flight? 9).any fun f => f.lanes.map (·.st) = [.err]) = true := by
  decide +kernel
theorem test_invalidate : gives (.atsInvalidateRequest 0 4096 4096)
    (hosted 300 1 [⟨0, 4096, 4096, 0, true, true⟩, ⟨0, 8192, 4096, 0, true, true⟩])
    (fun t => (t.pkg 0).ats.map (·.base) = [8192] && t.outbound.map (·.kind) = [5]) = true := by decide +kernel
theorem test_bar2 : gives (.bar2HostAccess 0 64 4 true [1, 2, 3, 4]) (sm 300 [])
    (fun t => soon t 500 (.hostWindowAccess 0 50)) = true ∧
  gives (.bar2HostAccess 0 64 4 false []) ((sm 300 []).modPkg 0 fun x => { x with bar2 := 0x700000000000 })
    (fun t => t.outbound.map (fun e => (e.kind, e.ok)) = [(6, false)]) = true := by decide +kernel
theorem test_ualink_target : gives (.ualinkTargetRequest 0 2 (.read 64 4)) (sm 300 [])
    (fun t => t.outbound.map (fun e => (e.kind, e.ok)) = [(7, false)]) = true ∧
  gives (.ualinkTargetRequest 0 2 (.read 64 4))
    ((sm 300 []).modPkg 0 fun x => { x with uwindows := x.uwindows.set 16 ⟨true, 0, 4096, true, false, false⟩ })
    (fun t => soon t 501 (.hostWindowAccess 0 50)) = true := by decide +kernel
theorem test_scale_out : gives (.scaleOutTransfer 0 9 true 64 2 []) ((sm 300 []).wr 0 64 [1, 2])
    (fun t => t.outbound.map (fun e => (e.kind, e.data)) = [(9, [1, 2])]) = true ∧
  gives (.scaleOutTransfer 0 9 false 64 2 [3, 4]) (sm 300 []) (fun t => t.rd 0 64 2 = 0x0403) = true := by decide +kernel

/-! ### The resident service -/

def served (t : State) : List (Nat × Nat) := t.responses.map fun r => (r.tag, r.status)
def whole : RangeEntry := ⟨0, 2 ^ 40, 0, true, true, true, true, true, 0, 0⟩
theorem test_ctx_create : gives (.ctxCreate 0 9 ⟨1, false, [whole], 0x4000, 0⟩) (sm 0 [])
    (fun t => served t = [(9, 0)] && (t.ctx? 0 1).any fun x => x.root = 0x4000 && !x.priv) = true ∧
  gives (.ctxCreate 0 9 ⟨0, false, [], 0, 0⟩) (sm 0 []) (fun t => served t = [(9, 1)]) = true := by decide +kernel
theorem test_ctx_destroy : gives (.ctxDestroy 0 9 0) (sm 0 []) (fun t => served t = [(9, 2)]) = true ∧
  gives (.ctxDestroy 0 9 0) { sm 0 [] with gangs := [], teams := [] } (fun t => served t = [(9, 0)] && t.ctxs = []) = true := by
  decide +kernel
theorem test_launch_request : gives (.launchRequest 0 9 0 64 0 0) (imaged (sm 50 []) [])
    (fun t => served t = [(9, 0)] && (t.pkg 0).admitQ.map (fun a => (a.desc, a.tag)) = [(64, 9)]) = true ∧
  gives (.launchRequest 0 9 0 65 0 0) (imaged (sm 50 []) []) (fun t => served t = [(9, 1)]) = true := by decide +kernel
theorem test_kill_request : gives (.killRequest 0 9 0) (sm 50 [])
    (fun t => soon t 50 (.gangKill 2 0) && (t.gang? 2).any (·.killAt = some 50)) = true ∧
  gives (.killRequest 0 9 8) (sm 50 []) (fun t => served t = [(9, 1)]) = true := by decide +kernel
theorem test_fill_request : gives (.fillRequest 0 9 0 0) (sm 50 []) (fun t => served t = [(9, 2)]) = true ∧
  gives (.fillRequest 0 9 8 0) (sm 50 []) (fun t => served t = [(9, 1)]) = true := by decide +kernel
theorem test_shift_request :
    (let s := shadowed 50 .run
     let s := { s with gangs := s.gangs.map fun g => { g with switch := none } }
     gives (.shiftRequest 0 9 2098 1 2) s (fun t => served t = [] && (t.gang? 2).any (fun g => g.switch.any fun w => w.tag = some 9) && soon t 2098 (.swtch 2)) &&
       gives (.shiftRequest 0 9 2097 1 2) s fun t => served t = [(9, 2)]) = true := by decide +kernel
/-- A table at 64 with frames of 1,024 cycles and no map is taken for cycle 65,536, not for a cycle between frames. -/
theorem test_sched_set :
    (let s := (imaged (sm 0 []) []).wr 0 64 (natBytes 4 10 ++ natBytes 16 0 ++ natBytes 4 7)
     gives (.schedSet 0 9 0 64 65536) s (fun t => served t = [] && (t.pkg 0).nextTag = some 9 && (t.pkg 0).next.any (·.flog = 10)) &&
       gives (.schedSet 0 9 0 64 66000) s (fun t => served t = [(9, 1)])) = true := by decide +kernel
theorem test_sched_clear : gives (.schedClear 0 9) (scheduled (sm 0 [])) (fun t => served t = [(9, 0)] && (t.pkg 0).sched = none) = true := by
  decide +kernel
theorem test_restart_request : gives (.restartRequest 0 9 ⟨8192, false⟩) (scheduled ((sm 5000 []).modPkg 0 fun x => { x with halted := true }))
    (fun t => served t = [(9, 0)] && (t.pkg 0).halted = false && soon t 8192 (.restart 0)) = true ∧
  gives (.restartRequest 0 9 ⟨8192, false⟩) (scheduled (sm 5000 [])) (fun t => served t = [(9, 2)]) = true := by decide +kernel
theorem test_config : gives (.config 0 9 (.budget 800)) (sm 0 []) (fun t => (t.pkg 0).budget = 800) = true ∧
  gives (.config 0 9 (.budget 799)) (sm 0 []) (fun t => served t = [(9, 1)]) = true ∧
  gives (.config 0 9 (.window 0 ⟨true, 0, 4096, true, true, true⟩)) (sm 0 []) (fun t => served t = [(9, 2)]) = true := by decide +kernel
/-- The page at 4,096 moves to 8,192: first its entry at 0x100 loses V, RD, WR and AT, then, drained, the page is copied (R191). -/
def mig : MigSpec := ⟨0, 0, 4096, 4096, 8192, 0x100, 0x200F, []⟩
theorem test_migrate :
    (let s := ((sm 50 []).wr 0 0x100 [0x0F, 0x10]).wr 0 4096 [7]
     gives (.migrate 0 9 mig) s fun t => t.rd 0 0x100 8 = 0x1002 && (t.pkg 0).drains.map (·.svcTag) = [some 9]) = true := by decide +kernel
theorem test_notify : gives (.notify 0 9 6) (sm 0 []) (fun t => (t.pkg 0).notify = 6 && served t = [(9, 0)]) = true := by decide +kernel

/-! ## The forms of the statements that the tests above do not meet -/

/-- A machine whose team enables the flags of its low five bits in TRAPEN. -/
def flagged (en : Word) (vr : List (List Word)) : State :=
  { at_ .lane [0, 1] [] with teams := [{ tm with vr := vr, csr := { tm.csr with trapen := en } }] }
/-- 2^24 + 1 is inexact; an exclusive scan of two lanes makes no step at all (R107, R108). -/
theorem witness_scan_trap :
    trap (.tredF ⟨false, false, 7, 2, 0⟩ .add) (flagged 16 [[0x4B800000, 0x3F800000]]) = some ⟨1, 0x02, 0x1010, 0, 3⟩ ∧
    trap (.scanF ⟨false, false, 7, 2, 0⟩ .add false) (flagged 16 [[0x4B800000, 0x3F800000]]) = some ⟨1, 0x02, 0x1010, 0, 3⟩ ∧
    trap (.scanF ⟨false, false, 7, 2, 0⟩ .add true) (flagged 16 [[0x4B800000, 0x3F800000]]) = none ∧
    acts (.tredF ⟨false, false, 7, 2, 0⟩ .add) (at_ .lane [0] [[0xFFC00001]]) = some [.vreg 2 [(0, 0x7FC00000)]] := by decide +kernel
/-- `fcmp.lt` with a NaN in lane 1 (R138). -/
theorem witness_compare_trap : trap (.fcmpLt ⟨false, false, 7, .set, 1, 0, 0⟩) (flagged 1 [[0, 0x7FC00000]]) = some ⟨1, 0x02, 0x101, 0, 2⟩ := by
  decide +kernel
theorem witness_minmax : fMinMax false 0x80000000 0x80000000 = (0x80000000, 0) ∧ fMinMax true 0x3F800000 0x3F800000 = (0x3F800000, 0) := by
  decide +kernel
/-- A pass that enters after another word trapped still counts its conflicts: words 0 and 33 stand in one bank (R44, R148). -/
theorem witness_conflict_after_trap :
    (after (.ldlN ⟨0, false, 7, 2, 0, 0, 2, 2⟩)
      { at_ .mem [0, 1] [[0, 33]] with ev := some { passAt .mem [0, 1] 0 with trap := some ⟨1, 1, 0, 0, 1⟩, pos := 2 } }).any
      (fun c => c.extra = 1 && c.trap = some ⟨1, 1, 0, 0, 1⟩) = true := by decide +kernel

/-! ### Accesses that meet -/

/-- Lanes 0 and 1 add 5 and 3 to the word 7: each sees what the one before it left (R167). -/
theorem witness_atomics_meet : gives (.lsAtomicPerformed 5)
    { (sm 200 [fl .atomF 0 4 [ln 0 (lsPa 0 8192) 5, ln 1 (lsPa 0 8192) 3]]).wr 0 (lsPa 0 8192) [7, 0, 0, 0] with
      staged := [⟨5, 1, 0, 0, 0, 8192, 1, ⟨0, 0, 1, 1⟩, .atomic 9⟩] }
    (fun t => ls t 8192 4 = 15 && (t.flight? 9).any fun f => f.lanes.map (·.got) = [7, 12]) = true := by decide +kernel
/-- A store of 9 to another core's LS; a lane served at device memory, whose data lands 320 cycles later (R151, R165). -/
theorem witness_lanes_served : gives (.packageGlobalAccess 9) (sm 200 [fl .store 1 4 [ln 0 (lsPa 1 64) 9 .moving 200]])
    (fun t => t.rd 0 (lsPa 1 64) 4 = 9) = true ∧
  gives (.segmentServed 0 0)
    { (sm 300 [fl .load 1 4 [ln 0 64 0 .moving]]).wr 0 64 [1, 2, 3, 4] with pcs := [⟨0, 0, [seg (.lanes 9 [0])], 0, 0, 0, 300, 0⟩] }
    (fun t => (t.flight? 9).any (fun f => f.lanes.map (·.got) = [0x04030201]) &&
      t.landings.any fun y => y.lanes = [0] && soon t 620 (.loadDataWritten y.id)) = true := by decide +kernel
/-- A segment of two slots holds its channel four cycles; a record's is counted in the next (R153, R345). -/
theorem witness_two_slots : gives (.segmentServed 0 0)
    { sm 300 [] with pcs := [⟨0, 0, [{ seg (.haulWrite 0 0 0 64 [1]) with slots := 2 }, seg (.walk 0 0)], 0, 0, 0, 300, 0⟩] }
    (fun t => (t.pc 0 0).busy = 304 && soon t 304 (.segmentServed 0 0)) = true ∧
  gives (.segmentServed 0 0)
    { sm 300 [] with pcs := [⟨0, 0, [seg (.record 64 [1, 2] 7)], 0, 0, 0, 300, 0⟩],
                     ctxs := [⟨0, 0, true, [], 0, 0, 0, 0, [⟨7, 1, 0, 64, 300, true, false, false, []⟩]⟩] }
    (fun t => t.rd 0 64 2 = 0x0201 && soon t 301 (.tuberrHeadAdvance 7)) = true ∧
  gives (.segmentServed 0 0) { sm 300 [] with pcs := [⟨0, 0, [seg (.trapRec 64 5 [8])], 0, 0, 0, 300, 0⟩] }
    (fun t => t.rd 0 64 1 = 8 && t.notices = [⟨0, 2, 64, 5, 300⟩]) = true := by decide +kernel
/-- A fault tagged 0 of a team in level 1 waits; a second one sets MULT (R312). -/
theorem witness_held_fault :
    (let s := sm 200 [fl .load 1 4 [ln 0 64 0 .err 200 cPRT]]
     let m : Team := { tm with vr := [], tl := 1 }
     gives (.faultReport 9) { s with teams := [m] }
       (fun t => t.records.map (fun r => (r.cause, r.level)) = [(9, 0)] &&
         (t.team? 1).any fun z => z.events.map (fun e => (e.level, e.mult)) = [(0, false)] && t.nextTrap z 201 = none) &&
     gives (.faultReport 9) { s with teams := [{ m with events := [⟨4, 9, true, false, 0, 0, 0, 0, 150, 0, 0, 0, true⟩] }] }
       fun t => t.records.length = 1 && (t.team? 1).any fun z => z.events.map (fun e => (e.level, e.mult)) = [(0, true)]) = true := by
  decide +kernel
/-- A debug trap waits behind an illegal instruction (R313). -/
theorem witness_trap_order :
    (let dbg : TeamEvent := { ill with order := 5, cause := 0x11 }
     let s := trapped .reset ill
     (s.team? 1).any fun m => s.nextTrap { m with events := [dbg, ill] } 200 = some ill) = true := by decide +kernel

/-! ### Tubs -/

/-- A byte of 0x55 merges into the store that stands there; an addition joins the addition (R173). -/
theorem witness_tub_meets :
    gives (.tubOffer 9) (withTub (pod (sm 500 [fl .store 2 1 [ln 0 (2 ^ 48 + 65) 0x55 .moving 500]])))
      (fun t => (tubIs t 0).elems.map (fun e => (e.data, e.be, e.mrg, e.ins)) = [(0x5507, 15, 1, 10)]) = true ∧
    gives (.tubOffer 9) ((remote 500 .atomN).modPkg 0 fun x => { x with tubs := x.tubs.set 0 ⟨1, 1, [el .atomN]⟩ })
      (fun t => (tubIs t 0).elems.map (fun e => (e.data, e.mrg)) = [(14, 1)]) = true ∧
    gives (.tubOffer 9) (withTub (remote 500 .atomN))
      (fun t => (tubIs t 0).elems.map (fun e => (e.kind, e.mrg)) = [(.store, 0), (.atomN, 0)]) = true := by decide +kernel
/-- Two lanes that add to one word of package 1 go as one element (R177). -/
theorem witness_reduced : gives (.tubOffer 9)
    (pod (sm 500 [fl .atomF 2 4 [ln 0 (2 ^ 48 + 64) 7 .moving 500, ln 1 (2 ^ 48 + 64) 3 .moving 500]]))
    (fun t => (tubIs t 0).elems.map (fun e => (e.lane, e.data, e.parts.map (·.x))) = [(0, 10, [7, 3])]) = true := by decide +kernel
/-- With every tub taken the element waits and the tub of most elements goes; where that one's port has no partner the element takes
its place at once, and what it held is noted with NOROUTE, cause 7 (R174, R175). -/
theorem witness_eviction :
    (let full (k : Nat) (s : State) : State := s.modPkg 0 fun x => { x with tubs := List.replicate 64 ⟨1, k, [{ el with dkey := k }]⟩ }
     gives (.tubOffer 9) (full 5 (remote 500)) (fun t => (t.pkg 0).waiting = [] && (t.pkg 0).tubs.any (fun x => x.st = 1 && x.dkey = 1) &&
       (t.ctx? 0 0).any fun x => x.pend.any fun r => bytesNat ((r.data.drop 12).take 4) / 4096 % 16 = 7)) = true := by decide +kernel
/-- Elements of a tub to a UALink peer leave through its station (R188). -/
theorem witness_ualink_tub : gives (.tflushEffect 0 1 0x80000000)
    ((remote 50).modPkg 0 fun x => { x with tubs := x.tubs.set 0 ⟨1, 4096, [{ el with dkey := 4096 }]⟩ })
    (fun t => t.outbound.map (fun e => (e.kind, e.a, e.b)) = [(12, 4096, 64)] && (tubIs t 0).st = 2) = true ∧
  gives (.ualinkCompletion 0 30 0 false 0)
    ((remote 500).modPkg 0 fun x => { x with tubs := x.tubs.set 0 ⟨2, 4096, [el]⟩, out := [{ pkt 0 1 (.tub 0 [el]) with dkey := 4096 }] })
    (fun t => (t.pkg 0).out = [] && (tubIs t 0).st = 0) = true := by decide +kernel

/-! ### Links, barriers and fences -/

theorem witness_no_partner : gives (.linkTraining 0 0 20 true) (sm 0 []) (fun t => (t.port 0 0).delay = 0 && !(t.port 0 0).up) = true ∧
  gives (.packetTakenIn 1 30) { remote 500 with packets := [pkt 0 1 (.stamp false)] }
    (fun t => (t.port 1 0).hdrq.map (fun y => (y.body, y.dst)) = [(.stamp true, 0)]) = true ∧
  gives (.packetTakenIn 0 30) { remote 500 with packets := [pkt 1 0 (.stamp true)] }
    (fun t => t.due = [.op (.timestampExchange 0 0)]) = true := by decide +kernel
/-- L1 = 20: the second replay at once lags 112, 40 beyond the allowance; a slot sent 10 cycles ago comes as late (R226, R281). -/
theorem witness_late_slot : gives (.crcReplay 0 1)
    (let s := ((remote 500).modPort 0 1 fun x => { x with wire := 20, delay := 92, lag := 56, lagAt := 500 })
     let s := { s with packets := [{ pkt 0 1 (.tub 0 [el]) with last := 490, via := 1 }] }
     s.at 582 pRemote [0] (.packetTakenIn 1 30))
    (fun t => soon t 622 (.packetTakenIn 1 30) && !soon t 582 (.packetTakenIn 1 30)) = true := by decide +kernel
/-- Teams 1 and 4 of a gang on core 0: the round completes 4 cycles after the second arrival, not after the first (R203). -/
theorem witness_barn :
    (let a : Team := { tm with vr := [] }
     let b : Team := { tm with vr := [], id := 4 }
     let c := curOf a (loaderRun 1 .sync [0] 100) []
     let s := { base a with wtc := 200, teams := [a, b] }
     let t := s.applyAct a c (loaderRun 1 .sync [0] 100) true (.barn .core)
     let u := t.applyAct b c (loaderRun 4 .sync [0] 100) true (.barn .core)
     t.agenda = [] && (t.team? 1).any (·.waits = [.barn .core 1]) &&
       soon u 204 (.barnRoundComplete 1 9) && soon u 204 (.barnRoundComplete 4 9)) = true := by decide +kernel
/-- A release of round 1 of gang 2 comes under a schedule (R203). -/
theorem witness_token : gives (.packetTakenIn 0 30)
    { scheduled (pod (waiting (.barn .pod 1))) with packets := [pkt 1 0 (.token 2 1 1 true)] }
    (fun t => soon t 296 (.barnRoundComplete 1 13)) = true := by decide +kernel
/-- A remote store not yet in a tub holds a fence of scope team, one in a tub does not; a staged store holds `xfence` (R205, R206). -/
theorem witness_fences :
    (let s (w : Wait) (fs : List Flight) (g : List Staged) : State := { waiting w with flights := fs, staged := g }
     let now (s : State) : Bool := gives (.fenceCompletion 1) s fun t => (t.team? 1).any (·.waits = [])
     let st (due : Nat) : Flight := fl .store 2 4 [ln 0 (2 ^ 48 + 64) 7 .moving due]
     now (s (.fence .team 150 0 1 false) [st 200] []) && !now (s (.fence .team 150 0 1 false) [st 201] []) &&
       !now (s (.xfence 150) [] [⟨5, 1, 0, 0, 100, 8192, 1, ⟨0, 0, 1, 1⟩, .bytes [(4, [1])]⟩]) &&
       now (s (.xfence 150) [fl .load 1 4 [ln 0 64 0 .moving 300]] [])) = true := by decide +kernel

/-! ### Launches, cards and time -/

/-- A timed launch whose START is past is refused with 0x11 and raises the schedule fault 11; a joined one counts (R79, R364, R373). -/
theorem witness_admissions :
    (let with_ (d : Desc) (a : Admit → Admit) : State := (admitting 0).modPkg 0 fun x =>
       { x with admitting := x.admitting.map fun y => { y with desc := d, req := a y.req }, joins := [⟨3, 4, 0, [], 0, [(0, 9)]⟩] }
     gives (.admissionCompletion 0) (with_ { one with flags := 1, start := 199 } id)
       (fun t => t.rd 0 128 4 = 0x11 && t.gangs = [] && t.due = [.op (.scheduleFault 0 11 256 0 0)]) &&
     gives (.admissionCompletion 0) (with_ { one with flags := 1, start := 5000 } id) (fun t => soon t 5000 (.gangStart 50)) &&
     gives (.admissionCompletion 0) (with_ one fun r => { r with join := 3, njoin := 4 })
       (fun t => (t.pkg 0).joins.map (fun j => (j.first, j.members, j.failed)) = [(200, [50], 0)] && soon t (200 + 1250001) (.joinTimeout 0 3))) =
      true := by decide +kernel
theorem witness_join_request : gives (.launchRequest 0 9 0 64 3 4) (imaged (sm 50 []) [])
    (fun t => served t = [(9, 0)] && (t.pkg 0).joins = [⟨3, 4, 0, [], 0, [(0, 9)]⟩]) = true ∧
  gives (.launchRequest 0 8 0 64 3 4) ((imaged (sm 50 []) []).modPkg 0 fun x => { x with joins := [⟨3, 4, 0, [], 1, [(0, 9)]⟩] })
    (fun t => t.notices = [⟨0, 8, 3, 8, 50⟩] && (t.pkg 0).joins.map (·.tags) = [[(0, 9), (0, 8)]]) = true := by decide +kernel
/-- An error in a copy's piece, and a fault of its walk (R276). -/
theorem witness_haul_stops :
    (let k (fail : Option (Nat × Nat)) : Card := { cd 1 copyW (some 201) with
      haul := { HaulSt.reset with next := 1, pieces := [⟨0, some (lsPa 0 8192), some 64, 64, false, none, [], 0⟩], fail := fail } }
     gives (.haulPieceRead 0 0 1) { wc 205 (k none) with uce := [lsPa 0 8192] }
       (fun t => got t (fun k => k.stopped && k.fin = some 205) && (t.team? 1).any fun m => m.csr.hstat.toNat / 65536 % 16 = 11) &&
     gives (.haulPieceRead 0 0 0) (wc 205 (k (some (cTRN, 1))))
       fun t => got t (·.stopped) && (t.team? 1).any fun m => m.csr.hstat.toNat / 65536 % 16 = 14) = true := by decide +kernel
/-- The record of a schedule fault: CORE 0xFF, cause 0x0D and the kind in the first place of the ring, on its way 200 cycles (R326). -/
theorem witness_trap_ring : gives (.scheduleFault 0 9 256 2 3) (scheduled (remote 5000))
    (fun t => (t.pkg 0).recNext = 1 && t.gathers.any fun g => soon t 5200 (.gatherPacketArrival g.id) && g.segs.any fun z =>
      z.1 = 0x5FFFE00000 && match z.2.op with
        | .trapRec _ 0 d => d.length = 32 && bytesNat (d.take 8) = 5000 && bytesNat ((d.drop 12).take 4) = 0x030D02FF && bytesNat ((d.drop 16).take 4) = 9
        | _ => false) = true := by decide +kernel
theorem witness_power : gives (.powerMeasurement 0 1681) (sm 1 []) (fun t => (t.pkg 0).power = 1681 && !(t.pkg 0).throttled) = true := by
  decide +kernel
/-- The return of a frame whose depth is beyond the stack, and one to a word that starts no clause (R320). -/
theorem witness_return_faults :
    (let c (epc depth : Nat) : State :=
       let m : Team := { tm with vr := [], tl := 1, bank1 := { Bank.reset with epc := BitVec.ofNat 32 epc } }
       let s := { (base m).wr 0 (lsPa 0 (8192 + 128)) [BitVec.ofNat 8 depth] with wtc := 200, due := [.commit 0 0] }
       let r := loaderRun 1 .sys [0] 199
       s.modCore 0 0 fun x => { x with run := some { r with done := some { curOf m r [] with acts := [.tret 1] } } }
     let raises (s : State) (v : Word) : Bool := match step s with
       | .next t => (t.team? 1).any fun m => m.tl = 1 && m.events.any fun e => e.cause = 3 && e.tval = v
       | _ => false
     raises (c 40 1) 14 && raises (c 41 0) 10) = true := by decide +kernel
/-- The frame holds no lane: what the stack holds is resumed (R72, R320). -/
theorem witness_return_resumes :
    (let m : Team := { tm with tl := 1, bank1 := { Bank.reset with epc := 40 }, active := 1, stack := [⟨.deferred, 7, 2⟩] }
     let s := (base m).wr 0 (lsPa 0 (8192 + 128)) [1]
     let t := s.applyAct m (curOf m (loaderRun 1 .sys [0] 100) []) (loaderRun 1 .sys [0] 100) true (.tret 1)
     (t.team? 1).any fun z => z.tl = 0 && z.pc = 7 && z.active = 2 && z.stack = []) = true := by decide +kernel

/-! ### Outside and service -/

/-- A fill puts 1 KiB of the LS back and goes on in the next cycle (R331). -/
theorem witness_fill : gives (.fillComplete 2)
    (let s := (shadowed 6000 .fill).wr 0 0x400000 [7]
     { s with gangs := s.gangs.map fun g => { g with fills := [⟨0, [(0x400400, .ctl 0)], [⟨7, 0x400000, .ls 8192, 0, 7 :: List.replicate 1023 0, some 6000⟩]⟩] } })
    (fun t => ls t 8192 2 = 7 && soon t 6001 (.fillComplete 2) && (t.gang? 2).any (·.state = .fill)) = true := by decide +kernel
/-- A host write comes to its LS, while one that came before it waits; then at device memory it takes its pseudo-channel. -/
def hub (pa : Nat) (u : Option (Nat × UalReq)) : HostReq := ⟨31, 0, [], 0, 0, if u.isSome then 257 else 256, true, pa, 2, [7, 8], 0, 0, false, u⟩
def hubbed (l : List HostReq) : State := (sm 300 []).modPkg 0 fun x => { x with host := l }
theorem witness_hub : gives (.hostWindowAccess 0 31) (hubbed [hub (lsPa 0 64) none]) (fun t => ls t 64 2 = 0x0807 && (t.pkg 0).host = []) = true ∧
  gives (.hostWindowAccess 0 31) (hubbed [{ hub 64 none with id := 30 }, hub (lsPa 0 64) none])
    (fun t => ls t 64 2 = 0 && soon t 301 (.hostWindowAccess 0 31)) = true ∧
  gives (.hostWindowAccess 0 31) (hubbed [hub 64 none])
    (fun t => (t.pkg 0).host.map (·.stage) = [5] && t.gathers.any fun g => soon t 300 (.gatherPacketArrival g.id)) = true ∧
  gives (.hostWindowAccess 0 31) ((hubbed [{ hub (lsPa 0 64) (some (2, .atomic (lsPa 0 64) .cas 5 9)) with write := false, data := [], n := 4 }]).wr 0 (lsPa 0 64) [9])
    (fun t => ls t 64 4 = 5 && t.outbound.map (fun e => (e.kind, e.ok, e.data)) = [(7, true, [9, 0, 0, 0])]) = true := by decide +kernel
/-- A translated request leaves with its translated address, a pinned one with its own; a timed card's needs one ready (R266, R358). -/
theorem witness_host_link : gives (.hostWindowAccess 0 30) (hosted 264 0 [⟨0, 0xA00000000000, 4096, 0x5000, true, false⟩])
    (fun t => t.outbound.map (fun e => (e.kind, e.a)) = [(1, 0x5040)]) = true ∧
  gives (.hostWindowAccess 0 30) ((hosted 264 0 []).modPkg 0 fun x => { x with host := [{ hreq 0 with retried := 2 }] })
    (fun t => t.outbound.map (fun e => (e.kind, e.a)) = [(1, 0xA00000000040)]) = true ∧
  gives (.hostWindowAccess 0 30)
    ((wc 264 (cd 1 copyW (some 201))).modPkg 0 fun x => { x with host := [{ hreq 0 with card := 40, timed := true }] })
    (fun t => (t.pkg 0).host = [] && got t (·.stopped) && t.due = [.op (.scheduleFault 0 2 0 0 0)]) = true := by decide +kernel
/-- The drained migration of `mig`: the page and its new entry stand, and no buffer holds the old page (R147, R191). -/
theorem witness_migrated : gives (.migrate 0 9 mig)
    (((((sm 90 []).wr 0 0x100 [0x02, 0x10]).wr 0 4096 [7]).modPkg 0 fun x => { x with drains := [⟨60, 0, 0, 0, 50, [], some 9, some mig⟩] }).modCore
      0 0 fun x => { x with tlb := [⟨0, 0, 4096, 4096, true, true, false, 0⟩] })
    (fun t => t.rd 0 8192 1 = 7 && t.rd 0 0x100 8 = 0x200F && (t.core 0 0).tlb = [] && served t = [(9, 0)]) = true := by decide +kernel
theorem witness_settings : gives (.config 0 9 (.ringdrop 0)) ((sm 0 []).modCore 0 0 fun x => { x with ringdrop := 5 })
    (fun t => (t.core 0 0).ringdrop = 0) = true ∧
  gives (.config 0 9 (.timeRoot 1)) (pod (sm 0 [])) (fun t => (t.pkg 1).timeRoot && !(t.pkg 0).timeRoot) = true ∧
  gives (.config 0 9 (.budget 900)) ((sm 0 []).modPkg 0 fun x => { x with boot := 3 }) (fun t => served t = [(9, 2)] && (t.pkg 0).budget = 1600) = true := by
  decide +kernel

/-! ## The statements about encoding, runs and invariants -/

/-- A well-formed instruction of a class, and a word that the decoder accepts. -/
theorem witness_encode : (Instr.iadd ⟨false, true, 1, 6, 121, 122⟩).inClass .lane = true ∧
    (Instr.iadd ⟨false, true, 1, 6, 121, 122⟩).wf .lane = true ∧
    reads .lane 0x0921BCFA (.iadd ⟨false, true, 1, 6, 121, 122⟩) = true := by decide +kernel
/-- A word placed by the loader (`iadd` of a LANE clause) stands at the head of the pass, and the step runs it. -/
theorem witness_step_runs :
    (match State.reset.withFetchWord 32 0x0921BCFA, decodeTableWord 32 0x0921BCFA with
      | s, some i => (s.ev.any fun c => c.words.head? = some 0x0921BCFA) &&
          match step s, exec i s with | .next a, .next b => a.ev.isSome && a.ev = b.ev && a.ev ≠ s.ev | _, _ => false
      | _, none => false) = true := by decide +kernel
/-- A machine with memory and an accumulator word listed has the canonical form, and its step completes. -/
theorem witness_safe : (match { (sm 0 []).wr 0 4 [1, 2] with acc := [(5, 9)] } with
    | s => memWf s.mem && accWf s.acc && match step s with | .next _ => true | _ => false) = true := by decide +kernel
/-- A write at the end of one byte run replaces it and leaves its neighbours; zero leaves nothing listed. -/
theorem witness_memory : (match (sm 0 []).wr 0 4 [1, 2], ((sm 0 []).wr 0 4 [1, 2]).wr 0 5 [0] with
    | s, t => s.rd 0 4 2 = 0x0201 && t.mem = [(4, 1)] && memWf s.mem && memWf t.mem) = true := by decide +kernel
/-- A memory step that touches the range it says, and a byte outside it; a register step and one that writes none. -/
theorem witness_frames : gives (.engineCredit 0 0 1 8208 63) ((sm 200 []).wr 0 (lsPa 0 8192) [5])
    (fun t => ls t 8192 1 = 5 && t.teams = (sm 200 []).teams) = true := by decide +kernel
/-- The effects of a pass at its commit, each in the register it names. -/
theorem witness_commit :
    (let s := sm 0 []
     let f (a : Act) : State := s.applyAct tm (curOf tm (loaderRun 1 .lane [0] 0) []) (loaderRun 1 .lane [0] 0) true a
     reg (f (.vreg 2 [(1, 7)])) 2 1 = some 7 && reg (f (.vreg 2 [(1, 7)])) 2 0 = some 0 &&
     (f (.ureg 3 7)).teams.map (fun m => m.g 3) = [7] && (f (.upred 6 true)).teams.map (·.gp[6]?) = [some true] &&
     (f (.vpred 0 [(1, true)])).teams.map (·.pr[0]?) = [some 3] && (f (.fflags 4)).teams.map (·.csr.fflags) = [4]) = true := by
  decide +kernel

/-! ### Memory words at their commit, returns, stops and requests -/

def memWord (k : MemKind) (space : Nat) (ls : List LaneReq) : MemAct := ⟨1, 0, k, space, 4, false, .add, 2, 0, false, ls⟩
def whenAsked (s : State) (a : MemAct) : State :=
  s.applyAct tm (curOf tm (loaderRun 1 .mem [0] 100) []) (loaderRun 1 .mem [0] 100) true (.mem a)
def mapped (staged : List Staged) : State := { sm 200 [] with ctxs := [⟨0, 0, true, [{ whole with limit := 2 ^ 48 }], 0, 0, 0, 0, []⟩], staged := staged }
def at4 (b : Nat) : Staged := ⟨5, 1, 0, 0, 190, 8192, 1, ⟨0, 0, 1, 1⟩, .bytes [(4, natBytes 4 b)]⟩
/-- A store is staged, a load has what an earlier one staged, an LS of the package is reached over the torus, a segment of device
memory 200 cycles on; each lane of a global word has an entry (R149, R151, R153, R155). -/
theorem witness_memory_commit :
    (let local_ : LaneReq := ⟨0, 4, 0, 9, 0, 0, 0, .moving⟩
     let far (va : Nat) : LaneReq := { local_ with va := va }
     ((whenAsked (mapped []) (memWord .store 0 [local_])).staged.map fun e => (e.s, e.op)) = [(200, .bytes [(4, [9, 0, 0, 0])])] &&
     soon (whenAsked (mapped []) (memWord .store 0 [local_])) 220 (.stagedStorePerformed 51) &&
     (match whenAsked (mapped [at4 7]) (memWord .load 0 [local_]) with
      | t => t.flights.map (fun f => f.lanes.map (·.got)) = [[7]] && t.landings.map (·.lanes) = [[0]] && soon t 212 (.loadDataWritten 51)) &&
     (match whenAsked (mapped []) (memWord .load 1 [far (lsPa 4 64), { far 64 with lane := 1 }]) with
      | t => soon t 223 (.packageGlobalAccess 50) && (t.gathers.any fun g => soon t 400 (.gatherPacketArrival g.id) &&
          g.segs.map (·.1) = [64]) && t.entries 0 0 = 2 && t.teams.map (fun m => m.sb.getD 0 9) = [1]) &&
     ((whenAsked (sm 200 []) (memWord .load 1 [far 64])).walks.map (·.page)) = [0]) = true := by decide +kernel
/-- The return to pass 2 of a clause that left its passes re-runs it; PASS 0 does not (R47, R320). -/
theorem witness_return_reruns :
    (let back (pass : Word) : Option (Option (Nat × Formed)) :=
       let m : Team := { tm with tl := 1, bank1 := { Bank.reset with epc := 40, pass := pass }, active := 1, formed := [⟨1, 40, [[0], [1]], []⟩] }
       let s := (base m).wr 0 (lsPa 0 8192) [3]
       (s.applyAct m (curOf m (loaderRun 1 .sys [0] 100) []) (loaderRun 1 .sys [0] 100) true (.tret 1)).team? 1 |>.map (·.resume)
     back 0x102 = some (some (2, ⟨1, 40, [[0], [1]], []⟩)) && back 0 = some none) = true := by decide +kernel
/-- A divergent `brp` on a full stack (R76). -/
theorem witness_brp_full : flowTrap (.brp ⟨false, 0, 39⟩) (List.replicate 64 ⟨.region, 0, 3⟩) = some ⟨1, 0x03, 15, 0, 0⟩ := by
  decide +kernel
/-- An error in the object: the read is made, and no predicate is written (R162; entry 97). -/
theorem witness_object_error : acts (.testph ⟨false, 7, 3, 2, 122⟩) { at_ .sync [] [] 0 with uce := [lsPa 0 (8192 + 16)] } =
    some [.lsRead 1 16 16] := by decide +kernel
/-- A fault of a team that has stopped has its record alone (R326). -/
theorem witness_stopped_fault : gives (.faultReport 9)
    (let s := sm 200 [fl .load 1 4 [ln 0 64 0 .err 200 8]]
     { s with teams := s.teams.map fun m => { m with stopped := true } })
    (fun t => t.records.map (fun r => (r.cause, r.level)) = [(8, 0)] && t.teams.all (·.events = [])) = true := by decide +kernel
/-- A fence whose drain was given up does not wait for the answer; a reply counts for the drain it names (R186, R192, R204). -/
theorem witness_drains : gives (.fenceCompletion 1)
    { waiting (.fence .pod 150 0 1 true) with flights := [fl .load 2 4 [ln 0 (2 ^ 48 + 64) 7 .performed 140]] }
    (fun t => (t.team? 1).any (·.waits = [])) = true ∧
  gives (.migdrainReply 30 false)
    (let s := (pod (waiting (.migdrain 2 150))).modPkg 0 fun x => { x with drains := [⟨9, 1, 2, 7, 150, [1], none, none⟩] }
     { s with packets := [pkt 1 0 (.drainReply 8)] })
    (fun t => (t.team? 1).any (·.waits.length = 1) && (t.pkg 0).drains.map (·.left) = [[1]]) = true := by decide +kernel
/-- Behind a packet of its source and key whose access to the word issues in 510, an element issues no earlier (R176, R214). -/
theorem witness_issue_order : gives (.packetTakenIn 1 30)
    ({ remote 500 with packets := [pkt 0 1 (.tub 0 [el])] }.modPkg 1 fun x =>
      { x with inn := [{ pkt 0 1 (.tub 0 [el]) 498 with id := 29, issues := [510] }] })
    (fun t => soon t 510 (.elementIssue 1 30 0)) = true := by decide +kernel
/-- A package whose start stopped refuses requests from its step 3 on, and hears none before (R350; entry 95). -/
theorem witness_not_ready :
    (let s (boot : Nat) : State := (sm 0 []).modPkg 0 fun x => { x with boot := boot }
     gives (.ctxDestroy 0 9 0) (s 5) (fun t => served t = [(9, 2)]) && gives (.killRequest 0 9 0) (s 1) fun t => served t = [] && t.gangs = (s 1).gangs) =
      true := by decide +kernel
/-- Special inputs of `cvt` and `fun` (R122, R140): −0 to E8M0, −∞ to TS8, a signalling NaN to E2M1, 0.75 as TS8, −1 from S8. -/
theorem witness_special_values :
    [cvtValue false false false .e8m0 0x80000000, cvtValue false false false .ts8 0xFF800000, cvtValue false false false .e2m1 0x7F800001,
      cvtValue false false false .ts8 0x3F400000, cvtValue true false false .s8 0xFF, fFun .abs .rne 0xFF800001, fFun .rsq .rne 0x80000000] =
    [(0, 24), (0x88, 1), (0, 1), (0x0A, 0), (0xBF800000, 0), (0x7FC00000, 0), (0xFF800000, 2)] := by decide +kernel

end Sys2Proof.Tests
end

section
/-! Wide reads of device memory and local stores, byte by byte, and with them the statement about reads after writes (R4, R162). -/

namespace Sys2Proof.Machine

theorem memByte_cons (c : Host.Cell) (m : List Host.Cell) (x : Nat) :
    memByte (c :: m) x = if c.1 = x then c.2 else memByte m x := by
  by_cases h : c.1 = x <;> simp [memByte, h]

/-- Below its cells a memory reads as unlisted. -/
theorem memByte_of_forall_lt (m : List Host.Cell) (x : Nat) (h : ∀ c ∈ m, x < c.1) : memByte m x = Config.unlistedByte := by
  have : m.find? (fun c => decide (c.1 = x)) = none :=
    List.find?_eq_none.2 fun c hc => by simpa using (h c hc).ne'
  simp only [memByte, this]

@[simp] theorem memNat_nil (a n : Nat) : memNat [] a n = 0 := rfl

/-- Each cell within the range of a wide read adds its byte at its own weight. -/
theorem memNat_cons (c : Host.Cell) (m : List Host.Cell) (a n : Nat) :
    memNat (c :: m) a n = (if a ≤ c.1 ∧ c.1 < a + n then c.2.toNat * 2 ^ (8 * (c.1 - a)) else 0) + memNat m a n := by
  have sum (l : List Host.Cell) : l.foldl (fun x c => x + c.2.toNat * 2 ^ (8 * (c.1 - a))) 0 =
      (l.map fun c => c.2.toNat * 2 ^ (8 * (c.1 - a))).sum := by
    rw [List.sum_eq_foldl, List.foldl_map]
  unfold memNat
  by_cases h : a ≤ c.1 ∧ c.1 < a + n <;> simp [sum, h]

@[simp] theorem memNat_zero (m : List Host.Cell) (a : Nat) : memNat m a 0 = 0 := by
  induction m with
  | nil => rfl
  | cons c m ih => rw [memNat_cons, ih, if_neg (by omega)]

/-- R4: a read wider by one byte takes that byte in as the most significant one. -/
theorem memNat_succ (m : List Host.Cell) (a n : Nat) (h : memWf m) :
    memNat m a (n + 1) = memNat m a n + (memByte m (a + n)).toNat * 2 ^ (8 * n) := by
  induction m with
  | nil => simp [memByte, Config.unlistedByte]
  | cons c m ih =>
    obtain ⟨rising, listed⟩ := h
    obtain ⟨above, rising⟩ := List.pairwise_cons.1 rising
    have ih := ih ⟨rising, fun d hd => listed d (List.mem_cons_of_mem c hd)⟩
    simp only [memNat_cons, memByte_cons]
    by_cases e : c.1 = a + n
    · -- The cell is the byte taken in; by the canonical form none behind it has its address.
      have rest : memNat m a (n + 1) = memNat m a n := by
        rw [ih, memByte_of_forall_lt m _ fun d hd => e ▸ above d hd]
        simp [Config.unlistedByte]
      rw [rest, if_pos e, if_pos (by omega), if_neg (by omega), e, Nat.add_sub_cancel_left]
      omega
    · -- The cell is in both ranges or in neither.
      have range : (a ≤ c.1 ∧ c.1 < a + (n + 1)) ↔ (a ≤ c.1 ∧ c.1 < a + n) := by omega
      rw [ih, if_neg e, if_congr range rfl rfl, Nat.add_assoc]

/-- R4: a read of any width is the sum of its bytes in little-endian order. -/
theorem memNat_eq_sum (m : List Host.Cell) (a n : Nat) (h : memWf m) :
    memNat m a n = ((List.range n).map fun k => (memByte m (a + k)).toNat * 2 ^ (8 * k)).sum := by
  induction n with
  | zero => simp
  | succ n ih => simp [memNat_succ m a n h, ih, List.range_succ]

/-- R162: after a write no byte it wrote holds an uncorrectable error. -/
theorem State.wr_uce_clear (s : State) (p pa : Nat) (bs : List Byte) (x : Nat) (lo : s.pod p pa ≤ x)
    (hi : x < s.pod p pa + bs.length) : x ∉ (s.wr p pa bs).uce := by
  intro hx
  have out := (List.mem_filter.1 hx).2
  simp only [Bool.or_eq_true, decide_eq_true_eq] at out
  omega

end Sys2Proof.Machine

namespace Sys2Proof

open Machine

/-- Settles O9: the bytes by the rules of `memPut`, the wider read byte by byte in the canonical form the write keeps. -/
theorem memoryReadWrite : Obligations.MemoryReadWrite := by
  intro s p pa bs wf
  have wf' : memWf (s.wr p pa bs).mem := memPut_wf s.mem (s.pod p pa) bs wf
  exact ⟨fun k h => memByte_memPut_in s.mem (s.pod p pa) k bs h,
    fun x h => memByte_memPut_out s.mem (s.pod p pa) x bs h,
    State.wr_uce_clear s p pa bs,
    fun q y n => memNat_eq_sum _ _ n wf',
    wf', rfl⟩

end Sys2Proof
end

section
/-! What the CSRs read as (R315, R316), the CSR words (R318) and the read of WTCLO (R24), with the statements about them. -/

namespace Sys2Proof.Machine

/-! ### What a CSR reads as (R315) -/

theorem ite_testBit (x k b : Nat) : (if x.testBit k then b else 0) = x / 2 ^ k % 2 * b := by
  rw [Nat.testBit_eq_decide_div_mod_eq]
  rcases Nat.mod_two_eq_zero_or_one (x / 2 ^ k) with h | h <;> simp [h]

/-- R316: TEAMINFO in the places of its map. -/
theorem teamInfo_eq (s : State) (t : Team) : teamInfo s t = match s.gang? t.pl.gang with
    | some g => BitVec.ofNat 32 ((if s.priv t then 2 ^ 0 else 0) + (if g.desc.flags.testBit 0 then 2 ^ 1 else 0) +
        (if g.desc.flags.testBit 1 then 2 ^ 2 else 0) + (if g.desc.flags.testBit 3 then 2 ^ 3 else 0) +
        (if g.desc.flags.testBit 3 && 64 ≤ t.pl.slot then 2 ^ 4 else 0) + g.ctx % 2 ^ 8 * 2 ^ 8 + g.num % 2 ^ 16 * 2 ^ 16)
    | none => 0 := by
  unfold teamInfo
  cases s.gang? t.pl.gang with
  | none => rfl
  | some g =>
    have slotted : g.desc.flags.testBit 3 = decide (g.desc.flags / 8 % 2 = 1) := Nat.testBit_eq_decide_div_mod_eq
    simp only [← slotted, ite_testBit, Nat.reducePow]
    congr 1
    omega

theorem maskWord_eq (m : Mask) (k : Nat) : maskWord m k = m.extractLsb' (32 * k) 32 := by
  apply BitVec.eq_of_toNat_eq
  simp [maskWord, Nat.shiftRight_eq_div_pow]

theorem csrRead_bank1 (s : State) (t : Team) {k : Nat} (h : k < 8) : csrRead s t (0x101 + k) = t.bank1.get (k + 1) := by
  have field : 0x101 + k - 0x100 = k + 1 := by omega
  simp (disch := omega) only [csrRead, Bool.and_eq_true, decide_eq_true_eq, if_neg, if_pos, field]

theorem csrRead_bank2 (s : State) (t : Team) {k : Nat} (h : k < 8) : csrRead s t (0x111 + k) = t.bank2.get (k + 1) := by
  have field : 0x111 + k - 0x110 = k + 1 := by omega
  simp (disch := omega) only [csrRead, Bool.and_eq_true, decide_eq_true_eq, if_neg, if_pos, field]

theorem csrRead_tlm1 (s : State) (t : Team) {k : Nat} (h : k < 32) : csrRead s t (0x140 + k) = maskWord t.bank1.tlm k := by
  simp (disch := omega) only [csrRead, Bool.and_eq_true, decide_eq_true_eq, if_neg, if_pos, Nat.add_sub_cancel_left]

theorem csrRead_tlm2 (s : State) (t : Team) {k : Nat} (h : k < 32) : csrRead s t (0x160 + k) = maskWord t.bank2.tlm k := by
  simp (disch := omega) only [csrRead, Bool.and_eq_true, decide_eq_true_eq, if_neg, if_pos, Nat.add_sub_cancel_left]

theorem csrRead_hashm (s : State) (t : Team) {k : Nat} (h : k < 9) :
    csrRead s t (0x300 + k) = (s.pkg t.pl.pkg).hashm.getD k 0 := by
  simp (disch := omega) only [csrRead, Bool.and_eq_true, decide_eq_true_eq, if_neg, if_pos, Nat.add_sub_cancel_left]

theorem csrRead_linkDly (s : State) (t : Team) {k : Nat} (h : k < 32) : csrRead s t (0x400 + k) =
    if s.hasPartner (s.pkg t.pl.pkg).num k then linkDly ((s.pkg t.pl.pkg).ports.getD k Port.reset) else 0 := by
  simp (disch := omega) only [csrRead, Bool.and_eq_true, decide_eq_true_eq, if_neg, if_pos, Nat.add_sub_cancel_left]

theorem csrRead_memcfg (s : State) (t : Team) : csrRead s t 4 = match s.gang? t.pl.gang with
    | some g => BitVec.ofNat 32 (if g.desc.flags.testBit 2 then 2 ^ 0 else 0)
    | none => 0 := by
  simp only [ite_testBit, csrRead]
  cases s.gang? t.pl.gang with
  | none => rfl
  | some g => simp

/-- R323: WDOG reads the cycles that are left. -/
theorem csrRead_wdog (s : State) (t : Team) : csrRead s t 0x210 = match s.gang? t.pl.gang with
    | some g => (match g.wdog with | some x => BitVec.ofNat 32 (x - s.wtc) | none => 0)
    | none => 0 := by
  cases h : s.gang? t.pl.gang with
  | none => simp [csrRead, h]
  | some g => cases hw : g.wdog <;> simp [csrRead, h, hw]

/-- The fields of a bank in the order of their CSRs (R314). -/
theorem bank_get_zipIdx (b : Bank) (e : Word × Nat) (h : e ∈ [b.cause, b.epc, b.pass, b.val, b.valh, b.skid, b.save, b.vec].zipIdx) :
    e.2 < 8 ∧ b.get (e.2 + 1) = e.1 := by
  revert e
  simp [Bank.get]

theorem csrRead_table (s : State) (t : Team) : ∀ e ∈ csrTable s t, csrRead s t e.1 = e.2 := by
  intro e he
  simp only [csrTable, List.mem_append, List.mem_map, List.mem_range] at he
  rcases he with ((((((he | ⟨b, hb, rfl⟩) | ⟨b, hb, rfl⟩) | ⟨k, hk, rfl⟩) | ⟨k, hk, rfl⟩) | ⟨k, hk, rfl⟩) | ⟨k, hk, rfl⟩)
  · revert e
    simp only [List.forall_mem_cons]
    exact ⟨teamInfo_eq s t, rfl, rfl, rfl, csrRead_memcfg s t, rfl, rfl, rfl, rfl, rfl, rfl, rfl, rfl, rfl, rfl, rfl, rfl, rfl, rfl, rfl, rfl, rfl, rfl,
      csrRead_wdog s t, rfl, rfl, rfl, by simp⟩
  · obtain ⟨lt, field⟩ := bank_get_zipIdx _ b hb
    exact (csrRead_bank1 s t lt).trans field
  · obtain ⟨lt, field⟩ := bank_get_zipIdx _ b hb
    exact (csrRead_bank2 s t lt).trans field
  · rw [csrRead_tlm1 s t hk, maskWord_eq]
  · rw [csrRead_tlm2 s t hk, maskWord_eq]
  · exact csrRead_hashm s t hk
  · exact csrRead_linkDly s t hk

theorem csrPriv_iff (n : Nat) : csrPriv n = true ↔
    n ∈ [0x020, 0x021, 0x030, 0x300, 0x301, 0x302, 0x303, 0x304, 0x305, 0x306, 0x307, 0x308] := by
  simp only [csrPriv, Bool.or_eq_true, Bool.and_eq_true, decide_eq_true_eq, List.mem_cons, List.not_mem_nil,
    or_false]
  omega

/-- R315: every CSR of the table reads as it says, and the privileged ones are those listed. -/
theorem csrs_pinned (s : State) (t : Team) : csrsPinned s t := ⟨csrRead_table s t, csrPriv_iff⟩

/-! ### The words -/

/-- A SYS word whose guard is false is passed over. -/
theorem sysWord_off {pn : Bool} {pr : BitVec 3} {lit : Bool} {f : Team → Cur → Cur} {t : Team} {c : Cur} (h : t.up pr = pn) :
    sysWord pn pr lit f t c = afterWord c [] lit 1 := by
  simp [sysWord, guardU, h, past_eq]

/-- A SYS word whose guard is true does what it means. -/
theorem sysWord_on {pn : Bool} {pr : BitVec 3} {lit : Bool} {f : Team → Cur → Cur} {t : Team} {c : Cur} (h : t.up pr ≠ pn) :
    sysWord pn pr lit f t c = (f t c).past lit 1 := by
  simp [sysWord, guardU, h]

/-- R318: PRT with the CSR field in TVAL. -/
theorem past_prv (c : Cur) (w : BitVec 12) (lit : Bool) :
    (c.prv w.toNat).past lit 1 = trapWord c 0x09 (w.setWidth 32) 0 lit := by
  have tval : BitVec.ofNat 32 w.toNat = w.setWidth 32 := by simp
  simp only [Cur.prv, Cur.raise, trapWord, trapOf, tval, cPRT]
  cases h : c.trap <;> simp [past_eq, ← h]

/-- R24: what the read of WTCLO does to the pass. -/
theorem readWtclo_eq (reg : Nat) (c : Cur) : readWtclo reg c =
    let hi : Word := BitVec.ofNat 32 ((c.first + c.off) / 2 ^ 32)
    { c with acts := c.acts ++ [.ureg ((8 * c.win + reg) % 512) (BitVec.ofNat 32 (c.first + c.off)), .shadow hi],
             shadow := some hi } := by
  simp [readWtclo, Cur.act, uix]

theorem usesLit_singleton (r : BitVec 7) : usesLit [r] = decide (r.toNat = 122) := by simp [usesLit]

theorem exec_csrr {s : State} {c : Cur} (ev : s.ev = some c) (w : FY) :
    exec (.csrr w) s = .next (s.setEv (some (sysWord w.pn w.pr false (fun t c =>
      if csrPriv w.csr.toNat && !s.priv t then c.prv w.csr.toNat
      else if w.csr.toNat = 0x010 then readWtclo w.reg.toNat c
      else c.act (.ureg (uix c.win w.reg.toNat) (csrValue s t c w.csr.toNat))) (s.teamOf c) c))) :=
  onCur_some ev _

/-- The three words that write a CSR, each with what it does to the register (R318). -/
def csrWriters (w : FY) : List (Instr × CsrKind) := [(.csrw w, .write), (.csrs w, .set), (.csrc w, .clear)]

theorem exec_csrWriter {s : State} {c : Cur} (ev : s.ev = some c) (w : FY) : ∀ e ∈ csrWriters w,
    exec e.1 s = .next (s.setEv (some (csrStore s e.2 w (s.teamOf c) c))) := by
  simp only [csrWriters, List.forall_mem_cons]
  exact ⟨onCur_some ev _, onCur_some ev _, onCur_some ev _, by simp⟩

end Sys2Proof.Machine

namespace Sys2Proof

open Machine

/-- Settles O38. -/
theorem clockRead : Obligations.ClockRead := by
  intro reg s c ev
  have read : exec (.wtcloRead reg) s = .next (s.setEv (some (readWtclo reg c))) := onCur_some ev fun _ c => readWtclo reg c
  rw [read, readWtclo_eq]

/-- Settles O37. -/
theorem csrWords : Obligations.CsrWords := by
  intro w s c ev
  dsimp only
  refine ⟨csrs_pinned s _, fun off => ⟨?_, fun e he => ?_⟩, fun on secret => ⟨?_, fun e he => ?_⟩,
    fun on open_ => ⟨fun other => ?_, fun clock => ?_, fun e he => ?_⟩⟩
  · rw [exec_csrr ev, sysWord_off off]
  · rw [exec_csrWriter ev w e he, csrStore, sysWord_off off, usesLit_singleton]
  · rw [exec_csrr ev, sysWord_on on, if_pos secret, past_prv]
  · rw [exec_csrWriter ev w e he, csrStore, sysWord_on on, usesLit_singleton]
    dsimp only
    rw [if_pos secret, past_prv]
  · rw [exec_csrr ev, sysWord_on on, if_neg (by simp [open_]), if_neg other]
    rfl
  · rw [exec_csrr ev, sysWord_on on, if_neg (by simp [open_]), if_pos clock, readWtclo_eq, clock]
    rfl
  · rw [exec_csrWriter ev w e he, csrStore, sysWord_on on, usesLit_singleton]
    dsimp only
    rw [if_neg (by simp [open_])]
    rfl

end Sys2Proof
end

section
/-! The register writes of a commit: the lane, predicate or uniform register each effect names, and nothing else (R18, R45, R134). -/

namespace Sys2Proof.Machine

/-! ### Registers after the effects of a commit -/

theorem getD_set (l : List α) (i n : Nat) (x d : α) (h : i < l.length) :
    (l.set i x).getD n d = if n = i then x else l.getD n d := by
  simp only [List.getD_eq_getElem?_getD, List.getElem?_set]
  by_cases e : i = n
  · simp [e, e ▸ h]
  · simp [e, Ne.symm e]

theorem getD_modify (l : List α) (i n : Nat) (f : α → α) (d : α) (h : i < l.length) :
    (l.modify i f).getD n d = if n = i then f (l.getD n d) else l.getD n d := by
  simp only [List.getD_eq_getElem?_getD, List.getElem?_modify]
  by_cases e : i = n
  · simp [e, e ▸ h]
  · simp [e, Ne.symm e]

/-- A change of the committing team alone is what the statement says of it: that team is seen changed, every other as it was. -/
theorem only_modTeam {s : State} {i : Nat} {y : Team} (f : Team → Team) (own : s.team? i = some y) (keeps : ∀ x, (f x).id = x.id) :
    (s.modTeam i f).team? i = some (f y) ∧ (∀ k, k ≠ i → (s.modTeam i f).team? k = s.team? k) ∧
      s.modTeam i f = { s with teams := (s.modTeam i f).teams } := by
  refine ⟨?_, fun k hk => ?_, rfl⟩
  · rw [State.team?_modTeam s i i f keeps, if_pos rfl, own]; rfl
  · rw [State.team?_modTeam s i k f keeps, if_neg hk.symm]

theorem Team.v_setRegs (y : Team) (d l : Nat) (x : Word) (hd : d < y.vr.length) (hl : l < (y.vr.getD d []).length) (n k : Nat) :
    Team.v { y with vr := setRegs y.vr d l [x] } n k = if n = d ∧ k = l then x else y.v n k := by
  simp only [Team.v, setRegs, getD_modify _ _ _ _ _ hd]
  by_cases e : n = d
  · subst e
    simp only [if_true, true_and, getD_set _ _ _ _ _ hl]
  · simp only [e, if_false, false_and]

/-- The mask of one lane holds that lane and no other. -/
theorem getLsbD_maskOf_singleton (l k : Nat) (h : l < 1024) : (maskOf [l]).getLsbD k = decide (k = l) := by
  have shifted : maskOf [l] = (1 : Mask) <<< l := BitVec.zero_or
  rw [shifted, BitVec.getLsbD_shiftLeft]
  rcases lt_trichotomy k l with lt | rfl | lt
  · simp [lt, lt.ne]
  · simp [h]
  · have : k - l ≠ 0 := by omega
    simp [lt.ne', this]

/-- A lane predicate after the write of one lane of it. -/
theorem maskBit_writeLane (m : Mask) (l k : Nat) (b : Bool) (h : l < 1024) :
    maskBit (if b then m ||| maskOf [l] else m &&& ~~~ maskOf [l]) k = if k = l then b else maskBit m k := by
  by_cases inside : k < 1024
  · have one := getLsbD_maskOf_singleton l k h
    cases b
    · show (m &&& ~~~ maskOf [l]).getLsbD k = if k = l then false else m.getLsbD k
      rw [BitVec.getLsbD_and, BitVec.getLsbD_not, one]
      split <;> simp [*]
    · show (m ||| maskOf [l]).getLsbD k = if k = l then true else m.getLsbD k
      rw [BitVec.getLsbD_or, one]
      split <;> simp [*]
  · have out (x : Mask) : x.getLsbD k = false := BitVec.getLsbD_of_ge x k (by omega)
    have other : k ≠ l := by omega
    simp only [maskBit, out, if_neg other]

/-- The lane predicates after the write of one lane of one of them. -/
theorem maskBit_modify (pr : List Mask) (q l : Nat) (b : Bool) (hq : q < pr.length) (hl : l < 1024) (n k : Nat) :
    maskBit ((pr.modify q fun m => if b then m ||| maskOf [l] else m &&& ~~~ maskOf [l]).getD n 0) k =
      if n = q ∧ k = l then b else maskBit (pr.getD n 0) k := by
  rw [getD_modify _ _ _ _ _ hq]
  by_cases e : n = q
  · simp only [e, if_true, true_and, maskBit_writeLane _ _ _ _ hl]
  · simp only [e, if_false, false_and]

theorem Team.setUp_of_lt (y : Team) {q : Nat} (b : Bool) (h : q < 7) : y.setUp q b = { y with gp := y.gp.set q b } :=
  if_neg h.ne

end Sys2Proof.Machine

namespace Sys2Proof

open Machine

/-- Settles O10: each effect is a change of the committing team alone (`only_modTeam`), in the one register it names. -/
theorem registerCommit : Obligations.RegisterCommit := by
  intro s t y c r last own
  dsimp only
  refine ⟨fun d l x hd hl => ?_, fun q l b hq hl => ?_, fun d x hd => ?_, fun q b h7 hq => ?_, fun b => ?_, fun fl => ?_⟩
  · exact ⟨_, only_modTeam _ own fun _ => rfl, rfl, Team.v_setRegs y d l x hd hl⟩
  · exact ⟨_, only_modTeam _ own fun _ => rfl, rfl, maskBit_modify y.pr q l b hq hl⟩
  · exact ⟨_, only_modTeam _ own fun _ => rfl, rfl, fun n => getD_set y.ur d n x 0 hd⟩
  · have changed := only_modTeam (·.setUp q b) own fun x => by rw [Team.setUp_of_lt x b h7]
    refine ⟨_, changed, ?_⟩
    rw [Team.setUp_of_lt y b h7]
    exact ⟨rfl, fun n => getD_set y.gp q n b false hq⟩
  · exact only_modTeam (·.setUp 7 b) own fun _ => rfl
  · exact only_modTeam _ own fun _ => rfl

end Sys2Proof
end

section
/-! The pod schedule: faults and their records, halts, frame boundaries and the keeping of time (R284, R285, R300 to R306, R326). -/

namespace Sys2Proof.Machine

/-! ### Folds, and steps on the agenda -/

/-- What each step of a fold establishes for its element, and no step undoes, holds of every element behind the fold. -/
theorem foldl_establishes {σ α : Type} {f : σ → α → σ} {P : α → σ → Prop} (est : ∀ s x, P x (f s x))
    (keep : ∀ s x y, P y s → P y (f s x)) (l : List α) (s : σ) : ∀ y ∈ l, P y (l.foldl f s) := by
  have held : ∀ (l : List α) (s : σ) (y : α), P y s → P y (l.foldl f s) := fun l => by
    induction l with
    | nil => exact fun _ _ h => h
    | cons x xs ih => exact fun s y h => ih _ y (keep s x y h)
  induction l generalizing s with
  | nil => exact fun _ h => absurd h List.not_mem_nil
  | cons x xs ih =>
    intro y hy
    rcases List.mem_cons.1 hy with rfl | hy
    · exact held xs _ y (est s y)
    · exact ih _ y hy

/-- What no step of a fold changes is as before. -/
theorem foldl_eq {σ α β : Type} {f : σ → α → σ} (g : σ → β) (l : List α) (h : ∀ s, ∀ x ∈ l, g (f s x) = g s) (s : σ) :
    g (l.foldl f s) = g s := by
  induction l generalizing s with
  | nil => rfl
  | cons x xs ih =>
    exact (ih (fun s y hy => h s y (List.mem_cons_of_mem x hy)) _).trans (h s x List.mem_cons_self)

theorem State.planned_at (s : State) (cyc prio : Nat) (key : List Nat) (i : Instr) : (s.at cyc prio key i).planned cyc i :=
  ⟨⟨cyc, prio, key, i⟩, (mem_insertEntry _ _ _).2 (.inl rfl), rfl, rfl⟩

theorem State.planned_of_subset {s t : State} {cyc : Nat} {i : Instr} (h : s.agenda ⊆ t.agenda) :
    s.planned cyc i → t.planned cyc i := fun ⟨e, he, hc⟩ => ⟨e, h he, hc⟩

theorem State.agenda_subset_at (s : State) (cyc prio : Nat) (key : List Nat) (i : Instr) :
    s.agenda ⊆ (s.at cyc prio key i).agenda := fun _ he => (mem_insertEntry _ _ _).2 (.inr he)

/-- A step put on the agenda once stands on it, whether it stood there before or not. -/
theorem State.planned_once (s : State) (cyc prio : Nat) (key : List Nat) (i : Instr) :
    (s.once cyc prio key i).planned cyc i := by
  unfold State.once
  split
  · next stood =>
    obtain ⟨e, he, same⟩ := List.any_eq_true.1 stood
    simp only [Bool.and_eq_true, decide_eq_true_eq] at same
    exact ⟨e, he, same.1.1, same.2⟩
  · exact s.planned_at cyc prio key i

theorem State.pkg_congr {s t : State} (h : t.pkgs = s.pkgs) (p : Nat) : t.pkg p = s.pkg p := by
  simp only [State.pkg, h]

/-! ### Trap records (R326) -/

/-- Seven runs of bytes, the first of 8 and the others of 4, are read back from the places they were laid at. -/
theorem take_drop_runs {a b c d e f g : List Byte} (ha : a.length = 8) (hb : b.length = 4) (hc : c.length = 4)
    (hd : d.length = 4) (he : e.length = 4) (hf : f.length = 4) (hg : g.length = 4) :
    let l := a ++ b ++ c ++ d ++ e ++ f ++ g
    l.length = 32 ∧ l.take 8 = a ∧ (l.drop 8).take 4 = b ∧ (l.drop 12).take 4 = c ∧ (l.drop 16).take 4 = d ∧
      (l.drop 20).take 4 = e ∧ (l.drop 24).take 4 = f ∧ l.drop 28 = g := by
  simp [List.drop_append, List.drop_of_length_le, ha, hb, hc, hd, he, hf, hg]

/-- R326: a trap record's 32 bytes, field by field. -/
theorem Record.bytes_fields (r : Record) : r.bytes.length = 32 ∧ bytesNat (r.bytes.take 8) = r.wtc % 2 ^ 64 ∧
    bytesNat ((r.bytes.drop 8).take 4) = r.seq % 2 ^ 32 ∧
    bytesNat ((r.bytes.drop 12).take 4) = ((if r.core = 256 then 255 else r.core) + r.slot * 2 ^ 8 +
      (if r.imp then 2 ^ 15 else 0) + r.cause * 2 ^ 16 + r.level * 2 ^ 21 + r.ctx % 256 * 2 ^ 24) % 2 ^ 32 ∧
    bytesNat ((r.bytes.drop 16).take 4) = r.tval.toNat ∧ bytesNat ((r.bytes.drop 20).take 4) = r.tvalh.toNat ∧
    bytesNat ((r.bytes.drop 24).take 4) = r.tepc.toNat ∧ bytesNat (r.bytes.drop 28) = r.tpass.toNat := by
  have word (x : Word) : bytesNat (natBytes 4 x.toNat) = x.toNat := (bytesNat_natBytes 4 _).trans (Nat.mod_eq_of_lt x.isLt)
  obtain ⟨len, wtc, seq, core, tval, tvalh, tepc, tpass⟩ := take_drop_runs (natBytes_length 8 r.wtc) (natBytes_length 4 r.seq)
    (natBytes_length 4 ((if r.core = 256 then 255 else r.core) + r.slot * 2 ^ 8 + (if r.imp then 2 ^ 15 else 0) +
      r.cause * 2 ^ 16 + r.level * 2 ^ 21 + r.ctx % 256 * 2 ^ 24))
    (natBytes_length 4 r.tval.toNat) (natBytes_length 4 r.tvalh.toNat) (natBytes_length 4 r.tepc.toNat)
    (natBytes_length 4 r.tpass.toNat)
  refine ⟨len, ?_, ?_, ?_, ?_, ?_, ?_, ?_⟩
  · exact (congrArg bytesNat wtc).trans (bytesNat_natBytes 8 _)
  · exact (congrArg bytesNat seq).trans (bytesNat_natBytes 4 _)
  · exact (congrArg bytesNat core).trans (bytesNat_natBytes 4 _)
  · exact (congrArg bytesNat tval).trans (word _)
  · exact (congrArg bytesNat tvalh).trans (word _)
  · exact (congrArg bytesNat tepc).trans (word _)
  · exact (congrArg bytesNat tpass).trans (word _)

/-- R154, R326: the write of a record leaves for the next place of its package's ring. -/
theorem State.writeRecord_ringed (s : State) (r : Record) (h : r.pkg < s.pkgs.length) :
    ringed r (((if r.core = 256 then 255 else r.core) + r.slot * 2 ^ 8 + (if r.imp then 2 ^ 15 else 0) + r.cause * 2 ^ 16 +
      r.level * 2 ^ 21 + r.ctx % 256 * 2 ^ 24) % 2 ^ 32) s (s.writeRecord r) := by
  obtain ⟨len, wtc, seq, word, tval, tvalh, tepc, tpass⟩ := r.bytes_fields
  have next : ((s.writeRecord r).pkg r.pkg).recNext = (s.pkg r.pkg).recNext + 1 :=
    congrArg Pkg.recNext ((s.pkg_modPkg r.pkg r.pkg _ h).trans (if_pos rfl))
  exact ⟨next, r.bytes, len, wtc, seq, word, tval, tvalh, tepc, tpass, _, List.mem_append_right _ (List.mem_singleton.2 rfl),
    rfl, State.planned_at _ _ _ _ _, rfl⟩

/-- What lies in the ring lies there still, where the rest of a step leaves the ring's place and the packets as they are. -/
theorem ringed.mono {r : Record} {w : Nat} {s s' u t : State} (h : ringed r w s u) (hs : s.pkgs = s'.pkgs) (hw : s.wtc = s'.wtc)
    (next : (t.pkg r.pkg).recNext = (u.pkg r.pkg).recNext) (gathers : t.gathers = u.gathers) (agenda : u.agenda ⊆ t.agenda) :
    ringed r w s' t := by
  obtain ⟨h1, d, l, f1, f2, f3, f4, f5, f6, f7, g, hg, hp, plan, segs⟩ := h
  simp only [ringed, State.pkg_congr hs.symm, ← hw]
  exact ⟨next.trans h1, d, l, f1, f2, f3, f4, f5, f6, f7, g, gathers ▸ hg, hp, State.planned_of_subset agenda plan, segs⟩

/-- R326: a trap record is the last of the records, and its write leaves for the ring. -/
theorem State.record_spec (s : State) (p cyc core slot : Nat) (imp : Bool) (cause level ctx : Nat) (tval tvalh tepc tpass : Word) :
    ∃ (seq : Nat) (u : State),
      let r : Record := ⟨p, cyc, seq, core, slot, imp, cause, level, ctx, tval, tvalh, tepc, tpass⟩
      u.records = s.records ++ [r] ∧ u.pkgs = s.pkgs ∧ u.wtc = s.wtc ∧
        s.record p cyc core slot imp cause level ctx tval tvalh tepc tpass = u.writeRecord r := by
  unfold State.record
  by_cases hub : core = 256
  · simp only [if_pos hub]
    exact ⟨_, { s with records := _ }, rfl, rfl, rfl, rfl⟩
  · simp only [if_neg hub]
    exact ⟨_, { s.modCore p core fun x => { x with seq := x.seq + 1 } with records := _ }, rfl, rfl, rfl, rfl⟩

/-! ### Halts (R301, R302) -/

/-- The boundary of a halt is the first frame boundary at or after a cycle: none lies before it. -/
theorem le_frameAt (flog n : Nat) : n ≤ frameAt flog n := by
  have pos : 0 < 2 ^ flog := Nat.two_pow_pos flog
  have := Nat.div_add_mod (n + 2 ^ flog - 1) (2 ^ flog)
  have := Nat.mod_lt (n + 2 ^ flog - 1) pos
  rw [frameAt, Nat.mul_comm]
  omega

/-- R302: the halt a package knows of, with its kind. -/
def Pkg.halting (b orig kind : Nat) (x : Pkg) : Pkg := { x with halt := some (b, orig, kind), haltKind := kind }

/-- R302: a halt that stands before the one known, or the first, is adopted. -/
theorem State.adoptHalt_new (s : State) (p b orig kind : Nat) (sched : ((s.pkg p).schedAt s.wtc).isSome = true)
    (h : ((s.pkg p).halt.all fun h => b < h.1 || (b = h.1 && orig < h.2.1)) = true) :
    s.adoptHalt p b orig kind = (s.modPkg p (Pkg.halting b orig kind)).at (max b s.wtc) pBegin [p]
      (.haltAtBoundary p) := by
  unfold State.adoptHalt
  have some : ((s.pkg p).schedAt s.wtc).isNone = false := by simpa using sched
  cases known : (s.pkg p).halt with
  | none => simp [some, known]; rfl
  | some x =>
    simp only [known, Option.all_some, Bool.or_eq_true, Bool.and_eq_true, decide_eq_true_eq] at h
    have earlier : (decide (x.1 < b) || decide (x.1 = b) && decide (x.2.1 ≤ orig)) = false := by
      simp only [Bool.or_eq_false_iff, Bool.and_eq_false_iff, decide_eq_false_iff_not]; omega
    simp [some, known, earlier]; rfl

/-- R302: where the boundary known comes first, or its origin is no higher, it stays. -/
theorem State.adoptHalt_old (s : State) (p b orig kind : Nat)
    (h : ((s.pkg p).halt.any fun h => h.1 < b || (h.1 = b && h.2.1 ≤ orig)) = true) : s.adoptHalt p b orig kind = s := by
  unfold State.adoptHalt
  cases known : (s.pkg p).halt with
  | none => simp [known] at h
  | some x =>
    have earlier : (decide (x.1 < b) || decide (x.1 = b) && decide (x.2.1 ≤ orig)) = true := by simpa [known] using h
    simp [known, earlier]

/-! ### Packages, ports and partners after a change of one package -/

/-- What a change of an element leaves alone is as before, whichever element is looked at. -/
theorem getD_modify_field {α β : Type} (g : α → β) {f : α → α} (h : ∀ x, g (f x) = g x) (l : List α) (i n : Nat) (d : α) :
    g ((l.modify i f).getD n d) = g (l.getD n d) := by
  simp only [List.getD_eq_getElem?_getD, List.getElem?_modify]
  split
  · cases l[n]? <;> simp [h]
  · simp

theorem map_modify_field {α β : Type} (g : α → β) {f : α → α} (h : ∀ x, g (f x) = g x) (l : List α) (i : Nat) :
    (l.modify i f).map g = l.map g := by
  apply List.ext_getElem? fun n => ?_
  simp only [List.getElem?_map, List.getElem?_modify]
  split
  · cases l[n]? <;> simp [h]
  · simp

theorem State.pkg_modPkg_field {β : Type} (g : Pkg → β) {f : Pkg → Pkg} (h : ∀ x, g (f x) = g x) (s : State) (p q : Nat) :
    g ((s.modPkg p f).pkg q) = g (s.pkg q) := getD_modify_field g h s.pkgs p q _

/-- The partner of a port stands by the link, the numbers and the pod (R278). -/
theorem State.partner_congr {s t : State} {p k : Nat} (up : (t.port p k).up = (s.port p k).up)
    (pod : t.pkgs.map (·.num) = s.pkgs.map (·.num)) : t.partner p k = s.partner p k := by
  have num : (t.pkg p).num = (s.pkg p).num := by
    have (u : State) : (u.pkg p).num = ((u.pkgs.map (·.num)).getD p 0) := by
      simp only [State.pkg, List.getD_eq_getElem?_getD, List.getElem?_map]
      cases u.pkgs[p]? <;> rfl
    rw [this, this, pod]
  have pkgOf (n : Nat) : t.pkgOf n = s.pkgOf n := by
    have (u : State) : u.pkgOf n = (u.pkgs.map (·.num)).findIdx? (· = n) := by
      simp only [State.pkgOf, List.findIdx?_map]; rfl
    rw [this, this, pod]
  simp only [State.partner, up, num, funext pkgOf]

/-- A link that is up belongs to a port of a package of the state. -/
theorem State.port_up {s : State} {p k : Nat} (h : (s.port p k).up = true) :
    p < s.pkgs.length ∧ k < (s.pkg p).ports.length := by
  have port : k < (s.pkg p).ports.length := by
    by_contra out
    rw [State.port, List.getD_eq_default _ _ (Nat.le_of_not_lt out)] at h
    cases h
  refine ⟨?_, port⟩
  by_contra out
  have none : s.pkg p = Pkg.reset 0 := List.getD_eq_default _ _ (Nat.le_of_not_lt out)
  have down : ∀ x ∈ (Pkg.reset 0).ports, x.up = false := by
    intro x hx
    rw [List.eq_of_mem_replicate hx]; rfl
  rw [none] at port
  have := down _ (List.getElem_mem port)
  rw [State.port, none, List.getD_eq_getElem _ _ port, this] at h
  cases h

theorem State.partner_up {s : State} {p k q : Nat} (h : s.partner p k = some q) : (s.port p k).up = true := by
  unfold State.partner at h
  split at h
  · assumption
  · cases h

/-! ### The broadcast of a halt (R302) -/

/-- A halt in the queue of one port. -/
def State.castTo (p b orig kind : Nat) (s : State) (k : Nat) : State :=
  match s.partner p k with
  | none => s
  | some q =>
    let (i, s) := s.fresh
    let x : Packet := ⟨i, (s.pkg p).num, (s.pkg q).num, 0, 1, 0, s.wtc, .halt b orig kind, 0, 0, [], 32 * p + k⟩
    (s.modPort p k fun y => { y with halts := y.halts ++ [x] }).arm p k

theorem State.castHalt_eq (s : State) (p : Nat) (ks : List Nat) (b orig kind : Nat) :
    s.castHalt p ks b orig kind = ks.foldl (State.castTo p b orig kind) s := rfl

/-- A package but for its ports, and with one port changed. -/
def Pkg.sansPorts (x : Pkg) : Pkg := { x with ports := [] }
def Pkg.onPort (k : Nat) (f : Port → Port) (x : Pkg) : Pkg := { x with ports := x.ports.modify k f }

/-- What a step leaves as it was that puts halts into queues of ports: all but the ports of packages, whose links stay, and the
agenda, which loses nothing. -/
structure OnlyHalts (s t : State) : Prop where
  frame : t = { s with pkgs := t.pkgs, nextId := t.nextId, agenda := t.agenda }
  sansPorts : ∀ q, (t.pkg q).sansPorts = (s.pkg q).sansPorts
  nums : t.pkgs.map (·.num) = s.pkgs.map (·.num)
  up : ∀ q k, (t.port q k).up = (s.port q k).up
  agenda : s.agenda ⊆ t.agenda

theorem OnlyHalts.refl (s : State) : OnlyHalts s s := ⟨rfl, fun _ => rfl, rfl, fun _ _ => rfl, List.Subset.refl _⟩

theorem OnlyHalts.trans {s t u : State} (h : OnlyHalts s t) (k : OnlyHalts t u) : OnlyHalts s u :=
  ⟨by rw [k.frame, h.frame], fun q => (k.sansPorts q).trans (h.sansPorts q), k.nums.trans h.nums,
    fun q n => (k.up q n).trans (h.up q n), List.Subset.trans h.agenda k.agenda⟩

theorem OnlyHalts.partner {s t : State} (h : OnlyHalts s t) (p k : Nat) : t.partner p k = s.partner p k :=
  State.partner_congr (h.up p k) h.nums

/-- A field of a package other than its ports. -/
theorem OnlyHalts.pkg {β : Type} {s t : State} (h : OnlyHalts s t) (g : Pkg → β) (hg : ∀ x, g x.sansPorts = g x) (q : Nat) :
    g (t.pkg q) = g (s.pkg q) := by rw [← hg, h.sansPorts, hg]

theorem State.arm_pkgs (s : State) (p k : Nat) : (s.arm p k).pkgs = s.pkgs := by
  unfold State.arm
  split <;> rfl

theorem State.port_modPort {s : State} {p k : Nat} (f : Port → Port) (hp : p < s.pkgs.length) (hk : k < (s.pkg p).ports.length) :
    (s.modPort p k f).port p k = f (s.port p k) := by
  have pkg : (s.modPort p k f).pkg p = { s.pkg p with ports := (s.pkg p).ports.modify k f } :=
    (s.pkg_modPkg p p _ hp).trans (if_pos rfl)
  rw [State.port, pkg]
  exact (getD_modify _ _ _ _ _ hk).trans (if_pos rfl)

theorem State.port_modPort_ne (s : State) (p : Nat) {j k : Nat} (f : Port → Port) (h : j ≠ k) :
    (s.modPort p k f).port p j = s.port p j :=
  State.pkg_modPkg_field (fun x => x.ports.getD j Port.reset) (fun x => by
    simp [List.getD_eq_getElem?_getD, h.symm]) s p p

theorem State.onlyHalts_arm (s : State) (p k : Nat) : OnlyHalts s (s.arm p k) := by
  unfold State.arm
  split
  · exact .refl s
  · exact ⟨rfl, fun _ => rfl, rfl, fun _ _ => rfl, s.agenda_subset_at _ _ _ _⟩

/-- A port with halts behind those that wait there. -/
def Port.queued (l : List Packet) (y : Port) : Port := { y with halts := y.halts ++ l }

theorem State.onlyHalts_modPort (s : State) (p k : Nat) (l : List Packet) : OnlyHalts s (s.modPort p k (Port.queued l)) where
  frame := rfl
  sansPorts := State.pkg_modPkg_field Pkg.sansPorts (f := Pkg.onPort k (Port.queued l)) (fun _ => rfl) s p
  nums := map_modify_field (·.num) (f := Pkg.onPort k (Port.queued l)) (fun _ => rfl) s.pkgs p
  up q j := State.pkg_modPkg_field (fun x => (x.ports.getD j Port.reset).up)
    (fun x => getD_modify_field Port.up (f := Port.queued l) (fun _ => rfl) x.ports k j _) s p q
  agenda := List.Subset.refl _

/-- A port with a partner takes the halt behind those that wait there. -/
theorem State.castTo_some {p k q : Nat} {s : State} (b orig kind : Nat) (h : s.partner p k = some q) : ∃ x : Packet,
    x.body = .halt b orig kind ∧
    s.castTo p b orig kind k = (s.fresh.2.modPort p k (Port.queued [x])).arm p k := by
  simp only [State.castTo, h]
  exact ⟨_, rfl, rfl⟩

theorem State.castTo_none {p k : Nat} {s : State} (b orig kind : Nat) (h : s.partner p k = none) : s.castTo p b orig kind k = s := by
  simp only [State.castTo, h]

theorem State.onlyHalts_castTo (s : State) (p b orig kind k : Nat) : OnlyHalts s (s.castTo p b orig kind k) := by
  cases h : s.partner p k with
  | none => rw [State.castTo_none b orig kind h]; exact .refl s
  | some q =>
    obtain ⟨x, -, eq⟩ := State.castTo_some b orig kind h
    rw [eq]
    exact (⟨rfl, fun _ => rfl, rfl, fun _ _ => rfl, List.Subset.refl _⟩ : OnlyHalts s s.fresh.2).trans
      ((s.fresh.2.onlyHalts_modPort p k [x]).trans (State.onlyHalts_arm _ p k))

theorem State.onlyHalts_castHalt (s : State) (p : Nat) (ks : List Nat) (b orig kind : Nat) :
    OnlyHalts s (s.castHalt p ks b orig kind) := by
  rw [State.castHalt_eq]
  induction ks generalizing s with
  | nil => exact .refl s
  | cons k ks ih => exact (s.onlyHalts_castTo p b orig kind k).trans (ih _)

/-- The halt stands last in the queue of a port that has a partner. -/
def State.haltLast (p b orig kind k : Nat) (s : State) : Prop :=
  (s.partner p k).isSome = true → ∃ x ∈ (s.port p k).halts.getLast?, x.body = .halt b orig kind

theorem State.haltLast_castTo (s : State) (p b orig kind k : Nat) : (s.castTo p b orig kind k).haltLast p b orig kind k := by
  intro partnered
  rw [(s.onlyHalts_castTo p b orig kind k).partner] at partnered
  obtain ⟨q, h⟩ := Option.isSome_iff_exists.1 partnered
  obtain ⟨x, body, eq⟩ := State.castTo_some b orig kind h
  obtain ⟨inPod, inPkg⟩ := State.port_up (State.partner_up h)
  have port : (s.castTo p b orig kind k).port p k = (s.port p k).queued [x] := by
    rw [eq, State.port, State.pkg_congr (State.arm_pkgs _ p k)]
    exact State.port_modPort (s := s.fresh.2) _ inPod inPkg
  exact ⟨x, by rw [port, Port.queued, List.getLast?_append]; rfl, body⟩

theorem State.haltLast_castTo_of (s : State) (p b orig kind k j : Nat) (h : s.haltLast p b orig kind j) :
    (s.castTo p b orig kind k).haltLast p b orig kind j := by
  by_cases e : j = k
  · exact e ▸ s.haltLast_castTo p b orig kind k
  intro partnered
  rw [(s.onlyHalts_castTo p b orig kind k).partner] at partnered
  have port : (s.castTo p b orig kind k).port p j = s.port p j := by
    cases hk : s.partner p k with
    | none => rw [State.castTo_none b orig kind hk]
    | some q =>
      obtain ⟨x, -, eq⟩ := State.castTo_some b orig kind hk
      rw [eq, State.port, State.pkg_congr (State.arm_pkgs _ p k)]
      exact State.port_modPort_ne s.fresh.2 p _ e
  rw [port]
  exact h partnered

/-- R302: behind the broadcast the halt waits at every port of the list that has a partner. -/
theorem State.halt_castHalt (s : State) (p : Nat) (ks : List Nat) (b orig kind : Nat) : ∀ k ∈ ks, ∀ _q ∈ s.partner p k,
    ∃ x ∈ ((s.castHalt p ks b orig kind).port p k).halts.getLast?, x.body = .halt b orig kind := by
  intro k hk q hq
  have last : (s.castHalt p ks b orig kind).haltLast p b orig kind k :=
    foldl_establishes (P := fun k s => State.haltLast p b orig kind k s) (fun s k => s.haltLast_castTo p b orig kind k)
      (fun s k j => s.haltLast_castTo_of p b orig kind k j) ks s k hk
  apply last
  rw [(s.onlyHalts_castHalt p ks b orig kind).partner, hq]
  rfl

/-! ### SCHEDULE_FAULT and HALT_RECEIPT (R300 to R302, R373) -/

/-- What a package's learning of a halt, and its broadcast, leave as they were of what a schedule fault noted. -/
structure Notes (s t : State) : Prop where
  records : t.records = s.records
  gathers : t.gathers = s.gathers
  agenda : s.agenda ⊆ t.agenda
  fcnt : ∀ q, (t.pkg q).fcnt = (s.pkg q).fcnt
  recNext : ∀ q, (t.pkg q).recNext = (s.pkg q).recNext

theorem Notes.refl (s : State) : Notes s s := ⟨rfl, rfl, List.Subset.refl _, fun _ => rfl, fun _ => rfl⟩

theorem Notes.trans {s t u : State} (h : Notes s t) (k : Notes t u) : Notes s u :=
  ⟨k.records.trans h.records, k.gathers.trans h.gathers, List.Subset.trans h.agenda k.agenda,
    fun q => (k.fcnt q).trans (h.fcnt q), fun q => (k.recNext q).trans (h.recNext q)⟩

theorem OnlyHalts.notes {s t : State} (h : OnlyHalts s t) : Notes s t :=
  ⟨by rw [h.frame], by rw [h.frame], h.agenda, h.pkg Pkg.fcnt fun _ => rfl,
    h.pkg Pkg.recNext fun _ => rfl⟩

theorem State.adoptHalt_cases (s : State) (p b orig kind : Nat) : s.adoptHalt p b orig kind = s ∨
    s.adoptHalt p b orig kind = (s.modPkg p (Pkg.halting b orig kind)).at (max b s.wtc) pBegin [p] (.haltAtBoundary p) := by
  unfold State.adoptHalt
  extract_lets x keep
  split
  · exact .inl rfl
  split
  · exact .inl rfl
  · exact .inr rfl

theorem State.notes_adoptHalt (s : State) (p b orig kind : Nat) : Notes s (s.adoptHalt p b orig kind) := by
  rcases s.adoptHalt_cases p b orig kind with h | h <;> rw [h]
  · exact .refl s
  · exact ⟨rfl, rfl, State.agenda_subset_at _ _ _ _ _,
      State.pkg_modPkg_field Pkg.fcnt (f := Pkg.halting b orig kind) (fun _ => rfl) s p,
      State.pkg_modPkg_field Pkg.recNext (f := Pkg.halting b orig kind) (fun _ => rfl) s p⟩

theorem State.adoptHalt_partner (s : State) (p b orig kind q k : Nat) : (s.adoptHalt p b orig kind).partner q k = s.partner q k := by
  rcases s.adoptHalt_cases p b orig kind with h | h <;> rw [h]
  exact State.partner_congr
    (State.pkg_modPkg_field (fun x => (x.ports.getD k Port.reset).up) (f := Pkg.halting b orig kind) (fun _ => rfl) s p q)
    (map_modify_field (·.num) (f := Pkg.halting b orig kind) (fun _ => rfl) s.pkgs p)

/-- A schedule fault counted (R301). -/
def Pkg.counted (x : Pkg) : Pkg := { x with fcnt := min (x.fcnt + 1) 65535 }

/-- R300, R373: a schedule fault noted, before its halt: its record and the count. -/
def State.noteFault (s : State) (p kind core slot ctx : Nat) : State :=
  (s.record p s.wtc core slot false cSCH 0 ctx (BitVec.ofNat 32 (kind + 256 * (s.pkg p).num)) 0 0 0).modPkg p Pkg.counted

/-- A package with a fault counted and a record written. -/
def Pkg.faulted (x : Pkg) : Pkg := { x with recNext := x.recNext + 1, fcnt := min (x.fcnt + 1) 65535 }

/-- The record of a schedule fault, its place in the trap record ring, and what the fault leaves as it was. -/
theorem State.noteFault_spec (s : State) (p kind core slot ctx : Nat) : let t := s.noteFault p kind core slot ctx
    t.pkgs = s.pkgs.modify p Pkg.faulted ∧ t.wtc = s.wtc ∧ ∃ seq : Nat,
      let r : Record := ⟨p, s.wtc, seq, core, slot, false, cSCH, 0, ctx, BitVec.ofNat 32 (kind + 256 * (s.pkg p).num), 0, 0, 0⟩
      t.records = s.records ++ [r] ∧ (p < s.pkgs.length →
        ringed r (((if core = 256 then 255 else core) + slot * 2 ^ 8 + cSCH * 2 ^ 16 + ctx % 256 * 2 ^ 24) % 2 ^ 32) s t) := by
  obtain ⟨seq, u, records, pkgs, wtc, eq⟩ := s.record_spec p s.wtc core slot false cSCH 0 ctx
    (BitVec.ofNat 32 (kind + 256 * (s.pkg p).num)) 0 0 0
  have noted : s.noteFault p kind core slot ctx = _ := congrArg (State.modPkg · p Pkg.counted) eq
  refine ⟨?_, ?_, seq, ?_, fun inPod => ?_⟩ <;> rw [noted]
  · show (u.pkgs.modify p _).modify p _ = _
    rw [pkgs, List.modify_modify_eq]
    rfl
  · exact wtc
  · exact records
  · have written := u.writeRecord_ringed ⟨p, s.wtc, seq, core, slot, false, cSCH, 0, ctx,
      BitVec.ofNat 32 (kind + 256 * (s.pkg p).num), 0, 0, 0⟩ (pkgs ▸ inPod)
    simp only [Bool.false_eq_true, if_false, Nat.zero_mul, Nat.add_zero] at written
    exact written.mono pkgs wtc (State.pkg_modPkg_field Pkg.recNext (f := Pkg.counted) (fun _ => rfl) _ p p) rfl (List.Subset.refl _)

/-- A field that a schedule fault's count and record leave alone. -/
theorem State.noteFault_pkg {β : Type} (g : Pkg → β) (hg : ∀ x, g x.faulted = g x) (s : State) (p kind core slot ctx q : Nat) :
    g ((s.noteFault p kind core slot ctx).pkg q) = g (s.pkg q) := by
  rw [State.pkg, (s.noteFault_spec p kind core slot ctx).1]
  exact getD_modify_field g hg s.pkgs p q _

theorem State.noteFault_partner (s : State) (p kind core slot ctx q k : Nat) :
    (s.noteFault p kind core slot ctx).partner q k = s.partner q k :=
  State.partner_congr (State.noteFault_pkg (fun x => (x.ports.getD k Port.reset).up) (fun _ => rfl) s p kind core slot ctx q)
    (by rw [(s.noteFault_spec p kind core slot ctx).1]; exact map_modify_field (·.num) (f := Pkg.faulted) (fun _ => rfl) _ _)

theorem State.noteFault_dmax (s : State) (p kind core slot ctx : Nat) : (s.noteFault p kind core slot ctx).dmax = s.dmax := by
  have (u : State) : u.dmax = (u.pkgs.map (·.ports)).foldl
      (fun m l => l.foldl (fun m k => if k.up then max m k.delay else m) m) 0 := by
    rw [State.dmax, List.foldl_map]
  rw [this, this, (s.noteFault_spec p kind core slot ctx).1, map_modify_field (·.ports) (f := Pkg.faulted) fun _ => rfl]

/-- A schedule fault where no table is in force is noted, and no more. -/
theorem exec_scheduleFault_none {s : State} {p : Nat} (kind core slot ctx : Nat) (h : (s.pkg p).schedAt s.wtc = none) :
    exec (.scheduleFault p kind core slot ctx) s = .next (s.noteFault p kind core slot ctx) := by
  have sched : ((s.noteFault p kind core slot ctx).pkg p).schedAt (s.noteFault p kind core slot ctx).wtc = none := by
    rw [(s.noteFault_spec p kind core slot ctx).2.1, ← h]
    exact State.noteFault_pkg (·.schedAt s.wtc) (fun _ => rfl) s p kind core slot ctx p
  show Host.Outcome.next (match ((s.noteFault p kind core slot ctx).pkg p).schedAt (s.noteFault p kind core slot ctx).wtc with
    | none => s.noteFault p kind core slot ctx
    | some y => _) = _
  rw [sched]

/-- R301, R302: under a table it is noted, and the package halts at the boundary and tells its partners. -/
theorem exec_scheduleFault_some {s : State} {p : Nat} {y : Sched} (kind core slot ctx : Nat)
    (h : (s.pkg p).schedAt s.wtc = some y) : exec (.scheduleFault p kind core slot ctx) s =
      .next (((s.noteFault p kind core slot ctx).adoptHalt p (frameAt y.flog (s.wtc + 96 + 2 * s.dmax)) (s.pkg p).num
        kind).castHalt p (List.range 32) (frameAt y.flog (s.wtc + 96 + 2 * s.dmax)) (s.pkg p).num kind) := by
  have wtc := (s.noteFault_spec p kind core slot ctx).2.1
  have sched : ((s.noteFault p kind core slot ctx).pkg p).schedAt (s.noteFault p kind core slot ctx).wtc = some y := by
    rw [wtc, ← h]
    exact State.noteFault_pkg (·.schedAt s.wtc) (fun _ => rfl) s p kind core slot ctx p
  rw [← s.noteFault_dmax p kind core slot ctx, ← wtc]
  show Host.Outcome.next (match ((s.noteFault p kind core slot ctx).pkg p).schedAt (s.noteFault p kind core slot ctx).wtc with
    | none => _
    | some y => _) = _
  rw [sched]
  rfl

/-- What a schedule fault notes stands behind the rest of its step. -/
theorem schedFault_noted {s t : State} {p kind core slot ctx : Nat} (inPod : p < s.pkgs.length)
    (h : Notes (s.noteFault p kind core slot ctx) t) : (t.pkg p).fcnt = min ((s.pkg p).fcnt + 1) 65535 ∧
    ∃ r ∈ t.records.getLast?, t.records.length = s.records.length + 1 ∧ r.pkg = p ∧ r.wtc = s.wtc ∧ r.core = core ∧
      r.slot = slot ∧ r.imp = false ∧ r.cause = cSCH ∧ r.level = 0 ∧ r.ctx = ctx ∧
      r.tval = BitVec.ofNat 32 (kind + 256 * (s.pkg p).num) ∧ (core ≤ 256 → slot < 128 → ctx < 256 →
        ringed r ((if core = 256 then 255 else core) + 2 ^ 8 * slot + 2 ^ 16 * cSCH + 2 ^ 24 * ctx) s t) := by
  obtain ⟨pkgs, wtc, seq, records, inRing⟩ := s.noteFault_spec p kind core slot ctx
  have pkg : (s.noteFault p kind core slot ctx).pkg p = (s.pkg p).faulted := by
    rw [State.pkg_congr (t := s.noteFault p kind core slot ctx) (s := s.modPkg p Pkg.faulted) pkgs]
    exact (s.pkg_modPkg p p _ inPod).trans (if_pos rfl)
  refine ⟨by rw [h.fcnt, pkg]; rfl, ⟨p, s.wtc, seq, core, slot, false, cSCH, 0, ctx,
    BitVec.ofNat 32 (kind + 256 * (s.pkg p).num), 0, 0, 0⟩, ?_, ?_, rfl, rfl, rfl, rfl, rfl, rfl, rfl, rfl, rfl,
    fun hcore hslot hctx => ?_⟩
  · rw [h.records, records, List.getLast?_append]; rfl
  · rw [h.records, records, List.length_append]; rfl
  · have word : ((if core = 256 then 255 else core) + slot * 2 ^ 8 + cSCH * 2 ^ 16 + ctx % 256 * 2 ^ 24) % 2 ^ 32 =
        (if core = 256 then 255 else core) + 2 ^ 8 * slot + 2 ^ 16 * cSCH + 2 ^ 24 * ctx := by
      rw [cSCH]; split <;> omega
    rw [← word]
    exact (inRing inPod).mono rfl rfl (h.recNext p) h.gathers h.agenda

theorem schedFault_gives (s : State) (p kind core slot ctx : Nat) :
    Gives (.scheduleFault p kind core slot ctx) s (schedFaultRule p kind core slot ctx) := by
  cases sched : (s.pkg p).schedAt s.wtc with
  | none =>
    refine ⟨_, exec_scheduleFault_none kind core slot ctx sched, fun inPod => ?_⟩
    obtain ⟨fcnt, record⟩ := schedFault_noted inPod (Notes.refl (s.noteFault p kind core slot ctx))
    refine ⟨fcnt, record, fun _ => State.noteFault_pkg Pkg.halt (fun _ => rfl) s p kind core slot ctx p, fun y hy => ?_⟩
    rw [sched] at hy
    cases hy
  | some y =>
    refine ⟨_, exec_scheduleFault_some kind core slot ctx sched, fun inPod => ?_⟩
    obtain ⟨pkgs, wtc, -⟩ := s.noteFault_spec p kind core slot ctx
    let u := s.noteFault p kind core slot ctx
    let b := frameAt y.flog (s.wtc + 96 + 2 * s.dmax)
    have cast := State.onlyHalts_castHalt (u.adoptHalt p b (s.pkg p).num kind) p (List.range 32) b (s.pkg p).num kind
    obtain ⟨fcnt, record⟩ := schedFault_noted inPod ((u.notes_adoptHalt _ _ _ _).trans cast.notes)
    refine ⟨fcnt, record, fun none => absurd (sched.symm.trans none) (Option.some_ne_none y), fun z hz first => ?_⟩
    obtain rfl : y = z := Option.some.inj (sched.symm.trans hz)
    have adopted : u.adoptHalt p b (s.pkg p).num kind =
        (u.modPkg p (Pkg.halting b (s.pkg p).num kind)).at b pBegin [p] (.haltAtBoundary p) := by
      have later : s.wtc ≤ s.wtc + 96 + 2 * s.dmax := by omega
      have ahead : max b u.wtc = b := max_eq_left (wtc.trans_le (later.trans (le_frameAt _ _)))
      have free : (u.pkg p).halt = none := (State.noteFault_pkg Pkg.halt (fun _ => rfl) s p kind core slot ctx p).trans first
      have inForce : (u.pkg p).schedAt u.wtc = some y := by
        rw [wtc, ← sched]
        exact State.noteFault_pkg (·.schedAt s.wtc) (fun _ => rfl) s p kind core slot ctx p
      rw [State.adoptHalt_new u p b _ kind (by rw [inForce]; rfl) (by rw [free]; rfl), ahead]
    refine ⟨?_, State.planned_of_subset cast.agenda ?_, fun k hk q hq => State.halt_castHalt _ p _ b _ kind k hk q ?_⟩
    · rw [cast.pkg Pkg.halt fun _ => rfl, adopted]
      exact congrArg Pkg.halt ((u.pkg_modPkg p p _ (by rw [pkgs, List.length_modify]; exact inPod)).trans (if_pos rfl))
    · rw [adopted]
      exact State.planned_at _ _ _ _ _
    · rw [State.adoptHalt_partner, State.noteFault_partner]
      exact hq

/-- A halt received leaves the link it came by. -/
def State.halted (s : State) (p b orig kind : Nat) : State :=
  { s with packets := s.packets.filter fun x => !(x.dst = (s.pkg p).num && x.body = PBody.halt b orig kind) }

/-- R302: a row partner of the origin passes the halt on, another package does not. -/
theorem exec_haltReceipt (s : State) (p b orig kind : Nat) : exec (.haltReceipt p b orig kind) s =
    .next (((s.halted p b orig kind).adoptHalt p b orig kind).castHalt p
      (if (s.pkg p).num / 16 = orig / 16 && (s.pkg p).num ≠ orig then (List.range 16).map (16 + ·) else []) b orig kind) := by
  show Host.Outcome.next (if _ then _ else _) = _
  split <;> rfl

theorem halt_gives (s : State) (p b orig kind : Nat) : Gives (.haltReceipt p b orig kind) s (haltRule p b orig kind) := by
  refine ⟨_, exec_haltReceipt s p b orig kind, fun inPod inForce => ?_⟩
  have cast := State.onlyHalts_castHalt ((s.halted p b orig kind).adoptHalt p b orig kind) p
    (if (s.pkg p).num / 16 = orig / 16 && (s.pkg p).num ≠ orig then (List.range 16).map (16 + ·) else []) b orig kind
  refine ⟨fun first => ?_, fun known => ?_, fun row other k hk q hq => ?_⟩
  · have adopted := (s.halted p b orig kind).adoptHalt_new p b orig kind inForce first
    constructor
    · rw [cast.pkg Pkg.halt fun _ => rfl, adopted]
      exact congrArg Pkg.halt ((State.pkg_modPkg (s.halted p b orig kind) p p _ inPod).trans (if_pos rfl))
    · refine State.planned_of_subset cast.agenda ?_
      rw [adopted]
      exact State.planned_at _ _ _ _ _
  · rw [cast.pkg Pkg.halt fun _ => rfl, (s.halted p b orig kind).adoptHalt_old p b orig kind known]
    rfl
  · rw [if_pos (by simp [row, other])]
    refine State.halt_castHalt _ p _ b orig kind (16 + k) (List.mem_map_of_mem hk) q ?_
    rw [State.adoptHalt_partner]
    exact hq

/-! ### HALT_AT_BOUNDARY (R303) -/

/-- What a change of a core leaves alone in its cards is so wherever that core is looked at. -/
theorem State.core_modCore_cards (s : State) (p c : Nat) (f : Core → Core) (P : Card → Prop)
    (h : ∀ k ∈ (f (s.core p c)).cards, P k) : ∀ k ∈ ((s.modCore p c f).core p c).cards, P k := by
  by_cases inside : 256 * p + c < s.cores.length
  · rwa [s.core_modCore p c f inside]
  · have none : (s.modCore p c f).core p c = Core.reset := by
      rw [State.core, List.getD_eq_default]
      simpa using inside
    rw [none]
    exact fun k hk => absurd hk List.not_mem_nil

theorem State.core_modCore_ne (s : State) (p : Nat) {c d : Nat} (f : Core → Core) (h : c ≠ d) :
    (s.modCore p c f).core p d = s.core p d := by
  simp [State.core, State.modCore, List.getD_eq_getElem?_getD, h]

/-- Cards cut short by a halt or a kill keep their words and the cycle they started in. -/
theorem mem_stopSlots {n : Nat} {halt : Bool} {k x : Card} (h : x ∈ stopSlots n halt k) : x.words = k.words ∧ x.start = k.start := by
  unfold stopSlots at h
  split at h
  · rw [List.mem_singleton.1 h]; exact ⟨rfl, rfl⟩
  · dsimp only at h
    split at h
    · rw [List.mem_singleton.1 h]; exact ⟨rfl, rfl⟩
    · rcases List.mem_pair.1 h with rfl | rfl <;> exact ⟨rfl, rfl⟩

/-- The cards of a core as a halt leaves them. -/
def Core.haltCards (n : Nat) (x : Core) : Core := { x with cards := x.cards.flatMap (stopSlots n true) }

/-- What a halt does to one core (R303). -/
def State.haltCore (p n : Nat) (s : State) (c : Nat) : State :=
  if (s.core p c).cards.isEmpty && (s.core p c).queues.all (·.words.isEmpty) && (s.core p c).parked.isEmpty then s
  else ((((s.dropCards p c fun k => k.start.isNone && cTmd k.words).dropQueued p c fun _ ws => cTmd ws).dropParked p c
    fun _ ws => cTmd ws).modCore p c (Core.haltCards n))

/-- A timed card on a core has started. -/
def Core.timedStarted (x : Core) : Prop := ∀ k ∈ x.cards, cTmd k.words = true → k.start ≠ none

/-- R303: the timed cards that have not started go, from the core and from its queues. -/
theorem State.dropped_timedStarted (s : State) (p c : Nat) : ((((s.dropCards p c fun k => k.start.isNone && cTmd k.words).dropQueued
    p c fun _ ws => cTmd ws).dropParked p c fun _ ws => cTmd ws).core p c).timedStarted := by
  refine State.core_modCore_cards _ p c _ _ (State.core_modCore_cards _ p c _ _ (State.core_modCore_cards s p c _ _ ?_))
  intro x hx timed notStarted
  obtain ⟨k, hk, rfl⟩ := List.mem_map.1 hx
  have kept := (List.mem_filter.1 hk).2
  simp only [Bool.not_eq_true', Bool.and_eq_false_iff, Option.isNone_eq_false_iff] at kept
  rcases kept with started | untimed
  · rw [notStarted] at started; cases started
  · rw [untimed] at timed; cases timed

theorem State.haltCore_own (p n : Nat) (s : State) (c : Nat) : ((s.haltCore p n c).core p c).timedStarted := by
  unfold State.haltCore
  split
  · next idle =>
    simp only [Bool.and_eq_true, List.isEmpty_iff] at idle
    intro k hk
    rw [idle.1.1] at hk
    exact absurd hk List.not_mem_nil
  · refine State.core_modCore_cards _ p c _ (fun k => cTmd k.words = true → k.start ≠ none) fun x hx timed => ?_
    obtain ⟨k, hk, hx⟩ := List.mem_flatMap.1 hx
    obtain ⟨words, start⟩ := mem_stopSlots hx
    rw [start]
    exact s.dropped_timedStarted p c k hk (words ▸ timed)

theorem State.haltCore_other (p n : Nat) (s : State) {c d : Nat} (h : c ≠ d) : (s.haltCore p n c).core p d = s.core p d := by
  unfold State.haltCore
  split
  · rfl
  · exact (State.core_modCore_ne _ p _ h).trans ((State.core_modCore_ne _ p _ h).trans ((State.core_modCore_ne _ p _ h).trans
      (State.core_modCore_ne s p _ h)))

theorem State.haltCore_frame (p n : Nat) (s : State) (c : Nat) : s.haltCore p n c = { s with cores := (s.haltCore p n c).cores } := by
  unfold State.haltCore
  split <;> rfl

/-- Every core of the package halted. -/
def State.haltCores (s : State) (p n : Nat) : State := (List.range 256).foldl (State.haltCore p n) s

theorem State.haltCores_frame (s : State) (p n : Nat) : s.haltCores p n = { s with cores := (s.haltCores p n).cores } := by
  have (l : List Nat) : l.foldl (State.haltCore p n) s = { s with cores := (l.foldl (State.haltCore p n) s).cores } := by
    induction l using List.reverseRecOn with
    | nil => rfl
    | append_singleton l c ih =>
      rw [List.foldl_concat, State.haltCore_frame, ih]
  exact this _

theorem State.haltCores_timedStarted (s : State) (p n : Nat) : ∀ c ∈ List.range 256, ((s.haltCores p n).core p c).timedStarted :=
  foldl_establishes (P := fun c (s : State) => (s.core p c).timedStarted) (fun s c => s.haltCore_own p n c)
    (fun s c d h => by
      by_cases e : c = d
      · exact e ▸ s.haltCore_own p n c
      · rwa [s.haltCore_other p n e]) _ s

/-- The trap a halt sends to a team (R303). -/
def haltEvent (orig kind now : Nat) (t : Team) : TeamEvent :=
  ⟨2, cSCH, false, false, BitVec.ofNat 32 (kind + 256 * orig), 0, 0, t.tl, now, 0, 0, 0, false⟩

/-- A team out of the waits that a halt abandons, and a team with its events changed. -/
def Team.unwait (t : Team) : Team := { t with waits := t.waits.filter (!·.haltable) }
def Team.onEvents (f : List TeamEvent → List TeamEvent) (t : Team) : Team := { t with events := f t.events }

/-- What a halt does to one team (R303). -/
def State.haltTeam (orig kind now : Nat) (s : State) (t : Team) : State :=
  (s.modTeam t.id Team.unwait).postEvent t.id (haltEvent orig kind now t)

/-- An event changes the team it reaches alone, and of that one its events. -/
theorem State.postEvent_cases (s : State) (t : Nat) (ev : TeamEvent) :
    s.postEvent t ev = s ∨ ∃ f, s.postEvent t ev = s.modTeam t (Team.onEvents f) := by
  unfold State.postEvent
  split
  · exact .inl rfl
  split
  · exact .inl rfl
  split
  · exact .inr ⟨fun l => l.map fun e => if e.order = 4 && e.level = ev.level then { e with mult := true } else e, rfl⟩
  · exact .inr ⟨(· ++ [ev]), rfl⟩

/-- A trap that is no imprecise fault stands behind the others of a team that goes on. -/
theorem State.postEvent_append {s : State} {t : Nat} {m : Team} {ev : TeamEvent} (h : s.team? t = some m) (ended : m.ended = false)
    (stopped : m.stopped = false) (order : ev.order ≠ 4) : s.postEvent t ev = s.modTeam t (Team.onEvents (· ++ [ev])) := by
  simp [State.postEvent, h, ended, stopped, order]
  rfl

theorem State.haltTeam_other (orig kind now : Nat) (s : State) (t : Team) {i : Nat} (h : t.id ≠ i) :
    (s.haltTeam orig kind now t).team? i = s.team? i := by
  have waits : (s.modTeam t.id Team.unwait).team? i = s.team? i := (s.team?_modTeam t.id i Team.unwait fun _ => rfl).trans (if_neg h)
  rcases State.postEvent_cases (s.modTeam t.id Team.unwait) t.id (haltEvent orig kind now t) with e | ⟨f, e⟩ <;>
    rw [State.haltTeam, e]
  · exact waits
  · exact ((State.team?_modTeam _ t.id i (Team.onEvents f) fun _ => rfl).trans (if_neg h)).trans waits

theorem State.haltTeam_own {s : State} {t m : Team} (orig kind now : Nat) (h : s.team? t.id = some m) (ended : m.ended = false)
    (stopped : m.stopped = false) : (s.haltTeam orig kind now t).team? t.id =
      some (m.unwait.onEvents (· ++ [haltEvent orig kind now t])) := by
  have waits : (s.modTeam t.id Team.unwait).team? t.id = some m.unwait := by
    rw [s.team?_modTeam t.id t.id Team.unwait fun _ => rfl, if_pos rfl, h]; rfl
  rw [State.haltTeam, State.postEvent_append waits ended stopped (by simp [haltEvent]),
    State.team?_modTeam _ t.id t.id (Team.onEvents _) fun _ => rfl, if_pos rfl, waits]
  rfl

/-- Of teams with different numbers, each is as its own halt leaves it. -/
theorem State.haltTeams_own (orig kind now : Nat) (l : List Team) (ids : (l.map (·.id)).Nodup) (s : State) {m : Team} (hm : m ∈ l)
    (h : s.team? m.id = some m) (ended : m.ended = false) (stopped : m.stopped = false) :
    (l.foldl (State.haltTeam orig kind now) s).team? m.id = some (m.unwait.onEvents (· ++ [haltEvent orig kind now m])) := by
  obtain ⟨l₁, l₂, rfl⟩ := List.append_of_mem hm
  simp only [List.map_append, List.map_cons, List.nodup_append, List.nodup_cons, List.mem_cons, List.mem_map] at ids
  obtain ⟨-, ⟨notBehind, -⟩, notBefore⟩ := ids
  have others (l : List Team) (ne : ∀ t ∈ l, t.id ≠ m.id) (s : State) :
      (l.foldl (State.haltTeam orig kind now) s).team? m.id = s.team? m.id :=
    foldl_eq (·.team? m.id) l (fun s t ht => s.haltTeam_other orig kind now t (ne t ht)) s
  rw [List.foldl_append, List.foldl_cons, others l₂ fun t ht e => notBehind ⟨t, ht, e⟩]
  refine State.haltTeam_own orig kind now ?_ ended stopped
  rw [others l₁ fun t ht e => notBefore t.id ⟨t, ht, rfl⟩ m.id (.inl rfl) e, h]

theorem State.haltTeams_cores (orig kind now : Nat) (l : List Team) (s : State) :
    (l.foldl (State.haltTeam orig kind now) s).cores = s.cores ∧ (l.foldl (State.haltTeam orig kind now) s).pkgs = s.pkgs := by
  refine ⟨foldl_eq State.cores l (fun s t _ => ?_) s, foldl_eq State.pkgs l (fun s t _ => ?_) s⟩ <;>
  · rcases State.postEvent_cases (s.modTeam t.id Team.unwait) t.id (haltEvent orig kind now t) with e | ⟨f, e⟩ <;>
      rw [State.haltTeam, e] <;> rfl

/-- A package HALTED (R303). -/
def Pkg.haltedNow (x : Pkg) : Pkg := { x with halted := true, rs := none }

/-- Before its boundary, or HALTED already, a package goes on as it is. -/
theorem exec_haltAtBoundary_idle {s : State} {p : Nat} (h : ∀ x ∈ (s.pkg p).halt, s.wtc < x.1 ∨ (s.pkg p).halted = true) :
    exec (.haltAtBoundary p) s = .next s := by
  show execHaltAtBoundary p s = _
  unfold execHaltAtBoundary
  split
  · rfl
  · next known =>
    have idle := h _ known
    rw [if_pos (by simpa using idle)]

theorem exec_haltAtBoundary {s : State} {p b orig kind : Nat} (h : (s.pkg p).halt = some (b, orig, kind)) (due : b ≤ s.wtc)
    (running : (s.pkg p).halted = false) : exec (.haltAtBoundary p) s =
      .next ((s.timedTeams p).foldl (State.haltTeam orig kind s.wtc) ((s.modPkg p Pkg.haltedNow).haltCores p s.wtc)) := by
  have teams : ((s.modPkg p Pkg.haltedNow).haltCores p s.wtc).timedTeams p = s.timedTeams p := by
    rw [State.haltCores_frame]; rfl
  rw [← teams]
  show execHaltAtBoundary p s = _
  unfold execHaltAtBoundary
  rw [h]
  dsimp only
  rw [if_neg (by simp [running, due])]
  rfl

theorem halted_gives (s : State) (p : Nat) : Gives (.haltAtBoundary p) s (haltedRule p) := by
  by_cases idle : ∀ x ∈ (s.pkg p).halt, s.wtc < x.1 ∨ (s.pkg p).halted = true
  · refine ⟨s, exec_haltAtBoundary_idle idle, fun x hx due running => ?_⟩
    rcases idle x hx with early | halted
    · omega
    · rw [running] at halted; cases halted
  · simp only [not_forall, not_or, Nat.not_lt, Bool.not_eq_true] at idle
    obtain ⟨⟨b, orig, kind⟩, known, due, running⟩ := idle
    refine ⟨_, exec_haltAtBoundary known due running, fun x hx _ _ => ?_⟩
    obtain rfl := Option.some.inj (known.symm.trans hx)
    have inPod : p < s.pkgs.length := by
      by_contra out
      rw [State.pkg, List.getD_eq_default _ _ (Nat.le_of_not_lt out)] at known
      cases known
    obtain ⟨cores, pkgs⟩ := State.haltTeams_cores orig kind s.wtc (s.timedTeams p) ((s.modPkg p Pkg.haltedNow).haltCores p s.wtc)
    refine ⟨?_, fun c hc => ?_, fun m hm own stopped ids z hz => ?_⟩
    · have same : ((s.modPkg p Pkg.haltedNow).haltCores p s.wtc).pkgs = (s.modPkg p Pkg.haltedNow).pkgs := by
        rw [State.haltCores_frame]
      rw [State.pkg_congr (pkgs.trans same)]
      exact congrArg Pkg.halted ((s.pkg_modPkg p p Pkg.haltedNow inPod).trans (if_pos rfl))
    · have started := (s.modPkg p Pkg.haltedNow).haltCores_timedStarted p s.wtc c hc
      intro k hk timed
      rw [State.core, cores] at hk
      exact started k hk timed
    · have ended : m.ended = false := by
        have := (List.mem_filter.1 hm).2
        simp only [Bool.and_eq_true, Bool.not_eq_true'] at this
        exact this.1.2
      have team : ((s.modPkg p Pkg.haltedNow).haltCores p s.wtc).team? m.id = some m := by
        rw [State.haltCores_frame]; exact own
      have timed : ((s.timedTeams p).map (·.id)).Nodup := (List.filter_sublist.map _).nodup ids
      rw [State.haltTeams_own orig kind s.wtc (s.timedTeams p) timed _ hm team ended stopped] at hz
      obtain rfl := Option.some.inj hz
      exact ⟨rfl, haltEvent orig kind s.wtc m, List.mem_append_right _ (List.mem_singleton.2 rfl), rfl, rfl, rfl, rfl⟩

/-! ### RESTART and FRAME_BOUNDARY (R284, R285, R304, R374) -/

/-- A package whose timed teams run again (R304). -/
def Pkg.restarted (x : Pkg) : Pkg := { x with rs := none }

theorem restart_gives (s : State) (p : Nat) : Gives (.restart p) s (restartRule p) := by
  refine ⟨_, rfl, ?_⟩
  unfold restartRule
  split
  · exact fun inPod => congrArg Pkg.rs ((s.pkg_modPkg p p Pkg.restarted inPod).trans (if_pos rfl))
  · rfl

/-- The boundary of the table that waits has come (R284). -/
def State.frameFresh (s : State) (p : Nat) : Bool := match (s.pkg p).next with | some t => decide (t.from_ ≤ s.wtc) | none => false

def Pkg.answered (x : Pkg) : Pkg := { x with nextTag := none }

/-- A package as its new frame begins (R284, R285). -/
def Pkg.inFrame (now : Nat) (fresh : Bool) (y : Pkg) : Pkg :=
  { y with sched := y.schedAt now, next := if fresh then none else y.next, slackM := [], slackH := [],
           schedRun := (y.schedAt now).isSome }

/-- The machine with the request for the table that takes effect answered (R374). -/
def State.frameAnswered (s : State) (p : Nat) : State :=
  if s.frameFresh p then (s.respondTo p (s.pkg p).nextTag 0).modPkg p Pkg.answered else s

/-- The machine as a frame of a package begins, before what the frame plans. -/
def State.newFrame (s : State) (p : Nat) : State :=
  (s.frameAnswered p).modPkg p (Pkg.inFrame (s.frameAnswered p).wtc (s.frameFresh p))

theorem State.respondTo_pkgs (s : State) (p : Nat) (tag : Option Nat) (status : Nat) : (s.respondTo p tag status).pkgs = s.pkgs := by
  unfold State.respondTo
  split <;> rfl

theorem State.frameAnswered_wtc (s : State) (p : Nat) : (s.frameAnswered p).wtc = s.wtc := by
  unfold State.frameAnswered State.respondTo
  split
  · split <;> rfl
  · rfl

theorem State.frameAnswered_pkg {s : State} {p : Nat} (inPod : p < s.pkgs.length) : p < (s.frameAnswered p).pkgs.length ∧
    (s.frameAnswered p).pkg p = if s.frameFresh p then (s.pkg p).answered else s.pkg p := by
  have inPod' : p < (s.respondTo p (s.pkg p).nextTag 0).pkgs.length := by rwa [State.respondTo_pkgs]
  unfold State.frameAnswered
  split
  · refine ⟨by rwa [State.modPkg_pkgs, List.length_modify], ?_⟩
    rw [State.pkg_modPkg _ p p Pkg.answered inPod', if_pos rfl, State.pkg_congr (State.respondTo_pkgs s p _ 0)]
  · exact ⟨inPod, rfl⟩

theorem State.newFrame_pkg {s : State} {p : Nat} (inPod : p < s.pkgs.length) : (s.newFrame p).pkg p =
    (if s.frameFresh p then (s.pkg p).answered else s.pkg p).inFrame s.wtc (s.frameFresh p) := by
  obtain ⟨inPod', pkg⟩ := State.frameAnswered_pkg inPod
  rw [State.newFrame, State.pkg_modPkg _ p p _ inPod', if_pos rfl, pkg, State.frameAnswered_wtc]

theorem State.newFrame_responses {s : State} {p : Nat} (fresh : s.frameFresh p = true) : ∀ tag ∈ (s.pkg p).nextTag,
    ⟨p, tag, 0, s.wtc, []⟩ ∈ (s.newFrame p).responses := by
  intro tag h
  rw [State.newFrame, State.modPkg_responses, State.frameAnswered, if_pos fresh, h]
  exact List.mem_append_right _ (List.mem_singleton.2 rfl)

/-- Steps put on the agenda one after another only add to it. -/
theorem State.foldl_at (f : Nat → Instr) (key : Nat → List Nat) (n prio : Nat) (l : List Nat) (s : State) : ∃ a,
    l.foldl (fun s k => s.at n prio (key k) (f k)) s = { s with agenda := a } ∧ s.agenda ⊆ a := by
  induction l generalizing s with
  | nil => exact ⟨s.agenda, rfl, List.Subset.refl _⟩
  | cons k l ih =>
    obtain ⟨a, eq, sub⟩ := ih (s.at n prio (key k) (f k))
    exact ⟨a, eq, List.Subset.trans (s.agenda_subset_at _ _ _ _) sub⟩

theorem State.once_eq (s : State) (cyc prio : Nat) (key : List Nat) (i : Instr) :
    s.once cyc prio key i = { s with agenda := (s.once cyc prio key i).agenda } := by
  unfold State.once
  split <;> rfl

/-- What a frame of a table plans: the next boundary, and for a table that took effect the refresh of its first interval. -/
def State.planFrame (u : State) (p : Nat) (fresh : Bool) (t : Sched) : State :=
  let u := u.once (u.wtc + 2 ^ t.flog) 1 [p] (.frameBoundary p)
  if !fresh then u
  else match t.nextInterval u.wtc with
    | none => u
    | some n => (List.range 512).foldl (fun s k => s.at n pMid [p, k] (.computeBoundRefresh p k)) u

theorem State.planFrame_spec (u : State) (p : Nat) (fresh : Bool) (t : Sched) : ∃ a, u.planFrame p fresh t = { u with agenda := a } ∧
    ∃ e ∈ a, e.cyc = u.wtc + 2 ^ t.flog ∧ e.ev = .frameBoundary p := by
  have next := u.planned_once (u.wtc + 2 ^ t.flog) 1 [p] (.frameBoundary p)
  unfold State.planFrame
  extract_lets v
  have frame : v = { u with agenda := v.agenda } := u.once_eq _ _ _ _
  split
  · exact ⟨v.agenda, frame, next⟩
  split
  · exact ⟨v.agenda, frame, next⟩
  · next n _ =>
    obtain ⟨a, eq, sub⟩ := State.foldl_at (.computeBoundRefresh p) (fun k => [p, k]) n pMid (List.range 512) v
    obtain ⟨e, he, planned⟩ := next
    exact ⟨a, eq.trans (by rw [frame]), e, sub he, planned⟩

/-- A frame boundary begins the frame, and plans the next where a table is in force and the boundary is the table's. -/
theorem exec_frameBoundary (s : State) (p : Nat) : ∃ a, exec (.frameBoundary p) s = .next { s.newFrame p with agenda := a } ∧
    ∀ y ∈ ((s.newFrame p).pkg p).sched, s.wtc % 2 ^ y.flog = 0 →
      ∃ e ∈ a, e.cyc = s.wtc + 2 ^ y.flog ∧ e.ev = .frameBoundary p := by
  have wtc : (s.newFrame p).wtc = s.wtc := s.frameAnswered_wtc p
  have eq : exec (.frameBoundary p) s = match ((s.newFrame p).pkg p).sched with
      | none => .next (s.newFrame p)
      | some t => if (s.newFrame p).wtc % 2 ^ t.flog ≠ 0 then .next (s.newFrame p)
        else .next ((s.newFrame p).planFrame p (s.frameFresh p) t) := rfl
  rw [eq, wtc]
  cases sched : ((s.newFrame p).pkg p).sched with
  | none => exact ⟨_, rfl, fun y hy => by cases hy⟩
  | some t =>
    dsimp only
    split
    · next off => exact ⟨_, rfl, fun y hy on => absurd on (Option.some.inj hy ▸ off)⟩
    · obtain ⟨a, planned, e, he, cyc, ev⟩ := (s.newFrame p).planFrame_spec p (s.frameFresh p) t
      exact ⟨a, congrArg _ planned, fun y hy _ => ⟨e, he, Option.some.inj hy ▸ wtc ▸ cyc, ev⟩⟩

theorem frame_gives (s : State) (p : Nat) : Gives (.frameBoundary p) s (frameRule p) := by
  obtain ⟨a, eq, planned⟩ := exec_frameBoundary s p
  refine ⟨_, eq, fun inPod => ?_⟩
  have pkg : ({ s.newFrame p with agenda := a } : State).pkg p = _ := State.newFrame_pkg inPod
  have sched : ((s.newFrame p).pkg p).sched = (s.pkg p).schedAt s.wtc := by
    rw [State.newFrame_pkg inPod]
    split <;> rfl
  rw [sched] at planned
  refine ⟨by rw [pkg]; rfl, by rw [pkg]; rfl, sched, fun x hx due => ?_, planned⟩
  have fresh : s.frameFresh p = true := by
    rw [State.frameFresh, hx]
    exact decide_eq_true due
  refine ⟨?_, State.newFrame_responses fresh⟩
  rw [pkg, fresh]
  rfl

/-! ### The keeping of time (R27, R306, R361) -/

/-- The two ways to say what is left of an island's difference. -/
theorem slewLeft_eq (x : Int × Nat) (n : Nat) : slewLeft x n = slewed x n := by
  unfold slewLeft slewed
  rcases lt_trichotomy x.1 0 with neg | zero | pos
  · rw [Int.sign_eq_neg_one_of_neg neg]; dsimp only; rw [if_pos neg.le]; omega
  · rw [zero, Int.sign_zero, Int.zero_mul]; dsimp only; rw [if_pos le_rfl]; omega
  · rw [Int.sign_eq_one_of_pos pos]; dsimp only; rw [if_neg (by omega)]; omega

theorem skew_gives (s : State) (p : Nat) (o : Int) : Gives (.timestampExchange p o) s (skewRule p o) := by
  refine ⟨_, rfl, fun inPod => ?_, ?_⟩
  · have adjusted := congrArg Pkg.refAdj ((s.pkg_modPkg p p (fun x => { x with refAdj := x.refAdj + o }) inPod).trans (if_pos rfl))
    split <;> exact adjusted
  · split <;> rfl

theorem ptp_gives (s : State) (p : Nat) (o : Int) : Gives (.ptpMessage p o) s (ptpRule p o) := by
  refine ⟨_, rfl, fun inPod => ?_⟩
  rw [State.pkg_modPkg s p p _ inPod, if_pos rfl]
  cases root : (s.pkg p).timeRoot
  · simp
  · cases sched : (s.pkg p).schedAt s.wtc <;> simp

/-- Elements changed one after another, each place at most once, are each as their own change leaves them. -/
theorem getElem?_foldl_modify {α : Type} (g : Nat → α → α) (l : List (Nat × Nat)) (places : (l.map (·.1)).Nodup) (s : List α)
    {i j : Nat} (h : (i, j) ∈ l) : (l.foldl (fun s z => s.modify z.1 (g z.2)) s)[i]? = s[i]?.map (g j) := by
  induction l generalizing s with
  | nil => exact absurd h List.not_mem_nil
  | cons w l ih =>
    obtain ⟨fresh, places⟩ := List.nodup_cons.1 places
    have apart (y : Nat × Nat) (hy : y ∈ l) : y.1 ≠ w.1 := fun e => fresh (List.mem_map.2 ⟨y, hy, e⟩)
    rw [List.foldl_cons]
    rcases List.mem_cons.1 h with rfl | h
    · have later := foldl_eq (f := fun s y => s.modify y.1 (g y.2)) (fun s : List α => s[i]?) l
        (fun s y hy => List.getElem?_modify_ne (g y.2) s (apart y hy)) (s.modify i (g j))
      exact later.trans (List.getElem?_modify_eq (g j) i s)
    · rw [ih places _ h, List.getElem?_modify_ne (g w.2) s (apart _ h).symm]

/-- R27: the islands of a die, each once. -/
theorem islandsOf_nodup (die : Nat) : (islandsOf die).Nodup := by
  unfold islandsOf
  refine List.nodup_append.2 ⟨(List.nodup_range).map fun a b h => by simpa using h, by split <;> simp, fun a ha b hb => ?_⟩
  obtain ⟨k, hk, rfl⟩ := List.mem_map.1 ha
  rw [List.mem_range] at hk
  split at hb
  · rw [List.mem_singleton.1 hb]; omega
  · exact absurd hb List.not_mem_nil

theorem islandsOf_length (die : Nat) : (islandsOf die).length ≤ 33 := by
  unfold islandsOf
  split <;> simp

/-- The differences of a package after the pulse has set each island's place of `found` (R306). -/
def Pkg.pulsed (found : List (Nat × Nat)) (now : Nat) (diffs : List Int) (x : Pkg) : Pkg :=
  { x with slew := found.foldl (fun l z => l.modify z.1 fun y => (diffs.getD z.2 (slewLeft y now), now)) x.slew }

theorem Pkg.pulsed_slew {found : List (Nat × Nat)} (places : (found.map (·.1)).Nodup) {i j : Nat} (h : (i, j) ∈ found)
    (now : Nat) (diffs : List Int) (x : Pkg) :
    (x.pulsed found now diffs).slew[i]? = x.slew[i]?.map fun y => (diffs.getD j (slewed y now), now) := by
  have changed := getElem?_foldl_modify (fun j y => (diffs.getD j (slewLeft y now), now)) found places x.slew h
  simp only [slewLeft_eq] at changed
  simpa only [Pkg.pulsed, slewLeft_eq] using changed

/-- R306: the pairs of an island of the die and its place in the pulse; no island has two places. -/
theorem islands_placed (die : Nat) : (((islandsOf die).zip (List.range 33)).map (·.1)).Nodup := by
  rw [List.map_fst_zip (by simpa using islandsOf_length die)]
  exact islandsOf_nodup die

theorem mem_islands_placed {die i j : Nat} (hj : j ∈ List.range 33) (hi : i ∈ (islandsOf die)[j]?) :
    (i, j) ∈ (islandsOf die).zip (List.range 33) :=
  List.mem_iff_getElem?.2 ⟨j, List.getElem?_zip_eq_some.2 ⟨hi, List.getElem?_range (List.mem_range.1 hj)⟩⟩

theorem Pkg.inSkew_iff (x : Pkg) (n : Nat) : x.inSkew n = true ↔ ∀ a ∈ x.slew, ∀ b ∈ x.slew, slewed a n - slewed b n ≤ 2 := by
  simp [Pkg.inSkew, slewLeft_eq]

theorem pulse_gives (s : State) (p die : Nat) (diffs : List Int) :
    Gives (.correctionPulse p ⟨die, diffs⟩) s (pulseRule p die diffs) := by
  generalize placed : (islandsOf die).zip (List.range 33) = found
  let u := s.modPkg p (Pkg.pulsed found s.wtc diffs)
  have eq : exec (.correctionPulse p ⟨die, diffs⟩) s =
      .next (if (u.pkg p).inSkew s.wtc then u else u.then (.scheduleFault p 13 256 0 0)) := by
    subst placed
    rfl
  refine ⟨_, eq, fun inPod => ?_⟩
  have pulsed : u.pkg p = (s.pkg p).pulsed found s.wtc diffs :=
    (s.pkg_modPkg p p (Pkg.pulsed found s.wtc diffs) inPod).trans (if_pos rfl)
  have slew : ∀ j ∈ List.range 33, ∀ i ∈ (islandsOf die)[j]?, ∀ x ∈ (s.pkg p).slew[i]?,
      (u.pkg p).slew[i]? = some (diffs.getD j (slewed x s.wtc), s.wtc) := by
    intro j hj i hi x hx
    rw [pulsed, Pkg.pulsed_slew (placed ▸ islands_placed die) (placed ▸ mem_islands_placed hj hi), Option.mem_def.1 hx]
    rfl
  by_cases within : (u.pkg p).inSkew s.wtc
  · rw [if_pos within]
    refine ⟨slew, fun _ => rfl, fun ⟨a, ha, b, hb, wide⟩ => ?_⟩
    exact absurd ((Pkg.inSkew_iff _ _).1 within a ha b hb) (by omega)
  · rw [if_neg within]
    exact ⟨slew, fun close => absurd ((Pkg.inSkew_iff _ _).2 close) within, fun _ => rfl⟩

end Sys2Proof.Machine

namespace Sys2Proof
open Machine

/-- Settles O53, one clause per event. -/
theorem scheduleSteps : Obligations.ScheduleSteps := fun s p k c slot x o diffs =>
  ⟨schedFault_gives s p k c slot x, halt_gives s p c slot k, halted_gives s p, restart_gives s p, frame_gives s p,
    pulse_gives s p k diffs, skew_gives s p o, ptp_gives s p o⟩

end Sys2Proof
end

section
/-! The frame of the register files fails: an acknowledgement can end a drain, and a drain that ends writes its status register (R176, R192). -/

namespace Sys2Proof.Machine

/-! ### An acknowledgement that ends a drain of its own package (R176, R192) -/

/-- A one-warp team on core 0 that waits, by a `migdrain` of cycle 100, for the status of the drain in its uniform register 3. -/
def drainTeam : Team :=
  { Team.start 1 ⟨0, 0, 0, 0, 3, 2, 1, 12, 12, 4096, 8192, 2, 0, 0, 16, 0, 8, 1⟩ 0 0 with
    vr := [], ur := [0, 0, 0, 5], waits := [.migdrain 3 100] }

/-- The machine once its drain of key 7 has been received: the drain still lacks the answer of package 0 itself, which waits for
packet 40 to that key, and the acknowledgement of packet 40 is about to arrive. -/
def drainLacksAck : State :=
  { State.reset with
    wtc := 200
    teams := [drainTeam]
    pkgs := [{ Pkg.reset 0 with
      timeRoot := true, drains := [⟨9, 1, 3, 7, 100, [0], none, none⟩], drainsIn := [⟨7, 0, 9, [40]⟩],
      out := [⟨40, 0, 7, 7, 2, 2, 90, .tub 0 [], 95, 0, [], 0⟩] }]
    packets := [⟨41, 7, 0, 0, 1, 1, 190, .ack 40 [], 195, 0, [], 0⟩] }

/-- The same machine just before its own interface receives the drain. -/
def drainUnderway : State :=
  { drainLacksAck with
    pkgs := drainLacksAck.pkgs.map fun x => { x with drainsIn := [] }
    packets := drainLacksAck.packets ++ [⟨42, 0, 0, 0, 0, 0, 100, .drain 7 0 9, 0, 0, [], 0⟩] }

/-- The state of the counterexample is one that MIGDRAIN_RECEIPT leaves. -/
theorem migdrainReceipt_drainUnderway : exec (.migdrainReceipt 0 42) drainUnderway = .next drainLacksAck :=
  rfl

theorem acknowledgement_writes_register : ∃ t, exec (.acknowledgementArrival 0 41) drainLacksAck = .next t ∧
    drainLacksAck.registers.map (·.2.2.1) = [[0, 0, 0, 5]] ∧ t.registers.map (·.2.2.1) = [[0, 0, 0, 0]] :=
  ⟨_, rfl, rfl, rfl⟩

end Sys2Proof.Machine

namespace Sys2Proof
open Machine

/-- Refutes O60: the acknowledgement of the last packet a drain waits for writes the status register of the `migdrain`. -/
theorem not_registerFrame : ¬ Obligations.RegisterFrame := by
  intro frame
  obtain ⟨t, next, before, after⟩ := acknowledgement_writes_register
  obtain ⟨registers, -⟩ := frame _ _ _ next
  rw [registers rfl, before] at after
  exact absurd after (by decide)

end Sys2Proof
end

section
/-! The decoder and the encoder agree (R49 to R63). A word is its fields, each layout says which; so a parse reads an instruction from a
word exactly where the word is the one the instruction is laid out as. -/

namespace Sys2Proof.Machine

/-! ### Fields of a word laid out (R50 to R54) -/

theorem append_eq_fld {m n : Nat} (w : Word) (lo : Nat) (x : BitVec m) (y : BitVec n) :
    x ++ y = fld w lo (m + n) ↔ x = fld w (lo + n) m ∧ y = fld w lo n := by
  have whole : fld w lo (m + n) = fld w (lo + n) m ++ fld w lo n := by
    rw [fld, Nat.add_comm lo n]
    exact (BitVec.extractLsb'_append_extractLsb'_eq_extractLsb' (Nat.add_comm n lo)).symm
  rw [whole]
  constructor
  · intro h
    have hx := congrArg (BitVec.extractLsb' n m) h
    have hy := congrArg (BitVec.extractLsb' 0 n) h
    simp only [BitVec.extractLsb'_append_eq_of_le (Nat.le_refl n), Nat.sub_self,
      BitVec.extractLsb'_append_eq_of_add_le (Nat.le_of_eq (Nat.zero_add n)), BitVec.extractLsb'_eq_self] at hx hy
    exact ⟨hx, hy⟩
  · rintro ⟨rfl, rfl⟩
    rfl

theorem b1_eq_fld (w : Word) (k : Nat) (b : Bool) : b1 b = fld w k 1 ↔ b = bit w k := by
  rw [BitVec.eq_of_getLsbD_eq_iff]
  simp [fld, bit, b1]

theorem fld_whole (w : Word) : fld w 0 32 = w := BitVec.extractLsb'_eq_self

theorem eA_eq_iff (w : Word) (op : BitVec 6) (nw pn : Bool) (pr : BitVec 3) (d a b : BitVec 7) : eA op nw pn pr d a b = w ↔
    fld w 26 6 = op ∧ bit w 25 = nw ∧ bit w 24 = pn ∧ fld w 21 3 = pr ∧ fld w 14 7 = d ∧ fld w 7 7 = a ∧ fld w 0 7 = b := by
  conv_lhs => rw [← fld_whole w, eA]
  repeat rw [append_eq_fld]
  simp only [b1_eq_fld, and_assoc, Nat.reduceAdd, eq_comm]

theorem eM_eq_iff (w : Word) (op : BitVec 6) (sb : BitVec 2) (pn : Bool) (pr : BitVec 3) (d a : BitVec 7) (bp : BitVec 2)
    (low : BitVec 4) : eM op sb pn pr d a bp low = w ↔ fld w 26 6 = op ∧ fld w 24 2 = sb ∧ bit w 23 = pn ∧ fld w 20 3 = pr ∧
      fld w 13 7 = d ∧ fld w 6 7 = a ∧ fld w 4 2 = bp ∧ fld w 0 4 = low := by
  conv_lhs => rw [← fld_whole w, eM]
  repeat rw [append_eq_fld]
  simp only [b1_eq_fld, and_assoc, Nat.reduceAdd, eq_comm]

theorem eS_eq_iff (w : Word) (op : BitVec 6) (pn : Bool) (pr scope gpd : BitVec 3) (a b : BitVec 7) :
    eS op pn pr scope gpd a b = w ↔ fld w 26 6 = op ∧ fld w 25 1 = 0 ∧ bit w 24 = pn ∧ fld w 21 3 = pr ∧ fld w 18 3 = scope ∧
      fld w 17 1 = 0 ∧ fld w 14 3 = gpd ∧ fld w 7 7 = a ∧ fld w 0 7 = b := by
  conv_lhs => rw [← fld_whole w, eS]
  repeat rw [append_eq_fld]
  simp only [b1_eq_fld, and_assoc, Nat.reduceAdd, eq_comm]

theorem eF_eq_iff (w : Word) (op : BitVec 6) (pn : Bool) (pr : BitVec 3) (k : BitVec 5) (off : BitVec 16) : eF op pn pr k off = w ↔
    fld w 26 6 = op ∧ fld w 25 1 = 0 ∧ bit w 24 = pn ∧ fld w 21 3 = pr ∧ fld w 16 5 = k ∧ fld w 0 16 = off := by
  conv_lhs => rw [← fld_whole w, eF]
  repeat rw [append_eq_fld]
  simp only [b1_eq_fld, and_assoc, Nat.reduceAdd, eq_comm]

theorem eFG_eq_iff (w : Word) (op : BitVec 6) (x : FG) : eFG op x = w ↔ fld w 26 6 = op ∧ fld w 25 1 = 0 ∧ bit w 24 = x.pn ∧
    fld w 21 3 = x.pr ∧ fld w 14 7 = 0 ∧ fld w 7 7 = x.a ∧ fld w 0 7 = 0 := by
  conv_lhs => rw [← fld_whole w, eFG]
  repeat rw [append_eq_fld]
  simp only [b1_eq_fld, and_assoc, Nat.reduceAdd, eq_comm]

theorem eY_eq_iff (w : Word) (op : BitVec 6) (pn : Bool) (pr : BitVec 3) (csr : BitVec 12) (reg : BitVec 7) :
    eY op pn pr csr reg = w ↔ fld w 26 6 = op ∧ fld w 25 1 = 0 ∧ bit w 24 = pn ∧ fld w 21 3 = pr ∧ fld w 9 12 = csr ∧
      fld w 2 7 = reg ∧ fld w 0 2 = 0 := by
  conv_lhs => rw [← fld_whole w, eY]
  repeat rw [append_eq_fld]
  simp only [b1_eq_fld, and_assoc, Nat.reduceAdd, eq_comm]

theorem fld7_eq_2_2_3 (w : Word) (lo : Nat) (x y : BitVec 2) (z : BitVec 3) :
    fld w lo 7 = x ++ y ++ z ↔ fld w (lo + 5) 2 = x ∧ fld w (lo + 3) 2 = y ∧ fld w lo 3 = z := by
  rw [eq_comm]
  repeat rw [append_eq_fld]
  simp only [and_assoc, Nat.add_assoc, Nat.reduceAdd, eq_comm]

theorem fld7_eq_3_1_3 (w : Word) (lo : Nat) (x : BitVec 3) (b : Bool) (z : BitVec 3) :
    fld w lo 7 = x ++ b1 b ++ z ↔ fld w (lo + 4) 3 = x ∧ bit w (lo + 3) = b ∧ fld w lo 3 = z := by
  rw [eq_comm]
  repeat rw [append_eq_fld]
  simp only [b1_eq_fld, and_assoc, Nat.add_assoc, Nat.reduceAdd, eq_comm]

theorem fld7_eq_3_3_b (w : Word) (lo : Nat) (x y : BitVec 3) (b : Bool) :
    fld w lo 7 = x ++ y ++ b1 b ↔ fld w (lo + 4) 3 = x ∧ fld w (lo + 1) 3 = y ∧ bit w lo = b := by
  rw [eq_comm]
  repeat rw [append_eq_fld]
  simp only [b1_eq_fld, and_assoc, Nat.add_assoc, Nat.reduceAdd, eq_comm]

theorem fld7_eq_1_1_1_4 (w : Word) (lo : Nat) (a b c : Bool) (x : BitVec 4) :
    fld w lo 7 = b1 a ++ b1 b ++ b1 c ++ x ↔ bit w (lo + 6) = a ∧ bit w (lo + 5) = b ∧ bit w (lo + 4) = c ∧ fld w lo 4 = x := by
  rw [eq_comm]
  repeat rw [append_eq_fld]
  simp only [b1_eq_fld, and_assoc, Nat.add_assoc, Nat.reduceAdd, eq_comm]

theorem fld7_eq_4_3 (w : Word) (lo : Nat) (x : BitVec 4) (y : BitVec 3) :
    fld w lo 7 = x ++ y ↔ fld w (lo + 3) 4 = x ∧ fld w lo 3 = y := by
  rw [eq_comm, append_eq_fld, eq_comm, eq_comm (a := y)]

theorem fld4_eq_2_2 (w : Word) (lo : Nat) (x y : BitVec 2) : fld w lo 4 = x ++ y ↔ fld w (lo + 2) 2 = x ∧ fld w lo 2 = y := by
  rw [eq_comm, append_eq_fld, eq_comm, eq_comm (a := y)]

theorem b1_false : b1 false = 0 := rfl

/-! ### Codes -/

theorem IunOp.ofCode_eq_some (b : BitVec 7) (o : IunOp) : IunOp.ofCode b = some o ↔ b = o.code := by
  constructor
  · intro h
    unfold IunOp.ofCode at h
    split at h <;> cases h <;> exact BitVec.eq_of_toNat_eq ‹_›
  · rintro rfl
    cases o <;> rfl

theorem FunOp.ofCode_eq_some (b : BitVec 7) (o : FunOp) : FunOp.ofCode b = some o ↔ b = o.code := by
  constructor
  · intro h
    unfold FunOp.ofCode at h
    split at h <;> cases h <;> exact BitVec.eq_of_toNat_eq ‹_›
  · rintro rfl
    cases o <;> rfl

theorem GetlOp.ofCode_eq_some (b : BitVec 7) (o : GetlOp) : GetlOp.ofCode b = some o ↔ b = o.code := by
  constructor
  · intro h
    unfold GetlOp.ofCode at h
    split at h <;> cases h <;> exact BitVec.eq_of_toNat_eq ‹_›
  · rintro rfl
    cases o <;> rfl

theorem Fmt.ofCode_eq_some (b : BitVec 4) (o : Fmt) : Fmt.ofCode b = some o ↔ b = o.code := by
  constructor
  · intro h
    unfold Fmt.ofCode at h
    split at h <;> cases h <;> exact BitVec.eq_of_toNat_eq ‹_›
  · rintro rfl
    cases o <;> rfl

theorem CMode.ofCode_eq_some (b : BitVec 2) (o : CMode) : CMode.ofCode b = some o ↔ b = o.code := by
  constructor
  · intro h
    unfold CMode.ofCode at h
    split at h <;> cases h <;> exact BitVec.eq_of_toNat_eq ‹_›
  · rintro rfl
    cases o <;> rfl

theorem AOp.ofCode_eq_some (b : BitVec 4) (o : AOp) : AOp.ofCode b = some o ↔ b = o.code := by
  constructor
  · intro h
    unfold AOp.ofCode at h
    split at h <;> cases h <;> exact BitVec.eq_of_toNat_eq ‹_›
  · rintro rfl
    cases o <;> rfl

theorem VoteMode.ofCode_eq_some (b : BitVec 7) (o : VoteMode) : VoteMode.ofCode b = some o ↔ b = o.code := by
  constructor
  · intro h
    unfold VoteMode.ofCode at h
    split at h <;> cases h <;> exact BitVec.eq_of_toNat_eq ‹_›
  · rintro rfl
    cases o <;> rfl

theorem ScanIOp.ofCode_eq_some (b : BitVec 3) (o : ScanIOp) : ScanIOp.ofCode b = some o ↔ b = o.code := by
  constructor
  · intro h
    unfold ScanIOp.ofCode at h
    split at h <;> cases h <;> exact BitVec.eq_of_toNat_eq ‹_›
  · rintro rfl
    cases o <;> rfl

theorem ScanFOp.ofCode_eq_some (b : BitVec 3) (o : ScanFOp) : ScanFOp.ofCode b = some o ↔ b = o.code := by
  constructor
  · intro h
    unfold ScanFOp.ofCode at h
    split at h <;> cases h <;> exact BitVec.eq_of_toNat_eq ‹_›
  · rintro rfl
    cases o <;> rfl

theorem Scope.ofCode_eq_some (b : BitVec 3) (o : Scope) : Scope.ofCode b = some o ↔ b = o.code := by
  constructor
  · intro h
    unfold Scope.ofCode at h
    split at h <;> cases h <;> exact BitVec.eq_of_toNat_eq ‹_›
  · rintro rfl
    cases o <;> rfl

/-! ### What a parse reads -/

theorem minBad_eq_none (l : List (Bool × Reject)) : minBad l = none ↔ ∀ x ∈ l, x.1 = true := by
  induction l with
  | nil => simp [minBad]
  | cons x xs ih =>
    have step : minBad (x :: xs) = if x.1 then minBad xs else
        match minBad xs with
        | none => some x.2
        | some r => some (if x.2.detail ≤ r.detail then x.2 else r) := rfl
    rw [step, List.forall_mem_cons, ← ih]
    by_cases h : x.1
    · simp [h]
    · cases e : minBad xs <;> simp [h]

/-- The parse reads an instruction, and the bits that no field of it holds are as they must be. -/
def Reads (x : Parse) (i : Instr) : Prop := x.2 = some i ∧ ∀ y ∈ x.1, y.1 = true

theorem reads_some (l : List (Bool × Reject)) (i j : Instr) : Reads (l, some j) i ↔ j = i ∧ ∀ y ∈ l, y.1 = true := by
  simp [Reads]

theorem reads_none (l : List (Bool × Reject)) (i : Instr) : ¬ Reads (l, none) i := by simp [Reads]

theorem reads_subP {α : Type} (l : List (Bool × Reject)) (x : Option α) (f : α → Instr) (i : Instr) :
    Reads (subP l x f) i ↔ ∃ a, x = some a ∧ f a = i ∧ ∀ y ∈ l, y.1 = true := by
  cases x <;> simp [Reads, subP]

theorem reads_scopeP (w : Word) (l : List (Bool × Reject)) (f : FB → Instr) (i : Instr) :
    Reads (scopeP w l f) i ↔ ∃ a, fld w 18 3 = a.code ∧ f (fB w a) = i ∧ ∀ y ∈ l, y.1 = true := by
  simp only [← Scope.ofCode_eq_some, Reads, scopeP]
  cases Scope.ofCode (fld w 18 3) <;> simp [or_imp, forall_and]

theorem zero_passes (w : Word) (lo n : Nat) : (zero w lo n).1 = true ↔ fld w lo n = 0 := by simp [zero]

theorem decode_eq_ok (c : Cls) (w : Word) (i : Instr) : decode c w = .ok i ↔ Reads (parse c w) i ∧ i.wf c = true := by
  have wf : ∀ j : Instr, j.wf c = true ↔ minBad (checks c j) = none := by simp [minBad_eq_none, Instr.wf]
  rw [wf, Reads, ← minBad_eq_none]
  unfold decode
  cases hb : minBad (parse c w).1 <;> cases hi : (parse c w).2
  case none.some j =>
    by_cases e : j = i
    · subst e
      cases hc : minBad (checks c j) <;> simp [hc]
    · cases hc : minBad (checks c j) <;> simp [hc, e]
  all_goals simp

/-! ### Each layout and its reading -/

section
variable {w : Word} {op : BitVec 6}

theorem op_of_toNat {k : Nat} (h : (fld w 26 6).toNat = k) : fld w 26 6 = BitVec.ofNat 6 k := by
  rw [← h, BitVec.ofNat_toNat, BitVec.setWidth_eq]

theorem eA3_eq_iff {x : FA} : eA3 op x = w ↔ fld w 26 6 = op ∧ fA w = x := by
  cases x; simp only [eA3, eA_eq_iff, fA, FA.mk.injEq]

theorem eA2_eq_iff {x : FU} {b : BitVec 7} : eA2 op x b = w ↔ fld w 26 6 = op ∧ fU w = x ∧ fld w 0 7 = b := by
  cases x; simp only [eA2, eA_eq_iff, fU, FU.mk.injEq, and_assoc]

theorem eA1_eq_iff {x : FD} {a b : BitVec 7} : eA1 op x a b = w ↔ fld w 26 6 = op ∧ fD w = x ∧ fld w 7 7 = a ∧ fld w 0 7 = b := by
  cases x; simp only [eA1, eA_eq_iff, fD, FD.mk.injEq, and_assoc]

theorem eAC_eq_iff {x : FC} : eAC op x = w ↔ fld w 26 6 = op ∧ fld w 17 2 = x.mode.code ∧ fC w x.mode = x ∧ fld w 19 2 = 0 := by
  cases x; simp only [eAC, eA_eq_iff, fC, FC.mk.injEq, fld7_eq_2_2_3, true_and]; tauto

/-- `plop` (R99). -/
theorem plop_eq_iff {x : FP} : eA op x.nw x.pn x.pr (x.tbl ++ x.q) ((0 : BitVec 4) ++ x.x) ((0 : BitVec 4) ++ x.y) = w ↔
    fld w 26 6 = op ∧ fP w = x ∧ fld w 10 4 = 0 ∧ fld w 3 4 = 0 := by
  cases x; simp only [eA_eq_iff, fP, FP.mk.injEq, fld7_eq_4_3]; tauto

/-- `cardf` (R245). -/
theorem cardf_eq_iff {x : FG} : eA op false x.pn x.pr 0 x.a 0 = w ↔
    fld w 26 6 = op ∧ fG w = x ∧ fld w 25 1 = 0 ∧ fld w 14 7 = 0 ∧ fld w 0 7 = 0 := by
  have nw : bit w 25 = false ↔ fld w 25 1 = 0 := by rw [eq_comm, ← b1_eq_fld, eq_comm, b1_false]
  cases x; simp only [eA_eq_iff, fG, FG.mk.injEq, nw]; tauto

theorem eM2_eq_iff {x : FM} : eM2 op x = w ↔ fld w 26 6 = op ∧ fM w = x := by
  cases x; simp only [eM2, eM_eq_iff, fM, FM.mk.injEq, fld4_eq_2_2]

theorem eMV_eq_iff {x : FV} : eMV op x = w ↔ fld w 26 6 = op ∧ fV w = x ∧ fld w 0 2 = 2 := by
  cases x; simp only [eMV, eM_eq_iff, fV, FV.mk.injEq, fld4_eq_2_2, and_assoc]

theorem eMT_eq_iff {x : FT} : eMT op x = w ↔ fld w 26 6 = op ∧ fld w 0 4 = x.aop.code ∧ fT w x.aop = x := by
  cases x; simp only [eMT, eM_eq_iff, fT, FT.mk.injEq]; tauto

theorem eMX_eq_iff {x : FX} : eMX op x = w ↔ fld w 26 6 = op ∧ fX w = x ∧ fld w 0 2 = 2 ∧ fld w 2 2 = 0 := by
  have low : (2 : BitVec 4) = (0 : BitVec 2) ++ (2 : BitVec 2) := rfl
  cases x; simp only [eMX, eM_eq_iff, fX, FX.mk.injEq, low, fld4_eq_2_2]; tauto

/-- `str.z` (R190). -/
theorem strZ_eq_iff {x : FZ} : eM op x.sb true 7 120 x.a x.bp (x.sc ++ (2 : BitVec 2)) = w ↔
    fld w 26 6 = op ∧ (fld w 20 3 = 7 ∧ bit w 23 = true) ∧ fZ w = x ∧ fld w 0 2 = 2 ∧ fld w 13 7 = 120 := by
  cases x; simp only [eM_eq_iff, fZ, FZ.mk.injEq, fld4_eq_2_2]; tauto

end

theorem scan_eq_iff {w : Word} {o : BitVec 3} {x : Bool} : fld w 0 7 = (0 : BitVec 3) ++ o ++ b1 x ↔
    fld w 1 3 = o ∧ bit w 0 = x ∧ fld w 4 3 = 0 := by
  rw [fld7_eq_3_3_b]; tauto

theorem tred_eq_iff {w : Word} {o : BitVec 3} : fld w 0 7 = (0 : BitVec 3) ++ o ++ (0 : BitVec 1) ↔
    fld w 1 3 = o ∧ (!bit w 0) = true ∧ fld w 4 3 = 0 := by
  rw [← b1_false, scan_eq_iff, Bool.not_eq_true']

/-! ### An accepted word is the word of what it reads as -/

/-- An instruction of a class is the one of a word. -/
def Holds (c : Cls) (w : Word) (i : Instr) : Prop := i.cls = some c ∧ encode i = some w

theorem holds_of_some {c : Cls} {w : Word} {l : List (Bool × Reject)} {j : Instr} (h : (∀ y ∈ l, y.1 = true) → Holds c w j) :
    ∀ i, Reads (l, some j) i → Holds c w i := by
  rintro i ⟨e, hl⟩
  exact Option.some.inj e ▸ h hl

theorem holds_of_subP {c : Cls} {w : Word} {α : Type} {l : List (Bool × Reject)} {x : Option α} {f : α → Instr}
    (h : ∀ a, x = some a → (∀ y ∈ l, y.1 = true) → Holds c w (f a)) : ∀ i, Reads (subP l x f) i → Holds c w i := by
  intro i hi
  obtain ⟨a, ha, rfl, hl⟩ := (reads_subP ..).1 hi
  exact h a ha hl

theorem holds_of_parseA (w : Word) : ∀ i, Reads (parseA w) i → Holds .lane w i := by
  unfold parseA
  split
  all_goals rename_i op; try replace op := op_of_toNat op
  case h_65 => exact fun i h => absurd h (reads_none _ i)
  case h_1 => exact holds_of_some fun hl => ⟨rfl, congrArg some (eA2_eq_iff.2 ⟨op, rfl, by simpa [zero] using hl⟩)⟩
  case h_32 => exact holds_of_some fun hl => ⟨rfl, congrArg some (cardf_eq_iff.2 ⟨op, rfl, by simpa [zero] using hl⟩)⟩
  case h_43 => exact holds_of_some fun hl => ⟨rfl, congrArg some (plop_eq_iff.2 ⟨op, rfl, by simpa [zero] using hl⟩)⟩
  case h_44 => exact holds_of_some fun hl => ⟨rfl, congrArg some (eA1_eq_iff.2 ⟨op, rfl, by simpa [zero] using hl⟩)⟩
  case h_33 | h_34 | h_35 | h_36 | h_37 | h_38 | h_39 | h_40 | h_41 | h_42 | h_45 =>
    exact holds_of_subP fun m hm hl =>
      have mode := (CMode.ofCode_eq_some ..).1 hm
      ⟨rfl, congrArg some (eAC_eq_iff.2 ⟨op, mode, rfl, by simpa [zero] using hl⟩)⟩
  case h_25 =>
    exact holds_of_subP fun o ho _ => ⟨rfl, congrArg some (eA2_eq_iff.2 ⟨op, rfl, (IunOp.ofCode_eq_some ..).1 ho⟩)⟩
  case h_63 =>
    exact holds_of_subP fun o ho _ => ⟨rfl, congrArg some (eA2_eq_iff.2 ⟨op, rfl, (FunOp.ofCode_eq_some ..).1 ho⟩)⟩
  case h_64 =>
    exact holds_of_subP fun o ho _ =>
      have fields := (fld7_eq_1_1_1_4 ..).2 ⟨rfl, rfl, rfl, (Fmt.ofCode_eq_some ..).1 ho⟩
      ⟨rfl, congrArg some (eA2_eq_iff.2 ⟨op, rfl, fields⟩)⟩
  case h_51 =>
    exact holds_of_subP fun o ho hl =>
      have fields := (fld7_eq_3_1_3 ..).2 ⟨by simpa [zero] using hl, rfl, rfl⟩
      ⟨rfl, congrArg some (eA1_eq_iff.2 ⟨op, rfl, fields, (VoteMode.ofCode_eq_some ..).1 ho⟩)⟩
  case h_52 =>
    exact holds_of_subP fun o ho hl =>
      have fields := scan_eq_iff.2 ⟨(ScanIOp.ofCode_eq_some ..).1 ho, rfl, by simpa [zero] using hl⟩
      ⟨rfl, congrArg some (eA2_eq_iff.2 ⟨op, rfl, fields⟩)⟩
  case h_53 =>
    exact holds_of_subP fun o ho hl =>
      have fields := scan_eq_iff.2 ⟨(ScanFOp.ofCode_eq_some ..).1 ho, rfl, by simpa [zero] using hl⟩
      ⟨rfl, congrArg some (eA2_eq_iff.2 ⟨op, rfl, fields⟩)⟩
  case h_54 =>
    exact holds_of_subP fun o ho hl =>
      have fields := tred_eq_iff.2 ⟨(ScanIOp.ofCode_eq_some ..).1 ho, by simpa [zero] using hl⟩
      ⟨rfl, congrArg some (eA2_eq_iff.2 ⟨op, rfl, fields⟩)⟩
  case h_55 =>
    exact holds_of_subP fun o ho hl =>
      have fields := tred_eq_iff.2 ⟨(ScanFOp.ofCode_eq_some ..).1 ho, by simpa [zero] using hl⟩
      ⟨rfl, congrArg some (eA2_eq_iff.2 ⟨op, rfl, fields⟩)⟩
  case h_56 =>
    exact holds_of_subP fun o ho hl =>
      have sub := (GetlOp.ofCode_eq_some ..).1 ho
      ⟨rfl, congrArg some (eA1_eq_iff.2 ⟨op, rfl, by simpa [zero] using hl, sub⟩)⟩
  all_goals exact holds_of_some fun _ => ⟨rfl, congrArg some (eA3_eq_iff.2 ⟨op, rfl⟩)⟩

theorem holds_of_parseM (w : Word) : ∀ i, Reads (parseM w) i → Holds .mem w i := by
  unfold parseM
  split
  all_goals rename_i op; try replace op := op_of_toNat op
  case h_22 => exact fun i h => absurd h (reads_none _ i)
  case h_4 | h_5 | h_9 | h_10 =>
    exact holds_of_some fun hl => ⟨rfl, congrArg some (eMV_eq_iff.2 ⟨op, rfl, by simpa using hl⟩)⟩
  case h_13 =>
    split
    · next empty =>
      exact holds_of_some fun hl => ⟨rfl, congrArg some (strZ_eq_iff.2 ⟨op, by simpa using empty, rfl, by simpa using hl⟩)⟩
    · exact holds_of_some fun _ => ⟨rfl, congrArg some (eM2_eq_iff.2 ⟨op, rfl⟩)⟩
  case h_14 | h_15 | h_16 | h_17 | h_18 | h_19 =>
    exact holds_of_subP fun o ho _ => ⟨rfl, congrArg some (eMT_eq_iff.2 ⟨op, (AOp.ofCode_eq_some ..).1 ho, rfl⟩)⟩
  case h_20 | h_21 => exact holds_of_some fun hl => ⟨rfl, congrArg some (eMX_eq_iff.2 ⟨op, rfl, by simpa using hl⟩)⟩
  all_goals exact holds_of_some fun _ => ⟨rfl, congrArg some (eM2_eq_iff.2 ⟨op, rfl⟩)⟩

theorem holds_of_parseS (w : Word) : ∀ i, Reads (parseS w) i → Holds .sync w i := by
  unfold parseS
  split
  all_goals rename_i op; try replace op := op_of_toNat op
  case h_13 => exact fun i h => absurd h (reads_none _ i)
  case h_6 | h_8 =>
    intro i h
    obtain ⟨a, ha, rfl, hl⟩ := (reads_scopeP ..).1 h
    simp only [List.forall_mem_cons, zero_passes] at hl
    exact ⟨rfl, congrArg some ((eS_eq_iff ..).2 (by simp [op, hl, ha, fB]))⟩
  all_goals
    refine holds_of_some fun hl => ⟨rfl, congrArg some ((eS_eq_iff ..).2 ?_)⟩
    simp only [List.forall_mem_cons, zero_passes] at hl
    simp [op, hl, fS, fW, fN, fG]

theorem holds_of_parseF (w : Word) : ∀ i, Reads (parseF w) i → Holds .flow w i := by
  unfold parseF
  split
  all_goals rename_i op; try replace op := op_of_toNat op
  case h_14 => exact fun i h => absurd h (reads_none _ i)
  case h_5 | h_6 | h_12 | h_13 =>
    refine holds_of_some fun hl => ⟨rfl, congrArg some ((eFG_eq_iff ..).2 ?_)⟩
    simp only [List.forall_mem_cons, zero_passes] at hl
    simp [op, hl, fG]
  all_goals
    refine holds_of_some fun hl => ⟨rfl, congrArg some ((eF_eq_iff ..).2 ?_)⟩
    simp only [List.forall_mem_cons, zero_passes] at hl
    simp [op, hl, fN, fR]

theorem holds_of_parseY (w : Word) : ∀ i, Reads (parseY w) i → Holds .sys w i := by
  unfold parseY
  split
  all_goals rename_i op; try replace op := op_of_toNat op
  case h_12 => exact fun i h => absurd h (reads_none _ i)
  all_goals
    refine holds_of_some fun hl => ⟨rfl, congrArg some ((eY_eq_iff ..).2 ?_)⟩
    simp only [List.forall_mem_cons, zero_passes] at hl
    simp [op, hl, fY, fK, fN, fQ]

theorem reads_unif {w : Word} {i : Instr} : Reads (parse .unif w) i ↔ laneOnly (fld w 26 6).toNat = false ∧ Reads (parseA w) i := by
  simp only [Reads, parse, List.forall_mem_cons, Bool.not_eq_true']
  tauto

/-- An accepted word belongs to the class and is the word of the instruction it reads as. -/
theorem holds_of_parse (c : Cls) (w : Word) (i : Instr) (h : Reads (parse c w) i) : i.inClass c = true ∧ encode i = some w := by
  have inClass {d : Cls} (e : d = if c = .unif then .lane else c) : Holds d w i → i.inClass c = true ∧ encode i = some w :=
    fun ⟨cls, code⟩ => ⟨by simp [Instr.inClass, cls, e], code⟩
  cases c with
  | lane => exact inClass rfl (holds_of_parseA w i h)
  | unif => exact inClass rfl (holds_of_parseA w i (reads_unif.1 h).2)
  | mem => exact inClass rfl (holds_of_parseM w i h)
  | sync => exact inClass rfl (holds_of_parseS w i h)
  | flow => exact inClass rfl (holds_of_parseF w i h)
  | sys => exact inClass rfl (holds_of_parseY w i h)
  | card | res => exact absurd h (reads_none _ i)

/-! ### A word laid out reads as its instruction -/

theorem reads_of_lane {w : Word} {i : Instr} (cls : i.cls = some .lane) (code : encode i = some w) : Reads (parseA w) i := by
  unfold parseA
  cases i <;> cases cls
  all_goals replace code := Option.some.inj code
  case icmpEq x | icmpNe x | icmpLtS x | icmpLeS x | icmpLtN x | icmpLeN x | fcmpEq x | fcmpLt x | fcmpLe x | fcmpUn x | vtop x =>
    obtain ⟨op, mode, fields, unused⟩ := eAC_eq_iff.1 code
    rw [op]
    exact (reads_subP ..).2 ⟨_, (CMode.ofCode_eq_some ..).2 mode, congrArg _ fields, by simpa [zero] using unused⟩
  case mov x =>
    obtain ⟨op, rfl, unused⟩ := eA2_eq_iff.1 code
    rw [op]
    exact (reads_some ..).2 ⟨rfl, by simpa [zero] using unused⟩
  case iun x o =>
    obtain ⟨op, rfl, sub⟩ := eA2_eq_iff.1 code
    rw [op]
    exact (reads_subP ..).2 ⟨o, (IunOp.ofCode_eq_some ..).2 sub, rfl, by simp⟩
  case funW x o =>
    obtain ⟨op, rfl, sub⟩ := eA2_eq_iff.1 code
    rw [op]
    exact (reads_subP ..).2 ⟨o, (FunOp.ofCode_eq_some ..).2 sub, rfl, by simp⟩
  case cvt x dir sat rtz f =>
    obtain ⟨op, rfl, sub⟩ := eA2_eq_iff.1 code
    obtain ⟨rfl, rfl, rfl, fmt⟩ := (fld7_eq_1_1_1_4 ..).1 sub
    rw [op]
    exact (reads_subP ..).2 ⟨f, (Fmt.ofCode_eq_some ..).2 fmt, rfl, by simp⟩
  case cardf x =>
    obtain ⟨op, rfl, unused⟩ := cardf_eq_iff.1 code
    rw [op]
    exact (reads_some ..).2 ⟨rfl, by simpa [zero] using unused⟩
  case plop x =>
    obtain ⟨op, rfl, unused⟩ := plop_eq_iff.1 code
    rw [op]
    exact (reads_some ..).2 ⟨rfl, by simpa [zero] using unused⟩
  case ptov x =>
    obtain ⟨op, rfl, unused⟩ := eA1_eq_iff.1 code
    rw [op]
    exact (reads_some ..).2 ⟨rfl, by simpa [zero] using unused⟩
  case getl x o =>
    obtain ⟨op, rfl, unused, sub⟩ := eA1_eq_iff.1 code
    rw [op]
    exact (reads_subP ..).2 ⟨o, (GetlOp.ofCode_eq_some ..).2 sub, rfl, by simpa [zero] using unused⟩
  case vote x neg q o =>
    obtain ⟨op, rfl, fields, sub⟩ := eA1_eq_iff.1 code
    obtain ⟨unused, rfl, rfl⟩ := (fld7_eq_3_1_3 ..).1 fields
    rw [op]
    exact (reads_subP ..).2 ⟨o, (VoteMode.ofCode_eq_some ..).2 sub, rfl, by simpa [zero] using unused⟩
  case scanI x o excl =>
    obtain ⟨op, rfl, fields⟩ := eA2_eq_iff.1 code
    obtain ⟨sub, rfl, unused⟩ := scan_eq_iff.1 fields
    rw [op]
    exact (reads_subP ..).2 ⟨o, (ScanIOp.ofCode_eq_some ..).2 sub, rfl, by simpa [zero] using unused⟩
  case scanF x o excl =>
    obtain ⟨op, rfl, fields⟩ := eA2_eq_iff.1 code
    obtain ⟨sub, rfl, unused⟩ := scan_eq_iff.1 fields
    rw [op]
    exact (reads_subP ..).2 ⟨o, (ScanFOp.ofCode_eq_some ..).2 sub, rfl, by simpa [zero] using unused⟩
  case tredI x o =>
    obtain ⟨op, rfl, sub⟩ := eA2_eq_iff.1 code
    obtain ⟨sub, unused⟩ := tred_eq_iff.1 sub
    rw [op]
    exact (reads_subP ..).2 ⟨o, (ScanIOp.ofCode_eq_some ..).2 sub, rfl, by simpa [zero] using unused⟩
  case tredF x o =>
    obtain ⟨op, rfl, sub⟩ := eA2_eq_iff.1 code
    obtain ⟨sub, unused⟩ := tred_eq_iff.1 sub
    rw [op]
    exact (reads_subP ..).2 ⟨o, (ScanFOp.ofCode_eq_some ..).2 sub, rfl, by simpa [zero] using unused⟩
  all_goals
    obtain ⟨op, rfl⟩ := eA3_eq_iff.1 code
    rw [op]
    exact (reads_some ..).2 ⟨rfl, by simp⟩

theorem reads_of_mem {w : Word} {i : Instr} (cls : i.cls = some .mem) (wf : i.wf .mem = true) (code : encode i = some w) :
    Reads (parseM w) i := by
  unfold parseM
  cases i <;> cases cls
  all_goals replace code := Option.some.inj code
  case ldlv x | stlv x | ldgv x | stgv x =>
    obtain ⟨op, rfl, size⟩ := eMV_eq_iff.1 code
    rw [op]
    exact (reads_some ..).2 ⟨rfl, by simpa using size⟩
  case accrd x | accwr x =>
    obtain ⟨op, rfl, size⟩ := eMX_eq_iff.1 code
    rw [op]
    exact (reads_some ..).2 ⟨rfl, by simpa using size⟩
  case atl x | atln x | atg x | atgn x | atr x | atrn x =>
    obtain ⟨op, sub, fields⟩ := eMT_eq_iff.1 code
    rw [op]
    exact (reads_subP ..).2 ⟨_, (AOp.ofCode_eq_some ..).2 sub, congrArg _ fields, by simp⟩
  case strZ x =>
    obtain ⟨op, empty, rfl, fixed⟩ := strZ_eq_iff.1 code
    have zero : (decide (fld w 20 3 = 7) && bit w 23) = true := by simpa using empty
    rw [op]
    dsimp only [BitVec.reduceToNat]
    rw [if_pos zero]
    exact (reads_some ..).2 ⟨rfl, by simpa using fixed⟩
  case str x =>
    obtain ⟨op, rfl⟩ := eM2_eq_iff.1 code
    have guard : ¬ (decide (fld w 20 3 = 7) && bit w 23) = true := by
      have guard : (!(decide (fld w 20 3 = 7) && bit w 23)) = true := (Bool.and_eq_true_iff.1 wf).1
      rw [Bool.not_eq_true'] at guard
      exact ne_true_of_eq_false guard
    rw [op]
    dsimp only [BitVec.reduceToNat]
    rw [if_neg guard]
    exact (reads_some ..).2 ⟨rfl, by simp⟩
  all_goals
    obtain ⟨op, rfl⟩ := eM2_eq_iff.1 code
    rw [op]
    exact (reads_some ..).2 ⟨rfl, by simp⟩

theorem reads_of_sync {w : Word} {i : Instr} (cls : i.cls = some .sync) (code : encode i = some w) : Reads (parseS w) i := by
  unfold parseS
  cases i <;> cases cls
  all_goals
    obtain ⟨op, fields⟩ := (eS_eq_iff ..).1 (Option.some.inj code)
    rw [op]
  case barn x | fence x => exact (reads_scopeP ..).2 ⟨x.scope, by simp [fields, fB, zero]⟩
  all_goals exact (reads_some ..).2 (by simp [fields, fS, fW, fN, fG, zero])

theorem reads_of_flow {w : Word} {i : Instr} (cls : i.cls = some .flow) (code : encode i = some w) : Reads (parseF w) i := by
  unfold parseF
  cases i <;> cases cls
  case brx x | call x | waitc x | launch x =>
    obtain ⟨op, fields⟩ := (eFG_eq_iff ..).1 (Option.some.inj code)
    rw [op]
    exact (reads_some ..).2 (by simp [fields, fG, zero])
  all_goals
    obtain ⟨op, fields⟩ := (eF_eq_iff ..).1 (Option.some.inj code)
    rw [op]
    exact (reads_some ..).2 (by simp [fields, fN, fR, zero])

theorem reads_of_sys {w : Word} {i : Instr} (cls : i.cls = some .sys) (code : encode i = some w) : Reads (parseY w) i := by
  unfold parseY
  cases i <;> cases cls
  all_goals
    obtain ⟨op, fields⟩ := (eY_eq_iff ..).1 (Option.some.inj code)
    rw [op]
    exact (reads_some ..).2 (by simp [fields, fY, fK, fN, fQ, zero])

/-- R56: an instruction that is well-formed in a UNIF clause has none of the opcodes of LANE clauses alone. -/
theorem laneOnly_of_wf {w : Word} {i : Instr} (cls : i.cls = some .lane) (wf : i.wf .unif = true) (code : encode i = some w) :
    laneOnly (fld w 26 6).toNat = false := by
  cases i <;> cases cls
  case cardf | shfi | shfu | shfd | shfx | tshfi | vote | scanI | scanF | tredI | tredF =>
    simp [Instr.wf, checks, chkShf, chkLaneFU] at wf
  all_goals
    obtain ⟨op, -⟩ := (eA_eq_iff ..).1 (Option.some.inj code)
    rw [op]
    rfl

theorem encode_isSome {i : Instr} (h : i.cls ≠ none) : ∃ w, encode i = some w := by
  cases i
  all_goals first | exact absurd rfl h | exact ⟨_, rfl⟩

/-- Every well-formed instruction of a class has a word, which reads as it. -/
theorem reads_of_wf {c : Cls} {w : Word} {i : Instr} (cls : i.inClass c = true) (wf : i.wf c = true) (code : encode i = some w) :
    Reads (parse c w) i := by
  have cls : i.cls = some (if c = .unif then .lane else c) := by simpa [Instr.inClass] using cls
  cases c with
  | lane => exact reads_of_lane cls code
  | unif => exact reads_unif.2 ⟨laneOnly_of_wf cls wf code, reads_of_lane cls code⟩
  | mem => exact reads_of_mem cls wf code
  | sync => exact reads_of_sync cls code
  | flow => exact reads_of_flow cls code
  | sys => exact reads_of_sys cls code
  | card | res => cases i <;> cases cls

end Sys2Proof.Machine

namespace Sys2Proof
open Machine

/-- Settles O2: the word of a well-formed instruction reads as it, in every class. -/
theorem encodeDecode : Obligations.EncodeDecode := by
  intro c i cls wf
  have word : i.cls ≠ none := by
    have cls : i.cls = some (if c = .unif then .lane else c) := by simpa [Instr.inClass] using cls
    simp [cls]
  obtain ⟨w, code⟩ := encode_isSome word
  exact ⟨w, code, (decode_eq_ok c w i).2 ⟨reads_of_wf cls wf code, wf⟩⟩

/-- Settles O3: what a parse reads from a word is laid out as that word. -/
theorem decodeEncode : Obligations.DecodeEncode := by
  intro c w i h
  obtain ⟨reads, wf⟩ := (decode_eq_ok c w i).1 h
  obtain ⟨cls, code⟩ := holds_of_parse c w i reads
  exact ⟨cls, wf, code⟩

end Sys2Proof
end

section
/-! What a word does to the pass under evaluation (R45, R47): it adds effects behind those that stand, and never replaces a trap. -/

namespace Sys2Proof.Machine

theorem grows_refl (c : Cur) : Grows c c := ⟨⟨rfl, rfl, rfl, rfl, rfl⟩, ⟨rfl, rfl, rfl, rfl⟩, List.prefix_rfl, fun _ => rfl⟩

theorem grows_ite {c d e : Cur} {p : Prop} [Decidable p] (h : Grows c d) (h' : Grows c e) : Grows c (if p then d else e) := by
  split
  · exact h
  · exact h'

section
variable {c d : Cur} (h : Grows c d)
include h

theorem grows_past (lit : Bool) (cost : Nat) : Grows c (d.past lit cost) := ⟨h.place, h.pass, h.acts, h.trap⟩

theorem grows_shift (l : List Word) : Grows c (d.shift l) := ⟨h.place, h.pass, h.acts, h.trap⟩

theorem grows_setFlow (f : FlowSt) : Grows c (d.setFlow f) := ⟨h.place, h.pass, h.acts, h.trap⟩

theorem grows_lengthen (n : Nat) : Grows c (d.lengthen n) := ⟨h.place, h.pass, h.acts, h.trap⟩

theorem grows_ref (l : List (Nat × Word)) : Grows c { d with ref := l } := ⟨h.place, h.pass, h.acts, h.trap⟩

theorem grows_shadow (x : Option Word) : Grows c { d with shadow := x } := ⟨h.place, h.pass, h.acts, h.trap⟩

theorem grows_act (a : Act) : Grows c (d.act a) := ⟨h.place, h.pass, h.acts.trans (List.prefix_append ..), h.trap⟩

/-- The first trap of a pass stands (R47). -/
theorem grows_raise (cause : Nat) (tval tvalh : Word) (tlm : Mask) : Grows c (d.raise cause tval tvalh tlm) := by
  unfold Cur.raise
  split
  · exact h
  · next none => exact ⟨h.place, h.pass, h.acts, fun stands => absurd (h.trap stands ▸ none) stands⟩

theorem grows_writeD (nw : Bool) (r : BitVec 7) (vals : List (Nat × Word)) : Grows c (writeD d nw r vals) := by
  rw [writeD_eq]
  exact ⟨h.place, h.pass, h.acts.trans (List.prefix_append ..), h.trap⟩

theorem grows_writeP (nw : Bool) (q : BitVec 3) (vals : List (Nat × Bool)) : Grows c (writeP d nw q vals) := by
  rw [writeP_eq]
  exact ⟨h.place, h.pass, h.acts.trans (List.prefix_append ..), h.trap⟩

theorem grows_flagTrap (t : Team) (fls : List (Nat × Nat)) : Grows c (flagTrap t d fls) := by
  unfold flagTrap
  dsimp only
  split
  · exact grows_raise h ..
  · split
    · exact h
    · exact grows_act h _

theorem grows_pushed (e : StEntry) (f : FlowSt) : Grows c (d.pushed e f) := by
  unfold Cur.pushed
  split
  · exact grows_raise h ..
  · exact grows_setFlow h _

theorem grows_aluWord (nw pn : Bool) (pr : BitVec 3) (r : BitVec 7) (lit : Bool) (cost : Nat) (f : Team → Cur → Nat → Word × Nat)
    (t : Team) : Grows c (aluWord nw pn pr r lit cost f t d) :=
  grows_past (grows_shift (grows_writeD (grows_flagTrap h ..) ..) _) ..

theorem grows_predWord (nw pn : Bool) (pr : BitVec 3) (mode : CMode) (q : BitVec 3) (lit : Bool)
    (f : Team → Cur → Nat → Bool × Nat) (t : Team) : Grows c (predWord nw pn pr mode q lit f t d) :=
  grows_past (grows_shift (grows_writeP (grows_flagTrap h ..) ..) _) ..

end

theorem grows_divWord (w : FA) (f : Word → Word → Word) (t : Team) (c : Cur) : Grows c (divWord w f t c) := by
  unfold divWord
  dsimp only
  split
  · exact grows_aluWord (grows_raise (grows_refl c) ..) ..
  · exact grows_aluWord (grows_refl c) ..

theorem grows_teamWord (w : FU) (run : RMode → List (Nat × Word) → List (Nat × Word × Nat)) (t : Team) (c : Cur) :
    Grows c (teamWord w run t c) := by
  refine grows_past (grows_shift (grows_writeD ?_ ..) _) ..
  split
  · exact grows_raise (grows_refl c) ..
  · split
    · exact grows_refl c
    · exact grows_act (grows_refl c) _

theorem grows_local (w : MForm) (t : Team) (c : Cur) : Grows c (w.local t c) := by
  refine grows_past ?_ ..
  split
  · exact grows_raise (grows_refl c) ..
  · exact grows_raise (grows_refl c) ..
  · exact grows_lengthen (grows_act (grows_refl c) _) _

theorem grows_global (w : MForm) (zero : Bool) (t : Team) (c : Cur) : Grows c (w.global zero t c) := by
  refine grows_past ?_ ..
  split
  · exact grows_raise (grows_refl c) ..
  · exact grows_act (grows_refl c) _

theorem grows_acc (w : MForm) (t : Team) (c : Cur) : Grows c (w.acc t c) := by
  refine grows_past ?_ ..
  split
  · exact grows_raise (grows_refl c) ..
  · exact grows_lengthen (grows_act (grows_refl c) _) _

/-- What a guarded word of the FLOW class does, it does where its guard is true. -/
theorem grows_flowWord {f : Team → Cur → Cur} (hf : ∀ t c, Grows c (f t c)) (pn : Bool) (pr : BitVec 3) (lit : Bool) (t : Team)
    (c : Cur) : Grows c (flowWord pn pr lit f t c) := by
  refine grows_past ?_ ..
  split
  · exact hf t c
  · exact grows_refl c

theorem grows_syncWord {f : Team → Cur → Cur} (hf : ∀ t c, Grows c (f t c)) (pn : Bool) (pr : BitVec 3) (lit : Bool) (t : Team)
    (c : Cur) : Grows c (syncWord pn pr lit f t c) :=
  grows_flowWord hf pn pr lit t c

theorem grows_sysWord {f : Team → Cur → Cur} (hf : ∀ t c, Grows c (f t c)) (pn : Bool) (pr : BitVec 3) (lit : Bool) (t : Team)
    (c : Cur) : Grows c (sysWord pn pr lit f t c) :=
  grows_flowWord hf pn pr lit t c

theorem grows_onObject {f : Cur → Cur} (c : Cur) (hf : Grows c (f c)) (t : Team) (o : Nat) : Grows c (onObject t c o f) := by
  unfold onObject
  split
  · exact grows_raise (grows_refl c) ..
  · split
    · exact grows_raise (grows_refl c) ..
    · exact hf

theorem grows_reads {f : Cur → Cur} (c : Cur) (hf : ∀ d, Grows c d → Grows c (f d)) (s : State) (t : Team) (o n : Nat) :
    Grows c (c.reads s t o n f) := by
  have read : Grows c (c.act (.lsRead c.pos o n)) := grows_act (grows_refl c) _
  unfold Cur.reads
  dsimp only
  split
  · exact read
  · exact hf _ read

theorem grows_readWtclo (reg : Nat) (c : Cur) : Grows c (readWtclo reg c) :=
  grows_shadow (grows_act (grows_act (grows_refl c) _) _) _

/-- A word is a change of the pass alone, which grows by it. -/
def GrowsPass (i : Instr) : Prop := ∀ s, ∃ f : Team → Cur → Cur, exec i s = onCur s f ∧ ∀ t c, Grows c (f t c)

theorem growsPass_lane {i : Instr} (h : i.cls = some .lane) : GrowsPass i := by
  intro s
  cases i <;> cases h
  case icmpEq | icmpNe | icmpLtS | icmpLeS | icmpLtN | icmpLeN | fcmpEq | fcmpLt | fcmpLe | fcmpUn | plop | vtop =>
    exact ⟨_, rfl, fun t c => grows_predWord (grows_refl c) ..⟩
  case idivS | idivN | iremS | iremN => exact ⟨_, rfl, fun t c => grows_divWord ..⟩
  case scanI | scanF | tredI | tredF => exact ⟨_, rfl, fun t c => grows_teamWord ..⟩
  case cardf w =>
    change ∃ f, execCardf w s = onCur s f ∧ _
    unfold execCardf
    refine ⟨_, rfl, fun t c => ?_⟩
    refine grows_past (grows_shift (grows_act ?_ _) _) ..
    split
    · exact grows_refl c
    · split
      · split
        · exact grows_refl c
        · exact grows_ref (grows_refl c) _
      · exact grows_raise (grows_refl c) ..
  case vote w neg q mode =>
    change ∃ f, execVote w neg q mode s = onCur s f ∧ _
    unfold execVote
    refine ⟨_, rfl, fun t c => ?_⟩
    exact grows_aluWord (grows_refl c) ..
  all_goals exact ⟨_, rfl, fun t c => grows_aluWord (grows_refl c) ..⟩

theorem growsPass_mem {i : Instr} (h : i.cls = some .mem) : GrowsPass i := by
  intro s
  cases i <;> cases h
  case ldlN | ldlS | stl | ldlv | stlv | atl | atln => exact ⟨_, rfl, grows_local _⟩
  case accrd | accwr => exact ⟨_, rfl, grows_acc _⟩
  all_goals exact ⟨_, rfl, grows_global _ _⟩

theorem growsPass_sync {i : Instr} (h : i.cls = some .sync) : GrowsPass i := by
  intro s
  cases i <;> cases h
  all_goals refine ⟨_, rfl, grows_syncWord (fun t c => ?_) _ _ _⟩
  case binit | bexp | bcred => exact grows_onObject c (grows_act (grows_refl c) _) ..
  case barv w =>
    refine grows_onObject c ?_ ..
    have compare (d : Cur) (h : Grows c d) : Grows c
        (if (unifOp t c w.b).toNat ≠ s.expected t (objOff t (unifOp t c w.a).toNat) then
          d.raise cBMM (BitVec.ofNat 32 (unifOp t c w.a).toNat) (unifOp t c w.b) 0
        else d.act (.obj d.pos (.barv (objOff t (unifOp t c w.a).toNat)))) := by
      split
      · exact grows_raise h ..
      · exact grows_act h _
    dsimp only
    split
    · exact grows_raise (grows_refl c) ..
    · split
      · exact compare c (grows_refl c)
      · exact grows_reads c compare ..
  case waitph w =>
    refine grows_onObject c (grows_reads c (fun d h => ?_) ..) ..
    split <;> exact grows_act h _
  case testph w => exact grows_onObject c (grows_reads c (fun d h => grows_act h _) ..) ..
  all_goals exact grows_act (grows_refl c) _

/-- A transfer to a relative target, or detail 10 (R53). -/
theorem grows_relStart {c : Cur} {g : Nat → Cur} (h : ∀ x, Grows c (g x)) (x : Option Nat) :
    Grows c (match x with | none => c.ill 10 | some x => g x) := by
  cases x with
  | none => exact grows_raise (grows_refl c) ..
  | some x => exact h x

theorem growsPass_brp (w : FR) : GrowsPass (.brp w) := by
  intro s
  change ∃ f, execBrp w s = onCur s f ∧ _
  unfold execBrp
  refine ⟨_, rfl, fun t c => ?_⟩
  exact grows_past (grows_ite (grows_setFlow (grows_refl c) _) (grows_relStart (fun x => grows_ite (grows_setFlow (grows_refl c) _)
    (grows_ite (grows_raise (grows_refl c) ..) (grows_pushed (grows_refl c) ..))) _)) ..

theorem growsPass_brq (w : FR) : GrowsPass (.brq w) := by
  intro s
  change ∃ f, execBrq w s = onCur s f ∧ _
  unfold execBrq
  refine ⟨_, rfl, fun t c => ?_⟩
  have checked (p : Prop) [Decidable p] (f : FlowSt) : Grows c (if p then c.ill 14 else c.setFlow f) :=
    grows_ite (grows_raise (grows_refl c) ..) (grows_setFlow (grows_refl c) _)
  exact grows_past (grows_ite (checked ..) (grows_relStart (fun x => checked ..) _)) ..

theorem growsPass_join (w : FN) : GrowsPass (.join w) := by
  refine fun s => ⟨_, rfl, grows_flowWord (fun t c => ?_) _ _ _⟩
  have checked (p : Prop) [Decidable p] (f : FlowSt) : Grows c (if p then c.setFlow f else c.ill 14) :=
    grows_ite (grows_setFlow (grows_refl c) _) (grows_raise (grows_refl c) ..)
  split
  · exact grows_raise (grows_refl c) ..
  · split
    · exact grows_raise (grows_refl c) ..
    · exact checked ..
    · exact grows_ite (grows_setFlow (grows_refl c) _) (checked ..)

theorem growsPass_flow {i : Instr} (h : i.cls = some .flow) : GrowsPass i := by
  cases i <;> cases h
  case brp w => exact growsPass_brp w
  case brq w => exact growsPass_brq w
  case join w => exact growsPass_join w
  all_goals refine fun s => ⟨_, rfl, grows_flowWord (fun t c => ?_) _ _ _⟩
  case nop => exact grows_refl c
  case exit => exact grows_setFlow (grows_refl c) _
  case waitc => exact grows_act (grows_refl c) _
  case bra => exact grows_relStart (fun x => grows_setFlow (grows_refl c) _) _
  case rcv => exact grows_relStart (fun x => grows_pushed (grows_refl c) ..) _
  case brk => exact grows_relStart (fun x => grows_ite (grows_raise (grows_refl c) ..) (grows_setFlow (grows_refl c) _)) _
  case brx | ret => exact grows_ite (grows_setFlow (grows_refl c) _) (grows_raise (grows_refl c) ..)
  case call => exact grows_ite (grows_pushed (grows_refl c) ..) (grows_raise (grows_refl c) ..)
  case launch => exact grows_ite (grows_raise (grows_refl c) ..) (grows_act (grows_refl c) _)

theorem growsPass_sys {i : Instr} (h : i.cls = some .sys) : GrowsPass i := by
  cases i <;> cases h
  all_goals refine fun s => ⟨_, rfl, grows_sysWord (fun t c => ?_) _ _ _⟩
  case csrr => exact grows_ite (grows_raise (grows_refl c) ..) (grows_ite (grows_readWtclo ..) (grows_act (grows_refl c) _))
  case trapW | dbrk | wdog => exact grows_act (grows_refl c) _
  all_goals exact grows_ite (grows_raise (grows_refl c) ..) (grows_act (grows_refl c) _)

end Sys2Proof.Machine

namespace Sys2Proof
open Machine

/-- Settles O5: class by class, a word changes the pass alone, which grows by it. -/
theorem wordFrame : Obligations.WordFrame := by
  intro i word s
  have grows : GrowsPass i := by
    rcases word with word | ⟨reg, rfl⟩
    · cases h : i.cls with
      | none => exact absurd h word
      | some c =>
        cases c
        case lane => exact growsPass_lane h
        case mem => exact growsPass_mem h
        case sync => exact growsPass_sync h
        case flow => exact growsPass_flow h
        case sys => exact growsPass_sys h
        all_goals cases i <;> cases h
    · exact fun s => ⟨_, rfl, fun _ c => grows_readWtclo reg c⟩
  obtain ⟨f, eq, grows⟩ := grows s
  exact ⟨fun none => eq.trans (onCur_none none f), fun c some => ⟨_, grows _ c, eq.trans (onCur_some some f)⟩⟩

end Sys2Proof
end

section
/-! The loader (entry 1) puts a word where the next step evaluates it. -/

namespace Sys2Proof.Machine

theorem State.withFetchWord_eq (s : State) (w : Word) : s.withFetchWord 32 w.toNat = s.place w := by
  have fits : w.toNat % 2 ^ 32 = w.toNat := Nat.mod_eq_of_lt w.isLt
  rw [State.withFetchWord, fits, BitVec.ofNat_toNat, BitVec.setWidth_eq]

theorem State.place_ev (s : State) (w : Word) : ∃ c, (s.place w).ev = some c ∧ c.words = [w, 0] := ⟨_, rfl, rfl⟩

end Sys2Proof.Machine

namespace Sys2Proof
open Machine

/-- Settles O4: the branches of a step, and what the loader places. -/
theorem stepRunsInstruction : Obligations.StepRunsInstruction := by
  refine ⟨fun s c w ws i ev words code => ?word, fun s i l ev due => ?due, fun s w => ?placed⟩
  case word => simp only [step, ev, words, code]
  case due => simp only [step, ev, due]
  case placed =>
    obtain ⟨c, ev, words⟩ := s.place_ev w
    rw [s.withFetchWord_eq w]
    exact ⟨c, ev, words ▸ rfl⟩

end Sys2Proof
end

section
/-! FLOW words (R53, R75, R76): what a transfer makes of the pass, and where a relative target starts a clause. -/

namespace Sys2Proof.Machine

theorem Cur.raise_eq (c : Cur) (cause : Nat) (tval tvalh : Word) (tlm : Mask) :
    c.raise cause tval tvalh tlm = { c with trap := trapOf c ⟨c.pos, cause, tval, tvalh, tlm⟩ } := by
  unfold Cur.raise trapOf
  cases h : c.trap with
  | none => rfl
  | some x =>
    cases c
    cases h
    rfl

theorem past_setFlow (c : Cur) (f : FlowSt) (lit : Bool) : (c.setFlow f).past lit 1 = flowTo c f lit := past_eq ..

theorem past_ill (c : Cur) (detail : Nat) (lit : Bool) : (c.ill detail).past lit 1 = flowIll c detail lit := by
  rw [past_eq, Cur.ill, Cur.raise_eq]
  rfl

section
variable {s : State} {t : Team} {x : Nat}

theorem isStart_of_mem (h : x ∈ s.gangStarts t.pl.gang) : s.isStart t x = true := by simpa [State.isStart] using h

theorem isStart_of_not_mem (h : x ∉ s.gangStarts t.pl.gang) : s.isStart t x = false := by simpa [State.isStart] using h

end

theorem flowWord_on {t : Team} {pn : Bool} {pr : BitVec 3} (h : t.up pr ≠ pn) (lit : Bool) (f : Team → Cur → Cur) (c : Cur) :
    flowWord pn pr lit f t c = (f t c).past lit 1 := by
  simp [flowWord, guardU, h]

theorem relStart_of_mem {s : State} {t : Team} {c : Cur} {off : BitVec 16} {y : Nat} (target : flowTarget c off = y)
    (h : y ∈ s.gangStarts t.pl.gang) : s.relStart t c off = some y := by
  have rel : relTarget c off = y := target
  simp [State.relStart, rel, isStart_of_mem h]

theorem relStart_of_not_mem {s : State} {t : Team} {c : Cur} {off : BitVec 16}
    (h : ∀ y ∈ s.gangStarts t.pl.gang, flowTarget c off ≠ (y : Int)) : s.relStart t c off = none := by
  refine if_neg fun found => ?_
  obtain ⟨pos, start⟩ : 0 ≤ relTarget c off ∧ s.isStart t (relTarget c off).toNat = true := by simpa using found
  exact h _ (by simpa [State.isStart] using start) (Int.toNat_of_nonneg pos).symm

end Sys2Proof.Machine

namespace Sys2Proof
open Machine

/-- Settles O29: each word by its guard, and by whether its target starts a clause. -/
theorem flowTransfers : Obligations.FlowTransfers := by
  intro g r s c ev t f x lit starts
  have lit_eq : usesLit [g.a] = lit := usesLit_singleton g.a
  refine ⟨fun on y target start => ?_, fun on none => ?_, fun on start => ⟨?_, fun room => ?_, fun full => ?_⟩,
    fun on none => ⟨?_, ?_⟩⟩
  · change onCur s _ = _
    rw [onCur_some ev, flowWord_on on, relStart_of_mem target start]
    exact congrArg _ (congrArg _ (congrArg some (past_setFlow ..)))
  · change onCur s _ = _
    rw [onCur_some ev, flowWord_on on, relStart_of_not_mem none]
    exact congrArg _ (congrArg _ (congrArg some (past_ill ..)))
  all_goals
    change onCur s _ = _
    rw [onCur_some ev, flowWord_on on]
    dsimp only
  · rw [isStart_of_mem start, if_pos rfl, past_setFlow, lit_eq]
  · rw [isStart_of_mem start, if_pos rfl, Cur.pushed, if_neg (Nat.not_le.2 room), past_setFlow, lit_eq]
    rfl
  · rw [isStart_of_mem start, if_pos rfl, Cur.pushed, if_pos full, past_ill, lit_eq]
  · rw [isStart_of_not_mem none, if_neg Bool.false_ne_true, past_ill, lit_eq]
  · rw [isStart_of_not_mem none, if_neg Bool.false_ne_true, past_ill, lit_eq]

end Sys2Proof
end

section
/-! The bytes a team's own read sees in the LS of its block (R149, R150): those of its youngest staged entry on them, else the bank's. -/

namespace Sys2Proof.Machine

/-- A fold that keeps the last answer is the answer of the last element that gives one. -/
theorem foldl_last {α β : Type} (f : α → Option β) (l : List α) :
    l.foldl (fun acc x => match f x with | some b => some b | none => acc) none = (l.filter fun x => (f x).isSome).getLast?.bind f := by
  induction l using List.reverseRecOn with
  | nil => rfl
  | append_singleton l x ih =>
    rw [List.foldl_append, List.foldl_cons, List.foldl_nil, ih, List.filter_append]
    cases h : f x with
    | none => simp [h]
    | some b => simp [h]

/-- The byte a run of bytes from an offset holds at another. -/
def runByte (k : Nat) (w : Nat × List Byte) : Option Byte := if w.1 ≤ k then w.2[k - w.1]? else none

theorem isSome_runByte (k : Nat) (w : Nat × List Byte) : (runByte k w).isSome = (w.1 ≤ k && k < w.1 + w.2.length) := by
  unfold runByte
  split
  · next le =>
    have shift : k - w.1 < w.2.length ↔ k < w.1 + w.2.length := by omega
    by_cases lt : k - w.1 < w.2.length <;> simp [le, ← shift, lt]
  · next le => simp [le]

theorem StagedOp.byteAt_eq (op : StagedOp) (k : Nat) :
    op.byteAt k = (op.stores.filter fun w => (runByte k w).isSome).getLast?.bind (runByte k) := by
  unfold StagedOp.byteAt
  simp only [isSome_runByte]
  cases h : (op.stores.filter fun w => decide (w.1 ≤ k) && decide (k < w.1 + w.2.length)).getLast? with
  | none => rfl
  | some w =>
    have le : w.1 ≤ k := by
      have mem := List.mem_of_getLast? h
      simp only [List.mem_filter, Bool.and_eq_true, decide_eq_true_eq] at mem
      exact mem.2.1
    simp [runByte, le]

/-- The bytes of a staged entry cover an offset with the byte it holds there. -/
theorem foldl_runs (k : Nat) (l : List (Nat × List Byte)) :
    l.foldl (fun acc w => match w.2[k - w.1]? with
      | some b => if w.1 ≤ k then some (some b) else acc
      | none => acc) none = ((l.filter fun w => (runByte k w).isSome).getLast?.bind (runByte k)).map some := by
  have last := foldl_last (fun w => (runByte k w).map some) l
  simp only [Option.isSome_map] at last
  rw [Option.map_bind]
  refine Eq.trans (congrArg (fun g => l.foldl g none) ?_) last
  funext acc w
  unfold runByte
  by_cases le : w.1 ≤ k
  · cases h : w.2[k - w.1]? <;> simp [le]
  · cases h : w.2[k - w.1]? <;> simp [le]

theorem Staged.cover_eq (s : State) (e : Staged) (k : Nat) :
    e.cover s k = match e.op.byteAt k with
      | some b => some (some b)
      | none => if e.atomicOn s k then some none else none := by
  have bytes (x : Option Byte) : x.map some = match x with | some b => some (some b) | none => none := by cases x <;> rfl
  rw [StagedOp.byteAt_eq]
  unfold Staged.cover Staged.atomicOn
  cases op : e.op with
  | bytes l =>
    simp only [StagedOp.stores, StagedOp.flight, Option.bind_none, Bool.false_eq_true, if_false]
    exact (foldl_runs k l).trans (bytes _)
  | frame o bs =>
    simp only [StagedOp.stores, StagedOp.flight, Option.bind_none, Bool.false_eq_true, if_false]
    exact (foldl_runs k [(o, bs)]).trans (bytes _)
  | atomic i =>
    cases h : s.flight? i with
    | none => simp [StagedOp.stores, StagedOp.flight, h]
    | some f => simp [StagedOp.stores, StagedOp.flight, h]
  | _ => rfl

theorem Staged.isSome_cover (s : State) (e : Staged) (k : Nat) :
    (e.cover s k).isSome = ((e.op.byteAt k).isSome || e.atomicOn s k) := by
  rw [Staged.cover_eq]
  cases e.op.byteAt k with
  | some b => rfl
  | none => cases e.atomicOn s k <;> rfl

/-- The staged entries of a team, older than `id`, that cover a byte. -/
def Staged.mine (s : State) (team id k : Nat) (e : Staged) : Bool :=
  e.team = team && e.id < id && ((e.op.byteAt k).isSome || e.atomicOn s k)

theorem State.youngest_eq (s : State) (team id k : Nat) :
    s.youngest team id k = (s.staged.filter (Staged.mine s team id k)).getLast?.bind fun e => (e.cover s k).map (e, ·) := by
  have last := foldl_last (fun e : Staged => if e.team = team && e.id < id then (e.cover s k).map (e, ·) else none) s.staged
  have mine : (fun e : Staged => (if e.team = team && e.id < id then (e.cover s k).map (e, ·) else none).isSome) =
      Staged.mine s team id k := by
    funext e
    unfold Staged.mine
    rw [← Staged.isSome_cover]
    cases h : (decide (e.team = team) && decide (e.id < id)) <;> simp
  rw [mine] at last
  refine Eq.trans (congrArg (fun g => s.staged.foldl g none) ?_) (last.trans ?_)
  · funext acc e
    by_cases own : (decide (e.team = team) && decide (e.id < id)) = true
    · simp only [own, if_true]
      cases e.cover s k <;> rfl
    · simp only [own]
      rfl
  · cases h : (s.staged.filter (Staged.mine s team id k)).getLast? with
    | none => rfl
    | some e =>
      have mem := List.mem_of_getLast? h
      simp only [List.mem_filter, Staged.mine, Bool.and_eq_true, decide_eq_true_eq] at mem
      simp [mem.2.1.1, mem.2.1.2]

/-- What the youngest entry on a byte holds: nothing under an atomic. -/
theorem State.youngest_byte (s : State) (team id k : Nat) :
    (s.youngest team id k).bind (·.2) = (s.staged.filter (Staged.mine s team id k)).getLast?.bind fun e => e.op.byteAt k := by
  rw [State.youngest_eq]
  cases h : (s.staged.filter (Staged.mine s team id k)).getLast? with
  | none => rfl
  | some e =>
    simp only [Option.bind_some, Staged.cover_eq]
    cases e.op.byteAt k with
    | some b => rfl
    | none => cases e.atomicOn s k <;> rfl

/-- A team's own read of its block gives the bytes it sees. -/
theorem State.ownRead'_fst (s : State) (m : Team) (off n : Nat) :
    (s.ownRead' m.pl.pkg m.pl.core m.pl.lsBase m.id s.nextId off n).1 = bytesNat ((List.range n).map fun k => s.seenByte m (off + k)) := by
  refine congrArg bytesNat (List.map_congr_left fun k _ => ?_)
  have byte := s.youngest_byte m.id s.nextId (off + k)
  change _ = (((s.staged.filter (Staged.mine s m.id s.nextId (off + k))).getLast?.bind fun e => e.op.byteAt (off + k)).getD _ : Byte)
  rw [← byte, Nat.add_assoc]
  cases s.youngest m.id s.nextId (off + k) with
  | none => rfl
  | some y =>
    obtain ⟨e, b⟩ := y
    cases b <;> rfl

end Sys2Proof.Machine
end

section
/-! What a word's own read of memory leaves as it was (R162, R325): errors are corrected, and a watchpoint hit posts an event to its team. -/

namespace Sys2Proof.Machine

/-- A state some reads on: memory, staging and flights are the same, and the reading team has at most other events. -/
structure ReadOn (own : Nat) (s t : State) : Prop where
  mem : t.mem = s.mem
  acc : t.acc = s.acc
  uce : t.uce = s.uce
  staged : t.staged = s.staged
  flights : t.flights = s.flights
  nextId : t.nextId = s.nextId
  pkgs : t.pkgs = s.pkgs
  gangs : t.gangs = s.gangs
  team : ∀ x, s.team? own = some x → ∃ l, t.team? own = some { x with events := l }

namespace ReadOn

theorem refl (own : Nat) (s : State) : ReadOn own s s := ⟨rfl, rfl, rfl, rfl, rfl, rfl, rfl, rfl, fun x h => ⟨x.events, h⟩⟩

theorem trans {own : Nat} {s t u : State} (h : ReadOn own s t) (k : ReadOn own t u) : ReadOn own s u where
  mem := k.mem.trans h.mem
  acc := k.acc.trans h.acc
  uce := k.uce.trans h.uce
  staged := k.staged.trans h.staged
  flights := k.flights.trans h.flights
  nextId := k.nextId.trans h.nextId
  pkgs := k.pkgs.trans h.pkgs
  gangs := k.gangs.trans h.gangs
  team x own := by
    obtain ⟨l, hl⟩ := h.team x own
    obtain ⟨l', hl'⟩ := k.team _ hl
    exact ⟨l', hl'⟩

theorem foldl {α : Type} {own : Nat} {f : State → α → State} (l : List α) (h : ∀ s, ∀ x ∈ l, ReadOn own s (f s x)) (s : State) :
    ReadOn own s (l.foldl f s) := by
  induction l generalizing s with
  | nil => exact .refl own s
  | cons x l ih =>
    exact (h s x List.mem_cons_self).trans (ih (fun s y hy => h s y (List.mem_cons_of_mem x hy)) _)

theorem notice (own : Nat) (s : State) (p kind a b : Nat) : ReadOn own s (s.notice p kind a b) := by
  unfold State.notice
  dsimp only
  split
  all_goals exact ⟨rfl, rfl, rfl, rfl, rfl, rfl, rfl, rfl, fun x h => ⟨x.events, h⟩⟩

theorem modTeam_events (own : Nat) (s : State) (i : Nat) (f : List TeamEvent → List TeamEvent) :
    ReadOn own s (s.modTeam i (Team.onEvents f)) := by
  refine ⟨rfl, rfl, rfl, rfl, rfl, rfl, rfl, rfl, fun x h => ?_⟩
  rw [State.team?_modTeam s i own (Team.onEvents f) fun _ => rfl, h]
  split
  · exact ⟨f x.events, rfl⟩
  · exact ⟨x.events, rfl⟩

theorem modTeam_ne {own i : Nat} (ne : i ≠ own) (s : State) (f : Team → Team) (keeps : ∀ x, (f x).id = x.id) :
    ReadOn own s (s.modTeam i f) := by
  refine ⟨rfl, rfl, rfl, rfl, rfl, rfl, rfl, rfl, fun x h => ⟨x.events, ?_⟩⟩
  rw [State.team?_modTeam s i own f keeps, if_neg ne, h]

theorem postEvent (own : Nat) (s : State) (t : Nat) (ev : TeamEvent) : ReadOn own s (s.postEvent t ev) := by
  rcases s.postEvent_cases t ev with same | ⟨f, posted⟩
  · rw [same]
    exact .refl own s
  · rw [posted]
    exact modTeam_events own s t f

theorem watchEvent (own : Nat) (s : State) (t o words : Nat) : ReadOn own s (s.watchEvent t o words) := by
  unfold State.watchEvent
  split
  · exact .refl own s
  · split
    · exact modTeam_events own s t _
    · exact postEvent own s t _

theorem correct (own : Nat) (s : State) (p pa n : Nat) : ReadOn own s (s.correct p pa n) := by
  have start (l : List Nat) : ReadOn own s { s with sbe := l } := ⟨rfl, rfl, rfl, rfl, rfl, rfl, rfl, rfl, fun x h => ⟨x.events, h⟩⟩
  exact (start _).trans (foldl _ (fun s _ _ => notice own s ..) _)

theorem watch (own : Nat) (s : State) (p c off n : Nat) (write : Bool) (core words : Nat) :
    ReadOn own s (s.watch p c off n write (.lane own core words)) := by
  refine foldl _ (fun s t _ => ?_) s
  split
  · exact .refl own s
  · dsimp only
    by_cases same : own = t.id
    · simp only [same, if_true]
      exact watchEvent ..
    · simp only [same, if_false]
      refine ReadOn.trans ?_ (notice own _ ..)
      exact modTeam_ne (Ne.symm same) s _ fun _ => rfl

theorem meetRead (own : Nat) (s : State) (p pa n core words : Nat) : ReadOn own s (s.meetRead p pa n (.lane own core words)) := by
  unfold State.meetRead
  dsimp only
  split
  · exact (correct own s p pa n).trans (watch ..)
  · exact correct own s p pa n

variable {own : Nat} {s t : State} (h : ReadOn own s t)
include h

theorem pod (p pa : Nat) : t.pod p pa = s.pod p pa := by simp only [State.pod, State.pkg, h.pkgs]

theorem atomicOn (e : Staged) (k : Nat) : e.atomicOn t k = e.atomicOn s k := by
  have flight : t.flight? = s.flight? := by
    funext i
    simp only [State.flight?, h.flights]
  simp only [Staged.atomicOn, flight]

theorem seenByte (m : Team) (k : Nat) : t.seenByte m k = s.seenByte m k := by
  simp only [State.seenByte, h.staged, h.nextId, h.mem, h.pod, h.atomicOn]

end ReadOn

/-- The frame a return reads, from the bytes its team sees. -/
theorem State.frameAt_eq (s : State) (m : Team) : s.frameAt m =
    (BitVec.ofNat 1024 (bytesNat ((List.range 128).map (s.frameByte m))), bytesNat ((List.range 4).map fun k => s.frameByte m (128 + k))) := by
  simp only [State.frameAt, State.ownRead'_fst, Nat.add_assoc]
  rfl

theorem ReadOn.frameAt {own : Nat} {s t : State} (h : ReadOn own s t) (m : Team) : t.frameAt m = s.frameAt m := by
  have byte : t.frameByte m = s.frameByte m := funext fun k => h.seenByte m _
  simp only [State.frameAt_eq, byte]

/-! ### What a return leaves (R47, R72, R320) -/

theorem resumesTo_resume (f : FlowSt) (l : List StEntry) : resumesTo { f with stack := l } (resume f l) := by
  induction l with
  | nil => exact ⟨fun _ => rfl, fun pre e post split => absurd split (by simp)⟩
  | cons e l ih =>
    unfold resume
    split
    · next empty =>
      refine ⟨fun all => ih.1 fun x hx => all x (List.mem_cons_of_mem e hx), fun pre x post split before lanes => ?_⟩
      cases pre with
      | nil =>
        cases split
        exact absurd empty lanes
      | cons y pre =>
        cases split
        exact ih.2 pre x post rfl (fun z hz => before z (List.mem_cons_of_mem _ hz)) lanes
    · next lanes =>
      refine ⟨fun all => absurd (all e List.mem_cons_self) lanes, fun pre x post split before _ => ?_⟩
      cases pre with
      | nil =>
        cases split
        rfl
      | cons y pre =>
        cases split
        exact absurd (before _ List.mem_cons_self) lanes

/-- What a team resumes where no lane of it is active, else it goes on (R72). -/
theorem resumed_spec (f : FlowSt) : (f.active ≠ 0 → f.resumed = f) ∧ (f.active = 0 → resumesTo f f.resumed) := by
  refine ⟨fun lanes => if_neg lanes, fun none => ?_⟩
  rw [FlowSt.resumed, if_pos none]
  exact resumesTo_resume f f.stack

theorem rerun_runOf (s : State) (z : Team) (n : Nat) : rerun s z n := by
  refine ⟨fun k y back here => ?_, fun none => ?_⟩
  · simp only [State.runOf, back, here, if_true, and_self]
  · simp only [State.runOf, none, and_self]

/-- The flow state a team m returns to with a mask and a depth of its frame. -/
def Team.returnFlow (m : Team) (mask : Mask) (depth : Nat) : FlowSt :=
  ({ active := mask &&& m.live, live := m.live, stack := m.stack.drop (m.stack.length - depth),
     pc := (m.bank m.tl).epc.toNat % 65536 } : FlowSt).resumed

/-- A team x after the return of the team m that it was as the pass was formed. -/
def Team.returned (m : Team) (mask : Mask) (depth : Nat) (x : Team) : Team :=
  let f := m.returnFlow mask depth
  let k := (m.bank m.tl).pass.toNat % 64
  { x with tl := m.tl - 1, pc := f.pc, active := f.active, live := f.live, stack := f.stack,
           resume := (match m.formed.find? fun y => y.level = m.tl && y.hdr = (m.bank m.tl).epc.toNat % 65536 with
             | some y => if k ≠ 0 && f.pc = (m.bank m.tl).epc.toNat % 65536 then some (k, y) else Option.none
             | .none => .none),
           formed := x.formed.filter (·.level ≠ m.tl) }

theorem State.returnTrap_eq {m : Team} {mask : Mask} {depth : Nat} (s : State) (frame : s.frameAt m = (mask, depth)) :
    s.returnTrap m = s.modTeam m.id (m.returned mask depth) := by
  unfold State.returnTrap
  rw [frame]
  rfl

theorem resumption_returned (m : Team) (mask : Mask) (depth : Nat) (x : Team) : resumption m (m.returned mask depth x) := by
  unfold resumption Team.returned
  dsimp only
  refine ⟨fun y back first here => ?_, fun gone => ?_⟩
  · have named : y.hdr = (m.bank m.tl).epc.toNat % 65536 := by
      have found := List.find?_some back
      simp only [Bool.and_eq_true, decide_eq_true_eq] at found
      exact found.2
    rw [Option.mem_def.1 back]
    simp [first, here, named]
  · cases back : m.formed.find? fun y => y.level = m.tl && y.hdr = (m.bank m.tl).epc.toNat % 65536 with
    | none => rfl
    | some y =>
      rw [back] at gone
      refine if_neg fun runs => ?_
      simp only [Bool.and_eq_true, decide_eq_true_eq] at runs
      rcases gone with none | zero | elsewhere
      · cases none
      · exact runs.1 zero
      · exact elsewhere runs.2

/-- A return from a frame without an uncorrectable error is a read of the frame, then the return. -/
theorem tret_applyAct {s : State} {m : Team} (c : Cur) (r : Run) (last : Bool) (pos : Nat) (good : s.frameGood m) :
    ∃ u, ReadOn m.id s u ∧ s.applyAct m c r last (.tret pos) = u.returnTrap m := by
  have bad : s.frameBad m = false := good
  refine ⟨_, ReadOn.meetRead m.id s m.pl.pkg (lsPa m.pl.core (m.pl.lsBase + (m.bank m.tl).save.toNat)) 132 m.pl.core
    (m.wordsDone + nthAt r pos + 1), ?_⟩
  simp only [State.applyAct, bad, Bool.false_eq_true, if_false]
  rw [State.wordRead, if_neg (Bool.eq_false_iff.1 good)]

end Sys2Proof.Machine

namespace Sys2Proof
open Machine

/-- Settles O46: the read of the frame changes nothing the return looks at, and the return changes its own team alone. -/
theorem trapReturn : Obligations.TrapReturn := by
  intro s m c r last pos own good mask depth f t
  obtain ⟨u, read, returned⟩ := tret_applyAct c r last pos good
  have frame : u.frameAt m = (mask, depth) := (read.frameAt m).trans (s.frameAt_eq m)
  obtain ⟨l, now⟩ := read.team m own
  have after : t = u.modTeam m.id (m.returned mask depth) := returned.trans (u.returnTrap_eq frame)
  obtain ⟨goes, resumes⟩ := resumed_spec f
  obtain ⟨team, -, -⟩ := only_modTeam (m.returned mask depth) now fun _ => rfl
  exact ⟨after ▸ read.mem, m.returned mask depth { m with events := l }, f.resumed, (congrArg (State.team? · m.id) after).trans team, goes, resumes, rfl, rfl, rfl, rfl, rfl, rfl, rfl, rfl, rfl, rfl, rfl, rfl,
    resumption_returned m mask depth _, rerun_runOf t _⟩

end Sys2Proof
end

section
/-! A pass that traps (R45, R47): its clause ends, and the trap waits for its team. -/

namespace Sys2Proof.Machine

theorem State.id_of_team? {s : State} {i : Nat} {m : Team} (h : s.team? i = some m) : m.id = i := by
  simpa using List.find?_some h

theorem State.team?_self {s : State} {i : Nat} {m : Team} (h : s.team? i = some m) : s.team? m.id = some m :=
  (State.id_of_team? h).symm ▸ h

/-- A core with a clause is one of the machine's. -/
theorem State.core_inside {s : State} {p c : Nat} {r : Run} (h : (s.core p c).run = some r) : 256 * p + c < s.cores.length := by
  by_contra outside
  rw [State.core, List.getD_eq_default _ _ (not_lt.1 outside)] at h
  cases h

/-- A core whose clause ends, free from the next cycle on. -/
def Core.ended (now : Nat) (x : Core) : Core := { x with run := none, free := now }
/-- A team whose clause ends, and where it goes on. -/
def Team.clauseOver (pc now : Nat) (x : Team) : Team := { x with pc := pc, ePrev := now }

/-- A clause that holds back no switch ends for its core and its team alone (R44). -/
theorem State.endClause_eq {s : State} {p c : Nat} (inside : 256 * p + c < s.cores.length) (hold : (s.core p c).switchHold = 0)
    (t pc : Nat) : s.endClause p c t pc = (s.modCore p c (Core.ended s.wtc)).modTeam t (Team.clauseOver pc s.wtc) := by
  have still : (((s.modCore p c (Core.ended s.wtc)).modTeam t (Team.clauseOver pc s.wtc)).core p c).switchHold = 0 := by
    change ((s.modCore p c (Core.ended s.wtc)).core p c).switchHold = 0
    rw [s.core_modCore p c _ inside]
    exact hold
  exact if_pos still

/-- Where no pass of a gang is watched, no access of it races (R230). -/
theorem State.passRace_none {s : State} {m : Team} (h : s.watching m = false) (acts : List Act) (lim : Nat) :
    s.passRace m acts lim = none := by simp [State.passRace, h]

theorem State.watchPages_nil {s : State} {m : Team} (h : s.watching m = false) (r : Run) (l : List MemAct) :
    s.watchPages m r l = [] := by simp [State.watchPages, h]

theorem State.tretTrap_cons_other {a : Act} (ne : ∀ q, a ≠ .tret q) (s : State) (m : Team) (acts : List Act) :
    s.tretTrap m (a :: acts) = s.tretTrap m acts := by
  cases a
  case tret q => exact absurd rfl (ne q)
  all_goals rfl

/-- A return raises ILL 14 for a depth beyond the stack, and else ILL 10 for a return address that starts no clause. -/
theorem State.tretTrap_cons_tret {s : State} {m : Team} {pos : Nat} {tr : PTrap} (acts : List Act) (good : s.frameBad m = false)
    (fault : m.stack.length < (s.frameAt m).2 ∧ tr = ⟨pos, 0x03, 14, 0, 0⟩ ∨ (s.frameAt m).2 ≤ m.stack.length ∧
      (m.bank m.tl).epc.toNat % 2 ^ 16 ∉ s.gangStarts m.pl.gang ∧ tr = ⟨pos, 0x03, 10, 0, 0⟩) :
    s.tretTrap m (.tret pos :: acts) = some tr := by
  rcases fault with ⟨deep, rfl⟩ | ⟨fits, astray, rfl⟩
  · simp [State.tretTrap, good, deep, cILL]
  · have away : s.isStart m ((m.bank m.tl).epc.toNat % 65536) = false := by simpa [State.isStart] using astray
    simp [State.tretTrap, good, not_lt.2 fits, away, cILL]

theorem tretTrap_of_returnFault {s : State} {m : Team} {acts : List Act} {tr : PTrap} (h : s.returnFault m acts tr) :
    s.tretTrap m acts = some tr := by
  obtain ⟨good, pos, here, only, fault⟩ := h
  induction acts with
  | nil => cases here
  | cons a acts ih =>
    by_cases ret : ∃ q, a = .tret q
    · obtain ⟨q, rfl⟩ := ret
      obtain rfl := only q List.mem_cons_self
      exact State.tretTrap_cons_tret acts good (by rwa [s.frameAt_eq m])
    · have other (q : Nat) : a ≠ .tret q := fun eq => ret ⟨q, eq⟩
      rw [State.tretTrap_cons_other other]
      exact ih ((List.mem_cons.1 here).resolve_left fun eq => other pos eq.symm) fun q hq => only q (List.mem_cons_of_mem a hq)

/-- The passes kept of a clause that has committed some (R47). -/
def keptPasses (r : Run) : List Formed := if 1 < r.pass then [⟨0, r.hdr, r.formed, r.ref⟩] else []

/-- The trap of a pass as it waits for its team; the exception of a completed card names pass 1 (R231). -/
def PTrap.event (tr : PTrap) (m : Team) (now : Nat) (r : Run) : TeamEvent :=
  preciseEvent m now r.hdr (if tr.cause = cMMX && tr.tlm = 0 then 1 else r.pass) tr.pos tr.cause tr.tval tr.tvalh tr.tlm

theorem PTrap.event_pass (tr : PTrap) (m : Team) (now : Nat) (r : Run) :
    (tr.event m now r).pass = (if tr.cause = cMMX ∧ tr.tlm = 0 then 1 else r.pass) + 256 * tr.pos := by
  simp only [PTrap.event, preciseEvent, Bool.and_eq_true, decide_eq_true_eq]

/-- A team whose clause leaves passes behind for its own level (R47). -/
def Team.keeps (r : Run) (x : Team) : Team := { x with formed := x.formed.filter (·.level ≠ 0) ++ keptPasses r }

/-- A team behind a pass of it that trapped. -/
def Team.trapped (now : Nat) (r : Run) (tr : PTrap) (m : Team) : Team :=
  ((m.clauseOver r.hdr now).keeps r).onEvents (· ++ [tr.event m now r])

/-- A pass that traps ends its clause, and leaves its trap with its team. -/
theorem State.trapPass_spec {s : State} {m : Team} (own : s.team? m.id = some m) (ended : m.ended = false)
    (stopped : m.stopped = false) (inside : 256 * m.pl.pkg + m.pl.core < s.cores.length)
    (hold : (s.core m.pl.pkg m.pl.core).switchHold = 0) (r : Run) (tr : PTrap) :
    let t := s.trapPass m r tr
    t = { s with cores := t.cores, teams := t.teams } ∧
      t.core m.pl.pkg m.pl.core = (s.core m.pl.pkg m.pl.core).ended s.wtc ∧ t.team? m.id = some (m.trapped s.wtc r tr) := by
  let u := (s.modCore m.pl.pkg m.pl.core (Core.ended s.wtc)).modTeam m.id (Team.clauseOver r.hdr s.wtc)
  let v := u.modTeam m.id (Team.keeps r)
  have onU : u.team? m.id = some (m.clauseOver r.hdr s.wtc) := (only_modTeam (Team.clauseOver r.hdr s.wtc) own fun _ => rfl).1
  have onV : v.team? m.id = some ((m.clauseOver r.hdr s.wtc).keeps r) := (only_modTeam (Team.keeps r) onU fun _ => rfl).1
  have posted := State.postEvent_append (ev := tr.event m s.wtc r) onV ended stopped (show 1 ≠ 4 by decide)
  have eq : s.trapPass m r tr = v.modTeam m.id (Team.onEvents (· ++ [tr.event m s.wtc r])) :=
    (congrArg (fun z : State => (z.modTeam m.id (Team.keeps r)).postEvent m.id _) (State.endClause_eq inside hold m.id r.hdr)).trans posted
  rw [eq]
  exact ⟨rfl, s.core_modCore _ _ _ inside, (only_modTeam (Team.onEvents (· ++ [tr.event m s.wtc r])) onV fun _ => rfl).1⟩

theorem step_commit {s : State} {p c : Nat} {rest : List Due} (ev : s.ev = none) (due : s.due = .commit p c :: rest) :
    step s = .next (({ s with due := rest } : State).commitPass p c) := by simp only [step, ev, due]

/-- A pass that is not watched and has a trap commits by its trap alone. -/
theorem State.commitPass_trap {s : State} {p c : Nat} {r : Run} {x : Cur} {m : Team} {tr : PTrap} (run : (s.core p c).run = some r)
    (done : r.done = some x) (team : s.team? r.team = some m) (quiet : s.watching m = false)
    (trap : (x.trap <|> s.tretTrap m x.acts) = some tr) : s.commitPass p c = s.trapPass m r tr := by
  simp only [State.commitPass, run, done, team, State.watchPages_nil quiet, State.passRace_none quiet, trap, firstTrap]

end Sys2Proof.Machine

namespace Sys2Proof
open Machine

/-- Settles O44: the trap of the pass, or of its return, is the one the commit finds; it ends the clause and waits. -/
theorem trappedPass : Obligations.TrappedPass := by
  intro s p c rest r x m tr ev due run done team pkg core raised quiet ended stopped hold
  subst pkg core
  let u : State := { s with due := rest }
  have trap : (x.trap <|> u.tretTrap m x.acts) = some tr := by
    rcases raised with here | ⟨none, fault⟩
    · rw [here]
      rfl
    · rw [none]
      exact tretTrap_of_returnFault (s := u) fault
  obtain ⟨frame, freed, now⟩ := State.trapPass_spec (s := u) (State.team?_self team) ended stopped (State.core_inside run) hold r tr
  refine ⟨_, (step_commit ev due).trans (congrArg _ (State.commitPass_trap (s := u) run done team quiet trap)), ?_⟩
  have kept (first : 1 < r.pass) : ⟨0, r.hdr, r.formed, r.ref⟩ ∈ (m.trapped u.wtc r tr).formed :=
    List.mem_append_right _ (by simp [keptPasses, first])
  refine ⟨(congrArg State.mem frame :), (congrArg State.acc frame :), (congrArg State.flights frame :), (congrArg State.staged frame :),
    (congrArg Core.run freed :), (congrArg Core.queues freed :), _, now, ⟨rfl, rfl, rfl, rfl, rfl, rfl, rfl, rfl, rfl⟩, rfl, rfl, rfl,
    tr.event m u.wtc r, List.mem_append_right _ (List.mem_singleton.2 rfl), rfl, rfl, rfl, rfl, rfl, rfl, rfl, tr.event_pass .., kept⟩

end Sys2Proof
end

section
/-! What a trap record leaves as it was (R326): the records grow, and the record's write is under way. -/

namespace Sys2Proof.Machine

/-- A changed core is seen in itself at most. -/
theorem State.core_modCore_cases (s : State) (p c q d : Nat) (f : Core → Core) :
    (s.modCore p c f).core q d = s.core q d ∨ 256 * p + c = 256 * q + d ∧ (s.modCore p c f).core q d = f (s.core q d) := by
  by_cases here : 256 * p + c = 256 * q + d
  · by_cases inside : 256 * q + d < s.cores.length
    · refine .inr ⟨here, ?_⟩
      simp [State.core, State.modCore, List.getD_eq_getElem?_getD, here, inside]
    · left
      simp only [State.core, State.modCore]
      rw [List.getD_eq_default _ _ (by simpa using inside), List.getD_eq_default _ _ (not_lt.1 inside)]
  · left
    simp [State.core, State.modCore, List.getD_eq_getElem?_getD, here]

/-- A state with some more trap records than another, both otherwise alike but for what records their writes take. -/
structure Recorded (l : List Record) (s t : State) : Prop where
  records : t.records = s.records ++ l
  teams : t.teams = s.teams
  gangs : t.gangs = s.gangs
  staged : t.staged = s.staged
  flights : t.flights = s.flights
  wtc : t.wtc = s.wtc
  agenda : s.agenda ⊆ t.agenda
  core : ∀ p c, ∃ n, t.core p c = { s.core p c with seq := n }

namespace Recorded

theorem nil (s : State) : Recorded [] s s :=
  ⟨(List.append_nil _).symm, rfl, rfl, rfl, rfl, rfl, List.Subset.refl _, fun p c => ⟨(s.core p c).seq, rfl⟩⟩

theorem append {l l' : List Record} {s t u : State} (h : Recorded l s t) (k : Recorded l' t u) : Recorded (l ++ l') s u where
  records := by rw [k.records, h.records, List.append_assoc]
  teams := k.teams.trans h.teams
  gangs := k.gangs.trans h.gangs
  staged := k.staged.trans h.staged
  flights := k.flights.trans h.flights
  wtc := k.wtc.trans h.wtc
  agenda := List.Subset.trans h.agenda k.agenda
  core p c := by
    obtain ⟨n, hn⟩ := h.core p c
    obtain ⟨n', hn'⟩ := k.core p c
    exact ⟨n', by rw [hn', hn]⟩

theorem team? {l : List Record} {s t : State} (h : Recorded l s t) (i : Nat) : t.team? i = s.team? i := by
  simp only [State.team?, h.teams]

theorem gang? {l : List Record} {s t : State} (h : Recorded l s t) (i : Nat) : t.gang? i = s.gang? i := by
  simp only [State.gang?, h.gangs]

end Recorded

/-- A record is made and its write leaves (R326). -/
theorem State.recorded_record (s : State) (p cyc core slot : Nat) (imp : Bool) (cause level ctx : Nat) (tval tvalh tepc tpass : Word) :
    ∃ seq, Recorded [⟨p, cyc, seq, core, slot, imp, cause, level, ctx, tval, tvalh, tepc, tpass⟩] s
      (s.record p cyc core slot imp cause level ctx tval tvalh tepc tpass) := by
  unfold State.record
  by_cases hub : core = 256
  · simp only [if_pos hub]
    exact ⟨_, rfl, rfl, rfl, rfl, rfl, rfl, State.agenda_subset_at .., fun q d => ⟨_, rfl⟩⟩
  · simp only [if_neg hub]
    refine ⟨_, rfl, rfl, rfl, rfl, rfl, rfl, State.agenda_subset_at .., fun q d => ?_⟩
    rcases s.core_modCore_cases p core q d fun x => { x with seq := x.seq + 1 } with same | ⟨-, counted⟩
    · exact ⟨_, same⟩
    · exact ⟨_, counted⟩

/-- The faults of a team without a record have one each, in their order (R312, R326). -/
theorem State.dropEvents_spec (s : State) (m : Team) : ∃ rs, Recorded rs s (s.dropEvents m) ∧ heldRecords m (unrecorded m.events) rs := by
  unfold State.dropEvents
  change ∃ rs, Recorded rs s ((unrecorded m.events).foldl _ s) ∧ _
  induction unrecorded m.events generalizing s with
  | nil => exact ⟨[], .nil s, rfl, fun p hp => absurd hp List.not_mem_nil⟩
  | cons e l ih =>
    obtain ⟨seq, one⟩ := s.recorded_record m.pl.pkg e.x m.pl.core m.pl.slot true e.cause 0 (s.gangCtx m.pl.gang) e.tval e.tvalh
      (BitVec.ofNat 32 e.epc) (BitVec.ofNat 32 e.pass)
    obtain ⟨rs, more, len, each⟩ := ih (s.record m.pl.pkg e.x m.pl.core m.pl.slot true e.cause 0 (s.gangCtx m.pl.gang) e.tval
      e.tvalh (BitVec.ofNat 32 e.epc) (BitVec.ofNat 32 e.pass))
    refine ⟨_, one.append more, congrArg (· + 1) len, fun p hp => ?_⟩
    rcases List.mem_cons.1 hp with rfl | later
    · exact ⟨rfl, rfl, rfl, rfl, rfl, rfl, rfl, rfl, rfl, rfl⟩
    · exact each p later

end Sys2Proof.Machine
end

section
/-! Trap entry (R309 to R313). -/

namespace Sys2Proof.Machine

/-! ### The event taken (R312, R313) -/

theorem firstEvent_eq (l : List TeamEvent) (tl : Nat) : firstEvent tl l = (l.filter (·.takeable tl)).foldl (fun acc e =>
    match acc with
    | none => some e
    | some a => some (if e.order < a.order then e else a)) none := rfl

/-- Of some events the fold keeps the first of least order. -/
theorem foldl_least (ev : TeamEvent) (post : List TeamEvent) (least : ∀ e ∈ post, ev.order ≤ e.order) : post.foldl (fun acc e =>
    match acc with
    | none => some e
    | some a => some (if e.order < a.order then e else a)) (some ev) = some ev := by
  induction post with
  | nil => rfl
  | cons e post ih =>
    rw [List.foldl_cons]
    dsimp only
    rw [if_neg (not_lt.2 (least e List.mem_cons_self))]
    exact ih fun x hx => least x (List.mem_cons_of_mem e hx)

theorem foldl_first (ev : TeamEvent) (pre post : List TeamEvent) (before : ∀ e ∈ pre, ev.order < e.order)
    (least : ∀ e ∈ post, ev.order ≤ e.order) (acc : Option TeamEvent) (start : ∀ a ∈ acc, ev.order < a.order) :
    (pre ++ ev :: post).foldl (fun acc e =>
      match acc with
      | none => some e
      | some a => some (if e.order < a.order then e else a)) acc = some ev := by
  induction pre generalizing acc with
  | nil =>
    rw [List.nil_append, List.foldl_cons]
    cases acc with
    | none => exact foldl_least ev post least
    | some a =>
      dsimp only
      rw [if_pos (start a rfl)]
      exact foldl_least ev post least
  | cons e pre ih =>
    have earlier := before e List.mem_cons_self
    rw [List.cons_append, List.foldl_cons]
    refine ih (fun x hx => before x (List.mem_cons_of_mem e hx)) _ fun a ha => ?_
    cases acc with
    | none =>
      cases ha
      exact earlier
    | some b =>
      cases ha
      split
      · exact earlier
      · exact start b rfl

theorem orderRule_holds (m : Team) (n : Nat) (s : State) : orderRule m n s := by
  have opened : (m.events.filter fun e => e.x ≤ n && !(e.order = 2 && m.fenced)).filter (·.takeable m.tl) =
      m.events.filter fun e => e.x ≤ n && (e.order ≠ 4 || m.tl ≤ e.level) && !(e.order = 2 && m.fenced) := by
    rw [List.filter_filter]
    refine List.filter_congr fun e _ => ?_
    simp only [TeamEvent.takeable, Bool.and_assoc, Bool.and_left_comm]
  refine ⟨fun busy => by simp [State.nextTrap, busy], fun free => ⟨fun none => ?_, fun pre ev post split before least => ?_⟩⟩
  · rw [State.nextTrap, if_pos free, firstEvent_eq, opened, none]
    rfl
  · rw [State.nextTrap, if_pos free, firstEvent_eq, opened, split]
    exact foldl_first ev pre post before least Option.none fun a ha => nomatch ha

end Sys2Proof.Machine
end

section
/-! Entering a trap level (R309, R310). -/

namespace Sys2Proof.Machine

/-- The level above for an event whose save area lies beyond the LS, or whose vector names no clause start. -/
theorem State.enter_prt {m : Team} {tl : Nat} (low : tl < 2) (valid : (m.bank (tl + 1)).vec.getLsbD 31 = true)
    (beyond : m.pl.lsBytes < (m.bank (tl + 1)).save.toNat + 512) (fuel : Nat) (s : State) (e at_ : Nat) (ev : TeamEvent) :
    s.enter (fuel + 1) m tl e at_ ev = s.enter fuel m (tl + 1) e at_ (replaceTrap ev cPRT (m.bank (tl + 1)).save) := by
  rw [State.enter, if_neg (not_le.2 low)]
  simp only [valid, Bool.not_true, Bool.false_eq_true, if_false, if_pos beyond]

theorem State.enter_ill {s : State} {m : Team} {tl : Nat} (low : tl < 2) (valid : (m.bank (tl + 1)).vec.getLsbD 31 = true)
    (fits : (m.bank (tl + 1)).save.toNat + 512 ≤ m.pl.lsBytes)
    (astray : (s.gangStarts m.pl.gang).contains ((m.bank (tl + 1)).vec.toNat % 65536) = false) (fuel e at_ : Nat) (ev : TeamEvent) :
    s.enter (fuel + 1) m tl e at_ ev = s.enter fuel m (tl + 1) e at_ (replaceTrap ev cILL (m.bank (tl + 1)).vec) := by
  rw [State.enter, if_neg (not_le.2 low)]
  simp only [valid, Bool.not_true, Bool.false_eq_true, if_false, if_neg (not_lt.2 fits), astray, Bool.not_false, if_true]

/-- The bank of a level for an event of a team m (R310, R314). -/
def Team.trapBank (m : Team) (l : Nat) (ev : TeamEvent) : Bank :=
  let b := m.bank l
  ⟨tcauseWord ev.cause ev.imp ev.mult, BitVec.ofNat 32 ev.epc, BitVec.ofNat 32 ev.pass, ev.tval, ev.tvalh,
    BitVec.ofNat 32 (if ev.imp then min (m.wordsDone - ev.words) (2 ^ 32 - 1) else 0), b.save, b.vec, ev.tlm⟩

/-- A team x at the vector of a level that the team m it was enters. -/
def Team.atVector (m : Team) (l e : Nat) (ev : TeamEvent) (x : Team) : Team :=
  { x with
    bank1 := if l = 1 then m.trapBank l ev else x.bank1, bank2 := if l = 1 then x.bank2 else m.trapBank l ev
    tl := l, pc := (m.bank l).vec.toNat % 65536, readyAt := max x.readyAt (e + 9), waits := [], resume := Option.none }

theorem Team.setBank_eq (x : Team) (l : Nat) (b : Bank) :
    x.setBank l b = { x with bank1 := if l = 1 then b else x.bank1, bank2 := if l = 1 then x.bank2 else b } := by
  unfold Team.setBank
  split <;> rfl

theorem Team.bank_atVector (m x : Team) {l : Nat} (level : l = 1 ∨ l = 2) (e : Nat) (ev : TeamEvent) :
    (m.atVector l e ev x).bank l = m.trapBank l ev ∧ (m.atVector l e ev x).bank (3 - l) = x.bank (3 - l) := by
  rcases level with rfl | rfl <;> exact ⟨rfl, rfl⟩

/-- The entry to an open level: the team goes to its vector, its frame is staged, and the trap is recorded. -/
theorem State.enter_open {s : State} {m : Team} {tl : Nat} (low : tl < 2) (opened : s.levelOpen m (m.bank (tl + 1)) = true)
    (fuel e at_ : Nat) (ev : TeamEvent) : s.enter (fuel + 1) m tl e at_ ev =
      ((s.modTeam m.id (m.atVector (tl + 1) e ev)).stageOp m.id m.pl.pkg m.pl.core e m.pl.lsBase (tl + 1) ⟨m.wordsDone, m.pc, 0, 0⟩
        (.frame (m.bank (tl + 1)).save.toNat (frameBytes m))).record m.pl.pkg at_ m.pl.core m.pl.slot ev.imp ev.cause (tl + 1)
          (s.gangCtx m.pl.gang) ev.tval ev.tvalh (BitVec.ofNat 32 ev.epc) (BitVec.ofNat 32 ev.pass) := by
  simp only [State.levelOpen, Bool.and_eq_true, decide_eq_true_eq] at opened
  obtain ⟨⟨valid, fits⟩, start⟩ := opened
  rw [State.enter, if_neg (not_le.2 low)]
  simp only [valid, Bool.not_true, Bool.false_eq_true, if_false, if_neg (not_lt.2 fits), start, Team.setBank_eq]
  rfl

/-- No level is left, or its vector is invalid: the gang is to be killed in the next cycle (R309). -/
theorem State.enter_kill {m : Team} {tl : Nat} (none_ : 2 ≤ tl ∨ tl < 2 ∧ (m.bank (tl + 1)).vec.getLsbD 31 = false) (s : State)
    (fuel e at_ : Nat) (ev : TeamEvent) : s.enter (fuel + 1) m tl e at_ ev =
      (s.modTeam m.id fun x => { x with stopped := true }).requestKill m.pl.gang (e + 1) (BitVec.ofNat 32 ev.cause) ev.imp
        (some (ev.epc, ev.pass)) m.id := by
  rw [State.enter]
  rcases none_ with high | ⟨low, invalid⟩
  · rw [if_pos high]
  · rw [if_neg (not_le.2 low)]
    simp only [invalid, Bool.not_false, if_true]

/-- A gang whose kill cycle stands (R322). -/
def Gang.killedAt (k : Nat) (cause : Word) (imp : Bool) (bank : Option (Nat × Nat)) (t : Nat) (y : Gang) : Gang :=
  { y with killAt := some k, killCause := cause, killImp := imp, killBank := bank, killTeam := t }

/-- A kill asked of a gang that has neither ended nor a kill cycle takes its place on the agenda (R322). -/
theorem State.requestKill_spec {s : State} {g : Nat} {x : Gang} (own : s.gang? g = some x) (ended : x.ended = 0)
    (alive : x.killAt = none) (k : Nat) (cause : Word) (imp : Bool) (bank : Option (Nat × Nat)) (t : Nat) :
    let u := s.requestKill g k cause imp bank t
    u.planned k (.gangKill g 0) ∧ u.gang? g = some (x.killedAt k cause imp bank t) := by
  have eq : s.requestKill g k cause imp bank t = (s.modGang g (Gang.killedAt k cause imp bank t)).at k pKill [g] (.gangKill g 0) := by
    simp [State.requestKill, own, ended, alive]
    rfl
  refine ⟨eq ▸ State.planned_at .., ?_⟩
  rw [eq]
  have own' := s.gang?_modGang g g (Gang.killedAt k cause imp bank t) fun _ => rfl
  rwa [if_pos rfl, own] at own'

/-- A kill asked for leaves teams, staging, records and cores as they are. -/
theorem State.requestKill_frame (s : State) (g k : Nat) (cause : Word) (imp : Bool) (bank : Option (Nat × Nat)) (t : Nat) :
    let u := s.requestKill g k cause imp bank t
    u = { s with gangs := u.gangs, agenda := u.agenda } := by
  unfold State.requestKill
  split
  · rfl
  · split <;> rfl

/-! ### TRAP_ENTRY -/

/-- The event as it enters: an event that is not precise banks where the team stands (R310). -/
def TeamEvent.entering (ev : TeamEvent) (m : Team) : TeamEvent := if ev.order = 1 then ev else { ev with epc := m.pc, pass := 0 }

/-- The level is entered, for the event that leaves the team's own. -/
def State.entering (s : State) (m : Team) (ev : TeamEvent) : State :=
  (s.modTeam m.id (Team.onEvents (·.erase ev))).enter 3 m m.tl (s.trapCycle m ev) (ev.stamp (s.trapCycle m ev)) (ev.entering m)

/-- The passes of the clause are kept, and the faults the team goes on holding recorded. -/
def State.leftBehind (s : State) (i : Nat) (precise : Bool) : State := (s.modTeam i fun x => x.keepFormed precise).noteHeld i

theorem exec_trapEntry {s : State} {n : Nat} {m : Team} {ev : TeamEvent} (own : s.team? n = some m)
    (next : s.nextTrap m (s.wtc + 1) = some ev) :
    exec (.trapEntry n) s = .next ((s.entering m ev).leftBehind n (ev.order = 1)) := by
  obtain rfl := State.id_of_team? own
  change execTrapEntry m.id s = _
  simp only [execTrapEntry, own, next]
  rfl

/-- What stays with a team that has entered a level or is to be killed: its events recorded, its records made. -/
theorem State.leftBehind_spec {s : State} {i : Nat} {y : Team} (own : s.team? i = some y) (precise : Bool) :
    ∃ rs, heldRecords y (unrecorded y.events) rs ∧
      let t := s.leftBehind i precise
      t.team? i = some ((y.keepFormed precise).onEvents keptEvents) ∧ t.records = s.records ++ rs ∧ t.staged = s.staged ∧
        t.gangs = s.gangs ∧ s.agenda ⊆ t.agenda := by
  have kept : (s.modTeam i fun x => x.keepFormed precise).team? i = some (y.keepFormed precise) :=
    (only_modTeam (fun x => x.keepFormed precise) own fun _ => rfl).1
  obtain ⟨rs, more, held⟩ := (s.modTeam i fun x => x.keepFormed precise).dropEvents_spec (y.keepFormed precise)
  refine ⟨rs, held, ?_⟩
  have eq : s.leftBehind i precise = ((s.modTeam i fun x => x.keepFormed precise).dropEvents (y.keepFormed precise)).modTeam i
      (Team.onEvents keptEvents) := by
    simp only [State.leftBehind, State.noteHeld, kept]
    rfl
  rw [eq]
  exact ⟨(only_modTeam (Team.onEvents keptEvents) ((more.team? i).trans kept) fun _ => rfl).1, more.records, more.staged, more.gangs,
    more.agenda⟩

/-- A level entered for an event `ev'` that stands for the team's event `ev`. -/
theorem entered_of_enter {s : State} {m : Team} {ev ev' : TeamEvent} {tl : Nat} (own : s.team? m.id = some m) (low : tl < 2)
    (opened : s.levelOpen m (m.bank (tl + 1)) = true) (epc : ev'.epc = if ev.order = 1 then ev.epc else m.pc)
    (pass : ev'.pass = if ev.order = 1 then ev.pass else 0) (fuel at_ : Nat) :
    entered m ev (tl + 1) ev'.cause ev'.tval ev'.tvalh ev'.imp ev'.mult
      (if ev'.imp then min (m.wordsDone - ev'.words) (2 ^ 32 - 1) else 0) ev'.tlm s
      (((s.modTeam m.id (Team.onEvents (·.erase ev))).enter (fuel + 1) m tl (s.trapCycle m ev) at_ ev').leftBehind m.id
        (ev.order = 1)) := by
  let e := s.trapCycle m ev
  let u := (s.modTeam m.id (Team.onEvents (·.erase ev))).modTeam m.id (m.atVector (tl + 1) e ev')
  let v := u.stageOp m.id m.pl.pkg m.pl.core e m.pl.lsBase (tl + 1) ⟨m.wordsDone, m.pc, 0, 0⟩
    (.frame (m.bank (tl + 1)).save.toNat (frameBytes m))
  have without : (s.modTeam m.id (Team.onEvents (·.erase ev))).team? m.id = some (m.onEvents (·.erase ev)) :=
    (only_modTeam (Team.onEvents (·.erase ev)) own fun _ => rfl).1
  have vector : v.team? m.id = some (m.atVector (tl + 1) e ev' (m.onEvents (·.erase ev))) :=
    (only_modTeam (m.atVector (tl + 1) e ev') without fun _ => rfl).1
  obtain ⟨seq, one⟩ := v.recorded_record m.pl.pkg at_ m.pl.core m.pl.slot ev'.imp ev'.cause (tl + 1)
    ((s.modTeam m.id (Team.onEvents (·.erase ev))).gangCtx m.pl.gang) ev'.tval ev'.tvalh (BitVec.ofNat 32 ev'.epc)
    (BitVec.ofNat 32 ev'.pass)
  obtain ⟨rs, held, team, records, staged, -, agenda⟩ := State.leftBehind_spec ((one.team? m.id).trans vector) (ev.order = 1)
  rw [State.enter_open (s := s.modTeam m.id (Team.onEvents (·.erase ev))) low opened]
  refine ⟨fun z hz => ?_, ⟨⟨s.nextId, m.id, m.pl.pkg, m.pl.core, e, m.pl.lsBase, tl + 1, ⟨m.wordsDone, m.pc, 0, 0⟩,
    .frame (m.bank (tl + 1)).save.toNat (frameBytes m)⟩, ?_, rfl, rfl, rfl, ?_⟩,
    ⟨m.pl.pkg, at_, seq, m.pl.core, m.pl.slot, ev'.imp, ev'.cause, tl + 1, s.gangCtx m.pl.gang, ev'.tval, ev'.tvalh,
      BitVec.ofNat 32 ev'.epc, BitVec.ofNat 32 ev'.pass⟩, rs, ?_, held, rfl, rfl, rfl, rfl, rfl, rfl, rfl, ?_, ?_⟩
  · obtain rfl := Option.some.inj (team.symm.trans hz)
    have level : tl + 1 = 1 ∨ tl + 1 = 2 := by omega
    obtain ⟨own_, other⟩ := m.bank_atVector (m.onEvents (·.erase ev)) level e ev'
    refine ⟨⟨rfl, rfl, rfl, rfl, rfl, rfl, rfl, rfl, rfl⟩, rfl, rfl, rfl, rfl, rfl, rfl, fun precise f hf zero => ?_, ?_, other⟩
    · refine List.mem_append_right _ ?_
      rw [if_pos (decide_eq_true precise)]
      exact List.mem_map_of_mem (List.mem_filter.2 ⟨hf, decide_eq_true zero⟩)
    · refine Eq.trans own_ ?_
      rw [Team.trapBank, epc, pass]
      rfl
  · rw [staged, one.staged]
    exact List.mem_append_right _ (List.mem_singleton.2 rfl)
  · exact State.planned_of_subset (List.Subset.trans one.agenda agenda) (State.planned_at ..)
  · rw [records, one.records]
    exact List.append_assoc ..
  · rw [epc]
  · rw [pass]

/-- No level takes the event: the team stops, and its gang is to be killed in the next cycle (R309). -/
theorem closed_of_enter {s : State} {m : Team} {ev ev' : TeamEvent} (own : s.team? m.id = some m)
    (closed : 2 ≤ m.tl ∨ m.tl < 2 ∧ (m.bank (m.tl + 1)).vec.getLsbD 31 = false) (fuel at_ : Nat) (precise : Bool) :
    let e := s.trapCycle m ev
    let t := ((s.modTeam m.id (Team.onEvents (·.erase ev))).enter (fuel + 1) m m.tl e at_ ev').leftBehind m.id precise
    (∀ z ∈ t.team? m.id, z.stopped = true) ∧
      (∃ rs, t.records = s.records ++ rs ∧ heldRecords m (unrecorded (m.events.erase ev)) rs) ∧ t.staged = s.staged ∧
      ∀ g ∈ s.gang? m.pl.gang, g.ended = 0 → g.killAt = Option.none → t.planned (e + 1) (.gangKill g.id 0) ∧
        ∀ h ∈ t.gang? g.id, h.killAt = some (e + 1) ∧ h.killCause = BitVec.ofNat 32 ev'.cause := by
  intro e t
  let v := (s.modTeam m.id (Team.onEvents (·.erase ev))).modTeam m.id fun x => { x with stopped := true }
  have without : (s.modTeam m.id (Team.onEvents (·.erase ev))).team? m.id = some (m.onEvents (·.erase ev)) :=
    (only_modTeam (Team.onEvents (·.erase ev)) own fun _ => rfl).1
  have halted : v.team? m.id = some { m.onEvents (·.erase ev) with stopped := true } :=
    (only_modTeam (fun x => { x with stopped := true }) without fun _ => rfl).1
  let u := v.requestKill m.pl.gang (e + 1) (BitVec.ofNat 32 ev'.cause) ev'.imp (some (ev'.epc, ev'.pass)) m.id
  have frame : u = { v with gangs := u.gangs, agenda := u.agenda } := v.requestKill_frame ..
  have teams : u.teams = v.teams := (congrArg State.teams frame :)
  have team' : u.team? m.id = some { m.onEvents (·.erase ev) with stopped := true } := by
    rw [← halted]
    simp only [State.team?, teams]
  obtain ⟨rs, held, team, records, staged, gangs, agenda⟩ := State.leftBehind_spec team' precise
  have eq : t = u.leftBehind m.id precise := congrArg (fun z : State => z.leftBehind m.id precise) (State.enter_kill closed ..)
  rw [eq]
  refine ⟨fun z hz => ?_, ⟨rs, records.trans ?_, held⟩, staged.trans (congrArg State.staged frame :), fun g hg ended alive => ?_⟩
  · obtain rfl := Option.some.inj (team.symm.trans hz)
    rfl
  · have kept : u.records = v.records := (congrArg State.records frame :)
    exact congrArg (· ++ rs) kept
  · have id : g.id = m.pl.gang := by simpa using List.find?_some hg
    obtain ⟨plan, now⟩ := State.requestKill_spec (s := v) hg ended alive (e + 1) (BitVec.ofNat 32 ev'.cause) ev'.imp
      (some (ev'.epc, ev'.pass)) m.id
    rw [id]
    refine ⟨State.planned_of_subset agenda plan, fun h hh => ?_⟩
    have same : (u.leftBehind m.id precise).gang? m.pl.gang = u.gang? m.pl.gang := by simp only [State.gang?, gangs]
    obtain rfl := Option.some.inj (now.symm.trans (same.symm.trans hh))
    exact ⟨rfl, rfl⟩

/-- TRAP_ENTRY, level by level (R309, R310). -/
theorem entry_gives (s : State) (n : Nat) : Gives (.trapEntry n) s (entryRule n) := by
  cases own : s.team? n with
  | none => exact ⟨s, by simp only [exec, execTrapEntry, own], fun m hm => by cases own.symm.trans hm⟩
  | some m =>
    cases next : s.nextTrap m (s.wtc + 1) with
    | none =>
      refine ⟨s, by simp only [exec, execTrapEntry, own, next], fun x hx _ ev hev => ?_⟩
      cases own.symm.trans hx
      cases next.symm.trans hev
    | some ev =>
      refine ⟨_, exec_trapEntry own next, fun x hx _ ev' hev => ?_⟩
      cases own.symm.trans hx
      cases next.symm.trans hev
      obtain rfl := State.id_of_team? own
      have epc : (ev.entering m).epc = if ev.order = 1 then ev.epc else m.pc := by
        unfold TeamEvent.entering
        split <;> rfl
      have pass : (ev.entering m).pass = if ev.order = 1 then ev.pass else 0 := by
        unfold TeamEvent.entering
        split <;> rfl
      have rest : (ev.entering m).cause = ev.cause ∧ (ev.entering m).tval = ev.tval ∧ (ev.entering m).tvalh = ev.tvalh ∧
          (ev.entering m).imp = ev.imp ∧ (ev.entering m).mult = ev.mult ∧ (ev.entering m).words = ev.words ∧
          (ev.entering m).tlm = ev.tlm := by
        unfold TeamEvent.entering
        split <;> exact ⟨rfl, rfl, rfl, rfl, rfl, rfl, rfl⟩
      obtain ⟨cause, tval, tvalh, imp, mult, words, tlm⟩ := rest
      refine ⟨fun low opened => ?_, fun base valid opened => ⟨fun beyond => ?_, fun fits astray => ?_⟩, fun closed => ?_⟩
      · have enters := entered_of_enter (ev := ev) own low opened epc pass 2 (ev.stamp (s.trapCycle m ev))
        rwa [cause, tval, tvalh, imp, mult, words, tlm] at enters
      · have low : m.tl < 2 := by omega
        rw [State.entering, State.enter_prt low valid beyond, base]
        exact entered_of_enter (ev' := replaceTrap (ev.entering m) cPRT (m.bank 1).save) (tl := 1) own (by decide) opened epc pass 1 _
      · have low : m.tl < 2 := by omega
        rw [State.entering, State.enter_ill (s := s.modTeam m.id (Team.onEvents (·.erase ev))) low valid fits astray, base]
        exact entered_of_enter (ev' := replaceTrap (ev.entering m) cILL (m.bank 1).vec) (tl := 1) own (by decide) opened epc pass 1 _
      · rw [← cause]
        exact closed_of_enter own (closed.imp (fun top => top.ge) id) 2 _ _

end Sys2Proof.Machine
end

section
/-! A wide read gives the bytes written there (R4), in whatever memory. -/

namespace Sys2Proof.Machine

theorem memNat_append (l l' : List Host.Cell) (a n : Nat) : memNat (l ++ l') a n = memNat l a n + memNat l' a n := by
  induction l with
  | nil => simp
  | cons c l ih => rw [List.cons_append, memNat_cons, memNat_cons, ih, Nat.add_assoc]

theorem memNat_outside (l : List Host.Cell) (a n : Nat) (out : ∀ c ∈ l, c.1 < a ∨ a + n ≤ c.1) : memNat l a n = 0 := by
  induction l with
  | nil => rfl
  | cons c l ih =>
    rw [memNat_cons, ih fun d hd => out d (List.mem_cons_of_mem c hd), if_neg fun inside => ?_]
    have := out c List.mem_cons_self
    omega

theorem memNat_cellsFrom (bs : List Byte) (a k n : Nat) (fits : k + bs.length ≤ n) :
    memNat (cellsFrom (a + k) bs) a n = 2 ^ (8 * k) * bytesNat bs := by
  induction bs generalizing k with
  | nil => rfl
  | cons b bs ih =>
    have rest := ih (k + 1) (by simp only [List.length_cons] at fits; omega)
    have weight : 2 ^ (8 * (k + 1)) = 2 ^ (8 * k) * 256 := by rw [Nat.mul_succ, Nat.pow_add]
    unfold cellsFrom
    split
    · next zero =>
      rw [Nat.add_assoc, rest, zero, weight]
      simp [bytesNat, Config.unlistedByte, Nat.mul_assoc]
    · have inside : a ≤ a + k ∧ a + k < a + n := by simp only [List.length_cons] at fits; omega
      rw [memNat_cons, Nat.add_assoc, rest, if_pos inside, Nat.add_sub_cancel_left, weight, bytesNat]
      ring

theorem memNat_memPut (m : List Host.Cell) (a : Nat) (bs : List Byte) : memNat (memPut m a bs) a bs.length = bytesNat bs := by
  have laid : memNat (cellsFrom a bs) a bs.length = bytesNat bs := by simpa using memNat_cellsFrom bs a 0 bs.length (by omega)
  have below : memNat (m.filter fun c => c.1 < a) a bs.length = 0 :=
    memNat_outside _ _ _ fun c hc => .inl (by simpa using (List.mem_filter.1 hc).2)
  have above : memNat (m.filter fun c => a + bs.length ≤ c.1) a bs.length = 0 :=
    memNat_outside _ _ _ fun c hc => .inr (by simpa using (List.mem_filter.1 hc).2)
  rw [memPut, memNat_append, memNat_append, below, above, laid, Nat.zero_add, Nat.add_zero]

theorem State.rd_wr (s : State) (p pa : Nat) (bs : List Byte) : (s.wr p pa bs).rd p pa bs.length = bytesNat bs := memNat_memPut ..

end Sys2Proof.Machine
end

section
/-! The watchdog (R323, R333), and the end of a killed gang (R322). -/

namespace Sys2Proof.Machine

/-! ### WATCHDOG_EXPIRY -/

/-- The watchdog's trap (R308, R313). -/
def watchdogEvent (level now : Nat) : TeamEvent := ⟨3, cWDG, false, false, 0, 0, 0, level, now, 0, 0, 0, false⟩

/-- A team that has the watchdog's trap. -/
def Team.dogged (z : Team) : Prop := ∃ e ∈ z.events, e.order = 3 ∧ e.cause = cWDG ∧ e.imp = false

/-- A team that goes on, and has the watchdog's trap where it is to have it. -/
def goesOn (i : Nat) (has : Prop) (s : State) : Prop := ∃ z, s.team? i = some z ∧ z.ended = false ∧ z.stopped = false ∧ (has → z.dogged)

theorem goesOn_postEvent {i j : Nat} {has : Prop} {s : State} (h : goesOn i has s) (level now : Nat) :
    goesOn i (has ∨ j = i) (s.postEvent j (watchdogEvent level now)) := by
  obtain ⟨z, own, ended, stopped, dogged⟩ := h
  by_cases here : j = i
  · subst here
    rw [State.postEvent_append own ended stopped (show 3 ≠ 4 by decide)]
    exact ⟨_, (only_modTeam (Team.onEvents (· ++ [watchdogEvent level now])) own fun _ => rfl).1, ended, stopped,
      fun _ => ⟨watchdogEvent level now, List.mem_append_right _ (List.mem_singleton.2 rfl), rfl, rfl, rfl⟩⟩
  · refine ⟨z, ?_, ended, stopped, fun had => dogged (had.resolve_right here)⟩
    rcases s.postEvent_cases j (watchdogEvent level now) with same | ⟨f, posted⟩
    · rw [same, own]
    · rw [posted, State.team?_modTeam s j i (Team.onEvents f) fun _ => rfl, if_neg here, own]

/-- Every team of a list that goes on has the watchdog's trap behind the fold. -/
theorem goesOn_foldl {i now : Nat} (l : List Team) {has : Prop} {s : State} (h : goesOn i has s) :
    goesOn i (has ∨ ∃ t ∈ l, t.id = i) (l.foldl (fun s t => s.postEvent t.id (watchdogEvent t.tl now)) s) := by
  induction l generalizing has s with
  | nil => simpa using h
  | cons t l ih =>
    have more := ih (goesOn_postEvent (j := t.id) h t.tl now)
    simpa [or_assoc] using more

/-- Posted events leave the gangs as they are. -/
theorem postEvents_gangs (l : List Team) (now : Nat) (s : State) :
    (l.foldl (fun s t => s.postEvent t.id (watchdogEvent t.tl now)) s).gangs = s.gangs := by
  refine foldl_eq State.gangs l (fun s t _ => ?_) s
  rcases s.postEvent_cases t.id (watchdogEvent t.tl now) with same | ⟨f, posted⟩
  · rw [same]
  · rw [posted]
    rfl

/-- A gang without a watchdog. -/
def Gang.unwatched (y : Gang) : Gang := { y with wdog := none }

/-- What is done of a gang whose watchdog has expired (R323, R333). -/
def State.dogged (s : State) (g : Nat) (st : GState) : State :=
  match st with
  | .run | .shadow => (s.teams.filter fun t => t.pl.gang = g && !t.ended).foldl
      (fun s' t => s'.postEvent t.id (watchdogEvent t.tl s.wtc)) s
  | .spill => s.modGang g fun y => { y with wdogHit := true }
  | _ => s.requestKill g s.wtc (BitVec.ofNat 32 cWDG) false none 0

theorem exec_watchdogExpiry {s : State} {g : Nat} {x : Gang} (own : s.gang? g = some x) (due : x.wdog = some s.wtc) :
    exec (.watchdogExpiry g) s = .next ((s.modGang g Gang.unwatched).dogged g x.state) := by
  change execWatchdogExpiry g s = _
  simp only [execWatchdogExpiry, own, due, ne_eq, not_true_eq_false, if_false]
  rfl

/-- Of a running gang every team that goes on has the trap. -/
theorem dogged_running {s : State} {g : Nat} {m : Team} (own : s.team? m.id = some m) (here : m ∈ s.teams) (gang : m.pl.gang = g)
    (ended : m.ended = false) (stopped : m.stopped = false) {st : GState} (running : st = .run ∨ st = .shadow) :
    ∀ z ∈ (s.dogged g st).team? m.id, z.dogged := by
  obtain ⟨z, now, -, -, dogged⟩ := goesOn_foldl (now := s.wtc) (s.teams.filter fun t => t.pl.gang = g && !t.ended)
    (has := False) (s := s) ⟨m, own, ended, stopped, False.elim⟩
  have listed : m ∈ s.teams.filter fun t => t.pl.gang = g && !t.ended := List.mem_filter.2 ⟨here, by simp [gang, ended]⟩
  rintro z' hz
  have same : (s.dogged g st).team? m.id = some z := by rcases running with rfl | rfl <;> exact now
  obtain rfl := Option.some.inj (same.symm.trans hz)
  exact dogged (.inr ⟨m, listed, rfl⟩)

/-- The gang keeps what its watchdog was, its other fields but for what marks the expiry. -/
theorem dogged_gang {s : State} {g : Nat} {x : Gang} (own : s.gang? g = some x) (st : GState) :
    ∀ y ∈ (s.dogged g st).gang? g, y.wdog = x.wdog ∧ (st = .spill → y.wdogHit = true) ∧
      (st = .out ∨ st = .fill → x.ended = 0 → x.killAt = none → y.killAt = some s.wtc ∧ y.killCause = BitVec.ofNat 32 cWDG) := by
  intro y hy
  have posts (h : (s.dogged g st).gangs = s.gangs) : y = x := by
    have same : (s.dogged g st).gang? g = s.gang? g := by simp only [State.gang?, h]
    exact Option.some.inj (hy.symm.trans (same.trans own))
  have kills (h : s.dogged g st = s.requestKill g s.wtc (BitVec.ofNat 32 cWDG) false none 0) : y.wdog = x.wdog ∧
      (x.ended = 0 → x.killAt = none → y.killAt = some s.wtc ∧ y.killCause = BitVec.ofNat 32 cWDG) := by
    rw [h] at hy
    by_cases alive : x.ended = 0 ∧ x.killAt = none
    · obtain ⟨-, now⟩ := State.requestKill_spec own alive.1 alive.2 s.wtc (BitVec.ofNat 32 cWDG) false none 0
      obtain rfl := Option.some.inj (now.symm.trans hy)
      exact ⟨rfl, fun _ _ => ⟨rfl, rfl⟩⟩
    · refine ⟨?_, fun e k => absurd ⟨e, k⟩ alive⟩
      simp only [State.requestKill, own] at hy
      split at hy
      · exact congrArg Gang.wdog (Option.some.inj (hy.symm.trans own))
      · have killed := s.gang?_modGang g g (Gang.killedAt s.wtc (BitVec.ofNat 32 cWDG) false none 0) fun _ => rfl
        rw [if_pos rfl, own] at killed
        have eq := Option.some.inj (hy.symm.trans killed)
        rw [eq]
        rfl
  cases st
  case run | shadow =>
    obtain rfl := posts (postEvents_gangs ..)
    exact ⟨rfl, nofun, fun out => out.elim nofun nofun⟩
  case spill =>
    have hit := s.gang?_modGang g g (fun y => { y with wdogHit := true }) fun _ => rfl
    rw [if_pos rfl, own] at hit
    obtain rfl := Option.some.inj (hit.symm.trans hy)
    exact ⟨rfl, fun _ => rfl, fun out => out.elim nofun nofun⟩
  case out | fill =>
    obtain ⟨wdog, killed⟩ := kills rfl
    exact ⟨wdog, nofun, fun _ => killed⟩

theorem watchdog_gives (s : State) (g : Nat) : Gives (.watchdogExpiry g) s (watchdogRule g) := by
  cases own : s.gang? g with
  | none => exact ⟨s, by simp only [exec, execWatchdogExpiry, own], fun x hx => by cases own.symm.trans hx⟩
  | some x =>
    by_cases due : x.wdog = some s.wtc
    case neg =>
      refine ⟨s, by simp only [exec, execWatchdogExpiry, own, ne_eq, due, not_false_eq_true, if_true], fun y hy now => ?_⟩
      cases own.symm.trans hy
      exact absurd now due
    refine ⟨_, exec_watchdogExpiry own due, fun y hy _ => ?_⟩
    cases own.symm.trans hy
    have off := s.gang?_modGang g g Gang.unwatched fun _ => rfl
    rw [if_pos rfl, own] at off
    have marks := dogged_gang off x.state
    exact ⟨fun y hy => (marks y hy).1,
      fun running m here gang ended stopped own => dogged_running (s := s.modGang g Gang.unwatched) own here gang ended stopped running,
      fun spill y hy => (marks y hy).2.1 spill, fun out ended alive y hy => (marks y hy).2.2 out ended alive⟩

/-! ### KILL_COMPLETION -/

theorem State.notice_frame (s : State) (p kind a b : Nat) : let t := s.notice p kind a b
    t = { s with notices := s.notices ++ [⟨p, kind, a, b, s.wtc⟩], outbound := t.outbound } := by
  unfold State.notice
  dsimp only
  split <;> rfl

/-! ### What a watchpoint hit leaves (R324, R325) -/

/-- A team but for its events and its record of foreign hits. -/
def Team.bare (z : Team) : Team := { z with events := [], csr := { z.csr with wphit := 0 } }

/-- A state behind some watchpoint hits: notices are out, and teams have other events or records of hits. -/
structure Marked (s t : State) : Prop where
  frame : t = { s with teams := t.teams, notices := t.notices, outbound := t.outbound }
  teams : t.teams.map Team.bare = s.teams.map Team.bare
  notices : s.notices ⊆ t.notices

namespace Marked

theorem refl (s : State) : Marked s s := ⟨rfl, rfl, List.Subset.refl _⟩

theorem trans {s t u : State} (h : Marked s t) (k : Marked t u) : Marked s u :=
  ⟨by rw [k.frame, h.frame], k.teams.trans h.teams, List.Subset.trans h.notices k.notices⟩

theorem foldl {α : Type} {f : State → α → State} (l : List α) (h : ∀ s x, Marked s (f s x)) (s : State) : Marked s (l.foldl f s) := by
  induction l generalizing s with
  | nil => exact .refl s
  | cons x l ih => exact (h s x).trans (ih _)

theorem modTeam (s : State) (i : Nat) {f : Team → Team} (h : ∀ z, (f z).bare = z.bare) : Marked s (s.modTeam i f) := by
  refine ⟨rfl, ?_, List.Subset.refl _⟩
  rw [State.modTeam, List.map_map]
  refine List.map_congr_left fun z _ => ?_
  simp only [Function.comp]
  split
  · exact h z
  · rfl

theorem notice (s : State) (p kind a b : Nat) : Marked s (s.notice p kind a b) := by
  have frame := s.notice_frame p kind a b
  refine ⟨?_, ?_, ?_⟩
  · rw [frame]
  · rw [frame]
  · rw [frame]
    exact List.subset_append_left ..

theorem postEvent (s : State) (t : Nat) (ev : TeamEvent) : Marked s (s.postEvent t ev) := by
  rcases s.postEvent_cases t ev with same | ⟨f, posted⟩
  · rw [same]
    exact .refl s
  · rw [posted]
    exact modTeam s t fun _ => rfl

theorem watchEvent (s : State) (t o words : Nat) : Marked s (s.watchEvent t o words) := by
  unfold State.watchEvent
  split
  · exact .refl s
  · split
    · exact modTeam s t fun _ => rfl
    · exact postEvent s t _

theorem watch (s : State) (p c off n : Nat) (write : Bool) (a : Agent) : Marked s (s.watch p c off n write a) := by
  refine foldl _ (fun s t => ?_) s
  split
  · exact .refl s
  · dsimp only
    split
    · exact watchEvent ..
    · refine Marked.trans ?_ (notice _ ..)
      exact modTeam s _ fun _ => rfl

variable {s t : State} (h : Marked s t)
include h

theorem pkg (p : Nat) : t.pkg p = s.pkg p := State.pkg_congr (congrArg State.pkgs h.frame :) p

theorem rd (p pa n : Nat) : t.rd p pa n = s.rd p pa n := by
  have mem : t.mem = s.mem := (congrArg State.mem h.frame :)
  simp only [State.rd, State.pod, mem, h.pkg]

theorem mem_teams {z : Team} (hz : z ∈ t.teams) : ∃ y ∈ s.teams, y.bare = z.bare := by
  have bare : z.bare ∈ s.teams.map Team.bare := h.teams ▸ List.mem_map_of_mem hz
  exact List.mem_map.1 bare

end Marked

theorem lsPa_of_homeOf {pa c off : Nat} (h : homeOf pa = .ls c off) : lsPa c off = pa := by
  unfold homeOf at h
  split at h
  · cases h
  · split at h
    · next inside =>
      simp only [Bool.and_eq_true, decide_eq_true_eq] at inside
      dsimp only at h
      split at h
      · obtain ⟨rfl, rfl⟩ := Home.ls.inj h
        have := Nat.div_add_mod' (pa - 0x800000000000) 0x200000
        unfold lsPa
        omega
      · cases h
    · split at h
      · cases h
      · split at h <;> cases h

/-- A write at a home is a write of its bytes, and what watchpoints there it meets. -/
theorem State.homeWrite_marked (s : State) (p pa : Nat) (bs : List Byte) (a : Agent) : Marked (s.wr p pa bs) (s.homeWrite p pa bs a) := by
  unfold State.homeWrite
  split
  · next home =>
    rw [State.lsPut, lsPa_of_homeOf home]
    exact .watch ..
  · exact .refl _

/-- Resources that return take their gang and its teams with them (R322). -/
theorem State.returnResources_gone (s : State) (x : Gang) :
    (∀ y ∈ (s.returnResources x).gangs, y.id ≠ x.id) ∧ ∀ z ∈ (s.returnResources x).teams, z.pl.gang ≠ x.id := by
  unfold State.returnResources
  exact ⟨fun y hy => by simpa using (List.mem_filter.1 hy).2, fun z hz => by simpa using (List.mem_filter.1 hz).2⟩

theorem State.returnResources_wtc (s : State) (x : Gang) : (s.returnResources x).wtc = s.wtc := by
  have freed : ((s.dropObjs x.id).freePools x.id).wtc = s.wtc := by
    unfold State.freePools
    refine foldl_eq State.wtc _ (fun s c _ => ?_) _
    exact State.modCore_wtc ..
  unfold State.returnResources
  split
  · rfl
  · exact freed

/-- A status word written is read back, and leaves gangs, teams and the cycle as they are but for watchpoint hits. -/
theorem State.writeStatus_spec (s : State) (p : Nat) (pa : Option Nat) (x : Nat) (fits : x < 2 ^ 32) : let t := s.writeStatus p pa x
    (∃ u, Marked u t ∧ u.gangs = s.gangs ∧ u.teams = s.teams ∧ u.wtc = s.wtc ∧ u.notices = s.notices ∧ u.pkgs = s.pkgs) ∧
      ∀ a ∈ pa, t.rd p a 4 = x := by
  cases pa with
  | none => exact ⟨⟨s, .refl s, rfl, rfl, rfl, rfl, rfl⟩, nofun⟩
  | some a =>
    have marked := s.homeWrite_marked p a (natBytes 4 x) (.remote (s.pkg p).num)
    refine ⟨⟨_, marked, rfl, rfl, rfl, rfl, rfl⟩, fun b hb => ?_⟩
    cases hb
    have read : (s.writeStatus p (some a) x).rd p a 4 = (s.wr p a (natBytes 4 x)).rd p a 4 := marked.rd p a 4
    have wrote := s.rd_wr p a (natBytes 4 x)
    rw [natBytes_length, bytesNat_natBytes, Nat.mod_eq_of_lt (by omega)] at wrote
    exact read.trans wrote

theorem exec_killCompletion {s : State} {g : Nat} {x : Gang} (own : s.gang? g = some x) : exec (.killCompletion g) s = .next
    (if s.killDone x then ((s.returnResources x).writeStatus x.pkg x.statusPa stKILLED).notice x.pkg 1 x.tag stKILLED else s) := by
  change execKillCompletion g s = _
  simp only [execKillCompletion, own]

theorem killed_gives (s : State) (g : Nat) : Gives (.killCompletion g) s (killedRule g) := by
  cases own : s.gang? g with
  | none => exact ⟨s, by simp only [exec, execKillCompletion, own], fun x hx => by cases own.symm.trans hx⟩
  | some x =>
    refine ⟨_, exec_killCompletion own, fun y hy => ?_⟩
    cases own.symm.trans hy
    obtain rfl : x.id = g := by simpa using List.find?_some own
    split
    case isFalse => rfl
    obtain ⟨gangs, teams⟩ := s.returnResources_gone x
    obtain ⟨⟨u, marked, sameGangs, sameTeams, wtc, -, pkgs⟩, read⟩ :=
      (s.returnResources x).writeStatus_spec x.pkg x.statusPa stKILLED (by decide)
    let v := (s.returnResources x).writeStatus x.pkg x.statusPa stKILLED
    have told := v.notice_frame x.pkg 1 x.tag stKILLED
    refine ⟨fun y hy => gangs y ?_, fun z hz => ?_, fun a ha => ?_, _, ?_, rfl⟩
    · have same : (v.notice x.pkg 1 x.tag stKILLED).gangs = u.gangs := (congrArg State.gangs told :).trans (congrArg State.gangs marked.frame :)
      rwa [← sameGangs, ← same]
    · obtain ⟨y, hy, bare⟩ := (marked.trans (Marked.notice v ..)).mem_teams hz
      have gone := teams y (sameTeams ▸ hy)
      rwa [show y.pl = z.pl from (congrArg Team.pl bare :)] at gone
    · exact ((Marked.notice v ..).rd x.pkg a 4).trans (read a ha)
    · rw [told]
      refine List.mem_append_right _ (List.mem_singleton.2 ?_)
      have now : v.wtc = s.wtc := (congrArg State.wtc marked.frame :).trans (wtc.trans (s.returnResources_wtc x))
      rw [now]
      rfl

end Sys2Proof.Machine
end

section
/-! The kill of a gang (R322): its records, what its cores, teams and flights lose with it. -/

namespace Sys2Proof.Machine

/-! ### What sending leaves as it was -/

/-- A state that has sent packets: package state, the agenda and numbers apart, it is as before. -/
structure Sent (s t : State) : Prop where
  frame : t = { s with pkgs := t.pkgs, agenda := t.agenda, nextId := t.nextId }

theorem Sent.refl (s : State) : Sent s s := ⟨rfl⟩

theorem Sent.trans {s t u : State} (h : Sent s t) (k : Sent t u) : Sent s u := ⟨by rw [k.frame, h.frame]⟩

theorem Sent.keeps {s t : State} (h : Sent s t) : t.teams = s.teams ∧ t.cores = s.cores ∧ t.flights = s.flights ∧ t.records = s.records := by
  rw [h.frame]
  exact ⟨rfl, rfl, rfl, rfl⟩

theorem Sent.foldl {α : Type} {f : State → α → State} (h : ∀ s x, Sent s (f s x)) (l : List α) (s : State) : Sent s (l.foldl f s) := by
  induction l generalizing s with
  | nil => exact .refl s
  | cons x l ih => exact (h s x).trans (ih _)

theorem sent_at (s : State) (cyc prio : Nat) (key : List Nat) (i : Instr) : Sent s (s.at cyc prio key i) := ⟨rfl⟩

theorem sent_arm (s : State) (p k : Nat) : Sent s (s.arm p k) := by
  unfold State.arm
  split <;> exact ⟨rfl⟩

theorem sent_sendHeadered (s : State) (p dst slots : Nat) (body : PBody) : Sent s (s.sendHeadered p dst slots body) := by
  unfold State.sendHeadered
  dsimp only
  split
  · exact ⟨rfl⟩
  · unfold State.enterPort
    refine Sent.trans ?_ (sent_arm ..)
    exact ⟨rfl⟩

theorem sent_podRelease (s : State) (g p k : Nat) : Sent s (s.podRelease g p k) := by
  unfold State.podRelease
  split
  · exact ⟨rfl⟩
  · exact Sent.foldl (fun s t => sent_at s ..) _ s

theorem sent_podGathered (s : State) (g k : Nat) : Sent s (s.podGathered g k) := by
  unfold State.podGathered
  dsimp only
  split
  · exact ⟨rfl⟩
  · refine Sent.trans ?_ (sent_podRelease ..)
    refine Sent.trans (t := s.keepToken _ _) ?_ (Sent.foldl (fun s p => sent_sendHeadered s ..) _ _)
    exact ⟨rfl⟩

theorem sent_podTokens (s : State) (g : Nat) : Sent s (s.podTokens g) := by
  unfold State.podTokens
  refine Sent.trans (Sent.foldl (fun s z => ?_) _ s) (Sent.foldl (fun s k => sent_podGathered s g k) _ _)
  dsimp only
  split
  · exact ⟨rfl⟩
  · refine Sent.trans (t := s.keepToken _ _) ?_ (sent_sendHeadered ..)
    exact ⟨rfl⟩

theorem sent_checkRounds (s : State) (g : Nat) : Sent s (s.checkRounds g) := by
  unfold State.checkRounds
  refine Sent.trans (Sent.foldl (fun s w => ?_) _ s) (sent_podTokens ..)
  dsimp only
  split <;> exact ⟨rfl⟩

/-! ### The records (R322, R326) -/

theorem State.killFields_recorded (s : State) (x : Gang) : Recorded [] s (s.killFields x).2.2 := by
  unfold State.killFields
  split
  · exact .nil s
  · exact ⟨(List.append_nil _).symm, rfl, rfl, rfl, rfl, rfl, List.Subset.refl _, fun p c => ⟨(s.core p c).seq, rfl⟩⟩

/-- The slot of the team whose trap or word killed, else the lowest of the gang's on a core (R322). -/
def State.killSlot (s : State) (x : Gang) (c : Nat × Nat) : Nat :=
  let ts := s.gangTeams x.id c.1 c.2
  match ts.find? (·.id = x.killTeam) with
  | some t => t.pl.slot
  | none => ts.foldl (fun m t => min m t.pl.slot) 127

/-- The TLX record of a core (R322). -/
def State.killRecord (x : Gang) (s : State) (c : Nat × Nat) : State :=
  let f := s.killFields x
  f.2.2.record c.1 f.2.2.wtc c.2 (s.killSlot x c) x.killImp cTLX 3 x.ctx x.killCause 0 f.1 f.2.1

theorem State.killRecords_eq (s : State) (x : Gang) : s.killRecords x = (s.gangCores x.id).foldl (State.killRecord x) s := rfl

theorem State.killRecord_spec (x : Gang) (s : State) (c : Nat × Nat) : ∃ r, Recorded [r] s (s.killRecord x c) ∧ r.pkg = c.1 ∧
    r.core = c.2 ∧ r.wtc = s.wtc ∧ r.cause = cTLX ∧ r.level = 3 ∧ r.ctx = x.ctx ∧ r.tval = x.killCause ∧ r.imp = x.killImp := by
  have free := s.killFields_recorded x
  obtain ⟨seq, one⟩ := (s.killFields x).2.2.recorded_record c.1 (s.killFields x).2.2.wtc c.2 (s.killSlot x c) x.killImp cTLX 3 x.ctx
    x.killCause 0 (s.killFields x).1 (s.killFields x).2.1
  exact ⟨_, free.append one, rfl, rfl, free.wtc, rfl, rfl, rfl, rfl, rfl⟩

/-- One TLX record for each core of the gang stands in the kill cycle. -/
theorem State.killRecords_spec (s : State) (x : Gang) : ∃ rs, Recorded rs s (s.killRecords x) ∧ ∀ c ∈ s.gangCores x.id, ∃ r ∈ rs,
    r.pkg = c.1 ∧ r.core = c.2 ∧ r.wtc = s.wtc ∧ r.cause = cTLX ∧ r.level = 3 ∧ r.ctx = x.ctx ∧ r.tval = x.killCause ∧ r.imp = x.killImp := by
  rw [State.killRecords_eq]
  induction s.gangCores x.id generalizing s with
  | nil => exact ⟨[], .nil s, fun c hc => absurd hc List.not_mem_nil⟩
  | cons c l ih =>
    obtain ⟨r, one, fields⟩ := s.killRecord_spec x c
    obtain ⟨rs, more, each⟩ := ih (s.killRecord x c)
    refine ⟨_, one.append more, fun d hd => ?_⟩
    rcases List.mem_cons.1 hd with rfl | later
    · exact ⟨r, List.mem_append_left _ (List.mem_singleton.2 rfl), fields⟩
    · obtain ⟨r', hr, pkg, core, wtc, rest⟩ := each d later
      exact ⟨r', List.mem_append_right _ hr, pkg, core, wtc.trans one.wtc, rest⟩

theorem dropAll_recorded (l : List Team) (s : State) : ∃ rs, Recorded rs s (l.foldl (fun s t => s.dropEvents t) s) := by
  induction l generalizing s with
  | nil => exact ⟨[], .nil s⟩
  | cons t l ih =>
    obtain ⟨rs, h, -⟩ := s.dropEvents_spec t
    obtain ⟨rs', k⟩ := ih (s.dropEvents t)
    exact ⟨_, h.append k⟩

/-! ### The cores -/

/-- What a change of any core keeps true of one. -/
theorem State.core_modCore_keeps {P : Core → Prop} {f : Core → Core} (keep : ∀ x, P x → P (f x)) {s : State} {q d : Nat}
    (h : P (s.core q d)) (p c : Nat) : P ((s.modCore p c f).core q d) := by
  rcases s.core_modCore_cases p c q d f with same | ⟨-, changed⟩
  · rwa [same]
  · rw [changed]
    exact keep _ h

/-- What a change makes true of a core, where it holds of a core at reset. -/
theorem State.core_modCore_est {P : Core → Prop} {f : Core → Core} (est : ∀ x, P (f x)) (reset : P Core.reset) (s : State) (p c : Nat) :
    P ((s.modCore p c f).core p c) := by
  by_cases inside : 256 * p + c < s.cores.length
  · rw [s.core_modCore p c f inside]
    exact est _
  · have outside : (s.modCore p c f).core p c = Core.reset := by
      rw [State.core, List.getD_eq_default]
      simpa using inside
    rwa [outside]

/-- A state that lost something on its cores, with a notice of it. -/
structure CoresOnly (s t : State) : Prop where
  frame : t = { s with cores := t.cores, notices := t.notices, outbound := t.outbound }

theorem CoresOnly.trans {s t u : State} (h : CoresOnly s t) (k : CoresOnly t u) : CoresOnly s u :=
  ⟨by rw [k.frame, h.frame]⟩

theorem CoresOnly.teams {s t : State} (h : CoresOnly s t) : t.teams = s.teams := by rw [h.frame]

theorem CoresOnly.foldl {α : Type} {f : State → α → State} (h : ∀ s x, CoresOnly s (f s x)) (l : List α) (s : State) :
    CoresOnly s (l.foldl f s) := by
  induction l generalizing s with
  | nil => exact ⟨rfl⟩
  | cons x l ih => exact (h s x).trans (ih _)

theorem coresOnly_modCore (s : State) (p c : Nat) (f : Core → Core) : CoresOnly s (s.modCore p c f) := ⟨rfl⟩

theorem coresOnly_notice (s : State) (p kind a b : Nat) : CoresOnly s (s.notice p kind a b) := by
  refine ⟨?_⟩
  rw [s.notice_frame p kind a b]

theorem coresOnly_dropIncomplete (s : State) (p c g : Nat) : CoresOnly s (s.dropIncomplete p c g) := by
  refine CoresOnly.foldl (fun s k => ?_) _ s
  split
  · exact (coresOnly_modCore s p c _).trans (coresOnly_notice ..)
  · exact ⟨rfl⟩

theorem State.notice_core (s : State) (p kind a b q d : Nat) : (s.notice p kind a b).core q d = s.core q d := by
  rw [s.notice_frame p kind a b]
  rfl

theorem core_dropIncomplete {P : Core → Prop} (keep : ∀ (x : Core) qs ps, P x → P { x with queues := qs, parked := ps }) {s : State}
    {q d : Nat} (h : P (s.core q d)) (p c g : Nat) : P ((s.dropIncomplete p c g).core q d) := by
  unfold State.dropIncomplete
  induction List.range 4 generalizing s with
  | nil => exact h
  | cons k l ih =>
    rw [List.foldl_cons]
    refine ih ?_
    split
    · rw [State.notice_core]
      exact State.core_modCore_keeps (fun x => keep x _ _) h p c
    · exact h

/-- A team of the gang. -/
def State.ofGang (s : State) (g t : Nat) : Bool := match s.team? t with | some u => u.pl.gang = g | none => false

/-- No card of a gang waits to start. -/
def Core.unqueued (g : Nat) (x : Core) : Prop := ∀ k ∈ x.cards, k.gang = g → k.start ≠ none

/-- No clause of some teams is in progress. -/
def Core.idleFor (mine : Nat → Bool) (x : Core) : Prop := ∀ r ∈ x.run, mine r.team = false

/-- The last of what a core loses with a gang: slots due after the kill, rings and the clause in progress. -/
def Core.killed (g now : Nat) (mine : Nat → Bool) (y : Core) : Core :=
  let cards := y.cards.flatMap fun k => if k.gang = g then stopSlots (now + 1) false k else [k]
  let rings := y.rings.filter fun r => !mine r.team
  match y.run with
  | some r => if mine r.team then { y with cards := cards, rings := rings, run := none, free := now }
      else { y with cards := cards, rings := rings }
  | none => { y with cards := cards, rings := rings }

theorem Core.killed_cards (g now : Nat) (mine : Nat → Bool) (y : Core) :
    (y.killed g now mine).cards = y.cards.flatMap fun k => if k.gang = g then stopSlots (now + 1) false k else [k] := by
  unfold Core.killed
  dsimp only
  split
  · split <;> rfl
  · rfl

theorem Core.idleFor_killed (g now : Nat) (mine : Nat → Bool) (y : Core) : (y.killed g now mine).idleFor mine := by
  unfold Core.killed Core.idleFor
  dsimp only
  split
  · next r run =>
    split
    · intro r' hr
      cases hr
    · next other =>
      intro r' hr
      cases run.symm.trans hr
      exact Bool.eq_false_iff.2 other
  · next run =>
    intro r hr
    cases run.symm.trans hr

theorem mem_stopSlots_gang {n : Nat} {halt : Bool} {k x : Card} (h : x ∈ stopSlots n halt k) : x.gang = k.gang := by
  unfold stopSlots at h
  split at h
  · rw [List.mem_singleton.1 h]
  · dsimp only at h
    split at h
    · rw [List.mem_singleton.1 h]
    · rcases List.mem_cons.1 h with rfl | h
      · rfl
      · rw [List.mem_singleton.1 h]

theorem Core.unqueued_killed {g now : Nat} {mine : Nat → Bool} {h : Nat} {y : Core} (un : y.unqueued h) : (y.killed g now mine).unqueued h := by
  intro k hk gang
  rw [Core.killed_cards] at hk
  obtain ⟨k', hk', from_⟩ := List.mem_flatMap.1 hk
  split at from_
  · rw [(mem_stopSlots from_).2]
    exact un k' hk' ((mem_stopSlots_gang from_).symm.trans gang)
  · rw [List.mem_singleton.1 from_] at gang ⊢
    exact un k' hk' gang

theorem State.killOnCore_eq (s : State) (x : Gang) (p c : Nat) : s.killOnCore x p c =
    (((((s.dropCards p c fun k => k.gang = x.id && k.start.isNone).dropQueued p c fun r _ => s.ofGang x.id r.team).dropParked p c
      fun r _ => s.ofGang x.id r.team).dropIncomplete p c x.id).modCore p c (Core.killed x.id s.wtc (s.ofGang x.id))) := rfl

theorem coresOnly_killOnCore (s : State) (x : Gang) (p c : Nat) : CoresOnly s (s.killOnCore x p c) := by
  rw [State.killOnCore_eq]
  refine CoresOnly.trans (CoresOnly.trans ?_ (coresOnly_dropIncomplete ..)) (coresOnly_modCore ..)
  exact ((coresOnly_modCore s p c _).trans (coresOnly_modCore _ p c _)).trans (coresOnly_modCore _ p c _)

/-- A core that gave up a gang, and what it keeps as other cores give up theirs. -/
theorem unqueued_killOnCore (s : State) (x : Gang) (p c : Nat) : ((s.killOnCore x p c).core p c).unqueued x.id := by
  rw [State.killOnCore_eq]
  refine State.core_modCore_keeps (P := Core.unqueued x.id) (fun y => Core.unqueued_killed) ?_ p c
  refine core_dropIncomplete (P := Core.unqueued x.id) (fun y _ _ h => h) ?_ p c x.id
  refine State.core_modCore_keeps (P := Core.unqueued x.id) (fun y h => by exact h) ?_ p c
  refine State.core_modCore_keeps (P := Core.unqueued x.id) (fun y h => by exact h) ?_ p c
  refine State.core_modCore_est (P := Core.unqueued x.id) (fun y k hk gang => ?_) (fun k hk => absurd hk List.not_mem_nil) s p c
  obtain ⟨k', hk', rfl⟩ := List.mem_map.1 hk
  have stays := (List.mem_filter.1 hk').2
  intro waits
  have gang' : k'.gang = x.id := gang
  have waits' : k'.start = none := waits
  simp [gang', waits'] at stays

theorem unqueued_killOnCore_keeps {s : State} {g q d : Nat} (h : (s.core q d).unqueued g) (x : Gang) (p c : Nat) :
    ((s.killOnCore x p c).core q d).unqueued g := by
  rw [State.killOnCore_eq]
  refine State.core_modCore_keeps (P := Core.unqueued g) (fun y => Core.unqueued_killed) ?_ p c
  refine core_dropIncomplete (P := Core.unqueued g) (fun y _ _ h => h) ?_ p c x.id
  refine State.core_modCore_keeps (P := Core.unqueued g) (fun y h => by exact h) ?_ p c
  refine State.core_modCore_keeps (P := Core.unqueued g) (fun y h => by exact h) ?_ p c
  refine State.core_modCore_keeps (P := Core.unqueued g) (fun y un k hk gang => ?_) h p c
  obtain ⟨k', hk', rfl⟩ := List.mem_map.1 hk
  exact un k' (List.mem_filter.1 hk').1 gang

theorem idleFor_killOnCore (s : State) (x : Gang) (p c : Nat) : ((s.killOnCore x p c).core p c).idleFor (s.ofGang x.id) := by
  rw [State.killOnCore_eq]
  exact State.core_modCore_est (P := Core.idleFor (s.ofGang x.id)) (Core.idleFor_killed x.id s.wtc (s.ofGang x.id))
    (fun r hr => nomatch hr) _ p c

/-- A team is of a gang by the teams alone. -/
theorem State.ofGang_congr {s t : State} (h : t.teams = s.teams) (g : Nat) : t.ofGang g = s.ofGang g := by
  funext i
  simp only [State.ofGang, State.team?, h]

theorem Core.idleFor_killed_keeps {mine : Nat → Bool} {y : Core} (h : y.idleFor mine) (g now : Nat) (gone : Nat → Bool) :
    (y.killed g now gone).idleFor mine := by
  intro r hr
  refine h r ?_
  unfold Core.killed at hr
  dsimp only at hr
  split at hr
  · split at hr
    · cases hr
    · exact hr
  · exact hr

theorem idleFor_killOnCore_keeps {s : State} {mine : Nat → Bool} {q d : Nat} (h : (s.core q d).idleFor mine) (x : Gang) (p c : Nat) :
    ((s.killOnCore x p c).core q d).idleFor mine := by
  rw [State.killOnCore_eq]
  refine State.core_modCore_keeps (P := Core.idleFor mine) (fun y un => Core.idleFor_killed_keeps un _ _ _) ?_ p c
  refine core_dropIncomplete (P := Core.idleFor mine) (fun y _ _ h => h) ?_ p c x.id
  refine State.core_modCore_keeps (P := Core.idleFor mine) (fun y h => by exact h) ?_ p c
  refine State.core_modCore_keeps (P := Core.idleFor mine) (fun y h => by exact h) ?_ p c
  exact State.core_modCore_keeps (P := Core.idleFor mine) (fun y h => by exact h) h p c

/-- A core loses what it has of a gang. -/
def State.giveUp (x : Gang) (s : State) (c : Nat × Nat) : State := s.killOnCore x c.1 c.2

theorem coresOnly_giveUp (x : Gang) (s : State) (c : Nat × Nat) : CoresOnly s (s.giveUp x c) := coresOnly_killOnCore ..

/-- A core has given up a gang: no card of it waits to start there, and no clause of its teams is in progress. -/
def givenUp (g : Nat) (c : Nat × Nat) (s : State) : Prop :=
  (s.core c.1 c.2).unqueued g ∧ (s.core c.1 c.2).idleFor (s.ofGang g)

/-- What the cores have lost when each of the gang's has given it up. -/
theorem killCores_spec (s : State) (x : Gang) (l : List (Nat × Nat)) :
    let t := l.foldl (State.giveUp x) s
    CoresOnly s t ∧ ∀ c ∈ l, (t.core c.1 c.2).unqueued x.id ∧ (t.core c.1 c.2).idleFor (s.ofGang x.id) := by
  have own (s : State) (c : Nat × Nat) : (s.giveUp x c).ofGang x.id = s.ofGang x.id :=
    State.ofGang_congr (coresOnly_giveUp x s c).teams x.id
  have frame : CoresOnly s (l.foldl (State.giveUp x) s) := CoresOnly.foldl (coresOnly_giveUp x) l s
  have est (s : State) (c : Nat × Nat) : givenUp x.id c (s.giveUp x c) := by
    refine ⟨unqueued_killOnCore s x c.1 c.2, ?_⟩
    rw [own]
    exact idleFor_killOnCore s x c.1 c.2
  have keep (s : State) (c d : Nat × Nat) (h : givenUp x.id d s) : givenUp x.id d (s.giveUp x c) := by
    refine ⟨unqueued_killOnCore_keeps h.1 x c.1 c.2, ?_⟩
    rw [own]
    exact idleFor_killOnCore_keeps h.2 x c.1 c.2
  refine ⟨frame, fun c hc => ?_⟩
  rw [← State.ofGang_congr frame.teams x.id]
  exact foldl_establishes (f := State.giveUp x) (P := givenUp x.id) est keep l s c hc

/-! ### The flights -/

/-- No lane of a flight is held by the tag board. -/
def Flight.released (f : Flight) : Prop := ∀ q ∈ f.lanes, q.st ≠ .held

/-- The held lanes of a flight are done. -/
def State.letGo (s : State) (i : Nat) : State :=
  (s.modLanes i fun q => if q.st = .held then { q with st := .done } else q).settle i

/-- What teams keep as flights end: where they stand, and whether they go on. -/
def Team.standing (z : Team) : Nat × Place × Bool × Bool × List Wait × List TeamEvent := (z.id, z.pl, z.ended, z.stopped, z.waits, z.events)

/-- A flight that is not over stays; one that is leaves, with its count unless it stored (R48). -/
theorem State.settle_cases (s : State) (i : Nat) : s.settle i = s ∨ s.settle i = { s with flights := s.flights.filter (·.id ≠ i) } ∨
    ∃ j k, s.settle i = ({ s with flights := s.flights.filter (·.id ≠ i) } : State).modTeam j (·.decSb k) := by
  unfold State.settle
  split
  · exact .inl rfl
  · split
    · exact .inl rfl
    · dsimp only
      split
      · exact .inr (.inl rfl)
      · exact .inr (.inr ⟨_, _, rfl⟩)

/-- A state some flights have left: no other flight is held, and teams stand as they stood. -/
structure LetGo (i : Option Nat) (s t : State) : Prop where
  frame : t = { s with flights := t.flights, teams := t.teams }
  teams : t.teams.map Team.standing = s.teams.map Team.standing
  flights : ∀ h ∈ t.flights, (i = some h.id → h.released) ∧ ∃ f ∈ s.flights, f.id = h.id ∧ f.gang = h.gang ∧ (f.released → h.released)

theorem letGo_lanes (s : State) (i : Nat) :
    LetGo (some i) s (s.modLanes i fun q => if q.st = .held then { q with st := .done } else q) := by
  refine ⟨rfl, rfl, fun h hh => ?_⟩
  obtain ⟨f, hf, rfl⟩ := List.mem_map.1 hh
  split
  · next here =>
    have free : Flight.released { f with lanes := f.lanes.map fun q => if q.st = .held then { q with st := .done } else q } := by
      intro q hq
      obtain ⟨q', -, rfl⟩ := List.mem_map.1 hq
      split
      · exact fun held => by cases held
      · next other => exact other
    exact ⟨fun _ => free, f, hf, rfl, rfl, fun _ => free⟩
  · next other => exact ⟨fun here => absurd (Option.some.inj here).symm other, f, hf, rfl, rfl, id⟩

theorem LetGo.settle {i : Option Nat} {s u : State} (h : LetGo i s u) (j : Nat) : LetGo i s (u.settle j) := by
  obtain ⟨frame, teams, flights⟩ := h
  rcases u.settle_cases j with same | gone | ⟨k, n, counted⟩
  · rw [same]
    exact ⟨frame, teams, flights⟩
  · rw [gone]
    exact ⟨by rw [frame], teams, fun h hh => flights h (List.mem_filter.1 hh).1⟩
  · rw [counted]
    refine ⟨?_, ?_, fun h hh => flights h (List.mem_filter.1 hh).1⟩
    · rw [frame]
      rfl
    · rw [← teams, State.modTeam_teams, List.map_map]
      refine List.map_congr_left fun z _ => ?_
      simp only [Function.comp]
      split <;> rfl

theorem letGo_spec (s : State) (i : Nat) : LetGo (some i) s (s.letGo i) := (letGo_lanes s i).settle i

/-- No flight of a gang is held once each has been let go; teams stand as they stood. -/
theorem letGo_all (s : State) (g : Nat) : let t := (s.flights.filter (·.gang = g)).foldl (fun s f => s.letGo f.id) s
    LetGo none s t ∧ ∀ h ∈ t.flights, h.gang = g → h.released := by
  have all (l : List Flight) (s : State) : LetGo none s (l.foldl (fun s f => s.letGo f.id) s) := by
    induction l generalizing s with
    | nil => exact ⟨rfl, rfl, fun h hh => ⟨nofun, h, hh, rfl, rfl, id⟩⟩
    | cons f l ih =>
      obtain ⟨frame, teams, flights⟩ := letGo_spec s f.id
      obtain ⟨frame', teams', flights'⟩ := ih (s.letGo f.id)
      refine ⟨by rw [List.foldl_cons, frame', frame], teams'.trans teams, fun h hh => ⟨nofun, ?_⟩⟩
      obtain ⟨-, f', hf', id', gang', keeps'⟩ := flights' h hh
      obtain ⟨-, f, hf, id, gang, keeps⟩ := flights f' hf'
      exact ⟨f, hf, id.trans id', gang.trans gang', keeps' ∘ keeps⟩
  have each := foldl_establishes (f := fun (s : State) (f : Flight) => s.letGo f.id) (P := fun f s => ∀ h ∈ s.flights, h.id = f.id → h.released)
    (fun s f h hh same => ((letGo_spec s f.id).flights h hh).1 (congrArg some same.symm))
    (fun s f f' before h hh same => by
      obtain ⟨-, f'', hf, id, -, keeps⟩ := (letGo_spec s f.id).flights h hh
      exact keeps (before f'' hf (id.trans same))) (s.flights.filter (·.gang = g)) s
  refine ⟨all _ s, fun h hh gang => ?_⟩
  obtain ⟨-, f, hf, id, same, -⟩ := (all _ s).flights h hh
  exact each f (List.mem_filter.2 ⟨hf, by simp [same, gang]⟩) h hh id.symm

end Sys2Proof.Machine
end

section
/-! GANG_KILL (R322), put together. -/

namespace Sys2Proof.Machine

/-- Where a team stands. -/
def Team.place (z : Team) : Nat × Place := (z.id, z.pl)

/-- Which teams are of a gang, by where teams stand. -/
theorem ofGang_of_places {s t : State} (h : t.teams.map Team.place = s.teams.map Team.place) (g : Nat) : t.ofGang g = s.ofGang g := by
  funext i
  have found (s : State) : s.ofGang g i = match (s.teams.map Team.place).find? (·.1 = i) with
      | some z => z.2.gang = g
      | none => false := by
    rw [List.find?_map, State.ofGang, State.team?]
    change _ = match (s.teams.find? fun z => decide (z.id = i)).map Team.place with
      | some z => decide (z.2.gang = g)
      | none => false
    cases s.teams.find? fun z => decide (z.id = i) <;> rfl
  rw [found t, found s, h]

theorem gang_ne_of_ofGang {s : State} {g i : Nat} (h : s.ofGang g i = false) : ∀ z ∈ s.team? i, z.pl.gang ≠ g := by
  intro z hz
  rw [State.ofGang, Option.mem_def.1 hz] at h
  exact of_decide_eq_false h

theorem dropSwitch_keeps (s : State) (g : Nat) : let t := s.dropSwitch g
    t.teams = s.teams ∧ t.cores = s.cores ∧ t.flights = s.flights ∧ t.records = s.records := by
  unfold State.dropSwitch State.respondTo
  split
  · exact ⟨rfl, rfl, rfl, rfl⟩
  · split <;> exact ⟨rfl, rfl, rfl, rfl⟩

/-- A team of a gang that is killed: it has stopped and ended, waits for nothing and has no event. -/
def Team.killed (z : Team) : Team := { z with stopped := true, ended := true, waits := [], events := [] }

/-- The teams of a gang are killed. -/
def State.killTeams (s : State) (g : Nat) : State :=
  { s with teams := s.teams.map fun t => if t.pl.gang = g then t.killed else t }

theorem killTeams_places (s : State) (g : Nat) : (s.killTeams g).teams.map Team.place = s.teams.map Team.place := by
  rw [State.killTeams, List.map_map]
  refine List.map_congr_left fun z _ => ?_
  simp only [Function.comp]
  split <;> rfl

theorem killTeams_killed (s : State) (g : Nat) : ∀ z ∈ (s.killTeams g).teams, z.pl.gang = g →
    z.ended = true ∧ z.stopped = true ∧ z.waits = [] ∧ z.events = [] := by
  intro z hz gang
  obtain ⟨y, -, rfl⟩ := List.mem_map.1 hz
  split at gang
  · next here =>
    rw [if_pos here]
    exact ⟨rfl, rfl, rfl, rfl⟩
  · next other => exact absurd gang other

/-- The faults of the gang's teams and its kill are recorded. -/
def State.killNoted (s : State) (x : Gang) : State :=
  ((s.teams.filter (·.pl.gang = x.id)).foldl (fun s t => s.dropEvents t) s).killRecords x

/-- What of the gang is gone behind its cores' losses. -/
def State.killedWork (s : State) (x : Gang) : State := ((s.gangCores x.id).foldl (State.giveUp x) s).killTeams x.id

/-- Its flights are let go. -/
def State.flightsGone (s : State) (g : Nat) : State := (s.flights.filter (·.gang = g)).foldl (fun s f => s.letGo f.id) s

theorem State.killNow_eq (s : State) (x : Gang) : s.killNow x =
    ((((((s.killNoted x).killedWork x).flightsGone x.id).dropSwitch x.id).modGang x.id fun y => { y with wdog := none, fills := [] }).checkRounds
      x.id) := rfl

theorem killNoted_spec (s : State) (x : Gang) : ∃ rs, Recorded rs s (s.killNoted x) ∧ ∀ c ∈ s.gangCores x.id, ∃ r ∈ rs,
    r.pkg = c.1 ∧ r.core = c.2 ∧ r.wtc = s.wtc ∧ r.cause = cTLX ∧ r.level = 3 ∧ r.ctx = x.ctx ∧ r.tval = x.killCause ∧ r.imp = x.killImp := by
  obtain ⟨rs, faults⟩ := dropAll_recorded (s.teams.filter (·.pl.gang = x.id)) s
  obtain ⟨rs', kills, each⟩ := ((s.teams.filter (·.pl.gang = x.id)).foldl (fun s t => s.dropEvents t) s).killRecords_spec x
  refine ⟨_, faults.append kills, fun c hc => ?_⟩
  have there : c ∈ ((s.teams.filter (·.pl.gang = x.id)).foldl (fun s t => s.dropEvents t) s).gangCores x.id := by
    rw [State.gangCores, faults.teams]
    exact hc
  obtain ⟨r, hr, pkg, core, wtc, rest⟩ := each c there
  exact ⟨r, List.mem_append_right _ hr, pkg, core, wtc.trans faults.wtc, rest⟩

/-- A killed gang has no switch to wait for, no watchdog and no fill; its end may complete rounds of others. -/
def State.killClosed (s : State) (g : Nat) : State :=
  ((s.dropSwitch g).modGang g fun y => { y with wdog := none, fills := [] }).checkRounds g

theorem killClosed_keeps (s : State) (g : Nat) : (s.killClosed g).teams = s.teams ∧ (s.killClosed g).cores = s.cores ∧
    (s.killClosed g).flights = s.flights ∧ (s.killClosed g).records = s.records := by
  obtain ⟨teams, cores, flights, records⟩ := dropSwitch_keeps s g
  unfold State.killClosed
  generalize eq : (s.dropSwitch g).modGang g (fun y => { y with wdog := none, fills := [] }) = u
  obtain ⟨teams', cores', flights', records'⟩ := (sent_checkRounds u g).keeps
  rw [teams', cores', flights', records', ← eq]
  exact ⟨teams, cores, flights, records⟩

theorem State.killNow_closed (s : State) (x : Gang) :
    s.killNow x = (((s.killNoted x).killedWork x).flightsGone x.id).killClosed x.id := s.killNow_eq x

/-- What a kill leaves of a gang (R322). -/
theorem killNow_spec (s : State) (x : Gang) : let t := s.killNow x
    (∀ z ∈ t.teams, z.pl.gang = x.id → z.ended = true ∧ z.stopped = true ∧ z.waits = [] ∧ z.events = []) ∧
    (∀ c ∈ s.gangCores x.id,
      (∃ r ∈ t.records, r.pkg = c.1 ∧ r.core = c.2 ∧ r.wtc = s.wtc ∧ r.cause = cTLX ∧ r.level = 3 ∧ r.ctx = x.ctx ∧
        r.tval = x.killCause ∧ r.imp = x.killImp) ∧
      (∀ k ∈ (t.core c.1 c.2).cards, k.gang = x.id → k.start ≠ none) ∧
      (∀ r ∈ (t.core c.1 c.2).run, ∀ z ∈ t.team? r.team, z.pl.gang ≠ x.id)) ∧
    ∀ f ∈ t.flights, f.gang = x.id → ∀ q ∈ f.lanes, q.st ≠ .held := by
  obtain ⟨rs, noted, each⟩ := killNoted_spec s x
  rw [State.killNow_closed]
  generalize s.killNoted x = s1 at noted ⊢
  have there : s1.gangCores x.id = s.gangCores x.id := by rw [State.gangCores, noted.teams, State.gangCores]
  obtain ⟨teams, cores, flights, records⟩ := killClosed_keeps ((s1.killedWork x).flightsGone x.id) x.id
  obtain ⟨gone, released⟩ := letGo_all (s1.killedWork x) x.id
  obtain ⟨lost, losses⟩ := killCores_spec s1 x (s1.gangCores x.id)
  have killed := killTeams_killed ((s1.gangCores x.id).foldl (State.giveUp x) s1) x.id
  have places := killTeams_places ((s1.gangCores x.id).foldl (State.giveUp x) s1) x.id
  change LetGo none (s1.killedWork x) ((s1.killedWork x).flightsGone x.id) at gone
  change ∀ h ∈ ((s1.killedWork x).flightsGone x.id).flights, _ at released
  generalize (s1.killedWork x).flightsGone x.id = s4 at *
  have cores4 : s4.cores = (s1.killedWork x).cores := by rw [gone.frame]
  have records4 : s4.records = s1.records := by
    rw [gone.frame]
    change ((s1.gangCores x.id).foldl (State.giveUp x) s1).records = _
    rw [lost.frame]
  have standing : (s4.killClosed x.id).teams.map Team.standing = (s1.killedWork x).teams.map Team.standing := by
    rw [teams, gone.teams]
  refine ⟨fun z hz gang => ?_, fun c hc => ⟨?_, ?_, fun r hr => ?_⟩, ?_⟩
  · have listed : z.standing ∈ (s1.killedWork x).teams.map Team.standing := standing ▸ List.mem_map_of_mem hz
    obtain ⟨y, hy, same⟩ := List.mem_map.1 listed
    simp only [Team.standing, Prod.mk.injEq] at same
    obtain ⟨-, place, ended, stopped, waits, events⟩ := same
    rw [← ended, ← stopped, ← waits, ← events]
    exact killed y hy (place ▸ gang)
  · obtain ⟨r, hr, fields⟩ := each c hc
    exact ⟨r, by rw [records, records4, noted.records]; exact List.mem_append_right _ hr, fields⟩
  · rw [State.core, cores, cores4]
    exact (losses c (there ▸ hc)).1
  · rw [State.core, cores, cores4] at hr
    have idle := (losses c (there ▸ hc)).2 r hr
    have same : (s4.killClosed x.id).ofGang x.id = s1.ofGang x.id := by
      refine ofGang_of_places ?_ x.id
      have placed := congrArg (List.map fun z => (z.1, z.2.1)) standing
      rw [List.map_map, List.map_map] at placed
      refine placed.trans (places.trans ?_)
      rw [lost.teams]
    exact gang_ne_of_ofGang (same ▸ idle)
  · rw [flights]
    exact released

/-- A gang that is to be killed now, for a cause. -/
def Gang.killNow (now cause : Nat) (y : Gang) : Gang := { y with killAt := some now, killCause := BitVec.ofNat 32 cause }

/-- GANG_KILL in the cycle of the kill, or at once where none is asked for (R322). -/
theorem exec_gangKill {s : State} {g cause : Nat} {x : Gang} (own : s.gang? g = some x) (ended : x.ended = 0)
    (due : ∀ k ∈ x.killAt, k = s.wtc) : exec (.gangKill g cause) s = .next (if x.killAt = none then
      (s.modGang g (Gang.killNow s.wtc cause)).killNow (x.killNow s.wtc cause) else s.killNow x) := by
  change execGangKill g cause s = _
  cases at_ : x.killAt with
  | none =>
    simp only [execGangKill, own, ended, at_, ne_eq, not_true_eq_false, if_false, if_true]
    rfl
  | some k =>
    obtain rfl := due k at_
    simp only [execGangKill, own, ended, at_, ne_eq, not_true_eq_false, if_false, if_true, reduceCtorEq]

theorem gangKill_completes (s : State) (g cause : Nat) : ∃ t, exec (.gangKill g cause) s = .next t := by
  change ∃ t, execGangKill g cause s = .next t
  unfold execGangKill
  split
  · exact ⟨_, rfl⟩
  · split
    · exact ⟨_, rfl⟩
    · split <;> exact ⟨_, rfl⟩

theorem kill_gives (s : State) (g cause : Nat) : Gives (.gangKill g cause) s (killRule g cause) := by
  obtain ⟨t, done⟩ := gangKill_completes s g cause
  refine ⟨t, done, fun x own ended due => ?_⟩
  have killed := done.symm.trans (exec_gangKill own ended due)
  obtain rfl := Host.Outcome.next.inj killed
  have id : x.id = g := by simpa using List.find?_some own
  cases at_ : x.killAt with
  | none =>
    obtain ⟨teams, cores, flights⟩ := killNow_spec (s.modGang g (Gang.killNow s.wtc cause)) (x.killNow s.wtc cause)
    rw [show (x.killNow s.wtc cause).id = g from id] at teams cores flights
    simp only [if_true]
    exact ⟨teams, fun c hc _ => cores c hc, flights⟩
  | some k =>
    obtain ⟨teams, cores, flights⟩ := killNow_spec s x
    rw [id] at teams cores flights
    simp only [reduceCtorEq, if_false]
    exact ⟨teams, fun c hc _ => cores c hc, flights⟩

end Sys2Proof.Machine

namespace Sys2Proof
open Machine

/-- Settles O45, event by event, and for the order in which events are taken. -/
theorem trapSteps : Obligations.TrapSteps := fun s n cause =>
  ⟨entry_gives s n, kill_gives s n cause, killed_gives s n, watchdog_gives s n, fun m _ x => orderRule_holds m x s⟩

end Sys2Proof
end

section
/-! CLAUSE_START does not leave its team's CSRs alone: the fetch of a clause is a read of memory, to watchpoints one that is no lane of
the team's (entry 97), and where the image stands in the LS of the team's block and the team watches reads there, the fetch leaves its
record in the team's own WPHIT (R162, R324, R325). -/

namespace Sys2Proof.Machine

/-- A one-warp team on core 0 whose watchpoint covers the reads of the first four bytes of its block's LS. -/
def selfWatcher : Team :=
  { Team.start 1 ⟨0, 0, 0, 0, 0, 2, 1, 8, 64, 4096, 0, 0, 0, 0, 1, 0, 1, 1⟩ 0 0 with csr := { TeamCsr.reset with wpctl := 35 } }

/-- The machine as the team's first clause is about to start: its gang's image begins at virtual address 0, which the context's one
range maps to the start of the LS of core 0. -/
def imageInLs : State :=
  { State.reset with
    wtc := 200
    teams := [selfWatcher]
    gangs := [loaderGang 2 0]
    ctxs := [⟨0, 0, true, [⟨0, 4096, lsPa 0 0, true, true, true, true, true, 0, 0⟩], 0, 0, 0, 0, []⟩] }

theorem nextTeam_imageInLs : imageInLs.nextTeam 0 0 = some selfWatcher := by decide +kernel

theorem team?_imageInLs : imageInLs.team? 1 = some selfWatcher := by decide +kernel

/-- The fetch of the header is a hit of cycle 200 by core 0 as no lane of the team's. -/
theorem wphit_clauseStart : ((imageInLs.startClause selfWatcher).team? 1).map (·.csr) =
    some { selfWatcher.csr with wphit := BitVec.ofNat 32 (1 + 200 * 2 ^ 16) } := by decide +kernel

theorem exec_clauseStart_imageInLs : exec (.clauseStart 0 0) imageInLs = .next (imageInLs.startClause selfWatcher) := by
  change execClauseStart 0 0 imageInLs = _
  rw [execClauseStart, nextTeam_imageInLs]

end Sys2Proof.Machine

namespace Sys2Proof
open Machine

/-- Refutes O49: the start of a clause whose header the team watches in its own LS changes the team's WPHIT. -/
theorem not_launchSteps : ¬ Obligations.LaunchSteps := by
  intro steps
  obtain ⟨⟨t, next, starts⟩, -⟩ := steps imageInLs 0 0
  cases next.symm.trans exec_clauseStart_imageInLs
  obtain ⟨-, team⟩ := starts selfWatcher nextTeam_imageInLs team?_imageInLs (by decide +kernel)
  obtain ⟨z, own, csr⟩ := Option.map_eq_some_iff.1 wphit_clauseStart
  obtain ⟨⟨-, -, -, -, -, same, -⟩, -⟩ := team z own
  exact absurd (csr.symm.trans same) (by decide +kernel)

end Sys2Proof
end
section
/-! What the commit of a pass makes of its memory words (R45, R48, R149 to R155, R168, R187, R208). -/

namespace Sys2Proof.Machine

/-! ### What a step behind a flight leaves alone -/

theorem Marked.team_bare {s t : State} (h : Marked s t) (i : Nat) : (t.team? i).map Team.bare = (s.team? i).map Team.bare := by
  have found (l : List Team) : (l.find? (·.id = i)).map Team.bare = (l.map Team.bare).find? (·.id = i) := by
    rw [List.find?_map]
    rfl
  simp only [State.team?, found, h.teams]

/-- A state behind steps that send and announce: clock, staging and flights are the same, the counters of a team are, and what was
on its way still is. -/
structure Onward (own : Nat) (s t : State) : Prop where
  wtc : t.wtc = s.wtc
  staged : t.staged = s.staged
  flights : t.flights = s.flights
  agenda : s.agenda ⊆ t.agenda
  gathers : s.gathers ⊆ t.gathers
  landings : s.landings ⊆ t.landings
  counters : (t.team? own).map (·.sb) = (s.team? own).map (·.sb)

namespace Onward

theorem of_eq {s t : State} (own : Nat) (wtc : t.wtc = s.wtc) (staged : t.staged = s.staged) (flights : t.flights = s.flights)
    (agenda : t.agenda = s.agenda) (gathers : t.gathers = s.gathers) (landings : t.landings = s.landings) (teams : t.teams = s.teams) :
    Onward own s t :=
  ⟨wtc, staged, flights, agenda ▸ List.Subset.refl _, gathers ▸ List.Subset.refl _, landings ▸ List.Subset.refl _,
    by simp only [State.team?, teams]⟩

theorem refl (own : Nat) (s : State) : Onward own s s := of_eq own rfl rfl rfl rfl rfl rfl rfl

theorem trans {own : Nat} {s t u : State} (h : Onward own s t) (k : Onward own t u) : Onward own s u where
  wtc := k.wtc.trans h.wtc
  staged := k.staged.trans h.staged
  flights := k.flights.trans h.flights
  agenda := List.Subset.trans h.agenda k.agenda
  gathers := List.Subset.trans h.gathers k.gathers
  landings := List.Subset.trans h.landings k.landings
  counters := k.counters.trans h.counters

theorem foldl {α : Type} {own : Nat} {f : State → α → State} (l : List α) (h : ∀ s x, Onward own s (f s x)) (s : State) :
    Onward own s (l.foldl f s) := by
  induction l generalizing s with
  | nil => exact .refl own s
  | cons x l ih => exact (h s x).trans (ih _)

variable (own : Nat) (s : State)

theorem at_ (cyc prio : Nat) (key : List Nat) (i : Instr) : Onward own s (s.at cyc prio key i) :=
  { refl own s with agenda := s.agenda_subset_at cyc prio key i }

theorem fresh : Onward own s s.fresh.2 := of_eq own rfl rfl rfl rfl rfl rfl rfl

theorem modPkg (p : Nat) (f : Pkg → Pkg) : Onward own s (s.modPkg p f) := of_eq own rfl rfl rfl rfl rfl rfl rfl

theorem gatherAt (p cyc : Nat) (key : List Nat) (segs : List (Nat × Seg)) : Onward own s (s.gatherAt p cyc key segs) :=
  { refl own s with
    agenda := s.agenda_subset_at ..
    gathers := List.subset_append_left _ _ }

theorem landAt (i cyc : Nat) (lanes : List Nat) : Onward own s (s.landAt i cyc lanes) := by
  cases lanes with
  | nil => exact refl own s
  | cons l ls => exact { refl own s with agenda := s.agenda_subset_at .., landings := List.subset_append_left _ _ }

theorem marked {s t : State} (h : Marked s t) : Onward own s t where
  wtc := (congrArg State.wtc h.frame :)
  staged := (congrArg State.staged h.frame :)
  flights := (congrArg State.flights h.frame :)
  agenda := (congrArg State.agenda h.frame :) ▸ List.Subset.refl _
  gathers := (congrArg State.gathers h.frame :) ▸ List.Subset.refl _
  landings := (congrArg State.landings h.frame :) ▸ List.Subset.refl _
  counters := by
    have bare := congrArg (Option.map Team.sb) (h.team_bare own)
    rwa [Option.map_map, Option.map_map] at bare

theorem correct (p pa n : Nat) : Onward own s (s.correct p pa n) := by
  have start (l : List Nat) : Onward own s { s with sbe := l } := of_eq own rfl rfl rfl rfl rfl rfl rfl
  exact (start _).trans (foldl _ (fun s _ => marked own (.notice s ..)) _)

theorem correctAcc (p a n : Nat) : Onward own s (s.correctAcc p a n) := by
  have start (l : List Nat) : Onward own s { s with sbe := l } := of_eq own rfl rfl rfl rfl rfl rfl rfl
  exact (start _).trans (foldl _ (fun s _ => marked own (.notice s ..)) _)

theorem reportAt (i : Nat) : Onward own s (s.reportAt i) := by
  unfold State.reportAt
  split
  · exact refl own s
  · exact foldl _ (fun s d => at_ own s ..) s

end Onward

/-- Data on its way lands in its cycle behind such steps too. -/
theorem State.lands_onward {own : Nat} {s t : State} (h : Onward own s t) {f lane cyc : Nat} : s.lands f lane cyc → t.lands f lane cyc :=
  fun ⟨y, hy, same, mem, planned⟩ => ⟨y, h.landings hy, same, mem, State.planned_of_subset h.agenda planned⟩

theorem State.lands_landAt (s : State) (i cyc : Nat) {lanes : List Nat} {l : Nat} (h : l ∈ lanes) : (s.landAt i cyc lanes).lands i l cyc := by
  cases lanes with
  | nil => exact absurd h List.not_mem_nil
  | cons x xs =>
    exact ⟨⟨s.nextId, i, x :: xs⟩, List.mem_append_right _ (List.mem_singleton.2 rfl), rfl, h, State.planned_at ..⟩

/-! ### A flight put behind the others -/

/-- The flights are some, and last one of another number. -/
structure Last (s : State) (l : List Flight) (f : Flight) : Prop where
  flights : s.flights = l ++ [f]
  fresh : ∀ g ∈ l, g.id ≠ f.id

theorem Last.flight? {s : State} {l : List Flight} {f : Flight} (h : Last s l f) : s.flight? f.id = some f := by
  have none : l.find? (·.id = f.id) = Option.none := List.find?_eq_none.2 fun g hg => by simpa using h.fresh g hg
  simp [State.flight?, h.flights, none]

theorem Last.onward {own : Nat} {s t : State} {l : List Flight} {f : Flight} (h : Last s l f) (k : Onward own s t) : Last t l f :=
  ⟨k.flights.trans h.flights, h.fresh⟩

theorem Last.modLanes {s : State} {l : List Flight} {f : Flight} (h : Last s l f) (g : LaneReq → LaneReq) :
    Last (s.modLanes f.id g) l { f with lanes := f.lanes.map g } := by
  refine ⟨?_, h.fresh⟩
  have kept : l.map (fun x => if x.id = f.id then { x with lanes := x.lanes.map g } else x) = l :=
    (List.map_congr_left fun x hx => if_neg (h.fresh x hx)).trans (List.map_id _)
  simp only [State.modLanes, State.modFlight, h.flights, List.map_append, kept, List.map_cons, if_true, List.map_nil]

theorem distinct_mem {α : Type} [DecidableEq α] {l : List α} {a : α} : a ∈ distinct l ↔ a ∈ l := by
  induction l with
  | nil => rfl
  | cons b l ih =>
    by_cases same : a = b
    · simp [distinct, same]
    · simp [distinct, same, ih]

/-- A known fault of a lane is reported in its cycle. -/
theorem Last.reportAt {s : State} {l : List Flight} {f : Flight} (h : Last s l f) {q : LaneReq} (hq : q ∈ f.lanes) (bad : q.failed = true) :
    (s.reportAt f.id).planned q.due (.faultReport f.id) := by
  simp only [State.reportAt, h.flight?]
  refine foldl_establishes (f := fun (s : State) d => s.at d pLand [f.id] (.faultReport f.id))
    (P := fun d (s : State) => s.planned d (.faultReport f.id)) (fun s d => s.planned_at ..)
    (fun s x y planned => State.planned_of_subset (s.agenda_subset_at ..) planned) _ s _ ?_
  exact distinct_mem.2 (List.mem_map_of_mem (List.mem_filter.2 ⟨hq, bad⟩))

end Sys2Proof.Machine
end

section
namespace Sys2Proof.Machine

/-! ### A memory word as it leaves the core (R45) -/

/-- The flight of a memory word at its commit, its lanes as the word asked for them. -/
def State.flightOf (s : State) (t : Team) (hdr pass : Nat) (m : MemAct) : Flight :=
  ⟨s.nextId, t.id, t.pl.gang, s.gangCtx t.pl.gang, t.pl.pkg, t.pl.core, t.pl.slot, m.kind, m.space, m.n, m.sx, m.aop, m.d, m.sb,
    s.wtc, t.tl, hdr, pass, m.pos, t.wordsDone + m.nth + 1, t.csr.rseq.toNat, m.zero,
    if (match s.gang? t.pl.gang with | some g => g.desc.flags / 2 % 2 = 1 | none => false) && t.region
      then some (t.pl.block, t.rounds) else none, m.lanes⟩

/-- A flight joins the others, and its counter rises unless it is a store's (R48). -/
def State.addFlight (s : State) (t : Team) (m : MemAct) (f : Flight) : State :=
  let s : State := { s with flights := s.flights ++ [f] }
  if f.kind = .store then s else s.modTeam t.id (·.incSb m.sb)

theorem State.applyAct_mem_word {r : Run} (h : r.failed = []) (s : State) (m : Team) (c : Cur) (last : Bool) (a : MemAct) :
    s.applyAct m c r last (.mem a) = s.issueMem m c.hdr c.pass a := by
  have lanes : a.lanes.map (fun q => match (if a.space = 1 then r.failed.find? (·.1 = q.va / 4096) else none) with
      | some z => { q with st := .unmapped, got := z.2, due := s.wtc + 1 }
      | none => q) = a.lanes := by
    refine (List.map_congr_left fun q _ => ?_).trans (List.map_id _)
    simp [h]
  exact congrArg (fun l => s.issueMem m c.hdr c.pass { a with lanes := l }) lanes

theorem counted_of_modify {m : Team} {k : Nat} {t : State} (hk : k < m.sb.length)
    (h : (t.team? m.id).map (·.sb) = some (m.sb.modify k (· + 1))) : counted m k 1 t := by
  intro z hz
  rw [Option.mem_def.1 hz] at h
  have sb : z.sb = m.sb.modify k (· + 1) := Option.some.inj h
  simp [sb, List.getD_eq_getElem?_getD, hk]

theorem counted_of_same {m : Team} {t : State} (h : (t.team? m.id).map (·.sb) = some m.sb) (k : Nat) : counted m k 0 t := by
  intro z hz
  rw [Option.mem_def.1 hz] at h
  have sb : z.sb = m.sb := Option.some.inj h
  rw [sb, Nat.add_zero]

/-- What a flight of another kind than a store adds to a state whose flights have lower numbers. -/
structure Added (s t : State) (m : Team) (a : MemAct) (f : Flight) : Prop where
  last : Last t s.flights f
  number : f.id = s.nextId
  wtc : t.wtc = s.wtc
  staged : t.staged = s.staged
  counters : (t.team? m.id).map (·.sb) = some (if f.kind = .store then m.sb else m.sb.modify a.sb (· + 1))

theorem State.addFlight_added {s u : State} {m : Team} {a : MemAct} (h : s.committing m a) (k : Onward m.id s u) {f : Flight}
    (number : f.id = s.nextId) : Added s (u.addFlight m a f) m a f := by
  obtain ⟨own, -, -, -, -, -, -, below⟩ := h
  have fresh : ∀ g ∈ s.flights, g.id ≠ f.id := fun g hg => by
    have := below g hg
    omega
  have joined : u.flights ++ [f] = s.flights ++ [f] := congrArg (· ++ [f]) k.flights
  have before : (u.team? m.id).map (·.sb) = some m.sb := k.counters.trans (congrArg (Option.map Team.sb) own)
  unfold State.addFlight
  split
  · next store =>
    refine ⟨⟨joined, fresh⟩, number, k.wtc, k.staged, ?_⟩
    rw [if_pos store]
    exact before
  · next other =>
    refine ⟨⟨joined, fresh⟩, number, k.wtc, k.staged, ?_⟩
    have now := State.team?_modTeam { u with flights := u.flights ++ [f] } m.id m.id (Team.incSb · a.sb) fun _ => rfl
    rw [if_pos rfl] at now
    rw [if_neg other]
    refine (congrArg (Option.map Team.sb) now).trans ?_
    have counted := congrArg (Option.map fun l : List Nat => l.modify a.sb (· + 1)) before
    rw [Option.map_map] at counted
    rw [Option.map_map]
    exact counted

theorem Added.onward {s t u : State} {m : Team} {a : MemAct} {f : Flight} (h : Added s t m a f) (k : Onward m.id t u) : Added s u m a f where
  last := h.last.onward k
  number := h.number
  wtc := k.wtc.trans h.wtc
  staged := k.staged.trans h.staged
  counters := k.counters.trans h.counters

theorem Added.flies {s t : State} {m : Team} {a : MemAct} {f : Flight} (h : Added s t m a f) : flies s t f := ⟨h.last.flights, h.number⟩

theorem Added.counted {s t : State} {m : Team} {a : MemAct} {f : Flight} (h : Added s t m a f) (hk : a.sb < m.sb.length) :
    counted m a.sb (if f.kind = .store then 0 else 1) t := by
  have sb := h.counters
  split at sb
  · next store =>
    rw [if_pos store]
    exact counted_of_same sb _
  · next other =>
    rw [if_neg other]
    exact counted_of_modify hk sb

/-! ### Own words (R149, R150, R162) -/

/-- A word of the team's block or accumulator tiles is staged under the next number, and its step is on the agenda. -/
theorem State.stageOp_staged (s : State) (team p core c base level : Nat) (o : Origin) (op : StagedOp) :
    let t := s.stageOp team p core c base level o op
    t.staged = s.staged ++ [⟨s.nextId, team, p, core, c, base, level, o, op⟩] ∧ t.flights = s.flights ∧ t.teams = s.teams ∧
      ((∃ l, op = .bytes l) → t.planned (c + 20) (.stagedStorePerformed s.nextId)) ∧
      ((∃ l, op = .acc l) → t.planned (c + 1) (.stagedStorePerformed s.nextId)) ∧
      ((∃ f, op = .atomic f) → t.planned (c + 20) (.lsAtomicPerformed s.nextId)) := by
  refine ⟨rfl, rfl, rfl, ?_, ?_, ?_⟩ <;>
  · rintro ⟨l, rfl⟩
    exact State.planned_at ..

/-- A staged atomic of a team is to be performed on one of n bytes. -/
def State.stagedOn (s : State) (team off n : Nat) (e : Staged) : Bool :=
  e.team = team && match e.op.flight.bind s.flight? with
    | some f => f.lanes.any fun r => r.va < off + n && off < r.va + 4
    | none => false

theorem foldl_max_le {α : Type} (g : α → Nat) (l : List α) (b n : Nat) :
    l.foldl (fun x q => max x (g q)) b ≤ n ↔ b ≤ n ∧ ∀ q ∈ l, g q ≤ n := by
  induction l generalizing b with
  | nil => simp
  | cons q l ih => rw [List.foldl_cons, ih, Nat.max_le, List.forall_mem_cons, and_assoc]

/-- A bound on the cycles in which a team's staged atomics on some bytes are performed. -/
theorem State.atomicDue_le {s : State} (below : ∀ e ∈ s.staged, e.id < s.nextId) (team off n k : Nat) :
    s.atomicDue team s.nextId off n ≤ k ↔ ∀ e ∈ s.staged, s.stagedOn team off n e = true → e.s + 20 ≤ k := by
  have due : s.atomicDue team s.nextId off n = (s.staged.filter (s.stagedOn team off n)).foldl (fun x e => max x (e.s + 20)) 0 := by
    rw [List.foldl_filter, State.atomicDue]
    refine List.foldl_ext _ _ _ fun x e he => ?_
    have low := below e he
    cases kind : e.op with
    | atomic i => cases found : s.flight? i <;> simp [State.stagedOn, StagedOp.flight, kind, found, low]
    | _ => simp [State.stagedOn, StagedOp.flight, kind]
  simp only [due, foldl_max_le, Nat.zero_le, true_and, List.mem_filter, and_imp]

end Sys2Proof.Machine
end

section
namespace Sys2Proof.Machine

/-- An own load reads its lanes now (R149, R150, R162): the lane with its bytes, or with the error under them. -/
def State.readOwn (s : State) (m : Team) (a : MemAct) (q : LaneReq) : LaneReq :=
  let home := lsPa m.pl.core (m.pl.lsBase + q.va)
  if s.uceAt m.pl.pkg home a.n then { q with home := home, st := .err, got := cUCE, due := s.wtc }
  else { q with home := home, st := .performed,
                got := (s.ownRead' m.pl.pkg m.pl.core m.pl.lsBase m.id s.nextId q.va a.n).1 }

/-- The cycle the data of an own load lands in, by the staged atomics each of its lanes waits for (R150). -/
def State.ownLands (s : State) (m : Team) (a : MemAct) : Nat :=
  let late := a.lanes.foldl (fun x q => max x (s.atomicDue m.id s.nextId q.va a.n)) 0
  max (s.wtc + 12) (if late = 0 then 0 else late + 4)

/-- An own read meets the watchpoints and single-bit errors on its bytes. -/
def State.meetOwn (s : State) (m : Team) (a : MemAct) (f : Flight) : State :=
  a.lanes.foldl (fun s q => (s.correct m.pl.pkg (lsPa m.pl.core (m.pl.lsBase + q.va)) a.n).watch m.pl.pkg m.pl.core
    (m.pl.lsBase + q.va) a.n false f.agent) s

section
variable {s : State} {m : Team} {a : MemAct} (hdr pass : Nat) (some_lane : a.lanes ≠ [])
include some_lane

theorem State.issueMem_own_store (own : a.space = 0) (store : a.kind = .store) :
    s.issueMem m hdr pass a = s.fresh.2.stageOp m.id m.pl.pkg m.pl.core s.wtc m.pl.lsBase m.tl
      ⟨m.wordsDone + a.nth + 1, hdr, pass, a.pos⟩ (.bytes (a.lanes.map fun q => (q.va, natBytes a.n q.data))) := by
  obtain ⟨pos, nth, kind, space, n, sx, aop, d, sb, zero, lanes⟩ := a
  obtain rfl : space = 0 := own
  obtain rfl : kind = .store := store
  cases lanes with
  | nil => contradiction
  | cons q qs => rfl

theorem State.issueMem_own_load (own : a.space = 0) (load : a.kind = .load) :
    let f := { s.flightOf m hdr pass a with lanes := a.lanes.map (s.readOwn m a) }
    s.issueMem m hdr pass a = ((((s.fresh.2.addFlight m a f).meetOwn m a (s.flightOf m hdr pass a)).landAt s.nextId (s.ownLands m a)
      ((f.lanes.filter (·.st = .performed)).map (·.lane))).reportAt s.nextId) := by
  obtain ⟨pos, nth, kind, space, n, sx, aop, d, sb, zero, lanes⟩ := a
  obtain rfl : space = 0 := own
  obtain rfl : kind = .load := load
  cases lanes with
  | nil => contradiction
  | cons q qs =>
    unfold State.issueMem
    simp only [if_true, List.foldl_map, List.map_map]
    rfl

/-- An accumulator load reads a word (R162, R168): the lane with the word, or with the error in it. -/
def State.readAcc (s : State) (m : Team) (q : LaneReq) : LaneReq :=
  let ix := accIx m.pl.pkg m.pl.core (m.pl.atBase + q.home) q.va
  if s.uce.contains (2 ^ 60 + ix) then { q with va := q.va + 2 ^ 32 * q.home, st := .err, got := cUCE, due := s.wtc }
  else { q with st := .performed, got := (accWord s.acc ix).toNat }

/-- An accumulator load meets single-bit errors. -/
def State.meetAcc (s : State) (m : Team) (a : MemAct) : State :=
  a.lanes.foldl (fun s q => s.correctAcc m.pl.pkg (accIx m.pl.pkg m.pl.core (m.pl.atBase + q.home) q.va) 1) s

theorem State.issueMem_acc_load (acc : a.space = 3) (load : a.kind = .load) :
    let f := { s.flightOf m hdr pass a with lanes := a.lanes.map (s.readAcc m) }
    s.issueMem m hdr pass a = ((((s.fresh.2.meetAcc m a).addFlight m a f).landAt s.nextId (s.wtc + 8)
      ((f.lanes.filter (·.st = .performed)).map (·.lane))).reportAt s.nextId) := by
  obtain ⟨pos, nth, kind, space, n, sx, aop, d, sb, zero, lanes⟩ := a
  obtain rfl : space = 3 := acc
  obtain rfl : kind = .load := load
  cases lanes with
  | nil => contradiction
  | cons q qs => rfl

theorem State.issueMem_acc_store (acc : a.space = 3) (store : a.kind = .store) :
    s.issueMem m hdr pass a = s.fresh.2.stageOp m.id m.pl.pkg m.pl.core s.wtc 0 m.tl ⟨m.wordsDone + a.nth + 1, hdr, pass, a.pos⟩
      (.acc (a.lanes.map fun q => (accIx m.pl.pkg m.pl.core (m.pl.atBase + q.home) q.va, BitVec.ofNat 32 q.data))) := by
  obtain ⟨pos, nth, kind, space, n, sx, aop, d, sb, zero, lanes⟩ := a
  obtain rfl : space = 3 := acc
  obtain rfl : kind = .store := store
  cases lanes with
  | nil => contradiction
  | cons q qs => rfl

theorem State.issueMem_own_atomic (own : a.space = 0) (atomic : a.kind = .atomF ∨ a.kind = .atomN) :
    s.issueMem m hdr pass a = (s.fresh.2.addFlight m a { s.flightOf m hdr pass a with lanes := a.lanes.map fun q =>
        { q with home := lsPa m.pl.core (m.pl.lsBase + q.va), st := .moving, due := s.wtc + 20 } }).stageOp m.id m.pl.pkg m.pl.core s.wtc
      m.pl.lsBase m.tl ⟨m.wordsDone + a.nth + 1, hdr, pass, a.pos⟩ (.atomic s.nextId) := by
  obtain ⟨pos, nth, kind, space, n, sx, aop, d, sb, zero, lanes⟩ := a
  obtain rfl : space = 0 := own
  cases lanes with
  | nil => contradiction
  | cons q qs =>
    obtain rfl | rfl : kind = .atomF ∨ kind = .atomN := atomic
    · rfl
    · rfl

end

/-- The staged atomics some lane of a load waits for. -/
theorem State.stagedOn_any (s : State) (m : Team) (a : MemAct) (e : Staged) :
    (e.team = m.id && match e.op.flight.bind s.flight? with
      | some f => a.lanes.any fun q => f.lanes.any fun r => r.va < q.va + a.n && q.va < r.va + 4
      | none => false) = a.lanes.any fun q => s.stagedOn m.id q.va a.n e := by
  unfold State.stagedOn
  cases e.op.flight.bind s.flight? <;> by_cases own : e.team = m.id <;> simp [own]

/-- An own load lands 12 cycles on, or four behind the last staged atomic of the team on its bytes (R150). -/
theorem State.ownLands_eq {s : State} {m : Team} {a : MemAct} (below : ∀ e ∈ s.staged, e.id < s.nextId) :
    s.ownLands m a = s.loadLands m a := by
  refine eq_of_forall_ge_iff fun k => ?_
  have late := foldl_max_le (fun q => s.atomicDue m.id s.nextId q.va a.n) a.lanes 0
  simp only [State.atomicDue_le below, Nat.zero_le, true_and] at late
  rw [State.ownLands, State.loadLands, List.foldl_map, foldl_max_le, Nat.max_le]
  refine and_congr_right fun soon => ?_
  generalize a.lanes.foldl _ 0 = x at late ⊢
  have bound : (if x = 0 then 0 else x + 4) ≤ k ↔ x ≤ k - 4 := by
    split <;> omega
  rw [bound, late]
  constructor
  · intro h e he
    obtain ⟨mem, on⟩ := List.mem_filter.1 he
    obtain ⟨q, hq, meets⟩ : ∃ q ∈ a.lanes, s.stagedOn m.id q.va a.n e = true := by
      exact List.any_eq_true.1 ((s.stagedOn_any m a e).symm.trans on)
    have := h q hq e mem meets
    omega
  · intro h q hq e he meets
    have := h e (List.mem_filter.2 ⟨he, (s.stagedOn_any m a e).trans (List.any_eq_true.2 ⟨q, hq, meets⟩)⟩)
    omega

theorem State.meetOwn_onward (s : State) (m : Team) (a : MemAct) (f : Flight) : Onward m.id s (s.meetOwn m a f) :=
  .foldl _ (fun s _ => (Onward.correct m.id s ..).trans (.marked m.id (.watch ..))) s

theorem State.readOwn_good {s : State} {m : Team} {a : MemAct} {q : LaneReq}
    (good : s.uceAt m.pl.pkg (lsPa m.pl.core (m.pl.lsBase + q.va)) a.n = false) :
    s.readOwn m a q = { q with home := lsPa m.pl.core (m.pl.lsBase + q.va), st := .performed,
                               got := bytesNat ((List.range a.n).map fun k => s.seenByte m (q.va + k)) } := by
  simp only [State.readOwn, good, State.ownRead'_fst]
  rfl

theorem State.readOwn_bad {s : State} {m : Team} {a : MemAct} {q : LaneReq}
    (bad : s.uceAt m.pl.pkg (lsPa m.pl.core (m.pl.lsBase + q.va)) a.n = true) :
    s.readOwn m a q = { q with home := lsPa m.pl.core (m.pl.lsBase + q.va), st := .err, got := cUCE, due := s.wtc } := by
  simp only [State.readOwn, bad, if_true]

/-- Lanes of a new flight that are read at once land together, and its known faults are reported in their cycle. -/
theorem Added.landed {s t : State} {m : Team} {a : MemAct} {f : Flight} (h : Added s t m a f) (cyc : Nat) :
    let u := (t.landAt f.id cyc ((f.lanes.filter (·.st = .performed)).map (·.lane))).reportAt f.id
    Added s u m a f ∧ (∀ q ∈ f.lanes, q.st = .performed → u.lands f.id q.lane cyc) ∧
      ∀ q ∈ f.lanes, q.st = .err → u.planned q.due (.faultReport f.id) := by
  have landing := h.onward (.landAt m.id t f.id cyc ((f.lanes.filter (·.st = .performed)).map (·.lane)))
  refine ⟨landing.onward (.reportAt ..), fun q hq performed => ?_, fun q hq bad => landing.last.reportAt hq (by simp [LaneReq.failed, bad])⟩
  refine State.lands_onward (.reportAt m.id _ f.id) (State.lands_landAt t f.id cyc (List.mem_map_of_mem ?_))
  exact List.mem_filter.2 ⟨hq, by simpa using performed⟩

theorem localCommit_issueMem {s : State} {m : Team} {a : MemAct} (h : s.committing m a) (own : a.space = 0) (hdr pass : Nat) :
    localCommit m a s (s.issueMem m hdr pass a) := by
  obtain ⟨team, some_lane, -, moving, sb, -, staged_below, -⟩ := id h
  refine ⟨fun store => ?_, fun load => ?_, fun atomic => ?_⟩
  · rw [State.issueMem_own_store hdr pass some_lane own store]
    obtain ⟨staged, flights, teams, planned, -⟩ := s.fresh.2.stageOp_staged m.id m.pl.pkg m.pl.core s.wtc m.pl.lsBase m.tl
      ⟨m.wordsDone + a.nth + 1, hdr, pass, a.pos⟩ (.bytes (a.lanes.map fun q => (q.va, natBytes a.n q.data)))
    refine ⟨flights, counted_of_same ?_ _, _, ⟨staged, rfl, rfl, rfl, rfl, rfl, rfl⟩, planned ⟨_, rfl⟩⟩
    rw [State.team?, teams]
    exact congrArg (Option.map Team.sb) team
  · rw [State.issueMem_own_load hdr pass some_lane own load]
    have added := (State.addFlight_added h (.fresh m.id s) (f := { s.flightOf m hdr pass a with lanes := a.lanes.map (s.readOwn m a) }) rfl).onward
      (State.meetOwn_onward _ m a (s.flightOf m hdr pass a))
    obtain ⟨now, lands, reports⟩ := added.landed (s.ownLands m a)
    have count := now.counted sb
    rw [if_neg (by simp [State.flightOf, load])] at count
    refine ⟨now.staged, count, _, now.flies, fun q hq => ⟨_, List.mem_map_of_mem hq, ?_, fun good => ?_, fun bad => ?_⟩⟩
    · unfold State.readOwn
      dsimp only
      split <;> rfl
    · have read := State.readOwn_good good
      have landing := lands _ (List.mem_map_of_mem hq) (by rw [read])
      rw [read] at landing
      rw [read, ← State.ownLands_eq staged_below]
      exact ⟨landing, rfl, rfl⟩
    · have read := State.readOwn_bad bad
      have report := reports _ (List.mem_map_of_mem hq) (by rw [read])
      rw [read] at report
      rw [read]
      exact ⟨rfl, rfl, report⟩
  · rw [State.issueMem_own_atomic hdr pass some_lane own atomic]
    have added := State.addFlight_added h (.fresh m.id s) (f := { s.flightOf m hdr pass a with lanes := a.lanes.map fun q =>
        { q with home := lsPa m.pl.core (m.pl.lsBase + q.va), st := .moving, due := s.wtc + 20 } }) rfl
    have count := added.counted sb
    rw [if_neg (by rcases atomic with kind | kind <;> simp [State.flightOf, kind])] at count
    obtain ⟨staged, flights, teams, -, -, planned⟩ := State.stageOp_staged (s.fresh.2.addFlight m a { s.flightOf m hdr pass a with
      lanes := a.lanes.map fun q => { q with home := lsPa m.pl.core (m.pl.lsBase + q.va), st := .moving, due := s.wtc + 20 } })
      m.id m.pl.pkg m.pl.core s.wtc m.pl.lsBase m.tl ⟨m.wordsDone + a.nth + 1, hdr, pass, a.pos⟩ (.atomic s.nextId)
    refine ⟨fun z hz => count z ?_, _, _, ⟨flights.trans added.last.flights, rfl⟩,
      ⟨staged.trans (congrArg (· ++ _) added.staged), rfl, rfl, rfl, rfl, rfl, rfl⟩, planned ⟨_, rfl⟩,
      fun q hq => ⟨_, List.mem_map_of_mem hq, ?_⟩⟩
    · rw [State.team?, teams] at hz
      exact hz
    · exact ⟨rfl, rfl, rfl⟩

theorem State.meetAcc_onward (s : State) (m : Team) (a : MemAct) : Onward m.id s (s.meetAcc m a) :=
  .foldl _ (fun s _ => .correctAcc m.id s ..) s

theorem accCommit_issueMem {s : State} {m : Team} {a : MemAct} (h : s.committing m a) (acc : a.space = 3) (hdr pass : Nat) :
    accCommit m a s (s.issueMem m hdr pass a) := by
  obtain ⟨-, some_lane, -, -, sb, -, -, -⟩ := id h
  refine ⟨fun store => ?_, fun load => ?_⟩
  · rw [State.issueMem_acc_store hdr pass some_lane acc store]
    obtain ⟨staged, flights, -, -, planned, -⟩ := s.fresh.2.stageOp_staged m.id m.pl.pkg m.pl.core s.wtc 0 m.tl
      ⟨m.wordsDone + a.nth + 1, hdr, pass, a.pos⟩
      (.acc (a.lanes.map fun q => (accIx m.pl.pkg m.pl.core (m.pl.atBase + q.home) q.va, BitVec.ofNat 32 q.data)))
    exact ⟨flights, _, ⟨staged, rfl, rfl, rfl, rfl, rfl, rfl⟩, planned ⟨_, rfl⟩⟩
  · rw [State.issueMem_acc_load hdr pass some_lane acc load]
    have added := State.addFlight_added h ((Onward.fresh m.id s).trans (State.meetAcc_onward _ m a))
      (f := { s.flightOf m hdr pass a with lanes := a.lanes.map (s.readAcc m) }) rfl
    obtain ⟨now, lands, reports⟩ := added.landed (s.wtc + 8)
    have count := now.counted sb
    rw [if_neg (by simp [State.flightOf, load])] at count
    refine ⟨now.staged, count, _, now.flies, fun q hq => ⟨_, List.mem_map_of_mem hq, ?_, fun good => ?_, fun bad => ?_⟩⟩
    · unfold State.readAcc
      dsimp only
      split <;> rfl
    · have read : s.readAcc m q = { q with st := .performed, got := _ } := if_neg (by simpa using good)
      have landing := lands _ (List.mem_map_of_mem hq) (by rw [read])
      rw [read] at landing
      rw [read]
      exact ⟨landing, rfl, rfl⟩
    · have read : s.readAcc m q = { q with va := _, st := .err, got := cUCE, due := s.wtc } := if_pos (by simpa using bad)
      have report := reports _ (List.mem_map_of_mem hq) (by rw [read])
      rw [read] at report
      rw [read]
      exact ⟨rfl, rfl, report⟩

end Sys2Proof.Machine
end

section
namespace Sys2Proof.Machine

/-! ### Words that leave the core (R151 to R153, R155, R170, R208) -/

/-- Where its translation sends a lane of a word that leaves the core. -/
def State.placed (s : State) (m : Team) (hdr pass : Nat) (a : MemAct) (q : LaneReq) : LaneReq :=
  s.placeLane (s.flightOf m hdr pass a) (s.wtc + 1) (s.laneXl m a q) q

theorem State.issueMem_away {s : State} {m : Team} {a : MemAct} (h : s.committing m a) (away : a.space = 1 ∨ a.space = 2) (hdr pass : Nat) :
    s.issueMem m hdr pass a = (((s.fresh.2.addFlight m a { s.flightOf m hdr pass a with
      lanes := a.lanes.map (s.placed m hdr pass a) }).launchLanes s.nextId s.wtc).walksFor s.nextId) := by
  obtain ⟨-, some_lane, -, moving, -, -, -, -⟩ := h
  have placed : a.lanes.map (fun q => if q.failed then q else s.fresh.2.placeLane (s.flightOf m hdr pass a) (s.wtc + 1)
      (s.fresh.2.xlate m.pl.pkg m.pl.core (s.gangCtx m.pl.gang) q.va (permOf a.kind)) q) = a.lanes.map (s.placed m hdr pass a) := by
    refine List.map_congr_left fun q hq => ?_
    have sound : q.failed = false := by simp [LaneReq.failed, (moving q hq).1]
    rw [sound]
    unfold State.placed State.laneXl
    cases a.kind <;> rfl
  refine Eq.trans ?_ (congrArg (fun l => ((s.fresh.2.addFlight m a { s.flightOf m hdr pass a with lanes := l }).launchLanes s.nextId
    s.wtc).walksFor s.nextId) placed)
  obtain ⟨pos, nth, kind, space, n, sx, aop, d, sb, zero, lanes⟩ := a
  cases lanes with
  | nil => contradiction
  | cons q qs =>
    obtain rfl | rfl : space = 1 ∨ space = 2 := away
    · rfl
    · rfl

/-- A lane is on its way and has not left yet. -/
def LaneReq.isNew (q : LaneReq) : Bool := q.st = .moving && q.due = 0

/-- A lane as the tag board leaves it: held on its way to device memory where the round is held. -/
def LaneReq.held (hold : Bool) (q : LaneReq) : LaneReq :=
  if hold && q.isNew && homeOf q.home = .hbm then { q with st := .held } else q

/-- A lane as it leaves its core for its home, with the cycle of its next step. -/
def LaneReq.sent (core c : Nat) (q : LaneReq) : LaneReq :=
  if !q.isNew then q
  else match homeOf q.home with
    | .ls c' _ => { q with due := c + 20 + torus core c' }
    | .hbm => { q with due := c + 200 }
    | _ => { q with due := c + 64 }

theorem Added.modLanes {s t : State} {m : Team} {a : MemAct} {f : Flight} (h : Added s t m a f) (g : LaneReq → LaneReq) :
    Added s (t.modLanes f.id g) m a { f with lanes := f.lanes.map g } :=
  { h with last := h.last.modLanes g }

/-- The tag board holds a flight's lanes to device memory in a held round, where its gang has not been killed. -/
theorem Added.holdTagged {s t : State} {m : Team} {a : MemAct} {f : Flight} (h : Added s t m a f) (alive : t.gangKilled f.gang = false) :
    Added s (t.holdTagged f.id) m a { f with lanes := f.lanes.map (LaneReq.held (t.roundHeld f && f.kind ≠ .load)) } := by
  simp only [State.holdTagged, h.last.flight?, alive]
  split
  · next hold =>
    rw [hold]
    have lanes : LaneReq.held true = fun q => if q.st = .moving && q.due = 0 && homeOf q.home = .hbm then { q with st := .held } else q := by
      funext q
      simp [LaneReq.held, LaneReq.isNew]
    rw [lanes]
    exact h.modLanes _
  · next free =>
    have lanes : f.lanes.map (LaneReq.held (t.roundHeld f && f.kind ≠ .load)) = f.lanes := by
      rw [Bool.eq_false_of_not_eq_true free]
      exact (List.map_congr_left fun q _ => by simp [LaneReq.held]).trans (List.map_id _)
    rw [lanes]
    exact h

/-- The accesses at local stores of lanes that leave are planned, one step a cycle. -/
def State.planLs (s : State) (f : Flight) (sent : List LaneReq) : State :=
  let ls := sent.filter fun q => match homeOf q.home with | .ls _ _ => true | _ => false
  (distinct (ls.map (·.due))).foldl (fun s d =>
    s.at d (if f.kind = .load then pRead else pGlobal) [f.core, f.id] (.packageGlobalAccess f.id)) s

/-- The packet of the lanes to device memory that leave. -/
def State.planHbm (s : State) (f : Flight) (c : Nat) (sent : List LaneReq) : State :=
  let hbm := sent.filter fun q => homeOf q.home = .hbm
  if hbm.isEmpty then s
  else s.gatherAt f.pkg (c + 200) [0, f.core, 0, f.id] (segsOf f.id (if f.kind = .atomF || f.kind = .atomN then 2 else 1) hbm [])

/-- The requests of the lanes to the host window that leave. -/
def State.planHost (s : State) (f : Flight) (c : Nat) (sent : List LaneReq) : State :=
  (sent.filter fun q => homeOf q.home = .nothing).foldl (fun s q =>
    let (h, s) := s.fresh
    let r : HostReq := ⟨h, f.id, [q.lane], 0, 0, f.core, f.kind = .store, q.home - 2 ^ 60, f.n,
      natBytes f.n q.data, 0, 0, false, Option.none⟩
    (s.modPkg f.pkg fun x => { x with host := x.host ++ [r] }).at (c + 64) pHost [f.core, h]
      (.hostWindowAccess f.pkg h)) s

theorem Last.sendLanes {s : State} {l : List Flight} {f : Flight} (h : Last s l f) (c : Nat) :
    let sent := (f.lanes.filter (·.isNew)).map (LaneReq.sent f.core c)
    s.sendLanes f.id c = (((s.modLanes f.id (LaneReq.sent f.core c)).planLs f sent).planHbm f c sent).planHost f c sent := by
  simp only [State.sendLanes, h.flight?]
  rfl

theorem LaneReq.sent_home (core c : Nat) (q : LaneReq) : (q.sent core c).home = q.home ∧ (q.sent core c).lane = q.lane ∧
    (q.sent core c).st = q.st ∧ (q.sent core c).got = q.got := by
  unfold LaneReq.sent
  split
  · exact ⟨rfl, rfl, rfl, rfl⟩
  · split <;> exact ⟨rfl, rfl, rfl, rfl⟩

/-- The pieces of a packet go by the homes and numbers of its lanes. -/
theorem segsOf_map (i k : Nat) {g : LaneReq → LaneReq} (home : ∀ q, (g q).home = q.home) (lane : ∀ q, (g q).lane = q.lane)
    (l : List LaneReq) (acc : List (Nat × List Nat)) : segsOf i k (l.map g) acc = segsOf i k l acc := by
  induction l generalizing acc with
  | nil => rfl
  | cons q l ih => simp only [List.map_cons, segsOf, home, lane, ih]

section
variable (own : Nat) (s : State) (f : Flight) (c : Nat) (sent : List LaneReq)

theorem Onward.planLs : Onward own s (s.planLs f sent) := .foldl _ (fun s _ => .at_ own s ..) s

theorem Onward.planHbm : Onward own s (s.planHbm f c sent) := by
  unfold State.planHbm
  dsimp only
  split
  · exact .refl own s
  · exact .gatherAt own s ..

theorem Onward.planHost : Onward own s (s.planHost f c sent) :=
  .foldl _ (fun s _ => ((Onward.fresh own s).trans (.modPkg own _ ..)).trans (.at_ own _ ..)) s

end

theorem State.planLs_planned (s : State) (f : Flight) {sent : List LaneReq} {q : LaneReq} (hq : q ∈ sent) {d o : Nat}
    (home : homeOf q.home = .ls d o) : (s.planLs f sent).planned q.due (.packageGlobalAccess f.id) := by
  refine foldl_establishes (f := fun (s : State) d => s.at d (if f.kind = .load then pRead else pGlobal) [f.core, f.id] (.packageGlobalAccess f.id))
    (P := fun d (s : State) => s.planned d (.packageGlobalAccess f.id)) (fun s d => s.planned_at ..)
    (fun s x y planned => State.planned_of_subset (s.agenda_subset_at ..) planned) _ s _ ?_
  exact distinct_mem.2 (List.mem_map_of_mem (List.mem_filter.2 ⟨hq, by rw [home]⟩))

theorem State.planHbm_packet (s : State) (f : Flight) (c : Nat) {sent : List LaneReq} (some_hbm : sent.filter (homeOf ·.home = .hbm) ≠ []) :
    ∃ g ∈ (s.planHbm f c sent).gathers, (s.planHbm f c sent).planned (c + 200) (.gatherPacketArrival g.id) ∧
      g.segs = segsOf f.id (if f.kind = .atomF || f.kind = .atomN then 2 else 1) (sent.filter (homeOf ·.home = .hbm)) [] := by
  unfold State.planHbm
  dsimp only
  rw [if_neg (by simpa using some_hbm)]
  exact ⟨_, List.mem_append_right _ (List.mem_singleton.2 rfl), State.planned_at .., rfl⟩

/-- Lanes that leave together: those to an LS are performed in their cycles, those to device memory arrive in one packet (R151 to R153). -/
theorem Added.sendLanes {s t : State} {m : Team} {a : MemAct} {f : Flight} (h : Added s t m a f) (c : Nat) :
    let u := t.sendLanes f.id c
    let hbm := (f.lanes.filter (·.isNew)).filter (homeOf ·.home = .hbm)
    Added s u m a { f with lanes := f.lanes.map (LaneReq.sent f.core c) } ∧
      (∀ q ∈ f.lanes, q.isNew = true → ∀ d o, homeOf q.home = .ls d o →
        u.planned (q.sent f.core c).due (.packageGlobalAccess f.id)) ∧
      (hbm ≠ [] → ∃ g ∈ u.gathers, u.planned (c + 200) (.gatherPacketArrival g.id) ∧
        g.segs = segsOf f.id (if f.kind = .atomF || f.kind = .atomN then 2 else 1) hbm []) := by
  dsimp only
  rw [h.last.sendLanes c]
  have home (q : LaneReq) : (q.sent f.core c).home = q.home := (q.sent_home f.core c).1
  have hbm : ((f.lanes.filter (·.isNew)).map (LaneReq.sent f.core c)).filter (homeOf ·.home = .hbm) =
      ((f.lanes.filter (·.isNew)).filter (homeOf ·.home = .hbm)).map (LaneReq.sent f.core c) := by
    rw [List.filter_map]
    simp only [Function.comp_def, home]
  refine ⟨(((h.modLanes _).onward (.planLs ..)).onward (.planHbm ..)).onward (.planHost ..), fun q hq new d o ls => ?_, fun some_hbm => ?_⟩
  · refine State.planned_of_subset ((Onward.planHbm 0 _ f c _).trans (.planHost 0 _ f c _)).agenda (State.planLs_planned _ f ?_ ((home q).symm ▸ ls))
    exact List.mem_map_of_mem (List.mem_filter.2 ⟨hq, new⟩)
  · obtain ⟨g, hg, planned, segs⟩ := State.planHbm_packet ((t.modLanes f.id (LaneReq.sent f.core c)).planLs f
      ((f.lanes.filter (·.isNew)).map (LaneReq.sent f.core c))) f c (by rw [hbm]; simpa using some_hbm)
    refine ⟨g, (Onward.planHost 0 _ f c _).gathers hg, State.planned_of_subset (Onward.planHost 0 _ f c _).agenda planned, ?_⟩
    rw [segs, hbm, segsOf_map _ _ home fun q => (q.sent_home f.core c).2.1]

/-- A flight with lanes that are not over stays. -/
theorem Added.settle {s t : State} {m : Team} {a : MemAct} {f : Flight} (h : Added s t m a f) {q : LaneReq} (hq : q ∈ f.lanes)
    (waits : q.over = false) : t.settle f.id = t := by
  have stays : f.over = false := by
    rw [Flight.over, List.all_eq_false]
    exact ⟨q, hq, by simp [waits]⟩
  simp [State.settle, h.last.flight?, stays]

end Sys2Proof.Machine
end

section
namespace Sys2Proof.Machine

/-! ### Walks and remote requests (R147, R172, R187, R338) -/

theorem mem_orderedInsert {α : Type} {le : α → α → Bool} (l : List α) (acc : List α) (x : α) :
    x ∈ l.foldl (fun acc w => acc.filter (le · w) ++ w :: acc.filter (!le · w)) acc ↔ x ∈ acc ∨ x ∈ l := by
  induction l generalizing acc with
  | nil => simp
  | cons w l ih =>
    rw [List.foldl_cons, ih]
    simp only [List.mem_append, List.mem_filter, List.mem_cons]
    cases le x w <;> simp only [Bool.not_false, Bool.not_true, Bool.false_eq_true, and_true, and_false] <;> tauto

theorem State.orderWalks_mem_iff (s : State) (f : Flight) (w : Walk) : w ∈ (s.orderWalks f).walks ↔ w ∈ s.walks := by
  unfold State.orderWalks
  dsimp only
  rw [List.mem_append, mem_orderedInsert, List.mem_filter, List.mem_filter]
  cases s.walksPass f w <;> simp

/-- A walk of a page serves a flight. -/
def State.walked (s : State) (i page : Nat) : Prop := ∃ w ∈ s.walks, w.page = page ∧ i ∈ w.flights

/-- A walk for lanes serves one flight more. -/
def Walk.serving (w : Walk) (i : Nat) : Walk :=
  { w with for_ := match w.for_ with | .lanes fs => .lanes (fs ++ [i]) | y => y }

theorem Walk.mem_serving {w : Walk} {i j : Nat} (h : j ∈ w.flights) : j ∈ (w.serving i).flights ∧ i ∈ (w.serving i).flights := by
  obtain ⟨_, _, _, _, _, _, _, _, _, _, _, for_⟩ := w
  cases for_ with
  | lanes fs => exact ⟨List.mem_append_left _ h, List.mem_append_right _ (List.mem_singleton.2 rfl)⟩
  | _ => exact absurd h List.not_mem_nil

/-- A page of a flight's lanes joins the walk its pass has asked for, or begins one. -/
def State.walkPage (s : State) (i : Nat) (f : Flight) (pg : Nat) : State :=
  let mine (w : Walk) : Bool := w.page = pg * 4096 && s.walksPass f w
  if s.walks.any mine then
    { s with walks := s.walks.map fun w => if mine w then w.serving i else w }
  else
    let (w, s) := s.fresh
    let s : State := { s with walks := s.walks ++
      [⟨w, f.pkg, f.core / 4, f.core, f.ctx, f.team, pg * 4096, 3, 0, 0, false, .lanes [i]⟩] }
    s.at (s.wtc + 1) pBegin [0, w] (.pageWalk f.pkg (f.core / 4))

theorem Last.walksFor {s : State} {l : List Flight} {f : Flight} (h : Last s l f) :
    let pages := distinct ((f.lanes.filter (·.st = .walk)).map (·.va / 4096))
    s.walksFor f.id = if pages = [] then s else (pages.foldl (fun s pg => s.walkPage f.id f pg) s).orderWalks f := by
  simp only [State.walksFor, h.flight?]
  rfl

theorem Onward.walkPage (own : Nat) (s : State) (i : Nat) (f : Flight) (pg : Nat) : Onward own s (s.walkPage i f pg) := by
  unfold State.walkPage
  dsimp only
  split
  · exact .of_eq own rfl rfl rfl rfl rfl rfl rfl
  · exact Onward.trans (t := { s.fresh.2 with walks := _ }) (.of_eq own rfl rfl rfl rfl rfl rfl rfl) (.at_ own ..)

theorem State.walkPage_walked (s : State) (i : Nat) (f : Flight) (pg : Nat) : (s.walkPage i f pg).walked i (pg * 4096) := by
  unfold State.walkPage
  dsimp only
  split
  · next some_walk =>
    obtain ⟨w, hw, mine⟩ := List.any_eq_true.1 some_walk
    have now := mine
    simp only [Bool.and_eq_true, decide_eq_true_eq] at mine
    obtain ⟨page, pass⟩ := mine
    refine ⟨_, List.mem_map_of_mem hw, ?_⟩
    rw [if_pos now]
    obtain ⟨j, hj, -⟩ := List.any_eq_true.1 pass
    exact ⟨page, (Walk.mem_serving hj).2⟩
  · exact ⟨_, List.mem_append_right _ (List.mem_singleton.2 rfl), rfl, List.mem_singleton.2 rfl⟩

theorem State.walkPage_keeps (s : State) (i : Nat) (f : Flight) (pg page : Nat) (h : s.walked i page) : (s.walkPage i f pg).walked i page := by
  obtain ⟨w, hw, same, serves⟩ := h
  unfold State.walkPage
  dsimp only
  split
  · refine ⟨_, List.mem_map_of_mem hw, ?_⟩
    split
    · exact ⟨same, (Walk.mem_serving serves).1⟩
    · exact ⟨same, serves⟩
  · exact ⟨w, List.mem_append_left _ hw, same, serves⟩

/-- Each lane of a flight that waits for its page has a walk of it. -/
theorem Added.walksFor {s t : State} {m : Team} {a : MemAct} {f : Flight} (h : Added s t m a f) :
    Added s (t.walksFor f.id) m a f ∧ Onward m.id t (t.walksFor f.id) ∧
      ∀ q ∈ f.lanes, q.st = .walk → (t.walksFor f.id).walked f.id (q.va / 4096 * 4096) := by
  have onward : Onward m.id t (t.walksFor f.id) := by
    rw [h.last.walksFor]
    split
    · exact .refl m.id t
    · exact (Onward.foldl _ (fun s _ => .walkPage m.id s ..) t).trans (.of_eq m.id rfl rfl rfl rfl rfl rfl rfl)
  refine ⟨h.onward onward, onward, fun q hq walk => ?_⟩
  have page : q.va / 4096 ∈ distinct ((f.lanes.filter (·.st = .walk)).map (·.va / 4096)) :=
    distinct_mem.2 (List.mem_map_of_mem (List.mem_filter.2 ⟨hq, by simpa using walk⟩))
  rw [h.last.walksFor]
  rw [if_neg (List.ne_nil_of_mem page)]
  obtain ⟨w, hw, same, serves⟩ := foldl_establishes (f := fun (s : State) pg => s.walkPage f.id f pg)
    (P := fun pg s => s.walked f.id (pg * 4096)) (fun s pg => s.walkPage_walked f.id f pg)
    (fun s pg pg' => s.walkPage_keeps f.id f pg (pg' * 4096)) _ t _ page
  exact ⟨w, (State.orderWalks_mem_iff ..).2 hw, same, serves⟩

/-- A remote word asks its port 40 cycles on, if some lane of it is on its way (R172, R187). -/
theorem Added.offerAt {s t : State} {m : Team} {a : MemAct} {f : Flight} (h : Added s t m a f) (c : Nat) :
    Added s (t.offerAt f.id c) m a { f with lanes := f.lanes.map fun q => if q.isNew then { q with due := c + 40 } else q } ∧
      ∀ q ∈ f.lanes, q.isNew = true →
        (t.offerAt f.id c).planned (c + 40) (if f.kind = .load then .remoteLoadRequest f.id else .tubOffer f.id) := by
  simp only [State.offerAt, h.last.flight?]
  split
  · exact ⟨(h.modLanes _).onward (.at_ m.id ..), fun _ _ _ => State.planned_at ..⟩
  · next still =>
    have none_new : ∀ q ∈ f.lanes, q.isNew = false := by simpa [LaneReq.isNew] using still
    have lanes : f.lanes.map (fun q => if q.isNew then { q with due := c + 40 } else q) = f.lanes :=
      (List.map_congr_left fun q hq => by simp [none_new q hq]).trans (List.map_id _)
    rw [lanes]
    exact ⟨h, fun q hq new => by simp [none_new q hq] at new⟩

end Sys2Proof.Machine
end

section
namespace Sys2Proof.Machine

/-! ### The pieces of a packet (R152) -/

theorem distinct_append_singleton {α : Type} [DecidableEq α] (l : List α) (a : α) :
    distinct (l ++ [a]) = if a ∈ l then distinct l else distinct l ++ [a] := by
  induction l with
  | nil => rfl
  | cons b l ih =>
    rw [List.cons_append, distinct, ih, distinct]
    by_cases mem : a ∈ l
    · simp [mem]
    · by_cases same : a = b
      · subst same
        simp [mem]
      · simp [mem, same]

/-- The lanes of a word grouped by the 64 bytes of their homes, in the order of the lowest lane of each. -/
def pieces (l : List LaneReq) : List (Nat × List Nat) :=
  (distinct (l.map (·.home / 64))).map fun a => (a, (l.filter (·.home / 64 = a)).map (·.lane))

theorem pieces_append (l : List LaneReq) (q : LaneReq) : pieces (l ++ [q]) =
    let a := q.home / 64
    if (pieces l).any (·.1 = a) then (pieces l).map fun g => if g.1 = a then (g.1, g.2 ++ [q.lane]) else g
    else pieces l ++ [(a, [q.lane])] := by
  have stands : (pieces l).any (·.1 = q.home / 64) = true ↔ q.home / 64 ∈ l.map (·.home / 64) := by
    simp [pieces, distinct_mem]
  dsimp only
  unfold pieces at stands ⊢
  rw [List.map_append, List.map_singleton, distinct_append_singleton]
  by_cases mem : q.home / 64 ∈ l.map (·.home / 64)
  · rw [if_pos mem, if_pos (stands.2 mem), List.map_map]
    refine List.map_congr_left fun a _ => ?_
    by_cases same : q.home / 64 = a
    · subst same
      simp
    · simp [same, Ne.symm same]
  · rw [if_neg mem, if_neg (mt stands.1 mem), List.map_append, List.map_singleton]
    have apart : ∀ p ∈ l, p.home / 64 ≠ q.home / 64 := fun p hp same => mem (same ▸ List.mem_map_of_mem hp)
    congr 1
    · refine List.map_congr_left fun a ha => ?_
      have other : q.home / 64 ≠ a := fun same => mem (same ▸ distinct_mem.1 ha)
      simp [other]
    · have alone : l.filter (·.home / 64 = q.home / 64) = [] := List.filter_eq_nil_iff.2 fun p hp => by simpa using apart p hp
      simp [alone]

theorem segsOf_pieces (i k : Nat) (l : List LaneReq) :
    segsOf i k l [] = (pieces l).map fun g => (g.1 * 64, ⟨0, 0, k, false, .lanes i g.2⟩) := by
  suffices ∀ pre, segsOf i k l (pieces pre) = (pieces (pre ++ l)).map fun g => (g.1 * 64, ⟨0, 0, k, false, .lanes i g.2⟩) from this []
  induction l with
  | nil => simp [segsOf]
  | cons q l ih =>
    intro pre
    have step := pieces_append pre q
    rw [← List.singleton_append, ← List.append_assoc, ← ih (pre ++ [q]), step, List.singleton_append, segsOf]
    dsimp only
    split <;> rfl

/-- The places where values first stand in a list ascend. -/
theorem findIdx_distinct {α : Type} (key : α → Nat) (l : List α) :
    ((distinct (l.map key)).map fun a => l.findIdx (key · = a)).Pairwise (· < ·) := by
  induction l with
  | nil => exact .nil
  | cons q l ih =>
    rw [List.map_cons, distinct, List.map_cons, List.pairwise_cons]
    have later : ∀ a ∈ (distinct (l.map key)).filter (· ≠ key q), (q :: l).findIdx (key · = a) = l.findIdx (key · = a) + 1 := fun a ha => by
      have other : key q ≠ a := fun same => by simp [same] at ha
      rw [List.findIdx_cons, decide_eq_false other, cond_false]
    rw [List.map_congr_left later]
    constructor
    · intro n hn
      obtain ⟨a, -, rfl⟩ := List.mem_map.1 hn
      simp [List.findIdx_cons]
    · refine List.pairwise_map.2 (List.Pairwise.imp Nat.succ_lt_succ ?_)
      exact List.pairwise_map.1 (ih.sublist (List.filter_sublist.map _))

/-- The segments of a word's lanes to device memory: each 64 bytes some lane needs, in lane order, with the lanes there (R152). -/
theorem segsOf_spec (i k : Nat) (l : List LaneReq) :
    let segs := segsOf i k l []
    (∀ q ∈ l, ∃ z ∈ segs, z.1 = q.home / 64 * 64) ∧
      (∀ z ∈ segs, z.2.op = .lanes i ((l.filter (·.home / 64 * 64 = z.1)).map (·.lane)) ∧ z.2.after = 0 ∧ z.2.slots = k) ∧
      (segs.map fun z => l.findIdx (·.home / 64 * 64 = z.1)).Pairwise (· < ·) := by
  have scale (x a : Nat) : x * 64 = a * 64 ↔ x = a := by omega
  dsimp only
  rw [segsOf_pieces, pieces, List.map_map]
  refine ⟨fun q hq => ⟨_, List.mem_map_of_mem (distinct_mem.2 (List.mem_map_of_mem hq)), rfl⟩, fun z hz => ?_, ?_⟩
  · obtain ⟨a, -, rfl⟩ := List.mem_map.1 hz
    simp only [Function.comp_def, scale, and_self]
  · rw [List.map_map]
    simpa only [Function.comp_def, scale] using findIdx_distinct (fun q : LaneReq => q.home / 64) l

end Sys2Proof.Machine
end

section
namespace Sys2Proof.Machine

/-! ### Where the lanes of a word go (R143 to R147, R170) -/

theorem homeOf_lt {x : Nat} (h : homeOf x ≠ .nothing) : x < 2 ^ 48 := by
  by_contra far
  refine h ?_
  unfold homeOf hbmSize
  rw [if_neg (by omega), if_neg (by simp; omega), if_neg (by simp; omega), if_neg (by simp; omega)]

section
variable {s : State} {m : Team} {hdr pass : Nat} {a : MemAct} {q : LaneReq}

theorem State.placed_lane : (s.placed m hdr pass a q).lane = q.lane ∧ (s.placed m hdr pass a q).va = q.va := by
  unfold State.placed State.placeLane
  repeat' (first | split | exact ⟨rfl, rfl⟩)

theorem State.placed_fault {c : Nat} (h : s.laneXl m a q = .fault c) :
    s.placed m hdr pass a q = { q with st := .err, got := c, due := s.wtc + 1 } := by
  unfold State.placed State.placeLane
  rw [h]

theorem State.placed_walk (h : s.laneXl m a q = .walk) : s.placed m hdr pass a q = { q with st := .walk } := by
  unfold State.placed State.placeLane
  rw [h]

theorem State.placed_near (local_ : a.space = 1) {x : Nat} (h : s.nearHome m a q = some x) (real : homeOf x ≠ .nothing) :
    s.placed m hdr pass a q = { q with st := .moving, home := x, due := 0 } := by
  unfold State.nearHome at h
  unfold State.placed State.placeLane
  split at h
  · next pa tgt xl =>
    split at h
    · next y dest =>
      obtain rfl : y = x := Option.some.inj h
      simp only [xl, State.flightOf, dest, local_]
      split
      · contradiction
      · rfl
    · cases h
  · cases h

theorem State.placed_far (remote : a.space = 2) {x : Nat} (h : s.farHome m a q = some x) :
    s.placed m hdr pass a q = { q with st := .moving, home := x, due := 0 } := by
  unfold State.farHome at h
  unfold State.placed State.placeLane
  split at h
  · next pa tgt xl =>
    split at h
    · next y dest =>
      obtain rfl : y = x := Option.some.inj h
      simp only [xl, State.flightOf, dest, remote, if_true]
    · cases h
  · cases h

/-- The states a translation leaves a lane in. -/
theorem State.placed_st : (s.placed m hdr pass a q).st = .moving ∨ (s.placed m hdr pass a q).st = .err ∨
    (s.placed m hdr pass a q).st = .walk := by
  unfold State.placed State.placeLane
  repeat' (first | split | exact .inl rfl | exact .inr (.inl rfl) | exact .inr (.inr rfl))

/-- Of a global word the lanes on their way to device memory are those whose home is there. -/
theorem State.placed_hbm (local_ : a.space = 1) :
    ((s.placed m hdr pass a q).isNew && homeOf (s.placed m hdr pass a q).home = .hbm) =
      match s.nearHome m a q with | some x => decide (homeOf x = .hbm) | none => false := by
  have outside (y : Nat) : homeOf (1152921504606846976 + y) ≠ .hbm := fun hbm => by
    have := homeOf_lt (x := 1152921504606846976 + y) (by simp [hbm])
    omega
  unfold State.placed State.placeLane State.nearHome
  cases s.laneXl m a q with
  | fault c => rfl
  | walk => rfl
  | ok pa tgt =>
    simp only [State.flightOf, local_]
    cases s.dest m.pl.pkg pa tgt with
    | here x =>
      simp only [OfNat.one_ne_ofNat, if_false]
      cases home : homeOf x <;> simp [LaneReq.isNew, home]
    | away x => rfl
    | ual x => rfl
    | host y =>
      cases a.kind <;> simp [LaneReq.isNew, outside]

end

end Sys2Proof.Machine
end

section
namespace Sys2Proof.Machine

/-! ### Global words (R151 to R153, R155, R208) -/

theorem State.addFlight_gang (s : State) (m : Team) (a : MemAct) (f : Flight) :
    (s.addFlight m a f).gangs = s.gangs ∧ (s.addFlight m a f).wtc = s.wtc := by
  unfold State.addFlight
  split <;> exact ⟨rfl, rfl⟩

/-- The tag board holds a word's lanes exactly where its round is held. -/
theorem State.roundHeld_iff (s : State) (m : Team) (hdr pass : Nat) (a : MemAct) (l : List LaneReq) (f : Flight) :
    ((s.fresh.2.addFlight m a f).roundHeld { s.flightOf m hdr pass a with lanes := l } && a.kind ≠ .load) = true ↔ s.holdsTags m a := by
  have gang : (s.fresh.2.addFlight m a f).gang? m.pl.gang = s.gang? m.pl.gang := by
    simp only [State.gang?, (State.addFlight_gang ..).1]
    rfl
  simp only [State.roundHeld, State.flightOf, gang, State.holdsTags, Option.mem_def]
  cases s.gang? m.pl.gang with
  | none => simp
  | some g =>
    by_cases det : g.desc.flags / 2 % 2 = 1 <;> cases m.region <;>
      simp [det, Nat.testBit_eq_decide_div_mod_eq, and_comm]

theorem LaneReq.sent_old {q : LaneReq} (h : q.isNew = false) (core c : Nat) : q.sent core c = q := by
  simp [LaneReq.sent, h]

theorem LaneReq.held_old {q : LaneReq} (h : q.isNew = false) (hold : Bool) : q.held hold = q := by
  simp [LaneReq.held, h]

theorem LaneReq.held_st (hold : Bool) (q : LaneReq) : (q.held hold).st = q.st ∨ (q.held hold).st = .held := by
  unfold LaneReq.held
  split
  · exact .inr rfl
  · exact .inl rfl

/-- A lane of a global word as the commit leaves it. -/
def State.left (s : State) (m : Team) (hdr pass : Nat) (a : MemAct) (hold : Bool) (q : LaneReq) : LaneReq :=
  ((s.placed m hdr pass a q).held hold).sent m.pl.core s.wtc

theorem State.left_waits (s : State) (m : Team) (hdr pass : Nat) (a : MemAct) (hold : Bool) (q : LaneReq) :
    (s.left m hdr pass a hold q).over = false := by
  have sent : (s.left m hdr pass a hold q).st = _ := (LaneReq.sent_home m.pl.core s.wtc _).2.2.1
  rw [LaneReq.over, sent]
  rcases LaneReq.held_st hold (s.placed m hdr pass a q) with st | st
  · rw [st]
    rcases s.placed_st (m := m) (hdr := hdr) (pass := pass) (a := a) (q := q) with st | st | st <;> simp [st]
  · simp [st]

/-- What a global word leaves: its flight with the lanes on their way, the steps to local stores, the packet to device memory, the
reports of known faults and the walks. -/
theorem globalWord_issueMem {s : State} {m : Team} {a : MemAct} (h : s.committing m a) (global : a.space = 1) (hdr pass : Nat)
    {hold : Bool} (holds : hold = true ↔ s.holdsTags m a) :
    let t := s.issueMem m hdr pass a
    let f := { s.flightOf m hdr pass a with lanes := a.lanes.map (s.left m hdr pass a hold) }
    let hbm := ((a.lanes.map fun q => (s.placed m hdr pass a q).held hold).filter (·.isNew)).filter (homeOf ·.home = .hbm)
    Added s t m a f ∧
      (∀ q ∈ a.lanes, ((s.placed m hdr pass a q).held hold).isNew = true → ∀ d o, homeOf ((s.placed m hdr pass a q).held hold).home = .ls d o →
        t.planned (s.left m hdr pass a hold q).due (.packageGlobalAccess f.id)) ∧
      (hbm ≠ [] → ∃ g ∈ t.gathers, t.planned (s.wtc + 200) (.gatherPacketArrival g.id) ∧
        g.segs = segsOf f.id (if a.kind = .atomF || a.kind = .atomN then 2 else 1) hbm []) ∧
      (∀ q ∈ f.lanes, q.st = .err → t.planned q.due (.faultReport f.id)) ∧
      (∀ q ∈ f.lanes, q.st = .walk → t.walked f.id (q.va / 4096 * 4096)) := by
  obtain ⟨-, some_lane, -, -, -, alive, -, -⟩ := id h
  dsimp only
  rw [State.issueMem_away h (.inl global)]
  have added := State.addFlight_added h (.fresh m.id s)
    (f := { s.flightOf m hdr pass a with lanes := a.lanes.map (s.placed m hdr pass a) }) rfl
  have round := s.roundHeld_iff m hdr pass a (a.lanes.map (s.placed m hdr pass a))
    { s.flightOf m hdr pass a with lanes := a.lanes.map (s.placed m hdr pass a) }
  have lives : (s.fresh.2.addFlight m a { s.flightOf m hdr pass a with lanes := a.lanes.map (s.placed m hdr pass a) }).gangKilled
      m.pl.gang = false := by
    obtain ⟨gangs, wtc⟩ := s.fresh.2.addFlight_gang m a { s.flightOf m hdr pass a with lanes := a.lanes.map (s.placed m hdr pass a) }
    simp only [State.gangKilled, State.gang?, gangs, wtc]
    exact alive
  generalize s.fresh.2.addFlight m a { s.flightOf m hdr pass a with lanes := a.lanes.map (s.placed m hdr pass a) } = u at added round lives ⊢
  have launch : u.launchLanes s.nextId s.wtc = (((u.holdTagged s.nextId).sendLanes s.nextId s.wtc).reportAt s.nextId).settle s.nextId := by
    have found : u.flight? s.nextId = _ := added.last.flight?
    simp only [State.launchLanes, found, State.flightOf, global]
    rfl
  have same : (u.roundHeld { s.flightOf m hdr pass a with lanes := a.lanes.map (s.placed m hdr pass a) } && a.kind ≠ .load) = hold :=
    Bool.eq_iff_iff.2 (round.trans holds.symm)
  have held : Added s (u.holdTagged s.nextId) m a { s.flightOf m hdr pass a with
      lanes := a.lanes.map fun q => (s.placed m hdr pass a q).held hold } := by
    have board := added.holdTagged lives
    rw [← same]
    simp only [List.map_map] at board
    exact board
  obtain ⟨sent, ls, packet⟩ := held.sendLanes s.wtc
  have left : (a.lanes.map fun q => (s.placed m hdr pass a q).held hold).map (LaneReq.sent m.pl.core s.wtc) =
      a.lanes.map (s.left m hdr pass a hold) := List.map_map
  change Added s ((u.holdTagged s.nextId).sendLanes s.nextId s.wtc) m a { s.flightOf m hdr pass a with
    lanes := (a.lanes.map fun q => (s.placed m hdr pass a q).held hold).map (LaneReq.sent m.pl.core s.wtc) } at sent
  rw [left] at sent
  have reported := sent.onward (.reportAt m.id ((u.holdTagged s.nextId).sendLanes s.nextId s.wtc) s.nextId)
  obtain ⟨q₀, hq₀⟩ := List.exists_mem_of_ne_nil _ some_lane
  have stays : (((u.holdTagged s.nextId).sendLanes s.nextId s.wtc).reportAt s.nextId).settle s.nextId = ((u.holdTagged s.nextId).sendLanes s.nextId s.wtc).reportAt s.nextId :=
    reported.settle (List.mem_map_of_mem hq₀) (s.left_waits m hdr pass a hold q₀)
  rw [launch, stays]
  obtain ⟨walking, onward, walks⟩ := reported.walksFor
  have behind : Onward m.id ((u.holdTagged s.nextId).sendLanes s.nextId s.wtc)
      ((((u.holdTagged s.nextId).sendLanes s.nextId s.wtc).reportAt s.nextId).walksFor s.nextId) := (Onward.reportAt m.id ((u.holdTagged s.nextId).sendLanes s.nextId s.wtc) s.nextId).trans onward
  refine ⟨walking, fun q hq new d o home => ?_, fun some_hbm => ?_, fun q hq bad => ?_, walks⟩
  · exact State.planned_of_subset behind.agenda (ls _ (List.mem_map_of_mem hq) new d o home)
  · obtain ⟨g, hg, planned, segs⟩ := packet some_hbm
    exact ⟨g, behind.gathers hg, State.planned_of_subset behind.agenda planned, segs⟩
  · exact State.planned_of_subset onward.agenda (sent.last.reportAt hq (by simp [LaneReq.failed, bad]))

end Sys2Proof.Machine
end

section
namespace Sys2Proof.Machine

/-- The lanes of a flight that count in the request table. -/
def Flight.taken (f : Flight) : Nat := (f.lanes.filter fun q => !q.over && (f.space = 2 || q.home < 2 ^ 60)).length

/-- A flight that joins the others takes an entry of its core's table for each lane that counts, if its word does (R155, R190). -/
theorem Added.entries {s t : State} {m : Team} {a : MemAct} {f : Flight} (h : Added s t m a f) (p c : Nat) :
    t.entries p c = s.entries p c + if f.pkg = p ∧ f.core = c ∧ takesEntry f.space f.kind = true then f.taken else 0 := by
  unfold State.entries
  rw [h.last.flights, List.filter_append, List.foldl_append]
  by_cases mine : f.pkg = p ∧ f.core = c ∧ takesEntry f.space f.kind = true
  · rw [if_pos mine, List.filter_singleton]
    simp [mine, Flight.taken]
  · rw [if_neg mine, List.filter_singleton]
    have other : (f.pkg = p && f.core = c && takesEntry f.space f.kind) = false := by
      simpa [and_assoc] using mine
    rw [other]
    rfl

theorem Flight.taken_all {f : Flight} (h : ∀ q ∈ f.lanes, q.over = false ∧ (f.space = 2 ∨ q.home < 2 ^ 60)) : f.taken = f.lanes.length := by
  rw [Flight.taken, List.filter_eq_self.2]
  intro q hq
  obtain ⟨waits, counts⟩ := h q hq
  rw [waits]
  simpa using counts

section
variable {s : State} {m : Team} {hdr pass : Nat} {a : MemAct} {q : LaneReq}

theorem State.left_lane (hold : Bool) : (s.left m hdr pass a hold q).lane = q.lane := by
  refine (LaneReq.sent_home m.pl.core s.wtc _).2.1.trans (Eq.trans ?_ (s.placed_lane (m := m) (hdr := hdr) (pass := pass) (a := a)).1)
  unfold LaneReq.held
  split <;> rfl

theorem State.left_home (hold : Bool) : (s.left m hdr pass a hold q).home = (s.placed m hdr pass a q).home := by
  refine (LaneReq.sent_home m.pl.core s.wtc _).1.trans ?_
  unfold LaneReq.held
  split <;> rfl

/-- A lane that does not move is left as its translation placed it. -/
theorem State.left_still (hold : Bool) (still : (s.placed m hdr pass a q).isNew = false) :
    s.left m hdr pass a hold q = s.placed m hdr pass a q := by
  rw [State.left, LaneReq.held_old still, LaneReq.sent_old still]

end

/-- The lanes of a global word with a home in device memory. -/
def State.toHbm (s : State) (m : Team) (a : MemAct) (q : LaneReq) : Bool :=
  match s.nearHome m a q with | some x => homeOf x = .hbm | none => false

/-- The lanes that leave for device memory are the placed lanes with a home there. -/
theorem hbm_lanes {s : State} {m : Team} {a : MemAct} (global : a.space = 1) (hdr pass : Nat) :
    ((a.lanes.map fun q => (s.placed m hdr pass a q).held false).filter (·.isNew)).filter (homeOf ·.home = .hbm) =
      (a.lanes.filter (s.toHbm m a)).map fun q => { s.placed m hdr pass a q with home := (s.nearHome m a q).getD 0 } := by
  have free : (fun q => (s.placed m hdr pass a q).held false) = s.placed m hdr pass a := by
    funext q
    simp [LaneReq.held]
  rw [free, List.filter_filter, List.filter_map]
  have same : a.lanes.filter ((fun q : LaneReq => decide (homeOf q.home = .hbm) && q.isNew) ∘ s.placed m hdr pass a) =
      a.lanes.filter (s.toHbm m a) := by
    refine List.filter_congr fun q _ => ?_
    rw [Function.comp, Bool.and_comm]
    exact s.placed_hbm global
  rw [same]
  refine List.map_congr_left fun q hq => ?_
  have there := (List.mem_filter.1 hq).2
  unfold State.toHbm at there
  split at there
  · next x near =>
    have placed := s.placed_near (hdr := hdr) (pass := pass) global near fun none => by simp [none] at there
    rw [placed, near]
    rfl
  · cases there

/-- The packet of a global word to device memory, by the homes of its lanes (R152, R153). -/
theorem hbm_packet {s t : State} {m : Team} {hdr pass : Nat} {a : MemAct} (f : Flight)
    (packet : (a.lanes.filter (s.toHbm m a)) ≠ [] → ∃ g ∈ t.gathers, t.planned (s.wtc + 200) (.gatherPacketArrival g.id) ∧
      g.segs = segsOf f.id (if a.kind = .atomF || a.kind = .atomN then 2 else 1)
        ((a.lanes.filter (s.toHbm m a)).map fun q => { s.placed m hdr pass a q with home := (s.nearHome m a q).getD 0 }) []) :
    let piece (q : LaneReq) : Nat := ((s.nearHome m a q).getD 0) / 64 * 64
    let hbm := a.lanes.filter (s.toHbm m a)
    hbm ≠ [] → ∃ g ∈ t.gathers, t.planned (s.wtc + 200) (.gatherPacketArrival g.id) ∧
      (∀ q ∈ hbm, ∃ z ∈ g.segs, z.1 = piece q) ∧
      (∀ z ∈ g.segs, z.2.op = .lanes f.id ((hbm.filter fun q => piece q = z.1).map (·.lane)) ∧ z.2.after = 0 ∧
        z.2.slots = if a.kind = .atomF ∨ a.kind = .atomN then 2 else 1) ∧
      (g.segs.map fun z => hbm.findIdx fun q => piece q = z.1).Pairwise (· < ·) := by
  intro piece hbm some_hbm
  obtain ⟨g, hg, planned, segs⟩ := packet some_hbm
  obtain ⟨needed, served, order⟩ := segsOf_spec f.id (if a.kind = .atomF || a.kind = .atomN then 2 else 1)
    (hbm.map fun q => { s.placed m hdr pass a q with home := (s.nearHome m a q).getD 0 })
  rw [← segs] at needed served order
  rw [List.forall_mem_map] at needed
  simp only [List.filter_map, List.map_map, Function.comp_def, State.placed_lane, Bool.or_eq_true, decide_eq_true_eq] at served
  simp only [List.findIdx_map, Function.comp_def] at order
  exact ⟨g, hg, planned, needed, served, order⟩

/-- What becomes of a lane whose translation gives no home (R147, R312). -/
theorem strays_of {s t : State} {m : Team} {a : MemAct} {hdr pass : Nat} {q r : LaneReq}
    (still : (s.placed m hdr pass a q).isNew = false → r = s.placed m hdr pass a q)
    (report : r.st = .err → t.planned r.due (.faultReport s.nextId))
    (walk : r.st = .walk → t.walked s.nextId (r.va / 4096 * 4096)) : strays m a q r s t := by
  refine ⟨fun c xl => ?_, fun xl => ?_⟩
  · have placed := s.placed_fault (hdr := hdr) (pass := pass) xl
    obtain rfl := (still (by simp [placed, LaneReq.isNew])).trans placed
    exact ⟨rfl, rfl, report rfl⟩
  · have placed := s.placed_walk (hdr := hdr) (pass := pass) xl
    obtain rfl := (still (by simp [placed, LaneReq.isNew])).trans placed
    exact ⟨rfl, walk rfl⟩

theorem globalCommit_issueMem {s : State} {m : Team} {a : MemAct} (h : s.committing m a) (global : a.space = 1) (hdr pass : Nat) :
    globalCommit m a s (s.issueMem m hdr pass a) := by
  classical
  obtain ⟨-, -, -, -, sb, -, -, -⟩ := id h
  obtain ⟨hold, holds⟩ : ∃ hold : Bool, hold = true ↔ s.holdsTags m a := ⟨decide (s.holdsTags m a), decide_eq_true_iff⟩
  obtain ⟨added, ls, packet, reports, walks⟩ := globalWord_issueMem h global hdr pass holds
  refine ⟨added.staged, _, added.flies, fun q hq => ⟨_, List.mem_map_of_mem hq, s.left_lane hold, ?_, ?_⟩, fun some_hbm free => ?_, ?_⟩
  · exact strays_of (s.left_still hold) (reports _ (List.mem_map_of_mem hq)) (walks _ (List.mem_map_of_mem hq))
  · intro x near real
    have placed := s.placed_near (hdr := hdr) (pass := pass) global near real
    refine ⟨(s.left_home hold).trans (by rw [placed]), fun c o home => ?_, fun home held => ?_⟩
    · have stays : (s.placed m hdr pass a q).held hold = s.placed m hdr pass a q := by
        simp [LaneReq.held, placed, home]
      have left : s.left m hdr pass a hold q = { q with st := .moving, home := x, due := s.wtc + 20 + torus m.pl.core c } := by
        rw [State.left, stays, placed]
        simp [LaneReq.sent, LaneReq.isNew, home]
      have planned := ls q hq (by rw [stays, placed]; rfl) c o (by rw [stays, placed]; exact home)
      rw [left] at planned
      rw [left]
      exact ⟨rfl, rfl, planned⟩
    · have board : (s.placed m hdr pass a q).held hold = { q with st := .held, home := x, due := 0 } := by
        rw [holds.2 held, placed]
        simp [LaneReq.held, LaneReq.isNew, home]
      rw [State.left, board]
      rfl
  · obtain rfl : hold = false := Bool.eq_false_iff.2 (mt holds.1 free)
    rw [hbm_lanes global hdr pass] at packet
    exact hbm_packet _ (fun some_lane => packet (by simpa using some_lane)) some_hbm
  · intro near
    refine ⟨added.counted sb, (added.entries ..).trans ?_⟩
    rw [if_pos ⟨rfl, rfl, by simp [State.flightOf, takesEntry, global]⟩]
    rw [Flight.taken_all, List.length_map]
    rw [List.forall_mem_map]
    intro q hq
    obtain ⟨x, hx, real⟩ := near q hq
    have low := homeOf_lt real
    refine ⟨s.left_waits m hdr pass a hold q, .inr ?_⟩
    rw [s.left_home hold, s.placed_near global hx real]
    exact low.trans (by norm_num)

/-! ### Remote words (R155, R172, R187, R190) -/

/-- A lane of a remote word as the commit leaves it. -/
def State.asked (s : State) (m : Team) (hdr pass : Nat) (a : MemAct) (q : LaneReq) : LaneReq :=
  let p := s.placed m hdr pass a q
  if p.isNew then { p with due := s.wtc + 40 } else p

theorem State.asked_lane {s : State} {m : Team} {hdr pass : Nat} {a : MemAct} {q : LaneReq} : (s.asked m hdr pass a q).lane = q.lane := by
  refine Eq.trans ?_ (s.placed_lane (m := m) (hdr := hdr) (pass := pass) (a := a)).1
  unfold State.asked
  dsimp only
  split <;> rfl

theorem State.asked_waits {s : State} {m : Team} {hdr pass : Nat} {a : MemAct} {q : LaneReq} : (s.asked m hdr pass a q).over = false := by
  have st : (s.asked m hdr pass a q).st = (s.placed m hdr pass a q).st := by
    unfold State.asked
    dsimp only
    split <;> rfl
  rw [LaneReq.over, st]
  rcases s.placed_st (m := m) (hdr := hdr) (pass := pass) (a := a) (q := q) with st | st | st <;> simp [st]

/-- What a remote word leaves: its flight with the request of its lanes, the reports of known faults and the walks. -/
theorem remoteWord_issueMem {s : State} {m : Team} {a : MemAct} (h : s.committing m a) (remote : a.space = 2) (hdr pass : Nat) :
    let t := s.issueMem m hdr pass a
    let f := { s.flightOf m hdr pass a with lanes := a.lanes.map (s.asked m hdr pass a) }
    Added s t m a f ∧
      (∀ q ∈ a.lanes, (s.placed m hdr pass a q).isNew = true →
        t.planned (s.wtc + 40) (if a.kind = .load then .remoteLoadRequest f.id else .tubOffer f.id)) ∧
      (∀ q ∈ f.lanes, q.st = .err → t.planned q.due (.faultReport f.id)) ∧
      (∀ q ∈ f.lanes, q.st = .walk → t.walked f.id (q.va / 4096 * 4096)) := by
  dsimp only
  rw [State.issueMem_away h (.inr remote)]
  have added := State.addFlight_added h (.fresh m.id s)
    (f := { s.flightOf m hdr pass a with lanes := a.lanes.map (s.placed m hdr pass a) }) rfl
  generalize s.fresh.2.addFlight m a { s.flightOf m hdr pass a with lanes := a.lanes.map (s.placed m hdr pass a) } = u at added ⊢
  have launch : u.launchLanes s.nextId s.wtc = (u.offerAt s.nextId s.wtc).reportAt s.nextId := by
    have found : u.flight? s.nextId = _ := added.last.flight?
    simp only [State.launchLanes, found, State.flightOf, remote, if_true]
  obtain ⟨offered, request⟩ := added.offerAt s.wtc
  have asked : (a.lanes.map (s.placed m hdr pass a)).map (fun q => if q.isNew then { q with due := s.wtc + 40 } else q) =
      a.lanes.map (s.asked m hdr pass a) := List.map_map
  change Added s (u.offerAt s.nextId s.wtc) m a { s.flightOf m hdr pass a with
    lanes := (a.lanes.map (s.placed m hdr pass a)).map fun q => if q.isNew then { q with due := s.wtc + 40 } else q } at offered
  rw [asked] at offered
  have reported := offered.onward (.reportAt m.id (u.offerAt s.nextId s.wtc) s.nextId)
  obtain ⟨walking, onward, walks⟩ := reported.walksFor
  rw [launch]
  refine ⟨walking, fun q hq new => ?_, fun q hq bad => ?_, walks⟩
  · exact State.planned_of_subset ((Onward.reportAt m.id (u.offerAt s.nextId s.wtc) s.nextId).trans onward).agenda
      (request _ (List.mem_map_of_mem hq) new)
  · exact State.planned_of_subset onward.agenda (offered.last.reportAt hq (by simp [LaneReq.failed, bad]))

theorem remoteCommit_issueMem {s : State} {m : Team} {a : MemAct} (h : s.committing m a) (remote : a.space = 2) (hdr pass : Nat) :
    remoteCommit m a s (s.issueMem m hdr pass a) := by
  obtain ⟨-, -, -, -, sb, -, -, -⟩ := id h
  obtain ⟨added, request, reports, walks⟩ := remoteWord_issueMem h remote hdr pass
  refine ⟨added.staged, added.counted sb, _, added.flies, fun q hq => ⟨_, List.mem_map_of_mem hq, s.asked_lane, ?_, ?_⟩, fun _ => ?_⟩
  · refine strays_of (hdr := hdr) (pass := pass) (fun still => ?_) (reports _ (List.mem_map_of_mem hq)) (walks _ (List.mem_map_of_mem hq))
    simp [State.asked, still]
  · intro x far
    have placed := s.placed_far (hdr := hdr) (pass := pass) remote far
    have new : (s.placed m hdr pass a q).isNew = true := by
      rw [placed]
      rfl
    have asked : s.asked m hdr pass a q = { q with st := .moving, home := x, due := s.wtc + 40 } := by
      rw [State.asked, if_pos new, placed]
    rw [asked]
    exact ⟨rfl, rfl, rfl, request q hq new⟩
  · refine (added.entries ..).trans (congrArg (s.entries m.pl.pkg m.pl.core + ·) ?_)
    have taken : ({ s.flightOf m hdr pass a with lanes := a.lanes.map (s.asked m hdr pass a) } : Flight).taken = a.lanes.length := by
      rw [Flight.taken_all, List.length_map]
      rw [List.forall_mem_map]
      exact fun q _ => ⟨s.asked_waits, .inl remote⟩
    rw [taken]
    simp [State.flightOf, takesEntry, remote]

end Sys2Proof.Machine

namespace Sys2Proof
open Machine

/-- Settles O24: a memory word's commit puts one flight or staged entry behind the others, and what it sends is behind that flight. -/
theorem memoryCommit : Obligations.MemoryCommit := by
  intro s m c r last a h whole
  rw [State.applyAct_mem_word whole]
  exact ⟨State.issueMem_mem .., State.issueMem_acc .., fun own => localCommit_issueMem h own .., fun acc _ => accCommit_issueMem h acc ..,
    fun global => globalCommit_issueMem h global .., fun remote => remoteCommit_issueMem h remote ..⟩

end Sys2Proof
end

section
namespace Sys2Proof.Machine

/-- An outcome whose next state has the memory of a state. -/
def KeepsMem (s : State) (o : Out) : Prop := ∀ t, o = .next t → t.mem = s.mem

@[simp] theorem keepsMem_next {s t : State} : KeepsMem s (.next t) ↔ t.mem = s.mem :=
  ⟨fun h => h t rfl, fun h _ e => Host.Outcome.next.inj e ▸ h⟩

theorem keepsMem_request {s : State} {p tag : Nat} {o : Out} (h : KeepsMem s o) : KeepsMem s (s.request p tag o) := by
  unfold State.request
  dsimp only
  split
  · exact h
  · rw [keepsMem_next]
    split <;> simp

end Sys2Proof.Machine
end

section
namespace Sys2Proof.Machine

theorem State.offerAll_mem (p : Nat) (l : List Elem) (s : State) : (State.offerAll p l s).mem = s.mem := by
  induction l generalizing s with
  | nil => rfl
  | cons e l ih =>
    unfold State.offerAll
    have offered := State.offer_mem s p e
    split
    · rfl
    · split
      · next eq => exact (ih _).trans (by rw [eq] at offered; exact offered)
      · next eq => exact (by rw [eq] at offered; exact offered)

theorem State.enterWaiting_mem (p n : Nat) (s : State) : (State.enterWaiting p n s).mem = s.mem := by
  induction n generalizing s with
  | zero => rfl
  | succ n ih =>
    unfold State.enterWaiting
    split
    · rfl
    · next e es waiting =>
      have offered := State.offer_mem s p e
      split
      · next eq => exact (ih _).trans (by rw [eq] at offered; exact offered)
      · next eq => exact (by rw [eq] at offered; exact offered)

theorem State.advanceHead_mem (s : State) (p c n : Nat) : (s.advanceHead p c n).mem = s.mem := by
  induction n generalizing s with
  | zero => rfl
  | succ n ih =>
    unfold State.advanceHead
    repeat' split
    all_goals first | rfl | exact ih _

theorem State.mmWrite_mem (s : State) (p c : Nat) (k : Card) (n : Nat) : (s.mmWrite p c k n).mem = s.mem := by
  unfold State.mmWrite
  generalize List.range 4 = places
  dsimp only
  split
  · simp
  · rw [ite_mem, State.finishCard_mem, ite_self, State.modCard_mem, State.modTeam_mem]
    refine (foldl_eq State.mem _ (by exact fun s z _ => rfl) _).trans ?_
    split
    · rfl
    · exact State.correctAcc_mem ..

@[simp] theorem execGatherPacketArrival_keepsMem (i : Nat) (s : State) : KeepsMem s (execGatherPacketArrival i s) := by
  unfold execGatherPacketArrival
  split
  · simp
  · rw [keepsMem_next]
    refine foldl_eq State.mem _ (fun s z _ => ?_) _
    dsimp only
    repeat' split
    all_goals simp

@[simp] theorem execTubOffer_keepsMem (i : Nat) (s : State) : KeepsMem s (execTubOffer i s) := by
  unfold execTubOffer
  split
  · simp
  · rw [keepsMem_next, State.offerAll_mem]
    split <;> rfl

@[simp] theorem execTubFreeInsertion_keepsMem (p : Nat) (s : State) : KeepsMem s (execTubFreeInsertion p s) :=
  keepsMem_next.2 (State.enterWaiting_mem ..)

@[simp] theorem execRemoteOldValueWritten_keepsMem (p i : Nat) (s : State) : KeepsMem s (execRemoteOldValueWritten p i s) := by
  unfold execRemoteOldValueWritten
  split
  · simp
  · dsimp only
    split
    · rw [keepsMem_next]
      refine (foldl_eq State.mem _ (fun s f _ => ?_) _).trans rfl
      repeat' split
      all_goals simp
    · simp

@[simp] theorem execTuberrHeadAdvance_keepsMem (i : Nat) (s : State) : KeepsMem s (execTuberrHeadAdvance i s) := by
  unfold execTuberrHeadAdvance
  split
  · simp
  · exact keepsMem_next.2 (State.advanceHead_mem ..)

@[simp] theorem execWaitphDeadline_keepsMem (t : Nat) (s : State) : KeepsMem s (execWaitphDeadline t s) := by
  unfold execWaitphDeadline
  split
  · simp
  · rw [keepsMem_next]
    refine foldl_eq State.mem _ (fun s w _ => ?_) _
    dsimp only
    repeat' split
    all_goals simp

@[simp] theorem execMatrixStep_keepsMem (p c n part : Nat) (s : State) : KeepsMem s (execMatrixStep p c n part s) := by
  unfold execMatrixStep
  repeat' split
  all_goals simp [State.mmWrite_mem]

@[simp] theorem execSendat_keepsMem (p c i : Nat) (s : State) : KeepsMem s (execSendat p c i s) := by
  have planned (l : List (Nat × Nat)) (s : State) :
      (l.foldl (fun (s : State) z => s.at z.2 pRead [c, c, z.1] (.sendatChunkRead p c i z.1)) s).mem = s.mem :=
    foldl_eq State.mem _ (by exact fun _ _ _ => rfl) _
  unfold execSendat
  split
  · simp
  · split
    · simp
    · dsimp only
      generalize List.filter _ _ = left
      rw [keepsMem_next, ite_mem, State.cardSch_mem, ite_self]
      split <;> simp [planned]

@[simp] theorem execRingput_keepsMem (p c i : Nat) (s : State) : KeepsMem s (execRingput p c i s) := by
  unfold execRingput
  split
  · simp
  · generalize List.range _ = chunks
    split
    · simp
    · rw [keepsMem_next, State.at_mem]
      refine (foldl_eq State.mem _ (by exact fun _ _ _ => rfl) _).trans ?_
      simp

theorem State.takenOrDropped_mem (s : State) (p i dcore core card size srcCore : Nat) (r : Ring) (bs : List Byte) (x : Packet) :
    (if s.ringTakes p dcore r x.src srcCore size = true then (s.takeMessage p i dcore r size bs).ackRing p x core card dcore true
      else (s.modCore p dcore (·.countDrop)).ackRing p x core card dcore false).mem = s.mem := by
  split <;> simp

@[simp] theorem execRingMessageArrival_keepsMem (p i : Nat) (s : State) : KeepsMem s (execRingMessageArrival p i s) := by
  intro u e
  unfold execRingMessageArrival at e
  split at e
  · exact keepsMem_next.2 rfl u e
  · extract_lets dropped at e
    have same : dropped.mem = s.mem := State.dropPacket_mem ..
    clear_value dropped
    split at e
    · extract_lets size at e
      split at e
      · exact keepsMem_next.2 (by simp [same]) u e
      · extract_lets read at e
        have met : read.mem = s.mem := (State.meetRead_mem ..).trans same
        clear_value read
        exact keepsMem_next.2 ((State.takenOrDropped_mem ..).trans met) u e
    · exact keepsMem_next.2 same u e

@[simp] theorem execFrameBoundary_keepsMem (p : Nat) (s : State) : KeepsMem s (execFrameBoundary p s) := by
  unfold execFrameBoundary
  generalize List.range 512 = chans
  extract_lets x fresh answered now
  have same : now.mem = s.mem := by
    refine Eq.trans (State.modPkg_mem ..) ?_
    unfold answered
    split <;> simp
  clear_value now fresh
  split
  · simp [same]
  · split
    · simp [same]
    · rw [keepsMem_next]
      split
      · simp [same]
      · split
        · simp [same]
        · exact (foldl_eq State.mem _ (by exact fun _ _ _ => rfl) _).trans ((State.once_mem ..).trans same)

@[simp] theorem execTubageWrite_keepsMem (p : Nat) (x : Word) (s : State) : KeepsMem s (execTubageWrite p x s) := by
  unfold execTubageWrite
  generalize List.range 64 = ports
  rw [keepsMem_next]
  exact (foldl_eq State.mem _ (by exact fun _ _ _ => rfl) _).trans rfl

@[simp] theorem execCtxDestroy_keepsMem (p tag ctx : Nat) (s : State) : KeepsMem s (execCtxDestroy p tag ctx s) := by
  refine keepsMem_request ?_
  generalize List.range 256 = cores
  repeat' split
  · simp
  · simp
  · rw [keepsMem_next, State.respond_mem]
    exact (foldl_eq State.mem _ (by exact fun _ _ _ => rfl) _).trans rfl

end Sys2Proof.Machine
end

section
namespace Sys2Proof.Machine

@[simp] theorem execClauseStart_keepsMem (p c : Nat) (s : State) : KeepsMem s (execClauseStart p c s) := by
  unfold execClauseStart
  split <;> simp

@[simp] theorem execTeamEnd_keepsMem (t : Nat) (s : State) : KeepsMem s (execTeamEnd t s) := by
  unfold execTeamEnd
  dsimp only
  repeat' split
  all_goals simp

@[simp] theorem execLoadDataWritten_keepsMem (l : Nat) (s : State) : KeepsMem s (execLoadDataWritten l s) := by
  unfold execLoadDataWritten
  split <;> simp

@[simp] theorem execPageWalk_keepsMem (p q : Nat) (s : State) : KeepsMem s (execPageWalk p q s) := by
  unfold execPageWalk
  dsimp only
  repeat' split
  all_goals simp

@[simp] theorem execWalkLevelRead_keepsMem (p q : Nat) (s : State) : KeepsMem s (execWalkLevelRead p q s) := by
  unfold execWalkLevelRead
  dsimp only
  repeat' split
  all_goals simp

@[simp] theorem execFaultReport_keepsMem (i : Nat) (s : State) : KeepsMem s (execFaultReport i s) := by
  unfold execFaultReport
  split <;> simp

@[simp] theorem execRefreshPhasePoint_keepsMem (p k : Nat) (s : State) : KeepsMem s (execRefreshPhasePoint p k s) := by
  unfold execRefreshPhasePoint
  split <;> simp

@[simp] theorem execComputeBoundRefresh_keepsMem (p n : Nat) (s : State) : KeepsMem s (execComputeBoundRefresh p n s) := by
  unfold execComputeBoundRefresh
  dsimp only
  repeat' split
  all_goals simp

@[simp] theorem execParityAlertReplay_keepsMem (p n : Nat) (s : State) : KeepsMem s (execParityAlertReplay p n s) := by
  unfold execParityAlertReplay
  dsimp only
  repeat' split
  all_goals simp

@[simp] theorem execAgeTrigger_keepsMem (p n : Nat) (s : State) : KeepsMem s (execAgeTrigger p n s) := by
  simp [execAgeTrigger]

@[simp] theorem execElasticSlotSend_keepsMem (p n : Nat) (s : State) : KeepsMem s (execElasticSlotSend p n s) := by
  unfold execElasticSlotSend
  dsimp only
  repeat' split
  all_goals simp

@[simp] theorem execIntermediateForward_keepsMem (p i : Nat) (s : State) : KeepsMem s (execIntermediateForward p i s) := by
  unfold execIntermediateForward
  dsimp only
  repeat' split
  all_goals simp

@[simp] theorem execPacketTakenIn_keepsMem (p i : Nat) (s : State) : KeepsMem s (execPacketTakenIn p i s) := by
  unfold execPacketTakenIn
  dsimp only
  repeat' split
  all_goals simp

@[simp] theorem execElementIssue_keepsMem (p i j : Nat) (s : State) : KeepsMem s (execElementIssue p i j s) := by
  unfold execElementIssue
  dsimp only
  repeat' split
  all_goals simp

@[simp] theorem execAcknowledgementSend_keepsMem (p i : Nat) (s : State) : KeepsMem s (execAcknowledgementSend p i s) := by
  unfold execAcknowledgementSend
  split <;> simp

@[simp] theorem execAcknowledgementArrival_keepsMem (p i : Nat) (s : State) : KeepsMem s (execAcknowledgementArrival p i s) := by
  unfold execAcknowledgementArrival
  dsimp only
  repeat' split
  all_goals simp

@[simp] theorem execTubTimeout_keepsMem (p i : Nat) (s : State) : KeepsMem s (execTubTimeout p i s) := by
  unfold execTubTimeout
  dsimp only
  repeat' split
  all_goals simp

@[simp] theorem execRemoteLoadRequest_keepsMem (i : Nat) (s : State) : KeepsMem s (execRemoteLoadRequest i s) := by
  unfold execRemoteLoadRequest
  split <;> simp

@[simp] theorem execRemoteLoadAccess_keepsMem (p i j : Nat) (s : State) : KeepsMem s (execRemoteLoadAccess p i j s) := by
  unfold execRemoteLoadAccess
  dsimp only
  repeat' split
  all_goals simp

@[simp] theorem execRemoteLoadReply_keepsMem (p i : Nat) (s : State) : KeepsMem s (execRemoteLoadReply p i s) := by
  unfold execRemoteLoadReply
  split <;> simp

@[simp] theorem execRemoteLoadReplyArrival_keepsMem (p i : Nat) (s : State) : KeepsMem s (execRemoteLoadReplyArrival p i s) := by
  unfold execRemoteLoadReplyArrival
  dsimp only
  repeat' split
  all_goals simp

@[simp] theorem execRemoteLoadTimeout_keepsMem (p i : Nat) (s : State) : KeepsMem s (execRemoteLoadTimeout p i s) := by
  unfold execRemoteLoadTimeout
  dsimp only
  repeat' split
  all_goals simp

@[simp] theorem execUalinkCompletion_keepsMem (p i j : Nat) (err : Bool) (old : Nat) (s : State) :
    KeepsMem s (execUalinkCompletion p i j err old s) := by
  unfold execUalinkCompletion
  dsimp only
  repeat' split
  all_goals simp

@[simp] theorem execPodFenceDrain_keepsMem (t : Nat) (s : State) : KeepsMem s (execPodFenceDrain t s) := by
  unfold execPodFenceDrain
  split <;> simp

@[simp] theorem execTflushEffect_keepsMem (p t : Nat) (key : Word) (s : State) : KeepsMem s (execTflushEffect p t key s) := by
  simp [execTflushEffect]

@[simp] theorem execMigdrainReceipt_keepsMem (p i : Nat) (s : State) : KeepsMem s (execMigdrainReceipt p i s) := by
  unfold execMigdrainReceipt
  dsimp only
  repeat' split
  all_goals simp

@[simp] theorem execMigdrainReply_keepsMem (i : Nat) (timeout : Bool) (s : State) : KeepsMem s (execMigdrainReply i timeout s) := by
  unfold execMigdrainReply
  repeat' split
  all_goals simp

@[simp] theorem execBarnRoundComplete_keepsMem (t scope : Nat) (s : State) : KeepsMem s (execBarnRoundComplete t scope s) := by
  simp [execBarnRoundComplete]

@[simp] theorem execFenceCompletion_keepsMem (t : Nat) (s : State) : KeepsMem s (execFenceCompletion t s) := by
  unfold execFenceCompletion
  split <;> simp

@[simp] theorem execTagBoardRelease_keepsMem (g b : Nat) (s : State) : KeepsMem s (execTagBoardRelease g b s) := by
  unfold execTagBoardRelease
  split <;> simp

@[simp] theorem execWaitcRelease_keepsMem (t : Nat) (s : State) : KeepsMem s (execWaitcRelease t s) := by
  simp [execWaitcRelease]

@[simp] theorem execGangStart_keepsMem (g : Nat) (s : State) : KeepsMem s (execGangStart g s) := by
  simp [execGangStart]

@[simp] theorem execCardAcceptance_keepsMem (p c q : Nat) (s : State) : KeepsMem s (execCardAcceptance p c q s) := by
  unfold execCardAcceptance
  dsimp only
  repeat' split
  all_goals simp

@[simp] theorem execMm_keepsMem (p c i : Nat) (s : State) : KeepsMem s (execMm p c i s) := by
  unfold execMm
  repeat' split
  all_goals simp

@[simp] theorem execMzero_keepsMem (p c i : Nat) (s : State) : KeepsMem s (execMzero p c i s) := by
  simp [execMzero]

@[simp] theorem execAload_keepsMem (p c i : Nat) (s : State) : KeepsMem s (execAload p c i s) := by
  simp [execAload]

@[simp] theorem execAdrain_keepsMem (p c i : Nat) (s : State) : KeepsMem s (execAdrain p c i s) := by
  simp [execAdrain]

@[simp] theorem execReExecution_keepsMem (p c n : Nat) (s : State) : KeepsMem s (execReExecution p c n s) := by
  unfold execReExecution
  dsimp only
  repeat' split
  all_goals simp

@[simp] theorem execEdgeRelease_keepsMem (p c i j : Nat) (s : State) : KeepsMem s (execEdgeRelease p c i j s) := by
  simp [execEdgeRelease]

@[simp] theorem execCopy_keepsMem (p c i : Nat) (s : State) : KeepsMem s (execCopy p c i s) := by
  simp [execCopy]

@[simp] theorem execFill_keepsMem (p c i : Nat) (s : State) : KeepsMem s (execFill p c i s) := by
  simp [execFill]

@[simp] theorem execGather_keepsMem (p c i : Nat) (s : State) : KeepsMem s (execGather p c i s) := by
  simp [execGather]

@[simp] theorem execHaulPieceRead_keepsMem (p c part : Nat) (s : State) : KeepsMem s (execHaulPieceRead p c part s) := by
  unfold execHaulPieceRead
  dsimp only
  repeat' split
  all_goals simp

@[simp] theorem execQuant_keepsMem (p c i : Nat) (s : State) : KeepsMem s (execQuant p c i s) := by
  simp [execQuant]

@[simp] theorem execDequant_keepsMem (p c i : Nat) (s : State) : KeepsMem s (execDequant p c i s) := by
  simp [execDequant]

@[simp] theorem execSendatChunkRead_keepsMem (p c i m : Nat) (s : State) : KeepsMem s (execSendatChunkRead p c i m s) := by
  unfold execSendatChunkRead
  dsimp only
  repeat' split
  all_goals simp

@[simp] theorem execScheduledSlotSend_keepsMem (p c i k : Nat) (s : State) : KeepsMem s (execScheduledSlotSend p c i k s) := by
  unfold execScheduledSlotSend
  dsimp only
  repeat' split
  all_goals simp

@[simp] theorem execRecvat_keepsMem (p c i : Nat) (s : State) : KeepsMem s (execRecvat p c i s) := by
  unfold execRecvat
  dsimp only
  repeat' split
  all_goals simp

@[simp] theorem execSlotDelivery_keepsMem (p i : Nat) (s : State) : KeepsMem s (execSlotDelivery p i s) := by
  unfold execSlotDelivery
  dsimp only
  repeat' split
  all_goals simp

@[simp] theorem execCrcReplay_keepsMem (p n : Nat) (s : State) : KeepsMem s (execCrcReplay p n s) := by
  simp [execCrcReplay]

@[simp] theorem execRingAckArrival_keepsMem (p i : Nat) (s : State) : KeepsMem s (execRingAckArrival p i s) := by
  unfold execRingAckArrival
  dsimp only
  repeat' split
  all_goals simp

@[simp] theorem execRingTimeout_keepsMem (p i : Nat) (s : State) : KeepsMem s (execRingTimeout p i s) := by
  unfold execRingTimeout
  split <;> simp

@[simp] theorem execQuiet_keepsMem (p c i : Nat) (s : State) : KeepsMem s (execQuiet p c i s) := by
  unfold execQuiet
  dsimp only
  repeat' split
  all_goals simp

@[simp] theorem execQuietCheck_keepsMem (p c i : Nat) (s : State) : KeepsMem s (execQuietCheck p c i s) := by
  unfold execQuietCheck
  dsimp only
  repeat' split
  all_goals simp

@[simp] theorem execScheduleFault_keepsMem (p kind core slot ctx : Nat) (s : State) :
    KeepsMem s (execScheduleFault p kind core slot ctx s) := by
  unfold execScheduleFault
  dsimp only
  repeat' split
  all_goals simp

@[simp] theorem execHaltReceipt_keepsMem (p b orig kind : Nat) (s : State) : KeepsMem s (execHaltReceipt p b orig kind s) := by
  simp [execHaltReceipt]

@[simp] theorem execHaltAtBoundary_keepsMem (p : Nat) (s : State) : KeepsMem s (execHaltAtBoundary p s) := by
  unfold execHaltAtBoundary
  dsimp only
  repeat' split
  all_goals simp

@[simp] theorem execRestart_keepsMem (p : Nat) (s : State) : KeepsMem s (execRestart p s) := by
  simp [execRestart]

@[simp] theorem execCorrectionPulse_keepsMem (p : Nat) (x : Pulse) (s : State) : KeepsMem s (execCorrectionPulse p x s) := by
  simp [execCorrectionPulse]

@[simp] theorem execTimestampExchange_keepsMem (p : Nat) (skew : Int) (s : State) : KeepsMem s (execTimestampExchange p skew s) := by
  simp [execTimestampExchange]

@[simp] theorem execPtpMessage_keepsMem (p : Nat) (offset : Int) (s : State) : KeepsMem s (execPtpMessage p offset s) := by
  simp [execPtpMessage]

@[simp] theorem execHashmHeldWrite_keepsMem (p k : Nat) (x : Word) (s : State) : KeepsMem s (execHashmHeldWrite p k x s) := by
  simp [execHashmHeldWrite]

@[simp] theorem execCsrWrite_keepsMem (t idx : Nat) (kind : CsrKind) (old x : Word) (s : State) :
    KeepsMem s (execCsrWrite t idx kind old x s) := by
  simp [execCsrWrite]

@[simp] theorem execTrapEntry_keepsMem (t : Nat) (s : State) : KeepsMem s (execTrapEntry t s) := by
  unfold execTrapEntry
  dsimp only
  repeat' split
  all_goals simp

@[simp] theorem execGangKill_keepsMem (g cause : Nat) (s : State) : KeepsMem s (execGangKill g cause s) := by
  unfold execGangKill
  dsimp only
  repeat' split
  all_goals simp

@[simp] theorem execWatchdogExpiry_keepsMem (g : Nat) (s : State) : KeepsMem s (execWatchdogExpiry g s) := by
  unfold execWatchdogExpiry
  dsimp only
  repeat' split
  all_goals simp

@[simp] theorem execSwtch_keepsMem (g : Nat) (s : State) : KeepsMem s (execSwtch g s) := by
  unfold execSwtch
  dsimp only
  repeat' split
  all_goals simp

@[simp] theorem execSpill_keepsMem (p c g k : Nat) (s : State) : KeepsMem s (execSpill p c g k s) := by
  unfold execSpill
  dsimp only
  repeat' split
  all_goals simp

@[simp] theorem execSpillComplete_keepsMem (g : Nat) (s : State) : KeepsMem s (execSpillComplete g s) := by
  unfold execSpillComplete
  dsimp only
  repeat' split
  all_goals simp

@[simp] theorem execSpilledReplyWrite_keepsMem (l : Nat) (s : State) : KeepsMem s (execSpilledReplyWrite l s) := by
  simp [execSpilledReplyWrite]

@[simp] theorem execCanaryWarning_keepsMem (p island : Nat) (s : State) : KeepsMem s (execCanaryWarning p island s) := by
  unfold execCanaryWarning
  dsimp only
  repeat' split
  all_goals simp

@[simp] theorem execPowerMeasurement_keepsMem (p watts : Nat) (s : State) : KeepsMem s (execPowerMeasurement p watts s) := by
  unfold execPowerMeasurement
  dsimp only
  repeat' split
  all_goals simp

@[simp] theorem execSpdmCert_keepsMem (p slot : Nat) (s : State) : KeepsMem s (execSpdmCert p slot s) := by
  simp [execSpdmCert]

@[simp] theorem execSpdmChal_keepsMem (p slot nonce : Nat) (s : State) : KeepsMem s (execSpdmChal p slot nonce s) := by
  simp [execSpdmChal]

@[simp] theorem execSpdmMeas_keepsMem (p index : Nat) (s : State) : KeepsMem s (execSpdmMeas p index s) := by
  simp [execSpdmMeas]

@[simp] theorem execHostCompletionArrival_keepsMem (p i : Nat) (ok : Bool) (data : List Byte) (s : State) :
    KeepsMem s (execHostCompletionArrival p i ok data s) := by
  unfold execHostCompletionArrival
  dsimp only
  repeat' split
  all_goals simp

@[simp] theorem execAtsTranslationResponse_keepsMem (p i : Nat) (found rd wr : Bool) (pa : Nat) (s : State) :
    KeepsMem s (execAtsTranslationResponse p i found rd wr pa s) := by
  unfold execAtsTranslationResponse
  dsimp only
  repeat' split
  all_goals simp

@[simp] theorem execPriPageResponse_keepsMem (p i : Nat) (success : Bool) (s : State) : KeepsMem s (execPriPageResponse p i success s) := by
  unfold execPriPageResponse
  dsimp only
  repeat' split
  all_goals simp

@[simp] theorem execAtsInvalidateRequest_keepsMem (p base size : Nat) (s : State) :
    KeepsMem s (execAtsInvalidateRequest p base size s) := by
  simp [execAtsInvalidateRequest]

@[simp] theorem execBar2HostAccess_keepsMem (p off n : Nat) (write : Bool) (data : List Byte) (s : State) :
    KeepsMem s (execBar2HostAccess p off n write data s) := by
  unfold execBar2HostAccess
  dsimp only
  repeat' split
  all_goals simp

@[simp] theorem execUalinkTargetRequest_keepsMem (p stn : Nat) (r : UalReq) (s : State) :
    KeepsMem s (execUalinkTargetRequest p stn r s) := by
  unfold execUalinkTargetRequest
  repeat' split
  all_goals simp

@[simp] theorem execCtxCreate_keepsMem (p tag : Nat) (x : CtxSpec) (s : State) : KeepsMem s (execCtxCreate p tag x s) := by
  refine keepsMem_request ?_
  repeat' split
  all_goals simp

@[simp] theorem execLaunchRequest_keepsMem (p tag ctx desc join njoin : Nat) (s : State) :
    KeepsMem s (execLaunchRequest p tag ctx desc join njoin s) := by
  refine keepsMem_request ?_
  repeat' split
  all_goals simp

@[simp] theorem execKillRequest_keepsMem (p tag gang : Nat) (s : State) : KeepsMem s (execKillRequest p tag gang s) := by
  refine keepsMem_request ?_
  repeat' split
  all_goals simp

@[simp] theorem execFillRequest_keepsMem (p tag gang half : Nat) (s : State) : KeepsMem s (execFillRequest p tag gang half s) := by
  refine keepsMem_request ?_
  repeat' split
  all_goals simp

@[simp] theorem execShiftRequest_keepsMem (p tag cyc out inc : Nat) (s : State) : KeepsMem s (execShiftRequest p tag cyc out inc s) := by
  exact keepsMem_request (by simp)

@[simp] theorem execSchedSet_keepsMem (p tag ctx va boundary : Nat) (s : State) : KeepsMem s (execSchedSet p tag ctx va boundary s) := by
  refine keepsMem_request ?_
  repeat' split
  all_goals simp

@[simp] theorem execSchedClear_keepsMem (p tag : Nat) (s : State) : KeepsMem s (execSchedClear p tag s) := by
  refine keepsMem_request ?_
  repeat' split
  all_goals simp

@[simp] theorem execRestartRequest_keepsMem (p tag : Nat) (x : RestartAt) (s : State) : KeepsMem s (execRestartRequest p tag x s) := by
  refine keepsMem_request ?_
  repeat' split
  all_goals simp

@[simp] theorem execConfig_keepsMem (p tag : Nat) (x : ConfigItem) (s : State) : KeepsMem s (execConfig p tag x s) := by
  exact keepsMem_request (by simp)

@[simp] theorem execThrottleClear_keepsMem (p tag : Nat) (s : State) : KeepsMem s (execThrottleClear p tag s) := by
  exact keepsMem_request (by simp)

@[simp] theorem execNotify_keepsMem (p tag kinds : Nat) (s : State) : KeepsMem s (execNotify p tag kinds s) := by
  exact keepsMem_request (by simp)

@[simp] theorem execRingMessageDeparture_keepsMem (p c i : Nat) (s : State) : KeepsMem s (execRingMessageDeparture p c i s) := by
  unfold execRingMessageDeparture
  dsimp only
  repeat' split
  all_goals simp

@[simp] theorem execLinkTraining_keepsMem (p n wire : Nat) (up : Bool) (s : State) : KeepsMem s (execLinkTraining p n wire up s) := by
  simp [execLinkTraining]

@[simp] theorem execPodFenceTimeout_keepsMem (t c : Nat) (s : State) : KeepsMem s (execPodFenceTimeout t c s) := by
  unfold execPodFenceTimeout
  split <;> simp

@[simp] theorem execJoinTimeout_keepsMem (p join : Nat) (s : State) : KeepsMem s (execJoinTimeout p join s) := by
  unfold execJoinTimeout
  split <;> simp

@[simp] theorem execSpdmNegotiation_keepsMem (p version : Nat) (p256 sha256 : Bool) (s : State) :
    KeepsMem s (execSpdmNegotiation p version p256 sha256 s) := by
  unfold execSpdmNegotiation
  split <;> simp

@[simp] theorem execSpdmUnsupportedRequest_keepsMem (p code : Nat) (s : State) : KeepsMem s (execSpdmUnsupportedRequest p code s) := by
  simp [execSpdmUnsupportedRequest]

end Sys2Proof.Machine
end

section
namespace Sys2Proof.Machine

/-- The steps that write memory, starts, resets and new hash sets apart. -/
def writesMemory : Instr → Bool
  | .stagedStorePerformed _ => true
  | .lsAtomicPerformed _ => true
  | .packageGlobalAccess _ => true
  | .segmentServed _ _ => true
  | .elementPerformed _ _ _ => true
  | .barrierObjectUpdate _ => true
  | .engineCredit _ _ _ _ _ => true
  | .landingWrite _ _ => true
  | .haulPieceWrite _ _ => true
  | .hostWindowAccess _ _ => true
  | .grinderGroup _ _ _ _ => true
  | .matrixTileChunk _ _ _ _ => true
  | .ringdef _ _ _ => true
  | .ringChunkWrite _ _ _ _ => true
  | .tuberrRecordWrite _ => true
  | .fillComplete _ => true
  | .migrate _ _ _ => true
  | .scaleOutTransfer _ _ _ _ _ _ => true
  | .admissionCompletion _ => true
  | .gangEnd _ => true
  | .killCompletion _ => true
  | _ => false

theorem word_keepsMem {i : Instr} (word : i.cls ≠ none ∨ ∃ reg, i = .wtcloRead reg) (s : State) : KeepsMem s (exec i s) := by
  obtain ⟨stops, grows⟩ := wordFrame i word s
  intro t e
  cases ev : s.ev with
  | none => exact absurd ((stops ev).symm.trans e) (by simp)
  | some c =>
    obtain ⟨d, -, next⟩ := grows c ev
    exact keepsMem_next.2 (State.setEv_mem ..) t (next.symm.trans e)

theorem exec_keepsMem {i : Instr} (quiet : writesMemory i = false) (lasting : remakesMemory i = false) (s : State) :
    KeepsMem s (exec i s) := by
  by_cases word : i.cls ≠ none ∨ ∃ reg, i = .wtcloRead reg
  · exact word_keepsMem word s
  · cases i <;> simp_all [exec, Instr.cls, writesMemory, remakesMemory]

end Sys2Proof.Machine
end

section
namespace Sys2Proof.Machine

/-- A state whose packages have the numbers of another's, and whose memory differs from the other's only inside a list of ranges. -/
structure Wrote (R : List PRange) (s t : State) : Prop where
  num : ∀ p, (t.pkg p).num = (s.pkg p).num
  mem : ∀ a, R.all (fun r => !s.within a r) = true → memByte t.mem a = memByte s.mem a

/-- Every range of a list lies inside one range of another. -/
def Inside (Q R : List PRange) : Prop := ∀ q ∈ Q, ∃ r ∈ R, r.1 = q.1 ∧ r.2.1 ≤ q.2.1 ∧ q.2.1 + q.2.2 ≤ r.2.1 + r.2.2

theorem Inside.of_subset {Q R : List PRange} (h : Q ⊆ R) : Inside Q R := fun q hq => ⟨q, h hq, rfl, le_rfl, le_rfl⟩

theorem Inside.of_mem {q : PRange} {R : List PRange} (h : q ∈ R) : Inside [q] R :=
  .of_subset fun _ hx => List.mem_singleton.1 hx ▸ h

theorem Inside.at_mem {q : PRange} {Q R : List PRange} (h : Inside Q R) (mem : q ∈ Q) : Inside [q] R := by
  intro x hx
  obtain rfl := List.mem_singleton.1 hx
  exact h x mem

theorem Inside.of_cons {q : PRange} {Q R : List PRange} (h : Inside (q :: Q) R) : Inside [q] R ∧ Inside Q R :=
  ⟨h.at_mem (.head _), fun x hx => h x (.tail _ hx)⟩

theorem Inside.trans {P Q R : List PRange} (h : Inside P Q) (k : Inside Q R) : Inside P R := by
  intro p hp
  obtain ⟨q, hq, pkg, below, above⟩ := h p hp
  obtain ⟨r, hr, pkg', below', above'⟩ := k q hq
  exact ⟨r, hr, pkg'.trans pkg, below'.trans below, above.trans above'⟩

theorem inside_pair {p a b n : Nat} (m : Nat) (below : b ≤ a) (fits : a + n ≤ b + m) : Inside [(p, a, n)] [(p, b, m)] := by
  intro q hq
  obtain rfl := List.mem_singleton.1 hq
  exact ⟨_, List.mem_singleton_self _, rfl, below, fits⟩

theorem State.within_congr {s t : State} (num : ∀ p, (t.pkg p).num = (s.pkg p).num) (a : Nat) (r : PRange) :
    t.within a r = s.within a r := by
  have same : t.pod r.1 r.2.1 = s.pod r.1 r.2.1 := by rw [State.pod, State.pod, num]
  rw [State.within, State.within, same]

theorem State.within_eq_false {s : State} {a : Nat} {r : PRange} :
    s.within a r = false ↔ a < s.pod r.1 r.2.1 ∨ s.pod r.1 r.2.1 + r.2.2 ≤ a := by
  rw [State.within, Bool.and_eq_false_iff, decide_eq_false_iff_not, decide_eq_false_iff_not, Nat.not_le, Nat.not_lt]

theorem State.outside_inside {s : State} {a : Nat} {Q R : List PRange} (h : Inside Q R)
    (out : R.all (fun r => !s.within a r) = true) : Q.all (fun r => !s.within a r) = true := by
  rw [List.all_eq_true] at out ⊢
  intro q hq
  obtain ⟨r, hr, pkg, below, above⟩ := h q hq
  have outer := out r hr
  rw [Bool.not_eq_true', State.within_eq_false, State.pod, pkg] at outer
  rw [Bool.not_eq_true', State.within_eq_false, State.pod]
  generalize (s.pkg q.1).num * 2 ^ 48 = base at outer ⊢
  omega

namespace Wrote
variable {R Q : List PRange} {s t u : State}

theorem refl (R : List PRange) (s : State) : Wrote R s s := ⟨fun _ => rfl, fun _ _ => rfl⟩

theorem trans (h : Wrote R s t) (k : Wrote R t u) : Wrote R s u :=
  ⟨fun p => (k.num p).trans (h.num p), fun a out =>
    (k.mem a (by simpa only [State.within_congr h.num] using out)).trans (h.mem a out)⟩

theorem mono (h : Wrote Q s t) (inside : Inside Q R) : Wrote R s t :=
  ⟨h.num, fun a out => h.mem a (State.outside_inside inside out)⟩

theorem of_subset (h : Wrote Q s t) (sub : Q ⊆ R) : Wrote R s t := h.mono (.of_subset sub)

theorem of_num (num : ∀ p, (t.pkg p).num = (s.pkg p).num) (mem : t.mem = s.mem) : Wrote R s t := ⟨num, fun _ _ => by rw [mem]⟩

theorem of_pkgs (pkgs : t.pkgs = s.pkgs) (mem : t.mem = s.mem) : Wrote R s t :=
  of_num (fun p => congrArg Pkg.num (State.pkg_congr pkgs p)) mem

theorem marked (h : Marked s t) : Wrote R s t := of_pkgs (congrArg State.pkgs h.frame :) (congrArg State.mem h.frame :)

theorem foldl {α : Type} {f : State → α → State} {l : List α} (step : ∀ t x, x ∈ l → Wrote R s t → Wrote R s (f t x))
    (h : Wrote R s t) : Wrote R s (l.foldl f t) := by
  induction l generalizing t with
  | nil => exact h
  | cons x l ih => exact ih (fun t y hy => step t y (.tail _ hy)) (step t x (.head _) h)

theorem ite {c : Prop} [Decidable c] (yes : Wrote R s t) (no : Wrote R s u) : Wrote R s (if c then t else u) := by
  split <;> assumption

/-- Bytes written inside a range of the list. -/
theorem wr (s : State) {p pa : Nat} {bs : List Byte} (inside : Inside [(p, pa, bs.length)] R) : Wrote R s (s.wr p pa bs) := by
  refine mono ⟨fun q => rfl, fun a out => memByte_memPut_out _ _ _ _ ?_⟩ inside
  simpa only [List.all_cons, List.all_nil, Bool.and_true, Bool.not_eq_true', State.within_eq_false] using out

theorem correct (s : State) (p pa n : Nat) : Wrote R s (s.correct p pa n) :=
  of_pkgs (foldl_eq State.pkgs _ (by exact fun s x _ => (congrArg State.pkgs (s.notice_frame ..) :)) _) (State.correct_mem ..)

theorem watch (s : State) (p c off n : Nat) (write : Bool) (a : Agent) : Wrote R s (s.watch p c off n write a) :=
  marked (Marked.watch ..)

theorem complete (s : State) {p pa : Nat} (inside : Inside [(p, pa, 16)] R) : Wrote R s (s.complete p pa) := by
  unfold State.complete
  have field (u : State) (k n x : Nat) (fits : k + n ≤ 16) : Wrote R u (u.wr p (pa + k) (natBytes n x)) := by
    refine mono (wr u (R := [(p, pa, 16)]) ?_) inside
    rw [natBytes_length]
    exact inside_pair 16 (Nat.le_add_right ..) (by omega)
  dsimp only
  refine (correct s p pa 16).trans (ite ?_ (refl ..))
  exact ((field _ 0 4 _ (by decide)).trans (field _ 4 2 _ (by decide))).trans (field _ 12 4 _ (by decide))

theorem knowObj (s : State) (p pa : Nat) : Wrote R s (s.knowObj p pa) :=
  of_pkgs (by unfold State.knowObj; dsimp only; split <;> rfl) (State.knowObj_mem ..)

theorem credit (s : State) {p c off : Nat} (x : Nat) (inside : Inside [(p, lsPa c off, 16)] R) : Wrote R s (s.credit p c off x) := by
  unfold State.credit
  dsimp only
  refine ((knowObj s p _).trans (correct _ p _ 16)).trans (ite (refl ..) (trans ?_ (complete _ inside)))
  refine mono (wr _ (R := [(p, lsPa c off, 16)]) ?_) inside
  rw [natBytes_length]
  exact inside_pair 16 (Nat.le_add_right ..) (by omega)

theorem lsPut (s : State) {p c off : Nat} {bs : List Byte} (a : Agent) (inside : Inside [(p, lsPa c off, bs.length)] R) :
    Wrote R s (s.lsPut p c off bs a) :=
  (wr s inside).trans (watch ..)

/-- A lane write reaches its bytes and the objects they touch (R194). -/
theorem lsWrite (s : State) {p c off : Nat} {bs : List Byte} (a : Agent) (inside : Inside (s.wide p (lsPa c off) bs.length) R) :
    Wrote R s (s.lsWrite p c off bs a) := by
  obtain ⟨first, objects⟩ := inside.of_cons
  unfold State.lsWrite
  refine trans (foldl (fun t o ho h => h.trans (complete _ ?_)) (wr s first)) (watch ..)
  exact objects.at_mem (List.mem_map.2 ⟨o, ho, rfl⟩)

/-- A write at a home by an agent other than a lane. -/
theorem homeWrite (s : State) {p pa : Nat} {bs : List Byte} (a : Agent) (inside : Inside [(p, pa, bs.length)] R) :
    Wrote R s (s.homeWrite p pa bs a) :=
  (wr s inside).trans (marked (State.homeWrite_marked ..))

end Wrote

/-! ### The lanes of flights at their homes -/

theorem Marked.objs {s t : State} (h : Marked s t) : t.objs = s.objs := (congrArg State.objs h.frame :)

theorem State.correct_objs (s : State) (p pa n : Nat) : (s.correct p pa n).objs = s.objs :=
  foldl_eq State.objs _ (by exact fun s x _ => (congrArg State.objs (s.notice_frame ..) :)) _

theorem State.complete_objs (s : State) (p pa : Nat) : (s.complete p pa).objs = s.objs := by
  unfold State.complete
  dsimp only
  split
  · exact State.correct_objs ..
  · exact State.correct_objs ..

theorem State.lsWrite_objs (s : State) (p c off : Nat) (bs : List Byte) (a : Agent) : (s.lsWrite p c off bs a).objs = s.objs := by
  unfold State.lsWrite
  exact (Marked.watch ..).objs.trans (foldl_eq State.objs _ (fun s o _ => State.complete_objs s o.1 o.2) _)

theorem State.writeLane_objs (s : State) (f : Flight) (home : Nat) (bs : List Byte) : (s.writeLane f home bs).objs = s.objs := by
  unfold State.writeLane
  split
  · exact State.lsWrite_objs ..
  · rfl

theorem State.meetRead_objs (s : State) (p pa n : Nat) (a : Agent) : (s.meetRead p pa n a).objs = s.objs := by
  unfold State.meetRead
  dsimp only
  split
  · exact (Marked.watch ..).objs.trans (State.correct_objs ..)
  · exact State.correct_objs ..

theorem State.readLane_objs (s : State) (f : Flight) (q : LaneReq) (n : Nat) : (s.readLane f q n).1.objs = s.objs := by
  unfold State.readLane
  split
  · rfl
  · dsimp only
    split
    · exact State.meetRead_objs ..
    · exact State.correct_objs ..

theorem State.wide_congr {s t : State} (objs : t.objs = s.objs) (p pa n : Nat) : t.wide p pa n = s.wide p pa n := by
  simp only [State.wide, objs]

namespace Wrote
variable {R : List PRange}

theorem meetRead (s : State) (p pa n : Nat) (a : Agent) : Wrote R s (s.meetRead p pa n a) := by
  unfold State.meetRead
  dsimp only
  split
  · exact (correct ..).trans (watch ..)
  · exact correct ..

theorem readLane (s : State) (f : Flight) (q : LaneReq) (n : Nat) : Wrote R s (s.readLane f q n).1 := by
  unfold State.readLane
  split
  · exact refl ..
  · exact ite (meetRead ..) (correct ..)

theorem writeLane (s : State) {f : Flight} {home : Nat} {bs : List Byte} (inside : Inside (s.wide f.pkg home bs.length) R) :
    Wrote R s (s.writeLane f home bs) := by
  unfold State.writeLane
  split
  · next c off is =>
    rw [← lsPa_of_homeOf is] at inside
    exact lsWrite s _ inside
  · exact wr s inside.of_cons.1

end Wrote

/-- The bytes a lane of a flight reaches. -/
def Flight.reach (f : Flight) : Nat := if f.kind = .store then f.n else 4

theorem State.performLane_objs (s : State) (f : Flight) (q : LaneReq) : (s.performLane f q).1.objs = s.objs := by
  unfold State.performLane
  cases f.kind with
  | load => exact State.readLane_objs ..
  | store => exact State.writeLane_objs ..
  | atomF =>
    dsimp only
    split
    · exact State.readLane_objs ..
    · exact (State.writeLane_objs ..).trans (State.readLane_objs ..)
  | atomN =>
    dsimp only
    split
    · exact State.readLane_objs ..
    · exact (State.writeLane_objs ..).trans (State.readLane_objs ..)

theorem State.readLane_home (s : State) (f : Flight) (q : LaneReq) (n : Nat) : (s.readLane f q n).2.home = q.home := by
  unfold State.readLane
  split <;> rfl

theorem Wrote.performLane {R : List PRange} (s : State) (f : Flight) (q : LaneReq)
    (inside : f.kind ≠ .load → Inside (s.wide f.pkg q.home f.reach) R) : Wrote R s (s.performLane f q).1 := by
  have swap (n x : Nat) (kind : f.kind ≠ .load) (four : f.kind ≠ .store) :
      Wrote R (s.readLane f q 4).1 ((s.readLane f q 4).1.writeLane f (s.readLane f q 4).2.home (natBytes 4 x)) := by
    refine Wrote.writeLane _ ?_
    rw [State.wide_congr (State.readLane_objs ..), State.readLane_home, natBytes_length]
    simpa [Flight.reach, four] using inside kind
  unfold State.performLane
  cases kind : f.kind with
  | load => exact Wrote.readLane ..
  | store =>
    refine Wrote.writeLane s ?_
    rw [natBytes_length]
    simpa [Flight.reach, kind] using inside (by simp [kind])
  | atomF =>
    dsimp only
    split
    · exact Wrote.readLane ..
    · exact (Wrote.readLane ..).trans (swap 4 _ (by simp [kind]) (by simp [kind]))
  | atomN =>
    dsimp only
    split
    · exact Wrote.readLane ..
    · exact (Wrote.readLane ..).trans (swap 4 _ (by simp [kind]) (by simp [kind]))

theorem Wrote.performAll {R : List PRange} (f : Flight) (pick : LaneReq → Bool) (l : List LaneReq) (s : State)
    (inside : f.kind ≠ .load → ∀ q ∈ l, pick q = true → Inside (s.wide f.pkg q.home f.reach) R) :
    Wrote R s (performAll f pick s l).1 := by
  induction l generalizing s with
  | nil => exact .refl ..
  | cons q l ih =>
    unfold Machine.performAll
    dsimp only
    have rest (t : State) (objs : t.objs = s.objs) : Wrote R t (Machine.performAll f pick t l).1 := by
      refine ih t fun kind r hr picked => ?_
      rw [State.wide_congr objs]
      exact inside kind r (.tail _ hr) picked
    cases picked : pick q with
    | true => exact (Wrote.performLane s f q fun kind => inside kind q (.head _) picked).trans (rest _ (State.performLane_objs ..))
    | false => exact rest s rfl

theorem State.laneRanges_eq {s : State} {i : Nat} {f : Flight} (own : s.flight? i = some f) (pick : LaneReq → Bool) :
    s.laneRanges i pick = if f.kind = .load then [] else (f.lanes.filter pick).flatMap fun q => s.wide f.pkg q.home f.reach := by
  simp [State.laneRanges, own, Flight.reach]

/-- What the lanes of a flight make of memory lies in their ranges. -/
theorem State.performLanes_mem (s : State) (i delay : Nat) (pick : LaneReq → Bool) :
    ∃ u, Wrote (s.laneRanges i pick) s u ∧ (s.performLanes i delay pick).mem = u.mem := by
  unfold State.performLanes
  cases own : s.flight? i with
  | none => exact ⟨s, .refl .., rfl⟩
  | some f =>
    dsimp only
    refine ⟨_, Wrote.performAll f pick f.lanes s fun kind q hq picked => ?_, ?_⟩
    · rw [State.laneRanges_eq own, if_neg kind]
      exact .of_subset fun r hr => List.mem_flatMap.2 ⟨q, List.mem_filter.2 ⟨hq, picked⟩, hr⟩
    · rw [State.settle_mem]
      split <;> simp

end Sys2Proof.Machine
end

section
namespace Sys2Proof.Machine

/-- An outcome whose next state has the memory of a state outside a list of ranges. -/
def WritesWithin (R : List PRange) (s : State) (o : Out) : Prop :=
  ∀ t, o = .next t → ∀ a, R.all (fun r => !s.within a r) = true → memByte t.mem a = memByte s.mem a

variable {R : List PRange} {s t u : State}

theorem WritesWithin.next (h : Wrote R s u) (same : t.mem = u.mem) : WritesWithin R s (.next t) := by
  intro v e a out
  cases e
  rw [same, h.mem a out]

theorem KeepsMem.within {o : Out} (h : KeepsMem s o) : WritesWithin R s o := fun t e a _ => by rw [h t e]

theorem WritesWithin.request {p tag : Nat} {o : Out} (h : WritesWithin R s o) : WritesWithin R s (s.request p tag o) := by
  unfold State.request
  dsimp only
  split
  · exact h
  · exact .next (.refl R s) (by split <;> simp)

/-! ### Stores, atomics and elements at their homes -/

theorem execStagedStorePerformed_within (i : Nat) (s : State) :
    WritesWithin (s.touched (.stagedStorePerformed i)) s (execStagedStorePerformed i s) := by
  unfold execStagedStorePerformed
  cases own : s.staged? i with
  | none => exact .next (.refl ..) rfl
  | some e =>
    have ranges : s.touched (.stagedStorePerformed i) = s.stagedRanges e := by simp [State.touched, own]
    rw [ranges, State.stagedRanges]
    dsimp only
    cases e.op with
    | bytes l =>
      refine .next (u := s.putStaged e l) ?_ rfl
      have writes (t : State) (h : t.objs = s.objs) (l' : List (Nat × List Byte)) (sub : l' ⊆ l) :
          Wrote (l.flatMap fun b => s.wide e.pkg (lsPa e.core (e.base + b.1)) b.2.length) t (t.putStaged e l') := by
        induction l' generalizing t with
        | nil => exact .refl ..
        | cons b l' ih =>
          obtain ⟨mem, sub⟩ := List.cons_subset.1 sub
          refine (Wrote.lsWrite t _ ?_).trans (ih _ ((State.lsWrite_objs ..).trans h) sub)
          rw [State.wide_congr h]
          exact .of_subset fun r hr => List.mem_flatMap.2 ⟨b, mem, hr⟩
      exact writes s rfl l (List.Subset.refl l)
    | frame off bs => exact .next (Wrote.lsPut s _ (.of_mem (.head _))) rfl
    | acc l => exact .next (.refl ..) (State.putAcc_mem ..)
    | _ => exact .next (.refl ..) rfl

theorem execLsAtomicPerformed_within (i : Nat) (s : State) :
    WritesWithin (s.touched (.lsAtomicPerformed i)) s (execLsAtomicPerformed i s) := by
  unfold execLsAtomicPerformed
  cases own : s.staged? i with
  | none => exact .next (.refl ..) rfl
  | some e =>
    dsimp only
    split
    case h_1 f op =>
      have ranges : s.touched (.lsAtomicPerformed i) = s.laneRanges f (·.st = .moving) := by simp [State.touched, own, op]
      obtain ⟨u, wrote, mem⟩ := s.performLanes_mem f 4 (·.st = .moving)
      rw [ranges]
      exact .next wrote (by simp only [State.dropStaged_mem, State.refill_mem, mem])
    case h_2 => exact .next (.refl ..) rfl

theorem execPackageGlobalAccess_within (i : Nat) (s : State) :
    WritesWithin (s.touched (.packageGlobalAccess i)) s (execPackageGlobalAccess i s) := by
  obtain ⟨u, wrote, mem⟩ := s.performLanes_mem i 20 fun q =>
    q.st = .moving && q.due = s.wtc && (match homeOf q.home with | .ls _ _ => true | _ => false)
  exact .next wrote mem

/-- The bytes of a part of a range, with the objects they touch, are bytes and objects of the range. -/
theorem State.wide_inside (s : State) (p : Nat) {pa a n m : Nat} (below : pa ≤ a) (fits : a + n ≤ pa + m) :
    Inside (s.wide p a n) (s.wide p pa m) := by
  intro q hq
  rcases List.mem_cons.1 hq with rfl | hq
  · exact ⟨_, .head _, rfl, below, fits⟩
  · obtain ⟨o, ho, rfl⟩ := List.mem_map.1 hq
    refine ⟨_, .tail _ (List.mem_map.2 ⟨o, ?_, rfl⟩), rfl, le_rfl, le_rfl⟩
    simp only [List.mem_filter, Bool.and_eq_true, decide_eq_true_eq] at ho ⊢
    exact ⟨ho.1, by omega⟩

theorem Wrote.remoteWrite (s : State) {p src pa : Nat} {bs : List Byte} (inside : Inside (s.wide p pa bs.length) R) :
    Wrote R s (s.remoteWrite p src pa bs) := by
  unfold State.remoteWrite
  split
  · next c off home =>
    rw [← lsPa_of_homeOf home] at inside
    exact .lsWrite s _ inside
  · exact .wr s inside.of_cons.1

theorem State.remoteWrite_objs (s : State) (p src pa : Nat) (bs : List Byte) : (s.remoteWrite p src pa bs).objs = s.objs := by
  unfold State.remoteWrite
  split
  · exact State.lsWrite_objs ..
  · rfl

/-- Runs of bytes stay among the offsets of the bytes. -/
theorem runs_bound {n : Nat} (l : List (Nat × Byte)) (h : ∀ x ∈ l, x.1 < n) : ∀ r ∈ runs l, r.1 + r.2.length ≤ n := by
  induction l with
  | nil => simp [runs]
  | cons x l ih =>
    obtain ⟨o, b⟩ := x
    have first : o < n := h (o, b) (.head _)
    have rest := ih fun x hx => h x (.tail _ hx)
    unfold runs
    intro r hr
    split at hr
    · next o' bs t eq =>
      rw [eq] at rest
      have second : o' + bs.length ≤ n := rest (o', bs) (.head _)
      split at hr
      · rcases List.mem_cons.1 hr with rfl | hr
        · simp only [List.length_cons]; omega
        · exact rest r (.tail _ hr)
      · rcases List.mem_cons.1 hr with rfl | hr
        · simpa using first
        · exact rest r hr
    · obtain rfl := List.mem_singleton.1 hr
      simpa using first

theorem Wrote.performElem (s : State) (p src : Nat) (e : Elem) : Wrote (s.wide p e.pa 4) s (s.performElem p src e).1 := by
  have bytes (l : List (Nat × List Byte)) (t : State) (objs : t.objs = s.objs) (fits : ∀ r ∈ l, r.1 + r.2.length ≤ 4) :
      Wrote (s.wide p e.pa 4) t (l.foldl (fun s r => s.remoteWrite p src (e.pa + r.1) r.2) t) := by
    induction l generalizing t with
    | nil => exact .refl ..
    | cons r l ih =>
      refine (Wrote.remoteWrite t ?_).trans (ih _ ((State.remoteWrite_objs ..).trans objs) fun r hr => fits r (.tail _ hr))
      rw [State.wide_congr objs]
      have := fits r (.head _)
      exact s.wide_inside p (Nat.le_add_right ..) (by omega)
  have swap (x : Nat) : Wrote (s.wide p e.pa 4) s ((s.correct p e.pa 4).remoteWrite p src e.pa (natBytes 4 x)) := by
    refine (Wrote.correct ..).trans (Wrote.remoteWrite _ ?_)
    rw [State.wide_congr (State.correct_objs ..), natBytes_length]
    exact .of_subset (List.Subset.refl _)
  unfold State.performElem
  cases e.kind with
  | store =>
    refine bytes _ s rfl (runs_bound _ fun x hx => ?_)
    have := (List.of_mem_zip (List.mem_filter.1 hx).1).1
    simpa using this
  | load =>
    dsimp only
    split
    · exact .refl ..
    · exact swap _
  | atomF =>
    dsimp only
    split
    · exact .refl ..
    · exact swap _
  | atomN =>
    dsimp only
    split
    · exact .refl ..
    · exact swap _

theorem execElementPerformed_within (p i j : Nat) (s : State) :
    WritesWithin (s.touched (.elementPerformed p i j)) s (execElementPerformed p i j s) := by
  unfold execElementPerformed
  cases own : s.inn? p i with
  | none => exact .next (.refl ..) rfl
  | some x =>
    cases elem : x.elems[j]? with
    | none => simp only [elem]; exact .next (.refl ..) rfl
    | some e =>
      have ranges : s.touched (.elementPerformed p i j) = s.wide p e.pa 4 := by simp [State.touched, own, elem]
      rw [ranges]
      simp only [elem]
      have wrote : Wrote (s.wide p e.pa 4) s (if e.fault ≠ 0 then (s, (0 : Word), e.fault) else s.performElem p x.src e).1 := by
        split
        · exact .refl ..
        · exact Wrote.performElem s p x.src e
      generalize (if e.fault ≠ 0 then (s, (0 : Word), e.fault) else s.performElem p x.src e) = z at wrote ⊢
      exact .next wrote (by split <;> simp)

/-! ### Barrier objects -/

theorem execEngineCredit_within (p c src off n : Nat) (s : State) :
    WritesWithin (s.touched (.engineCredit p c src off n)) s (execEngineCredit p c src off n s) :=
  .next ((Wrote.watch ..).trans (Wrote.credit _ _ (.of_mem (.head _)))) rfl

theorem execBarrierObjectUpdate_within (i : Nat) (s : State) :
    WritesWithin (s.touched (.barrierObjectUpdate i)) s (execBarrierObjectUpdate i s) := by
  unfold execBarrierObjectUpdate
  cases own : s.staged? i with
  | none => exact .next (.refl ..) rfl
  | some e =>
    have ranges : s.touched (.barrierObjectUpdate i) = e.object := by simp [State.touched, own]
    rw [ranges]
    dsimp only
    split
    · exact .next (.refl ..) (State.fault_mem ..)
    · have met : Wrote e.object s ((s.dropStaged i).meetUpdate e) := by
        unfold State.meetUpdate
        split
        · exact Wrote.trans (t := s.dropStaged i) (.of_pkgs rfl rfl) (Wrote.correct ..)
        · exact .of_pkgs rfl rfl
      generalize (s.dropStaged i).meetUpdate e = t at met
      have seen (off : Nat) (u : State) : Wrote e.object u ((u.knowObj e.pkg (lsPa e.core off)).watch e.pkg e.core off 16 true
          (.lane e.team e.core e.from_.words)) := (Wrote.knowObj ..).trans (Wrote.watch ..)
      have object (off k : Nat) (bs : List Byte) (fits : k + bs.length ≤ 16) (own : (e.pkg, lsPa e.core off, 16) ∈ e.object) (u : State) :
          Wrote e.object u (u.wr e.pkg (lsPa e.core off + k) bs) :=
        .wr u ((inside_pair 16 (Nat.le_add_right ..) (by omega)).trans (.of_mem own))
      cases op : e.op with
      | binit off x =>
        have own : (e.pkg, lsPa e.core off, 16) ∈ e.object := by simp [Staged.object, op]
        exact .next (met.trans ((object off 0 _ (by simp [natBytes_length]) own _).trans (seen off _))) rfl
      | barv off =>
        have own : (e.pkg, lsPa e.core off, 16) ∈ e.object := by simp [Staged.object, op]
        exact .next (met.trans (((object off 4 _ (by simp [natBytes_length]) own _).trans (seen off _)).trans
          (Wrote.complete _ (.of_mem own)))) rfl
      | bexp off x =>
        have own : (e.pkg, lsPa e.core off, 16) ∈ e.object := by simp [Staged.object, op]
        exact .next (met.trans (((object off 8 _ (by simp [natBytes_length]) own _).trans (seen off _)).trans
          (Wrote.complete _ (.of_mem own)))) rfl
      | bcred off x =>
        have own : (e.pkg, lsPa e.core off, 16) ∈ e.object := by simp [Staged.object, op]
        exact .next (met.trans ((seen off _).trans (Wrote.credit _ _ (.of_mem own)))) rfl
      | _ => exact .next met rfl

end Sys2Proof.Machine
end

section
namespace Sys2Proof.Machine
variable {R : List PRange} {s t u : State}

/-! ### Engines and the landing buffer -/

theorem execLandingWrite_within (p c : Nat) (s : State) :
    WritesWithin (s.touched (.landingWrite p c)) s (execLandingWrite p c s) := by
  unfold execLandingWrite
  dsimp only
  refine .next (Wrote.foldl (fun t x hx h => h.trans (Wrote.lsPut t (.engine 4 c) (.of_mem (List.mem_map.2 ⟨x, hx, rfl⟩)))) (.refl ..)) ?_
  split <;> simp

theorem execGrinderGroup_within (p c n part : Nat) (s : State) :
    WritesWithin (s.touched (.grinderGroup p c n part)) s (execGrinderGroup p c n part s) := by
  unfold execGrinderGroup
  cases own : s.grindCard p c with
  | none => exact .next (.refl ..) rfl
  | some k =>
    dsimp only
    split
    · split
      · exact .next (.refl ..) (by simp)
      · exact .next (.refl ..) (by split <;> simp)
    · next write =>
      have ranges : s.touched (.grinderGroup p c n part) =
          (k.groupWrites n (k.buffer n)).1.map fun w => (p, lsPa c (s.cardBase k + w.1), w.2.length) := by
        simp [State.touched, write, own]
      rw [ranges]
      refine .next (Wrote.foldl (fun t w hw h => h.trans (Wrote.lsPut t (.engine 3 c) (.of_mem (List.mem_map.2 ⟨w, hw, rfl⟩)))) (.refl ..)) ?_
      split <;> simp

theorem State.correctAcc_pkgs (s : State) (p a n : Nat) : (s.correctAcc p a n).pkgs = s.pkgs :=
  foldl_eq State.pkgs _ (by exact fun s x _ => (congrArg State.pkgs (s.notice_frame ..) :)) _

theorem fillAcc_length (l : List (Nat × Word)) (a n : Nat) : (fillAcc l a n).length = n := by
  induction n generalizing l a with
  | zero => cases l <;> rfl
  | succ n ih =>
    cases l with
    | nil => simp [fillAcc, ih]
    | cons z l => simp only [fillAcc]; split <;> simp [ih]

/-- A chunk of a drained tile is no longer than 1,024 bytes (R258). -/
theorem drainWords_length (x : Nat) (sat rtz : Bool) (ws : List Word) (h : ws.length = 1024 * 8 / fmtBits (fmtOfId x)) :
    (drainWords x sat rtz ws).1.length ≤ 1024 := by
  unfold drainWords
  split
  · next zero =>
    subst zero
    have words : ws.length = 256 := h
    rw [List.length_flatMap]
    simp only [natBytes_length, List.map_const', List.sum_replicate, words, smul_eq_mul]
    decide
  · have bytes (l : List (Nat × Nat)) (k : Nat) : (l.flatMap fun r => natBytes k r.1).length = l.length * k := by
      simp [natBytes_length, List.length_flatMap]
    dsimp only
    rw [bytes, List.length_map, h]
    generalize fmtBits (fmtOfId x) = b
    have : 1024 * 8 / b * (b / 8) * 8 ≤ 1024 * 8 := by
      calc 1024 * 8 / b * (b / 8) * 8 = 1024 * 8 / b * (b / 8 * 8) := Nat.mul_assoc ..
        _ ≤ 1024 * 8 / b * b := Nat.mul_le_mul_left _ (Nat.div_mul_le_self ..)
        _ ≤ 1024 * 8 := Nat.div_mul_le_self ..
    omega

theorem execMatrixTileChunk_within (p c i part : Nat) (s : State) :
    WritesWithin (s.touched (.matrixTileChunk p c i part)) s (execMatrixTileChunk p c i part s) := by
  unfold execMatrixTileChunk
  cases own : s.matrixCard p c with
  | none => exact .next (.refl ..) rfl
  | some k =>
    dsimp only
    split
    · exact .next (.refl ..) ((State.nextTile_mem ..).trans (State.accWrite_mem ..))
    · split
      · split
        · exact .next (.refl ..) (by simp)
        · exact .next (.refl ..) (by split <;> simp)
      · exact .next (.refl ..) (by split <;> simp)
    · next drain =>
      have ranges : s.touched (.matrixTileChunk p c i part) = [(p, lsPa c (s.cardBase k + cf k.words 1 0 21 + 1024 * i), 1024)] := by
        simp [State.touched, own, drain]
      rw [ranges]
      split
      · exact .next (.refl ..) (by simp)
      · refine .next ?_ ((State.nextTile_mem ..).trans (State.modTeam_mem ..))
        refine .trans (.of_pkgs (State.correctAcc_pkgs ..) (State.correctAcc_mem ..)) (Wrote.lsPut _ _ (inside_pair 1024 le_rfl
          (Nat.add_le_add_left (drainWords_length _ _ _ _ ?_) _)))
        exact fillAcc_length ..
    · exact .next (.refl ..) rfl

/-! ### Rings -/

theorem State.startCard_pkgs (s : State) (p c : Nat) (k : Card) : (s.startCard p c k).pkgs = s.pkgs := by
  rfl

theorem execRingdef_within (p c i : Nat) (s : State) : WritesWithin (s.touched (.ringdef p c i)) s (execRingdef p c i s) := by
  unfold execRingdef
  cases own : s.card? p c i with
  | none => exact .next (.refl ..) rfl
  | some k =>
    dsimp only
    split
    · exact .next (.refl ..) rfl
    · refine .next ?_ ((State.finishCard_mem ..).trans (State.modCore_mem ..))
      refine .trans (.of_pkgs (State.startCard_pkgs ..) (State.startCard_mem ..)) (Wrote.lsPut _ _ (.of_mem ?_))
      simp [State.touched, own, natBytes_length]

theorem Wrote.ringPut (s : State) {p c : Nat} {r : Ring} {from_ : Nat} {bs : List Byte} (src : Nat)
    (first : (p, lsPa c (r.base + from_ % 2 ^ r.log2), min bs.length (2 ^ r.log2 - from_ % 2 ^ r.log2)) ∈ R)
    (second : (p, lsPa c r.base, bs.length - (2 ^ r.log2 - from_ % 2 ^ r.log2)) ∈ R) : Wrote R s (s.ringPut p c r from_ bs src) := by
  unfold State.ringPut
  dsimp only
  have head : Wrote R s (s.lsPut p c (r.base + from_ % 2 ^ r.log2)
      (bs.take (min bs.length (2 ^ r.log2 - from_ % 2 ^ r.log2))) (.engine 4 src)) := by
    refine Wrote.lsPut _ _ (.of_mem ?_)
    rwa [List.length_take, Nat.min_eq_left (Nat.min_le_left ..)]
  refine .ite (head.trans (Wrote.lsPut _ _ (.of_mem ?_))) head
  rw [List.length_drop]
  convert second using 3
  omega

theorem execRingChunkWrite_within (p c i k : Nat) (s : State) :
    WritesWithin (s.touched (.ringChunkWrite p c i k)) s (execRingChunkWrite p c i k s) := by
  unfold execRingChunkWrite
  dsimp only
  cases queue : (s.core p c).ringWrites with
  | nil => exact .next (.refl ..) rfl
  | cons w ws =>
    dsimp only
    split
    · exact .next (.refl ..) (by split <;> simp)
    · cases ring : s.ring? p c w.ring with
      | none => exact .next (.refl ..) (by simp)
      | some r =>
        have length : (w.data.drop (1024 * k)).length = w.data.length - 1024 * k := List.length_drop
        dsimp only
        split
        · next written =>
          refine .next (.trans (t := s.modCore p c _) (.of_pkgs rfl rfl) (Wrote.lsPut _ _ (.of_mem ?_))) (by split <;> rfl)
          have zero : w.data.length - 1024 * k = 0 := by omega
          simp [State.touched, queue, ring, zero, natBytes_length]
        · next more =>
          have some_ : w.data.length - 1024 * k ≠ 0 := by omega
          split
          · exact .next (.refl ..) rfl
          · refine .next (Wrote.ringPut _ _ ?_ ?_) rfl <;>
              simp [State.touched, queue, ring, some_, List.length_take, Nat.min_comm]

/-! ### Records of tub errors -/

theorem execTuberrRecordWrite_within (i : Nat) (s : State) :
    WritesWithin (s.touched (.tuberrRecordWrite i)) s (execTuberrRecordWrite i s) := by
  unfold execTuberrRecordWrite
  cases own : s.recordCtx i with
  | none => exact .next (.refl ..) rfl
  | some x =>
    dsimp only
    cases pend : x.pend.find? (·.id = i) with
    | none => exact .next (.refl ..) rfl
    | some r =>
      dsimp only
      split
      · split
        · exact .next (.refl ..) rfl
        · split
          · next c off home =>
            refine .next (.trans (t := s.modCtx x.pkg x.num _) (.of_pkgs rfl rfl) (Wrote.lsPut _ _ (.of_mem ?_))) rfl
            simp [State.touched, own, pend, lsPa_of_homeOf home]
          · exact .next (.refl ..) rfl
      · repeat' split
        all_goals exact .next (.refl ..) (by simp)

end Sys2Proof.Machine
end

section
namespace Sys2Proof.Machine
variable {R : List PRange} {s t u : State}

/-! ### Host accesses, target requests and segments -/

theorem State.ualServe_mem (s : State) (p stn : Nat) (r : UalReq) :
    ∃ u, Wrote (UalReq.ranges p r) s u ∧ (s.ualServe p stn r).mem = u.mem := by
  cases r with
  | read pa n =>
    refine ⟨s, .refl .., ?_⟩
    unfold State.ualServe
    dsimp only
    split
    · simp
    · split <;> simp
  | write pa bs => exact ⟨_, .homeWrite s (.remote stn) (.of_mem (.head _)), State.leave_mem ..⟩
  | atomic pa op x cmp =>
    unfold State.ualServe
    dsimp only
    split
    · exact ⟨s, .refl .., State.leave_mem ..⟩
    · refine ⟨_, .trans (.correct s p pa 4) (.homeWrite _ (.remote stn) ?_), State.leave_mem ..⟩
      rw [natBytes_length]
      exact .of_mem (.head _)

theorem State.dropHost_num (s : State) (p i q : Nat) : ((s.dropHost p i).pkg q).num = (s.pkg q).num := by
  unfold State.dropHost
  exact State.pkg_modPkg_field Pkg.num (by exact fun _ => rfl) s p q

theorem State.hostLs_mem (s : State) (p : Nat) (r : HostReq) (inside : r.write = true → (p, r.va, r.data.length) ∈ R) :
    ∃ u, Wrote R s u ∧ (s.hostLs p r).mem = u.mem := by
  unfold State.hostLs
  dsimp only
  cases home : homeOf r.va with
  | ls c off =>
    dsimp only
    split
    · next write =>
      refine ⟨_, .trans (.of_num (s.dropHost_num p r.id) (State.dropHost_mem ..)) (Wrote.lsPut _ (.remote 0) (.of_mem ?_)), rfl⟩
      rw [lsPa_of_homeOf home]
      exact inside write
    · split
      · exact ⟨s, .refl .., by simp⟩
      · exact ⟨s, .refl .., by simp⟩
  | _ => exact ⟨s, .refl .., State.dropHost_mem ..⟩

theorem State.hubAccess_mem (s : State) (p : Nat) (r : HostReq) (peer : ∀ u, r.ual = some u → UalReq.ranges p u.2 ⊆ R)
    (host : r.ual = none → r.write = true → (p, r.va, r.data.length) ∈ R) : ∃ u, Wrote R s u ∧ (s.hubAccess p r).mem = u.mem := by
  unfold State.hubAccess
  dsimp only
  split
  · exact ⟨s, .refl .., by simp⟩
  · cases ual : r.ual with
    | none => exact s.hostLs_mem p r (host ual)
    | some x =>
      obtain ⟨u, wrote, mem⟩ := (s.dropHost p r.id).ualServe_mem p x.1 x.2
      exact ⟨u, .trans (.of_num (s.dropHost_num p r.id) (State.dropHost_mem ..)) (wrote.of_subset (peer x ual)), mem⟩

theorem execHostWindowAccess_within (p i : Nat) (s : State) :
    WritesWithin (s.touched (.hostWindowAccess p i)) s (execHostWindowAccess p i s) := by
  unfold execHostWindowAccess
  cases own : s.hostReq? p i with
  | none => exact .next (.refl ..) rfl
  | some r =>
    dsimp only
    split
    · next hub =>
      split
      · obtain ⟨u, wrote, mem⟩ := s.hubAccess_mem (R := s.touched (.hostWindowAccess p i)) p r
          (fun x ual => by simp [State.touched, own, ual]) fun ual write => by simp [State.touched, own, ual, hub, write]
        exact .next wrote mem
      · exact .next (.refl ..) (State.hubAt_mem ..)
    · split
      · exact .next (.refl ..) (by split <;> simp)
      · split
        · exact .next (.refl ..) (State.hostTry_mem ..)
        · exact .next (.refl ..) rfl

theorem State.recordWritten_mem (s : State) (p pa : Nat) (bs : List Byte) (i : Nat) :
    (s.recordWritten p pa bs i).mem = (s.wr p pa bs).mem := by
  unfold State.recordWritten
  dsimp only
  split <;> simp

theorem State.haulSegWritten_mem (s : State) (p c i pa : Nat) (bs : List Byte) :
    (s.haulSegWritten p c i pa bs).mem = (if homeOf pa = .hbm then s.wr p pa bs else s).mem := by
  unfold State.haulSegWritten
  simp

theorem State.hostServe_mem (s : State) (p pa n : Nat) (write : Bool) (bs : List Byte) :
    (s.hostServe p pa n write bs).mem = (if write then s.wr p pa bs else s).mem := by
  unfold State.hostServe
  cases write with
  | true => rfl
  | false => dsimp only; split <;> simp

/-- What a segment writes as it is served lies in its ranges. -/
theorem State.serve_mem (s : State) (p : Nat) (g : SegOp) : ∃ u, Wrote (s.segRanges p g) s u ∧ (s.serve p g).mem = u.mem := by
  have one (pa : Nat) (bs : List Byte) : Wrote [(p, pa, bs.length)] s (s.wr p pa bs) := .wr s (.of_mem (.head _))
  cases g with
  | lanes f ls => exact s.performLanes_mem f 320 _
  | walk q pa => exact ⟨s, .refl .., State.walkRead_mem ..⟩
  | haulRead c i n pa len => exact ⟨s, .refl .., State.haulSegRead_mem ..⟩
  | haulWrite c i n pa bs => exact ⟨_, .ite (one pa bs) (.refl ..), State.haulSegWritten_mem ..⟩
  | elem i j => exact ⟨s, .refl .., rfl⟩
  | rload i j => exact ⟨s, .refl .., rfl⟩
  | record pa bs i => exact ⟨_, one pa bs, State.recordWritten_mem ..⟩
  | host i pa n w bs =>
    refine ⟨_, ?_, (State.hostPart_mem ..).trans (State.hostServe_mem ..)⟩
    cases w with
    | true => exact one pa bs
    | false => exact .refl ..
  | spill c g pa bs => exact ⟨_, one pa bs, State.saveWritten_mem ..⟩
  | fill g i pa n => exact ⟨s, .refl .., State.fillServed_mem ..⟩
  | trapRec pa n bs => exact ⟨_, one pa bs, State.notice_mem ..⟩
  | ual i stn r =>
    obtain ⟨u, wrote, mem⟩ := s.ualServe_mem p stn r
    exact ⟨u, wrote, (State.hostPart_mem ..).trans mem⟩

/-- A pseudo-channel's change leaves packages, flights and objects as they are. -/
theorem State.setPc_frame (s : State) (x : PChan) : s.setPc x = { s with pcs := (s.setPc x).pcs } := by
  unfold State.setPc
  split <;> rfl

theorem State.kick_frame (s : State) (p n : Nat) :
    s.kick p n = { s with pcs := (s.kick p n).pcs, agenda := (s.kick p n).agenda } := by
  unfold State.kick
  dsimp only
  split
  · rw [State.setPc_frame]
  · split
    · rfl
    · rw [State.setPc_frame]; rfl

theorem State.segRanges_congr {s t : State} (flights : t.flights = s.flights) (objs : t.objs = s.objs) (p : Nat) (g : SegOp) :
    t.segRanges p g = s.segRanges p g := by
  cases g with
  | lanes f ls => simp only [State.segRanges, State.laneRanges, State.flight?, State.wide, flights, objs]
  | _ => rfl

theorem execSegmentServed_within (p n : Nat) (s : State) :
    WritesWithin (s.touched (.segmentServed p n)) s (execSegmentServed p n s) := by
  unfold execSegmentServed
  dsimp only
  cases queue : (s.pc p n).queue with
  | nil => exact .next (.refl ..) rfl
  | cons g gs =>
    dsimp only
    split
    · exact .next (.refl ..) rfl
    · split
      · exact .next (.refl ..) (State.setPc_mem ..)
      · generalize chan : s.setPc _ = t
        obtain ⟨u, wrote, mem⟩ := (t.kick p n).serve_mem p g.op
        have kicked := t.kick_frame p n
        have set : t = { s with pcs := t.pcs } := by rw [← chan]; exact State.setPc_frame ..
        have ranges : (t.kick p n).segRanges p g.op = s.touched (.segmentServed p n) := by
          rw [State.segRanges_congr (s := s) (by rw [kicked, set]) (by rw [kicked, set])]
          simp [State.touched, queue]
        rw [ranges] at wrote
        exact .next (.trans (.of_pkgs (by rw [kicked, set]) (by rw [kicked, set])) wrote) mem

/-! ### Status words -/

theorem Wrote.writeStatus (s : State) (p : Nat) (pa : Option Nat) (x : Nat) : Wrote (statusRange p pa) s (s.writeStatus p pa x) := by
  cases pa with
  | none => exact .refl ..
  | some a =>
    refine .homeWrite s _ (.of_mem ?_)
    rw [natBytes_length]
    exact .head _

theorem State.returnResources_pkgs (s : State) (x : Gang) : (s.returnResources x).pkgs = s.pkgs := by
  have freed : ((s.dropObjs x.id).freePools x.id).pkgs = s.pkgs := by
    unfold State.freePools
    exact foldl_eq State.pkgs _ (by exact fun s c _ => rfl) _
  unfold State.returnResources
  split
  · rfl
  · exact freed

theorem State.dropSwitch_pkgs (s : State) (g : Nat) : (s.dropSwitch g).pkgs = s.pkgs := by
  unfold State.dropSwitch
  split
  · rfl
  · exact State.respondTo_pkgs ..

theorem execKillCompletion_within (g : Nat) (s : State) :
    WritesWithin (s.touched (.killCompletion g)) s (execKillCompletion g s) := by
  unfold execKillCompletion
  cases own : s.gang? g with
  | none => exact .next (.refl ..) rfl
  | some x =>
    have ranges : s.touched (.killCompletion g) = statusRange x.pkg x.statusPa := by simp [State.touched, own]
    rw [ranges]
    dsimp only
    split
    · exact .next (.trans (.of_pkgs (s.returnResources_pkgs x) (State.returnResources_mem ..)) (.writeStatus ..)) (State.notice_mem ..)
    · exact .next (.refl ..) rfl

theorem execGangEnd_within (g : Nat) (s : State) : WritesWithin (s.touched (.gangEnd g)) s (execGangEnd g s) := by
  unfold execGangEnd
  cases own : s.gang? g with
  | none => exact .next (.refl ..) rfl
  | some x =>
    have ranges : s.touched (.gangEnd g) = statusRange x.pkg x.statusPa := by simp [State.touched, own]
    rw [ranges]
    dsimp only
    split
    · refine .next (.trans (.of_pkgs ?_ ?_) (.writeStatus ..)) (State.notice_mem ..)
      · exact (State.returnResources_pkgs ..).trans (State.dropSwitch_pkgs ..)
      · simp
    · split
      · exact .next (.refl ..) rfl
      · exact .next (.refl ..) rfl

end Sys2Proof.Machine
end

section
namespace Sys2Proof.Machine
variable {R : List PRange} {s t u : State}

/-! ### The service's writes -/

theorem execScaleOutTransfer_within (p tag : Nat) (out : Bool) (pa n : Nat) (data : List Byte) (s : State) :
    WritesWithin (s.touched (.scaleOutTransfer p tag out pa n data)) s (execScaleOutTransfer p tag out pa n data s) := by
  unfold execScaleOutTransfer
  refine .request ?_
  split
  · exact .next (.refl ..) (State.respond_mem ..)
  · cases out with
    | true =>
      rw [if_pos rfl]
      split
      · exact .next (.refl ..) (by simp)
      · exact .next (.refl ..) (by simp)
    | false =>
      refine .next (.wr s (.of_mem ?_)) (State.respond_mem ..)
      rw [List.length_take]
      exact .head _

theorem Wrote.setPtes (l : List (Nat × Nat × Nat)) (s : State) (inside : ∀ z ∈ l, (z.1, z.2.1, 8) ∈ R) :
    Wrote R s (s.setPtes l) := by
  unfold State.setPtes
  refine Wrote.foldl (fun t z hz h => h.trans (.trans (.wr t (.of_mem ?_)) (.of_pkgs rfl rfl))) (.refl ..)
  rw [natBytes_length]
  exact inside z hz

theorem execMigrate_within (p tag : Nat) (m : MigSpec) (s : State) :
    WritesWithin (s.touched (.migrate p tag m)) s (execMigrate p tag m s) := by
  have entries : ∀ z ∈ migEntries m p, (z.1, z.2.1, 8) ∈ s.touched (.migrate p tag m) := fun z hz =>
    .tail _ (List.mem_map.2 ⟨z, hz, rfl⟩)
  unfold execMigrate
  split
  · refine .next ?_ (State.respond_mem ..)
    refine .trans (.of_num (fun q => ?_) (State.modPkg_mem ..)) (.trans (.wr _ (.of_mem ?_)) (.trans (.setPtes _ _ entries)
      (.of_pkgs rfl rfl)))
    · exact State.pkg_modPkg_field Pkg.num (by exact fun _ => rfl) s p q
    · rw [natBytes_length]
      exact .head _
  · refine .request ?_
    split
    · exact .next (.refl ..) (State.respond_mem ..)
    · split
      · exact .next (.refl ..) (State.respond_mem ..)
      · refine .next ?_ (State.beginDrain_mem ..)
        refine .trans (.setPtes _ s fun z hz => ?_) (.of_pkgs rfl rfl)
        obtain ⟨y, hy, rfl⟩ := List.mem_map.1 hz
        exact entries y hy

/-! ### Admission -/

theorem State.joinSeen_num (s : State) (num q : Nat) : ((s.joinSeen num).pkg q).num = (s.pkg q).num := by
  have mod (n : Nat) (f : Join → Join) : ((s.modJoin n f).pkg q).num = (s.pkg q).num := by
    simp only [State.modJoin, State.pkg, List.getD_eq_getElem?_getD, List.getElem?_map]
    cases s.pkgs[q]? <;> rfl
  unfold State.joinSeen
  split
  · split
    · rfl
    · exact mod ..
  · rfl

theorem State.admitFail_mem (s : State) (p : Nat) (a : Admitting) (st : Nat) :
    (s.admitFail p a st).mem = (s.writeStatus p a.statusPa st).mem := by
  unfold State.admitFail
  dsimp only
  split <;> split <;> simp

theorem State.admitGang_mem (s : State) (p : Nat) (a : Admitting) (pls : List (Nat × Placing)) (g charge : Nat) :
    ∃ u, Wrote (statusRange p a.statusPa) s u ∧ (s.admitGang p a pls g charge).mem = u.mem := by
  unfold State.admitGang
  dsimp only
  refine ⟨_, .trans (.of_pkgs ?_ ?_) (.writeStatus _ p a.statusPa stADMITTED), rfl⟩
  · exact foldl_eq State.pkgs _ (by exact fun s z _ => foldl_eq State.pkgs _ (by exact fun s y _ => rfl) _) _
  · exact foldl_eq State.mem _ (by exact fun s z _ => foldl_eq State.mem _ (by exact fun s y _ => rfl) _) _

theorem execAdmissionCompletion_within (p : Nat) (s : State) :
    WritesWithin (s.touched (.admissionCompletion p)) s (execAdmissionCompletion p s) := by
  unfold execAdmissionCompletion
  cases own : (s.pkg p).admitting with
  | none => exact .next (.refl ..) rfl
  | some a =>
    have ranges : s.touched (.admissionCompletion p) = statusRange p a.statusPa := by simp [State.touched, own]
    rw [ranges]
    dsimp only
    split
    · exact .next (.refl ..) rfl
    · generalize seen : (s.modPkg p fun x => { x with admitting := none }).joinSeen a.req.join = t
      have start : Wrote (statusRange p a.statusPa) s t := by
        refine .of_num (fun q => ?_) (by rw [← seen]; simp)
        rw [← seen, State.joinSeen_num]
        exact State.pkg_modPkg_field Pkg.num (by exact fun _ => rfl) s p q
      have fail (st : Nat) : WritesWithin (statusRange p a.statusPa) s (.next (t.admitFail p a st)) :=
        .next (start.trans (.writeStatus ..)) (State.admitFail_mem ..)
      clear seen
      split
      · exact fail _
      · split
        · exact fail _
        · split
          · exact fail _
          · split
            · exact fail _
            · split
              · exact fail _
              · next pls _ =>
                obtain ⟨u, wrote, mem⟩ := t.fresh.2.admitGang_mem p a pls t.fresh.1 ((distinct a.cmap).length * classCharge a.desc.cls)
                refine .next (start.trans (Wrote.trans (t := t.fresh.2) (.of_pkgs rfl rfl) wrote)) ?_
                split
                · exact mem
                · exact mem

/-! ### The fill -/

theorem Wrote.fillPut (s : State) (p : Nat) (f : FillSt)
    (inside : ∀ r, f.reads.head? = some r → ∀ off, r.chunk = .ls off → (p, lsPa f.core off, r.data.length) ∈ R) :
    Wrote R s (s.fillPut p f).2 := by
  unfold State.fillPut
  split
  · exact .refl ..
  · next r l reads =>
    split
    · dsimp only
      unfold State.putChunk
      cases chunk : r.chunk with
      | ls off => exact .lsPut s _ (.of_mem (inside r (by simp [reads]) off chunk))
      | _ => exact .of_pkgs rfl rfl
    · exact .refl ..

theorem Wrote.gatherAt (s : State) (p c : Nat) (key : List Nat) (l : List (Nat × Seg)) : Wrote R s (s.gatherAt p c key l) :=
  .of_pkgs rfl (State.gatherAt_mem ..)

theorem Wrote.fillAsk (s : State) (p g : Nat) (f : FillSt) : Wrote R s (s.fillAsk p g f).2 := by
  unfold State.fillAsk
  split
  · exact .refl ..
  · exact Wrote.trans (t := s.fresh.2) (.of_pkgs rfl rfl) (Wrote.gatherAt s.fresh.2 ..)

theorem Wrote.fillStep (p g : Nat) (l : List FillSt) (s : State) (inside : ∀ f ∈ l, ∀ r, f.reads.head? = some r →
    ∀ off, r.chunk = .ls off → (p, lsPa f.core off, r.data.length) ∈ R) : Wrote R s (s.fillStep p g l).2 := by
  induction l generalizing s with
  | nil => exact .refl ..
  | cons f l ih =>
    exact ((Wrote.fillPut s p f (inside f (.head _))).trans (.fillAsk ..)).trans (ih _ fun f hf => inside f (.tail _ hf))

theorem execFillComplete_within (g : Nat) (s : State) : WritesWithin (s.touched (.fillComplete g)) s (execFillComplete g s) := by
  unfold execFillComplete
  cases own : s.gang? g with
  | none => exact .next (.refl ..) rfl
  | some x =>
    dsimp only
    split
    · exact .next (.refl ..) rfl
    · refine .next (Wrote.fillStep x.pkg g x.fills s fun f hf r hr off chunk => ?_) (by split <;> rfl)
      simp only [State.touched, own, Option.toList_some, List.flatMap_cons, List.flatMap_nil, List.append_nil]
      refine List.mem_flatMap.2 ⟨f, hf, ?_⟩
      simp [hr, chunk]

end Sys2Proof.Machine
end

section
namespace Sys2Proof.Machine

/-! ### The haul engine's writes -/

/-- The places of the teams. -/
def State.seats (s : State) : List (Nat × Place) := s.teams.map fun t => (t.id, t.pl)

theorem Marked.seats {s t : State} (h : Marked s t) : t.seats = s.seats := by
  have places (l : List Team) : (l.map Team.bare).map (fun t => (t.id, t.pl)) = l.map fun t => (t.id, t.pl) := by
    rw [List.map_map]
    rfl
  rw [State.seats, State.seats, ← places t.teams, ← places s.teams, h.teams]

section
variable {s t : State} (same : t.seats = s.seats)
include same

/-- Whom a search by names and places finds has the same place. -/
theorem seat_congr (f : Nat × Place → Bool) :
    (t.teams.find? fun x => f (x.id, x.pl)).map (·.pl) = (s.teams.find? fun x => f (x.id, x.pl)).map (·.pl) := by
  have found (l : List Team) : (l.find? fun x => f (x.id, x.pl)).map (·.pl) =
      ((l.map fun x => (x.id, x.pl)).find? f).map (·.2) := by
    rw [List.find?_map, Option.map_map]
    rfl
  rw [found, found]
  exact congrArg (fun l : List (Nat × Place) => (l.find? f).map (·.2)) same

theorem State.cardBase_congr {k x : Card} (team : k.team = x.team) : t.cardBase k = s.cardBase x := by
  have base (u : State) (k : Card) : u.cardBase k = (((u.team? k.team).map (·.pl)).map (·.lsBase)).getD 0 := by
    unfold State.cardBase
    cases u.team? k.team <;> rfl
  have own : (t.team? k.team).map (·.pl) = (s.team? k.team).map (·.pl) := seat_congr same fun z => z.1 = k.team
  rw [base, base, own, team]

theorem State.haulCores_congr (c : Nat) {k x : Card} (words : k.words = x.words) (team : k.team = x.team) :
    t.haulCores c k = s.haulCores c x := by
  have block (y z : Team) (pl : y.pl = z.pl) (v : Nat) :
      (t.blockTeam y v).map (fun u => (v, u.pl.lsBase)) = (s.blockTeam z v).map fun u => (v, u.pl.lsBase) := by
    have own : (t.blockTeam y v).map (·.pl) = (s.blockTeam z v).map (·.pl) := by
      rw [State.blockTeam, State.blockTeam, pl]
      exact seat_congr same fun u => u.2.gang = z.pl.gang && u.2.block = z.pl.block && u.2.core = v
    have base (o : Option Team) : o.map (fun u => (v, u.pl.lsBase)) = (o.map (·.pl)).map fun q => (v, q.lsBase) := by
      cases o <;> rfl
    rw [base, base, own]
  have own : (t.team? k.team).map (·.pl) = (s.team? k.team).map (·.pl) := seat_congr same fun z => z.1 = k.team
  unfold State.haulCores
  rw [words]
  rw [team] at own ⊢
  cases one : t.team? x.team with
  | none => cases two : s.team? x.team with
    | none => rfl
    | some z => rw [one, two] at own; cases own
  | some y => cases two : s.team? x.team with
    | none => rw [one, two] at own; cases own
    | some z =>
      rw [one, two] at own
      have pl : y.pl = z.pl := Option.some.inj own
      have cores : cvCores y (cf x.words 0 16 4) = cvCores z (cf x.words 0 16 4) := by rw [cvCores, cvCores, pl]
      simp only [cores, pl, block y z pl]

end

/-- A card as another was handed in, with no more pieces and waiting writes than it. -/
structure Card.Within (k x : Card) : Prop where
  words : k.words = x.words
  team : k.team = x.team
  ctx : k.ctx = x.ctx
  pieces : k.haul.pieces ⊆ x.haul.pieces
  todo : k.haul.todo ⊆ x.haul.todo

/-- What the places of a card's operands are found by is the same, and a core's cards are no more than they were. -/
structure Hauls (p c : Nat) (s t : State) : Prop where
  pkgs : t.pkgs = s.pkgs
  ctxs : t.ctxs = s.ctxs
  tlb : (t.core p c).tlb = (s.core p c).tlb
  seats : t.seats = s.seats
  cards : ∀ k ∈ (t.core p c).cards, ∃ x ∈ (s.core p c).cards, k.Within x

theorem Card.Within.refl (k : Card) : k.Within k := ⟨rfl, rfl, rfl, List.Subset.refl _, List.Subset.refl _⟩

theorem Card.Within.trans {k x y : Card} (h : k.Within x) (g : x.Within y) : k.Within y :=
  ⟨h.words.trans g.words, h.team.trans g.team, h.ctx.trans g.ctx, List.Subset.trans h.pieces g.pieces, List.Subset.trans h.todo g.todo⟩

namespace Hauls
variable {p c : Nat} {s t u : State}

theorem of_cores (pkgs : t.pkgs = s.pkgs) (ctxs : t.ctxs = s.ctxs) (cores : t.cores = s.cores) (seats : t.seats = s.seats) :
    Hauls p c s t :=
  ⟨pkgs, ctxs, by rw [State.core, State.core, cores], seats, fun k hk => ⟨k, by rwa [State.core, ← cores], .refl k⟩⟩

theorem refl (s : State) : Hauls p c s s := of_cores rfl rfl rfl rfl

theorem trans (h : Hauls p c s t) (g : Hauls p c t u) : Hauls p c s u :=
  ⟨g.pkgs.trans h.pkgs, g.ctxs.trans h.ctxs, g.tlb.trans h.tlb, g.seats.trans h.seats, fun k hk => by
    obtain ⟨x, hx, within⟩ := g.cards k hk
    obtain ⟨y, hy, within'⟩ := h.cards x hx
    exact ⟨y, hy, within.trans within'⟩⟩

theorem lsPut (s : State) (q d off : Nat) (bs : List Byte) (a : Agent) : Hauls p c s (s.lsPut q d off bs a) := by
  have marked : Marked (s.wr q (lsPa d off) bs) (s.lsPut q d off bs a) := Marked.watch ..
  exact of_cores (congrArg State.pkgs marked.frame :) (congrArg State.ctxs marked.frame :) (congrArg State.cores marked.frame :)
    marked.seats

theorem modCard (s : State) (i : Nat) {f : Card → Card} (h : ∀ k, (f k).Within k) : Hauls p c s (s.modCard p c i f) := by
  refine ⟨rfl, rfl, getD_modify_field Core.tlb (by exact fun _ => rfl) .., rfl, ?_⟩
  refine State.core_modCore_cards s p c _ _ fun k hk => ?_
  obtain ⟨x, hx, rfl⟩ := List.mem_map.1 hk
  refine ⟨x, hx, ?_⟩
  split
  · exact h x
  · exact .refl x

theorem finishCard (s : State) (k : Card) (n : Nat) : Hauls p c s (s.finishCard p c k n) := by
  unfold State.finishCard
  split
  · refine .trans (modCard s k.id fun k => ?_) (of_cores rfl rfl rfl rfl)
    exact ⟨rfl, rfl, rfl, List.Subset.refl _, List.Subset.refl _⟩
  · exact modCard s k.id fun k => ⟨rfl, rfl, rfl, List.Subset.refl _, List.Subset.refl _⟩

theorem haulEnd (s : State) (i : Nat) : Hauls p c s (s.haulEnd p c i) := by
  unfold State.haulEnd
  split
  · exact refl s
  · split
    · exact finishCard ..
    · exact refl s

end Hauls
end Sys2Proof.Machine
end

section
namespace Sys2Proof.Machine

/-! ### Places of a piece, and its writes -/

theorem Hauls.haulPlace {p c : Nat} {s t : State} (h : Hauls p c s t) {k x : Card} (within : k.Within x) (need : Perm) (a : HAddr) :
    t.haulPlace p c k need a = s.haulPlace p c x need a := by
  cases a with
  | ls off => simp only [State.haulPlace, State.cardBase_congr h.seats within.team]
  | pin i off => simp only [State.haulPlace, State.pkg_congr h.pkgs]
  | virt va =>
    have translate : t.xlate p c k.ctx va need = s.xlate p c x.ctx va need := by
      simp only [State.xlate, State.ctx?, h.ctxs, h.tlb, within.ctx]
    have dest (pa tgt : Nat) : t.haulDest p pa tgt = s.haulDest p pa tgt := by
      simp only [State.haulDest, State.dest, State.pkg_congr h.pkgs]
    simp only [State.haulPlace, translate, dest]
  | bad => rfl

theorem Hauls.pieceRanges {p c : Nat} {s t : State} (h : Hauls p c s t) {k x : Card} (within : k.Within x) (y : Piece) :
    t.pieceRanges p c k y = s.pieceRanges p c x y := by
  simp only [State.pieceRanges, State.haulCores_congr h.seats c within.words within.team, within.words, h.haulPlace within]

/-- The ranges of the haul writes of a core. -/
theorem State.todo_mem_touched {s : State} {p c : Nat} {x : Card} (own : x ∈ (s.core p c).cards) {y : HPend} (mem : y ∈ x.haul.todo) :
    (p, lsPa y.core y.off, y.data.length) ∈ s.touched (.haulPieceWrite p c) :=
  List.mem_flatMap.2 ⟨x, own, List.mem_append_left _ (List.mem_map.2 ⟨y, mem, rfl⟩)⟩

theorem State.pieceRanges_subset {s : State} {p c : Nat} {x : Card} (own : x ∈ (s.core p c).cards) {y : Piece}
    (mem : y ∈ x.haul.pieces) : s.pieceRanges p c x y ⊆ s.touched (.haulPieceWrite p c) := fun _ hr =>
  List.mem_flatMap.2 ⟨x, own, List.mem_append_right _ (List.mem_flatMap.2 ⟨y, mem, hr⟩)⟩

variable {R : List PRange} {p c : Nat} {s t : State}

theorem Wrote.finishCard (s : State) (p c : Nat) (k : Card) (n : Nat) : Wrote R s (s.finishCard p c k n) :=
  .of_pkgs (Hauls.finishCard s k n).pkgs (State.finishCard_mem ..)

theorem Wrote.haulEnd (s : State) (p c i : Nat) : Wrote R s (s.haulEnd p c i) :=
  .of_pkgs (Hauls.haulEnd s i).pkgs (State.haulEnd_mem ..)

theorem Wrote.modHaul (s : State) (p c i : Nat) (f : HaulSt → HaulSt) : Wrote R s (s.modHaul p c i f) := .of_pkgs rfl rfl

theorem State.dueTodo_mem {p c i : Nat} {y : HPend} (h : t.dueTodo p c = some (i, y)) :
    ∃ k ∈ (t.core p c).cards, y ∈ k.haul.todo := by
  obtain ⟨k, hk, found⟩ := List.exists_of_findSome?_eq_some h
  obtain ⟨z, hz, eq⟩ := Option.map_eq_some_iff.1 found
  cases eq
  exact ⟨k, hk, List.mem_of_find?_eq_some hz⟩

theorem doTodos_within (f : Nat) (h : Hauls p c s t) (wrote : Wrote (s.touched (.haulPieceWrite p c)) s t) :
    Hauls p c s (State.doTodos p c f t) ∧ Wrote (s.touched (.haulPieceWrite p c)) s (State.doTodos p c f t) := by
  induction f generalizing t with
  | zero => exact ⟨h, wrote⟩
  | succ f ih =>
    unfold State.doTodos
    cases due : t.dueTodo p c with
    | none => exact ⟨h, wrote⟩
    | some z =>
      obtain ⟨i, y⟩ := z
      obtain ⟨k, hk, mem⟩ := State.dueTodo_mem due
      obtain ⟨x, hx, within⟩ := h.cards k hk
      refine ih (h.trans ?_) (wrote.trans ?_)
      · refine (Hauls.lsPut t p y.core y.off y.data _).trans ((Hauls.modCard _ i fun k => ?_).trans (Hauls.haulEnd ..))
        exact ⟨rfl, rfl, rfl, List.Subset.refl _, List.erase_subset⟩
      · refine (Wrote.lsPut t (.engine 2 c) (.of_mem (State.todo_mem_touched hx (within.todo mem)))).trans (.trans ?_ (.haulEnd ..))
        exact .modHaul ..

theorem Wrote.haulLs (s : State) (i : Nat) {d off : Nat} {bs : List Byte} (inside : Inside [(p, lsPa d off, bs.length)] R) :
    Wrote R s (s.haulLs p c i d off bs) := by
  unfold State.haulLs
  dsimp only
  split
  · next own =>
    subst own
    exact (Wrote.lsPut s _ inside).trans (.modHaul ..)
  · exact .of_pkgs rfl rfl

theorem Wrote.haulHost (s : State) (k : Card) (n iova len : Nat) (raw write : Bool) (bs : List Byte) :
    Wrote R s (s.haulHost p c k n iova len raw write bs) := by
  refine .of_num (fun q => ?_) (State.haulHost_mem ..)
  exact State.pkg_modPkg_field (s := s.fresh.2) Pkg.num (by exact fun _ => rfl) p q

/-- A part of a piece writes no memory outside its place. -/
theorem Wrote.writePart (s : State) (k : Card) (n : Nat) (z : HPlace) (bs : List Byte)
    (inside : ∀ pa, z = .phys pa → Inside [(p, pa, bs.length)] R) : Wrote R s (s.writePart p c k n z bs) := by
  unfold State.writePart
  cases z with
  | phys pa =>
    dsimp only
    split
    · next d off home =>
      refine .haulLs s _ ?_
      rw [lsPa_of_homeOf home]
      exact inside pa rfl
    · exact .trans (.modHaul s p c k.id _) (.gatherAt ..)
  | host iova raw => exact .trans (.modHaul s p c k.id _) (.haulHost ..)
  | walk page => exact .refl ..
  | fault x => exact .refl ..

theorem Wrote.writeParts (k : Card) (n : Nat) (l : List (HPlace × Nat)) (s : State) (bs : List Byte)
    (inside : ∀ z ∈ l, ∀ pa, z.1 = .phys pa → (p, pa, z.2) ∈ R) :
    Wrote R s (l.foldl (fun (z : State × List Byte) y => (z.1.writePart p c k n y.1 (z.2.take y.2), z.2.drop y.2)) (s, bs)).1 := by
  induction l generalizing s bs with
  | nil => exact .refl ..
  | cons y l ih =>
    refine .trans (.writePart s k n y.1 (bs.take y.2) fun pa at_ => ?_) (ih _ _ fun z hz => inside z (.tail _ hz))
    have short : (bs.take y.2).length ≤ y.2 := by simp
    exact (inside_pair y.2 le_rfl (by omega)).trans (.of_mem (inside y (.head _) pa at_))

/-- A piece is written inside its ranges. -/
theorem State.writePiece_mem (s : State) (k : Card) (x : Piece) (inside : s.pieceRanges p c k x ⊆ R) :
    ∃ u, Wrote R s u ∧ (s.writePiece p c k x).mem = u.mem := by
  unfold State.pieceRanges at inside
  unfold State.writePiece
  dsimp only at inside ⊢
  generalize (if cType k.words = 1 then hAddr k.words 3 else if cType k.words = 2 then hAddr k.words 1 else .ls 0) = base at inside ⊢
  cases base with
  | ls off =>
    exact ⟨_, Wrote.foldl (fun t y hy h => h.trans (Wrote.haulLs (c := c) t k.id (.of_mem (inside (List.mem_map.2 ⟨y, hy, rfl⟩)))))
      (.refl ..), State.haulEnd_mem ..⟩
  | _ =>
    dsimp only at inside ⊢
    split
    · exact ⟨s, .refl .., State.stopHaul_mem ..⟩
    · split
      · refine ⟨_, Wrote.writeParts k x.k _ s x.data fun z hz pa at_ => ?_, State.haulEnd_mem ..⟩
        obtain ⟨y, hy, rfl⟩ := List.mem_map.1 hz
        refine inside (List.mem_flatMap.2 ⟨y, hy, ?_⟩)
        rw [show s.haulPlace p c k .wr y.1 = .phys pa from at_]
        exact .head _
      · split
        · exact ⟨s, .refl .., State.walkFault_mem ..⟩
        · exact ⟨s, .refl .., State.pieceWalks_mem ..⟩

theorem State.haulNext_hauls (s : State) (n : Nat) : Hauls p c s (s.haulNext p c n) := by
  have once (s : State) (cyc prio : Nat) (key : List Nat) (i : Instr) : Hauls p c s (s.once cyc prio key i) := by
    unfold State.once
    split
    · exact .refl s
    · exact .of_cores rfl rfl rfl rfl
  exact (once ..).trans (once ..)

theorem execHaulPieceWrite_within (p c : Nat) (s : State) :
    WritesWithin (s.touched (.haulPieceWrite p c)) s (execHaulPieceWrite p c s) := by
  obtain ⟨hauls, wrote⟩ := doTodos_within (p := p) (c := c) 64 (.refl s) (.refl ..)
  unfold execHaulPieceWrite
  dsimp only
  generalize State.doTodos p c 64 s = t at hauls wrote ⊢
  cases card : t.haulCard p c with
  | none => exact .next wrote rfl
  | some k =>
    have next := t.haulNext_hauls (p := p) (c := c) (t.wtc + 1)
    dsimp only
    split
    · exact .next wrote rfl
    · cases piece : k.haul.pieces.find? (!·.index) with
      | none => exact .next wrote (State.haulNext_mem ..)
      | some x =>
        obtain ⟨y, hy, within⟩ := hauls.cards k (List.mem_of_find?_eq_some card)
        obtain ⟨u, writes, mem⟩ := (t.haulNext p c (t.wtc + 1)).writePiece_mem (R := s.touched (.haulPieceWrite p c)) k x (by
          rw [(hauls.trans next).pieceRanges within]
          exact State.pieceRanges_subset hy (within.pieces (List.mem_of_find?_eq_some piece)))
        dsimp only
        split
        · exact .next (wrote.trans (.trans (.of_pkgs next.pkgs (State.haulNext_mem ..)) writes)) mem
        · exact .next wrote (State.haulNext_mem ..)

/-! ### Every step -/

theorem exec_within (i : Instr) (lasting : remakesMemory i = false) (s : State) : WritesWithin (s.touched i) s (exec i s) := by
  by_cases quiet : writesMemory i = false
  · exact (exec_keepsMem quiet lasting s).within
  cases i with
  | stagedStorePerformed i => exact execStagedStorePerformed_within i s
  | lsAtomicPerformed i => exact execLsAtomicPerformed_within i s
  | packageGlobalAccess i => exact execPackageGlobalAccess_within i s
  | segmentServed p n => exact execSegmentServed_within p n s
  | elementPerformed p i j => exact execElementPerformed_within p i j s
  | barrierObjectUpdate i => exact execBarrierObjectUpdate_within i s
  | engineCredit p c src off n => exact execEngineCredit_within p c src off n s
  | landingWrite p c => exact execLandingWrite_within p c s
  | haulPieceWrite p c => exact execHaulPieceWrite_within p c s
  | hostWindowAccess p i => exact execHostWindowAccess_within p i s
  | grinderGroup p c n part => exact execGrinderGroup_within p c n part s
  | matrixTileChunk p c i part => exact execMatrixTileChunk_within p c i part s
  | ringdef p c i => exact execRingdef_within p c i s
  | ringChunkWrite p c i k => exact execRingChunkWrite_within p c i k s
  | tuberrRecordWrite i => exact execTuberrRecordWrite_within i s
  | fillComplete g => exact execFillComplete_within g s
  | migrate p tag m => exact execMigrate_within p tag m s
  | scaleOutTransfer p tag out pa n data => exact execScaleOutTransfer_within p tag out pa n data s
  | admissionCompletion p => exact execAdmissionCompletion_within p s
  | gangEnd g => exact execGangEnd_within g s
  | killCompletion g => exact execKillCompletion_within g s
  | _ => exact absurd rfl quiet

end Sys2Proof.Machine
namespace Sys2Proof
open Machine

/-- Settles O59: each step writes inside its ranges. The writers are taken one by one; every other step keeps memory as a whole. -/
theorem memoryFrame : Obligations.MemoryFrame := fun i s t lasting next _ => exec_within i lasting s t next

end Sys2Proof
end


section
/-! LS_ATOMIC_PERFORMED hands a lane the number its word reads as, where the rule asks for a word of 32 bits. The two agree in every
memory of the canonical form; in a list of cells that names one address twice a word reads as the sum of both, which may need more than
32 bits, and the rule is stated of every list. -/

namespace Sys2Proof.Machine

/-- An exchange of one lane at the first word of device memory, about to be performed. -/
def exchangeLane : LaneReq := ⟨0, 0, 0, 0, 0, 0, 0, .moving⟩
def exchangeFlight : Flight :=
  { id := 0, team := 0, gang := 0, ctx := 0, pkg := 0, core := 0, slot := 0, kind := .atomF, space := 0, n := 4, sx := false,
    aop := .xchg, d := 0, sb := 0, commit := 0, level := 0, hdr := 0, pass := 0, pos := 0, words := 0, seq := 0, zero := false,
    round := none, lanes := [exchangeLane] }
def exchangeEntry : Staged := ⟨0, 0, 0, 0, 0, 0, 0, ⟨0, 0, 0, 0⟩, .atomic 0⟩

/-- A memory that lists the last byte of that word twice: the word reads as 510 · 2²⁴, above 2³². -/
def twiceListed : State :=
  { State.reset with mem := [(3, 255), (3, 255)], flights := [exchangeFlight], staged := [exchangeEntry] }

theorem rd_twiceListed : twiceListed.rd 0 0 4 = 510 * 2 ^ 24 := by decide +kernel

theorem not_memWf_twiceListed : ¬ memWf twiceListed.mem := by decide

/-- The state after the exchange. -/
def exchanged : State := ((twiceListed.performLanes 0 4 (·.st = .moving)).refill twiceListed exchangeEntry [0]).dropStaged 0

theorem exec_twiceListed : exec (.lsAtomicPerformed 0) twiceListed = .next exchanged := rfl

/-- The lane has got all of the sum. -/
theorem got_exchanged : (exchanged.flight? 0).map (fun g => g.lanes.map fun r => (r.lane, r.got)) = some [(0, 510 * 2 ^ 24)] := by decide +kernel

end Sys2Proof.Machine

namespace Sys2Proof
open Machine

/-- Refutes O40: in a memory out of the canonical form, an atomic's lane gets a number that is no word. -/
theorem not_laneAccessSteps : ¬ Obligations.LaneAccessSteps := by
  intro steps
  obtain ⟨-, -, -, ⟨t, next, rule⟩, -⟩ := steps twiceListed 0
  cases next.symm.trans exec_twiceListed
  have done : atomicsDone exchangeFlight [exchangeLane] 4 twiceListed exchanged :=
    (rule exchangeEntry rfl).2 0 rfl exchangeFlight rfl (.inl rfl) (by decide +kernel)
  obtain ⟨g, own, lanes⟩ := Option.map_eq_some_iff.1 got_exchanged
  obtain ⟨r, here, eq⟩ := List.mem_map.1 (lanes ▸ List.mem_singleton_self _ : (0, 510 * 2 ^ 24) ∈ g.lanes.map fun r => (r.lane, r.got))
  obtain ⟨lane, got⟩ := Prod.mk.inj eq
  have word : r.got = (BitVec.ofNat 32 (twiceListed.rd 0 0 4)).toNat :=
    (done.2 rfl (by decide) [] exchangeLane [] rfl).2 g own r here lane
  rw [got, rd_twiceListed] at word
  exact absurd word (by decide)

end Sys2Proof
end

section
/-! A FLOW word by its guard (R75): under a false one it only moves the place in the clause, under a true one it has its meaning. -/

namespace Sys2Proof.Machine

section
variable {s : State} {c : Cur} (ev : s.ev = some c)
include ev

theorem onCur_eq_next {f : Team → Cur → Cur} {d : Cur} (h : f (s.teamOf c) c = d) : onCur s f = .next (s.setEv (some d)) := by
  rw [onCur_some ev, h]

theorem onCur_flowWord_off {pn : Bool} {pr : BitVec 3} (off : (s.teamOf c).up pr = pn) (lit : Bool) (f : Team → Cur → Cur) :
    onCur s (flowWord pn pr lit f) = .next (s.setEv (some (afterWord c [] lit 1))) :=
  onCur_eq_next ev (by simp [flowWord, guardU, off, past_eq])

theorem onCur_flowWord_on {pn : Bool} {pr : BitVec 3} (on : (s.teamOf c).up pr ≠ pn) {lit : Bool} {f : Team → Cur → Cur} {d : Cur}
    (h : (f (s.teamOf c) c).past lit 1 = d) : onCur s (flowWord pn pr lit f) = .next (s.setEv (some d)) :=
  onCur_eq_next ev ((flowWord_on on lit f c).trans h)

/-- `nop` has no meaning that its guard could withhold. -/
theorem exec_nop (w : FN) : exec (.nop w) s = .next (s.setEv (some (afterWord c [] false 1))) :=
  onCur_eq_next ev (by rw [flowWord, ite_self, past_eq])

end

/-- The FLOW words with a guard do what they do under it, and take their literal in any case. -/
theorem exec_guardedFlow (n : FN) (g : FG) (r : FR) (k : BitVec 5) (s : State) :
    ∀ e ∈ guardedFlow n g r k, ∃ f, exec e.1 s = onCur s (flowWord e.2.1 e.2.2.1 e.2.2.2 f) := by
  simp only [guardedFlow, List.forall_mem_cons, ← usesLit_singleton]
  exact ⟨⟨_, rfl⟩, ⟨_, rfl⟩, ⟨_, rfl⟩, ⟨_, rfl⟩, ⟨_, rfl⟩, ⟨_, rfl⟩, ⟨_, rfl⟩, ⟨_, rfl⟩, ⟨_, rfl⟩, ⟨_, rfl⟩, ⟨_, rfl⟩,
    fun _ none => absurd none List.not_mem_nil⟩

end Sys2Proof.Machine

namespace Sys2Proof
open Machine

/-- Settles O28: the guarded words are one form, which a false guard empties. -/
theorem flowGuard : Obligations.FlowGuard := by
  intro n g r k s c ev
  refine ⟨fun e word off => ?_, exec_nop ev n⟩
  obtain ⟨f, eq⟩ := exec_guardedFlow n g r k s e word
  rw [eq, onCur_flowWord_off ev off]

end Sys2Proof
end

section
/-! `waitc` and `launch` (R76): the address a register pair holds, and the addresses that `launch` takes. -/

namespace Sys2Proof.Machine

theorem pairOp_eq (t : Team) (c : Cur) (a : BitVec 7) :
    pairOp t c a = (t.g ((8 * c.win + a.toNat + 1) % 512)).toNat * 2 ^ 32 + (t.g ((8 * c.win + a.toNat) % 512)).toNat := rfl

/-- An address is refused by its bits from 56 up or by its low six, which are those of the address below 2^56. -/
theorem launch_refused_iff (x : Nat) :
    (decide (2 ^ 56 ≤ x) || decide (x % 2 ^ 56 % 64 ≠ 0)) = true ↔ 2 ^ 56 ≤ x ∨ x % 64 ≠ 0 := by
  rw [Nat.mod_mod_of_dvd x (by decide), Bool.or_eq_true, decide_eq_true_eq, decide_eq_true_eq]

end Sys2Proof.Machine

namespace Sys2Proof
open Machine

/-- Settles O33: the words under a true guard, `launch` by its address. -/
theorem flowWaitAndLaunch : Obligations.FlowWaitAndLaunch := by
  intro g s c ev on t x
  have pair : pairOp (s.teamOf c) c g.a = x := pairOp_eq ..
  refine ⟨?wait, fun below aligned => ?asks, fun refused => ?traps⟩
  case wait => exact onCur_flowWord_on ev on (past_act ..)
  case asks =>
    refine onCur_flowWord_on ev on ?_
    dsimp only
    have legal : ¬(2 ^ 56 ≤ x ∨ x % 64 ≠ 0) := by omega
    rw [pair, if_neg ((launch_refused_iff x).not.2 legal), past_act, Nat.mod_eq_of_lt below]
  case traps =>
    refine onCur_flowWord_on ev on ?_
    dsimp only
    rw [pair, if_pos ((launch_refused_iff x).2 refused), Cur.raise_eq, past_eq]
    rfl

end Sys2Proof
end

section
/-! `brp` and `brq` (R71, R76): a branch that no lane takes, and one that some lane takes, by where its target starts a clause. -/

namespace Sys2Proof.Machine

/-- The active lanes that a branch leaves behind (R76). -/
def leftBehind (t : Team) (c : Cur) (w : FR) : Mask := c.flow.active &&& ~~~ takers t c w.pn w.pr

theorem exec_brp (w : FR) (s : State) : exec (.brp w) s = execBrp w s := rfl

theorem exec_brq (w : FR) (s : State) : exec (.brq w) s = execBrq w s := rfl

section
variable {c : Cur} {m : Mask} (d : Cur) (lit : Bool)

theorem past_of_mayPark (h : mayPark c.flow.stack m = true) :
    (if !mayPark c.flow.stack m then c.ill 14 else d).past lit 1 = d.past lit 1 := by
  rw [h, if_neg (by decide)]

theorem past_of_not_mayPark (h : mayPark c.flow.stack m = false) :
    (if !mayPark c.flow.stack m then c.ill 14 else d).past lit 1 = flowIll c 14 lit := by
  rw [h, if_pos (by decide), past_ill]

end

section
variable (c : Cur) (e : StEntry) (f : FlowSt) (lit : Bool)

theorem past_pushed (room : c.flow.stack.length < 64) : (c.pushed e f).past lit 1 = flowTo c { f with stack := e :: f.stack } lit := by
  rw [Cur.pushed, if_neg (Nat.not_le.2 room), past_setFlow]

theorem past_pushed_full (full : 64 ≤ c.flow.stack.length) : (c.pushed e f).past lit 1 = flowIll c 15 lit := by
  rw [Cur.pushed, if_pos full, past_ill]

end

section
variable {s : State} {c : Cur} {w : FR} (ev : s.ev = some c)
include ev

section
variable (none : takers (s.teamOf c) c w.pn w.pr = 0)
include none

theorem exec_brp_none : exec (.brp w) s = .next (s.setEv (some (flowTo c { c.flow with pc := flowNext c } false))) := by
  rw [exec_brp, execBrp]
  refine onCur_eq_next ev ?_
  dsimp only
  rw [if_pos none, past_setFlow]
  rfl

theorem exec_brq_none : exec (.brq w) s = .next (s.setEv (some
    ((if !mayPark c.flow.stack (leftBehind (s.teamOf c) c w) then c.ill 14
      else c.setFlow ({ c.flow with active := 0 } : FlowSt).resumed).past false 1))) := by
  rw [exec_brq, execBrq]
  refine onCur_eq_next ev ?_
  dsimp only
  rw [if_pos none]
  rfl

end

section
variable (taken : takers (s.teamOf c) c w.pn w.pr ≠ 0)
include taken

section
variable (away : ∀ y ∈ s.gangStarts (s.teamOf c).pl.gang, flowTarget c w.off ≠ (y : Int))
include away

theorem exec_brp_away : exec (.brp w) s = .next (s.setEv (some (flowIll c 10 false))) := by
  rw [exec_brp, execBrp]
  refine onCur_eq_next ev ?_
  dsimp only
  rw [if_neg taken, relStart_of_not_mem away]
  exact past_ill ..

theorem exec_brq_away : exec (.brq w) s = .next (s.setEv (some (flowIll c 10 false))) := by
  rw [exec_brq, execBrq]
  refine onCur_eq_next ev ?_
  dsimp only
  rw [if_neg taken, relStart_of_not_mem away]
  exact past_ill ..

end

section
variable {y : Nat} (target : flowTarget c w.off = y) (start : y ∈ s.gangStarts (s.teamOf c).pl.gang)
include target start

theorem exec_brp_target : exec (.brp w) s = .next (s.setEv (some
    ((if leftBehind (s.teamOf c) c w = 0 then c.setFlow { c.flow with pc := y }
      else if !mayPark c.flow.stack (leftBehind (s.teamOf c) c w) then c.ill 14
      else c.pushed ⟨.deferred, flowNext c, leftBehind (s.teamOf c) c w⟩
        { c.flow with active := takers (s.teamOf c) c w.pn w.pr, pc := y }).past false 1))) := by
  rw [exec_brp, execBrp]
  refine onCur_eq_next ev ?_
  dsimp only
  rw [if_neg taken, relStart_of_mem target start]
  rfl

theorem exec_brq_target : exec (.brq w) s = .next (s.setEv (some
    ((if !mayPark c.flow.stack (leftBehind (s.teamOf c) c w) then c.ill 14
      else c.setFlow { c.flow with active := takers (s.teamOf c) c w.pn w.pr, pc := y }).past false 1))) := by
  rw [exec_brq, execBrq]
  refine onCur_eq_next ev ?_
  dsimp only
  rw [if_neg taken, relStart_of_mem target start]
  rfl

end

end

end

end Sys2Proof.Machine

namespace Sys2Proof
open Machine

/-- Settles O30: by whether a lane takes the branch, then by its target and by whether the lanes left behind may park. -/
theorem flowBranches : Obligations.FlowBranches := by
  intro r s c ev t f p tk rest starts
  have left : leftBehind t c r = rest := rfl
  refine ⟨fun none => ⟨exec_brp_none ev none, fun parks => ?_, fun stray => ?_⟩,
    fun taken away => ⟨exec_brp_away ev taken away, exec_brq_away ev taken away⟩, fun taken y target start => ?_⟩
  · rw [exec_brq_none ev none, left, past_of_mayPark _ _ parks, past_setFlow]
  · rw [exec_brq_none ev none, left, past_of_not_mayPark _ _ stray]
  · rw [exec_brp_target ev taken target start, exec_brq_target ev taken target start, left]
    refine ⟨fun all => ?_, fun some parks room => ?_, fun some parks full => ?_, fun parks => ?_, fun stray => ⟨?_, fun some => ?_⟩⟩
    · rw [if_pos all, past_setFlow]
    · rw [if_neg some, past_of_mayPark _ _ parks, past_pushed _ _ _ _ room]
      rfl
    · rw [if_neg some, past_of_mayPark _ _ parks, past_pushed_full _ _ _ _ full]
    · rw [past_of_mayPark _ _ parks, past_setFlow]
      rfl
    · rw [past_of_not_mayPark _ _ stray]
    · rw [if_neg some, past_of_not_mayPark _ _ stray]

end Sys2Proof
end

section
/-! `rcv`, `join` and `break` (R70 to R73, R76): regions opened, merged and left. -/

namespace Sys2Proof.Machine

/-- Lanes that may not park raise detail 14 (R71). -/
theorem past_ite_mayPark (c d : Cur) (m : Mask) (lit : Bool) :
    (mayPark c.flow.stack m = true → (if mayPark c.flow.stack m then d else c.ill 14).past lit 1 = d.past lit 1) ∧
    (mayPark c.flow.stack m = false → (if mayPark c.flow.stack m then d else c.ill 14).past lit 1 = flowIll c 14 lit) := by
  refine ⟨fun parks => by rw [if_pos parks], fun stray => ?_⟩
  rw [stray, if_neg Bool.false_ne_true, past_ill]

section
variable {s : State} {c : Cur} (ev : s.ev = some c)
include ev

section
variable {w : FR} (on : (s.teamOf c).up w.pr ≠ w.pn)
include on

section
variable {y : Nat} (target : flowTarget c w.off = y) (start : y ∈ s.gangStarts (s.teamOf c).pl.gang)
include target start

theorem exec_rcv_target : exec (.rcv w) s = .next (s.setEv (some
    ((c.pushed ⟨.region, y, c.flow.active⟩ c.flow).past false 1))) := by
  refine onCur_flowWord_on ev on ?_
  rw [relStart_of_mem target start]

theorem exec_brk_target (k : BitVec 5) : exec (.brk w k) s = .next (s.setEv (some
    ((if ((aboveCall c.flow.stack).filter (·.kind = .region)).length < k.toNat then c.ill 14
      else c.setFlow { c.flow with pc := y, stack := leaveRegions c.flow.active k.toNat c.flow.stack }).past false 1))) := by
  refine onCur_flowWord_on ev on ?_
  rw [relStart_of_mem target start]

end

section
variable (away : ∀ y ∈ s.gangStarts (s.teamOf c).pl.gang, flowTarget c w.off ≠ (y : Int))
include away

theorem exec_rcv_away : exec (.rcv w) s = .next (s.setEv (some (flowIll c 10 false))) := by
  refine onCur_flowWord_on ev on ?_
  rw [relStart_of_not_mem away]
  exact past_ill ..

theorem exec_brk_away (k : BitVec 5) : exec (.brk w k) s = .next (s.setEv (some (flowIll c 10 false))) := by
  refine onCur_flowWord_on ev on ?_
  rw [relStart_of_not_mem away]
  exact past_ill ..

end

end

section
variable {w : FN} (on : (s.teamOf c).up w.pr ≠ w.pn)
include on

theorem exec_join_nil (none : c.flow.stack = []) : exec (.join w) s = .next (s.setEv (some (flowIll c 14 false))) := by
  refine onCur_flowWord_on ev on ?_
  rw [none]
  exact past_ill ..

section
variable {e : StEntry} {st : List StEntry} (top : c.flow.stack = e :: st)
include top

theorem exec_join_call (kind : e.kind = .call) : exec (.join w) s = .next (s.setEv (some (flowIll c 14 false))) := by
  refine onCur_flowWord_on ev on ?_
  rw [top]
  dsimp only
  rw [kind]
  exact past_ill ..

theorem exec_join_deferred (kind : e.kind = .deferred) : exec (.join w) s = .next (s.setEv (some
    ((if mayPark c.flow.stack c.flow.active then c.setFlow { c.flow with active := e.mask, pc := e.pc, stack := st }
      else c.ill 14).past false 1))) := by
  refine onCur_flowWord_on ev on ?_
  rw [top]
  dsimp only
  rw [kind]

theorem exec_join_region (kind : e.kind = .region) : exec (.join w) s = .next (s.setEv (some
    ((if e.pc = c.hdr then c.setFlow { c.flow with active := e.mask, pc := flowNext c, stack := st }
      else if mayPark c.flow.stack c.flow.active then c.setFlow { c.flow with active := e.mask, pc := e.pc }
      else c.ill 14).past false 1))) := by
  refine onCur_flowWord_on ev on ?_
  rw [top]
  dsimp only
  rw [kind]
  rfl

end

end

end

end Sys2Proof.Machine

namespace Sys2Proof
open Machine

/-- Settles O31: `rcv` and `break` by their target, `join` by the entry on top of the stack. -/
theorem flowRegions : Obligations.FlowRegions := by
  intro n r k s c ev t f
  refine ⟨fun on y target start => ?target, fun on away => ⟨exec_rcv_away ev on away, exec_brk_away ev on away k⟩,
    fun on => ⟨exec_join_nil ev on, fun e st top => ⟨?_, ?_, ?_, ?_⟩⟩⟩
  case target =>
    rw [exec_rcv_target ev on target start, exec_brk_target ev on target start]
    refine ⟨fun room => ?_, fun full => ?_, fun enough => ?_, fun few => ?_⟩
    · rw [past_pushed _ _ _ _ room]
    · rw [past_pushed_full _ _ _ _ full]
    · rw [aboveCall, if_neg (Nat.not_lt.2 enough), past_setFlow]
    · rw [aboveCall, if_pos few, past_ill]
  · rintro (call | ⟨stray, elsewhere⟩)
    · exact exec_join_call ev on top call
    · cases kind : e.kind with
      | call => exact exec_join_call ev on top kind
      | deferred => rw [exec_join_deferred ev on top kind, (past_ite_mayPark ..).2 stray]
      | region => rw [exec_join_region ev on top kind, if_neg (elsewhere kind), (past_ite_mayPark ..).2 stray]
  · intro kind here
    rw [exec_join_region ev on top kind, if_pos here, past_setFlow]
  · intro kind elsewhere parks
    rw [exec_join_region ev on top kind, if_neg elsewhere, (past_ite_mayPark ..).1 parks, past_setFlow]
  · intro kind parks
    rw [exec_join_deferred ev on top kind, (past_ite_mayPark ..).1 parks, past_setFlow]

end Sys2Proof
end

section
/-! `ret` and `exit` (R72, R76): lanes that leave every entry, and what a team without active lanes resumes. -/

namespace Sys2Proof.Machine

/-- A resumption takes the lanes of an entry of the stack and keeps no entry that is not on it, or the team has ended (R72, R77). -/
theorem resume_cases (f : FlowSt) (l : List StEntry) :
    resume f l = { f with stack := [], live := 0 } ∨
    ∃ e ∈ l, e.mask ≠ 0 ∧ (resume f l).active = e.mask ∧ (resume f l).live = f.live ∧ (resume f l).stack ⊆ l := by
  induction l with
  | nil => exact .inl rfl
  | cons e l ih =>
    unfold resume
    split
    · next empty =>
      refine ih.imp_right ?_
      rintro ⟨x, mem, lanes, active, live, stack⟩
      exact ⟨x, List.mem_cons_of_mem e mem, lanes, active, live, List.Subset.trans stack (List.subset_cons_self e l)⟩
    · next lanes =>
      refine .inr ⟨e, List.mem_cons_self, lanes, rfl, rfl, ?_⟩
      dsimp only
      split
      · exact List.Subset.refl _
      · exact List.subset_cons_self e l

theorem and_not_and_self {w : Nat} (x m : BitVec w) : x &&& ~~~ m &&& m = 0 := by
  rw [BitVec.and_assoc, BitVec.and_comm (~~~ m), BitVec.and_not_self]
  exact BitVec.and_zero

/-- Lanes leave the mask of every entry, and the entries left empty leave the stack. -/
theorem leaveAll_eq (m : Mask) (st : List StEntry) :
    leaveAll m st = (st.map fun e => { e with mask := e.mask &&& ~~~ m }).filter (·.mask ≠ 0) := by
  unfold leaveAll
  induction st with
  | nil => rfl
  | cons e st ih =>
    rw [List.filterMap_cons, List.map_cons, List.filter_cons, StEntry.less, ← ih]
    by_cases empty : e.mask &&& ~~~ m = 0
    · rw [if_pos empty, if_neg (by rwa [decide_eq_true_eq, not_not])]
    · rw [if_neg empty, if_pos (by rwa [decide_eq_true_eq])]

/-- No entry holds a lane that has left it. -/
theorem mask_of_mem_leaveAll {m : Mask} {st : List StEntry} {e : StEntry} (h : e ∈ leaveAll m st) : e.mask &&& m = 0 := by
  rw [leaveAll_eq] at h
  obtain ⟨x, -, rfl⟩ := List.mem_map.1 (List.mem_of_mem_filter h)
  exact and_not_and_self ..

/-- The flow state of a pass whose active lanes exit, before it resumes what the stack holds (R76). -/
def FlowSt.exited (f : FlowSt) : FlowSt :=
  { f with active := 0, live := f.live &&& ~~~ f.active, stack := leaveAll f.active f.stack }

/-- A resumption behind an exit brings no exited lane back, and leaves no active lane only where the team has ended. -/
theorem resumed_exited (f : FlowSt) :
    f.exited.resumed.live &&& f.active = 0 ∧ f.exited.resumed.active &&& f.active = 0 ∧
    (∀ e ∈ f.exited.resumed.stack, e.mask &&& f.active = 0) ∧
    (f.exited.resumed.active = 0 → f.exited.resumed.stack = [] ∧ f.exited.resumed.live = 0) := by
  have eq : f.exited.resumed = resume f.exited (leaveAll f.active f.stack) := if_pos rfl
  rw [eq]
  rcases resume_cases f.exited (leaveAll f.active f.stack) with ended | ⟨e, mem, lanes, active, live, stack⟩
  · rw [ended]
    exact ⟨BitVec.zero_and, BitVec.zero_and, fun e mem => absurd mem List.not_mem_nil, fun _ => ⟨rfl, rfl⟩⟩
  · rw [active, live]
    exact ⟨and_not_and_self .., mask_of_mem_leaveAll mem, fun x here => mask_of_mem_leaveAll (stack here),
      fun none => absurd none lanes⟩

section
variable {s : State} {c : Cur} {w : FN} (ev : s.ev = some c) (on : (s.teamOf c).up w.pr ≠ w.pn)
include ev on

theorem exec_ret_call (call : ∃ e ∈ c.flow.stack, e.kind = .call) : exec (.ret w) s = .next (s.setEv (some (flowTo c
    ({ c.flow with active := 0, stack := leaveRegions c.flow.active c.flow.stack.length c.flow.stack } : FlowSt).resumed
    false))) := by
  refine onCur_flowWord_on ev on ?_
  rw [if_pos (by simpa using call)]
  exact past_setFlow ..

theorem exec_ret_no_call (none : ∀ e ∈ c.flow.stack, e.kind ≠ .call) :
    exec (.ret w) s = .next (s.setEv (some (flowIll c 14 false))) := by
  refine onCur_flowWord_on ev on ?_
  rw [if_neg (by simpa using none), past_ill]

theorem exec_exit : exec (.exit w) s = .next (s.setEv (some (flowTo c c.flow.exited.resumed false))) :=
  onCur_flowWord_on ev on (past_setFlow ..)

end

end Sys2Proof.Machine

namespace Sys2Proof
open Machine

/-- Settles O32: both words are a resumption, which follows R72 by `resumed_spec`; that of `exit` starts without the exited lanes. -/
theorem flowReturnAndExit : Obligations.FlowReturnAndExit := by
  intro n s c ev on f
  refine ⟨fun call => ?_, exec_ret_no_call ev on, ⟨f.exited.resumed, exec_exit ev on, ?_, resumed_exited f⟩⟩
  · exact ⟨_, (resumed_spec _).2 rfl, exec_ret_call ev on call⟩
  · rw [← leaveAll_eq]
    exact (resumed_spec f.exited).2 rfl

end Sys2Proof
end

section
/-! Integer and logic words (R90 to R94, R96): the value of each as arithmetic on integers and natural numbers. -/

namespace Sys2Proof.Machine

/-! ### Forms of words -/

/-- A word of two sources completes in one cycle with a value of a and b in each guarded lane. -/
def GivesOfTwo (i : FA → Instr) (g : Word → Word → Word) : Prop :=
  ∀ (w : FA) (s : State) (c : Cur), s.ev = some c →
    exec (i w) s = .next (s.setEv (some (withValues (s.teamOf c) c w.nw w.pn w.pr w.d (usesLit [w.a, w.b]) 1 fun l =>
      g (srcOp (s.teamOf c) c w.a l) (srcOp (s.teamOf c) c w.b l))))

/-- A word completes in one cycle with a value of a, b and D as it stood in each guarded lane. -/
def GivesOfThree (i : FA → Instr) (g : Word → Word → Word → Word) : Prop :=
  ∀ (w : FA) (s : State) (c : Cur), s.ev = some c →
    exec (i w) s = .next (s.setEv (some (withValues (s.teamOf c) c w.nw w.pn w.pr w.d (usesLit [w.a, w.b]) 1 fun l =>
      g (srcOp (s.teamOf c) c w.a l) (srcOp (s.teamOf c) c w.b l) (dOld (s.teamOf c) c w.d l))))

section
variable {i : FA → Instr}

theorem givesOfTwo_of_bin {f g : Word → Word → Word} (means : ∀ w s, exec (i w) s = onCur s (bin w 1 f))
    (gives : ∀ a b, f a b = g a b) : GivesOfTwo i g := by
  intro w s c ev
  rw [means, onCur_some ev, bin_eq]
  simp only [gives]

theorem givesOfThree_of_bin {f : Word → Word → Word} {g : Word → Word → Word → Word}
    (means : ∀ w s, exec (i w) s = onCur s (bin w 1 f)) (gives : ∀ a b d, f a b = g a b d) : GivesOfThree i g := by
  intro w s c ev
  rw [means, onCur_some ev, bin_eq]
  congr! 5 with l
  exact gives ..

theorem givesOfThree_of_acc3 {f g : Word → Word → Word → Word} (means : ∀ w s, exec (i w) s = onCur s (acc3 w f))
    (gives : ∀ a b d, f a b d = g a b d) : GivesOfThree i g := by
  intro w s c ev
  rw [means, onCur_some ev, acc3_eq]
  simp only [gives]

end

/-! ### Sums, products and shifts -/

theorem add_eq_ofNat (a b : Word) : a + b = BitVec.ofNat 32 (a.toNat + b.toNat) := by
  rw [BitVec.ofNat_add, BitVec.ofNat_toNat, BitVec.ofNat_toNat, BitVec.setWidth_eq, BitVec.setWidth_eq]

theorem mul_eq_ofNat (a b : Word) : a * b = BitVec.ofNat 32 (a.toNat * b.toNat) := by
  rw [BitVec.ofNat_mul, BitVec.ofNat_toNat, BitVec.ofNat_toNat, BitVec.setWidth_eq, BitVec.setWidth_eq]

theorem sub_eq_ofInt (a b : Word) : a - b = BitVec.ofInt 32 (a.toInt - b.toInt) := by
  rw [Int.sub_eq_add_neg, BitVec.ofInt_add, BitVec.ofInt_neg, BitVec.ofInt_toInt, BitVec.ofInt_toInt, BitVec.sub_eq_add_neg]

theorem shl_eq_ofNat (a b : Word) : shl a b = BitVec.ofNat 32 (a.toNat * 2 ^ (b.toNat % 64)) := by
  apply BitVec.eq_of_toNat_eq
  rw [shl, BitVec.toNat_shiftLeft, Nat.shiftLeft_eq, BitVec.toNat_ofNat]

theorem shr_eq_ofNat (a b : Word) : shr a b = BitVec.ofNat 32 (a.toNat / 2 ^ (b.toNat % 64)) := by
  apply BitVec.eq_of_toNat_eq
  rw [shr, BitVec.toNat_ushiftRight, Nat.shiftRight_eq_div_pow, BitVec.toNat_ofNat,
    Nat.mod_eq_of_lt ((Nat.div_le_self ..).trans_lt a.isLt)]

theorem sar_eq_ofInt (a b : Word) : sar a b = BitVec.ofInt 32 (a.toInt / 2 ^ (b.toNat % 64)) := by
  rw [sar, BitVec.sshiftRight, Int.shiftRight_eq_div_pow]
  norm_cast

/-- A number shifted left with the bits that leave it put in below is the number rotated. -/
theorem rotate_toNat {a k : Nat} (ha : a < 2 ^ 32) (hk : k < 32) :
    (a * 2 ^ k + a / 2 ^ (32 - k)) % 2 ^ 32 = a * 2 ^ k % 2 ^ 32 ||| a / 2 ^ (32 - k) := by
  have split : 2 ^ 32 = 2 ^ (32 - k) * 2 ^ k := by rw [← Nat.pow_add]; congr 1; omega
  have low : a / 2 ^ (32 - k) < 2 ^ k := Nat.div_lt_of_lt_mul (split ▸ ha)
  have high : a * 2 ^ k % 2 ^ 32 = (a % 2 ^ (32 - k)) <<< k := by rw [split, Nat.mul_mod_mul_right, Nat.shiftLeft_eq]
  have room : (a % 2 ^ (32 - k)) <<< k + a / 2 ^ (32 - k) < 2 ^ 32 := by
    have := Nat.mul_le_mul_right (2 ^ k) (Nat.succ_le_of_lt (Nat.mod_lt a (Nat.two_pow_pos (32 - k))))
    rw [← split, Nat.succ_mul] at this
    rw [Nat.shiftLeft_eq]
    omega
  rw [← Nat.mod_add_mod, high, Nat.mod_eq_of_lt room, Nat.shiftLeft_add_eq_or_of_lt low]

theorem rol_eq_ofNat (a b : Word) :
    rol a b = BitVec.ofNat 32 (a.toNat * 2 ^ (b.toNat % 32) + a.toNat / 2 ^ (32 - b.toNat % 32)) := by
  apply BitVec.eq_of_toNat_eq
  have hk : b.toNat % 32 < 32 := Nat.mod_lt _ (by decide)
  rw [rol, BitVec.toNat_rotateLeft, Nat.mod_mod, Nat.shiftLeft_eq, Nat.shiftRight_eq_div_pow, BitVec.toNat_ofNat,
    rotate_toNat a.isLt hk]

/-! ### Accumulation and bit fields -/

theorem mulAdd_eq_ofNat (a b d : Word) : a * b + d = BitVec.ofNat 32 (a.toNat * b.toNat + d.toNat) := by
  rw [BitVec.ofNat_add, ← mul_eq_ofNat, BitVec.ofNat_toNat, BitVec.setWidth_eq]

theorem dot4_eq_sum (a b : Word) :
    dot4 a b = ((List.range 4).map fun k => (a.extractLsb' (8 * k) 8).toInt * (b.extractLsb' (8 * k) 8).toInt).sum := by
  simp only [dot4, List.range_succ, List.range_zero, List.nil_append, List.cons_append, List.map_cons, List.map_nil,
    List.sum_cons, List.sum_nil, add_zero, add_assoc]

theorem addDot4_eq_ofInt (a b d : Word) : d + BitVec.ofInt 32 (dot4 a b) = BitVec.ofInt 32 (d.toInt +
    ((List.range 4).map fun k => (a.extractLsb' (8 * k) 8).toInt * (b.extractLsb' (8 * k) 8).toInt).sum) := by
  rw [BitVec.ofInt_add, BitVec.ofInt_toInt, dot4_eq_sum]

theorem bfPos_eq_fieldPos : bfPos = fieldPos := rfl

theorem bfWidth_eq_fieldWidth : bfWidth = fieldWidth := rfl

/-- A field lies within the word (R96). -/
theorem fieldPos_add_fieldWidth_le (b : Word) : fieldPos b + fieldWidth b ≤ 32 := by
  have : fieldPos b < 32 := Nat.mod_lt _ (by decide)
  unfold fieldWidth
  omega

/-- A number of n bits read as signed. -/
theorem toInt_ofNat_eq {n : Nat} (x : Nat) (pos : n ≠ 0) : (BitVec.ofNat n x).toInt =
    if 2 ^ (n - 1) ≤ x % 2 ^ n then ((x % 2 ^ n : Nat) : Int) - 2 ^ n else (x % 2 ^ n : Nat) := by
  have double : 2 ^ n = 2 * 2 ^ (n - 1) := by rw [← Nat.pow_succ', Nat.succ_eq_add_one, Nat.sub_add_cancel (by omega)]
  rw [BitVec.toInt_eq_toNat_cond, BitVec.toNat_ofNat]
  by_cases h : 2 ^ (n - 1) ≤ x % 2 ^ n
  · rw [if_pos h, if_neg (by omega)]
    norm_cast
  · rw [if_neg h, if_pos (by omega)]

theorem bfxS_eq (a b : Word) : bfxS a b = if fieldWidth b = 0 then 0 else
    let x := a.toNat / 2 ^ fieldPos b % 2 ^ fieldWidth b
    BitVec.ofInt 32 (if 2 ^ (fieldWidth b - 1) ≤ x then (x : Int) - 2 ^ fieldWidth b else x) := by
  rw [bfxS, bfPos_eq_fieldPos, bfWidth_eq_fieldWidth]
  by_cases h : fieldWidth b = 0
  · rw [if_pos h, if_pos h]
  · rw [if_neg h, if_neg h, BitVec.signExtend, toInt_ofNat_eq _ h]

/-- The bits of a number that holds n bits of x from place p on and those of y elsewhere. -/
theorem testBit_insert (x y p n k : Nat) :
    (y % 2 ^ p + x % 2 ^ n * 2 ^ p + y / 2 ^ (p + n) * 2 ^ (p + n)).testBit k =
      if p ≤ k ∧ k < p + n then x.testBit (k - p) else y.testBit k := by
  have shape : y % 2 ^ p + x % 2 ^ n * 2 ^ p + y / 2 ^ (p + n) * 2 ^ (p + n) =
      2 ^ p * (2 ^ n * (y / 2 ^ (p + n)) + x % 2 ^ n) + y % 2 ^ p := by rw [Nat.pow_add]; ring
  have low : y % 2 ^ p < 2 ^ p := Nat.mod_lt _ (Nat.two_pow_pos p)
  have mid : x % 2 ^ n < 2 ^ n := Nat.mod_lt _ (Nat.two_pow_pos n)
  rw [shape, Nat.testBit_two_pow_mul_add _ low]
  by_cases below : k < p
  · rw [if_pos below, if_neg (by omega), Nat.testBit_mod_two_pow, decide_eq_true below, Bool.true_and]
  · rw [if_neg below, Nat.testBit_two_pow_mul_add _ mid]
    by_cases inside : k - p < n
    · rw [if_pos inside, if_pos (by omega), Nat.testBit_mod_two_pow, decide_eq_true inside, Bool.true_and]
    · rw [if_neg inside, if_neg (by omega), Nat.testBit_div_two_pow]
      congr 1
      omega

/-- The mask of n bits from place p on. -/
theorem testBit_fieldMask (p n k : Nat) : ((2 ^ n - 1) * 2 ^ p).testBit k = decide (p ≤ k ∧ k < p + n) := by
  rw [Nat.testBit_mul_two_pow, Nat.testBit_two_pow_sub_one, ← Bool.decide_and]
  exact decide_eq_decide.2 (by omega)

theorem bfi_eq_ofNat (a b d : Word) : bfi a b d = BitVec.ofNat 32
    (d.toNat % 2 ^ fieldPos b + a.toNat % 2 ^ fieldWidth b * 2 ^ fieldPos b +
      d.toNat / 2 ^ (fieldPos b + fieldWidth b) * 2 ^ (fieldPos b + fieldWidth b)) := by
  apply BitVec.eq_of_getLsbD_eq
  intro k hk
  rw [bfi, bfPos_eq_fieldPos, bfWidth_eq_fieldWidth]
  simp only [BitVec.getLsbD_or, BitVec.getLsbD_and, BitVec.getLsbD_not, BitVec.getLsbD_ofNat, testBit_fieldMask, testBit_insert,
    BitVec.getLsbD_shiftLeft, hk, decide_true, Bool.true_and]
  by_cases inside : fieldPos b ≤ k ∧ k < fieldPos b + fieldWidth b
  · have above : ¬ k < fieldPos b := by omega
    simp [inside, above, BitVec.getLsbD]
  · simp [inside, BitVec.getLsbD]

/-! ### Division -/

/-- What R93 says of a division word that gives `z` for a zero divisor and `g` for another. -/
def Divides (i : FA → Instr) (z : Word → Word) (g : Word → Word → Word) : Prop :=
  ∀ (w : FA) (s : State) (c : Cur), s.ev = some c →
    let t := s.teamOf c
    let zero := c.lanes.filter fun l => guardA t c w.pn w.pr l && srcOp t c w.b l = 0
    let after (c : Cur) : Cur := withValues t c w.nw w.pn w.pr w.d (usesLit [w.a, w.b]) 16 fun l =>
      if srcOp t c w.b l = 0 then z (srcOp t c w.a l) else g (srcOp t c w.a l) (srcOp t c w.b l)
    (zero = [] ∨ t.csr.trapen.getLsbD 8 = false → exec (i w) s = .next (s.setEv (some (after c)))) ∧
    (zero ≠ [] → t.csr.trapen.getLsbD 8 = true → exec (i w) s = .next (s.setEv (some (after
      { c with trap := trapOf c ⟨c.pos, 0x01, 0, 0, if c.cls = .lane || c.cls = .mem then maskOf zero else 0⟩ }))))

/-- A division word by whether a zero divisor in a guarded lane traps. -/
theorem divides_of_divWord {i : FA → Instr} {f g : Word → Word → Word} {z : Word → Word}
    (means : ∀ w s, exec (i w) s = onCur s (divWord w f)) (gives : ∀ a b, f a b = if b = 0 then z a else g a b) :
    Divides i z g := by
  intro w s c ev t zero after
  have value (d : Cur) : bin w 16 f t d = after d := by
    rw [bin_eq]
    simp only [gives, after]
  refine ⟨fun quiet => ?_, fun some enabled => ?_⟩
  · have no : (!zero.isEmpty && t.csr.trapen.getLsbD 8) = false := by
      rcases quiet with none | off
      · rw [none]; rfl
      · rw [off, Bool.and_false]
    rw [means, onCur_some ev, divWord, no, if_neg Bool.false_ne_true, value]
  · have yes : (!zero.isEmpty && t.csr.trapen.getLsbD 8) = true := by
      rw [enabled, Bool.and_true, Bool.not_eq_true', List.isEmpty_eq_false_iff]
      exact some
    rw [means, onCur_some ev, divWord, yes, if_pos rfl, value, Cur.raise_eq]
    rfl

end Sys2Proof.Machine

namespace Sys2Proof
open Machine

/-- Settles O11: each word is the two-source form of its value function. -/
theorem intBinaryWords : Obligations.IntBinaryWords := by
  change ∀ e ∈ intBinary, GivesOfTwo e.1 e.2
  simp only [intBinary, List.forall_mem_cons]
  exact ⟨givesOfTwo_of_bin (fun _ _ => rfl) add_eq_ofNat, givesOfTwo_of_bin (fun _ _ => rfl) sub_eq_ofInt,
    givesOfTwo_of_bin (fun _ _ => rfl) mul_eq_ofNat, givesOfTwo_of_bin (f := mulhS) (fun _ _ => rfl) fun _ _ => rfl,
    givesOfTwo_of_bin (f := mulhN) (fun _ _ => rfl) fun _ _ => rfl,
    givesOfTwo_of_bin (f := minS) (fun _ _ => rfl) fun _ _ => rfl,
    givesOfTwo_of_bin (f := maxS) (fun _ _ => rfl) fun _ _ => rfl,
    givesOfTwo_of_bin (f := minN) (fun _ _ => rfl) fun _ _ => rfl,
    givesOfTwo_of_bin (f := maxN) (fun _ _ => rfl) fun _ _ => rfl,
    givesOfTwo_of_bin (fun _ _ => rfl) fun _ _ => rfl, givesOfTwo_of_bin (fun _ _ => rfl) fun _ _ => rfl,
    givesOfTwo_of_bin (fun _ _ => rfl) fun _ _ => rfl, givesOfTwo_of_bin (fun _ _ => rfl) fun _ _ => rfl,
    givesOfTwo_of_bin (fun _ _ => rfl) shl_eq_ofNat, givesOfTwo_of_bin (fun _ _ => rfl) shr_eq_ofNat,
    givesOfTwo_of_bin (fun _ _ => rfl) sar_eq_ofInt, givesOfTwo_of_bin (fun _ _ => rfl) rol_eq_ofNat,
    givesOfTwo_of_bin (fun _ _ => rfl) fun _ _ => rfl, givesOfTwo_of_bin (fun _ _ => rfl) fun _ _ => rfl,
    List.forall_mem_nil _⟩

/-- Settles O12: the accumulating words and `bfi` take D as a source, the extracts are of two sources. -/
theorem intTernaryWords : Obligations.IntTernaryWords := by
  change ∀ e ∈ intTernary, GivesOfThree e.1 e.2
  simp only [intTernary, List.forall_mem_cons]
  exact ⟨givesOfThree_of_acc3 (fun _ _ => rfl) mulAdd_eq_ofNat, givesOfThree_of_acc3 (fun _ _ => rfl) addDot4_eq_ofInt,
    givesOfThree_of_bin (f := bfxN) (fun _ _ => rfl) fun _ _ _ => rfl,
    givesOfThree_of_bin (fun _ _ => rfl) fun a b _ => bfxS_eq a b,
    givesOfThree_of_acc3 (fun _ _ => rfl) bfi_eq_ofNat, List.forall_mem_nil _⟩

/-- Settles O13: each word is a division by its value function. -/
theorem divisionWords : Obligations.DivisionWords := by
  change ∀ e ∈ intDivision, Divides e.1 e.2.1 e.2.2
  simp only [intDivision, List.forall_mem_cons]
  exact ⟨divides_of_divWord (f := divS) (fun _ _ => rfl) fun _ _ => rfl,
    divides_of_divWord (f := divN) (fun _ _ => rfl) fun _ _ => rfl,
    divides_of_divWord (f := remS) (fun _ _ => rfl) fun _ _ => rfl,
    divides_of_divWord (f := remN) (fun _ _ => rfl) fun _ _ => rfl, List.forall_mem_nil _⟩

end Sys2Proof
end

section
/-! The unary words, `mov` and `sel` (R95, R97). -/

namespace Sys2Proof.Machine

theorem abs_eq_ofNat (a : Word) : (if a.msb then -a else a) = BitVec.ofNat 32 a.toInt.natAbs := by
  rw [← BitVec.ofInt_natCast, BitVec.msb_eq_toInt]
  by_cases negative : a.toInt < 0
  · rw [decide_eq_true negative, if_pos rfl, Int.ofNat_natAbs_of_nonpos negative.le, BitVec.ofInt_neg, BitVec.ofInt_toInt]
  · rw [decide_eq_false negative, if_neg Bool.false_ne_true, Int.natAbs_of_nonneg (not_lt.1 negative), BitVec.ofInt_toInt]

/-- The number of bits counted fits a word. -/
theorem toNat_popc (a : Word) : (iunVal .popc a).toNat = (List.range 32).countP (a.getLsbD ·) := by
  have few : (List.range 32).countP (a.getLsbD ·) ≤ 32 := List.countP_le_length
  rw [iunVal, ← List.countP_eq_length_filter, BitVec.toNat_ofNat, Nat.mod_eq_of_lt (by omega)]

/-- The members before the first that has the property. -/
theorem length_takeWhile_not {α : Type} (p : α → Bool) (l : List α) : (l.takeWhile fun x => !p x).length = l.findIdx p := by
  simp [List.takeWhile_eq_take_findIdx_not, List.findIdx_le_length]

/-- The zeros before the first one among bits that a list of 32 places gives. -/
theorem toNat_findIdx {l : List Nat} (len : l.length = 32) (p : Nat → Bool) {d : Word}
    (h : d = BitVec.ofNat 32 (l.takeWhile fun k => !p k).length) :
    d.toNat ≤ 32 ∧ (∀ k < d.toNat, ∀ here : k < l.length, p l[k] = false) ∧
      (∀ here : d.toNat < l.length, p l[d.toNat] = true) := by
  have most : l.findIdx p ≤ 32 := len ▸ List.findIdx_le_length
  have eq : d.toNat = l.findIdx p := by
    rw [h, length_takeWhile_not, BitVec.toNat_ofNat, Nat.mod_eq_of_lt (by omega)]
  simp only [eq]
  refine ⟨most, fun k before here => ?_, fun here => List.findIdx_getElem⟩
  simpa using List.not_of_lt_findIdx before

theorem ctz_gives (a : Word) : unaryGives .ctz a (iunVal .ctz a) := by
  obtain ⟨most, zeros, one⟩ := toNat_findIdx (List.length_range (n := 32)) a.getLsbD (d := iunVal .ctz a) rfl
  simp only [List.length_range, List.getElem_range] at zeros one
  exact ⟨most, fun k before => zeros k before (by omega), one⟩

theorem clz_gives (a : Word) : unaryGives .clz a (iunVal .clz a) := by
  obtain ⟨most, zeros, one⟩ := toNat_findIdx (l := (List.range 32).reverse) rfl a.getLsbD (d := iunVal .clz a) rfl
  simp only [List.length_reverse, List.length_range, List.getElem_reverse, List.getElem_range] at zeros one
  refine ⟨most, fun k low high => ?_, one⟩
  have zero := zeros (31 - k) (by omega) (by omega)
  rwa [show 32 - 1 - (31 - k) = k by omega] at zero

theorem brev_gives (a : Word) : unaryGives .brev a (iunVal .brev a) := by
  intro k hk
  rw [iunVal, BitVec.getLsbD_reverse, BitVec.getMsbD_eq_getLsbD, decide_eq_true hk, Bool.true_and]

theorem bswap_gives (a : Word) : unaryGives .bswap a (iunVal .bswap a)
  | 0, _ => BitVec.extractLsb'_append_eq_right
  | 1, _ => (BitVec.extractLsb'_append_eq_of_le (by decide)).trans BitVec.extractLsb'_append_eq_right
  | 2, _ => ((BitVec.extractLsb'_append_eq_of_le (by decide)).trans (BitVec.extractLsb'_append_eq_of_le (by decide))).trans
      BitVec.extractLsb'_append_eq_right
  | 3, _ => (BitVec.extractLsb'_append_eq_of_le (by decide)).trans ((BitVec.extractLsb'_append_eq_of_le (by decide)).trans
      BitVec.extractLsb'_append_eq_left)

/-- What each unary operation gives is what R95 says of it. -/
theorem iunVal_gives (op : IunOp) (a : Word) : unaryGives op a (iunVal op a) := by
  cases op with
  | not => exact fun k hk => by rw [iunVal, BitVec.getLsbD_not, decide_eq_true hk, Bool.true_and]
  | neg => exact (by rw [BitVec.ofInt_neg, BitVec.ofInt_toInt] : -a = BitVec.ofInt 32 (-a.toInt))
  | abs => exact abs_eq_ofNat a
  | popc => exact toNat_popc a
  | clz => exact clz_gives a
  | ctz => exact ctz_gives a
  | brev => exact brev_gives a
  | sext8 | sext16 => exact rfl
  | zext8 => exact Nat.and_two_pow_sub_one_eq_mod a.toNat 8
  | zext16 => exact Nat.and_two_pow_sub_one_eq_mod a.toNat 16
  | bswap => exact bswap_gives a

/-- A word of one source, by its meaning. -/
theorem exec_of_un {i : Instr} {w : FU} {f : Word → Word} {s : State} {c : Cur} (means : exec i s = onCur s (un w 1 f))
    (ev : s.ev = some c) : exec i s = .next (s.setEv (some (withValues (s.teamOf c) c w.nw w.pn w.pr w.d (usesLit [w.a]) 1 fun l =>
      f (srcOp (s.teamOf c) c w.a l)))) := by
  rw [means, onCur_some ev, un_eq]

/-- A word that gives each guarded lane a value and raises no flag, by its meaning. -/
theorem exec_of_aluWord {i : Instr} {s : State} {c : Cur} {nw pn : Bool} {pr : BitVec 3} {d : BitVec 7} {lit : Bool} {cost : Nat}
    {f : Team → Cur → Nat → Word} (means : exec i s = onCur s (aluWord nw pn pr d lit cost fun t c l => (f t c l, 0)))
    (ev : s.ev = some c) :
    exec i s = .next (s.setEv (some (withValues (s.teamOf c) c nw pn pr d lit cost (f (s.teamOf c) c)))) := by
  rw [means, onCur_some ev, aluWord_plain]

end Sys2Proof.Machine

namespace Sys2Proof
open Machine

/-- Settles O14: `iun` and `mov` are forms of one source; `sel` is a word without a guard. -/
theorem unaryAndMoveWords : Obligations.UnaryAndMoveWords :=
  ⟨fun _ op _ _ ev => ⟨iunVal op, iunVal_gives op, exec_of_un rfl ev⟩, fun _ _ _ ev => exec_of_un (f := fun a => a) rfl ev,
    fun w _ _ ev => exec_of_aluWord (f := fun t c l => if guardA t c w.pn w.pr l then srcOp t c w.a l else srcOp t c w.b l) rfl ev⟩

end Sys2Proof
end

section
/-! Compares and words on predicates (R98 to R100). -/

namespace Sys2Proof.Machine

/-- A compare completes with the predicate combined with a truth value of a and b in each guarded lane. -/
def Compares (i : FC → Instr) (g : Word → Word → Bool) : Prop :=
  ∀ (w : FC) (s : State) (c : Cur), s.ev = some c →
    exec (i w) s = .next (s.setEv (some (withTruths (s.teamOf c) c w.nw w.pn w.pr w.mode w.q (usesLit [w.a, w.b]) fun l =>
      g (srcOp (s.teamOf c) c w.a l) (srcOp (s.teamOf c) c w.b l))))

theorem compares_of_cmp {i : FC → Instr} {f g : Word → Word → Bool}
    (means : ∀ w s, exec (i w) s = onCur s (cmp w fun a b => (f a b, 0))) (gives : ∀ a b, f a b = g a b) : Compares i g := by
  intro w s c ev
  rw [means, onCur_some ev, cmp_eq]
  simp only [gives]

theorem decide_eq_toNat (a b : Word) : decide (a = b) = decide (a.toNat = b.toNat) := decide_eq_decide.2 BitVec.toNat_inj.symm

theorem decide_ne_toNat (a b : Word) : decide (a ≠ b) = decide (a.toNat ≠ b.toNat) :=
  decide_eq_decide.2 (not_congr BitVec.toNat_inj.symm)

/-- A word is not zero where it has a bit. -/
theorem ne_zero_iff_getLsbD (x : Word) : x ≠ 0 ↔ ∃ k < 32, x.getLsbD k = true := by
  refine ⟨fun nonzero => ?_, ?_⟩
  · by_contra! none
    exact nonzero (BitVec.eq_of_getLsbD_eq fun k hk => (Bool.eq_false_of_not_eq_true (none k hk)).trans BitVec.getLsbD_zero.symm)
  · rintro ⟨k, -, bit⟩ rfl
    exact Bool.false_ne_true (BitVec.getLsbD_zero.symm.trans bit)

/-- `vtop` asks for a bit that both sources have (R100). -/
theorem decide_and_ne_zero (a b : Word) : decide (a &&& b ≠ 0) = (List.range 32).any fun k => a.getLsbD k && b.getLsbD k := by
  rw [Bool.eq_iff_iff, decide_eq_true_iff, ne_zero_iff_getLsbD, List.any_eq_true]
  simp only [List.mem_range, BitVec.getLsbD_and]

/-- The place in a table that two predicates name (R99). -/
theorem tableIndex_eq (x y : Bool) : 2 * x.toNat + y.toNat = (if x then 2 else 0) + if y then 1 else 0 := by
  cases x <;> cases y <;> rfl

/-- The bits of a sum of the powers of two at the places that have a property. -/
theorem foldl_pow_bits (p : Nat → Bool) (n : Nat) :
    ((List.range n).foldl (fun x k => x + if p k then 2 ^ k else 0) 0) < 2 ^ n ∧
    ∀ j, ((List.range n).foldl (fun x k => x + if p k then 2 ^ k else 0) 0).testBit j = (decide (j < n) && p j) := by
  induction n with
  | zero => simp
  | succ n ih =>
    obtain ⟨small, bits⟩ := ih
    have top : (if p n then 2 ^ n else 0) = 2 ^ n * (p n).toNat := by cases p n <;> simp
    rw [List.range_succ, List.foldl_append, List.foldl_cons, List.foldl_nil, top, Nat.add_comm]
    refine ⟨?_, fun j => ?_⟩
    · rw [Nat.pow_succ]
      have := Nat.mul_le_mul_left (2 ^ n) (Bool.toNat_le (p n))
      omega
    · rw [Nat.testBit_two_pow_mul_add _ small, Nat.testBit_bool_toNat, bits]
      rcases lt_trichotomy j n with below | rfl | above
      · simp [below, Nat.lt_succ_of_lt below]
      · simp
      · simp [above.not_gt, Nat.sub_ne_zero_of_lt above, show ¬ j < n + 1 by omega]

/-- The predicates as the bits of a word (R100). -/
theorem getLsbD_predBits (f : BitVec 3 → Bool) (k : Nat) (hk : k < 32) :
    (predBits f).getLsbD k = (decide (k < 8) && f (BitVec.ofNat 3 k)) := by
  rw [predBits, BitVec.natCast_eq_ofNat, BitVec.getLsbD_ofNat, decide_eq_true hk, Bool.true_and]
  exact (foldl_pow_bits (fun k => f (BitVec.ofNat 3 k)) 8).2 k

/-- A word that gives each guarded lane a truth value and raises no flag, by its meaning. -/
theorem exec_of_predWord {i : Instr} {s : State} {c : Cur} {nw pn : Bool} {pr : BitVec 3} {mode : CMode} {q : BitVec 3} {lit : Bool}
    {f : Team → Cur → Nat → Bool} (means : exec i s = onCur s (predWord nw pn pr mode q lit fun t c l => (f t c l, 0)))
    (ev : s.ev = some c) :
    exec i s = .next (s.setEv (some (withTruths (s.teamOf c) c nw pn pr mode q lit (f (s.teamOf c) c)))) := by
  rw [means, onCur_some ev, predWord_plain]

theorem intCompares_compare : ∀ e ∈ intCompares, Compares e.1 e.2 := by
  simp only [intCompares, List.forall_mem_cons]
  exact ⟨compares_of_cmp (fun _ _ => rfl) decide_eq_toNat, compares_of_cmp (fun _ _ => rfl) decide_ne_toNat,
    compares_of_cmp (fun _ _ => rfl) fun _ _ => rfl, compares_of_cmp (fun _ _ => rfl) fun _ _ => rfl,
    compares_of_cmp (fun _ _ => rfl) fun _ _ => rfl, compares_of_cmp (fun _ _ => rfl) fun _ _ => rfl,
    compares_of_cmp (fun _ _ => rfl) decide_and_ne_zero, List.forall_mem_nil _⟩

end Sys2Proof.Machine

namespace Sys2Proof
open Machine

/-- Settles O15: the compares by their one form, `plop` and `ptov` by the places and the bits of what they read. -/
theorem predicateWords : Obligations.PredicateWords := by
  refine ⟨intCompares_compare, fun w s c ev => ?_, fun w s c ev => ?_⟩
  · simp only [← tableIndex_eq]
    exact exec_of_predWord (f := fun t c l => w.tbl.getLsbD (2 * (predA t c w.x l).toNat + (predA t c w.y l).toNat)) rfl ev
  · exact ⟨fun l => predBits fun q => predA (s.teamOf c) c q l, fun l => getLsbD_predBits _,
      exec_of_aluWord (f := fun t c l => predBits fun q => predA t c q l) rfl ev⟩

end Sys2Proof
end

section
/-! Words across the lanes of a pass, and what a lane, a team and a launch are (R101 to R103, R105). -/

namespace Sys2Proof.Machine

/-! ### Shuffles -/

/-- The lane a shuffle reads for lane l: the one named within its home warp, else its own. -/
def sourceLane (l : Nat) : Option Nat → Nat
  | some j => l / 32 * 32 + j
  | none => l

/-- A shuffle gives each guarded lane the value of A in the lane that `from_` names (R102). -/
def Shuffles (i : FA → Instr) (from_ : Nat → Nat → Option Nat) : Prop :=
  ∀ (w : FA) (s : State) (c : Cur), s.ev = some c →
    exec (i w) s = .next (s.setEv (some (withValues (s.teamOf c) c w.nw w.pn w.pr w.d (usesLit [w.a, w.b]) 2 fun l =>
      laneOp (s.teamOf c) c w.a (sourceLane l (from_ (l % 32) (laneOp (s.teamOf c) c w.b l).toNat)))))

/-- A lane named beyond the home warp is as none named (R102). -/
theorem shuffle_eq (w : FA) (src : Nat → Nat → Option Nat) :
    shuffle w src = aluWord w.nw w.pn w.pr w.d (usesLit [w.a, w.b]) 2 fun t c l =>
      (laneOp t c w.a (sourceLane l ((src (l % 32) (laneOp t c w.b l).toNat).filter (· < 32))), 0) := by
  unfold shuffle
  congr! 4 with t c l
  cases src (l % 32) (laneOp t c w.b l).toNat with
  | none => rfl
  | some p => by_cases inside : p < 32 <;> simp [inside, crossA, sourceLane, Option.filter]

theorem shuffles_of_shuffle {i : FA → Instr} {src from_ : Nat → Nat → Option Nat}
    (means : ∀ w s, exec (i w) s = onCur s (shuffle w src))
    (inside : ∀ j n, j < 32 → (src j n).filter (· < 32) = from_ j n) : Shuffles i from_ := by
  intro w s c ev
  simp only [← inside _ _ (Nat.mod_lt _ (by decide : 32 > 0))]
  exact exec_of_aluWord (f := fun t c l =>
    laneOp t c w.a (sourceLane l ((src (l % 32) (laneOp t c w.b l).toNat).filter (· < 32)))) (by rw [means, shuffle_eq]) ev

theorem shuffles_shuffle : ∀ e ∈ shuffles, Shuffles e.1 e.2 := by
  simp only [shuffles, List.forall_mem_cons]
  refine ⟨shuffles_of_shuffle (fun _ _ => rfl) fun j n hj => ?_, shuffles_of_shuffle (fun _ _ => rfl) fun j n hj => ?_,
    shuffles_of_shuffle (fun _ _ => rfl) fun j n hj => ?_, shuffles_of_shuffle (fun _ _ => rfl) fun j n hj => ?_,
    List.forall_mem_nil _⟩
  · simp [Option.filter]
  · have down : j - n < 32 := by omega
    split <;> simp [down]
  · simp [Option.filter]
  · simp [Option.filter]

/-! ### Votes -/

/-- What a vote gives, from the participants and those of them whose predicate holds (R103). -/
def voteGives (mode : VoteMode) (part yes : List Nat) : Word :=
  match mode with
  | .ballot => BitVec.ofNat 32 ((yes.map fun l => 2 ^ (l % 32)).sum)
  | .all => if yes = part then 1 else 0
  | .any => if yes = [] then 0 else 1
  | .count => BitVec.ofNat 32 yes.length

/-- All of a list has a property where as many members have it as there are. -/
theorem length_filter_eq_iff {α : Type} (p : α → Bool) (l : List α) : (l.filter p).length = l.length ↔ l.filter p = l := by
  rw [List.length_filter_eq_length_iff, List.filter_eq_self]

theorem exec_vote {s : State} {c : Cur} (ev : s.ev = some c) (w : FD) (neg : Bool) (q : BitVec 3) (mode : VoteMode) :
    exec (.vote w neg q mode) s = .next (s.setEv (some (withValues (s.teamOf c) c w.nw w.pn w.pr w.d false 2 fun _ =>
      voteGives mode (c.lanes.filter (guardA (s.teamOf c) c w.pn w.pr))
        ((c.lanes.filter (guardA (s.teamOf c) c w.pn w.pr)).filter fun l => (s.teamOf c).p q l != neg)))) := by
  change execVote w neg q mode s = _
  rw [execVote, onCur_some ev]
  dsimp only
  rw [aluWord_plain]
  congr! 5
  cases mode with
  | ballot => 
    simp only [voteGives, List.sum_eq_foldl, List.foldl_map]
    rfl
  | all => exact if_congr (length_filter_eq_iff ..) rfl rfl
  | any => exact if_congr List.isEmpty_iff rfl rfl
  | count => rfl

end Sys2Proof.Machine

namespace Sys2Proof
open Machine

/-- Settles O16: the shuffles by their one form. -/
theorem shuffleWords : Obligations.ShuffleWords :=
  ⟨shuffles_shuffle, fun w _ _ ev => exec_of_aluWord (f := fun t c l =>
    laneOp t c w.a (if (laneOp t c w.b l).toNat < 32 * t.pl.warps then (laneOp t c w.b l).toNat else l)) rfl ev⟩

/-- Settles O17: a vote by its mode, `getl` as it stands. -/
theorem voteAndGetlWords : Obligations.VoteAndGetlWords :=
  ⟨fun w neg q mode _ _ ev => exec_vote ev w neg q mode,
    fun _ op s _ ev => exec_of_aluWord (f := fun t _ l => BitVec.ofNat 32 (getlVal s t op l)) rfl ev⟩

end Sys2Proof
end

section
/-! Team-wide words (R104 to R108): the pass behind one, from the lanes, the values and the flags of its results. -/

-- Not in the namespace of the machine, whose own `teamWide` would hide the one of the statements.
namespace Sys2Proof
open Machine

/-- The participants of a team-wide word. -/
def participants (t : Team) (c : Cur) (w : FU) : List Nat := c.lanes.filter (guardA t c w.pn w.pr)

/-- Each participant with its input. -/
def teamInputs (t : Team) (c : Cur) (w : FU) : List (Nat × Word) := (participants t c w).map fun l => (l, laneOp t c w.a l)

@[simp] theorem teamInputs_lanes (t : Team) (c : Cur) (w : FU) : (teamInputs t c w).map (·.1) = participants t c w := by
  simp [teamInputs, Function.comp_def]

@[simp] theorem teamInputs_values (t : Team) (c : Cur) (w : FU) :
    (teamInputs t c w).map (·.2) = (participants t c w).map (laneOp t c w.a) := by
  simp [teamInputs, Function.comp_def]

/-- The pass behind a team-wide word by the flags it raises: they go to FFLAGS, or an enabled one raises FPE
(R134). -/
def teamDoes (t : Team) (c : Cur) (w : FU) (raised : Nat) (ys : List Word) : Cur :=
  let en := t.csr.trapen.toNat % 32
  if raised &&& en = 0 then teamWide t c w (flagActs raised) ys
  else teamWide t { c with trap := trapOf c ⟨c.pos, 0x02, BitVec.ofNat 32 (raised + 2 ^ 8 * (raised &&& en)), 0,
    maskOf (participants t c w)⟩ } w [] ys

theorem teamDoes_zero (t : Team) (c : Cur) (w : FU) (ys : List Word) : teamDoes t c w 0 ys = teamWide t c w [] ys := by
  rw [teamDoes, Nat.zero_and, if_pos rfl]
  rfl

/-- The latch of a lane is the result found for it, wherever the flags of the results stand. -/
theorem find_result (res : List (Nat × Word × Nat)) (l : Nat) (old : Word) :
    (match res.find? (·.1 = l) with | some r => r.2.1 | none => old) =
      match (res.map fun r => (r.1, r.2.1)).find? (·.1 = l) with | some r => r.2 | none => old := by
  rw [List.find?_map, Function.comp_def]
  cases res.find? (·.1 = l) <;> rfl

/-- What the word adds to the commit and what its latch takes, once its results stand for the participants. -/
theorem teamWide_eq {t : Team} {c : Cur} {w : FU} {res : List (Nat × Word × Nat)} (x : Option PTrap) (new : List Act)
    (lanes : res.map (·.1) = participants t c w) : teamWide t { c with trap := x } w new (res.map (·.2.1)) =
    ((writeD { c with trap := x, acts := c.acts ++ new } w.nw w.d (res.map fun r => (r.1, r.2.1))).shift (c.lanes.map fun l =>
      match res.find? (·.1 = l) with | some r => r.2.1 | none => dOld t c w.d l)).past (usesLit [w.a]) 40 := by
  have zip : (participants t c w).zip (res.map (·.2.1)) = res.map fun r => (r.1, r.2.1) := by rw [← lanes, List.zip_map']
  simp only [find_result, writeD_eq, ← zip, past_eq, afterWord, Cur.shift, List.append_nil, List.append_assoc]
  rfl

/-- Flags that no trap is taken on join the commit, where there are any. -/
theorem act_fflags (c : Cur) (raised : Nat) :
    (if raised = 0 then c else c.act (.fflags raised)) = { c with acts := c.acts ++ flagActs raised } := by
  unfold flagActs Cur.act
  split <;> simp

/-- A team-wide word whose results stand for the participants, in their order. -/
theorem teamWord_eq {w : FU} {run : RMode → List (Nat × Word) → List (Nat × Word × Nat)} {t : Team} {c : Cur}
    (lanes : (run (rmodeOf t.csr.frm) (teamInputs t c w)).map (·.1) = participants t c w) :
    teamWord w run t c = teamDoes t c w (((run (rmodeOf t.csr.frm) (teamInputs t c w)).map (·.2.2)).foldl (· ||| ·) 0)
      ((run (rmodeOf t.csr.frm) (teamInputs t c w)).map (·.2.1)) := by
  generalize runs : run (rmodeOf t.csr.frm) (teamInputs t c w) = res at lanes ⊢
  rw [teamInputs, participants] at runs
  rw [teamWord, teamDoes, List.foldl_map, runs]
  by_cases quiet : res.foldl (fun x r => x ||| r.2.2) 0 &&& t.csr.trapen.toNat % 32 = 0
  · rw [if_neg (not_not.2 quiet), if_pos quiet, act_fflags]
    exact (teamWide_eq c.trap _ lanes).symm
  · rw [if_pos quiet, if_neg quiet, Cur.raise_eq]
    refine Eq.trans ?_ (teamWide_eq _ [] lanes).symm
    rw [List.append_nil]
    rfl

end Sys2Proof
end

section
/-! Scans (R106, R107): the running results of a list of inputs, each with the flags of the step that made it. -/

namespace Sys2Proof
open Machine

section
variable (op : Word → Word → Word × Nat) (ident : Word)

/-- The value of an operation that has flags too. -/
def valueOf (a b : Word) : Word := (op a b).1

/-- The flags of the step that makes participant k's inclusive result: the first one takes none (R107). -/
def stepFlags (xs : List Word) (k : Nat) : Nat :=
  if k = 0 then 0 else (op (scanResult (valueOf op) ident false xs (k - 1)) (xs.getD k 0)).2

/-- The inclusive result of participant k, with the flags of its step. -/
def runResult (xs : List Word) (k : Nat) : Word × Nat := (scanResult (valueOf op) ident false xs k, stepFlags op ident xs k)

theorem scanRun_lanes (a : Option Word) (ps : List (Nat × Word)) : (scanRun op a ps).map (·.1) = ps.map (·.1) := by
  induction ps generalizing a with
  | nil => cases a <;> rfl
  | cons p ps ih => cases a <;> simp [scanRun, ih]

/-- What is accumulated over the first n of the inputs behind a value. -/
def accumulated (a : Word) (xs : List Word) (n : Nat) : Word := (xs.take n).foldl (valueOf op) a

/-- The results behind an accumulated value. -/
theorem scanRun_some (a : Word) (ps : List (Nat × Word)) : (scanRun op (some a) ps).map (·.2) =
    (List.range ps.length).map fun k => (accumulated op a (ps.map (·.2)) (k + 1),
      (op (accumulated op a (ps.map (·.2)) k) ((ps.map (·.2)).getD k 0)).2) := by
  induction ps generalizing a with
  | nil => rfl
  | cons p ps ih =>
    rw [scanRun, List.map_cons, ih, List.length_cons, List.range_succ_eq_map, List.map_cons, List.map_map]
    rfl

/-- R107: the inclusive results of a scan. -/
theorem scanRun_results (ps : List (Nat × Word)) :
    (scanRun op none ps).map (·.2) = (List.range ps.length).map (runResult op ident (ps.map (·.2))) := by
  cases ps with
  | nil => rfl
  | cons p ps =>
    rw [scanRun, List.map_cons, scanRun_some, List.length_cons, List.range_succ_eq_map, List.map_cons, List.map_map]
    rfl

theorem shiftRun_lanes (r : List (Nat × Word × Nat)) : (shiftRun ident r).map (·.1) = r.map (·.1) := by
  have go (p : Word × Nat) (r : List (Nat × Word × Nat)) : (shiftRun.go p r).map (·.1) = r.map (·.1) := by
    induction r generalizing p with
    | nil => rfl
    | cons q r ih => rw [shiftRun.go, List.map_cons, ih, List.map_cons]
  cases r with
  | nil => rfl
  | cons q r => rw [shiftRun, List.map_cons, go, List.map_cons]

/-- The exclusive results are the inclusive ones, each moved one participant on (R107). -/
theorem shiftRun_results (r : List (Nat × Word × Nat)) :
    (shiftRun ident r).map (·.2) = ((ident, 0) :: r.map (·.2)).take r.length := by
  have go (p : Word × Nat) (r : List (Nat × Word × Nat)) : (shiftRun.go p r).map (·.2) = (p :: r.map (·.2)).take r.length := by
    induction r generalizing p with
    | nil => rfl
    | cons q r ih => rw [shiftRun.go, List.map_cons, ih, List.map_cons, List.length_cons, List.take_succ_cons]
  cases r with
  | nil => rfl
  | cons q r => rw [shiftRun, List.map_cons, go, List.map_cons, List.length_cons, List.take_succ_cons]

/-- The results of a scan in either form. -/
def scanned (excl : Bool) (ps : List (Nat × Word)) : List (Nat × Word × Nat) :=
  if excl then shiftRun ident (scanRun op none ps) else scanRun op none ps

theorem scanned_lanes (excl : Bool) (ps : List (Nat × Word)) : (scanned op ident excl ps).map (·.1) = ps.map (·.1) := by
  cases excl
  · exact scanRun_lanes op none ps
  · exact (shiftRun_lanes ident _).trans (scanRun_lanes op none ps)

/-- The exclusive results of a scan by the inclusive ones. -/
theorem shiftRun_scanRun (ps : List (Nat × Word)) : (shiftRun ident (scanRun op none ps)).map (·.2) =
    ((ident, 0) :: (List.range ps.length).map (runResult op ident (ps.map (·.2)))).take ps.length := by
  have len : (scanRun op none ps).length = ps.length := by simpa using congrArg List.length (scanRun_lanes op none ps)
  rw [shiftRun_results, scanRun_results op ident, len]

theorem scanned_values (excl : Bool) (ps : List (Nat × Word)) : (scanned op ident excl ps).map (·.2.1) =
    (List.range ps.length).map (scanResult (valueOf op) ident excl (ps.map (·.2))) := by
  have pairs : (scanned op ident excl ps).map (·.2.1) = ((scanned op ident excl ps).map (·.2)).map (·.1) := List.map_map.symm
  rw [pairs]
  cases excl
  · rw [scanned, if_neg Bool.false_ne_true, scanRun_results op ident, List.map_map]
    rfl
  · rw [scanned, if_pos rfl, shiftRun_scanRun, List.map_take, List.map_cons, List.map_map]
    generalize ps.map (·.2) = xs
    cases ps.length with
    | zero => rfl
    | succ n =>
      rw [List.take_succ_cons, ← List.map_take, List.take_range, Nat.min_eq_left n.le_succ, List.range_succ_eq_map, List.map_cons,
        List.map_map]
      rfl

theorem scanned_flags (excl : Bool) (ps : List (Nat × Word)) : ((scanned op ident excl ps).map (·.2.2)).foldl (· ||| ·) 0 =
    scanSteps (valueOf op) (fun a b => (op a b).2) ident (ps.map (·.2)) (if excl then ps.length - 1 else ps.length) := by
  have pairs : (scanned op ident excl ps).map (·.2.2) = ((scanned op ident excl ps).map (·.2)).map (·.2) := List.map_map.symm
  rw [pairs]
  cases excl
  · rw [scanned, if_neg Bool.false_ne_true, scanRun_results op ident, List.map_map]
    rfl
  · rw [scanned, if_pos rfl, shiftRun_scanRun, List.map_take, List.map_cons, List.map_map]
    generalize ps.map (·.2) = xs
    cases ps.length with
    | zero => rfl
    | succ n =>
      rw [List.take_succ_cons, ← List.map_take, List.take_range, Nat.min_eq_left n.le_succ, List.foldl_cons, Nat.zero_or,
        if_pos rfl, Nat.add_sub_cancel]
      rfl

end

theorem scanSteps_zero (op : Word → Word → Word) (ident : Word) (xs : List Word) (n : Nat) :
    scanSteps op (fun _ _ => 0) ident xs n = 0 := by
  simp only [scanSteps, ite_self]
  exact foldl_or_zero _

/-- The results of a floating word as R108 delivers them. -/
theorem oneNaN_eq (r : List (Nat × Word × Nat)) : Machine.oneNaN r = r.map fun x => (x.1, asResult x.2.1, x.2.2) := by
  refine List.map_congr_left fun x _ => ?_
  unfold asResult
  split <;> rfl

end Sys2Proof
end

section
/-! The reduction tree over the lane positions (R107), and what it is for an operation that associates. -/

namespace Sys2Proof
open Machine

section
variable (op : Word → Word → Word × Nat)

/-! ### Levels of the tree -/

/-- A node of the tree from its two children: its value and the flags of its step. -/
def treeJoin : Option Word → Option Word → Option Word × Nat
  | some x, some y => (some (op x y).1, (op x y).2)
  | some x, none => (some x, 0)
  | none, y => (y, 0)

theorem treeLevel_cons (a b : Option Word) (l : List (Option Word)) :
    treeLevel op (a :: b :: l) = ((treeJoin op a b).1 :: (treeLevel op l).1, (treeJoin op a b).2 ||| (treeLevel op l).2) := by
  cases a <;> cases b <;> simp [treeLevel, treeJoin]

/-- Two sides of a tree, each of an even number of nodes, take a level apart from each other. -/
theorem treeLevel_append (m : Nat) (l r : List (Option Word)) (len : l.length = 2 * m) :
    (treeLevel op l).1.length = m ∧
    treeLevel op (l ++ r) = ((treeLevel op l).1 ++ (treeLevel op r).1, (treeLevel op l).2 ||| (treeLevel op r).2) := by
  induction m generalizing l with
  | zero =>
    rw [List.length_eq_zero_iff.1 len]
    simp [treeLevel]
  | succ m ih =>
    match l, len with
    | a :: b :: l, len =>
      obtain ⟨half, apart⟩ := ih l (by simp only [List.length_cons] at len; omega)
      rw [List.cons_append, List.cons_append, treeLevel_cons, treeLevel_cons, apart]
      exact ⟨by rw [List.length_cons, half], by rw [List.cons_append, Nat.or_assoc]⟩

/-- A tree is the node over its two halves, with the flags of both. -/
theorem treeRun_append (n : Nat) (l r : List (Option Word)) (left : l.length = 2 ^ n) (right : r.length = 2 ^ n) :
    treeRun op (n + 1) (l ++ r) = ((treeJoin op (treeRun op n l).1 (treeRun op n r).1).1,
      (treeRun op n l).2 ||| (treeRun op n r).2 ||| (treeJoin op (treeRun op n l).1 (treeRun op n r).1).2) := by
  induction n generalizing l r with
  | zero =>
    obtain ⟨a, rfl⟩ := List.length_eq_one_iff.1 left
    obtain ⟨b, rfl⟩ := List.length_eq_one_iff.1 right
    simp [treeRun, treeLevel_cons, treeLevel]
  | succ n ih =>
    have double : 2 ^ (n + 1) = 2 * 2 ^ n := Nat.pow_succ'
    obtain ⟨halfLeft, apart⟩ := treeLevel_append op (2 ^ n) l r (double ▸ left)
    obtain ⟨halfRight, -⟩ := treeLevel_append op (2 ^ n) r [] (double ▸ right)
    rw [treeRun, apart]
    dsimp only
    rw [ih _ _ halfLeft halfRight]
    refine Prod.ext rfl ?_
    simp only [treeRun, Nat.or_assoc, Nat.or_left_comm]

/-! ### Nodes of the tree -/

theorem treeNode_succ (leaf : Nat → Option Word) (n j : Nat) : treeNode (valueOf op) leaf (n + 1) j =
    (treeJoin op (treeNode (valueOf op) leaf n (2 * j)) (treeNode (valueOf op) leaf n (2 * j + 1))).1 := by
  rw [treeNode]
  cases treeNode (valueOf op) leaf n (2 * j) <;> cases treeNode (valueOf op) leaf n (2 * j + 1) <;> rfl

theorem treeFlags_succ (leaf : Nat → Option Word) (n j : Nat) : treeFlags (valueOf op) (fun a b => (op a b).2) leaf (n + 1) j =
    treeFlags (valueOf op) (fun a b => (op a b).2) leaf n (2 * j) |||
      treeFlags (valueOf op) (fun a b => (op a b).2) leaf n (2 * j + 1) |||
      (treeJoin op (treeNode (valueOf op) leaf n (2 * j)) (treeNode (valueOf op) leaf n (2 * j + 1))).2 := by
  rw [treeFlags]
  cases treeNode (valueOf op) leaf n (2 * j) <;> cases treeNode (valueOf op) leaf n (2 * j + 1) <;> rfl

/-- The leaves below node j of level n. -/
def leavesBelow (leaf : Nat → Option Word) (n j : Nat) : List (Option Word) :=
  (List.range (2 ^ n)).map fun k => leaf (2 ^ n * j + k)

theorem length_leavesBelow (leaf : Nat → Option Word) (n j : Nat) : (leavesBelow leaf n j).length = 2 ^ n := by
  rw [leavesBelow, List.length_map, List.length_range]

theorem leavesBelow_succ (leaf : Nat → Option Word) (n j : Nat) :
    leavesBelow leaf (n + 1) j = leavesBelow leaf n (2 * j) ++ leavesBelow leaf n (2 * j + 1) := by
  have place (k : Nat) : 2 ^ (n + 1) * j + (2 ^ n + k) = 2 ^ n * (2 * j + 1) + k := by rw [Nat.pow_succ]; ring
  have first : 2 ^ (n + 1) * j = 2 ^ n * (2 * j) := by rw [Nat.pow_succ, Nat.mul_assoc]
  have double : 2 ^ (n + 1) = 2 ^ n + 2 ^ n := by rw [Nat.pow_succ, Nat.mul_two]
  simp only [leavesBelow, ← place, ← first]
  rw [double, List.range_add, List.map_append, List.map_map]
  rfl

/-- The levels of the tree come to the node over all of its leaves (R107). -/
theorem treeRun_eq (leaf : Nat → Option Word) (n j : Nat) : treeRun op n (leavesBelow leaf n j) =
    (treeNode (valueOf op) leaf n j, treeFlags (valueOf op) (fun a b => (op a b).2) leaf n j) := by
  induction n generalizing j with
  | zero => simp [treeRun, leavesBelow, treeNode, treeFlags]
  | succ n ih =>
    rw [leavesBelow_succ, treeRun_append op n _ _ (length_leavesBelow ..) (length_leavesBelow ..), ih, ih, treeNode_succ,
      treeFlags_succ]

/-! ### Reductions -/

/-- The leaf of a lane position: the input of the participant there, if there is one. -/
def leafOf (t : Team) (c : Cur) (w : FU) (j : Nat) : Option Word :=
  if j ∈ participants t c w then some (laneOp t c w.a j) else none

theorem find_eq (l : List Nat) (j : Nat) : l.find? (· = j) = if j ∈ l then some j else none := by
  by_cases here : j ∈ l
  · obtain ⟨x, found⟩ := Option.isSome_iff_exists.1 (List.find?_isSome (p := (· = j)) |>.2 ⟨j, here, decide_eq_true rfl⟩)
    rw [if_pos here, found, of_decide_eq_true (List.find?_some found :)]
  · rw [if_neg here, List.find?_eq_none]
    rintro x mem
    simpa using fun same : x = j => here (same ▸ mem)

theorem find_teamInputs (t : Team) (c : Cur) (w : FU) (j : Nat) :
    ((teamInputs t c w).find? (·.1 = j)).map (·.2) = leafOf t c w j := by
  rw [teamInputs, List.find?_map, leafOf, Function.comp_def, find_eq]
  split <;> rfl

theorem reduce_eq (t : Team) (c : Cur) (w : FU) : reduce op (teamInputs t c w) = (participants t c w).map fun l =>
    (l, (treeNode (valueOf op) (leafOf t c w) 10 0).getD 0,
      treeFlags (valueOf op) (fun a b => (op a b).2) (leafOf t c w) 10 0) := by
  have leaves : ((List.range 1024).map fun j => ((teamInputs t c w).find? (·.1 = j)).map (·.2)) =
      leavesBelow (leafOf t c w) 10 0 := by
    refine List.map_congr_left fun j _ => ?_
    rw [find_teamInputs, Nat.mul_zero, Nat.zero_add]
  rw [reduce, leaves, treeRun_eq]
  dsimp only
  rw [teamInputs, List.map_map]
  rfl

/-- Without participants no step of the tree is performed. -/
theorem treeFlags_eq_zero {leaf : Nat → Option Word} (empty : ∀ j, leaf j = none) (n j : Nat) :
    treeNode (valueOf op) leaf n j = none ∧ treeFlags (valueOf op) (fun a b => (op a b).2) leaf n j = 0 := by
  induction n generalizing j with
  | zero => exact ⟨empty j, rfl⟩
  | succ n ih =>
    rw [treeNode_succ, treeFlags_succ, (ih (2 * j)).1, (ih (2 * j + 1)).1, (ih (2 * j)).2, (ih (2 * j + 1)).2]
    exact ⟨rfl, by rw [treeJoin, Nat.or_self, Nat.or_self]⟩

/-- Where no step raises a flag, the tree raises none. -/
theorem treeFlags_of_plain (plain : ∀ a b, (op a b).2 = 0) (leaf : Nat → Option Word) (n j : Nat) :
    treeFlags (valueOf op) (fun a b => (op a b).2) leaf n j = 0 := by
  have step (a b : Option Word) : (treeJoin op a b).2 = 0 := by
    cases a with
    | none => rfl
    | some x =>
      cases b with
      | none => rfl
      | some y => exact plain x y
  induction n generalizing j with
  | zero => rfl
  | succ n ih => rw [treeFlags_succ, ih, ih, step, Nat.or_self, Nat.or_self]

/-- The flags of the one tree, given to every participant, are raised where there is one. -/
theorem foldl_const_flags {α : Type} (l : List α) (f : Nat) : (l.map fun _ => f).foldl (· ||| ·) 0 = if l = [] then 0 else f := by
  have same (l : List α) : (l.map fun _ => f).foldl (· ||| ·) f = f := by
    induction l with
    | nil => rfl
    | cons a l ih => rw [List.map_cons, List.foldl_cons, Nat.or_self, ih]
  cases l with
  | nil => rfl
  | cons a l => rw [List.map_cons, List.foldl_cons, Nat.zero_or, same, if_neg (List.cons_ne_nil a l)]

end

/-! ### Operations that associate -/

/-- A list folded from its first member on, if it has one. -/
def foldFirst (op : Word → Word → Word) : List Word → Option Word
  | [] => none
  | x :: l => some (l.foldl op x)

section
variable {op : Word → Word → Word} (assoc : ∀ a b c, op (op a b) c = op a (op b c))
include assoc

theorem foldl_op (x y : Word) (l : List Word) : op x (l.foldl op y) = l.foldl op (op x y) := by
  induction l generalizing y with
  | nil => rfl
  | cons z l ih => rw [List.foldl_cons, List.foldl_cons, ih, assoc]

/-- A node of the tree folds what stands below it, in the order of the positions. -/
theorem treeNode_eq_foldFirst (leaf : Nat → Option Word) (n j : Nat) :
    treeNode op leaf n j = foldFirst op ((leavesBelow leaf n j).filterMap id) := by
  induction n generalizing j with
  | zero =>
    rw [treeNode, leavesBelow]
    cases h : leaf j <;> simp [h, foldFirst]
  | succ n ih =>
    rw [treeNode, ih, ih, leavesBelow_succ, List.filterMap_append]
    generalize (leavesBelow leaf n (2 * j)).filterMap id = l
    generalize (leavesBelow leaf n (2 * j + 1)).filterMap id = r
    cases l with
    | nil => cases r <;> rfl
    | cons x l =>
      cases r with
      | nil => simp [foldFirst]
      | cons y r => simp [foldFirst, foldl_op assoc]

end

/-- Participants in ascending order below 1,024 are the positions the tree finds, in its order. -/
theorem leavesBelow_participants {t : Team} {c : Cur} {w : FU} (rising : (participants t c w).Pairwise (· < ·))
    (small : ∀ l ∈ c.lanes, l < 1024) :
    (leavesBelow (leafOf t c w) 10 0).filterMap id = (participants t c w).map (laneOp t c w.a) := by
  have positions : (List.range 1024).filter (· ∈ participants t c w) = participants t c w := by
    refine List.Pairwise.eq_of_mem_iff (List.pairwise_lt_range.filter _) rising fun l => ?_
    have below : l ∈ participants t c w → l < 1024 := fun here => small l (List.mem_filter.1 here).1
    simpa using below
  rw [← positions, leavesBelow, List.filterMap_map, ← List.filterMap_eq_map, List.filterMap_filter]
  refine List.filterMap_congr fun l _ => ?_
  simp [leafOf]

end Sys2Proof
end

section
/-! Scans and reductions (R106 to R108), integer and floating. -/

namespace Sys2Proof
open Machine

section
variable (op : Word → Word → Word × Nat) (ident : Word) (excl : Bool) (t : Team) (c : Cur) (w : FU)

theorem length_teamInputs : (teamInputs t c w).length = (participants t c w).length := List.length_map ..

/-! ### The results over the participants of a word -/

theorem scanned_participants : (scanned op ident excl (teamInputs t c w)).map (·.1) = participants t c w := by
  rw [scanned_lanes, teamInputs_lanes]

theorem reduce_participants : (reduce op (teamInputs t c w)).map (·.1) = participants t c w := by
  rw [reduce_eq, List.map_map]
  exact List.map_id _

theorem reduce_values : (reduce op (teamInputs t c w)).map (·.2.1) =
    (participants t c w).map fun _ => (treeNode (valueOf op) (leafOf t c w) 10 0).getD 0 := by
  rw [reduce_eq, List.map_map]
  rfl

/-- Each participant is given the flags of the one tree; without participants no step of it is performed. -/
theorem reduce_flags : ((reduce op (teamInputs t c w)).map (·.2.2)).foldl (· ||| ·) 0 =
    treeFlags (valueOf op) (fun a b => (op a b).2) (leafOf t c w) 10 0 := by
  rw [reduce_eq, List.map_map]
  refine (foldl_const_flags ..).trans ?_
  split
  · next none =>
    refine ((treeFlags_eq_zero op (fun j => ?_) 10 0).2).symm
    rw [leafOf, none, if_neg List.not_mem_nil]
  · rfl

/-- A floating word gives the results of its run, every NaN as the one of R108. -/
theorem teamWord_oneNaN {run : RMode → List (Nat × Word) → List (Nat × Word × Nat)}
    (lanes : (run (rmodeOf t.csr.frm) (teamInputs t c w)).map (·.1) = participants t c w) :
    teamWord w (fun mode part => Machine.oneNaN (run mode part)) t c =
      teamDoes t c w (((run (rmodeOf t.csr.frm) (teamInputs t c w)).map (·.2.2)).foldl (· ||| ·) 0)
        (((run (rmodeOf t.csr.frm) (teamInputs t c w)).map (·.2.1)).map asResult) := by
  refine (teamWord_eq ?_).trans ?_
  · rw [oneNaN_eq, List.map_map]
    exact lanes
  · rw [oneNaN_eq, List.map_map, List.map_map, List.map_map]
    rfl

end

/-! ### Integer words -/

theorem scanOp_eq (op : ScanIOp) : scanOp op = (scanI op, scanIId op) := by cases op <;> rfl

/-- The operation of an integer scan, which raises no flags. -/
def plainOp (op : ScanIOp) (a b : Word) : Word × Nat := (scanI op a b, 0)

theorem exec_scanI {s : State} {c : Cur} (ev : s.ev = some c) (w : FU) (op : ScanIOp) (excl : Bool) :
    exec (.scanI w op excl) s = .next (s.setEv (some (teamWide (s.teamOf c) c w []
      ((List.range (participants (s.teamOf c) c w).length).map (scanResult (scanI op) (scanIId op) excl
        ((participants (s.teamOf c) c w).map (laneOp (s.teamOf c) c w.a))))))) := by
  refine onCur_eq_next (f := teamWord w fun _ part => scanned (plainOp op) (scanIId op) excl part) ev ?_
  refine Eq.trans (teamWord_eq ?_) ?_
  · exact scanned_participants ..
  rw [scanned_flags, scanned_values, teamInputs_values, length_teamInputs]
  exact (congrArg (teamDoes _ _ _ · _) (scanSteps_zero ..)).trans (teamDoes_zero ..)

/-- The lesser of two under a measure associates, of equals the first taken. -/
theorem least_assoc {α β : Type} [LinearOrder β] (f : α → β) (a b c : α) :
    (if f (if f a ≤ f b then a else b) ≤ f c then (if f a ≤ f b then a else b) else c) =
      if f a ≤ f (if f b ≤ f c then b else c) then a else if f b ≤ f c then b else c := by
  by_cases ab : f a ≤ f b
  · by_cases bc : f b ≤ f c
    · simp only [ab, bc, if_true, ab.trans bc]
    · simp only [ab, bc, if_true, if_false]
  · by_cases bc : f b ≤ f c
    · simp only [ab, bc, if_true, if_false]
    · have ac : ¬ f a ≤ f c := fun le => ab (le.trans (le_of_not_ge bc))
      simp only [ab, bc, ac, if_false]

/-- The greater of two is the lesser under the reverse order, the other one first. -/
theorem greatest_assoc {α β : Type} [LinearOrder β] (f : α → β) (a b c : α) :
    (if f (if f a ≤ f b then b else a) ≤ f c then c else (if f a ≤ f b then b else a)) =
      if f a ≤ f (if f b ≤ f c then c else b) then (if f b ≤ f c then c else b) else a :=
  (least_assoc (fun x => OrderDual.toDual (f x)) c b a).symm

theorem scanI_assoc (op : ScanIOp) (a b c : Word) : scanI op (scanI op a b) c = scanI op a (scanI op b c) := by
  cases op with
  | add => exact BitVec.add_assoc a b c
  | minS => exact least_assoc BitVec.toInt a b c
  | maxS => exact greatest_assoc BitVec.toInt a b c
  | minN => exact least_assoc BitVec.toNat a b c
  | maxN => exact greatest_assoc BitVec.toNat a b c
  | and => exact BitVec.and_assoc a b c
  | or => exact BitVec.or_assoc a b c
  | xor => exact BitVec.xor_assoc a b c

theorem foldFirst_getD (op : Word → Word → Word) (xs : List Word) :
    (foldFirst op xs).getD 0 = match xs with | [] => 0 | x :: l => l.foldl op x := by
  cases xs <;> rfl

theorem exec_tredI {s : State} {c : Cur} (ev : s.ev = some c) (w : FU) (op : ScanIOp)
    (rising : (participants (s.teamOf c) c w).Pairwise (· < ·)) (small : ∀ l ∈ c.lanes, l < 1024) :
    exec (.tredI w op) s = .next (s.setEv (some (teamWide (s.teamOf c) c w [] ((participants (s.teamOf c) c w).map fun _ =>
      (foldFirst (scanI op) ((participants (s.teamOf c) c w).map (laneOp (s.teamOf c) c w.a))).getD 0)))) := by
  refine onCur_eq_next (f := teamWord w fun _ part => reduce (plainOp op) part) ev ?_
  have folded : treeNode (valueOf (plainOp op)) (leafOf (s.teamOf c) c w) 10 0 =
      foldFirst (scanI op) ((participants (s.teamOf c) c w).map (laneOp (s.teamOf c) c w.a)) := by
    rw [← leavesBelow_participants rising small]
    exact treeNode_eq_foldFirst (scanI_assoc op) _ 10 0
  have flags : ((reduce (plainOp op) (teamInputs (s.teamOf c) c w)).map (·.2.2)).foldl (· ||| ·) 0 = 0 := by
    rw [reduce_flags, treeFlags_of_plain _ fun _ _ => rfl]
  refine Eq.trans (teamWord_eq ?_) ?_
  · exact reduce_participants ..
  rw [flags, reduce_values, folded, teamDoes_zero]

/-! ### Floating words -/

theorem scanFOp_eq (mode : RMode) (op : ScanFOp) : scanFOp mode op = (valueOf (scanF op mode), scanFId op) := by
  cases op <;> rfl

theorem scanFFlags_eq (mode : RMode) (op : ScanFOp) : scanFFlags mode op = fun a b => (scanF op mode a b).2 := by cases op <;> rfl

theorem exec_scanF {s : State} {c : Cur} (ev : s.ev = some c) (w : FU) (op : ScanFOp) (excl : Bool) :
    let t := s.teamOf c
    let f := scanF op (rmodeOf t.csr.frm)
    let xs := (participants t c w).map (laneOp t c w.a)
    exec (.scanF w op excl) s = .next (s.setEv (some (teamDoes t c w
      (scanSteps (valueOf f) (fun a b => (f a b).2) (scanFId op) xs (if excl then xs.length - 1 else xs.length))
      ((List.range xs.length).map fun k => asResult (scanResult (valueOf f) (scanFId op) excl xs k))))) := by
  refine onCur_eq_next (f := teamWord w fun mode part => Machine.oneNaN (scanned (scanF op mode) (scanFId op) excl part)) ev ?_
  refine Eq.trans (teamWord_oneNaN _ _ _ ?_) ?_
  · exact scanned_participants ..
  rw [scanned_flags, scanned_values, teamInputs_values, length_teamInputs,
    List.map_map, List.length_map]
  rfl

theorem exec_tredF {s : State} {c : Cur} (ev : s.ev = some c) (w : FU) (op : ScanFOp) :
    let t := s.teamOf c
    let f := scanF op (rmodeOf t.csr.frm)
    exec (.tredF w op) s = .next (s.setEv (some (teamDoes t c w
      (treeFlags (valueOf f) (fun a b => (f a b).2) (leafOf t c w) 10 0)
      ((participants t c w).map fun _ => asResult ((treeNode (valueOf f) (leafOf t c w) 10 0).getD 0))))) := by
  refine onCur_eq_next (f := teamWord w fun mode part => Machine.oneNaN (reduce (scanF op mode) part)) ev ?_
  refine Eq.trans (teamWord_oneNaN _ _ _ ?_) ?_
  · exact reduce_participants ..
  rw [reduce_flags, reduce_values, List.map_map]
  rfl

/-- Settles O18: the running results of a plain operation, and the tree of one that associates. -/
theorem intScanWords : Obligations.IntScanWords := by
  intro w op s c ev t xs
  rw [scanOp_eq]
  refine ⟨fun excl => ?_, fun rising small => ?_⟩
  · rw [List.length_map]
    exact exec_scanI ev w op excl
  · rw [exec_tredI ev w op rising small, foldFirst_getD, List.map_map]
    rfl

/-- Settles O19: the running results and the tree of an operation with flags, every NaN as the one of R108. -/
theorem floatScanWords : Obligations.FloatScanWords := by
  intro w op s c ev t mode o fl part xs en leaf does
  have ops : o = (valueOf (scanF op mode), scanFId op) := scanFOp_eq mode op
  have flags : fl = fun a b => (scanF op mode a b).2 := scanFFlags_eq mode op
  rw [ops, flags]
  refine ⟨fun excl => exec_scanF ev w op excl, ?_⟩
  rw [List.map_map]
  exact exec_tredF ev w op

end Sys2Proof
end

section
/-! Codes of the floating formats as magnitudes, and finite values as reals (R110 to R112, R120). -/

namespace Sys2Proof.Machine

/-! ### Codes without sign -/

/-- The magnitude of a code without sign in subnormal steps, for an exponent range without upper end (R112, R120). -/
def codeMag (M c : Nat) : Nat := if c < 2 ^ M then c else (2 ^ M + c % 2 ^ M) * 2 ^ (c / 2 ^ M - 1)

/-- The code packed from n·2^i stands for n·2^i, also where rounding up has carried n to 2^(M + 1). -/
theorem codeMag_pack {M n i : Nat} (normal : i = 0 ∨ 2 ^ M ≤ n) (short : n ≤ 2 ^ (M + 1)) :
    codeMag M (i * 2 ^ M + n) = n * 2 ^ i := by
  have pos : 0 < 2 ^ M := Nat.two_pow_pos M
  rw [Nat.pow_succ] at short
  rcases Nat.lt_or_ge n (2 ^ M) with sub | large
  · obtain rfl : i = 0 := normal.resolve_right (by omega)
    simp [codeMag, sub]
  obtain ⟨m, rfl⟩ := Nat.exists_eq_add_of_le large
  have code : i * 2 ^ M + (2 ^ M + m) = m + 2 ^ M * (i + 1) := by ring
  have past : ¬ m + 2 ^ M * (i + 1) < 2 ^ M := by rw [Nat.mul_succ]; omega
  rw [code, codeMag, if_neg past, Nat.add_mul_mod_self_left, Nat.add_mul_div_left _ _ pos]
  rcases Nat.lt_or_ge m (2 ^ M) with inside | carried
  · rw [Nat.mod_eq_of_lt inside, Nat.div_eq_of_lt inside, Nat.zero_add, Nat.add_sub_cancel]
  · obtain rfl : m = 2 ^ M := by omega
    rw [Nat.mod_self, Nat.div_self pos, Nat.add_comm 1, Nat.add_sub_cancel, Nat.pow_succ]
    ring

/-- Every code is packed from some n·2^i. -/
theorem exists_pack (M c : Nat) : ∃ n i, c = i * 2 ^ M + n ∧ (i = 0 ∨ 2 ^ M ≤ n) ∧ n < 2 ^ (M + 1) := by
  have split := Nat.div_add_mod c (2 ^ M)
  have small := Nat.mod_lt c (Nat.two_pow_pos M)
  rw [Nat.pow_succ]
  cases e : c / 2 ^ M with
  | zero => exact ⟨c % 2 ^ M, 0, by rw [e] at split; omega, .inl rfl, by omega⟩
  | succ i =>
    rw [e, Nat.mul_succ, Nat.mul_comm] at split
    exact ⟨2 ^ M + c % 2 ^ M, i, by omega, .inr (by omega), by omega⟩

/-- A greater code has the greater magnitude. -/
theorem codeMag_strictMono (M : Nat) : StrictMono (codeMag M) := by
  refine strictMono_nat_of_lt_succ fun c => ?_
  obtain ⟨n, i, rfl, normal, short⟩ := exists_pack M c
  rw [codeMag_pack normal short.le, Nat.add_assoc, codeMag_pack (by omega) short]
  exact Nat.mul_lt_mul_of_pos_right (Nat.lt_succ_self n) (Nat.two_pow_pos i)

/-! ### Signed magnitudes -/

/-- A magnitude under a sign. -/
noncomputable def signed (neg : Bool) (y : ℝ) : ℝ := if neg then -y else y

@[simp] theorem signed_zero (neg : Bool) : signed neg 0 = 0 := by simp [signed]

@[simp] theorem abs_signed (neg : Bool) (y : ℝ) : |signed neg y| = |y| := by cases neg <;> simp [signed]

theorem signed_neg (neg : Bool) (y : ℝ) : signed (!neg) y = -signed neg y := by cases neg <;> simp [signed]

theorem signed_mul (m n : Bool) (y z : ℝ) : signed m y * signed n z = signed (m != n) (y * z) := by
  cases m <;> cases n <;> simp [signed]

theorem signed_lt_zero {neg : Bool} {y : ℝ} (pos : 0 < y) : signed neg y < 0 ↔ neg = true := by
  cases neg
  · simpa [signed] using pos.le
  · simpa [signed] using pos

theorem signed_eq_zero {neg : Bool} {y : ℝ} : signed neg y = 0 ↔ y = 0 := by cases neg <;> simp [signed]

/-- The sign of the statements. -/
theorem sign_mul {neg : Bool} {x : ℝ} (sign : x < 0 ↔ neg = true) (y : ℝ) : (if x < 0 then -1 else 1) * y = signed neg y := by
  cases neg <;> simp [sign, signed]

theorem signed_abs {neg : Bool} {x : ℝ} (sign : x < 0 ↔ neg = true) : signed neg |x| = x := by
  cases neg
  · exact abs_of_nonneg (by simpa using sign)
  · rw [signed, if_pos rfl, abs_of_neg (by simpa using sign), neg_neg]

/-! ### Codes with a sign -/

theorem testBit_eq (n i : Nat) : decide (n / 2 ^ i % 2 = 1) = n.testBit i := Nat.testBit_eq_decide_div_mod_eq.symm

/-- A code stands for the magnitude below its sign (R112). -/
theorem codeIs_iff {M E : Nat} {bias : Int} {code : Nat} {x : ℝ} : codeIs M E bias code x ↔
    x = signed (code / 2 ^ (M + E) % 2 = 1) (codeMag M (code % 2 ^ (M + E)) * (2 : ℝ) ^ (1 - bias - M)) := by
  have exponent : code / 2 ^ M % 2 ^ E = code % 2 ^ (M + E) / 2 ^ M := by rw [Nat.pow_add, Nat.mod_mul_right_div_self]
  have fraction : code % 2 ^ M = code % 2 ^ (M + E) % 2 ^ M := (Nat.mod_mod_of_dvd _ (Nat.pow_dvd_pow 2 (Nat.le_add_right M E))).symm
  generalize code % 2 ^ (M + E) = c at exponent fraction
  have magnitude : (if c / 2 ^ M = 0 then ((c % 2 ^ M : Nat) : ℝ) * (2 : ℝ) ^ (1 - bias - M)
      else ((2 ^ M + c % 2 ^ M : Nat) : ℝ) * (2 : ℝ) ^ (((c / 2 ^ M : Nat) : Int) - bias - M)) =
      codeMag M c * (2 : ℝ) ^ (1 - bias - M) := by
    have zero : c / 2 ^ M = 0 ↔ c < 2 ^ M := Nat.div_eq_zero_iff_lt (Nat.two_pow_pos M)
    rw [codeMag]
    by_cases sub : c < 2 ^ M
    · rw [if_pos (zero.2 sub), if_pos sub, Nat.mod_eq_of_lt sub]
    · have one : ((c / 2 ^ M : Nat) : Int) - bias - M = ((c / 2 ^ M - 1 : Nat) : Int) + (1 - bias - M) := by
        have := mt zero.1 sub
        omega
      rw [if_neg (mt zero.1 sub), if_neg sub, one, zpow_add₀ two_ne_zero, zpow_natCast]
      push_cast
      ring
  rw [codeIs, exponent, fraction]
  rw [magnitude]
  by_cases neg : code / 2 ^ (M + E) % 2 = 1 <;> simp [neg, signed]

/-! ### Finite values -/

/-- A value is a zero of the sign, or the sign and the magnitude of a real that is not zero. -/
inductive Val.Is : Val → Bool → ℝ → Prop where
  | zero (neg : Bool) : Val.Is (.zero neg) neg 0
  | fin (neg : Bool) {m : Nat} (e : Int) (pos : 0 < m) : Val.Is (.fin neg m e) neg (signed neg (m * (2 : ℝ) ^ e))

theorem mul_zpow_pos {m : Nat} (pos : 0 < m) (e : Int) : 0 < (m : ℝ) * (2 : ℝ) ^ e :=
  mul_pos (Nat.cast_pos.2 pos) (zpow_pos two_pos e)

/-- The value of a code by the element rule: its magnitude in subnormal steps, with at most M + 1 bits (R112). -/
theorem elem_cases (f : FLay) (c : Nat) :
    (codeMag f.mb (c % 2 ^ (f.mb + f.eb)) = 0 ∧ f.elem c = .zero (c / 2 ^ (f.mb + f.eb) % 2 = 1)) ∨
    ∃ m i : Nat, 0 < m ∧ m < 2 ^ (f.mb + 1) ∧ codeMag f.mb (c % 2 ^ (f.mb + f.eb)) = m * 2 ^ i ∧
      f.elem c = .fin (c / 2 ^ (f.mb + f.eb) % 2 = 1) m (f.qmin + i) := by
  have exponent : c / 2 ^ f.mb % 2 ^ f.eb = c % 2 ^ (f.mb + f.eb) / 2 ^ f.mb := by rw [Nat.pow_add, Nat.mod_mul_right_div_self]
  have fraction : c % 2 ^ f.mb = c % 2 ^ (f.mb + f.eb) % 2 ^ f.mb :=
    (Nat.mod_mod_of_dvd _ (Nat.pow_dvd_pow 2 (Nat.le_add_right ..))).symm
  have small := Nat.mod_lt (c % 2 ^ (f.mb + f.eb)) (Nat.two_pow_pos f.mb)
  have zero := Nat.div_eq_zero_iff_lt (x := c % 2 ^ (f.mb + f.eb)) (Nat.two_pow_pos f.mb)
  simp only [FLay.elem, Nat.shiftRight_eq_div_pow, exponent, fraction]
  generalize c % 2 ^ (f.mb + f.eb) = k at small zero
  rw [codeMag, Nat.pow_succ]
  by_cases sub : k < 2 ^ f.mb
  · rw [if_pos (zero.2 sub), Nat.mod_eq_of_lt sub, if_pos sub]
    by_cases none : k = 0
    · exact .inl ⟨none, if_pos none⟩
    · exact .inr ⟨k, 0, Nat.pos_of_ne_zero none, by omega, by omega, by simp [none]⟩
  · rw [if_neg (mt zero.1 sub), if_neg sub]
    exact .inr ⟨2 ^ f.mb + k % 2 ^ f.mb, k / 2 ^ f.mb - 1, by omega, by omega, rfl, rfl⟩

theorem mod_lt_iff_testBit (c k : Nat) : c % 2 ^ (k + 1) < 2 ^ k ↔ c.testBit k = false := by
  have low := Nat.mod_lt c (Nat.two_pow_pos k)
  rw [Nat.mod_pow_succ, ← testBit_eq, decide_eq_false_iff_not]
  rcases Nat.mod_two_eq_zero_or_one (c / 2 ^ k) with h | h <;> rw [h] <;> omega

/-- A code whose exponent bits are all ones is an infinity or a NaN (R110, R111). -/
theorem ieee_special {f : FLay} {c : Nat} (wide : 0 < f.mb) (ones : c / 2 ^ f.mb % 2 ^ f.eb = 2 ^ f.eb - 1) :
    f.ieee c = if c % 2 ^ f.mb = 0 then .inf (c.testBit (f.mb + f.eb)) else .nan (!c.testBit (f.mb - 1)) := by
  have quiet := mod_lt_iff_testBit c (f.mb - 1)
  rw [Nat.sub_add_cancel wide] at quiet
  simp only [FLay.ieee, Nat.shiftRight_eq_div_pow, if_pos ones, testBit_eq, quiet]
  cases c.testBit (f.mb - 1) <;> rfl

theorem ieee_finite {f : FLay} {c : Nat} (finite : c / 2 ^ f.mb % 2 ^ f.eb ≠ 2 ^ f.eb - 1) : f.ieee c = f.elem c := by
  simp only [FLay.ieee, Nat.shiftRight_eq_div_pow, if_neg finite]

theorem elem_not_isNaN (f : FLay) (c : Nat) : (f.elem c).isNaN = false := by
  rcases elem_cases f c with ⟨-, elem⟩ | ⟨m, i, -, -, -, elem⟩ <;> rw [elem] <;> rfl

end Sys2Proof.Machine
end

section
/-! One rounding of an exact value: to an integer, to n·2^q and into F32 (R120, R133). -/

namespace Sys2Proof.Machine

/-! ### Magnitudes rounded to an integer -/

section
variable {mode : RMode} {neg : Prop} {y z : ℝ} {n : Nat}

theorem roundsTo_self (mode : RMode) (neg : Prop) (n : Nat) : roundsTo mode neg n n := by
  cases mode <;> simp [roundsTo]

/-- A magnitude is less than one away from what it is rounded to. -/
theorem near_of_roundsTo (h : roundsTo mode neg y n) : y < n + 1 ∧ (n : ℝ) < y + 1 := by
  have down : ((n : ℝ) ≤ y ∧ y < n + 1) → y < n + 1 ∧ (n : ℝ) < y + 1 := fun ⟨le, lt⟩ => ⟨lt, by linarith⟩
  have up : (y ≤ n ∧ (n : ℝ) < y + 1) → y < n + 1 ∧ (n : ℝ) < y + 1 := fun ⟨le, lt⟩ => ⟨by linarith, lt⟩
  cases mode with
  | rne =>
    obtain ⟨low, high⟩ := abs_le.1 h.1
    exact ⟨by linarith, by linarith⟩
  | rtz => exact down h
  | rdn => exact (em neg).elim (fun s => up (h.1 s)) fun s => down (h.2 s)
  | rup => exact (em neg).elim (fun s => down (h.1 s)) fun s => up (h.2 s)

/-- No integer lies between a magnitude and what it is rounded to. -/
theorem le_of_roundsTo (h : roundsTo mode neg y n) {t : Nat} (le : (t : ℝ) ≤ y) : t ≤ n :=
  Nat.lt_succ_iff.1 (by exact_mod_cast le.trans_lt (near_of_roundsTo h).1)

theorem ge_of_roundsTo (h : roundsTo mode neg y n) {t : Nat} (ge : y ≤ t) : n ≤ t :=
  Nat.lt_succ_iff.1 (by exact_mod_cast (near_of_roundsTo h).2.trans_le (by linarith : y + 1 ≤ (t : ℝ) + 1))

theorem eq_of_roundsTo {k : Nat} (h : roundsTo mode neg k n) : n = k :=
  le_antisymm (ge_of_roundsTo h le_rfl) (le_of_roundsTo h le_rfl)

end

/-- The choice of a mode between the neighbours of a magnitude is the rounding (R120, R133). -/
theorem roundsTo_pick (mode : RMode) (neg : Bool) (q : Nat) {num den : Nat} (pos : 0 < num) (lt : num < den) :
    roundsTo mode (neg = true) (q + (num : ℝ) / den) (if mode.pick neg (q % 2 = 1) num den then q + 1 else q) := by
  have den_pos : (0 : ℝ) < den := by exact_mod_cast pos.trans lt
  have above : 0 < (num : ℝ) / den := div_pos (by exact_mod_cast pos) den_pos
  have below : (num : ℝ) / den < 1 := (div_lt_one den_pos).2 (by exact_mod_cast lt)
  have half_lt : (1 / 2 : ℝ) < num / den ↔ den < 2 * num := by
    rw [div_lt_div_iff₀ two_pos den_pos, one_mul, mul_comm]
    exact_mod_cast Iff.rfl
  have half_eq : (num : ℝ) / den = 1 / 2 ↔ 2 * num = den := by
    rw [div_eq_div_iff den_pos.ne' two_ne_zero, one_mul, mul_comm]
    exact_mod_cast Iff.rfl
  cases mode with
  | rne =>
    have down : |(q : ℝ) - (q + (num : ℝ) / den)| = (num : ℝ) / den := by
      rw [sub_add_cancel_left, abs_neg, abs_of_pos above]
    have up : |((q + 1 : Nat) : ℝ) - (q + (num : ℝ) / den)| = 1 - (num : ℝ) / den := by
      rw [abs_of_pos] <;> push_cast <;> linarith
    by_cases past_half : den < 2 * num
    · have past := half_lt.2 past_half
      simp only [RMode.pick, past_half, decide_true, Bool.true_or, if_true, roundsTo, up]
      exact ⟨by linarith, fun tie => by linarith⟩
    have short := le_of_not_gt (mt half_lt.1 past_half)
    by_cases tie : 2 * num = den
    · have half := half_eq.2 tie
      by_cases odd : q % 2 = 1
      · simp only [RMode.pick, tie, odd, decide_true, Bool.and_self, Bool.or_true, if_true, roundsTo, half]
        exact ⟨by norm_num, fun _ => by omega⟩
      · simp only [RMode.pick, past_half, odd, decide_false, Bool.and_false, Bool.or_self, Bool.false_eq_true, if_false, roundsTo, down]
        exact ⟨short, fun _ => by omega⟩
    · simp only [RMode.pick, past_half, tie, decide_false, Bool.false_and, Bool.or_self, Bool.false_eq_true, if_false, roundsTo, down]
      exact ⟨short, fun half => absurd (half_eq.1 half) tie⟩
  | rtz => exact ⟨by simpa [RMode.pick] using above.le, by simpa [RMode.pick] using below⟩
  | rdn => cases neg <;> simp [RMode.pick, roundsTo, above, below, above.le, below.le]
  | rup => cases neg <;> simp [RMode.pick, roundsTo, above, below, above.le, below.le]

/-- A shift to the right with rounding, and whether it is exact. -/
theorem roundsTo_shiftRound (mode : RMode) (neg : Bool) (n k : Nat) :
    roundsTo mode (neg = true) ((n : ℝ) / 2 ^ k) (shiftRound (mode.pick neg) n k).1 ∧
    ((shiftRound (mode.pick neg) n k).2 = false ↔ ((shiftRound (mode.pick neg) n k).1 : ℝ) = (n : ℝ) / 2 ^ k) := by
  have split : (n : ℝ) / 2 ^ k = (n / 2 ^ k : Nat) + ((n % 2 ^ k : Nat) : ℝ) / (2 ^ k : Nat) := by
    have parts : (n : ℝ) = 2 ^ k * (n / 2 ^ k : Nat) + (n % 2 ^ k : Nat) := by exact_mod_cast (Nat.div_add_mod n (2 ^ k)).symm
    rw [parts]
    push_cast
    field_simp
  rw [split, shiftRound, Nat.shiftRight_eq_div_pow]
  by_cases exactly : n % 2 ^ k = 0
  · simpa [exactly] using roundsTo_self mode (neg = true) (n / 2 ^ k)
  have small := Nat.mod_lt n (Nat.two_pow_pos k)
  have rounded := roundsTo_pick mode neg (n / 2 ^ k) (Nat.pos_of_ne_zero exactly) small
  simp only [if_neg exactly, Bool.true_eq_false, false_iff]
  refine ⟨rounded, fun same => exactly ?_⟩
  generalize (if mode.pick neg (n / 2 ^ k % 2 = 1) (n % 2 ^ k) (2 ^ k) then n / 2 ^ k + 1 else n / 2 ^ k) = r at same
  have whole : r * 2 ^ k = n / 2 ^ k * 2 ^ k + n % 2 ^ k := by
    have : (r : ℝ) * (2 ^ k : Nat) = (n / 2 ^ k : Nat) * (2 ^ k : Nat) + (n % 2 ^ k : Nat) := by
      rw [same, add_mul, div_mul_cancel₀ _ (Nat.cast_ne_zero.2 (Nat.two_pow_pos k).ne')]
    exact_mod_cast this
  have divides : 2 ^ k ∣ n % 2 ^ k := (Nat.dvd_add_right (Nat.dvd_mul_left ..)).1 (whole ▸ Nat.dvd_mul_left ..)
  exact Nat.eq_zero_of_dvd_of_lt divides small

/-! ### Magnitudes that round alike -/

/-- Two magnitudes lie alike to every half of an integer. -/
def SameHalves (y z : ℝ) : Prop := ∀ t : Int, ((t : ℝ) ≤ 2 * y ↔ (t : ℝ) ≤ 2 * z) ∧ (2 * y ≤ t ↔ 2 * z ≤ t)

theorem SameHalves.refl (y : ℝ) : SameHalves y y := fun _ => ⟨Iff.rfl, Iff.rfl⟩

section
variable {y z : ℝ} (same : SameHalves y z)
include same

theorem SameHalves.le_iff (t : Int) : (t : ℝ) ≤ y ↔ (t : ℝ) ≤ z := by
  have := (same (2 * t)).1
  push_cast at this
  simpa using this

theorem SameHalves.ge_iff (t : Int) : y ≤ t ↔ z ≤ t := by
  have := (same (2 * t)).2
  push_cast at this
  simpa using this

theorem SameHalves.lt_iff (t : Int) : y < t ↔ z < t := by rw [← not_le, ← not_le, same.le_iff]

theorem SameHalves.gt_iff (t : Int) : (t : ℝ) < y ↔ (t : ℝ) < z := by rw [← not_le, ← not_le, same.ge_iff]

theorem SameHalves.eq_iff (t : Int) : (t : ℝ) = y ↔ (t : ℝ) = z := by
  rw [le_antisymm_iff, le_antisymm_iff, same.le_iff, same.ge_iff]

/-- What rounds one rounds the other. -/
theorem SameHalves.roundsTo {mode : RMode} {neg : Prop} {n : Nat} (h : roundsTo mode neg y n) : roundsTo mode neg z n := by
  have le := same.le_iff n
  have ge := same.ge_iff n
  have lt := same.lt_iff (n + 1)
  have gt := same.gt_iff (n - 1)
  have low := same (2 * n - 1)
  have high := same (2 * n + 1)
  push_cast at le ge lt gt low high
  have down : ((n : ℝ) ≤ y ∧ y < n + 1) → (n : ℝ) ≤ z ∧ z < n + 1 := fun ⟨a, b⟩ => ⟨le.1 a, lt.1 b⟩
  have up : (y ≤ n ∧ (n : ℝ) < y + 1) → z ≤ n ∧ (n : ℝ) < z + 1 := fun ⟨a, b⟩ =>
    ⟨ge.1 a, sub_lt_iff_lt_add.1 (gt.1 (sub_lt_iff_lt_add.2 b))⟩
  cases mode with
  | rne =>
    have half (w : ℝ) : |(n : ℝ) - w| ≤ 1 / 2 ↔ 2 * n - 1 ≤ 2 * w ∧ 2 * w ≤ 2 * n + 1 := by
      rw [abs_le]
      constructor <;> rintro ⟨a, b⟩ <;> constructor <;> linarith
    have tie (w : ℝ) : |(n : ℝ) - w| = 1 / 2 ↔ (2 * w ≤ 2 * n - 1 ∧ 2 * n - 1 ≤ 2 * w) ∨ (2 * w ≤ 2 * n + 1 ∧ 2 * n + 1 ≤ 2 * w) := by
      rw [abs_eq (by norm_num), ← le_antisymm_iff, ← le_antisymm_iff]
      constructor <;> rintro (a | a) <;> [left; right; left; right] <;> linarith
    refine ⟨(half z).2 ?_, fun t => h.2 ((tie y).2 ?_)⟩
    · rw [← low.1, ← high.2]
      exact (half y).1 h.1
    · rw [low.1, low.2, high.1, high.2]
      exact (tie z).1 t
  | rtz => exact down h
  | rdn => exact ⟨fun s => up (h.1 s), fun s => down (h.2 s)⟩
  | rup => exact ⟨fun s => down (h.1 s), fun s => up (h.2 s)⟩

end
end Sys2Proof.Machine
end

section
/-! A real rounded to n·2^q, its code, and F32 words (R110, R120, R133). -/

namespace Sys2Proof.Machine

theorem bitLen_of_pos {m : Nat} (pos : 0 < m) : 0 < bitLen m ∧ 2 ^ (bitLen m - 1) ≤ m ∧ m < 2 ^ bitLen m := by
  rw [bitLen, if_neg pos.ne', Nat.add_sub_cancel]
  exact ⟨Nat.succ_pos _, Nat.log2_self_le pos.ne', Nat.lt_log2_self⟩

theorem le_bitLen {m k : Nat} (le : 2 ^ k ≤ m) : k + 1 ≤ bitLen m :=
  (Nat.pow_lt_pow_iff_right one_lt_two).1 (le.trans_lt (bitLen_of_pos ((Nat.two_pow_pos k).trans_le le)).2.2)

/-- The binade of a magnitude. -/
theorem bitLen_real {m : Nat} (pos : 0 < m) (e : Int) :
    (2 : ℝ) ^ ((bitLen m : Int) - 1 + e) ≤ m * (2 : ℝ) ^ e ∧ m * (2 : ℝ) ^ e < (2 : ℝ) ^ ((bitLen m : Int) + e) := by
  obtain ⟨bits, low, high⟩ := bitLen_of_pos pos
  have step : (0 : ℝ) < (2 : ℝ) ^ e := zpow_pos two_pos e
  rw [← Nat.cast_pred bits, zpow_add₀ two_ne_zero, zpow_add₀ two_ne_zero, zpow_natCast, zpow_natCast]
  exact ⟨mul_le_mul_of_nonneg_right (by exact_mod_cast low) step.le, mul_lt_mul_of_pos_right (by exact_mod_cast high) step⟩

/-- The step a magnitude is rounded to: M + 1 bits, and no less than the subnormals' (R120). -/
def FLay.place (f : FLay) (m : Nat) (e : Int) : Int := max ((bitLen m : Int) + e - (f.mb + 1)) f.qmin

section
variable {f : FLay} {mode : RMode} {neg : Bool} {m : Nat} {e : Int} (pos : 0 < m)

theorem round_place : (f.round (mode.pick neg) m e).2.1 = f.place m e := by
  rw [FLay.round, FLay.place]
  split <;> rfl

/-- The exact magnitude is rounded to a whole number of steps. -/
theorem roundsTo_round : roundsTo mode (neg = true) (m * (2 : ℝ) ^ e / (2 : ℝ) ^ f.place m e) (f.round (mode.pick neg) m e).1 ∧
    ((f.round (mode.pick neg) m e).2.2 = false ↔
      ((f.round (mode.pick neg) m e).1 : ℝ) = m * (2 : ℝ) ^ e / (2 : ℝ) ^ f.place m e) := by
  rw [mul_div_assoc, ← zpow_sub₀ two_ne_zero, FLay.round, ← FLay.place]
  dsimp only
  split
  next fine =>
    have whole : (m : ℝ) * (2 : ℝ) ^ (e - f.place m e) = (m * 2 ^ (e - f.place m e).toNat : Nat) := by
      rw [← Int.toNat_of_nonneg (Int.sub_nonneg.2 fine), zpow_natCast, Int.toNat_natCast]
      push_cast
      rfl
    rw [whole]
    exact ⟨roundsTo_self .., by simp⟩
  next coarse =>
    have shifted : (m : ℝ) * (2 : ℝ) ^ (e - f.place m e) = m / 2 ^ (f.place m e - e).toNat := by
      rw [← neg_sub, ← Int.toNat_of_nonneg (by omega : 0 ≤ f.place m e - e), zpow_neg, zpow_natCast, Int.toNat_natCast, div_eq_mul_inv]
    rw [shifted]
    exact roundsTo_shiftRound ..

include pos

/-- A real that lies to the half steps as an exact magnitude does is rounded as that magnitude is. -/
theorem roundedAt_round {x : ℝ} (sign : x < 0 ↔ neg = true)
    (same : SameHalves (m * (2 : ℝ) ^ e / (2 : ℝ) ^ f.place m e) (|x| / (2 : ℝ) ^ f.place m e)) :
    roundedAt mode f.mb f.qmin x (f.round (mode.pick neg) m e).1 (f.place m e) ∧
    ((f.round (mode.pick neg) m e).2.2 = false ↔ ((f.round (mode.pick neg) m e).1 : ℝ) * (2 : ℝ) ^ f.place m e = |x|) := by
  obtain ⟨rounded, exactly⟩ := roundsTo_round (f := f) (mode := mode) (neg := neg) (m := m) (e := e)
  obtain ⟨low, high⟩ := bitLen_real pos e
  have step : (0 : ℝ) < (2 : ℝ) ^ f.place m e := zpow_pos two_pos _
  have top (t : Nat) : (2 : ℝ) ^ (f.place m e + t) = ((2 ^ t : Nat) : Int) * (2 : ℝ) ^ f.place m e := by
    rw [add_comm, zpow_add₀ two_ne_zero, zpow_natCast]
    push_cast
    rfl
  have alike := same.eq_iff (f.round (mode.pick neg) m e).1
  rw [Int.cast_natCast] at alike
  rw [exactly, alike, eq_div_iff step.ne']
  refine ⟨⟨le_max_right .., ?_, ?_, ?_⟩, Iff.rfl⟩
  · rw [add_assoc, ← Nat.cast_succ, top, ← div_lt_iff₀ step, ← same.lt_iff, div_lt_iff₀ step, ← top]
    exact high.trans_le (zpow_le_zpow_right₀ one_le_two (by rw [FLay.place]; omega))
  · refine (le_or_gt ((bitLen m : Int) + e - (f.mb + 1)) f.qmin).imp max_eq_right fun normal => ?_
    have place : f.place m e = (bitLen m : Int) + e - (f.mb + 1) := max_eq_left normal.le
    rw [top, ← le_div_iff₀ step, ← same.le_iff, le_div_iff₀ step, ← top]
    exact (zpow_le_zpow_right₀ one_le_two (by omega)).trans low
  · rw [sign]
    exact same.roundsTo rounded

end

/-- A real rounded to n·2^q has a code, and n·2^q is that code's magnitude. -/
theorem roundedAt_code {f : FLay} {mode : RMode} {x : ℝ} {n : Nat} {q : Int} (h : roundedAt mode f.mb f.qmin x n q) :
    (n : ℝ) * (2 : ℝ) ^ q = codeMag f.mb (f.pack n q) * (2 : ℝ) ^ f.qmin := by
  obtain ⟨least, below, above, rounded⟩ := h
  have step : (0 : ℝ) < (2 : ℝ) ^ q := zpow_pos two_pos _
  have short : n ≤ 2 ^ (f.mb + 1) := by
    refine ge_of_roundsTo rounded ?_
    rw [add_assoc, add_comm, zpow_add₀ two_ne_zero, ← Nat.cast_succ, zpow_natCast] at below
    rw [div_le_iff₀ step]
    exact_mod_cast below.le
  have normal : (q - f.qmin).toNat = 0 ∨ 2 ^ f.mb ≤ n := by
    refine above.imp (by omega) fun large => le_of_roundsTo rounded ?_
    rw [add_comm, zpow_add₀ two_ne_zero, zpow_natCast] at large
    rw [le_div_iff₀ step]
    exact_mod_cast large
  have split : (2 : ℝ) ^ q = (2 : ℝ) ^ (q - f.qmin).toNat * (2 : ℝ) ^ f.qmin := by
    rw [← zpow_natCast, ← zpow_add₀ two_ne_zero]
    congr 1
    omega
  rw [FLay.pack, codeMag_pack normal short, split]
  push_cast
  ring

/-- The magnitudes of codes compare as the codes do. -/
theorem codeMag_mul_lt {M c d : Nat} {q : Int} :
    (codeMag M c : ℝ) * (2 : ℝ) ^ q < codeMag M d * (2 : ℝ) ^ q ↔ c < d := by
  rw [mul_lt_mul_iff_of_pos_right (zpow_pos two_pos q), Nat.cast_lt, (codeMag_strictMono M).lt_iff_lt]

/-- The step of a power of two above the subnormals is a code's magnitude. -/
theorem two_zpow_eq_codeMag (M i : Nat) (q : Int) : (2 : ℝ) ^ (q + M + i) = codeMag M (i * 2 ^ M + 2 ^ M) * (2 : ℝ) ^ q := by
  rw [codeMag_pack (.inr le_rfl) (Nat.pow_le_pow_right two_pos (Nat.le_succ M)), add_assoc, add_comm, zpow_add₀ two_ne_zero,
    ← Nat.cast_add, zpow_natCast, pow_add]
  push_cast
  rfl

theorem two_zpow_min_normal : (2 : ℝ) ^ (-126 : Int) = codeMag 23 (2 ^ 23) * (2 : ℝ) ^ (-149 : Int) := by
  simpa using two_zpow_eq_codeMag 23 0 (-149)

theorem two_zpow_overflow : (2 : ℝ) ^ (128 : Int) = codeMag 23 0x7F800000 * (2 : ℝ) ^ (-149 : Int) := by
  simpa using two_zpow_eq_codeMag 23 254 (-149)

/-! ### F32 words -/

theorem f32Is_iff {a : Word} {x : ℝ} : f32Is a x ↔
    a.toNat % 2 ^ 31 < 0x7F800000 ∧ x = signed (a.getLsbD 31) (codeMag 23 (a.toNat % 2 ^ 31) * (2 : ℝ) ^ (-149 : Int)) := by
  rw [f32Is, codeIs_iff, testBit_eq]
  exact and_congr (by omega) Iff.rfl

theorem toNat_mkF32 {neg : Bool} {mag : Nat} (lt : mag < 2 ^ 31) :
    (mkF32 neg mag).toNat % 2 ^ 31 = mag ∧ (mkF32 neg mag).getLsbD 31 = neg := by
  rw [mkF32, BitVec.getLsbD, ← testBit_eq, BitVec.toNat_ofNat]
  cases neg
  · exact ⟨by simp only [Bool.false_eq_true, if_false]; omega, decide_eq_false (by simp only [Bool.false_eq_true, if_false]; omega)⟩
  · exact ⟨by simp only [if_true]; omega, decide_eq_true (by simp only [if_true]; omega)⟩

theorem f32Is_mkF32 {neg : Bool} {mag : Nat} (lt : mag < 0x7F800000) :
    f32Is (mkF32 neg mag) (signed neg (codeMag 23 mag * (2 : ℝ) ^ (-149 : Int))) := by
  obtain ⟨code, sign⟩ := toNat_mkF32 (neg := neg) (mag := mag) (by omega)
  rw [f32Is_iff, code, sign]
  exact ⟨lt, rfl⟩

theorem f32Is_zero (neg : Bool) : f32Is (mkF32 neg 0) 0 ∧ (mkF32 neg 0).getLsbD 31 = neg :=
  ⟨by simpa [codeMag] using f32Is_mkF32 (neg := neg) (mag := 0) (by omega), (toNat_mkF32 (by omega)).2⟩

/-- The value of a word that stands for a real: of its sign, with at most 24 bits. -/
theorem f32_cases {a : Word} {x : ℝ} (h : f32Is a x) : (x = 0 ∧ f32 a = .zero (a.getLsbD 31)) ∨
    ∃ m i : Nat, 0 < m ∧ m < 2 ^ 24 ∧ f32 a = .fin (a.getLsbD 31) m (-149 + i) ∧
      x = signed (a.getLsbD 31) (m * (2 : ℝ) ^ (-149 + i : Int)) ∧ |x| < (2 : ℝ) ^ (128 : Int) := by
  have value : f32 a = layF32.elem a.toNat := ieee_finite h.1
  rw [f32Is_iff] at h
  obtain ⟨finite, real⟩ := h
  have sign : decide (a.toNat / 2 ^ (layF32.mb + layF32.eb) % 2 = 1) = a.getLsbD 31 := testBit_eq ..
  rw [value]
  rcases elem_cases layF32 a.toNat with ⟨zero, elem⟩ | ⟨m, i, pos, short, mag, elem⟩ <;> rw [sign] at elem
  · refine .inl ⟨?_, elem⟩
    rw [real, show codeMag 23 (a.toNat % 2 ^ 31) = 0 from zero, Nat.cast_zero, zero_mul, signed_zero]
  · refine .inr ⟨m, i, pos, short, elem, ?_, ?_⟩
    · rw [real, show codeMag 23 (a.toNat % 2 ^ 31) = m * 2 ^ i from mag, zpow_add₀ two_ne_zero, zpow_natCast]
      push_cast
      ring_nf
    · rw [real, abs_signed, abs_of_nonneg (by positivity), two_zpow_overflow, codeMag_mul_lt]
      exact finite

/-- A word that stands for a real other than zero. -/
theorem f32_fin {a : Word} {x : ℝ} (h : f32Is a x) (ne : x ≠ 0) : ∃ (m : Nat) (e : Int), 0 < m ∧ m < 2 ^ 24 ∧ -149 ≤ e ∧
    f32 a = .fin (a.getLsbD 31) m e ∧ |x| = m * (2 : ℝ) ^ e ∧ (x < 0 ↔ a.getLsbD 31 = true) ∧
    m * (2 : ℝ) ^ e < (2 : ℝ) ^ (128 : Int) := by
  obtain ⟨zero, -⟩ | ⟨m, i, pos, short, value, real, finite⟩ := f32_cases h
  · exact absurd zero ne
  have size : |x| = m * (2 : ℝ) ^ (-149 + i : Int) := by rw [real, abs_signed, abs_of_pos (mul_zpow_pos pos _)]
  exact ⟨m, _, pos, short, by omega, value, size, by rw [real, signed_lt_zero (mul_zpow_pos pos _)], size ▸ finite⟩

theorem f32_is {a : Word} {x : ℝ} (h : f32Is a x) : Val.Is (f32 a) (a.getLsbD 31) x := by
  rcases f32_cases h with ⟨rfl, value⟩ | ⟨m, i, pos, -, value, rfl, -⟩ <;> rw [value]
  · exact .zero _
  · exact .fin _ _ pos

/-! ### Rounding into F32 -/

/-- A real that lies to the half steps as an exact magnitude does is rounded once into F32 (R133). -/
theorem roundedF32_of_same {mode : RMode} {neg : Bool} {m : Nat} {e : Int} {x : ℝ} (pos : 0 < m)
    (sign : x < 0 ↔ neg = true)
    (same : SameHalves (m * (2 : ℝ) ^ e / (2 : ℝ) ^ layF32.place m e) (|x| / (2 : ℝ) ^ layF32.place m e)) :
    roundedF32 mode x (rndF32 mode neg m e) := by
  obtain ⟨rounded, exactly⟩ := roundedAt_round (mode := mode) pos sign same
  have code := roundedAt_code rounded
  have pos_of : 0 < x → neg = false := fun h => Bool.eq_false_iff.2 (mt sign.2 h.not_gt)
  refine ⟨_, _, rounded, ?_⟩
  simp only [rndF32, if_neg pos.ne', round_place]
  generalize (layF32.round (mode.pick neg) m e).1 = n at *
  generalize (layF32.round (mode.pick neg) m e).2.2 = inexact at *
  generalize layF32.place m e = q at *
  rw [show layF32.qmin = -149 from rfl] at code
  generalize layF32.pack n q = mag at *
  rw [sign_mul sign, code]
  rw [code] at exactly
  have normal : (codeMag 23 mag : ℝ) * (2 : ℝ) ^ (-149 : Int) < (2 : ℝ) ^ (-126 : Int) ↔ mag < 2 ^ 23 := by
    rw [two_zpow_min_normal, codeMag_mul_lt]
  have finite : (codeMag 23 mag : ℝ) * (2 : ℝ) ^ (-149 : Int) < (2 : ℝ) ^ (128 : Int) ↔ mag < 0x7F800000 := by
    rw [two_zpow_overflow, codeMag_mul_lt]
  change ((codeMag 23 mag : ℝ) * (2 : ℝ) ^ (-149 : Int) < (2 : ℝ) ^ (128 : Int) → _) ∧ _
  refine ⟨fun lt => ?_, fun ge => ?_⟩
  · rw [if_neg (not_le.2 (finite.1 lt))]
    refine ⟨f32Is_mkF32 (finite.1 lt), ?_, ?_, ?_⟩
    · rw [sign, (toNat_mkF32 (by have := finite.1 lt; omega)).2]
    · intro same
      rw [exactly.2 same]
      rfl
    · intro differs
      have raised : inexact = true := Bool.eq_true_of_not_eq_false (mt exactly.1 differs)
      simp only [raised, if_true]
      refine ⟨fun sub => ?_, fun large => ?_⟩
      · rw [if_pos (normal.1 sub)]
        rfl
      · rw [if_neg (mt normal.2 (not_lt.2 large))]
        rfl
  · rw [if_pos (le_of_not_gt (mt finite.2 (not_lt.2 ge)))]
    refine ⟨rfl, fun h => ?_, fun h => ?_⟩
    · rw [pos_of h]
      cases mode <;> decide
    · rw [sign.1 h]
      cases mode <;> decide

end Sys2Proof.Machine
end

section
/-! The arithmetic words on finite operands: the exact real result rounded once (R120, R133, R136). -/

namespace Sys2Proof.Machine

/-- An exact magnitude rounded into F32. -/
theorem roundedF32_rndF32 (mode : RMode) (neg : Bool) {m : Nat} (e : Int) (pos : 0 < m) :
    roundedF32 mode (signed neg (m * (2 : ℝ) ^ e)) (rndF32 mode neg m e) := by
  refine roundedF32_of_same pos (signed_lt_zero (mul_zpow_pos pos e)) ?_
  rw [abs_signed, abs_of_pos (mul_zpow_pos pos e)]
  exact .refl _

/-- A real with at most 24 bits, none below the subnormal step, is its own rounding (R133). -/
theorem exactlyof_roundedF32 {mode : RMode} {x : ℝ} {r : Word × Nat} (h : roundedF32 mode x r) {j : Nat} {i : Int}
    (real : |x| = j * (2 : ℝ) ^ i) (short : j < 2 ^ 24) (least : -149 ≤ i) (finite : |x| < (2 : ℝ) ^ (128 : Int)) :
    f32Is r.1 x ∧ (r.1.getLsbD 31 = true ↔ x < 0) ∧ r.2 = 0 := by
  obtain ⟨n, q, ⟨-, -, normal, rounded⟩, result, -⟩ := h
  have fine : q ≤ i := by
    rcases normal with rfl | large
    · exact least
    have : (2 : ℝ) ^ (q + (23 : Nat)) < (2 : ℝ) ^ (24 + i) := by
      refine large.trans_lt ?_
      rw [real, zpow_add₀ two_ne_zero]
      exact mul_lt_mul_of_pos_right (by exact_mod_cast short) (zpow_pos two_pos i)
    have := (zpow_lt_zpow_iff_right₀ one_lt_two).1 this
    omega
  have whole : |x| / (2 : ℝ) ^ q = (j * 2 ^ (i - q).toNat : Nat) := by
    rw [real, mul_div_assoc, ← zpow_sub₀ two_ne_zero, ← Int.toNat_of_nonneg (Int.sub_nonneg.2 fine), zpow_natCast,
      Int.toNat_natCast]
    push_cast
    rfl
  rw [whole] at rounded
  have same : (n : ℝ) * (2 : ℝ) ^ q = |x| := by
    rw [eq_of_roundsTo rounded, ← whole, div_mul_cancel₀ _ (zpow_pos two_pos q).ne']
  rw [same] at result
  obtain ⟨value, sign, quiet, -⟩ := result finite
  refine ⟨?_, sign, quiet rfl⟩
  rw [sign_mul (neg := decide (x < 0)) (by simp), signed_abs (by simp)] at value
  exact value

/-- Natural numbers of 24 bits are far below the largest F32 value. -/
theorem cast_lt_top {n : Nat} (short : n < 2 ^ 24) : (n : ℝ) < (2 : ℝ) ^ (128 : Int) :=
  calc (n : ℝ) < 2 ^ 24 := by exact_mod_cast short
    _ = (2 : ℝ) ^ (24 : Int) := by norm_num
    _ ≤ (2 : ℝ) ^ (128 : Int) := zpow_le_zpow_right₀ one_le_two (by norm_num)

/-- A magnitude of at most 24 bits goes into F32 as it is. -/
theorem rndF32_exact (mode : RMode) (neg : Bool) {m : Nat} {e : Int} (pos : 0 < m) {j : Nat} {i : Int}
    (real : m * (2 : ℝ) ^ e = j * (2 : ℝ) ^ i) (short : j < 2 ^ 24) (least : -149 ≤ i)
    (finite : m * (2 : ℝ) ^ e < (2 : ℝ) ^ (128 : Int)) :
    f32Is (rndF32 mode neg m e).1 (signed neg (m * (2 : ℝ) ^ e)) ∧ (rndF32 mode neg m e).1.getLsbD 31 = neg ∧
      (rndF32 mode neg m e).2 = 0 := by
  have size : |signed neg (m * (2 : ℝ) ^ e)| = m * (2 : ℝ) ^ e := by rw [abs_signed, abs_of_pos (mul_zpow_pos pos e)]
  obtain ⟨value, sign, quiet⟩ := exactlyof_roundedF32 (roundedF32_rndF32 mode neg e pos) (size.trans real) short least (size.trans_lt finite)
  exact ⟨value, Bool.eq_iff_iff.2 (sign.trans (signed_lt_zero (mul_zpow_pos pos e))), quiet⟩

/-! ### Sums and products -/

section
variable {v w : Val} {m n : Bool} {x y : ℝ}

theorem Val.Is.not_isNaN (h : v.Is n x) : v.isNaN = false := by cases h <;> rfl

theorem Val.Is.negate (h : v.Is n x) : v.negate.Is (!n) (-x) := by
  cases h with
  | zero => rw [neg_zero]; exact .zero _
  | fin _ e pos => rw [← signed_neg]; exact .fin _ e pos

/-- The exact product has the product's sign. -/
theorem mulVals_is (hv : v.Is m x) (hw : w.Is n y) : ∃ p, mulVals v w = some p ∧ p.Is (m != n) (x * y) := by
  cases hv with
  | zero =>
    rw [zero_mul]
    cases hw <;> exact ⟨_, rfl, .zero _⟩
  | fin _ e pos =>
    cases hw with
    | zero =>
      rw [mul_zero]
      exact ⟨_, rfl, .zero _⟩
    | fin _ k pos' =>
      refine ⟨_, rfl, ?_⟩
      rw [signed_mul, mul_mul_mul_comm, ← zpow_add₀ two_ne_zero, ← Nat.cast_mul]
      exact .fin _ _ (Nat.mul_pos pos pos')

theorem scaleTo_real {neg : Bool} {a : Nat} {e e0 : Int} (le : e0 ≤ e) :
    (scaleTo neg a e e0 : ℝ) * (2 : ℝ) ^ e0 = signed neg (a * (2 : ℝ) ^ e) := by
  have split : (2 : ℝ) ^ e = (2 : ℝ) ^ (e - e0).toNat * (2 : ℝ) ^ e0 := by
    rw [← zpow_natCast, ← zpow_add₀ two_ne_zero]
    congr 1
    omega
  rw [scaleTo, split]
  cases neg <;> simp [signed] <;> ring

/-- The two-term sum as an integer at the lesser exponent is the real sum. -/
theorem sumExact_real (m : Bool) (a : Nat) (e : Int) (n : Bool) (b : Nat) (k : Int) :
    ((sumExact m a e n b k).1 : ℝ) * (2 : ℝ) ^ (sumExact m a e n b k).2 =
      signed m (a * (2 : ℝ) ^ e) + signed n (b * (2 : ℝ) ^ k) := by
  rw [sumExact, ← scaleTo_real (min_le_left e k), ← scaleTo_real (min_le_right e k)]
  push_cast
  ring

theorem signed_natAbs (s : Int) (e : Int) : signed (s < 0) (s.natAbs * (2 : ℝ) ^ e) = s * (2 : ℝ) ^ e := by
  rw [Nat.cast_natAbs, Int.cast_abs]
  by_cases neg : s < 0
  · rw [abs_of_neg (Int.cast_lt_zero.2 neg)]
    simp [signed, neg]
  · rw [abs_of_nonneg (Int.cast_nonneg (not_lt.1 neg))]
    simp [signed, neg]

/-- Terms of one sign do not cancel. -/
theorem signs_ne_of_cancel {a b : ℝ} (pa : 0 < a) (pb : 0 < b) (cancel : signed m a + signed n b = 0) : m ≠ n := by
  rintro rfl
  cases m <;> simp only [signed, if_true, Bool.false_eq_true, if_false] at cancel <;> linarith

/-- The sum of two finite values is rounded once (R133). -/
theorem roundedSum_addVals (mode : RMode) (hv : v.Is m x) (hw : w.Is n y) : roundedSum mode x y m n (addVals mode v w) := by
  cases hv with
  | zero =>
    rw [roundedSum, zero_add]
    cases hw with
    | zero =>
      refine ⟨fun ne => absurd rfl ne, fun _ => ?_⟩
      cases m <;> cases n <;> cases mode <;> rfl
    | fin _ e pos =>
      exact ⟨fun _ => roundedF32_rndF32 mode n e pos, fun zero => absurd (signed_eq_zero.1 zero) (mul_zpow_pos pos e).ne'⟩
  | fin _ e pos =>
    cases hw with
    | zero =>
      rw [roundedSum, add_zero]
      exact ⟨fun _ => roundedF32_rndF32 mode m e pos, fun zero => absurd (signed_eq_zero.1 zero) (mul_zpow_pos pos e).ne'⟩
    | @fin _ b k pos' =>
      rename_i a
      have sum := sumExact_real m a e n b k
      have signs := signs_ne_of_cancel (m := m) (n := n) (mul_zpow_pos pos e) (mul_zpow_pos pos' k)
      rw [roundedSum, addVals, ← sum] at *
      generalize sumExact m a e n b k = s at *
      have zero : (s.1 : ℝ) * (2 : ℝ) ^ s.2 = 0 ↔ s.1 = 0 := by
        rw [mul_eq_zero, or_iff_left (zpow_pos two_pos _).ne', Int.cast_eq_zero]
      refine ⟨fun ne => ?_, fun eq => ?_⟩
      · rw [← signed_natAbs]
        simp only [if_neg (mt zero.2 ne)]
        exact roundedF32_rndF32 mode _ _ (Int.natAbs_pos.2 (mt zero.2 ne))
      · simp only [if_pos (zero.1 eq), if_neg (signs eq)]
        cases mode <;> rfl

end

theorem arithmetic_rounds : arithmeticRounds := by
  intro mode a b d x y z ha hb hd sa sb
  have hx := f32_is ha
  have hy := f32_is hb
  have hz := f32_is hd
  obtain ⟨p, product, hp⟩ := mulVals_is hx hy
  refine ⟨?_, ?_, fun ne => ?_, fun zero => ?_, ?_⟩
  · simp only [fAdd, hx.not_isNaN, hy.not_isNaN, Bool.or_self, Bool.false_eq_true, if_false]
    exact roundedSum_addVals mode hx hy
  · simp only [fSub, hx.not_isNaN, hy.not_isNaN, Bool.or_self, Bool.false_eq_true, if_false]
    exact roundedSum_addVals mode hx hy.negate
  · simp only [fMul, hx.not_isNaN, hy.not_isNaN, Bool.or_self, Bool.false_eq_true, if_false, product]
    generalize x * y = xy at hp ne
    cases hp with
    | zero => exact absurd rfl ne
    | fin _ e pos => exact roundedF32_rndF32 mode _ e pos
  · simp only [fMul, hx.not_isNaN, hy.not_isNaN, Bool.or_self, Bool.false_eq_true, if_false, product]
    generalize x * y = xy at hp zero
    cases hp with
    | zero => cases sa != sb <;> rfl
    | fin _ e pos => exact absurd (signed_eq_zero.1 zero) (mul_zpow_pos pos e).ne'
  · simp only [fFma, hx.not_isNaN, hy.not_isNaN, hz.not_isNaN, Bool.or_self, Bool.false_eq_true, if_false, product]
    exact roundedSum_addVals mode hp hz

end Sys2Proof.Machine
end

section
/-! Quotients and square roots: a value between two neighbours, told from them by a sticky bit, rounds as the real does (R139). -/

namespace Sys2Proof.Machine

/-- Reals strictly between the same neighbouring integers round alike to multiples of 2 and more. -/
theorem SameHalves.of_between {Q : Int} {y z : ℝ} (j : Nat) (low : (Q : ℝ) < y) (high : y < Q + 1) (low' : (Q : ℝ) < z)
    (high' : z < Q + 1) : SameHalves (y / 2 ^ (j + 1)) (z / 2 ^ (j + 1)) := by
  have half (w : ℝ) : 2 * (w / 2 ^ (j + 1)) = w / 2 ^ j := by
    rw [pow_succ]
    field_simp
  have le {w : ℝ} (low : (Q : ℝ) < w) (high : w < Q + 1) (t : Int) : ((t * 2 ^ j : Int) : ℝ) ≤ w ↔ t * 2 ^ j ≤ Q :=
    ⟨fun h => Int.lt_add_one_iff.1 (by exact_mod_cast h.trans_lt high), fun h => (Int.cast_le.2 h).trans low.le⟩
  have ge {w : ℝ} (low : (Q : ℝ) < w) (high : w < Q + 1) (t : Int) : w ≤ ((t * 2 ^ j : Int) : ℝ) ↔ Q < t * 2 ^ j :=
    ⟨fun h => by exact_mod_cast low.trans_le h, fun h => high.le.trans (by exact_mod_cast h)⟩
  intro t
  have scaled : (t : ℝ) * 2 ^ j = ((t * 2 ^ j : Int) : ℝ) := by push_cast; rfl
  rw [half, half, le_div_iff₀ (by positivity), le_div_iff₀ (by positivity), div_le_iff₀ (by positivity),
    div_le_iff₀ (by positivity), scaled, le low high, le low' high', ge low high, ge low' high']
  exact ⟨Iff.rfl, Iff.rfl⟩

/-- A real v·2^e of which ⌊v⌋, of 25 bits or more, and whether v is whole are known, rounded once into F32. -/
theorem roundedF32_rndSticky {mode : RMode} {neg : Bool} {Q : Nat} {e : Int} {sticky : Bool} {x v : ℝ} (large : 2 ^ 24 ≤ Q)
    (sign : x < 0 ↔ neg = true) (real : |x| = v * (2 : ℝ) ^ e) (low : (Q : ℝ) ≤ v) (high : v < Q + 1)
    (whole : sticky = true ↔ (Q : ℝ) ≠ v) : roundedF32 mode x (rndSticky mode neg Q e sticky) := by
  have half : (2 : ℝ) ^ (e - 1) = 2⁻¹ * (2 : ℝ) ^ e := by rw [zpow_sub_one₀ two_ne_zero, mul_comm]
  have split (m : Nat) : (m : ℝ) * (2 : ℝ) ^ (e - 1) = (m / 2 : ℝ) * (2 : ℝ) ^ e := by rw [half]; ring
  rw [rndSticky]
  refine roundedF32_of_same (by omega) sign ?_
  rw [real, split]
  cases sticky with
  | false =>
    have same : (Q : ℝ) = v := by simpa using whole
    simp [same, SameHalves.refl]
  | true =>
    have above : (Q : ℝ) < v := lt_of_le_of_ne low (whole.1 rfl)
    simp only [if_true]
    have wide : 26 ≤ bitLen (2 * Q + 1) := le_bitLen (k := 25) (by omega)
    obtain ⟨j, coarse⟩ : ∃ j : Nat, layF32.place (2 * Q + 1) (e - 1) = ((j + 1 : Nat) : Int) + e := by
      refine ⟨(layF32.place (2 * Q + 1) (e - 1) - (e + 1)).toNat, ?_⟩
      have := le_max_left ((bitLen (2 * Q + 1) : Int) + (e - 1) - (layF32.mb + 1)) layF32.qmin
      rw [← FLay.place, show (layF32.mb : Int) = 23 from rfl] at this
      omega
    have shift (w : ℝ) : w * (2 : ℝ) ^ e / ((2 : ℝ) ^ (j + 1) * (2 : ℝ) ^ e) = w / 2 ^ (j + 1) :=
      mul_div_mul_right _ _ (zpow_pos two_pos e).ne'
    rw [coarse, zpow_add₀ two_ne_zero, zpow_natCast, shift, shift]
    refine .of_between (Q := Q) j ?_ ?_ above high <;> push_cast <;> linarith

/-! ### Square roots -/

theorem isqrtFrom_eq_sqrt {n k r : Nat} (low : r * r ≤ n) (high : n < (r + 2 ^ (k + 1)) * (r + 2 ^ (k + 1))) :
    isqrtFrom n k r = Nat.sqrt n := by
  induction k generalizing r with
  | zero =>
    rw [isqrtFrom]
    split
    · exact Nat.eq_sqrt.2 ⟨by assumption, high⟩
    · exact Nat.eq_sqrt.2 ⟨low, by omega⟩
  | succ k ih =>
    rw [isqrtFrom]
    split
    · refine ih (by assumption) ?_
      rwa [Nat.add_assoc, ← Nat.mul_two, ← Nat.pow_succ]
    · exact ih low (by omega)

/-- The root bit by bit is the root. -/
theorem isqrt_eq_sqrt (n : Nat) : isqrt n = Nat.sqrt n := by
  refine isqrtFrom_eq_sqrt (Nat.zero_le n) ?_
  rcases Nat.eq_zero_or_pos n with rfl | pos
  · decide
  rw [Nat.zero_add, ← Nat.pow_add]
  exact (bitLen_of_pos pos).2.2.trans_le (Nat.pow_le_pow_right two_pos (by omega))

/-- A magnitude with an even exponent. -/
theorem even_exponent (m : Nat) (e : Int) : (m : ℝ) * (2 : ℝ) ^ e = (if e % 2 = 0 then m else 2 * m : Nat) *
    ((2 : ℝ) ^ ((if e % 2 = 0 then e else e - 1) / 2)) ^ 2 := by
  rw [← zpow_natCast, ← zpow_mul]
  split
  · rw [show e / 2 * ((2 : Nat) : Int) = e by omega]
  · rw [show (e - 1) / 2 * ((2 : Nat) : Int) = e - 1 by omega, zpow_sub_one₀ two_ne_zero]
    push_cast
    ring

/-! ### The functions -/

/-- A quotient of natural numbers, its floor, and when that is exact. -/
theorem floor_div {m : Nat} (pos : 0 < m) (a : Nat) :
    ((a / m : Nat) : ℝ) ≤ a / m ∧ (a : ℝ) / m < (a / m : Nat) + 1 ∧ (((a / m : Nat) : ℝ) = a / m ↔ a % m = 0) := by
  have real : (0 : ℝ) < m := Nat.cast_pos.2 pos
  refine ⟨Nat.cast_div_le, ?_, ?_⟩
  · rw [div_lt_iff₀ real, mul_comm]
    exact_mod_cast Nat.lt_mul_div_succ a pos
  · rw [eq_div_iff real.ne', ← Nat.cast_mul, Nat.cast_inj, ← Nat.dvd_iff_mod_eq_zero, ]
    exact ⟨fun h => ⟨_, h.symm.trans (Nat.mul_comm ..)⟩, Nat.div_mul_cancel⟩

section
variable (mode : RMode) (neg : Bool) {m : Nat} (e : Int) (pos : 0 < m)
include pos

/-- Quotients of a wide power of two have many bits. -/
theorem two_pow_le_div (k : Nat) : 2 ^ k ≤ 2 ^ (bitLen m + k) / m := by
  rw [Nat.le_div_iff_mul_le pos, Nat.pow_add, Nat.mul_comm]
  exact Nat.mul_le_mul_right _ (bitLen_of_pos pos).2.2.le

theorem rcpFin_rounded : roundedF32 mode (1 / signed neg (m * (2 : ℝ) ^ e)) (rcpFin mode neg m e) := by
  rw [rcpFin]
  generalize width : bitLen m + 40 = k
  obtain ⟨low, high, whole⟩ := floor_div pos (2 ^ k)
  refine roundedF32_rndSticky ?_ ?_ ?_ low high (decide_eq_true_iff.trans (not_congr whole.symm))
  · rw [← width]
    exact (Nat.pow_le_pow_right two_pos (by omega)).trans (two_pow_le_div pos 40)
  · rw [one_div, inv_lt_zero, signed_lt_zero (mul_zpow_pos pos e)]
  · rw [abs_div, abs_one, abs_signed, abs_of_pos (mul_zpow_pos pos e), sub_eq_add_neg, zpow_add₀ two_ne_zero, zpow_neg, zpow_neg,
      zpow_natCast]
    push_cast
    field_simp

theorem sqrtFin_rounded : roundedF32 mode (Real.sqrt (m * (2 : ℝ) ^ e)) (sqrtFin mode m e) := by
  have real := even_exponent m e
  have pos' : 0 < if e % 2 = 0 then m else 2 * m := by split <;> omega
  rw [sqrtFin, isqrt_eq_sqrt]
  generalize (if e % 2 = 0 then m else 2 * m) = n at *
  generalize (if e % 2 = 0 then e else e - 1) / 2 = h at *
  refine roundedF32_rndSticky ?_ ?_ ?_ Real.nat_sqrt_le_real_sqrt Real.real_sqrt_lt_nat_sqrt_succ ?_
  · rw [Nat.le_sqrt]
    exact Nat.le_mul_of_pos_left _ pos' |>.trans' (by norm_num)
  · simpa only [Bool.false_eq_true, iff_false, not_lt] using Real.sqrt_nonneg _
  · have wide : Real.sqrt ((n * 2 ^ 80 : Nat) : ℝ) = Real.sqrt n * 2 ^ 40 := by
      rw [Nat.cast_mul, Real.sqrt_mul (Nat.cast_nonneg n), show ((2 ^ 80 : Nat) : ℝ) = (2 ^ 40) ^ 2 by norm_num,
        Real.sqrt_sq (by positivity)]
    rw [abs_of_nonneg (Real.sqrt_nonneg _), real, Real.sqrt_mul (Nat.cast_nonneg n), Real.sqrt_sq (by positivity), wide,
      zpow_sub₀ two_ne_zero]
    norm_num
    ring
  · rw [decide_eq_true_iff, ne_eq, ne_eq, not_iff_not, eq_comm (a := (Nat.sqrt _ : ℝ)),
      Real.sqrt_eq_iff_mul_self_eq (Nat.cast_nonneg _) (Nat.cast_nonneg _), eq_comm]
    exact_mod_cast Iff.rfl

theorem rsqFin_rounded : roundedF32 mode (1 / Real.sqrt (m * (2 : ℝ) ^ e)) (rsqFin mode m e) := by
  have real := even_exponent m e
  have pos' : 0 < if e % 2 = 0 then m else 2 * m := by split <;> omega
  rw [rsqFin, isqrt_eq_sqrt]
  generalize (if e % 2 = 0 then m else 2 * m) = n at *
  generalize (if e % 2 = 0 then e else e - 1) / 2 = h at *
  have wide := two_pow_le_div pos' (bitLen n + 80)
  rw [show bitLen n + (bitLen n + 80) = 2 * (bitLen n + 40) by ring] at wide
  generalize bitLen n + 40 = k at *
  have npos : (0 : ℝ) < n := Nat.cast_pos.2 pos'
  generalize root : Nat.sqrt (2 ^ (2 * k) / n) = r
  obtain ⟨low, high⟩ := Nat.eq_sqrt.1 root.symm
  rw [Nat.le_div_iff_mul_le pos'] at low
  rw [Nat.div_lt_iff_lt_mul pos'] at high
  refine roundedF32_rndSticky (v := Real.sqrt ((2 ^ (2 * k) : Nat) / n)) ?_ ?_ ?_ ?_ ?_ ?_
  · rw [← root, Nat.le_sqrt, ← Nat.pow_add]
    exact (Nat.pow_le_pow_right two_pos (by omega)).trans wide
  · simpa only [Bool.false_eq_true, iff_false, not_lt] using one_div_nonneg.2 (Real.sqrt_nonneg _)
  · have square : ((2 ^ (2 * k) : Nat) : ℝ) = (2 ^ k) ^ 2 := by
      push_cast
      ring
    rw [abs_of_nonneg (one_div_nonneg.2 (Real.sqrt_nonneg _)), real, Real.sqrt_mul npos.le, Real.sqrt_sq (by positivity), square,
      Real.sqrt_div (by positivity), Real.sqrt_sq (by positivity), sub_eq_add_neg, zpow_add₀ two_ne_zero, zpow_neg, zpow_neg,
      zpow_natCast]
    field_simp
  · rw [Real.le_sqrt (by positivity) (by positivity), le_div_iff₀ npos, sq]
    exact_mod_cast low
  · rw [Real.sqrt_lt' (by positivity), div_lt_iff₀ npos, sq]
    exact_mod_cast high
  · rw [decide_eq_true_iff, ne_eq, ne_eq, not_iff_not, eq_comm (a := (r : ℝ)),
      Real.sqrt_eq_iff_mul_self_eq (by positivity) (Nat.cast_nonneg _), div_eq_iff npos.ne', eq_comm]
    exact_mod_cast Iff.rfl

end
end Sys2Proof.Machine
end

section
/-! The functions of `fun` on finite operands (R139, R140). -/

namespace Sys2Proof.Machine

/-! ### Rounding to an integer -/

theorem zpow_of_neg {e : Int} (neg : ¬ 0 ≤ e) : (2 : ℝ) ^ e = (2 ^ (-e).toNat)⁻¹ := by
  rw [← zpow_natCast, Int.toNat_of_nonneg (by omega), ← zpow_neg, neg_neg]

theorem zpow_of_nonneg {e : Int} (nonneg : 0 ≤ e) : (2 : ℝ) ^ e = 2 ^ e.toNat := by
  rw [← zpow_natCast, Int.toNat_of_nonneg nonneg]

/-- An exact magnitude rounded to an integer, and whether it is one (R124, R140). -/
theorem roundsTo_toInteger (mode : RMode) (neg : Bool) (m : Nat) (e : Int) :
    roundsTo mode (neg = true) (m * (2 : ℝ) ^ e) (toInteger mode neg m e).1 ∧
    ((toInteger mode neg m e).2 = false ↔ ((toInteger mode neg m e).1 : ℝ) = m * (2 : ℝ) ^ e) := by
  rw [toInteger]
  split
  next whole =>
    have natural : (m : ℝ) * (2 : ℝ) ^ e = (m * 2 ^ e.toNat : Nat) := by
      rw [zpow_of_nonneg whole]
      push_cast
      rfl
    rw [natural]
    exact ⟨roundsTo_self .., by simp⟩
  next broken =>
    rw [zpow_of_neg broken, ← div_eq_mul_inv]
    exact roundsTo_shiftRound ..

section
variable {mode : RMode} {neg : Bool} {m : Nat} {e : Int} (pos : 0 < m) (short : m < 2 ^ 24) (least : -149 ≤ e)
  (finite : m * (2 : ℝ) ^ e < (2 : ℝ) ^ (128 : Int))
include short finite

/-- What an F32 magnitude rounds to goes into F32 as it is. -/
theorem fInteger_spec (nx : Bool) : ∃ n : Nat, roundsTo mode (neg = true) (m * (2 : ℝ) ^ e) n ∧
    f32Is (fInteger mode nx neg m e).1 (signed neg n) ∧ (fInteger mode nx neg m e).1.getLsbD 31 = neg ∧
    ((fInteger mode nx neg m e).2 ≠ 0 ↔ nx = true ∧ (n : ℝ) ≠ m * (2 : ℝ) ^ e) ∧
    ((fInteger mode nx neg m e).2 = 0 ∨ (fInteger mode nx neg m e).2 = 16) := by
  obtain ⟨rounded, exactly⟩ := roundsTo_toInteger mode neg m e
  refine ⟨_, rounded, ?_⟩
  rw [ne_eq (((toInteger mode neg m e).1 : Nat) : ℝ), ← exactly]
  have narrow : ∃ (j : Nat) (i : Int), ((toInteger mode neg m e).1 : ℝ) = j * (2 : ℝ) ^ i ∧ j < 2 ^ 24 ∧ -149 ≤ i ∧
      ((toInteger mode neg m e).1 : ℝ) < (2 : ℝ) ^ (128 : Int) := by
    by_cases whole : 0 ≤ e
    · have same := exactly.1 (by rw [toInteger, if_pos whole])
      exact ⟨m, e, same, short, by omega, same.trans_lt finite⟩
    · have less : (toInteger mode neg m e).1 ≤ m := by
        refine ge_of_roundsTo rounded ?_
        exact mul_le_of_le_one_right (Nat.cast_nonneg m) (zpow_le_one_of_nonpos₀ one_le_two (by omega))
      exact ⟨_, 0, by rw [zpow_zero, mul_one], less.trans_lt short, by omega, cast_lt_top (less.trans_lt short)⟩
  rw [fInteger]
  generalize toInteger mode neg m e = r at narrow
  obtain ⟨n, inexact⟩ := r
  obtain ⟨j, i, real, few, low, top⟩ := narrow
  dsimp only at real top ⊢
  have flags : (if (inexact && nx) = true then flNX else 0) ≠ 0 ↔ nx = true ∧ ¬ inexact = false := by
    cases inexact <;> cases nx <;> decide
  have either : (if (inexact && nx) = true then flNX else 0) = 0 ∨ (if (inexact && nx) = true then flNX else 0) = 16 := by
    cases inexact <;> cases nx <;> decide
  by_cases zero : n = 0
  · rw [if_pos zero, zero, Nat.cast_zero, signed_zero]
    exact ⟨(f32Is_zero neg).1, (f32Is_zero neg).2, flags, either⟩
  · have one : (n : ℝ) * (2 : ℝ) ^ (0 : Int) = n := by rw [zpow_zero, mul_one]
    obtain ⟨value, sign, -⟩ := rndF32_exact .rtz neg (e := 0) (Nat.pos_of_ne_zero zero) (one.trans real) few low (one.trans_lt top)
    rw [one] at value
    rw [if_neg zero]
    exact ⟨value, sign, flags, either⟩

end

/-! ### The fraction -/

/-- The bits below the point are the fraction of a magnitude. -/
theorem fraction_eq {m n : Nat} {e : Int} (broken : ¬ 0 ≤ e) (low : (n : ℝ) ≤ m * (2 : ℝ) ^ e) (high : m * (2 : ℝ) ^ e < n + 1) :
    m * (2 : ℝ) ^ e - n = (m % 2 ^ (-e).toNat : Nat) * (2 : ℝ) ^ e := by
  rw [zpow_of_neg broken, ← div_eq_mul_inv] at *
  generalize (-e).toNat = k at *
  have step : (0 : ℝ) < 2 ^ k := by positivity
  rw [le_div_iff₀ step] at low
  rw [div_lt_iff₀ step] at high
  have floor : m / 2 ^ k = n := Nat.div_eq_of_lt_le (by exact_mod_cast low) (by exact_mod_cast high)
  have parts : (m : ℝ) = 2 ^ k * n + (m % 2 ^ k : Nat) := by exact_mod_cast floor ▸ (Nat.div_add_mod m (2 ^ k)).symm
  rw [← div_eq_mul_inv, eq_div_iff step.ne', sub_mul, div_mul_cancel₀ _ step.ne']
  linarith

theorem whole_eq {m n : Nat} {e : Int} (whole : 0 ≤ e) (low : (n : ℝ) ≤ m * (2 : ℝ) ^ e) (high : m * (2 : ℝ) ^ e < n + 1) :
    m * (2 : ℝ) ^ e - n = 0 := by
  rw [zpow_of_nonneg whole] at *
  have same : m * 2 ^ e.toNat = n := le_antisymm (Nat.lt_succ_iff.1 (by exact_mod_cast high)) (by exact_mod_cast low)
  rw [sub_eq_zero]
  exact_mod_cast same

/-! ### Powers and logarithms of two -/

/-- A magnitude in a binade has its top bit there. -/
theorem binade {m : Nat} (pos : 0 < m) {e k : Int} (low : (2 : ℝ) ^ k ≤ m * (2 : ℝ) ^ e) (high : m * (2 : ℝ) ^ e < (2 : ℝ) ^ (k + 1)) :
    k = (bitLen m : Int) - 1 + e := by
  obtain ⟨le, lt⟩ := bitLen_real pos e
  have := (zpow_lt_zpow_iff_right₀ one_lt_two).1 (low.trans_lt lt)
  have := (zpow_lt_zpow_iff_right₀ one_lt_two).1 (le.trans_lt high)
  omega

/-- It is that power of two where its mantissa is one. -/
theorem power_iff {m : Nat} (pos : 0 < m) (e : Int) :
    m * (2 : ℝ) ^ e = (2 : ℝ) ^ ((bitLen m : Int) - 1 + e) ↔ m = 2 ^ (bitLen m - 1) := by
  rw [← Nat.cast_pred (bitLen_of_pos pos).1, zpow_add₀ two_ne_zero, mul_left_inj' (zpow_pos two_pos e).ne', zpow_natCast]
  exact_mod_cast Iff.rfl

/-- A magnitude of 2^128 or more overflows (R133). -/
theorem rndF32_overflow (mode : RMode) {m : Nat} {e : Int} (pos : 0 < m) (large : (2 : ℝ) ^ (128 : Int) ≤ m * (2 : ℝ) ^ e) :
    rndF32 mode false m e = (if mode = .rtz ∨ mode = .rdn then 0x7F7FFFFF else 0x7F800000, 20) := by
  have real : signed false (m * (2 : ℝ) ^ e) = m * (2 : ℝ) ^ e := rfl
  have above := mul_zpow_pos pos e
  obtain ⟨n, q, ⟨least, -, normal, rounded⟩, -, result⟩ := roundedF32_rndF32 mode false e pos
  rw [real] at *
  rw [abs_of_pos above] at *
  have beyond : (2 : ℝ) ^ (128 : Int) ≤ n * (2 : ℝ) ^ q := by
    by_cases fine : q ≤ 128
    · have split : (2 : ℝ) ^ (128 : Int) = ((2 ^ (128 - q).toNat : Nat) : ℝ) * (2 : ℝ) ^ q := by
        push_cast
        rw [← zpow_natCast, ← zpow_add₀ two_ne_zero]
        congr 1
        omega
      rw [split, ← le_div_iff₀ (zpow_pos two_pos q)] at large
      rw [split]
      exact mul_le_mul_of_nonneg_right (Nat.cast_le.2 (le_of_roundsTo rounded large)) (zpow_pos two_pos q).le
    · have one : 1 ≤ n := by
        refine le_of_roundsTo rounded ?_
        rw [Nat.cast_one, le_div_iff₀ (zpow_pos two_pos q), one_mul]
        exact (zpow_le_zpow_right₀ one_le_two (by omega)).trans (normal.resolve_left (by omega))
      calc (2 : ℝ) ^ (128 : Int) ≤ (2 : ℝ) ^ q := zpow_le_zpow_right₀ one_le_two (by omega)
        _ ≤ n * (2 : ℝ) ^ q := le_mul_of_one_le_left (zpow_pos two_pos q).le (by exact_mod_cast one)
  obtain ⟨flags, word, -⟩ := result beyond
  exact Prod.ext (word above) flags

theorem le_expSum (y f j t acc : Nat) : acc ≤ expSum y f j t acc := by
  induction f generalizing j t acc with
  | zero => exact le_rfl
  | succ f ih => exact (Nat.le_add_right ..).trans (ih ..)

/-- The fixed point of `exp2` holds the argument of an F32 operand exactly. -/
theorem exp2_fixed {neg : Bool} {m : Nat} {e : Int} (least : -149 ≤ e) : ((scaleTo neg m (e + transBits) 0 : Int) : ℝ) =
    signed neg (m * (2 : ℝ) ^ e) * 2 ^ transBits := by
  have held : 0 ≤ e + transBits := by
    have : (149 : Int) ≤ transBits := by decide
    omega
  have := scaleTo_real (neg := neg) (a := m) held
  rw [zpow_zero, mul_one, zpow_add₀ two_ne_zero, zpow_natCast] at this
  rw [this]
  cases neg <;> simp [signed, mul_assoc]

/-- 2^k for an integer k is exact. -/
theorem exp2Fin_integer (mode : RMode) {neg : Bool} {m : Nat} {e k : Int} (pos : 0 < m) (least : -149 ≤ e)
    (real : signed neg (m * (2 : ℝ) ^ e) = k) (low : -149 ≤ k) (high : k ≤ 127) : exp2Fin mode neg m e = rndF32 mode false 1 k := by
  have size : (m : ℝ) * (2 : ℝ) ^ e < (2 : ℝ) ^ (8 : Int) := by
    rw [← abs_of_pos (mul_zpow_pos pos e), ← abs_signed neg, real]
    have : |k| < 2 ^ 8 := abs_lt.2 ⟨by norm_num; omega, by norm_num; omega⟩
    exact_mod_cast this
  have near : ¬ 9 < (bitLen m : Int) + e := by
    have := (zpow_lt_zpow_iff_right₀ one_lt_two).1 ((bitLen_real pos e).1.trans_lt size)
    omega
  have fixed : scaleTo neg m (e + transBits) 0 = k * 2 ^ transBits := by
    have := exp2_fixed (neg := neg) (m := m) least
    rw [real] at this
    exact_mod_cast this
  have step : (0 : Int) < 2 ^ transBits := by positivity
  simp only [exp2Fin, gt_iff_lt, if_neg near, fixed, Int.mul_emod_left, Int.toNat_zero, if_true, Int.mul_ediv_cancel k step.ne']

theorem exp2Fin_overflow (mode : RMode) {m : Nat} {e : Int} (least : -149 ≤ e)
    (large : 128 ≤ m * (2 : ℝ) ^ e) :
    exp2Fin mode false m e = (if mode = .rtz ∨ mode = .rdn then 0x7F7FFFFF else 0x7F800000, 20) := by
  rw [exp2Fin]
  split
  · simp only [Bool.false_eq_true, if_false]
    exact rndF32_overflow mode one_pos (by rw [Nat.cast_one, one_mul]; exact zpow_le_zpow_right₀ one_le_two (by norm_num))
  have step : (0 : Int) < 2 ^ transBits := by positivity
  have power : 128 ≤ scaleTo false m (e + transBits) 0 / 2 ^ transBits := by
    rw [Int.le_ediv_iff_mul_le step]
    have : (128 : ℝ) * 2 ^ transBits ≤ (scaleTo false m (e + transBits) 0 : Int) := by
      rw [exp2_fixed least]
      exact mul_le_mul_of_nonneg_right large (by positivity)
    exact_mod_cast this
  generalize scaleTo false m (e + transBits) 0 = fx at *
  dsimp only
  split
  · refine rndF32_overflow mode one_pos ?_
    rw [Nat.cast_one, one_mul]
    exact zpow_le_zpow_right₀ one_le_two power
  · have wide : 2 ^ transBits ≤ exp2Fix (fx % 2 ^ transBits).toNat := le_expSum ..
    rw [rndSticky]
    simp only [if_true]
    generalize exp2Fix (fx % 2 ^ transBits).toNat = X at *
    have pos := Nat.two_pow_pos transBits
    refine rndF32_overflow mode (by omega) ?_
    calc (2 : ℝ) ^ (128 : Int) ≤ (2 : ℝ) ^ (fx / 2 ^ transBits) := zpow_le_zpow_right₀ one_le_two power
      _ = ((2 * 2 ^ transBits : Nat) : ℝ) * (2 : ℝ) ^ (fx / 2 ^ transBits - transBits - 1) := by
        push_cast
        rw [← pow_succ', ← zpow_natCast, ← zpow_add₀ two_ne_zero]
        congr 1
        push_cast
        ring
      _ ≤ _ := mul_le_mul_of_nonneg_right (Nat.cast_le.2 (by omega)) (zpow_pos two_pos _).le

end Sys2Proof.Machine
end

section
/-! `fun`: every sub-operation on finite operands, and the special inputs (R139, R140). -/

namespace Sys2Proof.Machine

/-- log₂ of a power of two is exact. -/
theorem log2Fin_power (mode : RMode) {m : Nat} {e k : Int} (pos : 0 < m) (least : -149 ≤ e)
    (finite : m * (2 : ℝ) ^ e < (2 : ℝ) ^ (128 : Int)) (real : m * (2 : ℝ) ^ e = (2 : ℝ) ^ k) :
    f32Is (log2Fin mode m e).1 k ∧ (log2Fin mode m e).2 = 0 := by
  have place : k = (bitLen m : Int) - 1 + e :=
    binade pos real.ge (real.trans_lt ((zpow_lt_zpow_iff_right₀ one_lt_two).2 (lt_add_one k)))
  have power : m = 2 ^ (bitLen m - 1) := (power_iff pos e).1 (place ▸ real)
  have bits := (bitLen_of_pos pos).1
  have top : k < 128 := (zpow_lt_zpow_iff_right₀ one_lt_two).1 (real ▸ finite)
  have exponent : e + ((bitLen m - 1 : Nat) : Int) = k := by omega
  simp only [log2Fin, if_pos power, exponent]
  by_cases zero : k = 0
  · rw [if_pos zero, zero, Int.cast_zero]
    exact ⟨(f32Is_zero false).1, rfl⟩
  · rw [if_neg zero]
    have small : k.natAbs < 2 ^ 24 := by omega
    have value := signed_natAbs k 0
    rw [zpow_zero, mul_one, mul_one] at value
    rw [← value]
    obtain ⟨word, -, quiet⟩ := rndF32_exact mode (k < 0) (e := 0) (Int.natAbs_pos.2 zero) rfl small (by omega) (by
      rw [zpow_zero, mul_one]
      exact cast_lt_top small)
    rw [zpow_zero, mul_one] at word
    exact ⟨word, quiet⟩

/-- The fraction of an F32 magnitude goes into F32 as it is. -/
theorem fraction_spec (mode : RMode) {a : Word} {neg : Bool} {m n : Nat} {e : Int} (value : f32 a = .fin neg m e) (short : m < 2 ^ 24)
    (least : -149 ≤ e) (low : (n : ℝ) ≤ m * (2 : ℝ) ^ e) (high : m * (2 : ℝ) ^ e < n + 1) :
    f32Is (fFun .frac mode a).1 (signed neg (m * (2 : ℝ) ^ e - n)) ∧ (fFun .frac mode a).1.getLsbD 31 = neg ∧
      (fFun .frac mode a).2 = 0 := by
  simp only [fFun, value]
  split
  next whole =>
    rw [whole_eq whole low high, signed_zero]
    exact ⟨(f32Is_zero neg).1, (f32Is_zero neg).2, rfl⟩
  next broken =>
    have fraction := fraction_eq broken low high
    rw [fraction]
    split
    next zero =>
      rw [zero, Nat.cast_zero, zero_mul, signed_zero]
      exact ⟨(f32Is_zero neg).1, (f32Is_zero neg).2, rfl⟩
    next some =>
      refine rndF32_exact .rtz neg (Nat.pos_of_ne_zero some) rfl ((Nat.mod_le ..).trans_lt short) least ?_
      rw [← fraction]
      exact (show m * (2 : ℝ) ^ e - n < 1 by linarith).trans_le (one_le_zpow₀ one_le_two (by norm_num))

theorem functions_round : functionsRound := by
  intro mode a x is ne toInt
  obtain ⟨m, e, pos, short, least, value, size, sign, finite⟩ := f32_fin is ne
  have real : signed (a.getLsbD 31) (m * (2 : ℝ) ^ e) = x := size ▸ signed_abs sign
  have unsigned : 0 < x → a.getLsbD 31 = false := fun h => Bool.eq_false_iff.2 (mt sign.2 h.not_gt)
  have rounds {op : FunOp} {m' : RMode} {nx : Bool} (fin : fFun op mode a = fInteger m' nx (a.getLsbD 31) m e) : toInt op m' nx := by
    obtain ⟨n, rounded, word⟩ := fInteger_spec (mode := m') (neg := a.getLsbD 31) short finite nx
    refine ⟨n, ?_, ?_⟩
    · rwa [size, sign]
    · rwa [fin, sign_mul sign, size]
  refine ⟨?_, fun positive => ?_, fun negative => ?_, rounds ?_, rounds ?_, rounds ?_, rounds ?_, fun n low high => ?_,
    fun k whole low high => ?_, fun k power => ?_⟩
  · simp only [fFun, value]
    rw [← real]
    exact rcpFin_rounded mode _ e pos
  · rw [unsigned positive] at value real
    simp only [fFun, value, Bool.false_eq_true, if_false]
    rw [← real]
    exact ⟨rsqFin_rounded mode e pos, sqrtFin_rounded mode e pos⟩
  · rw [sign.1 negative] at value
    simp only [List.forall_mem_cons, fFun, value, if_true]
    exact ⟨rfl, rfl, rfl, nofun⟩
  · simp only [fFun, value]
  · simp only [fFun, value]
  · simp only [fFun, value]
  · simp only [fFun, value]
  · rw [size] at low high ⊢
    rw [sign_mul sign]
    exact fraction_spec mode value short least low high
  · have exactly : fFun .exp2 mode a = rndF32 mode false 1 k := by
      simp only [fFun, value]
      exact exp2Fin_integer mode pos least (real.trans whole) low high
    obtain ⟨word, -, quiet⟩ := rndF32_exact mode false (e := k) one_pos rfl (by norm_num) low (by
      rw [Nat.cast_one, one_mul]
      exact (zpow_lt_zpow_iff_right₀ one_lt_two).2 (by omega))
    rw [Nat.cast_one, one_mul] at word
    rw [exactly]
    exact ⟨word, quiet⟩
  · have positive : 0 < x := power ▸ zpow_pos two_pos k
    rw [unsigned positive] at value real
    simp only [fFun, value, Bool.false_eq_true, if_false]
    exact log2Fin_power mode pos least finite (real.trans power)

/-! ### Special inputs -/

/-- A word is a NaN where its value is, signalling where the top fraction bit is clear (R110). -/
theorem f32_of_nanWord {a : Word} (h : nanWord a) : f32 a = .nan (signalling a) := by
  obtain ⟨exponent, fraction⟩ := h
  exact (ieee_special (f := layF32) (by decide) exponent).trans (if_neg fraction)

theorem nanWord_of_isNaN {a : Word} (h : (f32 a).isNaN = true) : nanWord a := by
  by_cases exponent : a.toNat / 2 ^ 23 % 256 = 255
  · refine ⟨exponent, fun zero => Bool.false_ne_true ?_⟩
    rwa [show f32 a = .inf _ from (ieee_special (by decide) exponent).trans (if_pos zero)] at h
  · rw [show f32 a = layF32.elem a.toNat from ieee_finite exponent, elem_not_isNaN] at h
    exact absurd h Bool.false_ne_true

/-- The rows of R140 for zeros and infinities. -/
theorem fFun_special (mode : RMode) : ∀ e ∈ specialFunctions,
    ∀ p ∈ [0x00000000, 0x80000000, 0x7F800000, 0xFF800000].zip e.2, fFun e.1 mode p.1 = p.2 := by
  cases mode <;> decide +kernel

theorem functions_special : functionsSpecial := by
  refine fun op mode a => ⟨fun nan => ?_, fun number => ?_, fFun_special mode, fun x is large => ?_⟩
  · simp only [fFun, f32_of_nanWord nan, Bool.and_eq_true, decide_eq_true_iff, and_assoc]
    rfl
  · have value := mt nanWord_of_isNaN number
    simp only [fFun]
    cases h : f32 a with
    | nan => exact absurd (h ▸ rfl) value
    | inf | zero | fin => exact ⟨rfl, rfl⟩
  · have positive : 0 < x := by linarith
    obtain ⟨m, e, pos, -, least, value, size, sign, -⟩ := f32_fin is positive.ne'
    rw [Bool.eq_false_iff.2 (mt sign.2 positive.not_gt)] at value
    simp only [fFun, value]
    exact exp2Fin_overflow mode least (by rwa [← size, abs_of_pos positive])

end Sys2Proof.Machine
end

section
/-! `cvt` between F32 and the narrow floating formats (R119 to R121, R126). -/

namespace Sys2Proof.Machine

/-! ### Codes with their sign bit -/

/-- The sign bit of a code of known width. -/
theorem high_bit {s c : Nat} (lt : c < 2 * s) : c / s % 2 = 1 ↔ s ≤ c := by
  rcases Nat.lt_or_ge c s with low | high
  · simp [Nat.div_eq_of_lt low, low]
  · have one : c / s = 1 := Nat.div_eq_of_lt_le (by omega) (by omega)
    simp [one, high]

/-- A sign bit over a code without sign. -/
def withSign (s : Nat) (neg : Bool) (c : Nat) : Nat := (if neg then s else 0) + c

section
variable {s c : Nat} (neg : Bool) (lt : c < s)
include lt

theorem withSign_lt : withSign s neg c < 2 * s := by cases neg <;> simp [withSign] <;> omega

theorem withSign_mod : withSign s neg c % s = c := by cases neg <;> simp [withSign, Nat.mod_eq_of_lt lt]

theorem le_withSign : s ≤ withSign s neg c ↔ neg = true := by cases neg <;> simp [withSign, lt]

theorem withSign_bit : decide (withSign s neg c / s % 2 = 1) = neg := by
  rw [Bool.eq_iff_iff, decide_eq_true_iff, high_bit (withSign_lt neg lt), le_withSign neg lt]

end

theorem codeIs_withSign {M E : Nat} {bias : Int} {neg : Bool} {c : Nat} (lt : c < 2 ^ (M + E)) {x : ℝ} :
    codeIs M E bias (withSign (2 ^ (M + E)) neg c) x ↔ x = signed neg (codeMag M c * (2 : ℝ) ^ (1 - bias - M)) := by
  rw [codeIs_iff, withSign_bit neg lt, withSign_mod neg lt]

/-! ### The formats -/

theorem cvtValue_to (sat rtz : Bool) (x : Fmt) (a : Word) : cvtValue false sat rtz x a =
    (BitVec.ofNat 32 (convTo x rtz sat (f32 a)).1, (convTo x rtz sat (f32 a)).2) := rfl

theorem cvtValue_from (sat rtz : Bool) (x : Fmt) (a : Word) : cvtValue true sat rtz x a = convFrom x a := rfl

/-- A code that stands for a zero widens to the zero of its sign (R126). -/
theorem convFrom_zero {x : Fmt} {a : Word} {neg : Bool} (value : fmtVal x a.toNat = .zero neg) :
    convFrom x a = (mkF32 neg 0, 0) := by
  unfold convFrom
  rw [value]
  cases x <;> rfl

/-- A code that stands for a magnitude widens to it, rounded where it has too many bits (R126). -/
theorem convFrom_fin {x : Fmt} {a : Word} {neg : Bool} {m : Nat} {e : Int} (value : fmtVal x a.toNat = .fin neg m e) :
    convFrom x a = ((rndF32 .rne neg m e).1, if x = .s32 ∨ x = .n32 then (rndF32 .rne neg m e).2 else 0) := by
  unfold convFrom
  rw [value]
  cases x <;> rfl

/-- What F32 holds widens as it is. -/
theorem convFrom_exact {x : Fmt} {a : Word} {neg : Bool} {m : Nat} {e : Int} (value : fmtVal x a.toNat = .fin neg m e) (pos : 0 < m)
    (short : m < 2 ^ 24) (least : -149 ≤ e) (finite : m * (2 : ℝ) ^ e < (2 : ℝ) ^ (128 : Int)) :
    f32Is (convFrom x a).1 (signed neg (m * (2 : ℝ) ^ e)) ∧ (convFrom x a).1.getLsbD 31 = neg ∧ (convFrom x a).2 = 0 := by
  obtain ⟨word, sign, quiet⟩ := rndF32_exact .rne neg pos rfl short least finite
  rw [convFrom_fin value, quiet, ite_self]
  exact ⟨word, sign, rfl⟩

/-- Overflow saturates in these formats whatever SAT and the mode, and in all under RTZ (R121). -/
def saturates (x : Fmt) (sat rtz : Bool) : Bool := x ∈ [Fmt.e2m3, .e3m2, .e2m1] || sat || rtz

/-- What an overflow gives (R121). -/
def overflowCode (x : Fmt) (satur neg : Bool) : Nat :=
  if satur then fmtSign x neg + fmtMax x
  else match x with
    | .e4m3 => 0x7F
    | .e2m3 | .e3m2 | .e2m1 => fmtSign x neg + fmtMax x
    | _ => fmtSign x neg + (2 ^ (fmtLay x).eb - 1) * 2 ^ (fmtLay x).mb

theorem elemRound_eq (x : Fmt) (up : Pick) (satur neg : Bool) (m : Nat) (e : Int) :
    let r := (fmtLay x).round up m e
    let mag := (fmtLay x).pack r.1 r.2.1
    elemRound x up satur neg m e = if fmtMax x < mag then (overflowCode x satur neg, 20)
      else (fmtSign x neg + mag, if r.2.2 then (if mag < 2 ^ (fmtLay x).mb then 24 else 16) else 0) := rfl

/-- One rounding to a format: the code of the rounded value, or what an overflow gives (R120, R121). -/
theorem elemRound_rounds (x : Fmt) (mode : RMode) (satur : Bool) {neg : Bool} {m : Nat} {e : Int} {r : ℝ} (pos : 0 < m)
    (sign : r < 0 ↔ neg = true) (size : |r| = m * (2 : ℝ) ^ e) : ∃ (n : Nat) (q : Int) (c : Nat),
    roundedAt mode (fmtLay x).mb (fmtLay x).qmin r n q ∧
    (n : ℝ) * (2 : ℝ) ^ q = codeMag (fmtLay x).mb c * (2 : ℝ) ^ (fmtLay x).qmin ∧
    (fmtMax x < c → elemRound x (mode.pick neg) satur neg m e = (overflowCode x satur neg, 20)) ∧
    (c ≤ fmtMax x → (elemRound x (mode.pick neg) satur neg m e).1 = fmtSign x neg + c ∧
      ((n : ℝ) * (2 : ℝ) ^ q = |r| → (elemRound x (mode.pick neg) satur neg m e).2 = 0) ∧
      ((n : ℝ) * (2 : ℝ) ^ q ≠ |r| → (elemRound x (mode.pick neg) satur neg m e).2 = if c < 2 ^ (fmtLay x).mb then 24 else 16)) := by
  obtain ⟨rounded, exactly⟩ := roundedAt_round (f := fmtLay x) (mode := mode) (e := e) pos sign (by rw [size]; exact .refl _)
  refine ⟨_, _, _, rounded, roundedAt_code rounded, fun beyond => ?_, fun within => ?_⟩
  · simp only [elemRound_eq, round_place, if_pos beyond]
  · simp only [elemRound_eq, round_place, if_neg (not_lt.2 within)]
    refine ⟨trivial, fun same => ?_, fun differs => ?_⟩
    · rw [exactly.2 same, if_neg Bool.false_ne_true]
    · rw [Bool.eq_true_of_not_eq_false (mt exactly.1 differs), if_pos rfl]

section
variable {f : Fmt} {M E : Nat} {bias : Int} {big : Nat} (narrow : (f, M, E, bias, big) ∈ narrowFloats)
include narrow

theorem narrow_layout : fmtLay f = ⟨M, E, bias⟩ ∧ fmtBits f = M + E + 1 ∧ fmtMax f = big ∧ big < 2 ^ (M + E) ∧ M ≤ 10 ∧ E ≤ 8 ∧
    -149 ≤ 1 - bias - M ∧ 1 - bias - M + M + (big / 2 ^ M : Nat) ≤ 128 := by
  have all : ∀ e ∈ narrowFloats, fmtLay e.1 = ⟨e.2.1, e.2.2.1, e.2.2.2.1⟩ ∧ fmtBits e.1 = e.2.1 + e.2.2.1 + 1 ∧
      fmtMax e.1 = e.2.2.2.2 ∧ e.2.2.2.2 < 2 ^ (e.2.1 + e.2.2.1) ∧ e.2.1 ≤ 10 ∧ e.2.2.1 ≤ 8 ∧ -149 ≤ 1 - e.2.2.2.1 - (e.2.1 : Int) ∧
      1 - e.2.2.2.1 - (e.2.1 : Int) + (e.2.1 : Int) + ((e.2.2.2.2 / 2 ^ e.2.1 : Nat) : Int) ≤ 128 := by decide
  exact all _ narrow

theorem convTo_narrow (rtz sat neg : Bool) (m : Nat) (e : Int) : convTo f rtz sat (.fin neg m e) =
    elemRound f ((if rtz then RMode.rtz else .rne).pick neg) (saturates f sat rtz) neg m e := by
  simp only [narrowFloats, List.mem_cons, List.not_mem_nil, or_false, Prod.mk.injEq] at narrow
  rcases narrow with ⟨rfl, -⟩ | ⟨rfl, -⟩ | ⟨rfl, -⟩ | ⟨rfl, -⟩ | ⟨rfl, -⟩ | ⟨rfl, -⟩ | ⟨rfl, -⟩ <;> rfl

theorem overflowCode_narrow (sat rtz neg : Bool) : overflowCode f (saturates f sat rtz) neg =
    if f = .e4m3 ∧ sat = false ∧ rtz = false then 0x7F
    else (if neg then 2 ^ (M + E) else 0) +
      (if f ∈ [.bf16, .f16, .e5m2] ∧ sat = false ∧ rtz = false then (2 ^ E - 1) * 2 ^ M else big) := by
  have all : ∀ e ∈ narrowFloats, ∀ sat rtz neg, overflowCode e.1 (saturates e.1 sat rtz) neg =
      if e.1 = .e4m3 ∧ sat = false ∧ rtz = false then 0x7F
      else (if neg then 2 ^ (e.2.1 + e.2.2.1) else 0) + (if e.1 ∈ [.bf16, .f16, .e5m2] ∧ sat = false ∧ rtz = false then
        (2 ^ e.2.2.1 - 1) * 2 ^ e.2.1 else e.2.2.2.2) := by decide
  exact all _ narrow sat rtz neg

theorem overflowCode_lt (satur neg : Bool) : overflowCode f satur neg < 2 ^ 32 := by
  have all : ∀ e ∈ narrowFloats, ∀ satur neg, overflowCode e.1 satur neg < 2 ^ 32 := by decide
  exact all _ narrow satur neg

theorem fmtSign_narrow (neg : Bool) (c : Nat) : fmtSign f neg + c = withSign (2 ^ (M + E)) neg c := by
  rw [fmtSign, (narrow_layout narrow).2.1, Nat.add_sub_cancel, withSign]

/-- The largest finite value. -/
theorem top_eq {top : ℝ} (h : codeIs M E bias big top) : top = codeMag M big * (2 : ℝ) ^ (1 - bias - M) := by
  obtain ⟨-, -, -, lt, -⟩ := narrow_layout narrow
  have plain : big = withSign (2 ^ (M + E)) false big := (Nat.zero_add big).symm
  rw [plain, codeIs_withSign lt] at h
  exact h

/-- The codes up to the largest finite one are read by the element rule (R111, R112). -/
theorem fmtVal_narrow {code : Nat} (finite : code % 2 ^ (M + E) ≤ big) : fmtVal f code = (fmtLay f).elem (code % 2 ^ (M + E + 1)) := by
  have low : code % 2 ^ (M + E + 1) % 2 ^ (M + E) = code % 2 ^ (M + E) := Nat.mod_mod_of_dvd _ (Nat.pow_dvd_pow 2 (Nat.le_succ _))
  simp only [narrowFloats, List.mem_cons, List.not_mem_nil, or_false, Prod.mk.injEq] at narrow
  rcases narrow with ⟨rfl, rfl, rfl, -, rfl⟩ | ⟨rfl, rfl, rfl, -, rfl⟩ | ⟨rfl, rfl, rfl, -, rfl⟩ | ⟨rfl, rfl, rfl, -, rfl⟩ |
    ⟨rfl, rfl, rfl, -⟩ | ⟨rfl, rfl, rfl, -⟩ | ⟨rfl, rfl, rfl, -⟩
  · exact ieee_finite (f := layBF16) (by change code % 2 ^ 16 / 2 ^ 7 % 2 ^ 8 ≠ 255; omega)
  · exact ieee_finite (f := layF16) (by change code % 2 ^ 16 / 2 ^ 10 % 2 ^ 5 ≠ 31; omega)
  · exact if_neg (by change ¬ code % 2 ^ 8 % 2 ^ 7 = 127; omega)
  · exact (if_neg (by change ¬ code % 2 ^ 8 % 2 ^ 7 = 124; omega)).trans (if_neg (by change ¬ 124 < code % 2 ^ 8 % 2 ^ 7; omega))
  · rfl
  · rfl
  · rfl

/-- A finite value that is not zero, rounded once to the format (R120, R121). -/
theorem narrow_rounds (sat rtz : Bool) {a : Word} {x top : ℝ} (is : f32Is a x) (ne : x ≠ 0) (greatest : codeIs M E bias big top) :
    ∃ (n : Nat) (q : Int), roundedAt (if rtz then .rtz else .rne) M (1 - bias - M) x n q ∧
      ((n : ℝ) * (2 : ℝ) ^ q ≤ top → ∃ c ≤ big, (n : ℝ) * (2 : ℝ) ^ q = codeMag M c * (2 : ℝ) ^ (1 - bias - M) ∧
        (cvtValue false sat rtz f a).1.toNat = withSign (2 ^ (M + E)) (x < 0) c ∧
        ((n : ℝ) * (2 : ℝ) ^ q = |x| → (cvtValue false sat rtz f a).2 = 0) ∧
        ((n : ℝ) * (2 : ℝ) ^ q ≠ |x| → (cvtValue false sat rtz f a).2 = if c < 2 ^ M then 24 else 16)) ∧
      (top < (n : ℝ) * (2 : ℝ) ^ q → (cvtValue false sat rtz f a).2 = 20 ∧
        (cvtValue false sat rtz f a).1.toNat = overflowCode f (saturates f sat rtz) (x < 0)) := by
  obtain ⟨layout, -, largest, lt, few, fewE, -⟩ := narrow_layout narrow
  obtain ⟨m, e, pos, -, -, value, size, sign, -⟩ := f32_fin is ne
  obtain ⟨n, q, c, rounded, code, beyond, within⟩ :=
    elemRound_rounds f (if rtz then .rtz else .rne) (saturates f sat rtz) pos sign size
  have order : (n : ℝ) * (2 : ℝ) ^ q ≤ top ↔ c ≤ big := by
    rw [code, top_eq narrow greatest, layout, ← not_lt, ← not_lt]
    exact not_congr codeMag_mul_lt
  rw [largest] at beyond within
  rw [cvtValue_to, value, convTo_narrow narrow, show decide (x < 0) = a.getLsbD 31 from Bool.eq_iff_iff.2 (decide_eq_true_iff.trans sign)]
  generalize elemRound f _ _ _ m e = r at beyond within
  rw [layout] at rounded code within
  refine ⟨n, q, rounded, fun le => ?_, fun lt => ?_⟩
  · obtain ⟨result, quiet, raised⟩ := within (order.1 le)
    refine ⟨c, order.1 le, code, ?_, quiet, raised⟩
    have short := withSign_lt (a.getLsbD 31) ((order.1 le).trans_lt lt)
    have widths : 2 * 2 ^ (M + E) ≤ 2 ^ 32 := by
      rw [← Nat.pow_succ']
      exact Nat.pow_le_pow_right two_pos (by omega)
    rw [BitVec.toNat_ofNat, result, fmtSign_narrow narrow, Nat.mod_eq_of_lt (short.trans_le widths)]
  · rw [beyond (lt_of_not_ge (mt order.2 (not_le.2 lt)))]
    exact ⟨rfl, Nat.mod_eq_of_lt (overflowCode_lt narrow ..)⟩

/-- A finite code widens to F32 as it is (R126). -/
theorem narrow_widens (sat rtz : Bool) {a : Word} {x : ℝ} (finite : a.toNat % 2 ^ (M + E) ≤ big)
    (is : codeIs M E bias (a.toNat % (2 * 2 ^ (M + E))) x) :
    f32Is (cvtValue true sat rtz f a).1 x ∧ (cvtValue true sat rtz f a).2 = 0 ∧
      ((cvtValue true sat rtz f a).1.getLsbD 31 = true ↔ 2 ^ (M + E) ≤ a.toNat % (2 * 2 ^ (M + E))) := by
  obtain ⟨layout, -, -, -, few, -, least, top⟩ := narrow_layout narrow
  have value := fmtVal_narrow narrow finite
  rw [codeIs_iff] at is
  rw [Nat.mod_mod_of_dvd _ (Nat.dvd_mul_left ..)] at is
  rw [Nat.pow_succ', layout] at value
  have lt : a.toNat % (2 * 2 ^ (M + E)) < 2 * 2 ^ (M + E) := Nat.mod_lt _ (by positivity)
  rw [cvtValue_from, ← high_bit lt, is]
  rcases elem_cases ⟨M, E, bias⟩ (a.toNat % (2 * 2 ^ (M + E))) with ⟨zero, elem⟩ | ⟨m, i, pos, short, mag, elem⟩
  · rw [Nat.mod_mod_of_dvd _ (Nat.dvd_mul_left ..)] at zero
    obtain ⟨word, sign⟩ := f32Is_zero (decide (a.toNat % (2 * 2 ^ (M + E)) / 2 ^ (M + E) % 2 = 1))
    rw [convFrom_zero (value.trans elem), zero, Nat.cast_zero, zero_mul, signed_zero, sign, decide_eq_true_iff]
    exact ⟨word, rfl, Iff.rfl⟩
  · rw [Nat.mod_mod_of_dvd _ (Nat.dvd_mul_left ..)] at mag
    change codeMag M _ = _ at mag
    change fmtVal f a.toNat = _ at value
    have same : (m : ℝ) * (2 : ℝ) ^ (1 - bias - M + i) = codeMag M (a.toNat % 2 ^ (M + E)) * (2 : ℝ) ^ (1 - bias - M) := by
      rw [mag, zpow_add₀ two_ne_zero, zpow_natCast]
      push_cast
      ring
    have bound : (m : ℝ) * (2 : ℝ) ^ (1 - bias - M + i) < (2 : ℝ) ^ (128 : Int) := by
      rw [same]
      refine lt_of_lt_of_le ?_ (zpow_le_zpow_right₀ one_le_two top)
      rw [two_zpow_eq_codeMag, codeMag_mul_lt]
      have := Nat.div_add_mod' big (2 ^ M)
      have := Nat.mod_lt big (Nat.two_pow_pos M)
      omega
    obtain ⟨word, sign, quiet⟩ := convFrom_exact (value.trans elem) pos
      (short.trans_le (Nat.pow_le_pow_right two_pos (by change M + 1 ≤ 24; omega))) (by change -149 ≤ 1 - bias - M + i; omega) bound
    rw [← same, sign, decide_eq_true_iff]
    exact ⟨word, quiet, Iff.rfl⟩

end

theorem conversions_round : conversionsRound := by
  rintro ⟨f, M, E, bias, big⟩ narrow sat rtz a x top
  dsimp only
  intro greatest
  obtain ⟨-, -, -, lt, -⟩ := narrow_layout narrow
  refine ⟨fun is ne => ?_, narrow_widens narrow sat rtz⟩
  obtain ⟨n, q, rounded, within, beyond⟩ := narrow_rounds narrow sat rtz is ne greatest
  refine ⟨n, q, rounded, fun le => ?_, fun past => ?_⟩
  · obtain ⟨c, small, code, word, quiet, raised⟩ := within le
    have short := small.trans_lt lt
    have normal : (2 : ℝ) ^ (1 - bias) = codeMag M (2 ^ M) * (2 : ℝ) ^ (1 - bias - M) := by
      simpa using two_zpow_eq_codeMag M 0 (1 - bias - M)
    rw [word, codeIs_withSign short, sign_mul (neg := decide (x < 0)) (by simp), withSign_mod _ short, le_withSign _ short, normal]
    refine ⟨by rw [code], withSign_lt _ short, small, decide_eq_true_iff, quiet, fun differs => ?_⟩
    rw [raised differs, code, codeMag_mul_lt, ← not_lt, codeMag_mul_lt]
    exact ⟨fun sub => if_pos sub, fun large => if_neg large⟩
  · obtain ⟨flags, word⟩ := beyond past
    rw [word, overflowCode_narrow narrow]
    exact ⟨flags, by simp only [decide_eq_true_iff]⟩

end Sys2Proof.Machine
end

section
/-! `cvt` to and from the integer formats and E8M0, and its special inputs (R113, R114, R122, R124 to R126). -/

namespace Sys2Proof.Machine

/-! ### Integers -/

section
variable {f : Fmt} {w : Nat} {lo hi : Int} (integer : (f, w, lo, hi) ∈ integerFormats)
include integer

theorem integer_width : (w = 8 ∨ w = 32 ∧ (f = .s32 ∨ f = .n32)) ∧ lo ≤ hi := by
  have all : ∀ e ∈ integerFormats, (e.2.1 = 8 ∨ e.2.1 = 32 ∧ (e.1 = .s32 ∨ e.1 = .n32)) ∧ e.2.2.1 ≤ e.2.2.2 := by decide
  exact all _ integer

theorem convTo_integer (rtz sat neg : Bool) (m : Nat) (e : Int) : convTo f rtz sat (.fin neg m e) =
    clampInt (if neg then -((toInteger (if rtz then .rtz else .rne) neg m e).1 : Int)
      else (toInteger (if rtz then .rtz else .rne) neg m e).1) lo hi (toInteger (if rtz then .rtz else .rne) neg m e).2 w := by
  simp only [integerFormats, List.mem_cons, List.not_mem_nil, or_false, Prod.mk.injEq] at integer
  rcases integer with ⟨rfl, rfl, rfl, rfl⟩ | ⟨rfl, rfl, rfl, rfl⟩ | ⟨rfl, rfl, rfl, rfl⟩ | ⟨rfl, rfl, rfl, rfl⟩ <;> rfl

/-- The bits of a register that hold an integer (R113). -/
theorem fmtVal_integer (code : Nat) : fmtVal f code =
    intVal (if hi < (code % 2 ^ w : Nat) then ((code % 2 ^ w : Nat) : Int) - 2 ^ w else (code % 2 ^ w : Nat)) 0 := by
  simp only [integerFormats, List.mem_cons, List.not_mem_nil, or_false, Prod.mk.injEq] at integer
  rcases integer with ⟨rfl, rfl, rfl, rfl⟩ | ⟨rfl, rfl, rfl, rfl⟩ | ⟨rfl, rfl, rfl, rfl⟩ | ⟨rfl, rfl, rfl, rfl⟩
  · change intVal (BitVec.ofNat 32 (code % 2 ^ 32)).toInt 0 = _
    rw [BitVec.toInt_eq_toNat_cond, BitVec.toNat_ofNat]
    congr 1
    split <;> split <;> omega
  · change intVal (code % 2 ^ 32 : Nat) 0 = _
    congr 1
    split <;> omega
  · change intVal (BitVec.ofNat 8 (code % 2 ^ 8)).toInt 0 = _
    rw [BitVec.toInt_eq_toNat_cond, BitVec.toNat_ofNat]
    congr 1
    split <;> split <;> omega
  · change intVal (code % 2 ^ 8 : Nat) 0 = _
    congr 1
    split <;> omega

end

/-- An integer's low bits, in a register (R113). -/
theorem toNat_ofNat_ofInt {w : Nat} (narrow : w ≤ 32) (k : Int) :
    ((BitVec.ofNat 32 (BitVec.ofInt w k).toNat).toNat : Int) = k % 2 ^ w := by
  have lt : (BitVec.ofInt w k).toNat < 2 ^ 32 := (BitVec.isLt _).trans_le (Nat.pow_le_pow_right two_pos narrow)
  rw [BitVec.toNat_ofNat, Nat.mod_eq_of_lt lt, BitVec.toNat_ofInt, Int.toNat_of_nonneg (Int.emod_nonneg _ (by positivity))]
  push_cast
  rfl

theorem integers_round : integersRound := by
  rintro ⟨f, w, lo, hi⟩ integer sat rtz a x is ne
  obtain ⟨m, e, pos, -, -, value, size, sign, -⟩ := f32_fin is ne
  obtain ⟨rounded, exactly⟩ := roundsTo_toInteger (if rtz then .rtz else .rne) (a.getLsbD 31) m e
  obtain ⟨width, range⟩ := integer_width integer
  have narrow : w ≤ 32 := by omega
  refine ⟨_, _, by rw [size, sign]; exact rounded, rfl, ?_⟩
  rw [← size] at exactly
  simp only [cvtValue_to, value, convTo_integer integer]
  generalize toInteger (if rtz then .rtz else .rne) (a.getLsbD 31) m e = r at exactly ⊢
  generalize (if a.getLsbD 31 = true then -(r.1 : Int) else r.1) = k
  refine ⟨fun ge le => ?_, fun lt => ?_, fun gt => ?_⟩
  · rw [clampInt, if_neg (not_lt.2 ge), if_neg (not_lt.2 le)]
    refine ⟨toNat_ofNat_ofInt narrow k, fun same => ?_, fun differs => ?_⟩
    · rw [exactly.2 same]
      rfl
    · rw [Bool.eq_true_of_not_eq_false (mt exactly.1 differs)]
      rfl
  · rw [clampInt, if_pos lt]
    exact ⟨toNat_ofNat_ofInt narrow lo, rfl⟩
  · rw [clampInt, if_neg (not_lt.2 (range.trans gt.le)), if_pos gt]
    exact ⟨toNat_ofNat_ofInt narrow hi, rfl⟩

/-- A whole number of steps that has few bits widens as it is. -/
theorem convFrom_intVal {x : Fmt} {a : Word} {k e : Int} (value : fmtVal x a.toNat = intVal k e) (few : k.natAbs < 2 ^ 24)
    (least : -149 ≤ e) (most : e ≤ 0) :
    f32Is (convFrom x a).1 (k * (2 : ℝ) ^ e) ∧ (convFrom x a).2 = 0 ∧ (k = 0 → (convFrom x a).1 = 0) := by
  rw [intVal] at value
  by_cases zero : k = 0
  · rw [if_pos zero] at value
    rw [convFrom_zero value, zero, Int.cast_zero, zero_mul]
    exact ⟨(f32Is_zero false).1, rfl, fun _ => rfl⟩
  · rw [if_neg zero] at value
    have bound : (k.natAbs : ℝ) * (2 : ℝ) ^ e < (2 : ℝ) ^ (128 : Int) :=
      calc (k.natAbs : ℝ) * (2 : ℝ) ^ e ≤ k.natAbs :=
            mul_le_of_le_one_right (Nat.cast_nonneg _) (zpow_le_one_of_nonpos₀ one_le_two most)
        _ < (2 : ℝ) ^ (128 : Int) := cast_lt_top few
    obtain ⟨word, -, quiet⟩ := convFrom_exact value (Int.natAbs_pos.2 zero) few least bound
    rw [signed_natAbs] at word
    exact ⟨word, quiet, fun h => absurd h zero⟩

theorem integers_widen : integersWiden := by
  rintro ⟨f, w, lo, hi⟩ integer a
  have value := fmtVal_integer integer a.toNat
  dsimp only
  generalize bound : (if hi < ((a.toNat % 2 ^ w : Nat) : Int) then ((a.toNat % 2 ^ w : Nat) : Int) - 2 ^ w
    else ((a.toNat % 2 ^ w : Nat) : Int)) = k at value ⊢
  have few (octet : w = 8) : k.natAbs < 2 ^ 24 := by
    subst octet
    split at bound <;> omega
  rw [cvtValue_from]
  refine ⟨fun zero => ?_, fun ne => ?_, fun octet => ?_⟩
  · rw [intVal, if_pos zero] at value
    exact convFrom_zero value
  · rw [intVal, if_neg ne] at value
    have rounded := roundedF32_rndF32 .rne (k < 0) 0 (Int.natAbs_pos.2 ne)
    rw [signed_natAbs, zpow_zero, mul_one] at rounded
    have flags : (if f = .s32 ∨ f = .n32 then (rndF32 .rne (k < 0) k.natAbs 0).2 else 0) = (rndF32 .rne (k < 0) k.natAbs 0).2 := by
      rcases (integer_width integer).1 with octet | ⟨-, full⟩
      · rw [(rndF32_exact .rne (k < 0) (e := 0) (Int.natAbs_pos.2 ne) rfl (few octet) (by omega)
          (by rw [zpow_zero, mul_one]; exact cast_lt_top (few octet))).2.2, ite_self]
      · rw [if_pos full]
    rwa [convFrom_fin value, flags]
  · obtain ⟨word, quiet, -⟩ := convFrom_intVal value (few octet) (by omega) le_rfl
    rw [zpow_zero, mul_one] at word
    exact ⟨word, quiet⟩

/-! ### E8M0 -/

theorem e8m0_rounds : e8m0Rounds := by
  refine ⟨fun sat rtz a x k is low high => ?_, fun a finite => ?_⟩
  · have ne : x ≠ 0 := abs_pos.1 ((zpow_pos two_pos k).trans_le low)
    obtain ⟨m, e, pos, -, -, value, size, -, top⟩ := f32_fin is ne
    rw [size] at low high ⊢
    have place := binade pos low high
    have below : k < 128 := (zpow_lt_zpow_iff_right₀ one_lt_two).1 (low.trans_lt top)
    have power := power_iff pos e
    have exponent : (bitLen m : Int) - 1 + e + 127 = k + 127 := by omega
    rw [← place] at power
    simp only [cvtValue_to, value, convTo, e8m0Round, exponent]
    refine ⟨fun small => ?_, fun large => ?_⟩
    · rw [if_pos (by omega)]
      rfl
    · rw [if_neg (by omega), if_neg (by omega)]
      refine ⟨?_, fun same => if_pos (by simpa using power.1 same), fun differs => if_neg (by simpa using mt power.2 differs)⟩
      rw [BitVec.toNat_ofNat, Nat.mod_eq_of_lt (by omega), Int.toNat_of_nonneg (by omega)]
  · have value : fmtVal .e8m0 a.toNat = .fin false 1 ((a.toNat % 256 : Nat) - 127 : Int) := if_neg finite
    have small := Nat.mod_lt a.toNat (by omega : 0 < 256)
    obtain ⟨word, -, quiet⟩ := convFrom_exact value one_pos (by norm_num) (by omega) (by
      rw [Nat.cast_one, one_mul]
      exact (zpow_lt_zpow_iff_right₀ one_lt_two).2 (by omega))
    rw [Nat.cast_one, one_mul] at word
    exact ⟨word, quiet⟩

end Sys2Proof.Machine
end

section
/-! The special inputs of `cvt` (R122, R126). -/

namespace Sys2Proof.Machine

/-- R122: zeros and infinities. -/
theorem cvtValue_special : ∀ e ∈ specialConversions, ∀ sat rtz : Bool,
    let (f, z, i, j, _, _) := e
    let inf := if sat then j else i
    let r := cvtValue false sat rtz f
    r 0 = (BitVec.ofNat 32 z.1, z.2.2) ∧ r 0x80000000 = (BitVec.ofNat 32 z.2.1, z.2.2) ∧
    r 0x7F800000 = (BitVec.ofNat 32 inf.1, inf.2.2) ∧ r 0xFF800000 = (BitVec.ofNat 32 inf.2.1, inf.2.2) := by decide +kernel

/-- R122: NaNs. -/
theorem convTo_nan : ∀ e ∈ specialConversions, ∀ sat rtz s : Bool,
    let (f, _, _, _, n, q) := e
    convTo f rtz sat (.nan s) = (n, if s then 1 else q) := by decide

/-- The widened codes of infinities and NaNs (R126). -/
theorem convFrom_inf {x : Fmt} {a : Word} {neg : Bool} (value : fmtVal x a.toNat = .inf neg) : convFrom x a = (f32Inf neg, 0) := by
  unfold convFrom
  rw [value]
  cases x <;> rfl

theorem convFrom_nan {x : Fmt} {a : Word} {s : Bool} (value : fmtVal x a.toNat = .nan s) :
    convFrom x a = (canonNaN, if (x = .bf16 ∨ x = .f16) ∧ s = true then 1 else 0) := by
  unfold convFrom
  rw [value]
  cases x <;> cases s <;> rfl

/-- The codes past the finite ones of the formats with infinities (R111, R112). -/
theorem fmtVal_special {f : Fmt} {M E : Nat} {code : Nat} (wide : (f, M, E) ∈ [(Fmt.bf16, 7, 8), (.f16, 10, 5), (.e5m2, 2, 5)])
    (ones : code / 2 ^ M % 2 ^ E = 2 ^ E - 1) : fmtVal f code = if code % 2 ^ M = 0 then .inf (code.testBit (M + E))
      else .nan (decide (f ≠ .e5m2) && !code.testBit (M - 1)) := by
  simp only [List.mem_cons, List.not_mem_nil, or_false, Prod.mk.injEq] at wide
  have ieee (f : FLay) (wide : 0 < f.mb) (ones : code / 2 ^ f.mb % 2 ^ f.eb = 2 ^ f.eb - 1) :
      f.ieee (code % 2 ^ (f.mb + f.eb + 1)) =
        if code % 2 ^ f.mb = 0 then .inf (code.testBit (f.mb + f.eb)) else .nan (!code.testBit (f.mb - 1)) := by
    have exponent : code % 2 ^ (f.mb + f.eb + 1) / 2 ^ f.mb % 2 ^ f.eb = code / 2 ^ f.mb % 2 ^ f.eb := by
      rw [Nat.add_assoc, Nat.pow_add, Nat.mod_mul_right_div_self, Nat.mod_mod_of_dvd _ (Nat.pow_dvd_pow 2 (Nat.le_succ _))]
    rw [ieee_special wide (exponent.trans ones), Nat.mod_mod_of_dvd _ (Nat.pow_dvd_pow 2 (by omega)), Nat.testBit_mod_two_pow,
      Nat.testBit_mod_two_pow, decide_eq_true (by omega), decide_eq_true (by omega), Bool.true_and, Bool.true_and]
  rcases wide with ⟨rfl, rfl, rfl⟩ | ⟨rfl, rfl, rfl⟩ | ⟨rfl, rfl, rfl⟩
  · exact ieee layBF16 (by decide) ones
  · exact ieee layF16 (by decide) ones
  · rw [← testBit_eq]
    have sign : code % 2 ^ 8 ≥ 128 ↔ code / 2 ^ (2 + 5) % 2 = 1 := by omega
    have infinite : code % 2 ^ 8 % 128 = 0x7C ↔ code % 2 ^ 2 = 0 := by omega
    have past (fraction : ¬ code % 2 ^ 2 = 0) : 0x7C < code % 2 ^ 8 % 128 := by omega
    change (if code % 2 ^ 8 % 128 = 0x7C then Val.inf (code % 2 ^ 8 ≥ 128)
      else if 0x7C < code % 2 ^ 8 % 128 then .nan false else layE5M2.elem (code % 2 ^ 8)) = _
    by_cases fraction : code % 2 ^ 2 = 0
    · simp only [sign, infinite, if_pos fraction]
    · rw [if_neg (mt infinite.1 fraction), if_pos (past fraction), if_neg fraction]
      rfl

theorem conversions_special : conversionsSpecial := by
  refine ⟨fun e mem sat rtz a => ?_, fun f M E a wide ones => ?_, fun a => ⟨fun nan => ?_, fun nan => ?_⟩⟩
  · obtain ⟨f, z, i, j, n, q⟩ := e
    obtain ⟨pz, nz, pi, ni⟩ := cvtValue_special _ mem sat rtz
    refine ⟨pz, nz, pi, ni, fun nan => ?_⟩
    rw [cvtValue_to, f32_of_nanWord nan, convTo_nan _ mem]
  · have value := fmtVal_special wide ones
    have formats : ∀ e ∈ [(Fmt.bf16, 7, 8), (.f16, 10, 5), (.e5m2, 2, 5)], e.1 = .bf16 ∨ e.1 = .f16 ↔ e.1 ≠ .e5m2 := by decide
    have signals := formats _ wide
    rw [cvtValue_from, BitVec.getLsbD, BitVec.getLsbD]
    by_cases fraction : a.toNat % 2 ^ M = 0
    · rw [if_pos fraction] at value ⊢
      rw [convFrom_inf value]
      cases a.toNat.testBit (M + E) <;> rfl
    · rw [if_neg fraction] at value ⊢
      rw [convFrom_nan value]
      simp only [signals, Bool.and_eq_true, decide_eq_true_iff, Bool.not_eq_true', ← and_assoc, and_self]
      rfl
  · exact convFrom_nan (s := false) (if_pos (by change a.toNat % 256 % 128 = 127; omega))
  · exact convFrom_nan (s := false) (if_pos nan)

end Sys2Proof.Machine
end

section
/-! `cvt` to and from TS8 (R115, R116, R123). -/

namespace Sys2Proof.Machine

/-! ### Codes and values -/

/-- The statement's value of a code is the model's. -/
theorem ts8Units_eq (c : Nat) : ts8Units c = ts8Of c := by
  have term (s e : Nat) : ts8Term (s % 2 = 1) e = if e = 7 then 0 else (if s % 2 = 1 then -1 else 1) * 2 ^ (6 - e) := by
    by_cases h : s % 2 = 1 <;> simp [ts8Term, h]
  have split : c / 128 = c / 16 / 8 := by omega
  rw [ts8Units, split, term, term, ts8Of]

/-- A magnitude in units of 2⁻⁶ under a sign. -/
def ts8Signed (neg : Bool) (r : Nat) : Int := if neg then -(r : Int) else r

theorem ts8Of_natAbs_mem : ∀ c < 256, (ts8Of c).natAbs ∈ ts8Mags := by decide +kernel

theorem ts8Mags_sorted : ts8Mags.Pairwise (· < ·) := by decide

theorem ts8Mags_le : ∀ r ∈ ts8Mags, r ≤ 128 := by decide

/-- The code written for a value is the canonical one, and stands for it (R116). -/
theorem ts8Code_spec : ∀ r ∈ ts8Mags, ∀ neg, ts8Of (ts8Code (ts8Signed neg r)) = ts8Signed neg r ∧
    ts8Canonical (ts8Code (ts8Signed neg r)) := by
  unfold ts8Canonical
  decide +kernel

/-! ### The neighbours of a magnitude -/

/-- The last member of a rising list is its greatest. -/
theorem le_getLastD {l : List Nat} (rising : l.Pairwise (· < ·)) {a : Nat} (mem : a ∈ l) (d : Nat) : l.getLastD d ∈ l ∧ a ≤ l.getLastD d := by
  have ne : l ≠ [] := List.ne_nil_of_mem mem
  rw [List.getLastD_eq_getLast?, List.getLast?_eq_getLast_of_ne_nil ne, Option.getD_some]
  refine ⟨List.getLast_mem ne, ?_⟩
  have split := List.dropLast_append_getLast ne
  rw [← split, List.pairwise_append] at rising
  rw [← split, List.mem_append, List.mem_singleton] at mem
  exact mem.elim (fun h => (rising.2.2 a h _ (List.mem_singleton_self _)).le) le_of_eq

/-- The first member of a rising list with a property is the least. -/
theorem find_least {l : List Nat} (rising : l.Pairwise (· < ·)) {p : Nat → Bool} {a : Nat} (mem : a ∈ l) (holds : p a = true) (d : Nat) :
    (l.find? p).getD d ∈ l ∧ p ((l.find? p).getD d) = true ∧ (l.find? p).getD d ≤ a := by
  obtain ⟨x, found⟩ := Option.isSome_iff_exists.1 (List.find?_isSome.2 ⟨a, mem, holds⟩)
  rw [found, Option.getD_some]
  refine ⟨List.mem_of_find?_eq_some found, List.find?_some found, ?_⟩
  obtain ⟨-, pre, post, rfl, before⟩ := List.find?_eq_some_iff_append.1 found
  rw [List.pairwise_append] at rising
  rcases List.mem_append.1 mem with early | late
  · have := before a early
    simp [holds] at this
  · rcases List.mem_cons.1 late with rfl | later
    · exact le_rfl
    · exact (List.rel_of_pairwise_cons rising.2.1 later).le

/-! ### Rounding -/

/-- A magnitude of TS8 that no other lies nearer to than to X, the lesser at a tie (R123). -/
def NearestMag (r : Nat) (X : ℝ) : Prop := ∀ b ∈ ts8Mags, |(r : ℝ) - X| ≤ |(b : ℝ) - X| ∧ (|(b : ℝ) - X| = |(r : ℝ) - X| → r ≤ b)

/-- The greatest magnitude of TS8 up to X. -/
def GreatestMag (r : Nat) (X : ℝ) : Prop := (r : ℝ) ≤ X ∧ ∀ b ∈ ts8Mags, (b : ℝ) ≤ X → b ≤ r

/-- What a magnitude X in units of 2⁻⁶ gives (R123). -/
structure Ts8Rounded (mode : RMode) (X : ℝ) (r flags : Nat) : Prop where
  mem : r ∈ ts8Mags
  saturates : 128 < X → r = 128 ∧ flags = 20
  nearest : X ≤ 128 → mode = .rne → NearestMag r X
  greatest : X ≤ 128 → mode = .rtz → GreatestMag r X
  quiet : X ≤ 128 → (r : ℝ) = X → flags = 0
  raised : X ≤ 128 → (r : ℝ) ≠ X → flags = if X < 1 then 24 else 16

section
variable {lo hi : Nat} {X : ℝ} (high : X < hi) (gap : ∀ b ∈ ts8Mags, b ≤ lo ∨ hi ≤ b)
include high gap

/-- Between two neighbours the lesser is nearest up to the middle. -/
theorem nearestMag_low (low : (lo : ℝ) ≤ X) (near : X - lo ≤ hi - X) : NearestMag lo X := by
  intro b mem
  rw [abs_of_nonpos (sub_nonpos.2 low)]
  rcases gap b mem with below | above
  · have le : (b : ℝ) ≤ lo := Nat.cast_le.2 below
    rw [abs_of_nonpos (by linarith)]
    exact ⟨by linarith, fun tie => by exact_mod_cast (by linarith : (lo : ℝ) ≤ b)⟩
  · have ge : (hi : ℝ) ≤ b := Nat.cast_le.2 above
    rw [abs_of_nonneg (by linarith)]
    exact ⟨by linarith, fun _ => by exact_mod_cast (by linarith : (lo : ℝ) ≤ b)⟩

/-- Past the middle the greater is. -/
theorem nearestMag_high (near : hi - X < X - lo) : NearestMag hi X := by
  intro b mem
  rw [abs_of_nonneg (sub_nonneg.2 high.le)]
  rcases gap b mem with below | above
  · have le : (b : ℝ) ≤ lo := Nat.cast_le.2 below
    rw [abs_of_nonpos (by linarith)]
    exact ⟨by linarith, fun tie => absurd tie (by linarith)⟩
  · have ge : (hi : ℝ) ≤ b := Nat.cast_le.2 above
    rw [abs_of_nonneg (by linarith)]
    exact ⟨by linarith, fun _ => above⟩

end

/-- The units of a magnitude as a quotient of natural numbers. -/
theorem ts8_units (m : Nat) (e : Int) :
    (m : ℝ) * (2 : ℝ) ^ e * 64 * (2 ^ (-(e + 6)).toNat : Nat) = (m * 2 ^ (e + 6).toNat : Nat) := by
  have exponents : e + 6 + ((-(e + 6)).toNat : Int) = ((e + 6).toNat : Int) := by omega
  have powers : (2 : ℝ) ^ e * 64 * 2 ^ (-(e + 6)).toNat = 2 ^ (e + 6).toNat := by
    rw [← zpow_natCast (2 : ℝ) (e + 6).toNat, ← exponents, zpow_add₀ two_ne_zero, zpow_add₀ two_ne_zero, zpow_natCast]
    norm_num
  push_cast
  rw [← powers]
  ring

/-! The model finds the neighbours of X = num / den by comparing multiples of den with num. -/

section
variable {num den : Nat} {X : ℝ} (pos : (0 : ℝ) < den) (units : X * den = num)
include pos units

theorem mul_le_units (a : Nat) : a * den ≤ num ↔ (a : ℝ) ≤ X := by
  rw [← mul_le_mul_iff_of_pos_right pos, units]
  exact_mod_cast Iff.rfl

theorem units_lt_mul (a : Nat) : num < a * den ↔ X < a := by rw [← not_le, mul_le_units pos units, not_le]

theorem mul_eq_units (a : Nat) : a * den = num ↔ (a : ℝ) = X := by
  rw [← mul_left_inj' pos.ne', units]
  exact_mod_cast Iff.rfl

/-- The neighbour below. -/
theorem greatestMag_getLastD : (ts8Mags.filter fun a => a * den ≤ num).getLastD 0 ∈ ts8Mags ∧
    GreatestMag ((ts8Mags.filter fun a => a * den ≤ num).getLastD 0) X := by
  have rising := ts8Mags_sorted.filter fun a => a * den ≤ num
  have zero : 0 ∈ ts8Mags.filter fun a => a * den ≤ num := by simp [ts8Mags]
  obtain ⟨mem, le⟩ := List.mem_filter.1 (le_getLastD rising zero 0).1
  refine ⟨mem, (mul_le_units pos units _).1 (of_decide_eq_true le), fun b mem le => ?_⟩
  exact (le_getLastD rising (List.mem_filter.2 ⟨mem, decide_eq_true ((mul_le_units pos units b).2 le)⟩) 0).2

/-- The neighbour above. -/
theorem find_above (inside : X < (128 : Nat)) : (ts8Mags.find? fun a => num < a * den).getD 128 ∈ ts8Mags ∧
    X < (ts8Mags.find? fun a => num < a * den).getD 128 ∧
    ∀ b ∈ ts8Mags, X < b → (ts8Mags.find? fun a => num < a * den).getD 128 ≤ b := by
  have find {b : Nat} (mem : b ∈ ts8Mags) (gt : X < b) :=
    find_least ts8Mags_sorted (p := fun a => num < a * den) mem (decide_eq_true ((units_lt_mul pos units b).2 gt)) 128
  obtain ⟨mem, holds, -⟩ := find (by decide) inside
  exact ⟨mem, (units_lt_mul pos units _).1 (of_decide_eq_true holds), fun b mem gt => (find mem gt).2.2⟩

/-- The model compares the distances to the neighbours. -/
theorem nearer_iff {lo hi : Nat} (low : (lo : ℝ) ≤ X) (high : X < hi) :
    (hi - lo) * den < 2 * (num - lo * den) ↔ hi - X < X - lo := by
  have order : lo ≤ hi := by exact_mod_cast (low.trans_lt high).le
  rw [← Nat.cast_lt (α := ℝ), Nat.cast_mul, Nat.cast_mul, Nat.cast_sub order, Nat.cast_sub ((mul_le_units pos units lo).2 low), ← units,
    Nat.cast_mul, ← sub_mul, Nat.cast_two, ← mul_assoc, mul_lt_mul_iff_of_pos_right pos]
  constructor <;> intro h <;> linarith

end

/-- The choice between two neighbours is the rounding (R123). -/
theorem ts8Rounded_pick (mode : RMode) (neg : Bool) {num den lo hi : Nat} {X : ℝ} (pos : (0 : ℝ) < den) (units : X * den = num)
    (lo_mem : lo ∈ ts8Mags) (lo_greatest : GreatestMag lo X) (ne : (lo : ℝ) ≠ X) (hi_mem : hi ∈ ts8Mags) (hi_gt : X < hi)
    (hi_least : ∀ b ∈ ts8Mags, X < b → hi ≤ b) (small : ¬ 128 < X) :
    Ts8Rounded mode X (if mode.pick neg false (num - lo * den) ((hi - lo) * den) then hi else lo) (if X < 1 then 24 else 16) := by
  have gap (b : Nat) (mem : b ∈ ts8Mags) : b ≤ lo ∨ hi ≤ b := (le_or_gt (b : ℝ) X).imp (lo_greatest.2 b mem) (hi_least b mem)
  refine ⟨?_, fun h => absurd h small, fun _ rne => ?_, fun _ rtz => ?_, fun _ same => absurd same ?_, fun _ _ => rfl⟩
  · split <;> assumption
  · rw [rne]
    simp only [RMode.pick, Bool.and_false, Bool.or_false, decide_eq_true_iff, nearer_iff pos units lo_greatest.1 hi_gt]
    split
    next near => exact nearestMag_high hi_gt gap near
    next near => exact nearestMag_low hi_gt gap lo_greatest.1 (not_lt.1 near)
  · rw [rtz]
    exact lo_greatest
  · split
    · exact hi_gt.ne'
    · exact ne

/-- A magnitude of TS8 is its own rounding. -/
theorem ts8Rounded_self (mode : RMode) {r : Nat} {X : ℝ} (mem : r ∈ ts8Mags) (greatest : GreatestMag r X) (same : (r : ℝ) = X)
    (small : ¬ 128 < X) : Ts8Rounded mode X r 0 := by
  refine ⟨mem, fun h => absurd h small, fun _ _ b _ => ?_, fun _ _ => greatest, fun _ _ => rfl, fun _ h => absurd same h⟩
  rw [same, sub_self, abs_zero, abs_eq_zero, sub_eq_zero, ← same, Nat.cast_inj]
  exact ⟨abs_nonneg _, Eq.ge⟩

theorem ts8Rounded_saturated (mode : RMode) {X : ℝ} (big : 128 < X) : Ts8Rounded mode X 128 20 := by
  have no {P : Prop} (h : X ≤ 128) : P := absurd h (not_le.2 big)
  exact ⟨by decide, fun _ => ⟨rfl, rfl⟩, no, no, no, no⟩

/-- The model's rounding, by the neighbours of the magnitude. -/
theorem ts8Round_rounded (mode : RMode) (neg : Bool) (m : Nat) (e : Int) : ∃ r flags,
    ts8Round (mode.pick neg) neg m e = (ts8Code (ts8Signed neg r), flags) ∧ Ts8Rounded mode (m * (2 : ℝ) ^ e * 64) r flags := by
  have units := ts8_units m e
  have pos : (0 : ℝ) < (2 ^ (-(e + 6)).toNat : Nat) := Nat.cast_pos.2 (Nat.two_pow_pos _)
  simp only [ts8Round]
  generalize (m : ℝ) * (2 : ℝ) ^ e * 64 = X at *
  generalize 2 ^ (-(e + 6)).toNat = den at *
  generalize m * 2 ^ (e + 6).toNat = num at *
  obtain ⟨lo_mem, lo_greatest⟩ := greatestMag_getLastD pos units
  generalize (ts8Mags.filter fun a => a * den ≤ num).getLastD 0 = lo at *
  have below_one : num < den ↔ X < 1 := by simpa using units_lt_mul pos units 1
  have past : 128 * den < num ↔ 128 < X := by
    rw [← mul_lt_mul_iff_of_pos_right pos, units]
    exact_mod_cast Iff.rfl
  by_cases large : 128 * den < num
  · rw [if_pos large]
    exact ⟨128, 20, rfl, ts8Rounded_saturated mode (past.1 large)⟩
  have small := mt past.2 large
  rw [if_neg large]
  by_cases whole : lo * den = num
  · rw [if_pos whole]
    exact ⟨lo, 0, rfl, ts8Rounded_self mode lo_mem lo_greatest ((mul_eq_units pos units lo).1 whole) small⟩
  have ne : (lo : ℝ) ≠ X := mt (mul_eq_units pos units lo).2 whole
  have inside : X < (128 : Nat) := by
    refine lt_of_not_ge fun above => ne (le_antisymm lo_greatest.1 ((not_lt.1 small).trans ?_))
    exact_mod_cast lo_greatest.2 128 (by decide) above
  obtain ⟨hi_mem, hi_gt, hi_least⟩ := find_above pos units inside
  simp only [if_neg whole, below_one]
  exact ⟨_, _, rfl, ts8Rounded_pick mode neg pos units lo_mem lo_greatest ne hi_mem hi_gt hi_least small⟩

/-! ### The statement -/

/-- A code's value under a sign. -/
theorem ts8Signed_real (neg : Bool) (r : Nat) : (ts8Signed neg r : ℝ) / 64 = signed neg (r / 64) := by
  cases neg <;> simp [ts8Signed, signed, neg_div]

theorem abs_signed_sub (neg : Bool) (y z : ℝ) : |signed neg y - signed neg z| = |y - z| := by
  cases neg
  · rfl
  · rw [signed, if_pos rfl, signed, if_pos rfl, neg_sub_neg, abs_sub_comm]

theorem abs_code (d : Nat) : |(ts8Of d : ℝ) / 64| = ((ts8Of d).natAbs : ℝ) / 64 := by
  rw [abs_div, Nat.cast_natAbs, Int.cast_abs, abs_of_pos (by norm_num : (0 : ℝ) < 64)]

section
variable {neg : Bool} {r : Nat} {X : ℝ} (nonneg : 0 ≤ X)

theorem abs_signed_units (neg : Bool) {X : ℝ} (nonneg : 0 ≤ X) : |signed neg (X / 64)| = X / 64 := by
  rw [abs_signed, abs_of_nonneg (by positivity)]

include nonneg

/-- No value lies nearer to a real than its magnitude does. -/
theorem abs_sub_le_of_code (d : Nat) : |((ts8Of d).natAbs : ℝ) - X| / 64 ≤ |(ts8Of d : ℝ) / 64 - signed neg (X / 64)| := by
  have apart := abs_abs_sub_abs_le ((ts8Of d : ℝ) / 64) (signed neg (X / 64))
  rwa [abs_code, abs_signed_units neg nonneg, ← sub_div, abs_div, abs_of_pos (by norm_num : (0 : ℝ) < 64)] at apart

/-- The nearest magnitude under the sign of a real is its nearest value (R123). -/
theorem nearest_value (near : NearestMag r X) {d : Nat} (lt : d < 256) :
    |signed neg (r / 64) - signed neg (X / 64)| ≤ |(ts8Of d : ℝ) / 64 - signed neg (X / 64)| ∧
    (|(ts8Of d : ℝ) / 64 - signed neg (X / 64)| = |signed neg (r / 64) - signed neg (X / 64)| →
      |signed neg (r / 64)| ≤ |(ts8Of d : ℝ) / 64|) := by
  obtain ⟨least, tie⟩ := near _ (ts8Of_natAbs_mem d lt)
  have far := abs_sub_le_of_code (neg := neg) nonneg d
  rw [abs_signed_sub, ← sub_div, abs_div, abs_of_pos (by norm_num : (0 : ℝ) < 64), abs_signed_units neg (Nat.cast_nonneg r), abs_code]
  refine ⟨(by linarith), fun same => ?_⟩
  have le : (r : ℝ) ≤ (ts8Of d).natAbs := Nat.cast_le.2 (tie (by linarith))
  linarith

/-- The greatest magnitude up to a real's, under its sign, is its value toward zero (R123). -/
theorem greatest_value (greatest : GreatestMag r X) : |signed neg (r / 64)| ≤ X / 64 ∧
    0 ≤ signed neg (r / 64) * signed neg (X / 64) ∧
    ∀ d < 256, |(ts8Of d : ℝ) / 64| ≤ X / 64 → |(ts8Of d : ℝ) / 64| ≤ |signed neg (r / 64)| := by
  rw [abs_signed_units neg (Nat.cast_nonneg r), signed_mul, bne_self_eq_false]
  refine ⟨by linarith [greatest.1], mul_nonneg (by positivity) (by positivity), fun d lt le => ?_⟩
  rw [abs_code] at le ⊢
  have within : ((ts8Of d).natAbs : ℝ) ≤ r := Nat.cast_le.2 (greatest.2 _ (ts8Of_natAbs_mem d lt) (by linarith))
  linarith

end

theorem ts8_to (sat rtz : Bool) (a : Word) (x : ℝ) (is : f32Is a x) (ne : x ≠ 0) : ∃ r flags,
    Ts8Rounded (if rtz then .rtz else .rne) (|x| * 64) r flags ∧
    (cvtValue false sat rtz .ts8 a).1.toNat = ts8Code (ts8Signed (x < 0) r) ∧ (cvtValue false sat rtz .ts8 a).2 = flags := by
  obtain ⟨m, e, pos, -, -, value, size, sign, -⟩ := f32_fin is ne
  obtain ⟨r, flags, result, rounded⟩ := ts8Round_rounded (if rtz then .rtz else .rne) (a.getLsbD 31) m e
  have lt : ts8Code (ts8Signed (a.getLsbD 31) r) < 256 := (ts8Code_spec r rounded.mem _).2.1
  rw [size, show decide (x < 0) = a.getLsbD 31 from Bool.eq_iff_iff.2 (decide_eq_true_iff.trans sign), cvtValue_to, value]
  simp only [convTo, result]
  exact ⟨r, flags, rounded, Nat.mod_eq_of_lt (by omega), rfl⟩

theorem ts8_rounds : ts8Rounds := by
  refine ⟨fun sat rtz a x is ne => ?_, fun a => ?_⟩
  · obtain ⟨r, flags, rounded, code, raised⟩ := ts8_to sat rtz a x is ne
    obtain ⟨real, canonical⟩ := ts8Code_spec r rounded.mem (x < 0)
    have sign : x < 0 ↔ decide (x < 0) = true := decide_eq_true_iff.symm
    have value : x = signed (x < 0) (|x| * 64 / 64) := by rw [mul_div_cancel_right₀ _ (by norm_num), signed_abs sign]
    have nonneg : 0 ≤ |x| * 64 := by positivity
    have size : |x| = |x| * 64 / 64 := by ring
    have two : (if x < 0 then (-2 : ℝ) else 2) = signed (x < 0) ((128 : Nat) / 64) := by
      rw [← sign_mul sign]
      split <;> norm_num
    dsimp only
    rw [code, raised, real, ts8Signed_real, two]
    refine ⟨canonical, ?_⟩
    rintro y rfl
    generalize decide (x < 0) = neg at *
    generalize |x| * 64 = X at *
    rw [size]
    rw [value] at *
    have same : signed neg ((r : ℝ) / 64) = signed neg (X / 64) ↔ (r : ℝ) = X := by
      rw [← sub_eq_zero, ← abs_eq_zero, abs_signed_sub, abs_eq_zero, sub_eq_zero, div_left_inj' (by norm_num)]
    have tiny : X / 64 < (2 : ℝ) ^ (-6 : Int) ↔ X < 1 := by
      rw [div_lt_iff₀ (by norm_num)]
      norm_num
    refine ⟨fun large => ?_, fun small => ⟨fun rne d lt z z_eq => ?_, fun toward => ?_, ?_, ?_, ?_⟩⟩
    · obtain ⟨rfl, flags⟩ := rounded.saturates (by linarith)
      exact ⟨rfl, flags⟩
    · rw [z_eq]
      exact nearest_value nonneg (rounded.nearest (by linarith) (by rw [rne]; rfl)) lt
    · obtain ⟨le, along, least⟩ := greatest_value (neg := neg) nonneg (rounded.greatest (by linarith) (if_pos toward))
      refine ⟨le, along, ?_⟩
      rintro d lt z rfl within
      exact least d lt within
    · exact fun h => rounded.quiet (by linarith) (same.1 h)
    · exact fun h sub => (rounded.raised (by linarith) (mt same.2 h)).trans (if_pos (tiny.1 sub))
    · exact fun h norm => (rounded.raised (by linarith) (mt same.2 h)).trans (if_neg (mt tiny.2 (not_lt.2 norm)))
  · have value : fmtVal .ts8 a.toNat = intVal (ts8Of (a.toNat % 256)) (-6) := congrArg (intVal · (-6)) (ts8Units_eq _)
    have few : (ts8Of (a.toNat % 256)).natAbs < 2 ^ 24 :=
      (ts8Mags_le _ (ts8Of_natAbs_mem _ (Nat.mod_lt _ (by omega)))).trans_lt (by norm_num)
    obtain ⟨word, quiet, zero⟩ := convFrom_intVal value few (by omega) (by omega)
    rw [zpow_neg, ← div_eq_mul_inv] at word
    norm_num at word
    exact ⟨word, quiet, zero⟩

end Sys2Proof.Machine
end

section
/-! What a floating-point word does with its values and flags (R133, R134). -/

namespace Sys2Proof.Machine

/-- Raised flags that are enabled trap (R134). -/
theorem flagTrap_raised {t : Team} {c : Cur} {fls : List (Nat × Nat)} {raised : Nat} (all : (fls.map (·.2)).foldl (· ||| ·) 0 = raised)
    (h : raised &&& t.csr.trapen.toNat % 32 ≠ 0) :
    flagTrap t c fls = { c with trap := trapOf c ⟨c.pos, 0x02, BitVec.ofNat 32 (raised + 2 ^ 8 * (raised &&& t.csr.trapen.toNat % 32)), 0,
      c.tlm ((fls.filter fun f => f.2 &&& t.csr.trapen.toNat % 32 ≠ 0).map (·.1))⟩ } := by
  simp only [flagTrap, foldl_flags, all, if_pos h]
  exact Cur.raise_eq ..

/-- A word with a value and flags in each guarded lane, where a raised flag is enabled (R45 to R47, R134). -/
theorem aluWord_raised (nw pn : Bool) (pr : BitVec 3) (d : BitVec 7) (lit : Bool) (cost : Nat)
    (f : Team → Cur → Nat → Word × Nat) (t : Team) (c : Cur) {raised en : Nat} (enabled : t.csr.trapen.toNat % 32 = en)
    (all : raisedBy c (guardA t c pn pr) (fun l => (f t c l).2) = raised) (h : raised &&& en ≠ 0) :
    aluWord nw pn pr d lit cost f t c =
      withValues t { c with trap := trapOf c ⟨c.pos, 0x02, BitVec.ofNat 32 (raised + 2 ^ 8 * (raised &&& en)), 0,
        c.tlm ((c.lanes.filter (guardA t c pn pr)).filter fun l => (f t c l).2 &&& en ≠ 0)⟩ } nw pn pr d lit cost fun l => (f t c l).1 := by
  subst enabled
  have flags : (((c.lanes.filter (guardA t c pn pr)).map fun l => (l, (f t c l).2)).map (·.2)).foldl (· ||| ·) 0 = raised := by
    rw [← all, raisedBy, List.map_map]
    rfl
  simp only [aluWord, filterMap_guarded c.lanes (guardA t c pn pr) (f t c) (fun _ v => v.1),
    filterMap_guarded c.lanes (guardA t c pn pr) (f t c) (fun _ v => v.2), flagTrap_raised flags h, writeD_eq]
  simp only [withValues, afterWord, Cur.shift, Cur.past, List.map_map, List.filter_map, Function.comp_def, List.map_id']
  congr 1
  congr 1
  refine List.map_congr_left fun l _ => ?_
  change _ = if guardA t c pn pr l then (f t c l).1 else dOld t c d l
  split <;> simp_all

/-- A word of values and flags does what R134 says, by its meaning; its values rest neither on what the commit holds so far nor on
a trap. -/
theorem floatDoes_of_aluWord {form : FloatForm} {s : State} {c : Cur} (ev : s.ev = some c)
    (means : exec form.instr s = onCur s (aluWord form.nw form.pn form.pr form.d form.lit form.cost form.gives))
    (apart : ∀ t acts trap, form.gives t { c with acts := acts, trap := trap } = form.gives t c) : floatDoes form s c := by
  refine ⟨fun quiet => ?_, fun raised => ?_⟩
  · rw [means, onCur_some ev, aluWord_quiet _ _ _ _ _ _ _ _ _ quiet]
    dsimp only
    rw [apart _ (c.acts ++ _)]
  · rw [means, onCur_some ev, aluWord_raised _ _ _ _ _ _ _ _ _ rfl rfl raised, Cur.tlm]
    simp only [Bool.or_eq_true, decide_eq_true_iff]
    rw [apart _ _ (trapOf c _)]

end Sys2Proof.Machine

namespace Sys2Proof
open Machine

theorem floatForms_do : ∀ f ∈ floatForms, ∀ (w : FA) (s : State) (c : Cur), s.ev = some c → floatDoes (f w) s c := by
  simp only [floatForms, List.forall_mem_cons]
  exact ⟨fun _ _ _ ev => floatDoes_of_aluWord ev rfl fun _ _ _ => rfl, fun _ _ _ ev => floatDoes_of_aluWord ev rfl fun _ _ _ => rfl,
    fun _ _ _ ev => floatDoes_of_aluWord ev rfl fun _ _ _ => rfl, fun _ _ _ ev => floatDoes_of_aluWord ev rfl fun _ _ _ => rfl,
    fun _ _ _ ev => floatDoes_of_aluWord ev rfl fun _ _ _ => rfl, fun _ _ _ ev => floatDoes_of_aluWord ev rfl fun _ _ _ => rfl, List.forall_mem_nil _⟩

theorem floatUnary_do (w : FU) (op : FunOp) (dir sat rtz : Bool) (x : Fmt) : ∀ f ∈ floatUnary w op dir sat rtz x,
    ∀ (s : State) (c : Cur), s.ev = some c → floatDoes f s c := by
  simp only [floatUnary, List.forall_mem_cons]
  exact ⟨fun _ _ ev => floatDoes_of_aluWord ev rfl fun _ _ _ => rfl, fun _ _ ev => floatDoes_of_aluWord ev rfl fun _ _ _ => rfl, List.forall_mem_nil _⟩

/-- Settles O21: what a word does with its values and flags, then the values, function by function and format by format. -/
theorem floatWords : Obligations.FloatWords :=
  ⟨floatForms_do, floatUnary_do, arithmetic_rounds, functions_round, functions_special, conversions_round, conversions_special,
    ts8_rounds, e8m0_rounds, integers_round, integers_widen⟩

end Sys2Proof
end

section
/-! The order of the values (R138). -/

namespace Sys2Proof.Machine

theorem sumExact_swap (m : Bool) (a : Nat) (e : Int) (n : Bool) (b : Nat) (k : Int) :
    (sumExact n b k (!m) a e).1 = -(sumExact m a e (!n) b k).1 := by
  have flip (neg : Bool) (c : Nat) (i j : Int) : scaleTo (!neg) c i j = -scaleTo neg c i j := by cases neg <;> simp [scaleTo]
  simp only [sumExact, flip, min_comm k e]
  ring

/-- Of two values at most one is below the other. -/
theorem ltVal_asymm {v w : Val} : ltVal v w = true → ltVal w v = false := by
  cases v with
  | nan => cases w <;> simp [ltVal]
  | inf n =>
    cases w with
    | inf n' => cases n <;> cases n' <;> simp [ltVal]
    | nan | zero | fin => cases n <;> simp [ltVal]
  | zero =>
    cases w with
    | inf n => cases n <;> simp [ltVal]
    | nan | zero | fin => simp [ltVal]
  | fin m a e =>
    cases w with
    | inf n => cases n <;> simp [ltVal]
    | nan | zero => simp [ltVal]
    | fin n b k =>
      simp only [ltVal, decide_eq_true_iff, decide_eq_false_iff_not, sumExact_swap m a e n b k]
      omega

section
variable {v w : Val} {m n : Bool} {x y : ℝ}

theorem Val.Is.neg_eq (h : v.Is n x) : v.neg = n := by cases h <;> rfl

/-- Finite values are ordered as the reals they stand for. -/
theorem ltVal_iff (hv : v.Is m x) (hw : w.Is n y) : ltVal v w = true ↔ x < y := by
  cases hv with
  | zero =>
    cases hw with
    | zero => simp [ltVal]
    | fin _ e pos =>
      rw [← neg_neg_iff_pos, ← signed_neg, signed_lt_zero (mul_zpow_pos pos e)]
      rfl
  | fin _ e pos =>
    cases hw with
    | zero => exact (signed_lt_zero (mul_zpow_pos pos e)).symm
    | fin _ k pos' =>
      rw [← sub_neg, sub_eq_add_neg (signed _ _), ← signed_neg, ← sumExact_real, ← lt_div_iff₀ (zpow_pos two_pos _),
        zero_div, Int.cast_lt_zero, ltVal, decide_eq_true_iff]

/-- An infinity is comparable with every finite value. -/
theorem ltVal_inf (s : Bool) (hw : w.Is n y) : ltVal (.inf s) w = s ∧ ltVal w (.inf s) = !s := by
  cases s <;> cases hw <;> exact ⟨rfl, rfl⟩

end

/-- For numbers, not above is below or equal. -/
theorem not_ltVal_eq {v w : Val} (hv : v.isNaN = false) (hw : w.isNaN = false) : (!ltVal w v) = (ltVal v w || eqVal v w) := by
  have asymm := @ltVal_asymm v w
  rw [eqVal, hv, hw]
  cases h : ltVal v w
  · simp
  · simp [asymm h]

end Sys2Proof.Machine
end

section
/-! Floating compares (R134, R138). -/

namespace Sys2Proof.Machine

/-- What signalling operands raise together (R133). -/
theorem snan_or (x y : Val) : snan x ||| snan y = if x = .nan true ∨ y = .nan true then 1 else 0 := by
  unfold snan flNV
  by_cases hx : x = .nan true <;> by_cases hy : y = .nan true <;> simp [hx, hy]

/-- Whether a compare of the values raises NV, where `any` NaN does or a signalling one alone (R138). -/
def raisesNV (any : Bool) (x y : Val) : Bool := if any then x.isNaN || y.isNaN else x = .nan true || y = .nan true

theorem fCmp_eq {ord ord' : Val → Val → Bool} (same : ∀ x y, x.isNaN = false → y.isNaN = false → ord x y = ord' x y) (unord any : Bool)
    (a b : Word) : fCmp ord unord any a b =
      (if (f32 a).isNaN || (f32 b).isNaN then unord else ord' (f32 a) (f32 b), if raisesNV any (f32 a) (f32 b) then 1 else 0) := by
  have quiet (x : Val) (number : x.isNaN = false) : x ≠ .nan true := fun nan => by simp [nan, Val.isNaN] at number
  cases h : (f32 a).isNaN || (f32 b).isNaN
  · obtain ⟨ha, hb⟩ := Bool.or_eq_false_iff.1 h
    simp [fCmp, ha, hb, same, raisesNV, quiet]
  · simp only [fCmp, h, if_true, snan_or, flNV, raisesNV]
    cases any <;> simp

/-- NV is enabled where its bit of TRAPEN is set (R134). -/
theorem nv_and_enabled (w : Word) : 1 &&& w.toNat % 32 = if w.getLsbD 0 then 1 else 0 := by
  rw [BitVec.getLsbD, Nat.testBit_zero, Nat.one_and_eq_mod_two, Nat.mod_mod_of_dvd _ (by decide)]
  rcases Nat.mod_two_eq_zero_or_one w.toNat with h | h <;> simp [h]

/-- Lanes that raise at most NV raise it together where one does. -/
theorem raisedBy_nv (c : Cur) (on nv : Nat → Bool) :
    raisedBy c on (fun l => if nv l then 1 else 0) = if (c.lanes.filter on).any nv then 1 else 0 := by
  have fold (ls : List Nat) (a : Bool) : (ls.map fun l => if nv l then 1 else 0).foldl (· ||| ·) (if a then 1 else 0) =
      if a || ls.any nv then 1 else 0 := by
    induction ls generalizing a with
    | nil => simp
    | cons l ls ih =>
      have step : (if a then 1 else 0) ||| (if nv l then 1 else 0) = if a || nv l then 1 else 0 := by cases a <;> cases nv l <;> rfl
      rw [List.map_cons, List.foldl_cons, step, ih, List.any_cons, Bool.or_assoc]
  exact fold _ false

/-- A word with a truth value and flags in each guarded lane, where a raised flag is enabled (R47, R98, R134). -/
theorem predWord_raised (nw pn : Bool) (pr : BitVec 3) (mode : CMode) (q : BitVec 3) (lit : Bool)
    (f : Team → Cur → Nat → Bool × Nat) (t : Team) (c : Cur) {raised en : Nat} (enabled : t.csr.trapen.toNat % 32 = en)
    (all : raisedBy c (guardA t c pn pr) (fun l => (f t c l).2) = raised) (h : raised &&& en ≠ 0) :
    predWord nw pn pr mode q lit f t c =
      withTruths t { c with trap := trapOf c ⟨c.pos, 0x02, BitVec.ofNat 32 (raised + 2 ^ 8 * (raised &&& en)), 0,
        c.tlm ((c.lanes.filter (guardA t c pn pr)).filter fun l => (f t c l).2 &&& en ≠ 0)⟩ } nw pn pr mode q lit fun l => (f t c l).1 := by
  subst enabled
  have flags : (((c.lanes.filter (guardA t c pn pr)).map fun l => (l, (f t c l).2)).map (·.2)).foldl (· ||| ·) 0 = raised := by
    rw [← all, raisedBy, List.map_map]
    rfl
  simp only [predWord, filterMap_guarded c.lanes (guardA t c pn pr) (f t c) (fun l v => combine mode (predA t c q l) v.1),
    filterMap_guarded c.lanes (guardA t c pn pr) (f t c) (fun _ v => v.2), flagTrap_raised flags h, writeP_eq]
  simp only [withTruths, afterWord, Cur.shift, Cur.past, List.map_map, List.filter_map, Function.comp_def, List.map_id']
  congr 2
  refine List.map_congr_left fun l _ => ?_
  change _ = if (if guardA t c pn pr l then combine mode (predA t c q l) (f t c l).1 else predA t c q l) then (1 : Word) else 0
  split <;> simp_all

theorem Cur.tlm_eq (c : Cur) (ls : List Nat) : c.tlm ls = if c.cls = .lane ∨ c.cls = .mem then maskOf ls else 0 := by
  simp only [Cur.tlm, Bool.or_eq_true, decide_eq_true_iff]

/-- A compare whose flags are NV alone (R98, R134, R138). -/
theorem cmp_nv {w : FC} {t : Team} {c : Cur} {f : Word → Word → Bool × Nat} {truth nv : Nat → Bool}
    (gives : ∀ l, f (srcOp t c w.a l) (srcOp t c w.b l) = (truth l, if nv l then 1 else 0)) :
    let part := c.lanes.filter (guardA t c w.pn w.pr)
    let after (c : Cur) : Cur := withTruths t c w.nw w.pn w.pr w.mode w.q (usesLit [w.a, w.b]) truth
    (part.any nv = false ∨ t.csr.trapen.getLsbD 0 = false →
      cmp w f t c = after { c with acts := c.acts ++ flagActs (if part.any nv then 1 else 0) }) ∧
    (part.any nv = true → t.csr.trapen.getLsbD 0 = true →
      cmp w f t c = after { c with trap := trapOf c ⟨c.pos, 0x02, 0x101, 0, c.tlm (part.filter nv)⟩ }) := by
  intro part after
  have raised : raisedBy c (guardA t c w.pn w.pr) (fun l => (f (srcOp t c w.a l) (srcOp t c w.b l)).2) =
      if part.any nv then 1 else 0 := by
    simp only [gives]
    exact raisedBy_nv ..
  refine ⟨fun quiet => ?_, fun some enabled => ?_⟩
  · rw [cmp, predWord_quiet, raised]
    · simp only [gives, after]
    · rw [raised]
      rcases quiet with none | off
      · rw [none, if_neg Bool.false_ne_true, Nat.zero_and]
      · split
        · rw [nv_and_enabled, off, if_neg Bool.false_ne_true]
        · exact Nat.zero_and _
  · rw [some, if_pos rfl] at raised
    have one : 1 &&& t.csr.trapen.toNat % 32 = 1 := by rw [nv_and_enabled, enabled, if_pos rfl]
    have lanes (l : Nat) : decide ((if nv l then 1 else 0) &&& t.csr.trapen.toNat % 32 ≠ 0) = nv l := by
      cases nv l <;> simp [one]
    rw [cmp, predWord_raised _ _ _ _ _ _ _ _ _ rfl raised (by rw [one]; exact one_ne_zero), one]
    simp only [gives, lanes, after]
    rfl

theorem floatCompares_mean : ∀ e ∈ floatCompares, ∃ ord, (∀ w s, exec (e.1 w) s = onCur s (cmp w (fCmp ord e.2.2.1 e.2.2.2))) ∧
    ∀ x y, x.isNaN = false → y.isNaN = false → ord x y = e.2.1 x y := by
  simp only [floatCompares, List.forall_mem_cons]
  exact ⟨⟨_, fun _ _ => rfl, fun _ _ _ _ => rfl⟩, ⟨_, fun _ _ => rfl, fun _ _ _ _ => rfl⟩, ⟨_, fun _ _ => rfl, fun _ _ => not_ltVal_eq⟩,
    ⟨_, fun _ _ => rfl, fun _ _ _ _ => rfl⟩, List.forall_mem_nil _⟩

end Sys2Proof.Machine

namespace Sys2Proof
open Machine

/-- Settles O22: the compares by their one form, `le` as not above, which for numbers is below or equal. -/
theorem floatCompareWords : Obligations.FloatCompareWords := by
  intro e mem w s c ev t a b nan nv part after
  obtain ⟨ord, means, same⟩ := floatCompares_mean e mem
  obtain ⟨quiet, raised⟩ := cmp_nv (w := w) (nv := nv) fun l => fCmp_eq same e.2.2.1 e.2.2.2 (srcOp t c w.a l) (srcOp t c w.b l)
  rw [means, onCur_some ev]
  refine ⟨fun h => ?_, fun some enabled => ?_⟩
  · rw [quiet h]
  · rw [raised some enabled, Cur.tlm_eq]

end Sys2Proof
end

section
/-! `fmin` and `fmax` (R137). -/

namespace Sys2Proof.Machine

/-- A number is the infinity of its sign or stands for a real (R110). -/
theorem f32_number {a : Word} (number : (f32 a).isNaN = false) :
    (f32 a = .inf (a.getLsbD 31) ∧ a.toNat % 2 ^ 31 = 0x7F800000) ∨ ∃ x, f32Is a x := by
  by_cases exponent : a.toNat / 2 ^ 23 % 256 = 255
  · by_cases fraction : a.toNat % 2 ^ 23 = 0
    · exact .inl ⟨(ieee_special (f := layF32) (by decide) exponent).trans (if_pos fraction), by omega⟩
    · rw [f32_of_nanWord ⟨exponent, fraction⟩] at number
      exact absurd number Bool.noConfusion
  · exact .inr ⟨_, exponent, rfl⟩

/-- A word is its sign and the code below it. -/
theorem word_eq_of_sign_of_code {a b : Word} (sign : a.getLsbD 31 = b.getLsbD 31) (code : a.toNat % 2 ^ 31 = b.toNat % 2 ^ 31) : a = b := by
  apply BitVec.eq_of_toNat_eq
  rw [BitVec.getLsbD, BitVec.getLsbD, ← testBit_eq, ← testBit_eq, decide_eq_decide] at sign
  omega

/-- A real and a sign have one word. -/
theorem f32Is_inj {a b : Word} {x : ℝ} (sign : a.getLsbD 31 = b.getLsbD 31) (ha : f32Is a x) (hb : f32Is b x) : a = b := by
  obtain ⟨-, rfl⟩ := f32Is_iff.1 ha
  obtain ⟨-, same⟩ := f32Is_iff.1 hb
  rw [sign] at same
  refine word_eq_of_sign_of_code sign ((codeMag_strictMono 23).injective (Nat.cast_injective (R := ℝ) ?_))
  have size := congrArg abs same
  rwa [abs_signed, abs_signed, abs_of_nonneg (by positivity), abs_of_nonneg (by positivity),
    mul_left_inj' (zpow_pos two_pos _).ne'] at size

/-- Numbers of one sign, neither below the other, are one word (R137). -/
theorem eq_of_not_ltVal {a b : Word} (ha : (f32 a).isNaN = false) (hb : (f32 b).isNaN = false) (low : ltVal (f32 a) (f32 b) = false)
    (high : ltVal (f32 b) (f32 a) = false) (sign : (f32 a).neg = (f32 b).neg) : a = b := by
  rcases f32_number ha with ⟨infA, codeA⟩ | ⟨x, isA⟩ <;> rcases f32_number hb with ⟨infB, codeB⟩ | ⟨y, isB⟩
  · rw [infA, infB] at sign
    exact word_eq_of_sign_of_code sign (codeA.trans codeB.symm)
  · rw [infA] at low high
    obtain ⟨below, above⟩ := ltVal_inf (a.getLsbD 31) (f32_is isB)
    rw [below] at low
    rw [above, low] at high
    exact Bool.noConfusion high
  · rw [infB] at low high
    obtain ⟨below, above⟩ := ltVal_inf (b.getLsbD 31) (f32_is isA)
    rw [below] at high
    rw [above, high] at low
    exact Bool.noConfusion low
  · have valA := f32_is isA
    have valB := f32_is isB
    rw [valA.neg_eq, valB.neg_eq] at sign
    have same : x = y := le_antisymm
      (not_lt.1 fun lt => Bool.noConfusion (high.symm.trans ((ltVal_iff valB valA).2 lt)))
      (not_lt.1 fun lt => Bool.noConfusion (low.symm.trans ((ltVal_iff valA valB).2 lt)))
    exact f32Is_inj sign isA (same ▸ isB)

section
variable {a b : Word} (isMax : Bool)

theorem fMinMax_flags : (fMinMax isMax a b).2 = if f32 a = .nan true ∨ f32 b = .nan true then 1 else 0 := by
  rw [← snan_or, fMinMax]
  dsimp only
  split_ifs <;> rfl

theorem fMinMax_of_nan (ha : (f32 a).isNaN = true) : (fMinMax isMax a b).1 = if (f32 b).isNaN then canonNaN else b := by
  cases hb : (f32 b).isNaN <;> simp [fMinMax, ha, hb]

theorem fMinMax_of_nan_right (ha : (f32 a).isNaN = false) (hb : (f32 b).isNaN = true) : (fMinMax isMax a b).1 = a := by
  simp [fMinMax, ha, hb]

/-- Of two operands that are one, either is given. -/
theorem fMinMax_self (ha : (f32 a).isNaN = false) : (fMinMax isMax a a).1 = a := by
  simp [fMinMax, ha]

/-- The lesser operand is the least, the greater one the greatest. -/
theorem fMinMax_of_lt (h : ltVal (f32 a) (f32 b) = true) (ha : (f32 a).isNaN = false) (hb : (f32 b).isNaN = false) :
    (fMinMax isMax a b).1 = (if isMax then b else a) ∧ (fMinMax isMax b a).1 = if isMax then b else a := by
  have eq : eqVal (f32 a) (f32 b) = false ∧ eqVal (f32 b) (f32 a) = false := by simp [eqVal, h]
  simp [fMinMax, ha, hb, h, ltVal_asymm h, eq]

/-- Of the two zeros the negative one is the least. -/
theorem fMinMax_of_zeros (ha : f32 a = .zero true) (hb : f32 b = .zero false) :
    (fMinMax isMax a b).1 = (if isMax then b else a) ∧ (fMinMax isMax b a).1 = if isMax then b else a := by
  simp [fMinMax, ha, hb, Val.isNaN, ltVal, eqVal, Val.neg]

end

theorem minMax_rule : minMaxRule := by
  intro isMax a b x y
  refine ⟨fMinMax_flags isMax, fun hx hy => ?_, fun hx hy => ?_, fun hx hy => ?_, fun hx hy lt => (fMinMax_of_lt isMax lt hx hy).1,
    fun hx hy lt => (fMinMax_of_lt isMax lt hy hx).2, fun hx hy => (fMinMax_of_zeros isMax hx hy).1,
    fun hx hy => (fMinMax_of_zeros isMax hy hx).2, fun hx hy low high sign => ?_⟩
  · exact (fMinMax_of_nan isMax hx).trans (if_pos hy)
  · exact (fMinMax_of_nan isMax hx).trans (if_neg (Bool.eq_false_iff.1 hy))
  · exact fMinMax_of_nan_right isMax hx hy
  · obtain rfl : a = b := eq_of_not_ltVal hx hy low high sign
    exact ⟨rfl, fMinMax_self isMax hx⟩

end Sys2Proof.Machine
end

section
/-! The one NaN of the arithmetic words (R133). -/

namespace Sys2Proof.Machine

/-- A word that is the canonical NaN if it is a NaN at all. -/
structure SoleNaN (x : Word) : Prop where
  eq_canonNaN : (f32 x).isNaN = true → x = canonNaN

theorem SoleNaN.canon : SoleNaN canonNaN := ⟨fun _ => rfl⟩

theorem SoleNaN.of_number {x : Word} (number : (f32 x).isNaN = false) : SoleNaN x := ⟨fun nan => Bool.noConfusion (number.symm.trans nan)⟩

/-- A NaN has a code past the infinities' (R110). -/
theorem isNaN_iff {x : Word} : (f32 x).isNaN = true ↔ 0x7F800000 < x.toNat % 2 ^ 31 := by
  refine ⟨fun nan => ?_, fun past => ?_⟩
  · obtain ⟨exponent, fraction⟩ := nanWord_of_isNaN nan
    omega
  · rw [f32_of_nanWord ⟨by omega, by omega⟩]
    rfl

/-- The sign is no part of being a NaN. -/
theorem isNaN_congr {x y : Word} (code : x.toNat % 2 ^ 31 = y.toNat % 2 ^ 31) : (f32 x).isNaN = (f32 y).isNaN :=
  Bool.eq_iff_iff.2 (by rw [isNaN_iff, isNaN_iff, code])

theorem isNaN_abs (x : Word) : (f32 (x &&& 0x7FFFFFFF)).isNaN = (f32 x).isNaN := by
  refine isNaN_congr ?_
  rw [BitVec.toNat_and, show (0x7FFFFFFF : Word).toNat = 2 ^ 31 - 1 from rfl, Nat.and_two_pow_sub_one_eq_mod, Nat.mod_mod]

theorem isNaN_negated (x : Word) : (f32 (x ^^^ 0x80000000)).isNaN = (f32 x).isNaN := by
  refine isNaN_congr ?_
  rw [BitVec.toNat_xor, Nat.xor_mod_two_pow]
  exact Nat.xor_zero _

/-! ### What the functions build -/

theorem SoleNaN.mkF32 (neg : Bool) {mag : Nat} (le : mag ≤ 0x7F800000) : SoleNaN (mkF32 neg mag) := by
  refine .of_number (Bool.eq_false_iff.2 (mt isNaN_iff.1 ?_))
  rw [(toNat_mkF32 (by omega)).1]
  omega

theorem SoleNaN.inf (neg : Bool) : SoleNaN (f32Inf neg) := .mkF32 neg le_rfl

theorem SoleNaN.zero (neg : Bool) : SoleNaN (f32Zero neg) := .mkF32 neg (Nat.zero_le _)

theorem SoleNaN.rndF32 (mode : RMode) (neg : Bool) (m : Nat) (e : Int) : SoleNaN (rndF32 mode neg m e).1 := by
  unfold Machine.rndF32
  split
  · exact .zero neg
  · dsimp only
    split
    · exact .mkF32 neg (by cases mode <;> cases neg <;> decide)
    · exact .mkF32 neg (by omega)

theorem SoleNaN.ite {p : Prop} [Decidable p] {r r' : Word × Nat} (yes : SoleNaN r.1) (no : SoleNaN r'.1) :
    SoleNaN (if p then r else r').1 := by
  split <;> assumption

theorem SoleNaN.rndSticky (mode : RMode) (neg : Bool) (m : Nat) (e : Int) (sticky : Bool) : SoleNaN (rndSticky mode neg m e sticky).1 :=
  .rndF32 ..

theorem SoleNaN.rndVal (mode : RMode) (v : Val) : SoleNaN (rndVal mode v).1 := by
  cases v with
  | nan => exact .canon
  | inf n => exact .inf n
  | zero n => exact .zero n
  | fin n m e => exact .rndF32 mode n m e

theorem SoleNaN.addVals (mode : RMode) (v w : Val) : SoleNaN (addVals mode v w).1 := by
  unfold Machine.addVals
  split
  · exact .ite (.inf _) .canon
  · exact .inf _
  · exact .inf _
  · dsimp only
    split
    · exact .zero _
    · exact .zero _
  · exact .rndF32 ..
  · exact .rndF32 ..
  · exact .ite (.zero _) (.rndF32 ..)
  · exact .canon

theorem SoleNaN.fAdd (mode : RMode) (a b : Word) : SoleNaN (fAdd mode a b).1 := .ite .canon (.addVals ..)

theorem SoleNaN.fSub (mode : RMode) (a b : Word) : SoleNaN (fSub mode a b).1 := .ite .canon (.addVals ..)

theorem SoleNaN.fMul (mode : RMode) (a b : Word) : SoleNaN (fMul mode a b).1 := by
  refine .ite .canon ?_
  split
  · exact .canon
  · exact .rndVal ..

theorem SoleNaN.fFma (mode : RMode) (a b d : Word) : SoleNaN (fFma mode a b d).1 := by
  refine .ite .canon ?_
  split
  · exact .canon
  · exact .ite .canon (.addVals ..)

theorem fMinMax_mem (isMax : Bool) {a b : Word} (ha : (f32 a).isNaN = false) (hb : (f32 b).isNaN = false) :
    (fMinMax isMax a b).1 = a ∨ (fMinMax isMax a b).1 = b := by
  simp only [Machine.fMinMax, ha, hb, Bool.and_self, Bool.false_eq_true, if_false]
  split_ifs <;> simp only [true_or, or_true]

theorem SoleNaN.fMinMax (isMax : Bool) (a b : Word) : SoleNaN (fMinMax isMax a b).1 := by
  cases ha : (f32 a).isNaN with
  | true =>
    rw [fMinMax_of_nan isMax ha]
    cases hb : (f32 b).isNaN with
    | true => exact .canon
    | false => exact .of_number hb
  | false =>
    cases hb : (f32 b).isNaN with
    | true =>
      rw [fMinMax_of_nan_right isMax ha hb]
      exact .of_number ha
    | false =>
      rcases fMinMax_mem isMax ha hb with given | given <;> rw [given]
      · exact .of_number ha
      · exact .of_number hb

/-! ### `fun` -/

theorem SoleNaN.exp2Fin (mode : RMode) (neg : Bool) (m : Nat) (e : Int) : SoleNaN (exp2Fin mode neg m e).1 :=
  .ite (.ite (.rndF32 ..) (.rndF32 ..)) (.ite (.rndF32 ..) (.rndSticky ..))

theorem SoleNaN.log2Fin (mode : RMode) (m : Nat) (e : Int) : SoleNaN (log2Fin mode m e).1 :=
  .ite (.ite (.zero _) (.rndF32 ..)) (.ite (.rndSticky ..) (.rndSticky ..))

theorem SoleNaN.fInteger (mode : RMode) (nx neg : Bool) (m : Nat) (e : Int) : SoleNaN (fInteger mode nx neg m e).1 := by
  unfold Machine.fInteger
  dsimp only
  split
  · exact .zero neg
  · exact .rndF32 ..

theorem fFun_of_nan {op : FunOp} {mode : RMode} {a : Word} (nan : (f32 a).isNaN = true) : (fFun op mode a).1 = canonNaN := by
  rw [fFun, f32_of_nanWord (nanWord_of_isNaN nan)]

/-- The rows of `fun` for numbers (R139, R140). -/
theorem SoleNaN.fFun (op : FunOp) (mode : RMode) (a : Word) : SoleNaN (fFun op mode a).1 := by
  cases nan : (f32 a).isNaN with
  | true =>
    rw [fFun_of_nan nan]
    exact .canon
  | false =>
    have kept : SoleNaN a := .of_number nan
    have abs : SoleNaN (a &&& 0x7FFFFFFF) := .of_number ((isNaN_abs a).trans nan)
    have neg : SoleNaN (a ^^^ 0x80000000) := .of_number ((isNaN_negated a).trans nan)
    unfold Machine.fFun
    cases value : f32 a with
    | nan => exact .canon
    | zero n =>
      cases op with
      | abs => exact abs
      | neg => exact neg
      | rcp | rsq => exact .inf n
      | sqrt => exact .zero n
      | exp2 => exact .rndF32 ..
      | log2 => exact .inf true
      | floor | ceil | trunc | rint | frac => exact kept
    | inf n =>
      cases op with
      | abs => exact abs
      | neg => exact neg
      | rcp => exact .zero n
      | rsq =>
        cases n
        · exact .zero false
        · exact .canon
      | sqrt | log2 =>
        cases n
        · exact .inf false
        · exact .canon
      | exp2 =>
        cases n
        · exact .inf false
        · exact .zero false
      | floor | ceil | trunc | rint => exact kept
      | frac => exact .canon
    | fin n m e =>
      cases op with
      | abs => exact abs
      | neg => exact neg
      | rcp => exact .rndSticky ..
      | rsq | sqrt => exact .ite .canon (.rndSticky ..)
      | exp2 => exact .exp2Fin ..
      | log2 => exact .ite .canon (.log2Fin ..)
      | floor | ceil | trunc | rint => exact .fInteger ..
      | frac => exact .ite (.zero n) (.ite (.zero n) (.rndF32 ..))

/-- A NaN operand of the words of R136 gives the canonical one. -/
theorem arithmetic_of_nan (mode : RMode) {a b : Word} (d : Word) (nan : ((f32 a).isNaN || (f32 b).isNaN) = true) :
    (fAdd mode a b).1 = canonNaN ∧ (fSub mode a b).1 = canonNaN ∧ (fMul mode a b).1 = canonNaN ∧ (fFma mode a b d).1 = canonNaN := by
  simp only [Machine.fAdd, Machine.fSub, Machine.fMul, Machine.fFma, if_pos nan, and_self]

end Sys2Proof.Machine

namespace Sys2Proof
open Machine

theorem only_one_nan : oneNaN := by
  refine fun mode op a b d => ⟨?_, fun nan => arithmetic_of_nan mode d (by simpa using nan), fFun_of_nan⟩
  simp only [List.forall_mem_cons]
  exact ⟨(SoleNaN.fAdd mode a b).eq_canonNaN, (SoleNaN.fSub mode a b).eq_canonNaN, (SoleNaN.fMul mode a b).eq_canonNaN,
    (SoleNaN.fFma mode a b d).eq_canonNaN, (SoleNaN.fMinMax false a b).eq_canonNaN, (SoleNaN.fMinMax true a b).eq_canonNaN,
    (SoleNaN.fFun op mode a).eq_canonNaN, List.forall_mem_nil _⟩

/-- Settles O23: every function ends in the canonical NaN, a zero, an infinity, an operand or a rounding; `fmin` and `fmax` by the
order of the values. -/
theorem naNAndMinMax : Obligations.NaNAndMinMax := ⟨only_one_nan, minMax_rule⟩

end Sys2Proof
end
